-- ==== Sys2Proof/Word.lean ====
section
/-! DEFINITION. The machine's word types and its two sparse containers.

`Mem` is the canonical list of bytes (`Host.Cell`): addresses strictly rising, no entry equal to what an unlisted
address reads as. `Tab` is the same shape for records that are keyed by a number. Their operations stand in
`Sys2Proof/Machine/Tab.lean`. -/

namespace Sys2Proof

abbrev Byte := BitVec 8
abbrev Bytes := List Byte
abbrev W16 := BitVec 16
abbrev W32 := BitVec 32
abbrev W64 := BitVec 64

/-- Bytes by address, in one canonical form. -/
abbrev Mem := List Host.Cell

/-- Records by number, keys strictly rising. -/
abbrev Tab (α : Type) := List (Nat × α)

end Sys2Proof
end

