-- ==== Sys2Proof/Syntax.lean ====
section
/-! DEFINITION. The commands and events of the module: one constructor of `Instr` for each row of
spec/opcode_table.json, with the operands the rows carry. A unit that exists in a fixed number is named by a `Fin`:
core 4d + c is CDd.Cc (Table 10-1, GRANT), cluster and channel n are RDk.LCj and CHn (R12), function f is PCIe
function f (R258). -/

namespace Sys2Proof

/-- What names one command in flight: its function, its submission queue and its command identifier. -/
structure CmdKey where
  fn : Fin 128
  sqid : Nat
  cid : Nat
  deriving DecidableEq, Repr, Inhabited

/-- A submission entry as fetched, with the bytes its data pointer gives the module to read (Table 12-1, R286, R287).
`dptr` is the number of bytes the data pointer describes. Admin commands have `sqid = 0`. -/
structure Sqe where
  fn : Fin 128
  sqid : Nat
  cid : Nat
  fuse : BitVec 2
  psdt : BitVec 2
  nsid : Nat
  cdw10 : W32
  cdw11 : W32
  cdw12 : W32
  cdw13 : W32
  cdw14 : W32
  cdw15 : W32
  dptr : Nat
  inp : Bytes
  deriving DecidableEq, Repr, Inhabited

/-- The name of the command an entry carries. -/
def Sqe.key (e : Sqe) : CmdKey := ⟨e.fn, e.sqid, e.cid⟩

/-- ATTEND parameter block, Table 12-5 (R292). -/
structure AttendP where
  layer : Nat
  qtok : Nat
  qfmt : BitVec 4
  ofmt : BitVec 4
  selective : Bool
  causal : Bool
  append : Bool
  tau : W32
  selBlocks : Nat
  sink : Nat
  recent : Nat
  window : Nat
  qpos : Nat
  deriving DecidableEq, Repr, Inhabited

/-- SEARCH parameter block, Table 12-6 (R293). -/
structure SearchP where
  mode : Nat
  qfmt : BitVec 4
  index : Nat
  gen : Nat
  k : Nat
  l : Nat
  par : Nat
  widen : Nat
  payload : Bool
  outRecords : Bool
  rsizeLog : Nat
  visitBudget : Nat
  plen : Nat
  timeBudget : Nat
  first : Nat
  count : Nat
  deriving DecidableEq, Repr, Inhabited

/-- Ingest binding parameters, Table 7-1 (R167) in the layout of Table 12-10. -/
structure IngestP where
  ingestId : Nat
  program : Nat
  payload : Nat
  chunkTokens : Nat
  overlap : Nat
  commitChunks : Nat
  commitMs : Nat
  cls : Nat
  backfill : Bool
  deriving DecidableEq, Repr, Inhabited

/-- SCATTER-UPDATE parameter block, Table 12-8 (R295). -/
structure ScatterP where
  step : Nat
  src : Nat
  set : Bool
  vfmt : BitVec 4
  coef : W32
  nidx : Nat
  deriving DecidableEq, Repr, Inhabited

/-- A segment of an ingest source (R168): `text` is false for a deallocation or a Write Zeroes. -/
structure Segment where
  offset : Nat
  length : Nat
  text : Bool
  deriving DecidableEq, Repr, Inhabited

/-- One chunk of a program's chunk list (R170): start offset, length and a VDIM-element FP16 vector. -/
structure Chunk where
  start : Nat
  length : Nat
  vec : List W16
  deriving DecidableEq, Repr, Inhabited

/-- A lamp dispatch as the root link delivers it (R103): its 16 dwords, its sender's account and seed, the core
that sent it (none: firmware), and the command it works for. -/
structure LampDispatch where
  dw : List W32
  account : Nat
  seed : W64
  core : Option (Fin 8)
  cmd : Option CmdKey := none
  deriving DecidableEq, Repr, Inhabited

/-- What a waiting lamp context waits for (R99). -/
inductive LampReq where
  | flash (nsid addr dst : Nat)
  | pool (addr : Nat) (dst : Nat)
  | unit (u : Nat)
  | slotFree
  deriving DecidableEq, Repr

/-- What answers a waiting context (R99, R102): a flash page, from the array or the decoded-page staging; a pool read; a
freed unit; a failed flash read. -/
inductive LampReply where
  | flashPage
  | poolRead
  | unitFree
  | flashFailed
  deriving DecidableEq, Repr

/-- An action a core holds back while a tile is open (R87). -/
inductive Deferred where
  | push (entry : List W32)
  | doorbell
  | dispatch (ch : Fin 48) (d : LampDispatch)
  deriving DecidableEq, Repr

/-- A SESSION-MOVE in progress (R230, R297): a residency change, or an export with the pieces written so far and its
SALT (R381). -/
structure MoveReq where
  key : CmdKey
  res : BitVec 2
  pin : Bool
  export_ : Bool
  nsid : Nat
  slba : Nat
  pos : Nat
  salt : Bytes
  deriving DecidableEq, Repr, Inhabited

/-- An NVM command that waits for flash reads (R271, R275), for write-buffer slots or for an entry of an ingest
segment queue (Table 11-4, R169): its entry and opcode, and whether its flash reads have ended. -/
structure Job where
  e : Sqe
  opc : Nat
  readDone : Bool
  /-- A Class 0 program that has waited for an earlier Class 0 command to leave its core (Table 10-7). -/
  waited : Bool := false
  deriving DecidableEq, Repr, Inhabited

/-- The kinds of an array operation of a NAND die (R308). -/
inductive NandKind where
  | read
  | program (slots : List Nat) (parity : Bool)
  | erase
  deriving DecidableEq, Repr

/-- An operation queued on a die (R308): its class, whether it is a ladder read, its block, its address and the
command it serves; of a system write, the bytes of each kind of record that it carries (R317). -/
structure NandOp where
  kind : NandKind
  cls : Nat
  ladder : Bool
  block : Nat
  addr : Nat
  nsid : Nat
  iu : Nat
  cmd : Option CmdKey
  recs : List (Nat × Nat) := []
  deriving DecidableEq, Repr

/-- How a page read came out (R324): the ladder step at which its codeword decoded, the corrected bits and the read
offset used; a decode of a codeword whose metadata names another unit (R310); or no decode at any applicable step. -/
inductive ReadOutcome where
  | decoded (step : Fin 6) (bits offset : Nat)
  | otherUnit (step : Fin 6)
  | failedStep0
  | exhausted (reached : Fin 6)
  deriving DecidableEq, Repr

/-- The outcome of the tree-mode test of an engine (R441, R437). -/
inductive EngineTest where
  | pass
  | cover (rowUse : BitVec 132) (colUse : BitVec 520)
  | noSpare
  deriving DecidableEq, Repr, Inhabited

/-- What a self-test of a unit found (R435, R436, R450): an engine's outcome; the defective context slots of a cluster;
SRAM rows covered by spare rows; a core whose control processor, vector unit or scratch fails beyond spare rows. -/
inductive TestResult where
  | engine (core : Fin 8) (eng : Fin 4) (test : EngineTest)
  | cluster (ch : Fin 48) (slots : Nat)
  | sram (rows : Nat)
  | core (core : Fin 8)
  deriving DecidableEq, Repr, Inhabited

/-- Elementwise operations of the vector unit (R81, Table 2-3): arithmetic, conversion to a format, conversion from MX
blocks with the scale bytes in the second operand, and quantisation of rows of 512 elements, of a token-wide row with the
row records named by their tiles' core addresses and row numbers (R46), or of MX blocks of 32 with the scales of R47 to
R49. -/
inductive VOp where
  | add | sub | mul | fma
  | max | min | neg | abs
  | convert (dst : BitVec 4)
  | convertMx (dst : BitVec 4)
  | quantSym (dst : BitVec 4)
  | quantToken (dst : BitVec 4) (rows : List (Nat × Nat))
  | quantAsym (code4 : Bool)
  | quantMx (dst : BitVec 4)
  deriving DecidableEq, Repr

/-- Functions of the vector unit (R81), each correctly rounded to FP32. -/
inductive VFn where
  | exp | exp2 | log2 | recip | rsqrt | sqrt
  deriving DecidableEq, Repr

/-- An elementwise operation with its OSAT (R43). -/
structure VElem where
  op : VOp
  osat : Bool
  deriving DecidableEq, Repr

/-- A function with its OSAT (R43). -/
structure VFunc where
  fn : VFn
  osat : Bool
  deriving DecidableEq, Repr

/-- A load by a core: its address, and whether the vector unit makes it (R109, Table 9-3). -/
structure CpLoad where
  addr : Nat
  vec : Bool
  deriving DecidableEq, Repr

/-- Reductions of the vector unit (R81). -/
inductive VRed where
  | sum | dot | max | min
  deriving DecidableEq, Repr

/-- Where the predicate unit finds its record (Table 4-8): in LOCAL, or in a decoded page of a namespace, up to 4 KiB from
a byte address on. -/
inductive PredSrc where
  | loc (r : Fin 32)
  | page (nsid lo hi : Fin 32)
  deriving DecidableEq, Repr

/-- One lamp instruction (R98): RV32IM with Krovdin unit instructions. The MX block scales of a multiply-accumulate's
operands lie in LOCAL where registers name them (Table 2-3). -/
inductive LampInsn where
  | addi (rd rs : Fin 32) (imm : BitVec 12)
  | slti (rd rs : Fin 32) (imm : BitVec 12)
  | sltiu (rd rs : Fin 32) (imm : BitVec 12)
  | xori (rd rs : Fin 32) (imm : BitVec 12)
  | ori (rd rs : Fin 32) (imm : BitVec 12)
  | andi (rd rs : Fin 32) (imm : BitVec 12)
  | slli (rd rs : Fin 32) (sh : Fin 32)
  | srli (rd rs : Fin 32) (sh : Fin 32)
  | srai (rd rs : Fin 32) (sh : Fin 32)
  | add (rd a b : Fin 32)
  | sub (rd a b : Fin 32)
  | sll (rd a b : Fin 32)
  | slt (rd a b : Fin 32)
  | sltu (rd a b : Fin 32)
  | xor (rd a b : Fin 32)
  | srl (rd a b : Fin 32)
  | sra (rd a b : Fin 32)
  | or (rd a b : Fin 32)
  | and (rd a b : Fin 32)
  | mul (rd a b : Fin 32)
  | mulh (rd a b : Fin 32)
  | mulhsu (rd a b : Fin 32)
  | mulhu (rd a b : Fin 32)
  | div (rd a b : Fin 32)
  | divu (rd a b : Fin 32)
  | rem (rd a b : Fin 32)
  | remu (rd a b : Fin 32)
  | lui (rd : Fin 32) (imm : BitVec 20)
  | auipc (rd : Fin 32) (imm : BitVec 20)
  | jal (rd : Fin 32) (off : BitVec 21)
  | jalr (rd rs : Fin 32) (imm : BitVec 12)
  | beq (a b : Fin 32) (off : BitVec 13)
  | bne (a b : Fin 32) (off : BitVec 13)
  | blt (a b : Fin 32) (off : BitVec 13)
  | bge (a b : Fin 32) (off : BitVec 13)
  | bltu (a b : Fin 32) (off : BitVec 13)
  | bgeu (a b : Fin 32) (off : BitVec 13)
  | fence
  | ecall
  | ebreak
  | loadLocal (rd rs : Fin 32) (imm : BitVec 12) (width : Nat) (sext : Bool)
  | storeLocal (src base : Fin 32) (imm : BitVec 12) (width : Nat)
  | poolRead (lo hi : Fin 32) (dst : Fin 32)
  | poolWrite (lo hi : Fin 32) (src : Fin 32) (width : Nat)
  | flashRead (nsid lo hi dst : Fin 32)
  | mac (da : Fin 4) (a b : Fin 32) (n : Nat) (afmt bfmt : BitVec 4) (ascale bscale : Option (Fin 32))
  | daClear (da : Fin 4) (mode : BitVec 2) (anchor : Fin 32)
  | daRound (rd : Fin 32) (da : Fin 4) (fmt : BitVec 4) (osat : Bool)
  | distance (rd lut code : Fin 32) (csub : Nat)
  | predicate (rd prog : Fin 32) (src : PredSrc)
  | exp (rd rs : Fin 32)
  | rawDraw (dst stream elem draw : Fin 32)
  | maskDraw (dst stream elem draw k : Fin 32)
  | endKernel
  | illegal
  deriving DecidableEq, Repr

/-- How a code-flash sequence was entered (R341, R342, R348): whether the pilot management core wrote it, how many of its cycles were written, whether every store was a
32-bit one, whether the core fetched the instruction of the first write from the array or had a fetch from it
outstanding, and whether it fetched an instruction from the array between cycle 1 and the last cycle. -/
structure CfCtx where
  core : Bool
  cycles : Nat
  wide : Bool
  fromArray : Bool
  fetchBetween : Bool
  deriving DecidableEq, Repr

/-- A register or descriptor field that a plain write names (REGISTER_WRITE, R10). -/
inductive RegAddr where
  | coreMem (core : Fin 8) (fw : Bool) (addr : Nat)
  | cfInten
  | cfStatus
  | gatherCfg
  | ctrlReg (fn : Fin 128) (off : Nat)
  | doorbellPort (fn : Fin 128) (off : Nat)
  | msixTable (fn : Fin 128) (off : Nat)
  | vfEnable (n : Nat)
  | powerD0 (fn : Fin 128)
  deriving DecidableEq, Repr

/-- The four Waori transports (R402). -/
inductive Transport where
  | mctp | doe | inband | port
  deriving DecidableEq, Repr, Inhabited

/-- Where a Waori request comes from (R402): the transport, its identity there, the SPDM secured session that carried it
(R370), and, on the port, whether its frame passed the checks of R406. -/
structure WSrc where
  via : Transport
  id : Nat
  session : Option Nat
  auth : Bool
  deriving DecidableEq, Repr, Inhabited

/-- A Waori UDP frame's fields as received (R404, R405): the checks of the IPv6 and UDP headers, then the payload. -/
structure Frame where
  srcAddr : BitVec 128
  toGroup : Bool
  toUs : Bool
  port : Nat
  hopLimit : Nat
  udpSumOk : Bool
  payload : Bytes
  deriving DecidableEq, Repr, Inhabited

/-- SPDM endpoints (R371): a function's DOE mailbox, the MCTP endpoint, or a controller's Security Send/Receive. -/
inductive Endpoint where
  | doe (fn : Fin 128)
  | mctp
  | nvme (fn : Fin 128)
  deriving DecidableEq, Repr

/-- SPDM requests the responder answers (R371). `mutualOk` says that the requester proved a chain whose root public
key is an enrolled owner key (R370). -/
inductive SpdmReq where
  | getVersion | getCapabilities | negotiateAlgorithms | getDigests | getCertificate
  | challenge | getMeasurements (index : Nat)
  | keyExchange (root : Option Bytes)
  | finish
  | heartbeat (session : Nat)
  | keyUpdate (session : Nat)
  | endSession (session : Nat)
  | other
  deriving DecidableEq, Repr

/-- The readings of one 100 µs energy sample (R248): per part, its energy in µJ and the activity of each account. -/
structure MeterReading where
  energy : Nat
  activity : List (Nat × Nat)
  deriving DecidableEq, Repr, Inhabited

/-- A page's result in a patrol or in the read-back of a closed block (R322, R331). The read is of every page of the block: one
that the list leaves out decoded at step 0 with no corrected bit. -/
structure PageResult where
  addr : Nat
  out : ReadOutcome
  deriving DecidableEq, Repr

/-- The commands and events of the module, one constructor per row of the table. -/
inductive Instr where
  /-- ME_DESC_ARM (R75). -/
  | meDescArm (core : Fin 8) (slot : Fin 16) (dw0 : W32) (fw : Bool)
  /-- PASS_ISSUE (R58). -/
  | passIssue (core : Fin 8)
  /-- CHAIN_DRAIN_COMPLETE (R65). -/
  | chainDrainComplete (core : Fin 8) (slot : Fin 16)
  /-- KEEP_LIT_RAMP_DOWN (R71). -/
  | keepLitRampDown (core : Fin 8)
  /-- ARRAY_CLOCK_GATE (R71). -/
  | arrayClockGate (core : Fin 8)
  /-- RESIDUE_FAULT (R69). -/
  | residueFault (core : Fin 8) (eng : Fin 4) (test : EngineTest)
  /-- CLOCK_STEP_CHANGE (R424). -/
  | clockStepChange (core : Fin 8)
  /-- TILE_DESC_ARM (R90). -/
  | tileDescArm (core : Fin 8) (slot : Fin 2) (dw0 : W32)
  /-- TILE_OPEN (R86). -/
  | tileOpen (core : Fin 8)
  /-- TILE_CLOSE (R84). -/
  | tileClose (core : Fin 8) (slot : Fin 2)
  /-- TILE_COMPLETE (R84). -/
  | tileComplete (core : Fin 8)
  /-- TILE_BUDGET_EXCEEDED (R85). -/
  | tileBudgetExceeded (core : Fin 8)
  /-- TM_DESC_ARM (R93). -/
  | tmDescArm (core : Fin 8) (slot : Fin 32) (dw0 : W32)
  /-- TM_COPY_COMPLETE (R94). -/
  | tmCopyComplete (core : Fin 8)
  /-- MBOX_IN_POP (R95). -/
  | mboxInPop (core : Fin 8)
  /-- MBOX_OUT_PUSH (R95). -/
  | mboxOutPush (core : Fin 8)
  /-- CORE_DB_OUT (R95). -/
  | coreDbOut (core : Fin 8)
  /-- FIRMWARE_MBOX_POST (R95). -/
  | firmwareMboxPost (core : Fin 8) (entry : List W32)
  /-- CP_ACCESS_FAULT (R109). -/
  | cpAccessFault (core : Fin 8) (load : CpLoad)
  /-- VECTOR_ELEMENTWISE (R81). -/
  | vectorElementwise (core : Fin 8) (op : VElem) (fmt : BitVec 4) (vd va vb vc : Fin 32)
  /-- VECTOR_FUNCTION (R81). -/
  | vectorFunction (core : Fin 8) (op : VFunc) (vd va : Fin 32)
  /-- VECTOR_REDUCTION (R81). -/
  | vectorReduction (core : Fin 8) (op : VRed) (fmt : BitVec 4) (vd va vb : Fin 32) (osat : Bool)
  /-- VECTOR_STORE (R214). -/
  | vectorStore (core : Fin 8) (vs : Fin 32) (addr : Nat) (fmt : BitVec 4)
  /-- VECTOR_STOCHASTIC_CONVERT (R195). -/
  | vectorStochasticConvert (core : Fin 8) (dst : BitVec 4) (vd va : Fin 32) (stream : W32) (base : W64) (osat : Bool)
  /-- VECTOR_BERNOULLI_MASK (R201). -/
  | vectorBernoulliMask (core : Fin 8) (vd : Fin 32) (stream : W32) (base : W64) (draw : W32) (k : Nat)
  /-- VECTOR_RAW_DRAW (R195). -/
  | vectorRawDraw (core : Fin 8) (vd : Fin 32) (stream : W32) (base : W64) (draw : W32)
  /-- LAMP_DISPATCH (R103). -/
  | lampDispatch (ch : Fin 48) (d : LampDispatch)
  /-- LAMP_CONTEXT_START (R103). -/
  | lampContextStart (ch : Fin 48)
  /-- LAMP_INSTRUCTION_ISSUE (R100). -/
  | lampInstructionIssue (ch : Fin 48) (insn : LampInsn)
  /-- LAMP_DATA_ARRIVE (R99). -/
  | lampDataArrive (ch : Fin 48) (slot : Fin 512) (r : LampReply)
  /-- LAMP_CONTEXT_END (R102). -/
  | lampContextEnd (ch : Fin 48) (slot : Fin 512)
  /-- PARTIAL_MERGE (R40). -/
  | partialMerge (key : CmdKey) (unit : Nat) (core : Option (Fin 8)) (rec : List Byte)
  /-- ATTEND (R122). -/
  | attend (e : Sqe)
  /-- ATTEND_MERGE_COMPLETE (R126). -/
  | attendMergeComplete (key : CmdKey)
  /-- SEARCH_QUERY (R147). -/
  | searchQuery (e : Sqe)
  /-- SEARCH_ROUND_MERGED (R149). -/
  | searchRoundMerged (key : CmdKey)
  /-- SEARCH_REPLY_MERGE (R150). -/
  | searchReplyMerge (key : CmdKey) (node : Nat)
  /-- SEARCH_TIME_BUDGET_EXPIRY (R150). -/
  | searchTimeBudgetExpiry (key : CmdKey)
  /-- SEARCH_SCAN (R159). -/
  | searchScan (e : Sqe)
  /-- INDEX_CREATE (R135). -/
  | indexCreate (e : Sqe)
  /-- INDEX_INSERT (R143). -/
  | indexInsert (e : Sqe)
  /-- INDEX_DELETE (R144). -/
  | indexDelete (e : Sqe)
  /-- INDEX_COMMIT (R142). -/
  | indexCommit (e : Sqe)
  /-- INDEX_DESTROY (R302). -/
  | indexDestroy (e : Sqe)
  /-- INGEST_BIND (R167). -/
  | ingestBind (e : Sqe)
  /-- INGEST_UNBIND (R172). -/
  | ingestUnbind (e : Sqe)
  /-- RECALL_PROBE (R163). -/
  | recallProbe (e : Sqe)
  /-- COMPACTION_CHUNK (R145). -/
  | compactionChunk (index : Nat)
  /-- GENERATION_FREE (R142). -/
  | generationFree
  /-- INGEST_SEGMENT (R170). -/
  | ingestSegment (index : Nat) (core : Fin 8)
  /-- INGEST_CHUNK_LIST (R171). -/
  | ingestChunkList (index : Nat) (ok : Bool) (chunks : List Chunk)
  /-- INGEST_COMMIT (R172). -/
  | ingestCommit (index : Nat)
  /-- TABLE_CREATE (R173). -/
  | tableCreate (e : Sqe)
  /-- WRITE_ROWS (R175). -/
  | writeRows (e : Sqe)
  /-- PUBLISH (R177). -/
  | publish (e : Sqe)
  /-- ABORT_STEP (R188). -/
  | abortStep (e : Sqe)
  /-- TABLE_DESTROY (R304). -/
  | tableDestroy (e : Sqe)
  /-- GATHER (R180). -/
  | gather (e : Sqe)
  /-- HOT_ROW_WINDOW_END (R185). -/
  | hotRowWindowEnd (table : Nat)
  /-- SCATTER_UPDATE (R187). -/
  | scatterUpdate (e : Sqe)
  /-- SESSION_OPEN (R110). -/
  | sessionOpen (e : Sqe)
  /-- SESSION_CLOSE (R300). -/
  | sessionClose (e : Sqe)
  /-- SESSION_MOVE_RESIDENCY (R297). -/
  | sessionMoveResidency (e : Sqe)
  /-- SESSION_EXPORT (R381). -/
  | sessionExport (e : Sqe)
  /-- REPLAY (R459). -/
  | replay (e : Sqe)
  /-- FLIGHT_LOG_GET_SESSION_LOG (R456). -/
  | flightLogGetSessionLog (e : Sqe)
  /-- FLIGHT_LOG_GET_CLOSED_RECORDS (R305). -/
  | flightLogGetClosedRecords (e : Sqe)
  /-- FLIGHT_LOG_GET_STEP_REPORTS (R305). -/
  | flightLogGetStepReports (e : Sqe)
  /-- FLIGHT_LOG_GET_PROBE_REPORT (R305). -/
  | flightLogGetProbeReport (e : Sqe)
  /-- HOT_IDLE_DEMOTE (R232). -/
  | hotIdleDemote (session : Nat)
  /-- CLASS0_PREEMPT (R241). -/
  | class0Preempt (core : Fin 8) (session : Nat)
  /-- CORE_SWITCH_COMPLETE (R240). -/
  | coreSwitchComplete (core : Fin 8)
  /-- SLICE_END (R242). -/
  | sliceEnd (core : Fin 8) (overrun : Nat)
  /-- ENERGY_METER_SAMPLE (R248). -/
  | energyMeterSample (readings : List MeterReading)
  /-- ACCOUNT_BIND (R210). -/
  | accountBind (account : Fin 129)
  /-- SCRUB_PASS_END (R223). -/
  | scrubPassEnd (array : Nat)
  /-- TAG_QUARANTINE_RELEASE (R224). -/
  | tagQuarantineRelease
  /-- CHK_TEST_WRITE (R222). -/
  | chkTestWrite (canopy : Bool) (unit : Fin 16) (value : W64)
  /-- REGISTER_WRITE (R10). -/
  | registerWrite (r : RegAddr) (value : W64)
  /-- CONFIG_REQUEST (R256). -/
  | configRequest (fn : Fin 128) (off : Nat)
  /-- SQ_TAIL_DOORBELL (R257). -/
  | sqTailDoorbell (fn : Fin 128) (sqid : Nat) (tail : Nat)
  /-- CQ_HEAD_DOORBELL (R264). -/
  | cqHeadDoorbell (fn : Fin 128) (cqid : Nat) (head : Nat)
  /-- COMMAND_FETCH (R263). -/
  | commandFetch (opc : BitVec 8) (cid nsid : Nat) (session : Option Nat)
  /-- IDENTIFY (R259). -/
  | identify (e : Sqe)
  /-- GET_LOG_PAGE (R283). -/
  | getLogPage (e : Sqe)
  /-- GET_FEATURES (R259). -/
  | getFeatures (e : Sqe)
  /-- SET_FEATURES (R276). -/
  | setFeatures (e : Sqe)
  /-- ABORT (R281). -/
  | abort (e : Sqe)
  /-- ASYNCHRONOUS_EVENT_REQUEST (R284). -/
  | asynchronousEventRequest (e : Sqe)
  /-- CREATE_IO_SUBMISSION_QUEUE (R262). -/
  | createIoSubmissionQueue (e : Sqe)
  /-- CREATE_IO_COMPLETION_QUEUE (R259). -/
  | createIoCompletionQueue (e : Sqe)
  /-- DELETE_IO_SUBMISSION_QUEUE (R282). -/
  | deleteIoSubmissionQueue (e : Sqe)
  /-- DELETE_IO_COMPLETION_QUEUE (R259). -/
  | deleteIoCompletionQueue (e : Sqe)
  /-- NAMESPACE_CREATE (R269). -/
  | namespaceCreate (e : Sqe)
  /-- NAMESPACE_DELETE (R270). -/
  | namespaceDelete (e : Sqe)
  /-- NAMESPACE_ATTACHMENT (R267). -/
  | namespaceAttachment (e : Sqe)
  /-- FORMAT_NVM (R478). -/
  | formatNvm (e : Sqe)
  /-- SECURITY_SEND (R371). -/
  | securitySend (e : Sqe) (req : SpdmReq)
  /-- SECURITY_RECEIVE (R371). -/
  | securityReceive (e : Sqe)
  /-- NVME_MI_SEND (R402). -/
  | nvmeMiSend (e : Sqe)
  /-- NVME_MI_RECEIVE (R402). -/
  | nvmeMiReceive (e : Sqe)
  /-- SANITIZE (R385). -/
  | sanitize (e : Sqe)
  /-- FIRMWARE_IMAGE_DOWNLOAD (R355). -/
  | firmwareImageDownload (e : Sqe)
  /-- FIRMWARE_COMMIT (R357). -/
  | firmwareCommit (e : Sqe)
  /-- DEVICE_SELF_TEST (R436). -/
  | deviceSelfTest (e : Sqe)
  /-- READ (R271). -/
  | read (e : Sqe)
  /-- WRITE (R271). -/
  | write (e : Sqe)
  /-- FLUSH (R273). -/
  | flush (e : Sqe)
  /-- COMPARE (R275). -/
  | compare (e : Sqe)
  /-- VERIFY (R275). -/
  | verify (e : Sqe)
  /-- WRITE_ZEROES (R274). -/
  | writeZeroes (e : Sqe)
  /-- DATASET_MANAGEMENT (R274). -/
  | datasetManagement (e : Sqe)
  /-- LOAD_PROGRAM (R107). -/
  | loadProgram (e : Sqe)
  /-- PROGRAM_ACTIVATION_MANAGEMENT (R275). -/
  | programActivationManagement (e : Sqe)
  /-- EXECUTE_PROGRAM (R277). -/
  | executeProgram (e : Sqe) (core : Fin 8)
  /-- MEMORY_RANGE_SET_MANAGEMENT (R278). -/
  | memoryRangeSetManagement (e : Sqe)
  /-- MEMORY_READ (R278). -/
  | memoryRead (e : Sqe)
  /-- MEMORY_WRITE (R278). -/
  | memoryWrite (e : Sqe)
  /-- MEMORY_COPY (R275). -/
  | memoryCopy (e : Sqe)
  /-- IO_WATCHDOG_EXPIRY (R279). -/
  | ioWatchdogExpiry (key : CmdKey)
  /-- CONTROLLER_RESET (R282). -/
  | controllerReset (fn : Fin 128)
  /-- FUNCTION_LEVEL_RESET (R282). -/
  | functionLevelReset (fn : Fin 128)
  /-- CONVENTIONAL_RESET (R433). -/
  | conventionalReset
  /-- FUNCTION_D3HOT (R422). -/
  | functionD3hot (fn : Fin 128)
  /-- NAND_READ_COMPLETE (R324). -/
  | nandReadComplete (ch : Fin 48) (die : Fin 16) (r : ReadOutcome)
  /-- NAND_PROGRAM_COMPLETE (R316). -/
  | nandProgramComplete (ch : Fin 48) (die : Fin 16) (pass : Bool)
  /-- NAND_ERASE_COMPLETE (R333). -/
  | nandEraseComplete (ch : Fin 48) (die : Fin 16) (pass : Bool)
  /-- CLASS0_FLASH_PREEMPT (R251). -/
  | class0FlashPreempt (ch : Fin 48) (die : Fin 16) (op : NandOp)
  /-- LADDER_BUDGET_EXPIRY (R325). -/
  | ladderBudgetExpiry (ch : Fin 48) (addr : Nat)
  /-- DESTAGE_TIMEOUT (R316). -/
  | destageTimeout (ch : Fin 48)
  /-- BLOCK_VERIFY (R322). -/
  | blockVerify (ch : Fin 48) (block : Nat) (pages : List PageResult)
  /-- MOVE_COMMIT (R328). -/
  | moveCommit (ch : Fin 48) (block : Nat)
  /-- GARBAGE_COLLECTION (R330). -/
  | garbageCollection (ch : Fin 48)
  /-- PATROL_READ (R331). -/
  | patrolRead (ch : Fin 48) (block : Nat) (pages : List PageResult)
  /-- REFRESH_MOVE (R331). -/
  | refreshMove (ch : Fin 48)
  /-- WEAR_LEVEL_MOVE (R332). -/
  | wearLevelMove (ch : Fin 48)
  /-- MAP_CHECKPOINT (R314). -/
  | mapCheckpoint (ch : Fin 48)
  /-- NAND_DIE_FAILURE (R451). -/
  | nandDieFailure (ch : Fin 48) (die : Fin 16)
  /-- WORD_PROGRAM (R344). -/
  | wordProgram (addr data : W32) (ctx : CfCtx)
  /-- SECTOR_ERASE (R342). -/
  | sectorErase (addr : W32) (ctx : CfCtx)
  /-- BLOCK_ERASE (R342). -/
  | blockErase (addr : W32) (ctx : CfCtx)
  /-- SUSPEND (R347). -/
  | suspend (addr : W32) (ctx : CfCtx)
  /-- RESUME (R347). -/
  | resume (addr : W32) (ctx : CfCtx)
  /-- SEQUENCE_RESET (R343). -/
  | sequenceReset (addr : W32) (ctx : CfCtx)
  /-- CF_OPERATION_DONE (R346). -/
  | cfOperationDone (ok : Bool)
  /-- CF_ARRAY_READ (R347). -/
  | cfArrayRead (addr : W32) (fetch : Bool)
  /-- CF_REGION_WRITE (R350). -/
  | cfRegionWrite (rgn : Fin 8) (value : W64)
  /-- FW_ACTIVATION (R358). -/
  | fwActivation (replicaOk : List Bool)
  /-- TK_STATUS (R375). -/
  | tkStatus (fn : Fin 128) (session : Option Nat)
  /-- TK_CLAIM (R376). -/
  | tkClaim (fn : Fin 128) (session : Option Nat) (mode : Byte) (secret : Bytes)
  /-- TK_UNLOCK (R374). -/
  | tkUnlock (fn : Fin 128) (session : Option Nat) (secret : Bytes)
  /-- TK_LOCK (R377). -/
  | tkLock (fn : Fin 128) (session : Option Nat)
  /-- OWNER_REQUEST (R369). -/
  | ownerRequest (src : WSrc) (req : Bytes)
  /-- SPDM_REQUEST (R371). -/
  | spdmRequest (ep : Endpoint) (req : SpdmReq)
  /-- IDE_KM_KEY_PROGRAM (R383). -/
  | ideKmKeyProgram (stream : Fin 9) (session : Option Nat) (vfs : List Nat)
  /-- IDE_INTEGRITY_FAILURE (R383). -/
  | ideIntegrityFailure (stream : Fin 9)
  /-- LOCK_INTERFACE (R384). -/
  | lockInterface (fn : Fin 128)
  /-- START_INTERFACE (R384). -/
  | startInterface (fn : Fin 128)
  /-- STOP_INTERFACE (R384). -/
  | stopInterface (fn : Fin 128)
  /-- WAORI_READ (R399). -/
  | waoriRead (src : WSrc) (pdu : Bytes)
  /-- WAORI_WRITE (R390). -/
  | waoriWrite (src : WSrc) (pdu : Bytes)
  /-- WAORI_DESCRIBE (R399). -/
  | waoriDescribe (src : WSrc) (pdu : Bytes)
  /-- WAORI_LIST (R399). -/
  | waoriList (src : WSrc) (pdu : Bytes)
  /-- COMMIT (R394). -/
  | commit (src : WSrc) (expected : W64)
  /-- DISCARD_STAGED_SET (R393). -/
  | discardStagedSet (src : WSrc) (value : Byte)
  /-- FACTORY_RESTORE (R392). -/
  | factoryRestore (src : WSrc) (value : W32)
  /-- STAGED_SET_TIMEOUT (R393). -/
  | stagedSetTimeout (source : Nat)
  /-- WAORI_FRAME (R406). -/
  | waoriFrame (f : Frame)
  /-- DISCOVER_FRAME (R408). -/
  | discoverFrame (f : Frame)
  /-- ANNOUNCE (R408). -/
  | announce
  /-- DL_DATA (R412). -/
  | dlData (src : WSrc) (bytes : Bytes)
  /-- DL_ACTION_STAGE (R412). -/
  | dlActionStage (src : WSrc)
  /-- DL_ACTION_STAGE_ACTIVATE (R412). -/
  | dlActionStageActivate (src : WSrc)
  /-- DL_ACTION_DISCARD (R412). -/
  | dlActionDiscard (src : WSrc)
  /-- PORT_KEY_WRITE (R415). -/
  | portKeyWrite (src : WSrc) (key : Bytes)
  /-- I3C_ENTDAA (R403). -/
  | i3cEntdaa
  /-- PILOT_CLOCK_START (R418). -/
  | pilotClockStart
  /-- PILOT_CLOCK_STOP (R418). -/
  | pilotClockStop
  /-- CORE_DIM (R420). -/
  | coreDim (core : Fin 8)
  /-- CORE_DARK (R420). -/
  | coreDark (core : Fin 8)
  /-- CORE_WAKE (R420). -/
  | coreWake (core : Fin 8)
  /-- CANOPY_DIE_DARK (R420). -/
  | canopyDieDark (die : Fin 2)
  /-- BANKED_ENTRY (R422). -/
  | bankedEntry
  /-- PARKED_ENTRY (R422). -/
  | parkedEntry
  /-- PARKED_DUE_WORK (R422). -/
  | parkedDueWork
  /-- WAKE_TO_RUNNING (R423). -/
  | wakeToRunning
  /-- POWER_SAMPLE (R425). -/
  | powerSample (avg slotW cableW : Nat) (predicted : Nat)
  /-- THERMAL_STEP (R428). -/
  | thermalStep (die : Fin 32) (temp : Int)
  /-- EMERGENCY_TRIP (R427). -/
  | emergencyTrip (cause : Fin 3) (die : Fin 32)
  /-- EMERGENCY_THROTTLE_END (R427). -/
  | emergencyThrottleEnd
  /-- THERMAL_SHUTDOWN (R429). -/
  | thermalShutdown (die : Fin 32) (temp : Int)
  /-- NAND_CASE_TEMP_LIMIT (R473). -/
  | nandCaseTempLimit (ch : Fin 48) (temp : Int)
  /-- POWER_LOSS_DETECT (R430). -/
  | powerLossDetect
  /-- BANK_TEST (R432). -/
  | bankTest (usable : W32)
  /-- POWER_ON_STARTUP (R434). -/
  | powerOnStartup (sense : BitVec 2) (cfImageOk : Bool) (replicaOk : List Bool) (defects : List TestResult) (nonce : W64)
  /-- VAUX_POWER_ON (R433). -/
  | vauxPowerOn (cfImageOk : Bool) (nonce : W64)
  /-- SINGLE_INPUT_12V (R468). -/
  | singleInput12v (slotPresent cfImageOk : Bool) (nonce : W64)
  /-- PWRBRK_ASSERT (R469). -/
  | pwrbrkAssert
  /-- RAIL_OUT_OF_REGULATION (R470). -/
  | railOutOfRegulation (pilot pool : Bool) (timeMs : Nat)
  /-- FIELD_SELF_TEST (R436). -/
  | fieldSelfTest (result : TestResult)
  /-- MODULE_FAULT (R443). -/
  | moduleFault (cause : Fin 6) (timeMs : Nat)
  /-- PILOT_WATCHDOG_RESET (R433). -/
  | pilotWatchdogReset (nonce : W64)
  /-- CONTROL_PROCESSOR_STORE (R214). -/
  | controlProcessorStore (core : Fin 8) (addr : Nat) (bytes : Bytes)
  /-- HOLDUP_SEQUENCE_END (R430). -/
  | holdupSequenceEnd (completed powerPresent : Bool)
  /-- VAUX_REMOVAL (R403). -/
  | vauxRemoval
  /-- PWRBRK_RELEASE (R469). -/
  | pwrbrkRelease
  /-- LPDDR5X_TEMP_LIMIT (R473). -/
  | lpddr5xTempLimit (pkg : Fin 16) (temp : Int)
  /-- PLCA_BEACON_TIMEOUT (R410). -/
  | plcaBeaconTimeout
  /-- PLCA_BEACON_RECEIVED (R410). -/
  | plcaBeaconReceived
  /-- PLCA_OPPORTUNITY_COLLISION (R409). -/
  | plcaOpportunityCollision
  /-- ICMPV6_REQUEST (R404). -/
  | icmpv6Request (echo : Bool) (src : BitVec 128) (payload : Bytes)
  /-- SPDM_HEARTBEAT_TIMEOUT (R371). -/
  | spdmHeartbeatTimeout (ep : Endpoint) (session : Nat)
  /-- LINK_TRAINING_COMPLETE (R256). -/
  | linkTrainingComplete
  /-- ACTIVATION_COMMAND_TIMEOUT (R358). -/
  | activationCommandTimeout
  deriving DecidableEq, Repr

end Sys2Proof
end

