-- ==== Sys2Proof/Decode.lean ====
section
/-! DEFINITION. The command that a word spells, for the rows of the table that give bits. -/

namespace Sys2Proof

/-- The rows of spec/opcode_table.json give no bits, so no word spells a command. -/
def decodeTableWord (_nbits _w : Nat) : Option Instr := none

end Sys2Proof
end

