-- ==== Sys2Proof/Machine/Tab.lean ====
section
/-! DEFINITION. Operations of the two sparse containers, and the bit and byte helpers every other file uses
(little-endian values, R4). -/

namespace Sys2Proof

/-- The record at a key. -/
def Tab.get? {α : Type} : Tab α → Nat → Option α
  | [], _ => none
  | (k, v) :: t, i => if k = i then some v else Tab.get? t i

/-- The record at a key, or the given one. -/
def Tab.getD {α : Type} (t : Tab α) (i : Nat) (d : α) : α := (t.get? i).getD d

/-- The table with a record stored at a key, keys rising. -/
def Tab.put {α : Type} : Tab α → Nat → α → Tab α
  | [], i, v => [(i, v)]
  | (k, w) :: t, i, v =>
    if i < k then (i, v) :: (k, w) :: t
    else if i = k then (i, v) :: t
    else (k, w) :: Tab.put t i v

/-- The table without a key. -/
def Tab.del {α : Type} (t : Tab α) (i : Nat) : Tab α := t.filter fun p => p.1 != i

/-- The table with the record at a key changed; a missing one starts from `d`. -/
def Tab.upd {α : Type} (t : Tab α) (i : Nat) (d : α) (f : α → α) : Tab α := t.put i (f (t.getD i d))

/-- The table with the record at a key changed, where there is one. -/
def Tab.mod {α : Type} (t : Tab α) (i : Nat) (f : α → α) : Tab α :=
  match t.get? i with
  | some v => t.put i (f v)
  | none => t

/-- Is there a record at the key? -/
def Tab.has {α : Type} (t : Tab α) (i : Nat) : Bool := (t.get? i).isSome

/-- The records that satisfy a test, with their keys. -/
def Tab.keep {α : Type} (t : Tab α) (p : Nat → α → Bool) : Tab α := t.filter fun x => p x.1 x.2

/-- Every record changed by a function of its key. -/
def Tab.mapVals {α β : Type} (t : Tab α) (f : Nat → α → β) : Tab β := t.map fun x => (x.1, f x.1 x.2)

/-- The lowest number below `n` with no record, from `i` on. -/
def Tab.firstFree {α : Type} (t : Tab α) (i : Nat) : Nat → Option Nat
  | 0 => none
  | n + 1 => if t.has i then Tab.firstFree t (i + 1) n else some i

/-- Do the keys rise strictly, from above `lo`? -/
def Tab.risingFrom {α : Type} : Option Nat → Tab α → Bool
  | _, [] => true
  | lo, (k, _) :: t => (match lo with | none => true | some l => decide (l < k)) && Tab.risingFrom (some k) t

/-- The canonical form of a table. -/
def Tab.wf {α : Type} (t : Tab α) : Bool := Tab.risingFrom none t

/-- The byte at an address; `d` is what an unlisted address reads as. -/
def Mem.get (d : Byte) : Mem → Nat → Byte
  | [], _ => d
  | (k, v) :: t, a => if k = a then v else Mem.get d t a

/-- The memory with one byte stored. Storing the byte an unlisted address reads as removes the entry. -/
def Mem.put (d : Byte) : Mem → Nat → Byte → Mem
  | [], a, v => if v = d then [] else [(a, v)]
  | (k, w) :: t, a, v =>
    if a < k then (if v = d then (k, w) :: t else (a, v) :: (k, w) :: t)
    else if a = k then (if v = d then t else (a, v) :: t)
    else (k, w) :: Mem.put d t a v

/-- The memory with a run of bytes stored from an address on. -/
def Mem.puts (d : Byte) : Mem → Nat → Bytes → Mem
  | m, _, [] => m
  | m, a, b :: bs => Mem.puts d (Mem.put d m a b) (a + 1) bs

/-- A run of `n` bytes from an address on. -/
def Mem.gets (d : Byte) (m : Mem) (a : Nat) (n : Nat) : Bytes := (List.range n).map fun i => m.get d (a + i)

/-- The memory with the bytes of an address range at the value an unlisted address reads as. -/
def Mem.clear (m : Mem) (lo n : Nat) : Mem := m.filter fun c => !(decide (lo ≤ c.1) && decide (c.1 < lo + n))

/-- The bytes of an address range moved so that `lo` becomes 0. -/
def Mem.slice (m : Mem) (lo n : Nat) : Mem :=
  (m.filter fun c => decide (lo ≤ c.1) && decide (c.1 < lo + n)).map fun c => (c.1 - lo, c.2)

/-- Do the addresses rise strictly, with no entry equal to the default? -/
def Mem.risingFrom (d : Byte) : Option Nat → Mem → Bool
  | _, [] => true
  | lo, (k, v) :: t =>
    (match lo with | none => true | some l => decide (l < k)) && (v != d) && Mem.risingFrom d (some k) t

/-- The canonical form of a memory. -/
def Mem.wf (d : Byte) (m : Mem) : Bool := Mem.risingFrom d none m

/-- Little-endian value of bytes. -/
def leNat : Bytes → Nat
  | [] => 0
  | b :: bs => b.toNat + 256 * leNat bs

/-- The `n` little-endian bytes of a value. -/
def toLe : Nat → Nat → Bytes
  | 0, _ => []
  | n + 1, v => BitVec.ofNat 8 v :: toLe n (v / 256)

/-- The field `[hi:lo]` of a value (R3). -/
def fieldOf (v hi lo : Nat) : Nat := (v / 2 ^ lo) % 2 ^ (hi + 1 - lo)

/-- Bit `i` of a value. -/
def bitOf (v i : Nat) : Bool := (v / 2 ^ i) % 2 == 1

/-- The value with the field `[hi:lo]` replaced. -/
def setField (v hi lo x : Nat) : Nat :=
  v - fieldOf v hi lo * 2 ^ lo + (x % 2 ^ (hi + 1 - lo)) * 2 ^ lo

/-- Bytes `off` to `off + n - 1`, zero beyond the end. -/
def Bytes.sub (b : Bytes) (off n : Nat) : Bytes :=
  let r := (b.drop off).take n
  r ++ List.replicate (n - r.length) 0

/-- Little-endian value of `n` bytes at an offset. -/
def Bytes.le (b : Bytes) (off n : Nat) : Nat := leNat (Bytes.sub b off n)

/-- A list of `n` values of `w` bytes each from an offset. -/
def Bytes.les (b : Bytes) (off w n : Nat) : List Nat := (List.range n).map fun i => Bytes.le b (off + w * i) w

/-- Two's complement reading of the low `w` bits. -/
def signedOf (w v : Nat) : Int :=
  let x := v % 2 ^ w
  if x < 2 ^ (w - 1) then (x : Int) else (x : Int) - (2 ^ w : Nat)

/-- The low `w` bits of an integer. -/
def natOfInt (w : Nat) (x : Int) : Nat := (x % (2 ^ w : Nat)).toNat

/-- `ceil (a / b)`. -/
def ceilDiv (a b : Nat) : Nat := (a + b - 1) / b

/-- Round up to a multiple. -/
def roundUp (a m : Nat) : Nat := ceilDiv a m * m

/-- The list with element `i` replaced. -/
def setAt {α : Type} : List α → Nat → α → List α
  | [], _, _ => []
  | _ :: t, 0, v => v :: t
  | x :: t, i + 1, v => x :: setAt t i v

/-- Saturating addition below `2 ^ w`. -/
def satAdd (w a b : Nat) : Nat := min (a + b) (2 ^ w - 1)

/-- The largest element of a list of naturals, 0 for none. -/
def maxNat (l : List Nat) : Nat := l.foldl max 0

/-- Sum of a list of naturals. -/
def sumNat (l : List Nat) : Nat := l.foldl (· + ·) 0

/-- Update of one element of a vector. -/
def upd {α : Type} {n : Nat} (v : Vector α n) (i : Fin n) (f : α → α) : Vector α n := v.set i (f v[i])

/-- Insert into a list by a strict order, after its equals. -/
def insertBy {α : Type} (lt : α → α → Bool) (x : α) : List α → List α
  | [] => [x]
  | y :: t => if lt x y then x :: y :: t else y :: insertBy lt x t

/-- Sort a list by a strict order; equals keep their order. -/
def sortBy {α : Type} (lt : α → α → Bool) (l : List α) : List α := l.foldl (fun acc x => insertBy lt x acc) []

end Sys2Proof
end

