-- ==== Sys2Proof/Machine/Crypto.lean ====
section
/-! DEFINITION. SHA-384, HMAC-SHA-384 and HKDF (spec 15). PRESUMED, log 13: the spec names these functions and does
not restate them; they are written from the published standards (FIPS 180-4, RFC 2104, RFC 5869). -/

namespace Sys2Proof.Crypto

/-! The constants of FIPS 180-4 are computed from the sentence of the standard that says what they are: the first 64 bits of
the fractional parts of roots of primes. -/

/-- The largest number of which the `k`th power is at most `x`, its `n` low bits found from the highest down. -/
def rootFrom (k x : Nat) : Nat → Nat → Nat
  | 0, r => r
  | n + 1, r => rootFrom k x n (if (r + 2 ^ n) ^ k ≤ x then r + 2 ^ n else r)

/-- The first 64 fractional bits of the `k`th root of a prime below 512. -/
def rootBits (k p : Nat) : W64 := BitVec.ofNat 64 (rootFrom k (p * 2 ^ (64 * k)) 69 0)

/-- The primes among `n` numbers from `m` on, after those already found, newest first. -/
def primesFrom : Nat → Nat → List Nat → List Nat
  | 0, _, ps => ps.reverse
  | n + 1, m, ps => primesFrom n (m + 1) (if ps.all fun p => m % p != 0 then m :: ps else ps)

/-- The first 80 primes. -/
def primes : List Nat := primesFrom 408 2 []

/-- The 80 round constants of SHA-512: cube roots. -/
def roundConstants : List W64 := primes.map (rootBits 3)

/-- Initial hash value of SHA-384: square roots of the 9th to the 16th prime. -/
def iv : List W64 := ((primes.drop 8).take 8).map (rootBits 2)

def rotr (x : W64) (n : Nat) : W64 := (x >>> n) ||| (x <<< (64 - n))

/-- Big-endian value of eight bytes. -/
def beWord (b : Bytes) : W64 := b.foldl (fun a x => (a <<< 8) ||| (BitVec.zeroExtend 64 x)) 0

/-- The `n` big-endian bytes of a value. -/
def toBe (n v : Nat) : Bytes := (toLe n v).reverse

/-- The 80 words of the message schedule, from the last 16 words, newest first. -/
def schedule : Nat → List W64 → List W64
  | 0, ws => ws.reverse
  | n + 1, ws =>
    let g (i : Nat) : W64 := ws.getD i 0
    let s0 := rotr (g 14) 1 ^^^ rotr (g 14) 8 ^^^ (g 14 >>> 7)
    let s1 := rotr (g 1) 19 ^^^ rotr (g 1) 61 ^^^ (g 1 >>> 6)
    schedule n ((g 15 + s0 + g 6 + s1) :: ws)

/-- Compress one block of 128 bytes into the hash value. -/
def compress (h : List W64) (blk : Bytes) : List W64 :=
  let w := schedule 64 ((List.range 16).map fun i => beWord (Bytes.sub blk (8 * i) 8)).reverse
  let round (v : List W64) (kw : W64 × W64) : List W64 :=
    let g (i : Nat) : W64 := v.getD i 0
    let s1 := rotr (g 4) 14 ^^^ rotr (g 4) 18 ^^^ rotr (g 4) 41
    let ch := (g 4 &&& g 5) ^^^ (~~~(g 4) &&& g 6)
    let t1 := g 7 + s1 + ch + kw.1 + kw.2
    let s0 := rotr (g 0) 28 ^^^ rotr (g 0) 34 ^^^ rotr (g 0) 39
    let mj := (g 0 &&& g 1) ^^^ (g 0 &&& g 2) ^^^ (g 1 &&& g 2)
    [t1 + s0 + mj, g 0, g 1, g 2, g 3 + t1, g 4, g 5, g 6]
  let v := (roundConstants.zip w).foldl round h
  (h.zip v).map fun p => p.1 + p.2

/-- SHA-384 of a byte string. -/
def sha384 (m : Bytes) : Bytes :=
  let pad := (239 - m.length % 128) % 128
  let p := m ++ [0x80] ++ List.replicate (pad % 128) 0 ++ toBe 16 (8 * m.length)
  let n := p.length / 128
  let h := (List.range n).foldl (fun a i => compress a (Bytes.sub p (128 * i) 128)) iv
  (h.take 6).flatMap fun x => toBe 8 x.toNat

/-- HMAC-SHA-384. -/
def hmac (key m : Bytes) : Bytes :=
  let k := if 128 < key.length then sha384 key else key
  let k := k ++ List.replicate (128 - k.length) 0
  sha384 (k.map (· ^^^ 0x5C) ++ sha384 (k.map (· ^^^ 0x36) ++ m))

/-- HKDF-SHA-384 extract and expand, for at most 48 bytes of output. -/
def hkdf (salt ikm info : Bytes) (n : Nat) : Bytes := (hmac (hmac salt ikm) (info ++ [1])).take n

end Sys2Proof.Crypto
end

