-- ==== Sys2Proof/Machine/State.lean ====
section
/-! DEFINITION. The state of the module as plain data: every register, store, queue, table and mode that the spec
names, and the queue of the commands that wait. INVENTORY.md lists every field with its rule and its reset value.
A record that the module holds one of per existing object (a session, an index, a namespace) carries no reset value
of its own: the table of those objects is empty at reset. -/

namespace Sys2Proof.Machine

/-- Power level of a core or die, Table 17-2 (R419). -/
inductive CoreLevel where
  | lit | dim | dark
  deriving DecidableEq, Repr, Inhabited

/-- Module state, Table 17-3 (R421). -/
inductive ModState where
  | running | banked | parked
  deriving DecidableEq, Repr, Inhabited

/-- What an engine's vector slots carry (R71). -/
inductive Flow where
  | stopped | streaming | rampDown
  deriving DecidableEq, Repr, Inhabited

/-- Namespace role, Table 11-6 (R268). -/
inductive Role where
  | plain | kv | index | backing
  deriving DecidableEq, Repr, Inhabited

/-- MAP_ENTRY STATE, Table 13-3 (R312). -/
inductive IuState where
  | flash | dealloc | buffered | unrecovered
  deriving DecidableEq, Repr, Inhabited

/-- Life of a NAND block (R315, R321, R322, R333). -/
inductive BlkState where
  | free | opened | closed | verified | retired | bad
  deriving DecidableEq, Repr, Inhabited

/-- TDI state, R384. -/
inductive Tdi where
  | configUnlocked | configLocked | run | error
  deriving DecidableEq, Repr, Inhabited

/-- Kind of a code-flash operation (R342). -/
inductive CfOp where
  | idle | program | sectorErase | blockErase
  deriving DecidableEq, Repr, Inhabited

/-- How far start-up has come (R434, R468). -/
inductive StartPhase where
  | vauxOnly | oneInput | rails | ready
  deriving DecidableEq, Repr, Inhabited

/-- Stop reason of a query, R155. -/
inductive StopReason where
  | converged | visitBudget | timeBudget
  deriving DecidableEq, Repr, Inhabited

/-- One DA partial record, Table 2-5 (R39). -/
structure DaRec where
  value : BitVec 104 := 0
  sticky : Bool := false
  ovf : Bool := false
  nan : Bool := false
  pinf : Bool := false
  ninf : Bool := false
  mode : BitVec 2 := 0
  anchor : BitVec 16 := 0
  loss : BitVec 32 := 0
  nterm : BitVec 32 := 0
  deriving DecidableEq, Repr, Inhabited

/-- A max-abs record, Table 9-7 (R220). -/
structure MaxAbs where
  fmt : BitVec 4 := 15
  stale : Bool := false
  nrows : BitVec 16 := 0
  tmax : BitVec 32 := 0
  e : BitVec 16 := 0
  naninf : BitVec 32 := 0
  rowmax : List (BitVec 32) := []
  deriving DecidableEq, Repr, Inhabited

/-- A TILE_DIR entry, Table 9-5 (R217). -/
structure TileDirE where
  state : BitVec 2 := 0
  granted : Bool := false
  wcore : BitVec 2 := 0
  account : BitVec 16 := 0
  home : BitVec 24 := 0xFFFFFF
  class0 : Bool := false
  owner : Option Nat := none
  used : Nat := 0
  deriving DecidableEq, Repr, Inhabited

/-- ME_GRAFT, Table 3-3 (R68). -/
structure Graft where
  rowUse : BitVec 132 := BitVec.ofNat 132 (2 ^ 128 - 1)
  colUse : BitVec 520 := BitVec.ofNat 520 (2 ^ 512 - 1)
  retired : Bool := false
  gen : BitVec 16 := 0
  deriving DecidableEq, Repr, Inhabited

/-- The contents of one register plane (active or shadow) of an engine's cells (R53). -/
structure Stat where
  data : Mem := []
  fmt : BitVec 4 := 0
  mx : Bool := false
  deriving DecidableEq, Repr, Inhabited

/-- An open accumulation chain of an engine (R64). -/
structure Chain where
  m : Nat := 0
  anchor : Option Int := none
  draining : Bool := false
  slot : Nat := 0
  inTile : Bool := false
  deriving DecidableEq, Repr, Inhabited

/-- One matrix engine. -/
structure Engine where
  graft : Graft := {}
  active : Stat := {}
  shadow : Stat := {}
  acc : Tab DaRec := []
  resid : Tab Nat := []
  chain : Option Chain := none
  flow : Flow := .stopped
  opResident : BitVec 4 := 0
  opRec : Tab MaxAbs := []
  deriving DecidableEq, Repr, Inhabited

/-- A flight-log entry, Table 18-8 (R456). -/
structure FlightEntry where
  kind : BitVec 8 := 0
  opc : BitVec 8 := 0
  status : BitVec 16 := 0
  logSeq : BitVec 64 := 0
  epoch : BitVec 64 := 0
  timestamp : BitVec 64 := 0
  gen : BitVec 32 := 0
  draw0 : BitVec 32 := 0
  nsid : BitVec 32 := 0
  cdw : List (BitVec 32) := []
  imageHash : Bytes := []
  inp : Bytes := []
  out : Bytes := []
  snap : Bytes := []
  tileSeq0 : BitVec 64 := 0
  ext : Nat := 0
  deriving DecidableEq, Repr, Inhabited

/-- A slot of the ME descriptor queue (R75). -/
structure MeSlot where
  dw : List (BitVec 32) := 0x70000 :: List.replicate 31 0
  draw : BitVec 32 := 0
  fw : Bool := false
  issued : Bool := false
  inTile : Bool := false
  deriving DecidableEq, Repr, Inhabited

/-- A slot of the tile-mover queue or of TILE_DESC (R90). -/
structure DescSlot where
  dw : List (BitVec 32) := []
  ins : List Nat := []
  outs : List Nat := []
  inTile : Bool := false
  deriving DecidableEq, Repr, Inhabited

/-- The record of the open work tile (R84, R88). -/
structure OpenTile where
  slot : Nat := 0
  account : Nat := 0
  stream : Nat := 0
  vec : Nat := 0
  closed : Bool := false
  xregs : List (BitVec 64) := []
  pc : BitVec 64 := 0
  localCopy : Mem := []
  localChk : Mem := []
  operands : List (Nat × Nat) := []
  draw : BitVec 32 := 0
  deferred : List Deferred := []
  overflow : Option Deferred := none
  replayCause : Option (BitVec 8) := none
  replayed : Bool := false
  counters : Tab Nat := []
  recs : Tab MaxAbs := []
  deriving DecidableEq, Repr, Inhabited

/-- The program a register bank runs (R108). -/
structure Prog where
  account : Nat := 0
  fn : Fin 128 := 0
  index : Nat := 0
  handle : Option CmdKey := none
  binding : Option Nat := none
  seed : BitVec 64 := 0
  e : Sqe := default
  imageHash : Bytes := []
  flight : Option Nat := none
  draw0 : BitVec 32 := 0
  tileSeq0 : BitVec 64 := 0
  inp : Bytes := []
  snap : Tab Bytes := []
  sgSnap : Bytes := []
  replay : Option FlightEntry := none
  base : Nat := 0
  outside : Bool := false
  overlay : List Nat := []
  deriving DecidableEq, Repr, Inhabited

/-- One register bank of a core (R239). -/
structure Bank where
  xregs : List (BitVec 64) := List.replicate 32 0
  pc : BitVec 64 := 0
  csrs : Tab (BitVec 64) := []
  vregs : Mem := []
  cgDraw : BitVec 32 := 0
  sg : Tab (BitVec 64) := []
  session : Option Nat := none
  tileSlots : Vector DescSlot 2 := Vector.replicate 2 { dw := List.replicate 16 0 }
  armedTiles : List Nat := []
  mboxIn : List (List (BitVec 32)) := []
  mboxOut : List (List (BitVec 32)) := []
  mboxOutReg : List (BitVec 32) := List.replicate 16 0
  mboxInHeld : List (List (BitVec 32)) := []
  prog : Option Prog := none
  deriving DecidableEq, Repr, Inhabited

/-- One compute core (R79). -/
structure Core where
  engines : Vector Engine 4 := Vector.replicate 4 {}
  meSlots : Vector MeSlot 16 := Vector.replicate 16 {}
  meQueue : List Nat := []
  tmSlots : Vector DescSlot 32 := Vector.replicate 32 { dw := List.replicate 8 0 }
  tmQueue : List Nat := []
  tile : Option OpenTile := none
  tileSeq : BitVec 64 := 0
  bankA : Bank := {}
  bankB : Bank := {}
  useB : Bool := false
  dbOut : Nat := 0
  inSeq : BitVec 32 := 0
  left : List (Prog × List (BitVec 32)) := []
  evt : BitVec 64 := 0
  evtEn : BitVec 64 := 0
  stalled : Bool := false
  outWait : Bool := false
  releasing : List Deferred := []
  irq : Bool := false
  maskGen : BitVec 8 := 0
  step : Fin 4 := 0
  stepReq : Option (Fin 4) := none
  level : CoreLevel := .dark
  retired : Bool := false
  turns : List Nat := []
  turnCredit : List Nat := []
  switching : Option (Option Nat) := none
  abortPending : Bool := false
  part : Nat := 48
  openDelay : Bool := false
  deriving DecidableEq, Repr, Inhabited

/-- One lamp context, LC_CTX, Table 4-9 (R101). -/
structure Ctx where
  state : BitVec 4 := 0
  outstanding : Nat := 0
  cls : BitVec 2 := 0
  kernel : BitVec 4 := 0
  account : BitVec 16 := 0
  faultCode : BitVec 16 := 0
  pc : BitVec 16 := 0
  tag : BitVec 32 := 0
  lidx : BitVec 64 := 0
  budget : BitVec 32 := 0
  xreg : List (BitVec 32) := List.replicate 32 0
  darec : List DaRec := List.replicate 4 {}
  base : Nat := 0
  reply : BitVec 64 := 0
  used : BitVec 32 := 0
  seed : BitVec 64 := 0
  wait : List LampReq := []
  needs : List LampReq := []
  staged : List (Nat × Nat) := []
  core : Option (Fin 8) := none
  posted : Bool := false
  cmd : Option CmdKey := none
  failed : Option (Nat × Nat) := none
  deriving DecidableEq, Repr, Inhabited

/-- One program kernel slot of every cluster (R106). -/
structure Kernel where
  account : Nat := 0
  size : Nat := 0
  deriving DecidableEq, Repr, Inhabited

/-- One lamp cluster (R98). -/
structure Cluster where
  ctxs : Tab Ctx := []
  queue : List LampDispatch := []
  stalledSenders : List LampDispatch := []
  last : List Nat := [511, 511, 511, 511]
  credit : List Nat := [0, 0, 0]
  units : Tab (List Nat) := []
  retiredSlots : Nat := 0
  retired : Bool := false
  deriving DecidableEq, Repr, Inhabited

/-- One NAND block (four planes), R306. -/
structure Block where
  state : BlkState := .free
  erases : Nat := 0
  reads : Nat := 0
  strikes : Nat := 0
  offset : Option Nat := none
  group : Option Nat := none
  closeSeq : Nat := 0
  cut : Bool := false
  eraseCut : Bool := false
  units : Nat := 0
  slc : Bool := false
  sys : Bool := false
  deriving DecidableEq, Repr, Inhabited

/-- An open parity group of a channel (R321). -/
structure Group where
  members : List Nat := []
  parity : Nat := 0
  move : Bool := false
  sys : Bool := false
  covered : Nat := 0
  done : List Nat := []
  deriving DecidableEq, Repr, Inhabited

/-- A move in progress (R328). -/
structure Move where
  src : Nat := 0
  target : Nat := 0
  ius : List (Nat × Nat) := []
  refresh : Bool := false
  wear : Bool := false
  deriving DecidableEq, Repr, Inhabited

/-- A write whose completion waits for its programs and parity (R320). -/
structure SyncWait where
  key : CmdKey := default
  slots : List Nat := []
  nsid : Nat := 0
  segs : List Segment := []
  dw0 : Nat := 0
  dw1 : Nat := 0
  append : Option (Nat × Nat × Nat) := none
  chans : List Nat := []
  deriving DecidableEq, Repr, Inhabited

/-- A read-retry ladder (R324). -/
structure Ladder where
  step : Nat := 0
  waiters : List CmdKey := []
  deriving DecidableEq, Repr, Inhabited

/-- One flash channel (R306). -/
structure Channel where
  blocks : Tab Block := []
  spares : Nat := 1005
  sparesShip : Nat := 1005
  freeBlocks : Nat := 25898
  groups : Tab Group := []
  refreshList : List Nat := []
  dieOps : Tab (List NandOp) := []
  dieHeld : Tab (List NandOp) := []
  dieCredit : Tab (List Nat) := []
  dieActive : Tab NandOp := []
  suspended : Tab NandOp := []
  suspends : Tab Nat := []
  failedDies : BitVec 16 := 0
  moves : List Move := []
  ladders : Tab Ladder := []
  unit : List Nat := []
  journal : Nat := 0
  words : Tab (Nat × Nat × Nat) := []
  writeSeq : BitVec 64 := 0
  recs : Tab Nat := []
  closeCount : Nat := 0
  thermalHalt : Bool := false
  caseHalt : Bool := false
  collecting : Bool := false
  gcClass : Nat := 3
  destageHeld : Bool := false
  deriving DecidableEq, Repr, Inhabited

/-- MAP_ENTRY, Table 13-3 (R312). -/
structure MapEntry where
  st : IuState := .dealloc
  loc : Nat := 0
  deriving DecidableEq, Repr, Inhabited

/-- A write-buffer slot (R316). -/
structure BufSlot where
  nsid : Nat := 0
  iu : Nat := 0
  account : Nat := 0
  kind : Nat := 0
  programmed : Bool := false
  loc : Option Nat := none
  deriving DecidableEq, Repr, Inhabited

/-- A namespace (R266, R267). -/
structure Ns where
  account : Nat := 0
  nsze : Nat := 0
  flbas : Nat := 0
  role : Role := .plain
  attached : Bool := false
  nsk : Nat := 0
  deriving DecidableEq, Repr, Inhabited

/-- A layer's entry in the layer table (R228). -/
structure LayerSt where
  count : BitVec 64 := 0
  busy : Bool := false
  deriving DecidableEq, Repr, Inhabited

/-- SESS_DESC, Table 10-1 (R228), with the session's own tables. -/
structure Sess where
  state : BitVec 3 := 0
  res : BitVec 2 := 2
  cls : BitVec 2 := 0
  flight : Bool := false
  sg : Bool := false
  pin : Bool := false
  homeDie : Fin 2 := 0
  account : Nat := 0
  grant : BitVec 8 := 0
  grantMe : BitVec 8 := 0
  layers : Nat := 0
  kvHeads : Nat := 0
  qPerKv : Nat := 0
  headDim : Nat := 0
  kvNsid : Nat := 0
  basePos : BitVec 64 := 0
  seed : BitVec 64 := 0
  layerTbl : Tab LayerSt := []
  extents : List (Nat × Bool × Bool) := []
  extPages : List Nat := []
  spillTiles : Nat := 0
  away : Tab (TileDirE × Option Nat) := []
  ctxSaved : Option Bank := none
  lastUse : BitVec 64 := 0
  inflight : Nat := 0
  sliceDebt : Nat := 0
  keySlot : Nat := 0
  sk : Bytes := []
  acct : Tab Nat := []
  epochOpen : BitVec 64 := 0
  pendingMove : Option MoveReq := none
  log : List FlightEntry := []
  logNext : BitVec 64 := 1
  logDropped : Nat := 0
  logExt : Nat := 0
  logFill : Nat := 0
  deriving DecidableEq, Repr, Inhabited

/-- A SESSION-OPEN that imports an export (R382). -/
structure ImportJob where
  e : Sqe := default
  id : Nat := 0
  pos : Nat := 0
  head : Bytes := []
  deriving DecidableEq, Repr, Inhabited

/-- An ATTEND in progress (R122). -/
structure AttendJob where
  e : Sqe := default
  session : Nat := 0
  p : AttendP := default
  view : Nat := 0
  place : Bool := false
  selected : List (List Nat) := []
  cold : Bool := false
  snap : Bytes := []
  deriving DecidableEq, Repr, Inhabited

/-- A node record with its full vector, Tables 6-2 (R136, R137). -/
structure Node where
  userId : BitVec 64 := 0
  tomb : Bool := false
  entry : Bool := false
  vscale : BitVec 16 := 0
  insGen : Nat := 0
  delGen : Nat := 0
  nbr : List Nat := []
  attr : Bytes := []
  payload : Bytes := []
  vec : Bytes := []
  code : List Nat := []
  deriving DecidableEq, Repr, Inhabited

/-- One generation of an index (R142). -/
structure Gen where
  nodes : Tab Node := []
  entries : List Nat := []
  highest : Nat := 0
  deriving DecidableEq, Repr, Inhabited

/-- A trained codebook (R139). -/
structure Codebook where
  cents : List (List (Bytes × BitVec 16 × BitVec 32)) := []
  deriving DecidableEq, Repr, Inhabited

/-- An index (R134). -/
structure Index where
  account : Nat := 0
  nsid : Nat := 0
  vdim : Nat := 0
  vfmt : BitVec 4 := 0
  metric : Nat := 0
  maxdeg : Nat := 0
  csub : Nat := 0
  nentries : Nat := 0
  buildL : Nat := 0
  alpha : BitVec 16 := 0
  seed : BitVec 64 := 0
  slots : Nat := 0
  cur : Nat := 0
  gens : Tab Gen := []
  pending : Gen := {}
  dirty : Bool := false
  codebook : Option Codebook := none
  qslots : Nat := 0
  codeSteps : Nat := 0
  destroying : Option CmdKey := none
  compactAt : Option Nat := none
  deriving DecidableEq, Repr, Inhabited

/-- A SEARCH query in progress (R149, R150). -/
structure Query where
  e : Sqe := default
  index : Nat := 0
  gen : Nat := 0
  p : SearchP := default
  query : List (BitVec 16) := []
  pred : Bytes := []
  lcur : Nat := 0
  passBudget : Nat := 0
  beam : List (Nat × Nat × Bool) := []
  visited : List Nat := []
  results : List (BitVec 32 × BitVec 64 × Nat) := []
  reads : Nat := 0
  rounds : Nat := 0
  widened : Nat := 0
  skipped : Nat := 0
  flying : List Nat := []
  without : Option Nat := none
  unseen : List Nat := []
  deriving DecidableEq, Repr, Inhabited

/-- An ingest binding (R167). -/
structure Ingest where
  index : Nat := 0
  srcNs : Nat := 0
  account : Nat := 0
  p : IngestP := default
  queue : List Segment := []
  current : Option Segment := none
  sinceCommit : Nat := 0
  chunks : Tab Nat := []
  committed : Tab Nat := []
  applied : List Segment := []
  later : List Segment := []
  deriving DecidableEq, Repr, Inhabited

/-- One source's command of the open scatter step (R187). -/
structure StepSrc where
  e : Sqe := default
  p : ScatterP := default
  entries : List (Nat × List (BitVec 32)) := []
  deriving DecidableEq, Repr, Inhabited

/-- A scatter step report, Table 12-12 (R305). -/
structure StepReport where
  step : Nat := 0
  gen : Nat := 0
  nonfinite : Nat := 0
  loss : Nat := 0
  discarded : Nat := 0
  deriving DecidableEq, Repr, Inhabited

/-- An embedding table (R173). -/
structure Table where
  account : Nat := 0
  nsid : Nat := 0
  rows : Nat := 0
  dim : Nat := 0
  code4 : Bool := false
  sources : Nat := 1
  spareRows : Nat := 0
  cur : Nat := 1
  kept : List Nat := [1]
  gens : Tab (Tab Bytes) := []
  pending : Tab Bytes := []
  lastStep : Nat := 0
  openStep : Option Nat := none
  srcs : Tab StepSrc := []
  waiting : List StepSrc := []
  reports : List StepReport := []
  hot : Tab Nat := []
  lookups : Tab Nat := []
  window : Nat := 0
  later : List Nat := []
  deriving DecidableEq, Repr, Inhabited

/-- A loaded Borten program (R105, R277). -/
structure Image where
  account : Nat := 0
  hash : Bytes := []
  active : Bool := false
  bytes : Bytes := []
  kernels : List Nat := []
  pool : Nat × Nat := (0, 0)
  largest : Nat := 0
  deriving DecidableEq, Repr, Inhabited

/-- A memory range of a controller's memory namespace (R278). -/
structure MemRange where
  set : Nat := 0
  start : Nat := 0
  len : Nat := 0
  fmt : BitVec 4 := 15
  deriving DecidableEq, Repr, Inhabited

/-- An I/O submission queue (R262). -/
structure Sq where
  size : Nat := 0
  head : Nat := 0
  tail : Nat := 0
  cqid : Nat := 0
  prio : BitVec 2 := 0
  deriving DecidableEq, Repr, Inhabited

/-- A completion queue entry (R289). -/
structure Cqe where
  sqid : Nat := 0
  cid : Nat := 0
  sct : BitVec 3 := 0
  sc : BitVec 8 := 0
  dnr : Bool := false
  dw0 : BitVec 32 := 0
  dw1 : BitVec 32 := 0
  deriving DecidableEq, Repr, Inhabited

/-- A completion queue (R264). -/
structure Cq where
  size : Nat := 0
  posted : List Cqe := []
  waiting : List Cqe := []
  head : Nat := 0
  iv : Nat := 0
  ien : Bool := false
  deriving DecidableEq, Repr, Inhabited

/-- Bytes the module wrote to host memory for a command (R288). -/
structure HostWrite where
  cmd : CmdKey := default
  offset : Nat := 0
  bytes : Bytes := []
  deriving DecidableEq, Repr, Inhabited

/-- A fetched command that holds a command slot (R264). -/
structure InFlight where
  key : CmdKey := default
  opc : BitVec 8 := 0
  kind : Nat := 0
  admin : Bool := false
  cls : Nat := 1
  nsid : Nat := 0
  session : Option Nat := none
  epoch : Nat := 0
  ts : BitVec 64 := 0
  qcls : Nat := 1
  seed : BitVec 64 := 0
  view : Option (Tab LayerSt) := none
  gens : Tab (List Nat) := []
  tabGens : Tab (List Nat) := []
  vals : Tab Nat := []
  outside : Bool := false
  deriving DecidableEq, Repr, Inhabited

/-- An Error Information log entry (R283). -/
structure ErrEntry where
  sqid : Nat := 0
  cid : Nat := 0
  status : Nat := 0
  lba : Nat := 0
  nsid : Nat := 0
  n : Nat := 0
  deriving DecidableEq, Repr, Inhabited

/-- One controller, function f (R258). -/
structure Ctrl where
  enabled : Bool := false
  ccEn : Bool := false
  csts : Bool := false
  ams : Bool := false
  d3hot : Bool := false
  asqTail : Nat := 0
  asqHead : Nat := 0
  acqPosted : List Cqe := []
  acqWaiting : List Cqe := []
  acqHead : Nat := 0
  regs : Tab Nat := []
  sqs : Tab Sq := []
  cqs : Tab Cq := []
  qpairs : Nat := 0
  features : Tab Nat := []
  saved : Tab Nat := []
  arbCredit : List Nat := []
  arb : BitVec 32 := 0
  aers : List Nat := []
  events : List (BitVec 32) := []
  abortRecs : List (Nat × Nat) := []
  errors : List ErrEntry := []
  changedNs : List Nat := []
  readUnits : Nat := 0
  writtenUnits : Nat := 0
  programs : Tab Image := []
  ranges : List MemRange := []
  miResponse : Option Bytes := none
  secResponse : Option Bytes := none
  rrNext : List Nat := [0, 0, 0, 0]
  msix : Tab Nat := []
  pba : List Nat := []
  msiSent : List Nat := []
  deriving DecidableEq, Repr, Inhabited

/-- SPDM state of one endpoint (R371). -/
structure Spdm where
  sessions : List (Nat × Option Bytes × Bool) := []
  resp : Bytes := []
  nextId : Nat := 1
  deriving DecidableEq, Repr, Inhabited

/-- An account 0x00 to 0x80 (R258, R374). -/
structure Account where
  mode1 : Bool := false
  opened : Bool := true
  fails : Nat := 0
  tk : Bytes := []
  verifier : Bytes := []
  bound : Bool := false
  tag : BitVec 16 := 0
  acct : Tab Nat := []
  closedRecs : List Bytes := []
  probes : List (Nat × Bytes) := []
  tdi : Tdi := .configUnlocked
  bindWait : Bool := false
  locking : Bool := false
  waitKop : Nat := 0
  claim : Option (Bool × Bytes) := none
  deriving DecidableEq, Repr, Inhabited

/-- An IDE stream (R383). -/
structure IdeStream where
  keyed : Bool := false
  secure : Bool := false
  insecure : Bool := false
  vfs : List Nat := []
  deriving DecidableEq, Repr, Inhabited

/-- The pilot's secure store (R362, R367, R368). -/
structure SecStore where
  fwFloor : Nat := 0
  revoked : BitVec 8 := 0
  ownerSeq : Nat := 0
  owner0 : Option Bytes := none
  owner1 : Option Bytes := none
  quorum : Nat := 0
  portKey : Option Bytes := none
  alias_ : Nat := 0
  deriving DecidableEq, Repr, Inhabited

/-- A source's staged set (R393). -/
structure StagedSet where
  source : Nat := 0
  items : Tab Nat := []
  deriving DecidableEq, Repr, Inhabited

/-- A kept response (R407). -/
structure KeptResp where
  addr : Nat := 0
  txid : Nat := 0
  resp : Bytes := []
  deriving DecidableEq, Repr, Inhabited

/-- The Waori dictionary (R388). -/
structure Dict where
  vals : Tab Nat := []
  counters : Tab Nat := []
  epoch : Nat := 1
  staged : List StagedSet := []
  nonce : BitVec 64 := 0
  lastSeq : Nat := 0
  kept : List KeptResp := []
  plca : Nat := 0
  portCfg : Tab Nat := []
  announceDue : Nat := 0
  sent : List Bytes := []
  i3c : Bool := false
  eid : Nat := 0
  responses : List (Nat × Bytes) := []
  deriving DecidableEq, Repr, Inhabited

/-- The pilot code flash (R340). -/
structure CodeFlash where
  arr : Mem := []
  flags : BitVec 2048 := 0
  seq : List (BitVec 32 × BitVec 32) := []
  op : CfOp := .idle
  opAddr : Nat := 0
  opData : BitVec 32 := 0
  suspErase : Option (Bool × Nat) := none
  suspProg : Option (Nat × BitVec 32) := none
  done : Bool := false
  seqErr : Bool := false
  selfOp : Bool := false
  protErr : Bool := false
  prgErr : Bool := false
  ersErr : Bool := false
  suspRd : Bool := false
  xoErr : Bool := false
  inten : BitVec 12 := 0
  rgn : Vector (BitVec 64) 8 := Vector.replicate 8 0
  erases : Tab Nat := []
  lastRead : Option (BitVec 32) := none
  readWait : List (Nat × Bool) := []
  cut : List Nat := []
  deriving DecidableEq, Repr, Inhabited

/-- The stage record, Table 14-6 (R356). -/
structure Stage where
  state : Nat := 0
  size : Nat := 0
  hash : Bytes := []
  replicas : List Bytes := []
  addrs : List Nat := []
  version : Bytes := []
  deriving DecidableEq, Repr, Inhabited

/-- Firmware update state. -/
structure Fw where
  buf : Mem := []
  bufLen : Nat := 0
  fresh : Bool := false
  stage : Stage := {}
  version : Bytes := []
  svn : Nat := 0
  resident : Bytes := []
  activating : Nat := 0
  waitCommit : Option CmdKey := none
  dlResult : Nat := 0
  recovery : Bool := false
  pilotUp : Bool := false
  deriving DecidableEq, Repr, Inhabited

/-- Power, clocks, temperature (ch 17, 19). -/
structure Power where
  slot12 : Bool := false
  cable12 : Bool := false
  vaux : Bool := false
  sense : BitVec 2 := 0
  senseLatched : Nat := 4
  phase : StartPhase := .vauxOnly
  mod : ModState := .parked
  linkUp : Bool := false
  pilotClk : Bool := false
  dieCanopy : Vector CoreLevel 2 := Vector.replicate 2 .dark
  dieRoot : Vector CoreLevel 24 := Vector.replicate 24 .dark
  dieTrunk : CoreLevel := .dark
  avg : Nat := 0
  sinceDown : Nat := 10
  okSamples : Nat := 0
  progLimit : Nat := 4
  emergency : Bool := false
  tripCause : Nat := 0
  pwrbrk : Bool := false
  pwrbrkThrottle : Bool := false
  junction : List Int := List.replicate 32 0
  board : List Int := List.replicate 66 0
  thermalHeld : Vector Nat 2 := Vector.replicate 2 0
  refresh2x : Vector Bool 16 := Vector.replicate 16 false
  shutdown : Bool := false
  holdup : Bool := false
  bankOk : Bool := false
  bankResult : Nat := 2
  bankJ : BitVec 32 := 0
  flushed : Option (Tab BufSlot) := none
  flushDone : Bool := true
  slotW : Nat := 0
  cableW : Nat := 0
  waking : Bool := false
  dueWork : Bool := false
  deriving DecidableEq, Repr, Inhabited

/-- A vendor event log entry, Table 18-3 (R445). -/
structure Evt where
  seq : Nat := 0
  timestamp : BitVec 64 := 0
  dieSeq : Nat := 0
  die : Nat := 0
  fclass : Nat := 0
  code : Nat := 0
  account : Nat := 0
  sqid : Nat := 0xFFFF
  cid : Nat := 0xFFFF
  session : Nat := 0xFFFFFFFF
  detail : Bytes := []
  deriving DecidableEq, Repr, Inhabited

/-- Fault and health state (ch 18). -/
structure Health where
  events : List Evt := []
  nextSeq : Nat := 1
  overwritten : Nat := 0
  overwrittenBy : Tab Nat := []
  dieSeqs : Tab Nat := []
  bit2 : Bool := false
  bit4 : Bool := false
  bit1 : Bool := false
  readOnly : Bool := false
  failed : Bool := false
  faultTimes : List Nat := []
  mediaErrors : Nat := 0
  badShutdowns : Nat := 0
  timestamp : BitVec 64 := 0
  graftGen : BitVec 16 := 0
  sramRows : Nat := 0
  graftRetained : Tab Graft := []
  sanitizes : Nat := 0
  deriving DecidableEq, Repr, Inhabited

/-- Pool scrubbing and repair (R223, R225). -/
structure PoolRepair where
  rowErrs : Tab Nat := []
  relocated : List Nat := []
  relocCount : Vector Nat 16 := Vector.replicate 16 0
  withdrawn : List Nat := []
  passes : Tab Nat := []
  tileErrs : Tab Nat := []
  badTiles : List Nat := []
  quarantine : List (Nat × Tab Nat) := []
  scrubFast : Bool := false
  tdTest : Vector (BitVec 64) 16 := Vector.replicate 16 0x10000
  cdTest : Vector (BitVec 64) 2 := Vector.replicate 2 0x10000
  deriving DecidableEq, Repr, Inhabited

/-- Why a step stops. Both reasons are safe: no effect is claimed. -/
inductive Fault where
  /-- Raised by every meaning whose operand is no value of its kind (a mailbox entry that is not 16 dwords, a block
  number beyond a die). Safe: no hardware sends such a command. -/
  | illFormed
  deriving DecidableEq, Repr

/-- Why a command has no meaning. -/
inductive Refusal where
  /-- Raised by an arm of `exec` whose command has no meaning yet. Safe: nothing is claimed of it. -/
  | notModelled (mnemonic : String)
  deriving DecidableEq, Repr

/-- The state of the module. -/
structure State where
  pending : List Instr := []
  free : Nat := 0
  mem : Mem := []
  chk : Mem := []
  tileDir : Tab TileDirE := []
  maxRec : Tab MaxAbs := []
  useCount : Nat := 0
  poolGrants : List (Nat × Nat × Nat) := []
  gatherCfg : BitVec 64 := 0x400001000141
  cores : Vector Core 8 := Vector.replicate 8 {}
  clusters : Vector Cluster 48 := Vector.replicate 48 {}
  kernels : Tab Kernel := []
  channels : Vector Channel 48 := Vector.replicate 48 {}
  map : Tab MapEntry := []
  media : Mem := []
  slots : Tab BufSlot := []
  jobs : List Job := []
  held : List Job := []
  imports : List ImportJob := []
  syncWait : List SyncWait := []
  nss : Tab Ns := []
  sess : Tab Sess := []
  attends : List AttendJob := []
  indexes : Tab Index := []
  queries : List Query := []
  queryWait : List Query := []
  ingests : List Ingest := []
  tables : Tab Table := []
  ctrls : Vector Ctrl 128 := Vector.replicate 128 {}
  arbTurn : Nat := 0
  adminTurn : Nat := 0
  urgentTurn : Nat := 0
  visit : Option (Nat × Nat × Nat) := none
  inflight : List InFlight := []
  cfgSent : List (Nat × Nat × BitVec 32) := []
  hostWrites : List HostWrite := []
  merges : List (CmdKey × DaRec) := []
  accounts : Vector Account 129 := Vector.replicate 129 {}
  spdm : Tab Spdm := []
  ide : Vector IdeStream 9 := Vector.replicate 9 {}
  store : SecStore := {}
  sanitizing : Bool := false
  dict : Dict := {}
  cf : CodeFlash := {}
  fw : Fw := {}
  power : Power := {}
  health : Health := {}
  repair : PoolRepair := {}
  deriving DecidableEq, Repr, Inhabited

/-- The module before any input power is applied: every field at the value INVENTORY.md names. The PF controller's
function exists always (R258); VFs come with VF enable. -/
def State.reset : State :=
  { ctrls := (Vector.replicate 128 { qpairs := 24 }).set 0 { enabled := true, qpairs := 1024 } }

end Sys2Proof.Machine
end

