-- ==== Sys2Proof/Machine/Num.lean ====
section
/-! DEFINITION. Number formats (R25 to R28), exact values, the deep accumulator (R31 to R40), the final rounding (R41
to R44), max-abs (R46) and quantisation (R47 to R50). Every value is exact: a finite value is an integer times a power
of two, a quotient is an integer over a natural. -/

namespace Sys2Proof.Num

open Sys2Proof.Machine

/-- A decoded element: a finite value `m * 2 ^ e`, an infinity or a NaN (Table 2-2). -/
inductive Val where
  | fin (m e : Int)
  | inf (neg : Bool)
  | nan
  deriving DecidableEq, Repr, Inhabited

/-- A floating-point layout: exponent bits, mantissa bits, bias, and its special codes (0 none, 1 the FP8 E4M3 NaN,
2 IEEE infinities and NaNs). -/
structure Lay where
  eb : Nat
  mb : Nat
  bias : Nat
  special : Nat
  deriving DecidableEq, Repr

/-- The layout of a format code of Table 3-7; none for the integer formats and the reserved codes. -/
def layOf : Nat → Option Lay
  | 2 => some ⟨2, 1, 1, 0⟩
  | 3 => some ⟨2, 3, 1, 0⟩
  | 4 => some ⟨3, 2, 3, 0⟩
  | 5 => some ⟨4, 3, 7, 1⟩
  | 6 => some ⟨5, 2, 15, 2⟩
  | 7 => some ⟨5, 10, 15, 2⟩
  | 8 => some ⟨8, 7, 127, 2⟩
  | 9 => some ⟨8, 23, 127, 2⟩
  | _ => none

/-- Width in bits of a format code (Table 2-1). -/
def widthOf : Nat → Nat
  | 0 => 4 | 1 => 8 | 2 => 4 | 3 => 6 | 4 => 6 | 5 => 8 | 6 => 8 | 7 => 16 | 8 => 16 | 9 => 32 | 10 => 32
  | _ => 8

/-- Column l of Table 2-2. -/
def ellOf : Nat → Int
  | 2 => -1 | 3 => -3 | 4 => -4 | 5 => -9 | 6 => -16 | 7 => -24 | 8 => -133 | 9 => -149
  | _ => 0

/-- Decode a code under a layout. -/
def decLay (l : Lay) (c : Nat) : Val :=
  let man := c % 2 ^ l.mb
  let ex := (c / 2 ^ l.mb) % 2 ^ l.eb
  let neg := bitOf c (l.eb + l.mb)
  let top := 2 ^ l.eb - 1
  if l.special = 2 ∧ ex = top then (if man = 0 then .inf neg else .nan)
  else if l.special = 1 ∧ ex = top ∧ man = 2 ^ l.mb - 1 then .nan
  else
    let m : Int := if ex = 0 then man else (2 ^ l.mb + man : Nat)
    let e : Int := (max ex 1 : Nat) - (l.bias : Int) - l.mb
    .fin (if neg then -m else m) e

/-- Decode a code of a format (R25, R26). -/
def dec (fmt c : Nat) : Val :=
  match layOf fmt with
  | some l => decLay l c
  | none => .fin (signedOf (widthOf fmt) c) 0

/-- Apply an E8M0 block scale byte (R28). -/
def mxScale (s : Nat) : Val → Val
  | .fin m e => if s = 255 then .nan else .fin m (e + s - 127)
  | v => if s = 255 then .nan else v

/-- Element `i` of a packed array of a format (Table 2-1). -/
def elem (fmt : Nat) (b : Nat → Byte) (i : Nat) : Nat :=
  match widthOf fmt with
  | 4 => let x := (b (i / 2)).toNat; if i % 2 = 0 then x % 16 else x / 16
  | 6 =>
    let g := 3 * (i / 4)
    let v := leNat [b g, b (g + 1), b (g + 2)]
    (v / 2 ^ (6 * (i % 4))) % 64
  | 8 => (b i).toNat
  | 16 => leNat [b (2 * i), b (2 * i + 1)]
  | _ => leNat [b (4 * i), b (4 * i + 1), b (4 * i + 2), b (4 * i + 3)]

/-- The packed bytes of a list of codes of a format (Table 2-1). -/
def pack (fmt : Nat) (cs : List Nat) : Bytes :=
  match widthOf fmt with
  | 4 => (List.range (ceilDiv cs.length 2)).map fun i =>
      BitVec.ofNat 8 (cs.getD (2 * i) 0 % 16 + 16 * (cs.getD (2 * i + 1) 0 % 16))
  | 6 => (List.range (ceilDiv cs.length 4)).flatMap fun g =>
      toLe 3 (sumNat ((List.range 4).map fun j => (cs.getD (4 * g + j) 0 % 64) * 2 ^ (6 * j)))
  | 8 => cs.map (BitVec.ofNat 8)
  | 16 => cs.flatMap (toLe 2)
  | _ => cs.flatMap (toLe 4)

/-- Is the value finite? -/
def Val.isFin : Val → Bool
  | .fin _ _ => true
  | _ => false

/-- `m * 2 ^ e` as an integer over a natural. -/
def frac (m e : Int) : Int × Nat := if 0 ≤ e then (m * 2 ^ e.toNat, 1) else (m, 2 ^ (-e).toNat)

/-- `m * 2 ^ (e - lo)`, for `lo ≤ e`. -/
def alignTo (lo m e : Int) : Int := m * 2 ^ (e - lo).toNat

/-- Exact sum of values `m * 2 ^ e`. -/
def sumDy (l : List (Int × Int)) : Int × Int :=
  let lo := l.foldl (fun a x => min a x.2) 0
  (l.foldl (fun a x => a + alignTo lo x.1 x.2) 0, lo)

/-- Exact product. -/
def mulDy (a b : Int × Int) : Int × Int := (a.1 * b.1, a.2 + b.2)

/-- `a < b` for values `m * 2 ^ e`. -/
def ltDy (a b : Int × Int) : Bool :=
  let lo := min a.2 b.2
  decide (alignTo lo a.1 a.2 < alignTo lo b.1 b.2)

/-- `floor (log2 (n / d))` for positive `n`, `d`. -/
def flog2 (n d : Nat) : Int :=
  let g : Int := (Nat.log2 n : Int) - Nat.log2 d
  if 0 ≤ g then (if n < d * 2 ^ g.toNat then g - 1 else g)
  else (if n * 2 ^ (-g).toNat < d then g - 1 else g)

/-- `floor (log2 |m * 2 ^ e|)` for non-zero `m`. -/
def elog (m e : Int) : Int := (Nat.log2 m.natAbs : Int) + e

/-- Rounding modes: 0 RNE, 1 RTZ, 2 SR (R41), 3 toward positive infinity, 4 toward negative infinity. -/
def roundInt (mode u : Nat) (n : Int) (d : Nat) : Int :=
  let q := n / (d : Int)
  let r := (n % (d : Int)).toNat
  if r = 0 then q
  else match mode with
    | 1 => if n < 0 then q + 1 else q
    | 2 => if u < r * 65536 / d then q + 1 else q
    | 3 => q + 1
    | 4 => q
    | _ => if 2 * r < d then q else if d < 2 * r then q + 1 else if q % 2 = 0 then q else q + 1

/-- A rounded result: the code, whether it saturated or overflowed, whether a NaN met a format without one. -/
structure Rounded where
  code : Nat
  sat : Bool
  invalid : Bool
  deriving DecidableEq, Repr, Inhabited

/-- Largest finite code magnitude of a layout. -/
def maxCode (l : Lay) : Nat :=
  match l.special with
  | 0 => 2 ^ (l.eb + l.mb) - 1
  | 1 => 2 ^ (l.eb + l.mb) - 2
  | _ => (2 ^ l.eb - 1) * 2 ^ l.mb - 1

/-- Sign bit of a layout, set for a negative value. -/
def signBit (l : Lay) (neg : Bool) : Nat := if neg then 2 ^ (l.eb + l.mb) else 0

/-- The code of `n` quanta of size `2 ^ q` (R26); `n` is at most `2 ^ (mb + 1)`. -/
def encMag (l : Lay) (n : Nat) (q : Int) : Nat :=
  if n < 2 ^ l.mb then n
  else
    let (n, q) := if 2 ^ (l.mb + 1) ≤ n then (n / 2, q + 1) else (n, q)
    (q + l.mb + l.bias).toNat * 2 ^ l.mb + (n - 2 ^ l.mb)

/-- The exponent of the quantum of a layout for a magnitude `a / d`. -/
def quantum (l : Lay) (a d : Nat) : Int := max (flog2 a d - l.mb) (1 - (l.bias : Int) - l.mb)

/-- `n / d` divided by `2 ^ q`, as an integer over a natural. -/
def unscale (n : Int) (d : Nat) (q : Int) : Int × Nat :=
  if 0 ≤ q then (n, d * 2 ^ q.toNat) else (n * 2 ^ (-q).toNat, d)

/-- Code of an infinity, or the saturated code where the format has none (R43). -/
def infCode (l : Lay) (neg : Bool) : Rounded :=
  if l.special = 2 then ⟨signBit l neg + (2 ^ l.eb - 1) * 2 ^ l.mb, false, false⟩
  else ⟨signBit l neg + maxCode l, true, false⟩

/-- Code of a NaN result (Table 2-6). -/
def nanCode (fmt : Nat) : Rounded :=
  match fmt with
  | 5 => ⟨0x7F, false, false⟩
  | 6 => ⟨0x7E, false, false⟩
  | 7 => ⟨0x7E00, false, false⟩
  | 8 => ⟨0x7FC0, false, false⟩
  | 9 => ⟨0x7FC00000, false, false⟩
  | _ => ⟨0, false, true⟩

/-- Overflow of a layout (Table 2-6). -/
def overflow (l : Lay) (mode : Nat) (osat neg : Bool) : Rounded :=
  if l.special = 2 ∧ !osat ∧ mode ≠ 1 then ⟨signBit l neg + (2 ^ l.eb - 1) * 2 ^ l.mb, false, false⟩
  else ⟨signBit l neg + maxCode l, true, false⟩

/-- Round an exact value `n / d` to a layout. A value other than zero that rounds to zero keeps its sign (DEDUCED, log 67). -/
def roundLay (l : Lay) (mode u : Nat) (osat : Bool) (n : Int) (d : Nat) : Rounded :=
  if n = 0 then ⟨0, false, false⟩
  else
    let q := quantum l n.natAbs d
    let (sn, sd) := unscale n d q
    let k := roundInt mode u sn sd
    let c := encMag l k.natAbs q
    if maxCode l < c then overflow l mode osat (decide (n < 0))
    else ⟨signBit l (decide (n < 0)) + c, false, false⟩

/-- Round an exact value to an integer format of `w` bits, saturating. -/
def roundIntFmt (w mode u : Nat) (n : Int) (d : Nat) : Rounded :=
  let k := roundInt mode u n d
  let hi : Int := (2 ^ (w - 1) : Nat) - 1
  let lo : Int := -((2 ^ (w - 1) : Nat) : Int)
  let c := max lo (min hi k)
  ⟨natOfInt w c, decide (c ≠ k), false⟩

/-- The final rounding of an exact value (R41 to R44). -/
def roundTo (fmt mode u : Nat) (osat : Bool) (n : Int) (d : Nat) : Rounded :=
  match layOf fmt with
  | some l => roundLay l mode u osat n d
  | none => roundIntFmt (widthOf fmt) mode u n d

/-- Does the rounding leave a residue (R42, R200)? -/
def inexact (fmt : Nat) (n : Int) (d : Nat) : Bool :=
  if n = 0 then false
  else
    let (sn, sd) := match layOf fmt with
      | some l => unscale n d (quantum l n.natAbs d)
      | none => (n, d)
    sn % (sd : Int) != 0

/-- Round a decoded value to a format. -/
def convert (fmt mode u : Nat) (osat : Bool) : Val → Rounded
  | .fin m e => let (n, d) := frac m e; roundTo fmt mode u osat n d
  | .inf neg => match layOf fmt with
      | some l => infCode l neg
      | none => roundIntFmt (widthOf fmt) 1 0 (if neg then -(2 ^ 64 : Nat) else (2 ^ 64 : Nat)) 1
  | .nan => nanCode fmt

/-- FP32 code, round to nearest even, of `n / d`. Past the largest finite value the intermediate roundings rne32 and ru32
give the infinity, where an output conversion saturates by OSAT (DESIGN CHOICE, log 69: the spec does not say). -/
def rne32 (n : Int) (d : Nat) : Nat := (roundTo 9 0 0 false n d).code
/-- FP32 code rounded toward positive infinity. -/
def ru32 (n : Int) (d : Nat) : Nat := (roundTo 9 3 0 false n d).code
/-- BF16 code, round to nearest even. -/
def rneBf16 (n : Int) (d : Nat) : Nat := (roundTo 8 0 0 false n d).code

/-- The value of a finite code as `m * 2 ^ e`; zero for a special code. -/
def dy (fmt c : Nat) : Int × Int := match dec fmt c with | .fin m e => (m, e) | _ => (0, 0)

/-- Exact product of two decoded values (R37). -/
def mulVal : Val → Val → Val
  | .fin m e, .fin n f => .fin (m * n) (e + f)
  | .nan, _ => .nan
  | _, .nan => .nan
  | .inf s, .inf t => .inf (s != t)
  | .inf s, .fin n _ => if n = 0 then .nan else .inf (s != decide (n < 0))
  | .fin m _, .inf t => if m = 0 then .nan else .inf (decide (m < 0) != t)

/-! ### The deep accumulator -/

/-- MODE of a record (Table 2-5). -/
def modeN : BitVec 2 := 0
def modeQ : BitVec 2 := 1
def modeA : BitVec 2 := 2

/-- Exponent of the weight of bit 0 of a record's window (Table 2-4, R33). -/
def lsbOf (r : DaRec) : Int :=
  if r.mode = modeN then -32 else if r.mode = modeQ then -40 else r.anchor.toInt - 79

/-- The integer a record's DA holds. -/
def daInt (r : DaRec) : Int := r.value.toInt

/-- Does an integer lie in the 104-bit window (R38)? -/
def inWindow (x : Int) : Bool := decide (-(2 ^ 103 : Nat) ≤ x) && decide (x < (2 ^ 103 : Nat))

/-- An empty record of a mode and ceiling. -/
def emptyRec (mode : BitVec 2) (c : Int) : DaRec :=
  { mode := mode, anchor := if mode = modeA then BitVec.ofInt 16 c else 0 }

/-- Add an integer of window units, with its loss (R35, R38). -/
def addUnits (r : DaRec) (x : Int) (lost : Bool) : DaRec :=
  let s := daInt r + x
  { r with value := BitVec.ofInt 104 s
           ovf := r.ovf || !inWindow s
           sticky := r.sticky || lost
           loss := BitVec.ofNat 32 (satAdd 32 r.loss.toNat (if lost then 1 else 0))
           nterm := BitVec.ofNat 32 (satAdd 32 r.nterm.toNat 1) }

/-- A value in units of the window's bit 0, truncated toward zero, and whether bits were discarded (R35). -/
def toUnits (lsb m e : Int) : Int × Bool :=
  if lsb ≤ e then (m * 2 ^ (e - lsb).toNat, false)
  else
    let d : Nat := 2 ^ (lsb - e).toNat
    let q := Int.tdiv m d
    (q, decide (q * d ≠ m))

/-- Add one product (R31, R35, R37). -/
def addProd (r : DaRec) : Val → DaRec
  | .fin m e => let (x, lost) := toUnits (lsbOf r) m e; addUnits r x lost
  | .inf false => { r with pinf := true, nterm := BitVec.ofNat 32 (satAdd 32 r.nterm.toNat 1) }
  | .inf true => { r with ninf := true, nterm := BitVec.ofNat 32 (satAdd 32 r.nterm.toNat 1) }
  | .nan => { r with nan := true, nterm := BitVec.ofNat 32 (satAdd 32 r.nterm.toNat 1) }

/-- May two records merge (R40)? -/
def mergeable (a b : DaRec) : Bool := a.mode = b.mode && a.anchor = b.anchor

/-- The merge of two records of one MODE and ANCHOR, field by field (R40). -/
def merge (a b : DaRec) : DaRec :=
  let s := daInt a + daInt b
  { value := BitVec.ofInt 104 s
    sticky := a.sticky || b.sticky
    ovf := a.ovf || b.ovf || !inWindow s
    nan := a.nan || b.nan
    pinf := a.pinf || b.pinf
    ninf := a.ninf || b.ninf
    mode := a.mode
    anchor := a.anchor
    loss := BitVec.ofNat 32 (satAdd 32 a.loss.toNat b.loss.toNat)
    nterm := BitVec.ofNat 32 (satAdd 32 a.nterm.toNat b.nterm.toNat) }

/-- Is the result of a record a NaN (R43)? -/
def recNan (r : DaRec) : Bool := r.nan || (r.pinf && r.ninf)

/-- The value a record stands for, special values included. -/
def recVal (r : DaRec) : Val :=
  if recNan r then .nan else if r.pinf then .inf false else if r.ninf then .inf true
  else .fin (daInt r) (lsbOf r)

/-- The final rounding of a record with an exact scale `sn / sd` (R41 to R44). -/
def roundRec (r : DaRec) (fmt mode u : Nat) (osat : Bool) (sn : Int) (sd : Nat) : Rounded :=
  match recVal r with
  | .fin m e => let (n, d) := frac m e; roundTo fmt mode u osat (n * sn) (d * sd)
  | v => convert fmt mode u osat v

/-- The 24 bytes of a record (Table 2-5). -/
def recBytes (r : DaRec) : Bytes :=
  let fl (b : Bool) (i : Nat) : Nat := if b then 2 ^ i else 0
  toLe 13 r.value.toNat
    ++ toLe 1 (fl r.sticky 0 + fl r.ovf 1 + fl r.nan 2 + fl r.pinf 3 + fl r.ninf 4 + r.mode.toNat * 32)
    ++ toLe 2 r.anchor.toNat ++ toLe 4 r.loss.toNat ++ toLe 4 r.nterm.toNat

/-- The record that 24 bytes spell; the reserved bit is ignored (R9). -/
def recOfBytes (b : Bytes) : DaRec :=
  let f := Bytes.le b 13 1
  { value := BitVec.ofNat 104 (Bytes.le b 0 13)
    sticky := bitOf f 0, ovf := bitOf f 1, nan := bitOf f 2, pinf := bitOf f 3, ninf := bitOf f 4
    mode := BitVec.ofNat 2 (f / 32), anchor := BitVec.ofNat 16 (Bytes.le b 14 2)
    loss := BitVec.ofNat 32 (Bytes.le b 16 4), nterm := BitVec.ofNat 32 (Bytes.le b 20 4) }

/-- Is the format INT4, INT8, FP4, FP6 or FP8 (R32)? -/
def narrow (fmt : Nat) : Bool := decide (fmt ≤ 6)

/-- The mode of a reduction of two formats, with or without MX scales (R30, R32, R33). -/
def modeOf (a b : Nat) (mx : Bool) : BitVec 2 :=
  if mx then modeA
  else if narrow a && narrow b then modeN
  else if (narrow a && b == 7) || (a == 7 && narrow b) then modeQ
  else modeA

/-- E of an operand: the largest floor(log2 |x|) over its finite values, or the format's l (R33). -/
def eOf (fmt : Nat) (vs : List Val) : Int :=
  let ls := vs.filterMap fun v => match v with
    | .fin m e => if m = 0 then none else some (elog m e)
    | _ => none
  match ls with
  | [] => ellOf fmt
  | x :: t => t.foldl max x

/-- Sum of products of two lists of decoded values in a window (R31). -/
def dotRec (mode : BitVec 2) (c : Int) (xs ys : List Val) : DaRec :=
  (xs.zip ys).foldl (fun r p => addProd r (mulVal p.1 p.2)) (emptyRec mode c)

/-- Exact dot product of finite values. -/
def dotDy (xs ys : List (Int × Int)) : Int × Int := sumDy ((xs.zip ys).map fun p => mulDy p.1 p.2)

/-! ### Max-abs and quantisation -/

/-- Largest magnitude of the finite values, as `m * 2 ^ e` with `m ≥ 0`. -/
def maxAbs (vs : List Val) : Int × Int :=
  vs.foldl (fun a v => match v with
    | .fin m e => let x : Int × Int := (m.natAbs, e); if ltDy a x then x else a
    | _ => a) (0, 0)

/-- FP16 code of `n / d` rounded toward positive infinity, 65,504 where it would be larger (R47, R48). -/
def scaleUp (n : Int) (d : Nat) : Nat :=
  let r := roundTo 7 3 0 true n d
  min r.code 0x7BFF

/-- Qmax of a target format of a symmetric scope (R46, R47, R138), as `m * 2 ^ e`: its largest finite value, 127 for
INT8 and 7 for INT4. -/
def qmaxOf : Nat → Int × Int
  | 0 => (7, 0) | 1 => (127, 0) | 2 => (6, 0) | 3 => (15, -1) | 4 => (28, 0) | 5 => (448, 0) | 6 => (57344, 0)
  | _ => (0, 0)

/-- A quantised scope: its scale (FP16), its codes, saturated codes, invalid results, and whether it is zero-range. -/
structure Quant where
  scale : Nat
  codes : List Nat
  sat : Nat
  invalid : Nat
  zero : Bool
  deriving DecidableEq, Repr, Inhabited

/-- One code of a symmetric scope: `x / s` rounded with RNE and saturated to ±Qmax (R47, R50). -/
def symCode (fmt s : Nat) (v : Val) : Rounded :=
  match v with
  | .nan => nanCode fmt
  | .inf neg =>
    let (q, e) := qmaxOf fmt
    let r := convert fmt 0 0 true (.fin (if neg then -q else q) e)
    ⟨r.code, true, false⟩
  | .fin m e =>
    let (sm, se) := dy 7 s
    let (n, d) := frac m (e - se)
    let num := if sm < 0 then -n else n
    let den := d * sm.natAbs
    let (q, qe) := qmaxOf fmt
    let r := roundTo fmt 0 0 true num den
    let x := dy fmt r.code
    if ltDy (q, qe) x then ⟨(convert fmt 0 0 true (.fin q qe)).code, true, false⟩
    else if ltDy x (-q, qe) then ⟨(convert fmt 0 0 true (.fin (-q) qe)).code, true, false⟩
    else r

/-- Every code of a zero-range scope is zero, those of its NaNs and infinities too: the first words of R50 are taken before
its last paragraph, which the two contradict (DEDUCED, log 70). The counts stay: an infinity counts as a saturated code, a
NaN as an invalid result where the format has no NaN. -/
def zeroCode (r : Rounded) : Rounded := { r with code := 0 }

/-- Symmetric quantisation of values whose scope has the max-abs `m * 2 ^ e` (R46, R47, R50). -/
def quantSymBy (fmt : Nat) (m e : Int) (vs : List Val) : Quant :=
  let zero := decide (m = 0)
  let s :=
    if zero then 0x3C00
    else
      let (q, qe) := qmaxOf fmt
      let (n, d) := frac m (e - qe)
      scaleUp n (d * q.natAbs)
  let rs := vs.map fun v => if zero then zeroCode (symCode fmt s v) else symCode fmt s v
  { scale := s, codes := rs.map (·.code), sat := (rs.filter (·.sat)).length
    invalid := (rs.filter (·.invalid)).length, zero := zero }

/-- Symmetric quantisation of a scope of its own (R47, R50). -/
def quantSym (fmt : Nat) (vs : List Val) : Quant :=
  let (m, e) := maxAbs vs
  quantSymBy fmt m e vs

/-- Smallest and largest finite value of a row; none when there is none. -/
def minMax (vs : List Val) : Option ((Int × Int) × (Int × Int)) :=
  vs.foldl (fun a v => match v with
    | .fin m e => match a with
      | none => some ((m, e), (m, e))
      | some (lo, hi) => some (if ltDy (m, e) lo then (m, e) else lo, if ltDy hi (m, e) then (m, e) else hi)
    | _ => a) none

/-- A quantised row: SCALE, OFFSET, codes and counts (R48, R50). -/
structure QRow where
  scale : Nat
  offset : Nat
  codes : List Nat
  sat : Nat
  invalid : Nat
  zero : Bool
  deriving DecidableEq, Repr, Inhabited

/-- Asymmetric quantisation of a row with codes of `w` bits (R48, R50). A row of equal values is zero-range even where FP16
cannot hold them (DEDUCED, log 67); codes of its NaNs and infinities are as in `zeroCode` (log 70). -/
def quantAsym (w : Nat) (vs : List Val) : QRow :=
  let top : Int := (2 ^ w : Nat) - 1
  match minMax vs with
  | none =>
    let ps := vs.filter fun v => match v with | .inf _ => true | _ => false
    { scale := 0, offset := 0, codes := vs.map fun _ => 0, sat := ps.length
      invalid := (vs.filter (· == .nan)).length, zero := true }
  | some (lo, hi) =>
    let (n, d) := frac lo.1 lo.2
    let o := (roundTo 7 0 0 true n d).code
    let (om, oe) := dy 7 o
    if !ltDy (om, oe) hi || !ltDy lo hi then
      { scale := 0, offset := o, codes := vs.map fun _ => 0
        sat := (vs.filter fun v => match v with | .inf _ => true | _ => false).length
        invalid := (vs.filter (· == .nan)).length, zero := true }
    else
      let (rm, re) := sumDy [hi, (-om, oe)]
      let (rn, rd) := frac rm re
      let s := scaleUp rn (rd * top.natAbs)
      let (sm, se) := dy 7 s
      let code (v : Val) : Nat × Bool × Bool := match v with
        | .nan => (0, false, true)
        | .inf neg => (if neg then 0 else top.toNat, true, false)
        | .fin m e =>
          let (xm, xe) := sumDy [(m, e), (-om, oe)]
          let (n, d) := frac xm (xe - se)
          let k := roundInt 0 0 n (d * sm.natAbs)
          let c := max 0 (min top k)
          (c.toNat, decide (c ≠ k), false)
      let cs := vs.map code
      { scale := s, offset := o, codes := cs.map (·.1), sat := (cs.filter (·.2.1)).length
        invalid := (cs.filter (·.2.2)).length, zero := false }

/-- The decoded value of a code of an asymmetric row, exact (R48, R174). -/
def rowVal (s o c : Nat) : Int × Int :=
  let (sm, se) := dy 7 s
  sumDy [dy 7 o, (sm * c, se)]

/-- The E8M0 scale byte of an MX block (R49): e_max is the exponent of the format's largest normal value. -/
def mxByte (fmt : Nat) (vs : List Val) : Nat :=
  let emax : Int := match fmt with | 2 => 2 | 3 => 2 | 4 => 4 | 5 => 8 | 6 => 15 | _ => 6
  let (m, e) := maxAbs vs
  if m = 0 then 0 else (max 0 (min 254 (elog m e - emax + 127))).toNat

/-- An MX block quantised (R49, R50): its scale byte, its codes and counts. -/
def quantMx (fmt : Nat) (vs : List Val) : Quant :=
  let s := mxByte fmt vs
  let (m, _) := maxAbs vs
  let rs := vs.map fun v =>
    let r : Rounded := match v with
      | .fin m e => convert fmt 0 0 true (.fin m (e + 127 - s))
      | .inf neg => ⟨(convert fmt 0 0 true (.fin (if neg then -(2 ^ 40 : Nat) else (2 ^ 40 : Nat)) 0)).code, true, false⟩
      | .nan => nanCode fmt
    if m = 0 then zeroCode r else r
  { scale := s, codes := rs.map (·.code), sat := (rs.filter (·.sat)).length
    invalid := (rs.filter (·.invalid)).length, zero := decide (m = 0) }

/-- The max-abs record of a tile of a format (R46, R220): its bytes, the rows it covers. -/
def tileRec (fmt : Nat) (b : Nat → Byte) : MaxAbs :=
  let w := widthOf fmt
  let rows := if w = 6 then 170 else 65536 * 8 / (512 * w)
  let better (a : Nat) (x : Nat) : Nat :=
    match dec fmt a, dec fmt x with
    | .fin m e, .fin n f =>
      let p : Int × Int := (m.natAbs, e)
      let q : Int × Int := (n.natAbs, f)
      if ltDy p q then x else if !ltDy q p && decide (n < 0) && decide (0 ≤ m) then x else a
    | _, .fin _ _ => x
    | _, _ => a
  let row (r : Nat) : Nat := (List.range 512).foldl (fun a i => better a (elem fmt b (512 * r + i))) 0
  let rm := (List.range rows).map row
  let t := rm.foldl better 0
  let bad := sumNat ((List.range rows).map fun r =>
    ((List.range 512).filter fun i => !(dec fmt (elem fmt b (512 * r + i))).isFin).length)
  let e : Int := match dec fmt t with | .fin m e => if m = 0 then ellOf fmt else elog m e | _ => ellOf fmt
  { fmt := BitVec.ofNat 4 fmt, stale := false, nrows := BitVec.ofNat 16 rows, tmax := BitVec.ofNat 32 t
    e := BitVec.ofInt 16 e, naninf := BitVec.ofNat 32 bad, rowmax := rm.map (BitVec.ofNat 32) }

end Sys2Proof.Num
end

