-- ==== Sys2Proof/Machine/Fn.lean ====
section
/-! DEFINITION. Correctly rounded functions (R81, R98, R126): exp, exp2 and log2 from enclosing intervals whose ends
round alike, square roots from integer square roots with a sticky half, reciprocals exactly. -/

namespace Sys2Proof.Num

/-- Bits `i` down to 0 of the integer square root of `n`, on top of `r`. -/
def isqrtFrom (n : Nat) : Nat → Nat → Nat
  | 0, r => if (r + 1) * (r + 1) ≤ n then r + 1 else r
  | i + 1, r => isqrtFrom n i (if (r + 2 ^ (i + 1)) * (r + 2 ^ (i + 1)) ≤ n then r + 2 ^ (i + 1) else r)

/-- `floor (sqrt n)`. -/
def isqrt (n : Nat) : Nat := if n = 0 then 0 else isqrtFrom n (Nat.log2 n / 2 + 1) 0

/-- A value that rounds as `sqrt (n / d)` does at any precision below 60 bits, as an integer over a natural. -/
def sqrtQ (n d : Nat) : Int × Nat :=
  if n = 0 then (0, 1)
  else
    let k := 64 + Nat.log2 d
    let q := n * 2 ^ (2 * k)
    let r := isqrt (q / d)
    if r * r * d = q then ((r : Int), 2 ^ k) else ((2 * r + 1 : Nat), 2 ^ (k + 1))

/-- `sqrt (m * 2 ^ e)` for `m ≥ 0`, in the same sense. -/
def sqrtDy (m e : Int) : Int × Nat := let (n, d) := frac m e; sqrtQ n.toNat d

/-- An interval that encloses `exp (y / 2 ^ p)` for `ylo ≤ y ≤ yhi`, scaled by `2 ^ p`; `0 ≤ y`. Arguments are
reduced by `2 ^ j` and the series is squared `j` times. -/
def expPos (p ylo yhi : Nat) : Nat × Nat :=
  let one := 2 ^ p
  let j := Nat.log2 (yhi / one + 1) + 8
  let series (y : Nat) (up : Bool) : Nat :=
    let step (a : Nat × Nat) (i : Nat) : Nat × Nat :=
      let t := a.1 * y / (one * (i + 1))
      let t := if up then t + 1 else t
      (t, a.2 + t)
    ((List.range (p / 8 + 4)).foldl step (one, one)).2
  let lo := series (ylo / 2 ^ j) false
  let hi := series (yhi / 2 ^ j + 1) true + 1
  (List.range j).foldl (fun a _ => (a.1 * a.1 / one, a.2 * a.2 / one + 1)) (lo, hi)

/-- An interval that encloses `ln 2`, scaled by `2 ^ p`. -/
def ln2Iv (p : Nat) : Nat × Nat :=
  let s := sumNat ((List.range (p + 2)).map fun i => 2 ^ p / ((i + 1) * 2 ^ (i + 1)))
  (s, s + p + 4)

/-- An interval that encloses `ln (n / d)` for `d ≤ n < 2 d`, scaled by `2 ^ p`. -/
def lnIv (p n d : Nat) : Nat × Nat :=
  let a := n - d
  let b := n + d
  let z := a * 2 ^ p / b
  let step (acc : Nat × Nat) (i : Nat) : Nat × Nat :=
    (acc.1 * a * a / (b * b), acc.2 + acc.1 / (2 * i + 1))
  let s := ((List.range (p / 3 + 4)).foldl step (z, 0)).2
  if a = 0 then (0, 0) else (2 * s, 2 * (s + p + 8))

/-- The code both ends of an interval round to. -/
def agree (fmt mode : Nat) (lo hi : Int × Nat) : Option Nat :=
  let a := (roundTo fmt mode 0 false lo.1 lo.2).code
  let b := (roundTo fmt mode 0 false hi.1 hi.2).code
  if a = b then some a else none

/-- The first precision at which an interval decides the rounding; the lower end of the widest precision is never
needed for FP32 arguments. -/
def decideRound (fmt mode : Nat) (iv : Nat → (Int × Nat) × (Int × Nat)) : Nat :=
  match [128, 320, 1024].findSome? fun p => let (lo, hi) := iv p; agree fmt mode lo hi with
  | some c => c
  | none => let (lo, _) := iv 2048; (roundTo fmt mode 0 false lo.1 lo.2).code

/-- exp of `m * 2 ^ e`, correctly rounded to FP32 with RNE. -/
def exp32 (m e : Int) : Nat :=
  if m = 0 then 0x3F800000
  else if 7 ≤ elog m e then (if m < 0 then 0 else 0x7F800000)
  else
    let (n, d) := frac m.natAbs e
    decideRound 9 0 fun p =>
      let y := n.toNat * 2 ^ p / d
      let (lo, hi) := expPos p y (y + 1)
      if m < 0 then (((2 ^ p : Nat), hi), ((2 ^ p : Nat), lo)) else (((lo : Int), 2 ^ p), ((hi : Int), 2 ^ p))

/-- 2 to the power of `m * 2 ^ e`, correctly rounded to FP32 with RNE. -/
def exp2Of (m e : Int) : Nat :=
  if m ≠ 0 ∧ 8 ≤ elog m e then (if m < 0 then 0 else 0x7F800000)
  else
    let (n, d) := frac m e
    let k := n / (d : Int)
    let f := (n % (d : Int)).toNat
    let scale (x : Int × Nat) : Int × Nat :=
      if 0 ≤ k then (x.1 * 2 ^ k.toNat, x.2) else (x.1, x.2 * 2 ^ (-k).toNat)
    if f = 0 then let (a, b) := scale (1, 1); rne32 a b
    else decideRound 9 0 fun p =>
      let (l2, h2) := ln2Iv p
      let (lo, hi) := expPos p (f * l2 / d) (f * h2 / d + 1)
      (scale ((lo : Int), 2 ^ p), scale ((hi : Int), 2 ^ p))

/-- log2 of `m * 2 ^ e`, `m > 0`, correctly rounded to FP32 with RNE. -/
def log2Of (m e : Int) : Nat :=
  let n := m.toNat
  let g := Nat.log2 n
  let w : Int := (g : Int) + e
  if n = 2 ^ g then rne32 w 1
  else decideRound 9 0 fun p =>
    let (l2, h2) := ln2Iv p
    let (l, h) := lnIv p n (2 ^ g)
    ((w * (2 ^ p : Nat) + ((l * 2 ^ p / h2 : Nat) : Int), 2 ^ p), (w * (2 ^ p : Nat) + ((h * 2 ^ p / l2 + 1 : Nat) : Int), 2 ^ p))

/-- 1 over `m * 2 ^ e` as an integer over a natural, `m ≠ 0`. -/
def recipQ (m e : Int) : Int × Nat :=
  let (n, d) := frac m e
  if n < 0 then (-(d : Int), n.natAbs) else ((d : Int), n.natAbs)

/-- A value that rounds as `1 / sqrt (m * 2 ^ e)` does, `m > 0`. -/
def rsqrtQ (m e : Int) : Int × Nat := let (n, d) := frac m e; sqrtQ d n.toNat

end Sys2Proof.Num
end

