-- ==== Sys2Proof/Machine/Flags.lean ====
section
/-! DEFINITION. Flag computations: the FLAGS of a result record (Table 12-3), the ANY bits of an ME_DESC (Table 3-5),
critical warning and spare of the SMART log (Table 18-6, R334), completion words. -/

namespace Sys2Proof.Machine

def bitIf (b : Bool) (i : Nat) : Nat := if b then 2 ^ i else 0

/-- FLAGS of a vendor command, Table 12-3. -/
structure VFlags where
  loss : Bool := false
  ovf : Bool := false
  nan : Bool := false
  outside : Bool := false
  late : Bool := false
  more : Bool := false
  fallback : Bool := false
  short : Bool := false
  deriving DecidableEq, Repr, Inhabited

def VFlags.word (f : VFlags) : Nat :=
  bitIf f.loss 0 + bitIf f.ovf 1 + bitIf f.nan 2 + bitIf f.outside 3 + bitIf f.late 4 + bitIf f.more 5
    + bitIf f.fallback 6 + bitIf f.short 7

/-- The 64-byte result record: common part of Table 12-2, then the command's own bytes from 0x10. -/
def resultRecord (len : Nat) (f : VFlags) (loss : Nat) (own : Bytes) : Bytes :=
  Bytes.sub (toLe 4 len ++ toLe 4 f.word ++ toLe 8 (min loss (2 ^ 64 - 1)) ++ own) 0 64

/-- DW7 of an ME_DESC at its end: STATUS with ANY_LOSS, ANY_OVF and ANY_NAN. -/
def meStatusWord (status : Nat) (loss ovf nan : Bool) : Nat := status + bitIf loss 8 + bitIf ovf 9 + bitIf nan 10

/-- The outcome of one final rounding, for counters and flags: its code, whether it saturated, whether a NaN met a
format without one, whether the result is a NaN (R43, R51). -/
structure RoundFlags where
  loss : Nat := 0
  ovf : Nat := 0
  sat : Nat := 0
  invalid : Nat := 0
  nan : Nat := 0
  deriving DecidableEq, Repr, Inhabited

def RoundFlags.add (a b : RoundFlags) : RoundFlags :=
  { loss := a.loss + b.loss, ovf := a.ovf + b.ovf, sat := a.sat + b.sat, invalid := a.invalid + b.invalid
    nan := a.nan + b.nan }

/-- The flags of the final rounding of a record. -/
def roundFlags (r : DaRec) (o : Num.Rounded) : RoundFlags :=
  { loss := r.loss.toNat, ovf := if r.ovf then 1 else 0, sat := if o.sat then 1 else 0
    invalid := if o.invalid then 1 else 0, nan := if Num.recNan r then 1 else 0 }

end Sys2Proof.Machine
end

