-- ==== Sys2Proof/Machine/Operands.lean ====
section
/-! DEFINITION. Operand forms: the fields of descriptors (Tables 3-5, 3-6, 4-3, 4-5), of a lamp dispatch (R103), of
mailbox entries (R97) and of the parameter blocks of the vendor commands (Tables 12-5 to 12-11). -/

namespace Sys2Proof.Machine

/-- Dword `i` of a list. -/
def dwAt (l : List W32) (i : Nat) : Nat := (l.getD i 0).toNat

/-- The 64-bit value in dwords `i` and `i + 1`. -/
def dw64 (l : List W32) (i : Nat) : Nat := dwAt l i + 2 ^ 32 * dwAt l (i + 1)

/-- The dwords of bytes. -/
def dwordsOf (b : Bytes) (n : Nat) : List W32 := (Bytes.les b 0 4 n).map (BitVec.ofNat 32)

/-- The bytes of dwords. -/
def bytesOf (l : List W32) : Bytes := l.flatMap fun d => toLe 4 d.toNat

/-! ### Descriptor fields -/

/-- Bits of dword 0 that every descriptor has (R75, R90). -/
def armBit : Nat := 1
def doneBit : Nat := 2
def faultBit : Nat := 4

/-- Dword 0 of a descriptor after a write: the RW bits take the value's, the W1C bits set in the value clear, the
other bits stay (Table 0-4). -/
def writeDw0 (old value rw w1c : Nat) : Nat := ((old &&& (2 ^ 32 - 1 - rw)) ||| (value &&& rw)) &&& (2 ^ 32 - 1 - (value &&& w1c))

/-- Clear ARM and set bits of dword 0. -/
def endDw0 (old set : Nat) : Nat := (old &&& (2 ^ 32 - 1 - armBit)) ||| set

/-- An engine slot of an ME_DESC (Table 3-6). -/
structure MeEng where
  wOff : Nat
  wfmt : Nat
  wmx : Bool
  ofmt : Nat
  out : Nat
  lidx : Nat
  deriving DecidableEq, Repr, Inhabited

/-- An ME_DESC (Tables 3-5 and 3-6). -/
structure MeDesc where
  tree : Bool
  en : Nat
  afmt : Nat
  acc : Nat
  osat : Bool
  rnd : Nat
  part : Bool
  anchorEn : Bool
  anchor : Int
  m : Nat
  act : Nat
  ascale : Nat
  sr : W32
  eng : List MeEng
  deriving DecidableEq, Repr, Inhabited

def meDesc (d : List W32) : MeDesc :=
  let h := dwAt d 0
  let w := dwAt d 1
  let slot (i : Nat) : MeEng :=
    let b := 8 + 6 * i
    let e := dwAt d b
    { wOff := fieldOf e 17 0, wfmt := fieldOf e 21 18, wmx := bitOf e 22, ofmt := fieldOf (dwAt d (b + 1)) 3 0
      out := dw64 d (b + 2), lidx := dw64 d (b + 4) }
  { tree := bitOf h 3, en := fieldOf h 11 8, afmt := fieldOf h 15 12, acc := fieldOf h 17 16, osat := bitOf h 18
    rnd := fieldOf h 20 19, part := bitOf h 21, anchorEn := bitOf h 22, anchor := signedOf 16 w, m := fieldOf w 25 16
    act := dw64 d 2, ascale := dw64 d 4, sr := d.getD 6 0, eng := (List.range 4).map slot }

/-- K_pass of a wider operand (R54). -/
def kPass (fmt : Nat) : Nat := if fmt = 0 ∨ fmt = 2 ∨ fmt = 3 ∨ fmt = 4 then 256 else 128

/-- Width class used to pick the wider of two formats: bits of an element, FP6 between FP4 and FP8 (Table 3-1). -/
def widthRank : Nat → Nat
  | 0 => 4 | 2 => 4 | 3 => 6 | 4 => 6 | 1 => 8 | 5 => 8 | 6 => 8 | 7 => 16 | 8 => 16 | _ => 32

/-- The wider operand's format of a pair (R30). -/
def wider (a w : Nat) : Nat := if widthRank a < widthRank w then w else a

/-- v of Table 3-1: ME-cycles between vectors. -/
def vOf (fmt : Nat) : Nat := match widthRank fmt with | 16 => 2 | 32 => 8 | _ => 1

/-- L of Table 3-1: ME-cycles to load one stationary operand. -/
def lOf (fmt : Nat) : Nat := match widthRank fmt with | 6 => 96 | 16 => 128 | 32 => 256 | _ => 64

/-- Period of a pass (R63). -/
def period (m fmt : Nat) : Nat := max (m * vOf fmt) (640 + lOf fmt)

/-- A TILE_DESC (Table 4-3). -/
structure TileDesc where
  cost : Nat
  replayPc : Nat
  inList : Nat
  inCount : Nat
  outCount : Nat
  outList : Nat
  localTile : Nat
  deriving DecidableEq, Repr, Inhabited

def tileDesc (d : List W32) : TileDesc :=
  { cost := fieldOf (dwAt d 1) 14 0, replayPc := dw64 d 2, inList := dw64 d 4, inCount := fieldOf (dwAt d 6) 15 0
    outCount := fieldOf (dwAt d 6) 31 16, outList := dw64 d 7, localTile := dw64 d 9 }

/-- A TM_DESC (Table 4-5). -/
structure TmDesc where
  count : Nat
  src : Nat
  dst : Nat
  deriving DecidableEq, Repr, Inhabited

def tmDesc (d : List W32) : TmDesc := { count := fieldOf (dwAt d 0) 22 16, src := dw64 d 2, dst := dw64 d 4 }

/-! ### Mailbox entries (R97) and lamp dispatches (R103) -/

def entryType (e : List W32) : Nat := fieldOf (dwAt e 0) 15 0
def entryLen (e : List W32) : Nat := fieldOf (dwAt e 0) 31 16
def entryPayload (e : List W32) : Bytes := Bytes.sub (bytesOf (e.drop 2)) 0 (entryLen e)

/-- A mailbox entry of a type with a payload. -/
def mkEntry (ty seq : Nat) (payload : Bytes) : List W32 :=
  [BitVec.ofNat 32 (ty + 65536 * payload.length), BitVec.ofNat 32 seq] ++ dwordsOf payload 14

/-- The fields of a lamp dispatch. -/
structure LampFields where
  kernel : Nat
  cls : Nat
  tag : Nat
  budget : Nat
  arg : Nat
  len : Nat
  reply : Nat
  lidx : Nat
  deriving DecidableEq, Repr, Inhabited

def lampFields (d : List W32) : LampFields :=
  { kernel := fieldOf (dwAt d 0) 19 16, cls := fieldOf (dwAt d 0) 9 8, tag := dwAt d 2, budget := dwAt d 3
    arg := dw64 d 4, len := fieldOf (dwAt d 6) 10 0, reply := dw64 d 7, lidx := dw64 d 9 }

/-! ### The data buffer of the vendor I/O commands (R287) -/

def inLen (e : Sqe) : Nat := e.cdw10.toNat
def outLen (e : Sqe) : Nat := e.cdw11.toNat
/-- Offset of the output region. -/
def outOff (e : Sqe) : Nat := roundUp (inLen e) 4096
/-- The input region. -/
def inRegion (e : Sqe) : Bytes := Bytes.sub e.inp 0 (inLen e)

/-- Lengths and data pointer of R287. -/
def lengthsOk (e : Sqe) : Bool := inLen e % 8 == 0 && (outLen e == 0 || decide (64 ≤ outLen e))

/-- Does the data pointer describe the regions? -/
def dptrOk (e : Sqe) : Bool :=
  decide (e.inp.length ≤ e.dptr) && decide (inLen e ≤ e.inp.length)
    && decide ((if outLen e = 0 then inLen e else outOff e + outLen e) ≤ e.dptr)

def cdw12Lo (e : Sqe) : Nat := fieldOf e.cdw12.toNat 15 0
def cdw10Lo (e : Sqe) : Nat := fieldOf e.cdw10.toNat 15 0
def cdw10Op (e : Sqe) : Nat := fieldOf e.cdw10.toNat 7 0
def cdw10Hi (e : Sqe) : Nat := fieldOf e.cdw10.toNat 31 16

/-! ### Parameter blocks -/

/-- A format field of one byte; the values above 0xE, of which none is a format, are one. -/
def fmtByte (b : Bytes) (off : Nat) : BitVec 4 := BitVec.ofNat 4 (min 15 (Bytes.le b off 1))

def attendP (b : Bytes) : AttendP :=
  let f := Bytes.le b 6 1
  { layer := Bytes.le b 0 2, qtok := Bytes.le b 2 2, qfmt := fmtByte b 4
    ofmt := fmtByte b 5, selective := bitOf f 0, causal := bitOf f 1, append := bitOf f 2
    tau := BitVec.ofNat 32 (Bytes.le b 8 4), selBlocks := Bytes.le b 12 4, sink := Bytes.le b 16 2
    recent := Bytes.le b 18 2, window := Bytes.le b 24 8, qpos := Bytes.le b 32 8 }

def searchP (b : Bytes) : SearchP :=
  let f := Bytes.le b 14 1
  { mode := Bytes.le b 0 1, qfmt := fmtByte b 1, index := Bytes.le b 2 2, gen := Bytes.le b 4 4
    k := Bytes.le b 8 2, l := Bytes.le b 10 2, par := Bytes.le b 12 1, widen := Bytes.le b 13 1, payload := bitOf f 0
    outRecords := bitOf f 1, rsizeLog := Bytes.le b 15 1, visitBudget := Bytes.le b 16 2, plen := Bytes.le b 18 2
    timeBudget := Bytes.le b 20 4, first := Bytes.le b 24 8, count := Bytes.le b 32 8 }

/-- GATHER parameter block, Table 12-7 (R294). -/
structure GatherP where
  table : Nat
  reduce : Nat
  ofmt : Nat
  gen : Nat
  nidx : Nat
  nbags : Nat
  weights : Bool
  deriving DecidableEq, Repr, Inhabited

def gatherP (b : Bytes) : GatherP :=
  { table := Bytes.le b 0 2, reduce := Bytes.le b 2 1, ofmt := Bytes.le b 3 1, gen := Bytes.le b 4 4
    nidx := Bytes.le b 8 4, nbags := Bytes.le b 12 4, weights := bitOf (Bytes.le b 16 1) 0 }

def scatterP (b : Bytes) : ScatterP :=
  { step := Bytes.le b 0 8, src := Bytes.le b 8 1, set := Bytes.le b 9 1 == 1
    vfmt := fmtByte b 10, coef := BitVec.ofNat 32 (Bytes.le b 12 4), nidx := Bytes.le b 16 4 }

/-- SESSION-OPEN data, Table 12-9 (R299). -/
structure OpenP where
  layers : Nat
  kvHeads : Nat
  qPerKv : Nat
  headDim : Nat
  cls : Nat
  flight : Bool
  sg : Bool
  imp : Bool
  basePos : Nat
  seed : Nat
  impSlba : Nat
  impNsid : Nat
  deriving DecidableEq, Repr, Inhabited

def openP (b : Bytes) : OpenP :=
  let f := Bytes.le b 6 2
  { layers := Bytes.le b 0 2, kvHeads := Bytes.le b 2 1, qPerKv := Bytes.le b 3 1, headDim := Bytes.le b 4 1
    cls := Bytes.le b 5 1, flight := bitOf f 0, sg := bitOf f 1, imp := bitOf f 2, basePos := Bytes.le b 8 8
    seed := Bytes.le b 16 8, impSlba := Bytes.le b 24 8, impNsid := Bytes.le b 32 4 }

/-- INDEX-MANAGE CREATE data, Table 12-10 (R301). -/
structure IndexP where
  vdim : Nat
  vfmt : Nat
  metric : Nat
  maxdeg : Nat
  csub : Nat
  entries : Nat
  buildL : Nat
  alpha : Nat
  seed : Nat
  deriving DecidableEq, Repr, Inhabited

def indexP (b : Bytes) : IndexP :=
  { vdim := Bytes.le b 0 2, vfmt := Bytes.le b 2 1, metric := Bytes.le b 3 1, maxdeg := Bytes.le b 4 1
    csub := Bytes.le b 5 1, entries := Bytes.le b 6 1, buildL := Bytes.le b 8 2, alpha := Bytes.le b 10 2
    seed := Bytes.le b 16 8 }

def ingestP (b : Bytes) : IngestP :=
  { ingestId := Bytes.le b 0 2, program := Bytes.le b 2 1, payload := Bytes.le b 3 1, chunkTokens := Bytes.le b 4 2
    overlap := Bytes.le b 6 2, commitChunks := Bytes.le b 8 4, commitMs := Bytes.le b 12 4, cls := Bytes.le b 16 1
    backfill := bitOf (Bytes.le b 17 1) 0 }

/-- TABLE-MANAGE CREATE data, Table 12-11 (R303). -/
structure TableP where
  rows : Nat
  dim : Nat
  code : Nat
  sources : Nat
  spare : Nat
  deriving DecidableEq, Repr, Inhabited

def tableP (b : Bytes) : TableP :=
  { rows := Bytes.le b 0 4, dim := Bytes.le b 4 2, code := Bytes.le b 6 1, sources := Bytes.le b 7 1
    spare := Bytes.le b 8 1 }

/-- The logical block range of an NVM command: starting block and number of blocks. -/
def slbaOf (e : Sqe) : Nat := e.cdw10.toNat + 2 ^ 32 * e.cdw11.toNat
def nlbOf (e : Sqe) : Nat := fieldOf e.cdw12.toNat 15 0 + 1

end Sys2Proof.Machine
end

