-- ==== Sys2Proof/Config.lean ====
section
/-! DEFINITION. What one module or one published standard fixes and the spec does not state: free values, identity
constants, published algorithms that the spec names without restating them, and procedures it leaves open. None has
a body, so no proof can rest on a value. notes/assumptions/ names each. -/

namespace Sys2Proof

open Sys2Proof.Machine

/-- A value nothing constrains: the argument is the counter `State.free`. -/
opaque Config.freeNat : Nat → Nat

/-- Bits of the pilot's random bit generator (R362): keys, salts and nonces. -/
opaque Config.randomBytes : Nat → Bytes

/-- Contents of a code-flash byte after an interrupted erase or program (R353): the counter `State.free`, times 2^23, plus the
offset. -/
opaque Config.cfUndefined : Nat → Byte

/-- ECDSA P-384 verification of a signature over a digest (R366, R369): public key, digest, signature. -/
opaque Config.ecdsaVerify : Bytes → Bytes → Bytes → Bool

/-- The same by the enrolled owner key whose SHA-384 is the first argument (R369: the secure store holds the hash alone,
and AUTH carries no key). -/
opaque Config.ecdsaVerifyEnrolled : Bytes → Bytes → Bytes → Bool

/-- A signature of the module's alias key, named by its number, over a message (R364, R371). -/
opaque Config.aliasSign : Nat → Bytes → Bytes

/-- The alias certificate of an alias key over the measurements 1 to 5 (R363, R364). -/
opaque Config.aliasCertificate : Nat → Bytes → Bytes

/-- SHA-384 of the boot ROM (Table 15-7). -/
opaque Config.bootRomHash : Bytes

/-- AES-256-GCM sealing (R381): key, IV, additional data, plaintext; ciphertext and tag. -/
opaque Config.gcmSeal : Bytes → Bytes → Bytes → Bytes → Bytes × Bytes

/-- AES-256-GCM opening (R382): key, IV, additional data, ciphertext, tag; the plaintext when the tag verifies. -/
opaque Config.gcmOpen : Bytes → Bytes → Bytes → Bytes → Bytes → Option Bytes

/-- AES Key Wrap (R379, R380): key encryption key, key. -/
opaque Config.keyWrap : Bytes → Bytes → Bytes

/-- AES Key Unwrap (R382): the key when the wrapping verifies. -/
opaque Config.keyUnwrap : Bytes → Bytes → Option Bytes

/-- SHA-384 hashes of the four boot ROM keys (R366), by index. -/
opaque Config.bootKeyHash : Nat → Bytes

/-- Identity of the module: serial number, board build, date (R411), MAC address (R410), device certificate chain
(R363). -/
opaque Config.serialNumber : Bytes
opaque Config.boardBuild : Bytes
opaque Config.manufactureDate : Bytes
opaque Config.macAddress : BitVec 48
opaque Config.certificateChain : Bytes

/-- Vendor and device identifiers and the rest of configuration space that the spec does not state (R255). -/
opaque Config.configSpace : Fin 128 → Nat → W32

/-- Controller register contents the spec does not state (R257, R260), by function and offset. -/
opaque Config.controllerReg : Fin 128 → Nat → W32

/-- Codebook training by k-means keyed by SEED (R139): the block of each training draw (Table 8-2), VDIM, CSUB, decoded
training vectors. -/
opaque Config.trainCodebook : (Nat → List Nat) → Nat → Nat → List (List (Int × Int)) → Codebook

/-- The ALPHA prune (R143, R145): ALPHA, MAXDEG, the node, its candidates with their full distances. -/
opaque Config.alphaPrune : W16 → Nat → Nat → List (Nat × W32) → List Nat

/-- The choice of entry points (R135): the index's ENTRIES and its nodes in order of insertion. -/
opaque Config.pickEntries : Nat → List Nat → List Nat

/-- A table entry of the compressed distance whose contribution is not finite (R140 states no result): the query, the
subspace, the centroid. -/
opaque Config.lutOverflow : List W16 → Nat → Nat → Nat

/-- The larger or smaller of a NaN and another value (R81 states no result): the operation, the format, the two operand
codes. The same in every lane of every core (R81). -/
opaque Config.vecExtreme : VOp → Nat → Nat → Nat → Nat

/-- A function of a special operand, or of one outside its domain (R81 states no result): the function, the operand's FP32
code. The same in every lane of every core (R81). -/
opaque Config.vecFunction : VFn → Nat → Nat

/-- What a device self-test finds (R436): the counter `State.free`. -/
opaque Config.selfTest : Nat → List TestResult

/-- Bytes of data lost with a write buffer whose flush did not complete: the counter `State.free`, the offset. -/
opaque Config.lostByte : Nat → Nat → Byte

/-- The boot ROM's estimate of RETRY_MS (R401), of which the spec states only the least value 100. -/
opaque Config.retryMs : Nat → Nat

/-- Bytes of a data structure of a published standard (Identify, logs of the NVMe base specification, SPDM messages)
that the spec leaves to that standard: a selector and an offset. -/
opaque Config.standardByte : Nat → Nat → Byte

end Sys2Proof
end

