-- ==== Sys2Proof/Machine/Check.lean ====
section
/-! DEFINITION. The check code of SRAM and pool words (R207) and its decoding under a tag (R208), with the decode that
treats both tag symbols as erasures (R208, R223). Symbols are naturals below 256. -/

namespace Sys2Proof.Check

/-- Product in GF(2^8) with the polynomial 0x11D. -/
def gmul (a b : Nat) : Nat :=
  let step (p : Nat × Nat × Nat) (_ : Nat) : Nat × Nat × Nat :=
    let (acc, x, y) := p
    let acc := if y % 2 = 1 then acc ^^^ x else acc
    let x := if 128 ≤ x then (2 * x) ^^^ 0x11D else 2 * x
    (acc, x, y / 2)
  ((List.range 8).foldl step (0, a, b)).1

/-- Powers of the primitive element. -/
def alpha (i : Nat) : Nat := (List.range i).foldl (fun a _ => gmul a 2) 1

/-- Inverse in GF(2^8): the 254th power. -/
def ginv (a : Nat) : Nat :=
  let step (p : Nat × Nat) (_ : Nat) : Nat × Nat := let q := gmul p.2 p.2; (gmul p.1 q, q)
  ((List.range 7).foldl step (1, a)).1

/-- The check bytes C0 to C3 of a message of 34 symbols (R207). -/
def parity (msg : List Nat) : List Nat :=
  let step (r : Nat × Nat × Nat × Nat) (m : Nat) : Nat × Nat × Nat × Nat :=
    let (r0, r1, r2, r3) := r
    let f := m ^^^ r3
    (gmul f 64, r0 ^^^ gmul f 120, r1 ^^^ gmul f 54, r2 ^^^ gmul f 15)
  let (r0, r1, r2, r3) := msg.reverse.foldl step (0, 0, 0, 0)
  [r0, r1, r2, r3]

/-- The check bytes of a word written under a tag. -/
def encode (data : Bytes) (tag : Nat) : Bytes :=
  (parity (data.map (·.toNat) ++ [tag % 256, tag / 256 % 256])).map (BitVec.ofNat 8)

/-- Syndromes S0 to S3 of 38 symbols. -/
def syndromes (w : List Nat) : List Nat :=
  (List.range 4).map fun i => w.reverse.foldl (fun acc c => gmul acc (alpha i) ^^^ c) 0

/-- The position below `n` whose locator is `x`. -/
def locate (x n : Nat) : Option Nat := (List.range n).find? fun p => alpha p == x

/-- A decode that treats the tag symbols as erasures (R208): the tag the word carries, the data, the check bytes and
whether a stored symbol was corrected. -/
structure Erased where
  tag : Nat
  data : Bytes
  chk : Bytes
  fixed : Bool
  deriving DecidableEq, Repr

/-- Correct one symbol of 38. -/
def fixAt (w : List Nat) (p e : Nat) : List Nat := setAt w p (w.getD p 0 ^^^ e)

/-- The stored part of 38 symbols as data and check bytes, with a tag. -/
def split (w : List Nat) (fixed : Bool) : Erased :=
  { chk := (w.take 4).map (BitVec.ofNat 8), data := ((w.drop 4).take 32).map (BitVec.ofNat 8)
    tag := w.getD 36 0 + 256 * w.getD 37 0, fixed := fixed }

/-- Fill in the two tag symbols of 38 symbols that have no other error. -/
def fillTag (w : List Nat) (fixed : Bool) : Erased :=
  let s := syndromes w
  let x1 := alpha 36
  let x2 := alpha 37
  let e2 := gmul (s.getD 1 0 ^^^ gmul x1 (s.getD 0 0)) (ginv (x1 ^^^ x2))
  let e1 := s.getD 0 0 ^^^ e2
  split (fixAt (fixAt w 36 e1) 37 e2) fixed

/-- The second step of R208 on a word with its check bytes. -/
def decodeErased (data chk : Bytes) : Option Erased :=
  let w := chk.map (·.toNat) ++ data.map (·.toNat) ++ [0, 0]
  let s := syndromes w
  let x1 := alpha 36
  let x2 := alpha 37
  let t (i : Nat) : Nat := s.getD (i + 2) 0 ^^^ gmul (x1 ^^^ x2) (s.getD (i + 1) 0) ^^^ gmul (gmul x1 x2) (s.getD i 0)
  if t 0 = 0 ∧ t 1 = 0 then some (fillTag w false)
  else if t 0 = 0 ∨ t 1 = 0 then none
  else
    match locate (gmul (t 1) (ginv (t 0))) 36 with
    | none => none
    | some p =>
      let x := alpha p
      let d := gmul x x ^^^ gmul (x1 ^^^ x2) x ^^^ gmul x1 x2
      some (fillTag (fixAt w p (gmul (t 0) (ginv d))) true)

/-- Decode outcomes, Table 9-2. -/
inductive Outcome where
  | clean (data : Bytes)
  | corrected (data chk : Bytes)
  | unwritten
  | foreign
  | uncorrectable
  deriving DecidableEq, Repr

/-- Decode a word under the reader's tag (R208). -/
def decode (data chk : Bytes) (tag : Nat) : Outcome :=
  if chk = encode data tag then .clean data
  else
    let w := chk.map (·.toNat) ++ data.map (·.toNat) ++ [tag % 256, tag / 256 % 256]
    let s := syndromes w
    let s0 := s.getD 0 0
    let s1 := s.getD 1 0
    let s2 := s.getD 2 0
    let s3 := s.getD 3 0
    let single : Option Nat :=
      if s0 ≠ 0 ∧ gmul s1 s1 = gmul s0 s2 ∧ gmul s2 s2 = gmul s1 s3 then locate (gmul s1 (ginv s0)) 36 else none
    match single with
    | some p =>
      let r := split (fixAt w p s0) true
      .corrected r.data r.chk
    | none =>
      match decodeErased data chk with
      | some r => if r.tag = 0 then .unwritten else .foreign
      | none => .uncorrectable

/-- The data a decode returns. -/
def Outcome.data? : Outcome → Option Bytes
  | .clean d => some d
  | .corrected d _ => some d
  | _ => none

end Sys2Proof.Check
end

