-- ==== Sys2Proof/Machine/Objects.lean ====
section
/-! DEFINITION. The objects of the Waori dictionary, in ascending order of object id (R388, Table 16-12): type, access,
length, range and factory default of each, from the object tables of every chapter. -/

namespace Sys2Proof.Dic

/-- An object: its id, type code (Table 16-1), access (0 RO, 1 RW, 2 RWR, 3 RWC, 4 WO), length, least and largest
value, factory default, whether a write needs security rights (R390), whether a factory restore zeroes it (R416). -/
structure Obj where
  id : Nat
  ty : Nat
  acc : Nat
  len : Nat
  min : Nat
  max : Nat
  dflt : Nat
  rights : Bool
  frest : Bool
  deriving DecidableEq, Repr, Inhabited

def objs0 : List Obj :=
  [⟨0x100001, 10, 0, 7, 0, 0, 0, false, false⟩,
   ⟨0x100002, 10, 0, 13, 0, 0, 0, false, false⟩,
   ⟨0x100003, 10, 0, 8, 0, 0, 0, false, false⟩,
   ⟨0x100004, 10, 0, 16, 0, 0, 0, false, false⟩,
   ⟨0x100005, 10, 0, 8, 0, 0, 0, false, false⟩,
   ⟨0x100006, 10, 0, 10, 0, 0, 0, false, false⟩,
   ⟨0x100007, 9, 0, 1, 0, 3, 0, false, false⟩,
   ⟨0x101001, 2, 2, 1, 8, 119, 29, false, false⟩,
   ⟨0x101002, 9, 0, 1, 0, 1, 0, false, false⟩,
   ⟨0x101003, 2, 0, 1, 0, 255, 0, false, false⟩,
   ⟨0x105001, 2, 3, 1, 0, 255, 255, false, false⟩,
   ⟨0x105002, 2, 3, 1, 1, 255, 8, false, false⟩,
   ⟨0x105003, 2, 3, 1, 0, 255, 0, false, false⟩,
   ⟨0x105004, 2, 3, 1, 0, 255, 128, false, false⟩,
   ⟨0x105005, 2, 3, 1, 2, 255, 32, false, false⟩,
   ⟨0x105006, 1, 3, 1, 0, 1, 1, false, false⟩]

def objs1 : List Obj :=
  [⟨0x105007, 3, 3, 2, 1024, 65535, 30512, false, false⟩,
   ⟨0x105008, 3, 3, 2, 0, 3600, 30, false, false⟩,
   ⟨0x105009, 11, 0, 6, 0, 0, 0, false, false⟩,
   ⟨0x10500A, 9, 0, 1, 0, 3, 0, false, false⟩,
   ⟨0x106001, 3, 3, 2, 1, 4096, 1024, false, false⟩,
   ⟨0x106002, 3, 3, 2, 1, 32, 24, false, false⟩,
   ⟨0x106003, 4, 3, 4, 50, 60000, 1000, false, false⟩,
   ⟨0x106004, 4, 3, 4, 256, 131072, 16384, false, false⟩,
   ⟨0x107001, 10, 0, 32, 0, 0, 0, false, false⟩,
   ⟨0x107002, 9, 0, 1, 0, 4, 0, false, false⟩,
   ⟨0x107003, 4, 1, 4, 0, 8060928, 0, true, false⟩,
   ⟨0x107004, 11, 4, 1024, 0, 0, 0, true, false⟩,
   ⟨0x107005, 9, 4, 1, 1, 3, 0, true, false⟩,
   ⟨0x107006, 3, 0, 2, 0, 65535, 0, false, false⟩,
   ⟨0x210001, 3, 2, 2, 150, 675, 600, false, false⟩,
   ⟨0x210002, 3, 0, 2, 0, 65535, 0, false, false⟩]

def objs2 : List Obj :=
  [⟨0x211001, 9, 0, 1, 0, 3, 0, false, false⟩,
   ⟨0x211002, 11, 0, 8, 0, 0, 0, false, false⟩,
   ⟨0x212001, 5, 0, 8, 0, 18446744073709551615, 0, false, false⟩,
   ⟨0x212002, 9, 0, 1, 0, 3, 0, false, false⟩,
   ⟨0x213001, 8, 0, 4, 0, 4294967295, 0, false, false⟩,
   ⟨0x213002, 9, 0, 1, 0, 2, 0, false, false⟩,
   ⟨0x214001, 4, 3, 4, 10, 600000, 2000, false, false⟩,
   ⟨0x214002, 4, 3, 4, 1, 86400, 10, false, false⟩,
   ⟨0x214003, 4, 3, 4, 0, 86400, 300, false, false⟩,
   ⟨0x215001, 11, 0, 32, 0, 0, 0, false, false⟩,
   ⟨0x215002, 2, 3, 1, 80, 100, 100, false, false⟩,
   ⟨0x216001, 3, 3, 2, 1, 720, 24, false, false⟩,
   ⟨0x217001, 9, 0, 1, 0, 4, 0, false, false⟩,
   ⟨0x217002, 3, 0, 2, 0, 65535, 0, false, false⟩,
   ⟨0x217003, 3, 0, 2, 0, 65535, 0, false, false⟩,
   ⟨0x217004, 3, 0, 2, 0, 65535, 0, false, false⟩]

def objs3 : List Obj :=
  [⟨0x217005, 5, 0, 8, 0, 18446744073709551615, 0, false, false⟩,
   ⟨0x218001, 1, 1, 1, 0, 1, 0, false, false⟩,
   ⟨0x218002, 1, 2, 1, 0, 1, 0, false, false⟩,
   ⟨0x219001, 11, 0, 66, 0, 0, 0, false, false⟩,
   ⟨0x302001, 3, 3, 2, 24, 160, 96, false, false⟩,
   ⟨0x302002, 4, 3, 4, 10000, 1000000, 100000, false, false⟩,
   ⟨0x302003, 3, 3, 2, 1, 90, 7, false, false⟩,
   ⟨0x303001, 3, 3, 2, 50, 2000, 300, false, false⟩,
   ⟨0x303002, 11, 0, 48, 0, 0, 0, false, false⟩]

def objs4 : List Obj :=
  [⟨0x401000, 5, 3, 8, 0, 18446744073709551615, 144115462953779220, false, false⟩,
   ⟨0x401001, 4, 3, 4, 0, 4294967295, 114696, false, false⟩,
   ⟨0x401002, 4, 3, 4, 0, 4294967295, 114692, false, false⟩,
   ⟨0x401003, 4, 3, 4, 0, 4294967295, 65537, false, false⟩,
   ⟨0x401004, 2, 3, 1, 1, 255, 17, false, false⟩,
   ⟨0x402001, 3, 3, 2, 0, 192, 48, false, false⟩,
   ⟨0x402002, 3, 3, 2, 1000, 26000, 20000, false, false⟩,
   ⟨0x403001, 5, 0, 8, 0, 18446744073709551615, 0, false, false⟩,
   ⟨0x403002, 4, 3, 4, 1, 3600000, 200, false, false⟩,
   ⟨0x404001, 4, 3, 4, 100, 1000000, 2000, false, false⟩,
   ⟨0x404002, 4, 3, 4, 100, 1000000, 10000, false, false⟩,
   ⟨0x404003, 4, 3, 4, 100, 1000000, 50000, false, false⟩]

def objs5 : List Obj :=
  [⟨0x420001, 2, 3, 1, 1, 35, 32, false, false⟩,
   ⟨0x421001, 2, 3, 1, 1, 16, 2, false, false⟩,
   ⟨0x421002, 2, 3, 1, 1, 50, 10, false, false⟩,
   ⟨0x421003, 3, 3, 2, 16, 8192, 1024, false, false⟩,
   ⟨0x422001, 2, 3, 1, 1, 8, 1, false, false⟩,
   ⟨0x422002, 3, 3, 2, 0, 65535, 256, false, false⟩,
   ⟨0x422003, 2, 3, 1, 16, 24, 20, false, false⟩,
   ⟨0x422004, 2, 3, 1, 0, 32, 8, false, false⟩,
   ⟨0x501001, 11, 0, 48, 0, 0, 0, false, false⟩,
   ⟨0x501002, 11, 0, 48, 0, 0, 0, false, false⟩,
   ⟨0x501003, 2, 0, 1, 0, 255, 0, false, false⟩,
   ⟨0x501004, 4, 0, 4, 0, 4294967295, 0, false, false⟩,
   ⟨0x501005, 11, 4, 408, 0, 0, 0, true, false⟩,
   ⟨0x502001, 3, 0, 2, 0, 65535, 0, false, false⟩,
   ⟨0x502002, 2, 0, 1, 0, 255, 0, false, false⟩,
   ⟨0x503001, 11, 3, 32, 0, 0, 2, true, false⟩]

def objs6 : List Obj :=
  [⟨0x505001, 11, 4, 32, 0, 0, 0, true, false⟩,
   ⟨0x505002, 1, 0, 1, 0, 1, 0, false, false⟩,
   ⟨0x505003, 5, 0, 8, 0, 18446744073709551615, 0, false, false⟩,
   ⟨0x505004, 5, 0, 8, 0, 18446744073709551615, 0, false, false⟩,
   ⟨0x604001, 11, 0, 96, 0, 0, 0, false, false⟩,
   ⟨0x605001, 5, 0, 8, 0, 18446744073709551615, 0, false, true⟩,
   ⟨0x605002, 5, 0, 8, 0, 18446744073709551615, 0, false, true⟩,
   ⟨0x605003, 5, 0, 8, 0, 18446744073709551615, 0, false, true⟩,
   ⟨0x605004, 5, 0, 8, 0, 18446744073709551615, 0, false, true⟩,
   ⟨0x605005, 5, 0, 8, 0, 18446744073709551615, 0, false, true⟩,
   ⟨0x606001, 5, 0, 8, 0, 18446744073709551615, 0, false, true⟩,
   ⟨0x607001, 5, 0, 8, 0, 18446744073709551615, 0, false, true⟩,
   ⟨0x607002, 5, 0, 8, 0, 18446744073709551615, 0, false, true⟩,
   ⟨0x607003, 5, 0, 8, 0, 18446744073709551615, 0, false, true⟩,
   ⟨0x608001, 5, 0, 8, 0, 18446744073709551615, 0, false, true⟩,
   ⟨0x608002, 5, 0, 8, 0, 18446744073709551615, 0, false, true⟩]

def objs7 : List Obj :=
  [⟨0x608003, 5, 0, 8, 0, 18446744073709551615, 0, false, true⟩,
   ⟨0x608004, 5, 0, 8, 0, 18446744073709551615, 0, false, true⟩,
   ⟨0x609001, 5, 0, 8, 0, 18446744073709551615, 0, false, true⟩,
   ⟨0x609002, 5, 0, 8, 0, 18446744073709551615, 0, false, true⟩,
   ⟨0x609003, 5, 0, 8, 0, 18446744073709551615, 0, false, true⟩,
   ⟨0x609004, 5, 0, 8, 0, 18446744073709551615, 0, false, true⟩,
   ⟨0x609005, 5, 0, 8, 0, 18446744073709551615, 0, false, true⟩,
   ⟨0x609006, 5, 0, 8, 0, 18446744073709551615, 0, false, true⟩,
   ⟨0x609007, 5, 0, 8, 0, 18446744073709551615, 0, false, true⟩,
   ⟨0x609008, 1, 3, 1, 0, 1, 0, true, false⟩,
   ⟨0x609101, 2, 3, 1, 1, 64, 4, false, false⟩,
   ⟨0x609102, 4, 0, 4, 0, 4294967295, 0, false, false⟩,
   ⟨0x609103, 3, 0, 2, 0, 65535, 0, false, false⟩,
   ⟨0x610001, 5, 0, 8, 0, 18446744073709551615, 0, false, true⟩,
   ⟨0x610002, 5, 0, 8, 0, 18446744073709551615, 0, false, true⟩,
   ⟨0x610003, 5, 0, 8, 0, 18446744073709551615, 0, false, true⟩]

def objs8 : List Obj :=
  [⟨0x611001, 5, 0, 8, 0, 18446744073709551615, 0, false, true⟩,
   ⟨0x611002, 5, 0, 8, 0, 18446744073709551615, 0, false, true⟩,
   ⟨0x612001, 5, 0, 8, 0, 18446744073709551615, 0, false, true⟩,
   ⟨0x612002, 5, 0, 8, 0, 18446744073709551615, 0, false, true⟩,
   ⟨0x612003, 5, 0, 8, 0, 18446744073709551615, 0, false, true⟩,
   ⟨0x612004, 5, 0, 8, 0, 18446744073709551615, 0, false, true⟩,
   ⟨0x612005, 5, 0, 8, 0, 18446744073709551615, 0, false, true⟩,
   ⟨0x612006, 5, 0, 8, 0, 18446744073709551615, 0, false, true⟩,
   ⟨0x612007, 5, 0, 8, 0, 18446744073709551615, 0, false, true⟩,
   ⟨0x612008, 5, 0, 8, 0, 18446744073709551615, 0, false, true⟩,
   ⟨0x612009, 5, 0, 8, 0, 18446744073709551615, 0, false, true⟩,
   ⟨0x61200A, 5, 0, 8, 0, 18446744073709551615, 0, false, true⟩,
   ⟨0x61200B, 5, 0, 8, 0, 18446744073709551615, 0, false, true⟩,
   ⟨0x61200C, 5, 0, 8, 0, 18446744073709551615, 0, false, true⟩,
   ⟨0x61200D, 5, 0, 8, 0, 18446744073709551615, 0, false, true⟩,
   ⟨0x61200E, 5, 0, 8, 0, 18446744073709551615, 0, false, true⟩]

def objs9 : List Obj :=
  [⟨0x613001, 5, 0, 8, 0, 18446744073709551615, 0, false, true⟩,
   ⟨0x613002, 4, 0, 4, 0, 4294967295, 0, false, true⟩,
   ⟨0x613003, 5, 0, 8, 0, 18446744073709551615, 0, false, true⟩,
   ⟨0x613004, 4, 0, 4, 0, 4294967295, 0, false, true⟩,
   ⟨0x614001, 5, 0, 8, 0, 18446744073709551615, 0, false, false⟩,
   ⟨0x614002, 5, 0, 8, 0, 18446744073709551615, 0, false, false⟩,
   ⟨0x614003, 5, 0, 8, 0, 18446744073709551615, 0, false, false⟩,
   ⟨0x615001, 5, 0, 8, 0, 18446744073709551615, 0, false, false⟩,
   ⟨0x615002, 5, 0, 8, 0, 18446744073709551615, 0, false, false⟩,
   ⟨0x615003, 5, 0, 8, 0, 18446744073709551615, 0, false, false⟩,
   ⟨0x615004, 1, 0, 1, 0, 1, 0, false, false⟩,
   ⟨0x615005, 5, 0, 8, 0, 18446744073709551615, 0, false, false⟩,
   ⟨0x615006, 5, 0, 8, 0, 18446744073709551615, 0, false, false⟩,
   ⟨0x615007, 5, 0, 8, 0, 18446744073709551615, 0, false, false⟩,
   ⟨0x615008, 5, 0, 8, 0, 18446744073709551615, 0, false, false⟩,
   ⟨0x616001, 3, 3, 2, 1, 256, 4, false, false⟩]

def objs10 : List Obj :=
  [⟨0xA00001, 5, 4, 8, 0, 18446744073709551615, 0, false, false⟩,
   ⟨0xA00002, 5, 0, 8, 0, 18446744073709551615, 0, false, false⟩,
   ⟨0xA00003, 1, 4, 1, 0, 1, 0, false, false⟩,
   ⟨0xA00004, 2, 0, 1, 0, 255, 0, false, false⟩,
   ⟨0xA00005, 3, 3, 2, 5, 3600, 60, false, false⟩,
   ⟨0xA00006, 4, 4, 4, 0, 4294967295, 0, true, false⟩]

/-- Capacity quotas 0x3040.01 to 0x3040.80 (Table 11-9). -/
def quotas : List Obj := (List.range 128).map fun i =>
  ⟨0x304001 + i, 5, 3, 8, 0, 2 ^ 64 - 1, if i = 0 then 153600000000000 else 0, false, false⟩

/-- Session-region quotas 0x4050.01 to 0x4050.80 (Table 11-9). -/
def regionQuotas : List Obj := (List.range 128).map fun i => ⟨0x405001 + i, 4, 3, 4, 0, 2 ^ 32 - 1, 0, false, false⟩

/-- Tenant key states 0x5040.01 to 0x5040.80 (Table 15-10). -/
def keyStates : List Obj := (List.range 128).map fun i => ⟨0x504001 + i, 2, 0, 1, 0, 255, 0, false, false⟩

/-- Accounting records 0x7000.00 to 0x7000.80 (R247), 128 bytes (Table 10-6). -/
def acctRecords : List Obj := (List.range 129).map fun i => ⟨0x700000 + i, 11, 0, 128, 0, 0, 0, false, false⟩

/-- Every object, ids rising. -/
def all : List Obj := objs0 ++ objs1 ++ objs2 ++ objs3 ++ quotas ++ objs4 ++ regionQuotas ++
  objs5 ++ keyStates ++ objs6 ++ objs7 ++ objs8 ++ objs9 ++ acctRecords ++ objs10

/-- The object of an id. -/
def find (id : Nat) : Option Obj := all.find? (·.id == id)

end Sys2Proof.Dic
end

