-- ==== Sys2Proof/Machine/Ops.lean ====
section
/-! DEFINITION. Shared operations: updates of one unit, free values, counters, dictionary values, the vendor event
log, completions, host writes, accounting, and memory reads and writes under the check code. -/

namespace Sys2Proof.Machine

/-- The answer of a meaning. -/
abbrev Out := Host.Outcome State Fault Refusal

/-! ### Updates of one unit -/

def onCore (s : State) (c : Fin 8) (f : Core → Core) : State := { s with cores := upd s.cores c f }
def onEngine (s : State) (c : Fin 8) (e : Fin 4) (f : Engine → Engine) : State :=
  onCore s c fun k => { k with engines := upd k.engines e f }
def onCluster (s : State) (n : Fin 48) (f : Cluster → Cluster) : State := { s with clusters := upd s.clusters n f }
def onChan (s : State) (n : Fin 48) (f : Channel → Channel) : State := { s with channels := upd s.channels n f }
/-- A record of a kind takes bytes of the write buffer until its durable copy on a channel is written (R317). -/
def addRec (s : State) (n : Fin 48) (kind bytes : Nat) : State := onChan s n fun c => { c with recs := c.recs.upd kind 0 (· + bytes) }
def onCtrl (s : State) (n : Fin 128) (f : Ctrl → Ctrl) : State := { s with ctrls := upd s.ctrls n f }
def onAcct (s : State) (n : Fin 129) (f : Account → Account) : State := { s with accounts := upd s.accounts n f }
def onSess (s : State) (i : Nat) (f : Sess → Sess) : State := { s with sess := s.sess.mod i f }
def onDict (s : State) (f : Dict → Dict) : State := { s with dict := f s.dict }
def onPower (s : State) (f : Power → Power) : State := { s with power := f s.power }
def onHealth (s : State) (f : Health → Health) : State := { s with health := f s.health }
def onCf (s : State) (f : CodeFlash → CodeFlash) : State := { s with cf := f s.cf }
def onFw (s : State) (f : Fw → Fw) : State := { s with fw := f s.fw }

/-- Is firmware activation in progress (R250, R372): from step 1 of R358 until the end of step 6? -/
def activationRuns (s : State) : Bool := s.fw.activating == 3 || s.fw.activating == 6

/-- A number as the index of a unit, where there is such a unit. -/
def finOf? (n i : Nat) : Option (Fin n) := if h : i < n then some ⟨i, h⟩ else none

/-- The account of function `f` (R258). -/
def acctOf (f : Fin 128) : Nat := f.val + 1

/-- An account as an index. -/
def acctIx (a : Nat) : Fin 129 := ⟨a % 129, Nat.mod_lt _ (by decide)⟩

/-- A core as an index. -/
def coreIx (c : Nat) : Fin 8 := ⟨c % 8, Nat.mod_lt _ (by decide)⟩

/-- A channel or cluster as an index. -/
def chIx (c : Nat) : Fin 48 := ⟨c % 48, Nat.mod_lt _ (by decide)⟩

/-! ### Free values, counters, dictionary values -/

/-- A value nothing constrains, and the state with the counter advanced. -/
def fresh (s : State) : Nat × State := (Config.freeNat s.free, { s with free := s.free + 1 })

/-- A dictionary counter raised (U64, saturating: DEDUCED, no rule lets a counter fall). -/
def bump (id n : Nat) (s : State) : State :=
  { s with dict := { s.dict with counters := s.dict.counters.upd id 0 fun v => satAdd 64 v n } }

/-- A dictionary counter. -/
def counter (s : State) (id : Nat) : Nat := s.dict.counters.getD id 0

/-- The value of an RW, RWR or RWC object in force (R391, R395). -/
def dv (s : State) (id : Nat) : Nat :=
  match s.dict.vals.get? id with
  | some v => v
  | none => ((Dic.find id).map (·.dflt)).getD 0

/-- The value of an object that a fetched command uses: that of the epoch at its fetch (R395). -/
def dvFor (s : State) (k : CmdKey) (id : Nat) : Nat :=
  match s.inflight.find? (·.key == k) with
  | some f => (match f.vals.get? id with | some v => v | none => ((Dic.find id).map (·.dflt)).getD 0)
  | none => dv s id

/-- SHARE, C0_CTX, C0_SESS, C0_INFLIGHT of 0x4010.00 and the fields of 0x4010.01 to .04 (Table 10-4). -/
def c0Ctx (s : State) : Nat := fieldOf (dv s 0x401000) 17 8
def c0Sess (s : State) : Nat := fieldOf (dv s 0x401000) 47 32
def c0Inflight (s : State) : Nat := fieldOf (dv s 0x401000) 63 48
def weightOf (s : State) (cls : Nat) : Nat := fieldOf (dv s (0x401000 + cls)) 7 0
def ctxCap (s : State) (cls : Nat) : Nat := fieldOf (dv s (0x401000 + cls)) 17 8
def c0Cores (s : State) : Nat := dv s 0x401004

/-- Does an account hold Class 0 rights (0x5030.01)? -/
def c0Rights (s : State) (acct : Nat) : Bool := bitOf (dv s 0x503001) acct

/-- The sensed limit of the 12V-2x6 connector (Table 19-4), by the code of 0x2170.01. -/
def sensedLimit (code : Nat) : Nat :=
  match code with
  | 0 => 600
  | 1 => 450
  | 2 => 300
  | _ => 150

/-- The effective power cap (R467). -/
def effectiveCap (s : State) : Nat := min (dv s 0x210001) (sensedLimit s.power.senseLatched + 66)

/-! ### Status of a command -/

/-- Status Code Type, Status Code and Do Not Retry. The standard codes carry the values of the NVMe base
specification (PRESUMED, log 14); the vendor codes and their DNR are Table 12-4. -/
structure Code where
  sct : Nat
  sc : Nat
  dnr : Bool
  deriving DecidableEq, Repr, Inhabited

def Code.ok : Code := ⟨0, 0, false⟩
def Code.invalidOpcode : Code := ⟨0, 0x01, true⟩
def Code.invalidField : Code := ⟨0, 0x02, true⟩
def Code.internalError : Code := ⟨0, 0x06, false⟩
def Code.abortRequested : Code := ⟨0, 0x07, false⟩
def Code.sqDeleted : Code := ⟨0, 0x08, false⟩
def Code.invalidNs : Code := ⟨0, 0x0B, true⟩
def Code.sequenceError : Code := ⟨0, 0x0C, true⟩
def Code.sglLength : Code := ⟨0, 0x0F, true⟩
def Code.sanitizeInProgress : Code := ⟨0, 0x1D, false⟩
def Code.writeProtected : Code := ⟨0, 0x20, true⟩
def Code.interrupted : Code := ⟨0, 0x21, false⟩
def Code.lbaRange : Code := ⟨0, 0x80, true⟩
def Code.capacity : Code := ⟨0, 0x81, true⟩
def Code.notReady : Code := ⟨0, 0x82, false⟩
def Code.invalidCq : Code := ⟨1, 0x00, true⟩
def Code.invalidQid : Code := ⟨1, 0x01, true⟩
def Code.invalidQsize : Code := ⟨1, 0x02, true⟩
def Code.abortLimit : Code := ⟨1, 0x03, true⟩
def Code.aerLimit : Code := ⟨1, 0x05, true⟩
def Code.invalidSlot : Code := ⟨1, 0x06, true⟩
def Code.invalidImage : Code := ⟨1, 0x07, true⟩
def Code.invalidVector : Code := ⟨1, 0x08, true⟩
def Code.invalidLogPage : Code := ⟨1, 0x09, true⟩
def Code.invalidFormat : Code := ⟨1, 0x0A, true⟩
def Code.invalidQueueDeletion : Code := ⟨1, 0x0C, true⟩
def Code.overlappingRange : Code := ⟨1, 0x14, true⟩
def Code.nsCapacity : Code := ⟨1, 0x15, true⟩
def Code.nsIdUnavailable : Code := ⟨1, 0x16, true⟩
def Code.nsAlreadyAttached : Code := ⟨1, 0x18, true⟩
def Code.nsPrivate : Code := ⟨1, 0x19, true⟩
def Code.nsNotAttached : Code := ⟨1, 0x1A, true⟩
def Code.selfTestInProgress : Code := ⟨1, 0x1D, true⟩
def Code.activationProhibited : Code := ⟨1, 0x13, true⟩
def Code.writeFault : Code := ⟨2, 0x80, false⟩
def Code.unrecoveredRead : Code := ⟨2, 0x81, false⟩
def Code.compareFailure : Code := ⟨2, 0x85, true⟩
def Code.accessDenied : Code := ⟨2, 0x86, true⟩
def Code.sessionUnknown : Code := ⟨1, 0xC0, true⟩
def Code.sessionBusy : Code := ⟨1, 0xC1, false⟩
def Code.indexGenRetired : Code := ⟨1, 0xC2, true⟩
def Code.tableGenRetired : Code := ⟨1, 0xC3, true⟩
def Code.imageRejected : Code := ⟨1, 0xC4, true⟩
def Code.budgetExhausted : Code := ⟨1, 0xC5, true⟩
def Code.replayMismatch : Code := ⟨1, 0xC6, true⟩
def Code.classReservation : Code := ⟨1, 0xC7, false⟩
def Code.keyLocked : Code := ⟨1, 0xC8, false⟩

/-- A data pointer that describes too few bytes (R287), by its descriptor type: PSDT 0 is PRPs, else SGLs. -/
def Code.shortData (e : Sqe) : Code := if e.psdt = 0 then Code.invalidField else Code.sglLength

/-- Status field value without the phase: SC in [7:0], SCT in [10:8], DNR in [14]. -/
def Code.word (c : Code) : Nat := c.sc + 256 * c.sct + (if c.dnr then 0x4000 else 0)

/-! ### Asynchronous events and the vendor event log -/

/-- Entries of the admin queues, from AQA (PRESUMED, log 14). -/
def asqSize (c : Ctrl) : Nat := max 2 (fieldOf (c.regs.getD 0x24 0) 11 0 + 1)
def acqSize (c : Ctrl) : Nat := max 2 (fieldOf (c.regs.getD 0x24 0) 27 16 + 1)

/-- Interrupt vectors of a function (Table 11-1). -/
def msixVectors (f : Fin 128) : Nat := if f.val = 0 then 2048 else 64

/-- Is a vector masked: bit 0 of its Vector Control, 1 until it is written (PRESUMED, log 14)? -/
def vectorMasked (c : Ctrl) (v : Nat) : Bool := bitOf (c.msix.getD (4 * v + 3) 1) 0

/-- An interrupt of a vector: its message is sent, or waits in the PBA while the vector is masked. -/
def raiseVector (c : Ctrl) (v : Nat) : Ctrl :=
  if vectorMasked c v then { c with pba := if c.pba.contains v then c.pba else c.pba ++ [v] }
  else { c with msiSent := v :: c.msiSent }

/-- A write of a dword of the MSI-X table; a vector that is pending and no longer masked sends its message. -/
def msixWrite (c : Ctrl) (i v : Nat) : Ctrl :=
  let c := { c with msix := c.msix.put i v }
  let n := i / 4
  if c.pba.contains n && !vectorMasked c n then raiseVector { c with pba := c.pba.erase n } n else c

/-- Entries have been written to a completion queue: its interrupt, where it has one. -/
def cqInterrupt (c : Ctrl) (q : Cq) (entries : List Cqe) : Ctrl := if q.ien && entries != [] then raiseVector c q.iv else c

/-- Post a completion entry to a controller's queue; it waits while the completion queue is full (R264). The answer
says whether the entry was written. -/
def postTo (c : Ctrl) (e : Cqe) : Ctrl × Bool :=
  if e.sqid = 0 then
    if c.acqPosted.length + 1 < acqSize c ∧ c.acqWaiting = [] then
      (raiseVector { c with acqPosted := c.acqPosted ++ [e] } 0, true)
    else ({ c with acqWaiting := c.acqWaiting ++ [e] }, false)
  else
    match c.sqs.get? e.sqid with
    | none => (c, true)
    | some q =>
      match c.cqs.get? q.cqid with
      | none => (c, true)
      | some cq =>
        if cq.posted.length + 1 < cq.size ∧ cq.waiting = [] then
          (cqInterrupt { c with cqs := c.cqs.put q.cqid { cq with posted := cq.posted ++ [e] } } cq [e], true)
        else ({ c with cqs := c.cqs.put q.cqid { cq with waiting := cq.waiting ++ [e] } }, false)

/-- An asynchronous event to a controller (R284): it completes an outstanding request, or waits for one. -/
def notice (s : State) (fn : Fin 128) (w : Nat) : State :=
  let c := s.ctrls[fn]
  if !c.enabled then s
  else match c.aers with
    | cid :: t =>
      match postTo { c with aers := t } { cid := cid, dw0 := BitVec.ofNat 32 w } with
      | (x, written) =>
        let k : CmdKey := ⟨fn, 0, cid⟩
        let left := if written then s.inflight.filter (·.key != k) else s.inflight
        onCtrl { s with inflight := left } fn fun _ => x
    | [] =>
      onCtrl s fn fun c =>
        if c.events.contains (BitVec.ofNat 32 w) then c else { c with events := c.events ++ [BitVec.ofNat 32 w] }

/-- Words of completion DW0 of the events of R284: the vendor notice of R447 is type 0x7, information 0x01, log page
0xC0; the others carry the values of the NVMe base specification (PRESUMED, log 14). -/
def vendorNotice : Nat := 0x00C00107
def nsChangedNotice : Nat := 0x00040002
def fwStartingNotice : Nat := 0x00030102
def smartNotice (info : Nat) : Nat := 0x00020001 + 256 * info

/-- An event to every controller. -/
def noticeAll (s : State) (w : Nat) : State :=
  (List.finRange 128).foldl (fun a f => notice a f w) s

/-- FCLASS of an event code (Table 18-4). -/
def fclassOf (code : Nat) : Nat :=
  if code ≤ 0x0007 then 1
  else if code ≤ 0x000C then 4
  else if code ≤ 0x001F then 2
  else if code = 0x0020 then 4
  else 3

/-- Who an event concerns. -/
structure Who where
  account : Nat := 0
  sqid : Nat := 0xFFFF
  cid : Nat := 0xFFFF
  session : Nat := 0xFFFFFFFF
  deriving DecidableEq, Repr, Inhabited

/-- The command as the subject of an event. -/
def whoOf (k : CmdKey) : Who := { account := acctOf k.fn, sqid := k.sqid, cid := k.cid }

/-- SMART critical warning bit 2 comes with the first of these events (R453). -/
def setsBit2 (code : Nat) : Bool :=
  code == 0x11 || code == 0x13 || code == 0x14 || code == 0x15 || code == 0x16

/-- Kinds of records in the write buffer (R317): mapping journal, sessions' own, events. -/
def recJournal : Nat := 1
def recSession : Nat := 2
def recEvent : Nat := 3

/-- Record an event in the vendor event log (R444, R445) and raise its notice (R447). -/
def logEvent (s : State) (die code : Nat) (w : Who) (detail : Bytes) : State :=
  let h := s.health
  let dseq := h.dieSeqs.getD die 0 + 1
  let e : Evt := { seq := h.nextSeq, timestamp := h.timestamp, dieSeq := dseq, die := die, fclass := fclassOf code
                   code := code, account := w.account, sqid := w.sqid, cid := w.cid, session := w.session
                   detail := Bytes.sub detail 0 28 }
  let (kept, lost) := if h.events.length < 16384 then (h.events, none) else (h.events.drop 1, h.events.head?)
  let fresh2 := setsBit2 code && !h.bit2
  let s := addRec s 0 recEvent 64
  let s := { s with health := { h with
    events := kept ++ [e], nextSeq := h.nextSeq + 1, dieSeqs := h.dieSeqs.put die dseq
    overwritten := h.overwritten + (if lost.isSome then 1 else 0)
    overwrittenBy := match lost with
      | some o => h.overwrittenBy.upd o.account 0 (· + 1)
      | none => h.overwrittenBy
    bit2 := h.bit2 || setsBit2 code } }
  let s := if fresh2 then noticeAll s (smartNotice 0) else s
  match finOf? 128 (w.account - 1) with
  | some f => if w.account ≠ 0 then notice s f vendorNotice
      else if fclassOf code = 2 ∨ fclassOf code = 3 then notice s 0 vendorNotice else s
  | none => s

/-- DIE codes of Table 18-3. -/
def dieOfCore (c : Fin 8) : Nat := c.val / 4
def dieOfCh (n : Nat) : Nat := 0x10 + n / 2
def dieTrunk : Nat := 0x30
def diePilot : Nat := 0x31

/-! ### Accounting records (Table 10-6), fields by offset / 8 -/

def fMe : Nat := 0
def fVec : Nat := 1
def fLamp : Nat := 2
def fFlashRd : Nat := 3
def fFlashWr : Nat := 4
def fPoolRd : Nat := 5
def fPoolWr : Nat := 6
def fLink : Nat := 7
def fHost : Nat := 8
def fEnergy : Nat := 9
def fOverrun : Nat := 10
def fReplayed : Nat := 11
def fC0Outside : Nat := 12
def fC0Late : Nat := 13

/-- Add to a field of an account's record and, where the work names a session, of the session's record (R247). -/
def charge (s : State) (acct : Nat) (sess : Option Nat) (field n : Nat) : State :=
  let s := onAcct s (acctIx acct) fun a => { a with acct := a.acct.upd field 0 fun v => satAdd 64 v n }
  match sess with
  | some i => onSess s i fun k => { k with acct := k.acct.upd field 0 fun v => satAdd 64 v n }
  | none => s

/-- Bytes that a root link carries (Table 10-6). -/
def chargeLink (s : State) (acct : Nat) (sess : Option Nat) (n : Nat) : State := charge s acct sess fLink n

/-- Bytes read from NAND that a root link carries to the trunk. -/
def chargeFlash (s : State) (acct : Nat) (sess : Option Nat) (n : Nat) : State :=
  chargeLink (charge s acct sess fFlashRd n) acct sess n

/-- Pool bytes that a lamp cluster reads or writes: a root link carries them. -/
def chargePool (s : State) (acct field n : Nat) : State := chargeLink (charge s acct none field n) acct none n

/-- The 128 bytes of a record. -/
def acctBytes (t : Tab Nat) : Bytes := (List.range 16).flatMap fun i => toLe 8 (t.getD i 0)

/-! ### Completions -/

/-- The fetched command of a key. -/
def flightOf (s : State) (k : CmdKey) : Option InFlight := s.inflight.find? (·.key == k)

/-- A command in flight and its session as the subject of an event (Table 18-3). -/
def whoIn (s : State) (k : CmdKey) : Who :=
  { whoOf k with session := ((flightOf s k).bind (·.session)).getD 0xFFFFFFFF }

/-- Has a command ended, with its completion held back by a full completion queue (R264)? -/
def completionWaits (s : State) (k : CmdKey) : Bool :=
  let c := s.ctrls[k.fn]
  let held := c.acqWaiting ++ c.cqs.flatMap fun p => p.2.waiting
  held.any fun e => e.sqid == k.sqid && e.cid == k.cid

/-- A session's INFLIGHT falls when a command that counts in it ends (R230). -/
def leaveSession (s : State) (k : CmdKey) : State :=
  match (flightOf s k).bind (·.session) with
  | some i => onSess s i fun x => { x with inflight := x.inflight - 1 }
  | none => s

/-- Drop a command from the tables of commands in flight. -/
def dropFlight (s : State) (k : CmdKey) : State :=
  let s := leaveSession s k
  { s with inflight := s.inflight.filter (·.key != k) }

/-- End a command in flight: its completion entry is posted or waits, and its slot frees when the entry is written
(R264). Partial records still kept for it are dropped. -/
def complete (s : State) (k : CmdKey) (c : Code) (dw0 dw1 : Nat) : State :=
  if (flightOf s k).isNone || completionWaits s k then s
  else
  let s := { s with merges := s.merges.filter fun m => m.1 != k }
  let e : Cqe := { sqid := k.sqid, cid := k.cid, sct := BitVec.ofNat 3 c.sct, sc := BitVec.ofNat 8 c.sc, dnr := c.dnr
                   dw0 := BitVec.ofNat 32 dw0, dw1 := BitVec.ofNat 32 dw1 }
  let (x, written) := postTo s.ctrls[k.fn] e
  let s := onCtrl s k.fn fun _ => x
  if written then dropFlight s k else leaveSession s k

/-- Add an Error Information entry, newest first, at most 256 (R283). -/
def logErr (s : State) (k : CmdKey) (c : Code) (nsid lba : Nat) : State :=
  onCtrl s k.fn fun x =>
    let n := ((x.errors.head?).map (·.n)).getD 0 + 1
    { x with errors := ({ sqid := k.sqid, cid := k.cid, status := c.word, lba := lba, nsid := nsid, n := n } :: x.errors).take 256 }

/-- End a command with an error: DW0 and DW1 zero (R289). -/
def fail (s : State) (k : CmdKey) (c : Code) (nsid : Nat := 0) (lba : Nat := 0) : State :=
  complete (logErr s k c nsid lba) k c 0 0

/-- End a command with an error that states DW0 (Table 12-4). -/
def failDw0 (s : State) (k : CmdKey) (c : Code) (dw0 : Nat) : State := complete (logErr s k c 0 0) k c dw0 0

/-- Write bytes to a command's host buffer (R288). -/
def hostWrite (s : State) (k : CmdKey) (off : Nat) (b : Bytes) : State :=
  if b = [] then s
  else
    let s := { s with hostWrites := { cmd := k, offset := off, bytes := b } :: s.hostWrites }
    charge s (acctOf k.fn) ((flightOf s k).bind (·.session)) fHost b.length

/-! ### Serving a command -/

/-- May commands of a function be fetched now? A controller that is not ready, is in D3hot or belongs to a module in
the failed state fetches nothing (R257, R422, R443); nor is anything fetched in step 6 of an activation (R358), or for
an account that waits for a tag (R224). -/
def serving (s : State) (fn : Fin 128) : Bool :=
  let c := s.ctrls[fn]
  c.enabled && c.ccEn && c.csts && !c.d3hot && !s.health.failed && s.power.linkUp && s.power.mod == .running
    && s.power.phase == .ready && !s.power.holdup && !s.power.shutdown
    && s.fw.activating != 6 && !s.accounts[acctIx (acctOf fn)].bindWait

/-- Does the submission queue of a command exist? -/
def queueThere (s : State) (k : CmdKey) : Bool := k.sqid == 0 || s.ctrls[k.fn].sqs.has k.sqid

/-- Class of a queue's commands (R262): admin commands run in Class 1. -/
def queueClass (s : State) (k : CmdKey) : Nat :=
  if k.sqid = 0 then 1 else ((s.ctrls[k.fn].sqs.get? k.sqid).map (·.prio.toNat)).getD 1

/-- Class of a command: its session's where it names one (R235). -/
def classOf (s : State) (k : CmdKey) (sess : Option Nat) : Nat :=
  match sess with
  | some i => ((s.sess.get? i).map (·.cls.toNat)).getD (queueClass s k)
  | none => queueClass s k

/-- Is a command slot free for a fetch from a queue of a class (R264, R265)? -/
def slotFree (s : State) (fn : Fin 128) (cls : Nat) : Bool :=
  let mine := (s.inflight.filter fun f => f.key.fn == fn).length
  let other := (s.inflight.filter fun f => f.qcls != 0).length
  decide (mine < dv s 0x106004) && decide (s.inflight.length < 131072)
    && (cls == 0 || decide (other < 131072 - c0Inflight s))

/-- The head of a submission queue moves past the entry that is fetched. -/
def advanceHead (s : State) (fn : Fin 128) (sqid : Nat) : State :=
  onCtrl s fn fun c =>
    if sqid = 0 then { c with asqHead := if c.asqHead = c.asqTail then c.asqHead else (c.asqHead + 1) % asqSize c }
    else { c with sqs := c.sqs.mod sqid fun q =>
      if q.head = q.tail ∨ q.size = 0 then q else { q with head := (q.head + 1) % q.size } }

/-- Has a submission queue no entry left to fetch? -/
def queueEmpty (c : Ctrl) (sqid : Nat) : Bool :=
  if sqid = 0 then c.asqHead == c.asqTail else ((c.sqs.get? sqid).map fun q => q.head == q.tail).getD true

def opSearch : Nat := 0x87
def opGather : Nat := 0x8B

/-! ### Retained generations (R142, R148, R178) -/

/-- Is a generation of an index pinned: by a query, or by a SEARCH that was fetched and has not begun? -/
def pinnedGen (s : State) (i g : Nat) : Bool :=
  ((s.queries ++ s.queryWait).any fun q => q.index == i && q.gen == g) || s.inflight.any fun f => (f.gens.getD i []).contains g

/-- Is a generation of an index retained? Generation 0 is current until the first commit; one that was freed is not retained
again. -/
def retainedGen (s : State) (i : Nat) (x : Index) (g : Nat) : Bool :=
  g == x.cur || (x.gens.has g && ((decide (g ≤ x.cur) && decide (x.cur < g + dv s 0x421001)) || pinnedGen s i g))

/-- Is a generation of a table pinned by a GATHER? -/
def pinnedTab (s : State) (i g : Nat) : Bool := s.inflight.any fun f => (f.tabGens.getD i []).contains g

/-- Is a generation of a table retained? -/
def retainedTab (s : State) (i : Nat) (t : Table) (g : Nat) : Bool :=
  g == t.cur || (t.kept.contains g && ((decide (g ≤ t.cur) && decide (t.cur < g + dv s 0x422001)) || pinnedTab s i g))

/-- Generations that a command which takes its slot may pin, by index or table: the current one, then the others retained. -/
def indexGens (s : State) : Tab (List Nat) :=
  s.indexes.mapVals fun i x => x.cur :: (x.gens.map (·.1)).filter fun g => g != x.cur && retainedGen s i x g
def tableGens (s : State) : Tab (List Nat) :=
  s.tables.mapVals fun i t => t.cur :: t.kept.filter fun g => g != t.cur && retainedTab s i t g

/-- The account's flight session: its lowest-numbered open FLIGHT session (R454), and its seed (R195). -/
def flightSession (s : State) (acct : Nat) : Option Nat :=
  (s.sess.find? fun p => p.2.account == acct && p.2.flight && p.2.state != 0).map (·.1)
def flightSeed (s : State) (acct : Nat) : W64 := (((flightSession s acct).bind s.sess.get?).map (·.seed)).getD 0

/-- Take a command slot at the fetch of an entry (R264), with what is fixed at that moment: the epoch (R395), the seed (R195),
the generations a SEARCH or GATHER may pin (R148, R178). `kind` is the opcode, plus
256 for a Subsystem Local Memory command and 512 for one of Computational Programs. Recorded aborts that an emptied queue
held for no entry are forgotten. -/
def takeSlot (s : State) (k : CmdKey) (kind nsid : Nat) : State :=
  let f : InFlight := { key := k, opc := BitVec.ofNat 8 kind, kind := kind, admin := k.sqid == 0, cls := queueClass s k
                        qcls := queueClass s k, nsid := nsid, epoch := s.dict.epoch, ts := s.health.timestamp
                        seed := flightSeed s (acctOf k.fn), gens := if kind = opSearch then indexGens s else []
                        tabGens := if kind = opGather then tableGens s else [], vals := s.dict.vals }
  onCtrl (advanceHead { s with inflight := s.inflight ++ [f] } k.fn k.sqid) k.fn fun c =>
    if queueEmpty c k.sqid then { c with abortRecs := c.abortRecs.filter fun r => r.1 != k.sqid || r == (k.sqid, k.cid) } else c

/-- An entry is fetched. A command that COMMAND_FETCH took already keeps its slot. -/
def begin_ (s : State) (e : Sqe) (kind : Nat) : State :=
  let s := charge s (acctOf e.fn) none fHost e.inp.length
  match flightOf s e.key with
  | some _ => { s with inflight := s.inflight.map fun f => if f.key == e.key then { f with kind := kind } else f }
  | none => takeSlot s e.key kind e.nsid

/-- LAST_USE of a session, at the fetch of a command of it (R228). -/
def useSession (s : State) (i : Nat) : State := onSess s i fun x => { x with lastUse := s.health.timestamp }

/-- Change the record of a command in flight. -/
def onFlight (s : State) (k : CmdKey) (f : InFlight → InFlight) : State :=
  { s with inflight := s.inflight.map fun x => if x.key == k then f x else x }

/-- A condition of a command's row of Table 10-7 does not hold (R253). -/
def markOutside (s : State) (k : CmdKey) : State := onFlight s k fun x => { x with outside := true }
def wasOutside (s : State) (k : CmdKey) : Bool := ((flightOf s k).map (·.outside)).getD false

/-- A command takes the class of a session it names (R235); its INFLIGHT does not count it. -/
def takeClass (s : State) (k : CmdKey) (i : Nat) : State :=
  onFlight (useSession s i) k fun x => { x with cls := classOf s k (some i) }

/-- Count a command in flight in a session's INFLIGHT (R230). -/
def joinSession (s : State) (k : CmdKey) (i : Nat) : State :=
  match flightOf s k with
  | none => s
  | some f =>
    if f.session = some i then s
    else onSess (onFlight (useSession s i) k fun x => { x with session := some i }) i fun x => { x with inflight := x.inflight + 1 }

/-- The view of a session that a command takes at its fetch (R120). -/
def takeView (s : State) (k : CmdKey) (i : Nat) : State :=
  onFlight s k fun x => { x with view := x.view.or ((s.sess.get? i).map (·.layerTbl)) }

/-- Name the session of a command in flight: its class, its view, its INFLIGHT. -/
def nameSession (s : State) (k : CmdKey) (i : Nat) : State := joinSession (takeClass (takeView s k i) k i) k i

/-- Is the entry's fetch to end as a recorded abort (R281)? -/
def recordedAbort (s : State) (k : CmdKey) : Bool := s.ctrls[k.fn].abortRecs.contains (k.sqid, k.cid)

/-- Forget a recorded abort. -/
def clearAbort (s : State) (k : CmdKey) : State :=
  onCtrl s k.fn fun c => { c with abortRecs := c.abortRecs.filter (· != (k.sqid, k.cid)) }

/-- Admin commands that NVMe allows during a sanitize (R385; PRESUMED, log 14): queue creation and deletion, Get Log
Page, Identify, Abort, Set and Get Features, Asynchronous Event Request. -/
def sanitizeAllows : List Nat := [0x00, 0x01, 0x02, 0x04, 0x05, 0x06, 0x08, 0x09, 0x0A, 0x0C]

/-- The frame of every NVMe row: an entry of a queue that is served is fetched and runs its body; a recorded abort
ends it; an entry of a queue that is not served, or that finds no command slot free, stays where it is. `admin` says which queue the row belongs on; a
command of the wrong queue kind is an invalid opcode there (R259, R291 step 1); the reserved PSDT is an invalid field. -/
def nvme (s : State) (e : Sqe) (opc : Nat) (admin : Bool) (body : State → State) : State :=
  if !(serving s e.fn && queueThere s e.key && ((flightOf s e.key).isSome || slotFree s e.fn (queueClass s e.key))) then s
  else
    let s := begin_ s e opc
    if recordedAbort s e.key then complete (clearAbort s e.key) e.key Code.abortRequested 0 0
    else if admin != (e.sqid == 0) then fail s e.key Code.invalidOpcode e.nsid
    else if e.psdt = 3 then fail s e.key Code.invalidField e.nsid
    else if s.sanitizing && !(admin && sanitizeAllows.contains opc) then fail s e.key Code.sanitizeInProgress
    else body s

/-- End an NVMe body: the state and how it ended. -/
def ended (k : CmdKey) (r : State × Code × Nat × Nat) : State :=
  let (s, c, dw0, dw1) := r
  if c = Code.ok then complete s k c dw0 dw1 else complete (logErr s k c 0 0) k c dw0 dw1

/-! ### Keys and accounts -/

/-- Is the account's tenant key available (R377, R378)? A key that is LOCKED, being locked, or dropped in a TDI's ERROR
ends a command that needs it (0xC8). -/
def keyOpen (s : State) (acct : Nat) : Bool :=
  let a := s.accounts[acctIx acct]
  a.opened && !a.locking && a.tdi != .error

/-- The tag of an account's accesses (R210, R211); the system account is firmware. -/
def tagOf (s : State) (acct : Nat) : Nat := if acct = 0 then 1 else s.accounts[acctIx acct].tag.toNat

/-! ### Memory: where each tier lies in `mem` and `chk` (DESIGN CHOICE, log 15) -/

def poolBytes : Nat := 448 * 2 ^ 30
def scratchBytes : Nat := 24 * 2 ^ 20
def storeBytes : Nat := 64 * 2 ^ 20
def opMemBytes : Nat := 256 * 2 ^ 10
def tileBytes : Nat := 65536
def scratchBase (c : Nat) : Nat := 2 ^ 40 + c * 2 ^ 25
def storeBase (d : Nat) : Nat := 2 ^ 41 + d * 2 ^ 26
def opMemBase (c e : Nat) : Nat := 2 ^ 42 + (4 * c + e) * 2 ^ 18
/-- LOCAL of a slot of a cluster's context store (528 slots with the spares), and a slot of kernel memory: one copy stands for
the same words in every cluster. -/
def ctxStore : Nat := 2 ^ 42 + 2 ^ 30
def ctxStoreBytes : Nat := 528 * 1024
def localAt (ch slot : Nat) : Nat := ctxStore + ch * ctxStoreBytes + slot * 1024
def kernelStore : Nat := 2 ^ 42 + 2 ^ 31
def kernelAt (k : Nat) : Nat := kernelStore + k * 16384

/-- Where firmware's copies of stored data lie in the pool, beyond the addresses that programs have (DESIGN CHOICE, log 15: the
spec does not place them): a session's index and summary pages (R113), an index's codes and codebook (R139), a table's rows
(R173). -/
def sessCopies (i : Nat) : Nat := 2 ^ 48 + i * 2 ^ 46
def indexCopies (i : Nat) : Nat := 2 ^ 64 + i * 2 ^ 46
def tableCopies (i : Nat) : Nat := 2 ^ 200 + i * 2 ^ 120

/-- Is the address in the pool? -/
def isPool (a : Nat) : Bool := decide (a < 2 ^ 40) || decide (2 ^ 43 ≤ a)

/-- Tier code of event 0x0002: 0 scratch, 1 tile store, 2 pool, 3 other SRAM. -/
def tierOf (a : Nat) : Nat := if isPool a then 2 else if a < 2 ^ 41 then 0 else if a < 2 ^ 42 then 1 else 3

/-- The address as event 0x0002 gives it, relative to its tier. -/
def tierAddr (a : Nat) : Nat :=
  if isPool a then a else if a < 2 ^ 41 then (a - 2 ^ 40) % 2 ^ 25 else if a < 2 ^ 42 then (a - 2 ^ 41) % 2 ^ 26
  else if a < ctxStore then (a - 2 ^ 42) % 2 ^ 18 else if a < kernelStore then (a - ctxStore) % ctxStoreBytes else a - kernelStore

/-- Die that holds an address. -/
def dieAt (a : Nat) : Nat :=
  if isPool a then dieTrunk else if a < 2 ^ 41 then (a - 2 ^ 40) / 2 ^ 25 / 4
  else if a < 2 ^ 42 then (a - 2 ^ 41) / 2 ^ 26 else if a < ctxStore then (a - 2 ^ 42) / 2 ^ 18 / 16
  else if a < kernelStore then dieOfCh ((a - ctxStore) / ctxStoreBytes) else dieOfCh 0

/-- Word address of a byte. -/
def wordAt (a : Nat) : Nat := a / 32 * 32

/-- The stored data and check bytes of the word at a word address. -/
def rawWord (s : State) (a : Nat) : Bytes × Bytes := (s.mem.gets 0 a 32, s.chk.gets 0 (a / 8) 4)

/-- Store a word's data and check bytes. -/
def storeRaw (s : State) (a : Nat) (data chk : Bytes) : State :=
  { s with mem := s.mem.puts 0 a data, chk := s.chk.puts 0 (a / 8) chk }

/-- Write a whole word under a tag (R214). -/
def writeWord (s : State) (a : Nat) (data : Bytes) (tag : Nat) : State :=
  storeRaw s a data (Check.encode data tag)

/-- Row of a pool address, and the controller that serves a row (DESIGN CHOICE, log 15: the spec does not say how the
pool is spread over its controllers). -/
def poolRow (a : Nat) : Nat := a / 4096
def rowCtrl (r : Nat) : Fin 16 := ⟨r % 16, Nat.mod_lt _ (by decide)⟩

def rowLimit : Nat := 131072

/-- A row at its threshold, or with an UNCORRECTABLE word: it is relocated, or, at its controller's limit, withdrawn
(R225, R452). -/
def relocateRow (s : State) (r : Nat) : State :=
  let p := s.repair
  let k := rowCtrl r
  if p.relocated.contains r ∨ p.withdrawn.contains r then s
  else if p.relocCount[k] < rowLimit then
    let p := { p with relocated := r :: p.relocated, relocCount := upd p.relocCount k (· + 1) }
    bump 0x609102 1 { s with repair := p }
  else
    let s := { s with repair := { p with withdrawn := r :: p.withdrawn } }
    logEvent s dieTrunk 0x0016 {} (toLe 1 k.val ++ toLe 4 r)

/-- Has a row reached the threshold of corrected errors in one pass (0x6091.01)? -/
def rowWorn (s : State) (r : Nat) : Bool := decide (dv s 0x609101 ≤ s.repair.rowErrs.getD r 0) && s.repair.rowErrs.has r

/-- A corrected symbol counts in its pool row; the one that reaches the threshold has the row relocated (R225). -/
def countFixed (s : State) (a : Nat) : State :=
  if isPool a then
    let s := { s with repair := { s.repair with rowErrs := s.repair.rowErrs.upd (poolRow a) 0 (· + 1) } }
    bump 0x609002 1 (if rowWorn s (poolRow a) then relocateRow s (poolRow a) else s)
  else bump 0x609001 1 s

/-- The account of a program that replays on a core. -/
def replayAccount (k : Core) : Nat :=
  (([k.bankA, k.bankB].filterMap (·.prog)).find? (·.replay.isSome)).elim 0 (·.account)

/-- The account that owns the word at an address, 0 for the system account: by the grant of its pool range or tile, the context
whose LOCAL it is in, the session, index or table that a copy in the pool belongs to. -/
def ownerAt (s : State) (a : Nat) : Nat :=
  if a < 2 ^ 40 then (s.poolGrants.find? fun g => decide (g.2.1 ≤ a) && decide (a < g.2.1 + g.2.2)).elim 0 (·.1)
  else if a < ctxStore then (s.tileDir.get? (a / tileBytes)).elim 0 fun e => if e.granted then e.account.toNat else 0
  else if a < kernelStore then
    let ctxs : Tab Ctx := s.clusters[chIx ((a - ctxStore) / ctxStoreBytes % 48)].ctxs
    (ctxs.find? fun p => decide (p.2.base ≤ a) && decide (a < p.2.base + 1024)).elim 0 fun p => p.2.account.toNat
  else if a < 2 ^ 43 then 0
  else if a < 2 ^ 48 then replayAccount (s.cores.toList.getD ((a - 2 ^ 43) / 2 ^ 40) {})
  else if a < 2 ^ 64 then (s.sess.get? ((a - 2 ^ 48) / 2 ^ 46)).elim 0 (·.account)
  else if a < 2 ^ 200 then (s.indexes.get? ((a - 2 ^ 64) / 2 ^ 46)).elim 0 (·.account)
  else (s.tables.get? ((a - 2 ^ 200) / 2 ^ 120)).elim 0 (·.account)

/-- An UNCORRECTABLE word is event 0x0002 (R213) of the account that owns it; its pool row is relocated (R225). -/
def countLost (s : State) (a : Nat) : State :=
  let s := logEvent (bump 0x609003 1 s) (dieAt a) 0x0002 { account := ownerAt s a } (toLe 1 (tierOf a) ++ toLe 8 (tierAddr a))
  if isPool a then relocateRow s (poolRow a) else s

/-- Count a decode outcome (Table 9-9). -/
def countOutcome (s : State) (a : Nat) : Check.Outcome → State
  | .clean _ => s
  | .corrected _ _ => countFixed s a
  | .unwritten => bump 0x609004 1 s
  | .foreign => bump 0x609005 1 s
  | .uncorrectable => countLost s a

/-- Read a word under a tag (R208); a corrected word is rewritten. -/
def readWord (s : State) (a tag : Nat) : State × Check.Outcome :=
  let (d, c) := rawWord s a
  let o := Check.decode d c tag
  let s := countOutcome s a o
  match o with
  | .corrected d' c' => (storeRaw s a d' c', o)
  | _ => (s, o)

/-- Does a word lie in memory granted to the system account (R222)? -/
def systemWord (s : State) (a : Nat) : Bool :=
  if isPool a then s.poolGrants.any fun g => g.1 == 0 && decide (g.2.1 ≤ a) && decide (a + 32 ≤ g.2.1 + g.2.2)
  else ((s.tileDir.get? (a / tileBytes)).map fun e => e.granted && e.account == 0).getD false

/-- The test register that acts on a firmware access to a word: with test mode on at the last commit, in memory granted to the
system account, that of the word's pool controller or canopy die (R222). -/
def testReg (s : State) (a : Nat) : Option W64 :=
  if dv s 0x609008 ≠ 1 ∨ !systemWord s a then none
  else if isPool a then some s.repair.tdTest[rowCtrl (poolRow a)]
  else (finOf? 2 (dieAt a)).map fun d => s.repair.cdTest[d]

/-- A whole-word write by firmware; MODE of the register that acts says what is written (Table 9-8). -/
def fwWrite (s : State) (a : Nat) (data : Bytes) (tag : Nat) : State :=
  match testReg s a with
  | none => writeWord s a data tag
  | some v =>
    let (d, k) := rawWord s a
    let chk := toLe 4 (fieldOf v.toNat 63 32)
    match fieldOf v.toNat 1 0 with
    | 0 => writeWord s a data (fieldOf v.toNat 31 16)
    | 1 => storeRaw s a data k
    | 2 => storeRaw s a d chk
    | _ => storeRaw s a data chk

/-- A read of a word by firmware; TAG of the register that acts is the reader's, and with NOCORR nothing is corrected or
rewritten (Table 9-8). -/
def fwRead (s : State) (a tag : Nat) : State × Check.Outcome :=
  match testReg s a with
  | none => readWord s a tag
  | some v =>
    let t := fieldOf v.toNat 31 16
    if bitOf v.toNat 2 then
      let (d, k) := rawWord s a
      let o := Check.decode d k t
      (countOutcome s a o, o)
    else readWord s a t

/-- Go on after a word that was read, or stop at one that returns no data. -/
def readStep (p : State × Check.Outcome) (k : State → State × Except Check.Outcome Bytes) : State × Except Check.Outcome Bytes :=
  match p.2.data? with
  | none => (p.1, .error p.2)
  | some d =>
    match k p.1 with
    | (s, .ok r) => (s, .ok (d ++ r))
    | (s, .error e) => (s, .error e)

/-- Read `n` words from a word address on, stopping at the first that returns no data. -/
def readWords (s : State) (a tag : Nat) : Nat → State × Except Check.Outcome Bytes
  | 0 => (s, .ok [])
  | n + 1 => readStep (readWord s a tag) fun s => readWords s (a + 32) tag n

/-- Read a run of bytes under a tag. -/
def readMem (s : State) (a n tag : Nat) : State × Except Check.Outcome Bytes :=
  if n = 0 then (s, .ok [])
  else
    let w := wordAt a
    match readWords s w tag ((a + n - 1) / 32 + 1 - a / 32) with
    | (s, .ok b) => (s, .ok (Bytes.sub b (a - w) n))
    | (s, .error e) => (s, .error e)

/-- Merge bytes into a word at an offset. -/
def mergeBytes (w : Bytes) (off : Nat) (b : Bytes) : Bytes := w.take off ++ b ++ w.drop (off + b.length)

/-- A narrow write of bytes that lie in one word (R214); refused when the word does not decode. -/
def writeNarrow (s : State) (a : Nat) (b : Bytes) (tag : Nat) : State × Option Check.Outcome :=
  let w := wordAt a
  let (s, o) := readWord s w tag
  match o.data? with
  | some d => (writeWord s w (mergeBytes d (a - w) b) tag, none)
  | none => (bump 0x609006 1 s, some o)

/-- Write bytes that lie in one word: a whole word whole, else as a narrow write (R214). -/
def writePart (s : State) (a : Nat) (b : Bytes) (tag : Nat) : State × Option Check.Outcome :=
  if a % 32 = 0 ∧ b.length = 32 then (writeWord s a b tag, none) else writeNarrow s a b tag

/-- Go on after a write, or stop at one that was refused. -/
def writeStep (p : State × Option Check.Outcome) (k : State → State × Option Check.Outcome) : State × Option Check.Outcome :=
  match p.2 with
  | none => k p.1
  | some o => (p.1, some o)

/-- Write a run of bytes word by word. Fuel: the number of words touched. The answer is the outcome of the first narrow
write that was refused. -/
def writeMemFrom (s : State) (a : Nat) (b : Bytes) (tag : Nat) : Nat → State × Option Check.Outcome
  | 0 => (s, none)
  | n + 1 =>
    if b = [] then (s, none)
    else writeStep (writePart s a (b.take (32 - a % 32)) tag) fun s =>
      writeMemFrom s (a + (32 - a % 32)) (b.drop (32 - a % 32)) tag n

/-- Write a run of bytes under a tag. -/
def writeMem (s : State) (a : Nat) (b : Bytes) (tag : Nat) : State × Option Check.Outcome :=
  writeMemFrom s a b tag (b.length / 32 + 2)

/-- Read words one after another, whatever comes of each (R208). -/
def checkWords (s : State) (a n tag : Nat) : State :=
  (List.range (n / 32)).foldl (fun s k => (readWord s (wordAt a + 32 * k) tag).1) s

/-- The same by firmware (R222). -/
def fwCheck (s : State) (a n tag : Nat) : State :=
  (List.range (n / 32)).foldl (fun s k => (fwRead s (wordAt a + 32 * k) tag).1) s

/-! ### Data tiles (R217, R218) and their records (R220, R221) -/

/-- Physical number of the data tile that holds an address. -/
def tileNo (a : Nat) : Nat := a / tileBytes

def tdInvalid : BitVec 2 := 0
def tdClean : BitVec 2 := 1
def tdDirty : BitVec 2 := 2
def tdPending : BitVec 2 := 3

/-- The directory entry of a data tile of scratch or tile store. -/
def dirOf (s : State) (t : Nat) : TileDirE := s.tileDir.getD t {}

/-- Change a directory entry. -/
def onDir (s : State) (t : Nat) (f : TileDirE → TileDirE) : State := { s with tileDir := s.tileDir.upd t {} f }

/-- Set STATE of a data tile. -/
def setDir (s : State) (t : Nat) (st : BitVec 2) : State := onDir s t fun e => { e with state := st }

/-- The max-abs record of a tile. -/
def recOf (s : State) (t : Nat) : MaxAbs := s.maxRec.getD t {}

/-- Set STALE in a tile's record (R221). -/
def setStale (s : State) (t : Nat) : State := { s with maxRec := s.maxRec.upd t {} fun r => { r with stale := true } }

/-- A tile resident for R58 and R86 (R217). -/
def resident (s : State) (t : Nat) : Bool :=
  let e := dirOf s t
  (e.state == tdClean || e.state == tdDirty) && !(recOf s t).stale

/-- Does a data tile lie in scratch or a tile store? -/
def isDataTile (t : Nat) : Bool := decide (2 ^ 24 ≤ t) && decide (t < 2 ^ 26)

/-- A write into a data tile by the control processor, a vector store or LOCAL_TILE makes it DIRTY (Table 9-6); the
record is stale (R221). In the pool the header is stale. -/
def touchTile (s : State) (a : Nat) : State :=
  let t := tileNo a
  let s := if isDataTile t then setDir s t tdDirty else s
  setStale s t

/-- A data tile is used: what least recent use goes by (R241). -/
def useTile (s : State) (t : Nat) : State :=
  if isDataTile t then onDir { s with useCount := s.useCount + 1 } t fun e => { e with used := s.useCount } else s

/-- Copy 64 KiB of words with their check bytes (a copy changes no word's owner, R211). -/
def copyRaw (s : State) (src dst : Nat) : State :=
  let put (m : Mem) (c : Host.Cell) (base : Nat) : Mem := m.put 0 (base + c.1) c.2
  { s with
    mem := (s.mem.slice src tileBytes).foldl (fun m c => put m c dst) (s.mem.clear dst tileBytes)
    chk := (s.chk.slice (src / 8) (tileBytes / 8)).foldl (fun m c => put m c (dst / 8)) (s.chk.clear (dst / 8) (tileBytes / 8)) }

/-- The max-abs record of a tile of memory under a format; a tile of no format has none. -/
def scanTile (s : State) (t fmt : Nat) : MaxAbs :=
  if fmt ≤ 10 then Num.tileRec fmt fun i => s.mem.get 0 (t * tileBytes + i) else { fmt := 15 }

/-- Firmware carries a data tile for the account whose tag it is (R211): every word is decoded under the tag, a corrected one
rewritten. A word that does not decode is carried with its check bytes, so that it stays unreadable and changes no owner
(DESIGN CHOICE, log 73). The record is recomputed under the FMT of the source's (R221). -/
def carryTile (s : State) (tag src dst : Nat) : State :=
  let s := copyRaw (fwCheck s (src * tileBytes) tileBytes tag) (src * tileBytes) (dst * tileBytes)
  { s with maxRec := s.maxRec.put dst (scanTile s dst (recOf s src).fmt.toNat) }

def noHome : BitVec 24 := 0xFFFFFF

/-- Write a DIRTY data tile back to its HOME, where it has one (R219). -/
def writeBackTile (s : State) (t : Nat) : State :=
  let e := dirOf s t
  if e.state ≠ tdDirty ∨ e.home = noHome then s
  else
    let s := carryTile s (tagOf s e.account.toNat) t e.home.toNat
    charge (setDir s t tdClean) e.account.toNat none fPoolWr tileBytes

/-! ### TD_GATHER_CFG (R186) -/

/-- TD_GATHER_CFG takes a value; with HOT_EN 0 no hot-row copy is kept. -/
def setGatherCfg (s : State) (v : W64) : State :=
  { s with gatherCfg := v, tables := if bitOf v.toNat 0 then s.tables else s.tables.mapVals fun _ t => { t with hot := [] } }

/-! ### Events of a core (R96) -/

/-- CORE_EVT takes a value; the interrupt is up while an enabled event is set (R96). -/
def setEvt (k : Core) (v : W64) : Core := { k with evt := v, irq := (v &&& k.evtEn) != 0 }

/-- Set a bit of CORE_EVT; an enabled event interrupts the control processor. -/
def coreEvent (s : State) (c : Fin 8) (bit : Nat) : State :=
  onCore s c fun k => setEvt k (k.evt ||| BitVec.ofNat 64 (2 ^ bit))

end Sys2Proof.Machine
end

