-- ==== Sys2Proof/WellFormed.lean ====
section
/-! DEFINITION. Which commands are well-formed: operands of the shape their row gives them. A meaning faults on an
operand that is no value of its kind, and on nothing else. -/

namespace Sys2Proof

/-- NAND blocks of a channel: 16 dies of 1,656 blocks (R306). -/
def blocksPerDie : Nat := 1656
def blocksPerChannel : Nat := 16 * blocksPerDie

/-- Set bits of a mask of rows or columns. -/
def setBits (w : Nat) (x : BitVec w) : Nat := ((List.range w).filter fun i => x.getLsbD i).length

/-- A cover names 128 rows and 512 columns (R68). -/
def EngineTest.wf : EngineTest → Bool
  | .cover rows cols => setBits 132 rows == 128 && setBits 520 cols == 512
  | _ => true

/-- The cover in a self-test's result. -/
def TestResult.wf : TestResult → Bool
  | .engine _ _ t => t.wf
  | _ => true

/-- An entry that firmware posts (R95, Table 4-7): 16 dwords, of type START, ABORT or RESUME, with at most 56 bytes of
payload. -/
def mailEntryWf (l : List W32) : Bool :=
  let d := (l.headD 0).toNat
  l.length == 16 && [1, 2, 3].contains (d % 2 ^ 16) && decide (d / 2 ^ 16 ≤ 56)

/-- The shape of a command's operands. -/
def Instr.wf : Instr → Bool
  | .firmwareMboxPost _ entry => mailEntryWf entry
  | .lampDispatch _ d => d.dw.length == 16
  | .partialMerge _ _ _ r => r.length == 24
  | .blockVerify _ b _ => decide (b < blocksPerChannel)
  | .moveCommit _ b => decide (b < blocksPerChannel)
  | .patrolRead _ b _ => decide (b < blocksPerChannel)
  | .controlProcessorStore _ _ b => [1, 2, 4, 8, 64].contains b.length
  | .residueFault _ _ t => t.wf
  | .fieldSelfTest r => r.wf
  | .powerOnStartup _ _ _ l _ => l.all TestResult.wf
  | _ => true

end Sys2Proof
end

