-- ==== Sys2Proof/Machine/MediaOps.lean ====
section
/-! DEFINITION. Operations of the flash layer (spec 13) and of namespaces (spec 11): where an indirection unit lives,
the mapping table, the write buffer, program units and parity groups, die queues, read-retry ladders, retirement. -/

namespace Sys2Proof.Machine

/-! ### Namespaces and the mapping table -/

/-- Bytes of a namespace's indirection unit (Table 11-5). -/
def iuBytes (n : Ns) : Nat := if n.flbas = 1 then 16384 else 4096

/-- Key of an indirection unit in `map`. -/
def mapKey (nsid iu : Nat) : Nat := nsid * 2 ^ 48 + iu

/-- Key of a namespace byte in `media`. -/
def mediaKey (nsid off : Nat) : Nat := nsid * 2 ^ 64 + off

/-- The MAP_ENTRY of an indirection unit (R312). -/
def entryOf (s : State) (nsid iu : Nat) : MapEntry := s.map.getD (mapKey nsid iu) {}

/-- Bytes of a namespace; a deallocated block reads as zeros (R274). -/
def readMedia (s : State) (nsid off n : Nat) : Bytes := s.media.gets 0 (mediaKey nsid off) n

/-- Position of a KV block number within a session's geometry: layer, head, group (R111). -/
def kvBlockOf (x : Sess) (n : Nat) : Nat × Nat × Nat :=
  let h := n % x.kvHeads
  let r := n / x.kvHeads
  (r % x.layers, h, r / x.layers)

/-- The KV block number that a unit of a KV namespace holds, where an open session has it in a KV extent (R111). -/
def kvNumber (s : State) (nsid u : Nat) : Option (Sess × Nat) :=
  s.sess.findSome? fun p =>
    let x := p.2
    if x.kvNsid ≠ nsid ∨ x.layers = 0 ∨ x.kvHeads = 0 then none
    else
      let kv := x.extents.filter fun e => !e.2.1 && !e.2.2
      (List.range kv.length).findSome? fun i =>
        let first := (kv.getD i (0, false, false)).1
        if first ≤ u ∧ u < first + 65536 then some (x, i * 65536 + (u - first)) else none

/-- Home channel of an indirection unit (R311, R112, R136). -/
def homeOf (s : State) (nsid iu : Nat) : Fin 48 :=
  match s.nss.get? nsid with
  | none => chIx ((iu + nsid) % 48)
  | some n =>
    match n.role with
    | .kv => match kvNumber s nsid iu with
      | some (x, b) =>
        let (l, h, g) := kvBlockOf x b
        chIx ((g + 11 * (l * x.kvHeads + h)) % 48)
      | none => chIx ((iu + nsid) % 48)
    | .index =>
      let slots := (s.indexes.find? (·.2.nsid == nsid)).map (·.2.slots)
      if iu < slots.getD 0 then chIx (iu % 48) else chIx ((iu + nsid) % 48)
    | _ => chIx ((iu + nsid) % 48)

/-- Bytes of one mapping-journal record. DESIGN CHOICE, log 16: the spec gives no size. -/
def journalRecord : Nat := 16

/-- Change an entry and journal the change for its home channel (R314, R317). -/
def setEntry (s : State) (nsid iu : Nat) (e : MapEntry) : State :=
  let s := { s with map := s.map.put (mapKey nsid iu) e }
  addRec s (homeOf s nsid iu) recJournal journalRecord

/-- Session region (R20): the pool less the firmware region, whose mapping tables take 4 B for each IU, less
withdrawn rows (R452). -/
def mapTableBytes (n : Ns) : Nat := 4 * ceilDiv (n.nsze * 4096) (iuBytes n)
def fixedRegion : Nat := 4 * 2 ^ 30 + 32 * 2 ^ 20 + 256 * 2 ^ 20
def regionBytes (s : State) : Nat :=
  poolBytes - fixedRegion - sumNat (s.nss.map fun p => mapTableBytes p.2) - 4096 * s.repair.withdrawn.length

/-! ### The write buffer (R316) -/

def bufferSlots : Nat := 1048576

/-- Bytes of a segment queue's entry. DESIGN CHOICE, log 16: the spec gives no size. -/
def segmentRecord : Nat := 32

/-- Operations of a channel: queued, held, in progress or suspended. -/
def chanOps (c : Channel) : List NandOp :=
  c.dieOps.flatMap (·.2) ++ c.dieHeld.flatMap (·.2) ++ c.dieActive.map (·.2) ++ c.suspended.map (·.2)

/-- Slots of packed records. -/
def packed (l : List (Nat × Nat)) : Nat := sumNat (l.map fun r => ceilDiv r.2 4096)

/-- Slots that records take: those of one kind and channel are packed together, until their durable copy is written (R317); a
segment queue's entry has no copy beside the buffer. -/
def recSlots (s : State) : Nat :=
  sumNat (s.channels.toList.map fun c => packed c.recs + sumNat ((chanOps c).map fun o => packed o.recs))
    + ceilDiv (segmentRecord * sumNat (s.ingests.map fun g => g.queue.length + g.applied.length + (if g.current.isSome then 1 else 0))) 4096

def freeSlots (s : State) : Nat := bufferSlots - (s.slots.length + recSlots s)

/-- Slots that a write of `n` waits for: at most all that no record takes. -/
def slotsFor (s : State) (n : Nat) : Nat := min n (bufferSlots - recSlots s)

/-- The lowest free slot number. -/
def freeSlot (s : State) : Option Nat := s.slots.firstFree 0 bufferSlots

/-- Do writes complete only after programming (R320, R432)? -/
def syncMode (s : State) : Bool := s.health.bit4 || !s.power.bankOk

/-- Slots of an indirection unit that are buffered and not yet placed in a program unit. -/
def openSlots (s : State) (nsid iu : Nat) : List Nat :=
  (s.slots.filter fun p => p.2.nsid == nsid && p.2.iu == iu && p.2.kind == 0 && p.2.loc.isNone && !p.2.programmed
    && (s.channels[homeOf s nsid iu].unit.contains p.1)).map (·.1)

/-- A codeword of a program unit that holds filler in place of a slot. -/
def fillerSlot : Nat := bufferSlots

/-- Take `n` free slots for an indirection unit and add them to its home channel's program unit. -/
def takeSlotsFrom (s : State) (nsid iu acct : Nat) : Nat → State × List Nat
  | 0 => (s, [])
  | n + 1 =>
    match freeSlot s with
    | none => (s, [])
    | some i =>
      let s := { s with slots := s.slots.put i { nsid := nsid, iu := iu, account := acct } }
      let s := onChan s (homeOf s nsid iu) fun c => { c with unit := c.unit ++ [i] }
      let (s, l) := takeSlotsFrom s nsid iu acct n
      (s, i :: l)

/-- Take slots for an indirection unit; one of 16 KiB starts at codeword 0 of a page (Table 13-3). -/
def takeSlots (s : State) (nsid iu acct n : Nat) : State × List Nat :=
  let s := onChan s (homeOf s nsid iu) fun c =>
    if n = 4 then { c with unit := c.unit ++ List.replicate ((4 - c.unit.length % 4) % 4) fillerSlot } else c
  takeSlotsFrom s nsid iu acct n

/-! ### Die queues (R308) -/

/-- The die of a block number of a channel. -/
def dieOfBlock (b : Nat) : Nat := b / 1656

/-- Is the operation a program or an erase? -/
def writes (o : NandOp) : Bool :=
  match o.kind with
  | .read => false
  | _ => true

/-- Operations of a die: active, suspended, queued, held. -/
def dieQueue (c : Channel) (d : Nat) : List NandOp := c.dieOps.getD d []
def dieLoad (c : Channel) (d : Nat) : Nat :=
  (dieQueue c d).length + (c.dieHeld.getD d []).length + (if c.dieActive.has d then 1 else 0)

/-- Programs and erases in progress on a channel; a suspended one still counts (R22, R308). -/
def busyWrites (c : Channel) : Nat :=
  (c.dieActive.filter fun p => writes p.2).length + (c.suspended.filter fun p => writes p.2).length

/-- First operation of a class in the order of R308: ladder reads ahead, then arrival. -/
def firstOf (cls : Nat) (ops : List NandOp) : Option NandOp :=
  match ops.find? fun o => o.cls == cls && o.ladder with
  | some o => some o
  | none => ops.find? fun o => o.cls == cls

/-- One choice of the weighted round robin between Classes 1 to 3: the lowest class with work and credit; when none
has credit, the credits are the weights again. DESIGN CHOICE, log 4: the spec names the weights, not the sequence. -/
def wrrPick (has : Nat → Bool) (w : List Nat) (credit : List Nat) : Option (Nat × List Nat) :=
  let pick (cr : List Nat) : Option Nat := [1, 2, 3].find? fun c => has c && decide (0 < cr.getD (c - 1) 0)
  match pick credit with
  | some c => some (c, setAt credit (c - 1) (credit.getD (c - 1) 0 - 1))
  | none => match pick w with
    | some c => some (c, setAt w (c - 1) (w.getD (c - 1) 0 - 1))
    | none => none

/-- The weights of Classes 1 to 3. -/
def weights (s : State) : List Nat := [weightOf s 1, weightOf s 2, weightOf s 3]

/-- The operation that R308 serves first from a list, with the credits after it. -/
def pickOp (w credit : List Nat) (ops : List NandOp) : Option (NandOp × List Nat) :=
  match ops.find? fun o => o.cls == 0 with
  | some o => some (o, credit)
  | none =>
    match wrrPick (fun c => (firstOf c ops).isSome) w credit with
    | some (c, cr) => (firstOf c ops).map fun o => (o, cr)
    | none => none

/-- Operations that a die counts, of 64 (Table 11-4): those issued to it and not ended. -/
def dieIssued (c : Channel) (d : Nat) : Nat :=
  (dieQueue c d).length + (if c.dieActive.has d then 1 else 0) + (if c.suspended.has d then 1 else 0)

/-- Admit up to `n` of the operations that the trunk holds for a die, in the order that serves the queue from its credits on
(R308). -/
def admitSome (w : List Nat) (d : Nat) : Nat → List Nat → Channel → Channel
  | 0, _, c => c
  | n + 1, cr, c =>
    let held := c.dieHeld.getD d []
    match pickOp w cr held with
    | some (h, cr) => admitSome w d n cr { c with dieOps := c.dieOps.upd d [] (· ++ [h]), dieHeld := c.dieHeld.put d (held.erase h) }
    | none => c

/-- Admit what the trunk holds for a die that has room (Table 11-4). -/
def admitHeld (s : State) (c : Channel) (d : Nat) : Channel :=
  admitSome (weights s) d (64 - dieIssued c d) (c.dieCredit.getD d []) c

/-- Do the root dies run NAND operations: the main rails are up and no hold-up sequence runs (R318, R434)? -/
def flashUp (s : State) : Bool := s.power.phase == .ready && !s.power.holdup

/-- Start the next operation of an idle die. A suspended operation resumes when no Class 0 operation is queued
(R251); a program or erase waits while R22's limit is reached or its channel's writes are halted (R428, R473). -/
def startDie (s : State) (ch : Fin 48) (d : Nat) : State :=
  let c := admitHeld s s.channels[ch] d
  if c.dieActive.has d || !flashUp s then s
  else
    let start (o : NandOp) (c : Channel) : Channel :=
      { c with dieActive := c.dieActive.put d o, dieOps := c.dieOps.put d ((dieQueue c d).erase o)
               suspends := if writes o then c.suspends.del d else c.suspends }
    match c.suspended.get? d with
    | some o => onChan s ch fun _ =>
        match (dieQueue c d).find? fun o => o.cls == 0 with
        | some z => start z c
        | none => { c with dieActive := c.dieActive.put d o, suspended := c.suspended.del d }
    | none =>
      let stop := c.thermalHalt || c.caseHalt || decide (s.power.progLimit ≤ busyWrites c)
      let ready := (dieQueue c d).filter fun o => !(writes o && stop)
      match pickOp (weights s) (c.dieCredit.getD d []) ready with
      | none => onChan s ch fun _ => c
      | some (o, cr) => onChan s ch fun _ => { start o c with dieCredit := c.dieCredit.put d cr }

/-- Start what can start on every die of a channel. -/
def startAll (s : State) (ch : Fin 48) : State := (List.range 16).foldl (fun a d => startDie a ch d) s

/-- May a read suspend what its die does (R308)? One of Classes 1 to 3 suspends a program at most twice and an erase at most six
times; a ladder read suspends without limit. Class 0 is CLASS0_FLASH_PREEMPT's. The spec says that they may: the model's reads do
(DESIGN CHOICE, log 16). -/
def maySuspend (c : Channel) (d : Nat) (o : NandOp) : Bool :=
  match c.dieActive.get? d with
  | none => false
  | some w => writes w && !writes o
      && (o.ladder || (o.cls != 0 && decide (c.suspends.getD d 0 < (if w.kind = .erase then 6 else 2))))

/-- A read suspends the program or erase of its die; the read of the die's queue that the order serves first runs. -/
def suspendFor (s : State) (ch : Fin 48) (d : Nat) (o : NandOp) : State :=
  onChan s ch fun c =>
    match c.dieActive.get? d, pickOp (weights s) (c.dieCredit.getD d []) ((dieQueue c d).filter (!writes ·)) with
    | some w, some (r, cr) =>
      { c with dieActive := c.dieActive.put d r, suspended := c.suspended.put d w, dieOps := c.dieOps.put d ((dieQueue c d).erase r)
               dieCredit := c.dieCredit.put d cr, suspends := if o.ladder then c.suspends else c.suspends.upd d 0 (· + 1) }
    | _, _ => c

/-- Queue an operation on a die; the trunk holds it while the die has its 64 (Table 11-4). -/
def enqueue (s : State) (ch : Fin 48) (d : Nat) (o : NandOp) : State :=
  let room := decide (dieIssued s.channels[ch] d < 64)
  let s := onChan s ch fun c =>
    if room then { c with dieOps := c.dieOps.upd d [] (· ++ [o]) } else { c with dieHeld := c.dieHeld.upd d [] (· ++ [o]) }
  if room && flashUp s && maySuspend s.channels[ch] d o then suspendFor s ch d o else startDie s ch d

/-- Put a block on the refresh list, once, and not while it is moved (R327, R331). A block of the system area holds no unit to
move. -/
def listRefresh (c : Channel) (b : Nat) : Channel :=
  if c.refreshList.contains b ∨ (c.moves.any fun m => m.src == b) ∨ (c.blocks.getD b {}).sys then c
  else { c with refreshList := c.refreshList ++ [b] }

/-- An operation of a command that goes: its read is dropped, unless it is a ladder's that others still wait for. -/
def leaveOp (k : CmdKey) (gone : List Nat) (o : NandOp) : Option NandOp :=
  if o.cmd ≠ some k ∨ writes o then (if o.ladder && gone.contains o.addr then none else some o)
  else if o.ladder && !gone.contains o.addr then some { o with cmd := none }
  else none

/-- Remove a command's reads from every die and ladder of a channel (R327). A ladder left with no waiter stops: it
lists its block for refresh if it had reached step 2. -/
def leaveChannel (k : CmdKey) (c : Channel) : Channel × Nat :=
  let ladders := c.ladders.mapVals fun _ l => { l with waiters := l.waiters.filter (· != k) }
  let stopped := c.ladders.filter fun p => p.2.waiters.contains k && (p.2.waiters.filter (· != k)).isEmpty
  let gone := stopped.map (·.1)
  let refresh := (stopped.filter fun p => decide (2 ≤ p.2.step)).map fun p => p.1 / 4 / 9216
  (refresh.foldl listRefresh { c with
    dieOps := c.dieOps.mapVals fun _ l => l.filterMap (leaveOp k gone)
    dieHeld := c.dieHeld.mapVals fun _ l => l.filterMap (leaveOp k gone)
    dieActive := c.dieActive.mapVals fun _ o => if o.cmd = some k ∧ !writes o then { o with cmd := none } else o
    ladders := ladders.filter fun p => !gone.contains p.1 }, stopped.length)

/-- Cancel every flash read of a command. -/
def cancelReads (s : State) (k : CmdKey) : State :=
  (List.finRange 48).foldl (fun a ch =>
    let (c, n) := leaveChannel k a.channels[ch]
    bump 0x612007 n (onChan a ch fun _ => c)) s

/-- Does a command still wait for a flash read? -/
def readsPending (s : State) (k : CmdKey) : Bool :=
  s.channels.toList.any fun c =>
    (c.dieOps.any fun p => p.2.any fun o => o.cmd == some k) || (c.dieHeld.any fun p => p.2.any fun o => o.cmd == some k)
    || (c.dieActive.any fun p => p.2.cmd == some k) || (c.ladders.any fun p => p.2.waiters.contains k)

/-! ### Blocks, parity groups, program units (R316, R321, R332) -/

def blockOf (c : Channel) (b : Nat) : Block := c.blocks.getD b {}
def onBlock (c : Channel) (b : Nat) (f : Block → Block) : Channel := { c with blocks := c.blocks.upd b {} f }

/-- Is a block in service for data? The others of a die are bad at shipment, hold the system area or are kept erased
for the hold-up flush (Table 13-4). DESIGN CHOICE, log 5: the spec gives their count, not their numbers. -/
def inService (b : Nat) : Bool := decide (b % 1656 < 1656 - (if b / 1656 < 6 then 38 else 37))

/-- Is a block good: not bad at shipment (Table 13-4)? The 64 blocks of the system area, four on each die, follow those in service;
the four kept erased for the hold-up flush follow on D0 to D3 (DESIGN CHOICE, log 5). -/
def goodBlock (b : Nat) : Bool := decide (b % 1656 < 1656 - (if b / 1656 = 4 ∨ b / 1656 = 5 then 34 else 33))

/-- Is a block one of the system area? -/
def systemBlock (b : Nat) : Bool := !inService b && decide (b % 1656 < 1656 - (if b / 1656 < 6 then 34 else 33))

/-- Free block of an area on a die, of lowest erase count, the lowest number on a tie (R332). -/
def freeBlockIn (c : Channel) (area : Nat → Bool) (d : Nat) : Option Nat :=
  let bs := (List.range 1656).map fun i => d * 1656 + i
  let free := bs.filter fun b => area b && (blockOf c b).state == .free
  free.foldl (fun a b => match a with
    | none => some b
    | some x => if (blockOf c b).erases < (blockOf c x).erases then some b else some x) none

/-- Free block of a die for data and moves. -/
def freeBlockOn (c : Channel) (d : Nat) : Option Nat := freeBlockIn c inService d

/-- Free block of a die for system writes: of the system area, or, where its blocks there are retired or full, another. -/
def freeBlockFor (c : Channel) (sys : Bool) (d : Nat) : Option Nat :=
  if sys then (freeBlockIn c systemBlock d).or (freeBlockOn c d) else freeBlockOn c d

/-- Dies of a channel in service. -/
def liveDies (c : Channel) : List Nat := (List.range 16).filter fun d => !bitOf c.failedDies.toNat d

/-- Collection class and held destaging for a number of free blocks (Table 13-7). -/
def gcThreshold (c : Channel) : Channel :=
  let f := c.freeBlocks
  { c with collecting := decide (f < 530), gcClass := if f < 265 then 1 else 3, destageHeld := decide (f < 133) }

/-- Is a group open: does a member still take programs? -/
def groupOpen (c : Channel) (g : Group) : Bool := g.members.any fun b => (blockOf c b).state == .opened

/-- A block becomes a member or the parity block of a group. -/
def openBlock (g : Nat) (sys : Bool) (c : Channel) (b : Nat) : Channel :=
  onBlock c b fun x => { x with state := .opened, group := some g, units := 0, slc := false, sys := sys }

/-- Open a parity group: a member block on every live die but one, and a parity block on that one; at most 8 are open
(R321). DESIGN CHOICE, log 16: the last live die holds the parity block of an even group number, the first that of
an odd one. `prefer` names a block that its die contributes. -/
def openGroup (c : Channel) (move sys : Bool) (prefer : Option Nat) : Option (Channel × Nat) :=
  if 8 ≤ (c.groups.filter fun p => groupOpen c p.2).length then none
  else
    let live := liveDies c
    match c.groups.firstFree 0 (c.groups.length + 1) with
    | none => none
    | some g =>
      let keep := prefer.map dieOfBlock
      let order := if g % 2 = 0 then live.reverse else live
      match order.find? fun d => some d != keep with
      | none => none
      | some pd =>
        let pick (d : Nat) : Option Nat := if some d = keep then prefer else freeBlockFor c sys d
        let picks := (live.filter (· != pd)).filterMap pick
        match freeBlockFor c sys pd with
        | none => none
        | some pb =>
          if picks = [] then none
          else
            let c := (pb :: picks).foldl (openBlock g sys) c
            some (gcThreshold { c with groups := c.groups.put g { members := picks, parity := pb, move := move, sys := sys }
                                       freeBlocks := c.freeBlocks - ((pb :: picks).filter inService).length }, g)

/-- Does an operation program a unit of a block? -/
def programs (b : Nat) (parity : Bool) (o : NandOp) : Bool :=
  o.block == b && (match o.kind with | .program _ p => p == parity | _ => false)

/-- How many operations of a channel satisfy a test: queued, held, in progress or suspended. -/
def countOps (c : Channel) (p : NandOp → Bool) : Nat :=
  sumNat (c.dieOps.map fun x => (x.2.filter p).length) + sumNat (c.dieHeld.map fun x => (x.2.filter p).length)
    + (c.dieActive.filter fun x => p x.2).length + (c.suspended.filter fun x => p x.2).length

/-- Next wordline of a block. -/
def nextUnit (c : Channel) (b : Nat) : Nat := (blockOf c b).units + countOps c (programs b false)

/-- The member block that takes the next `need` program units: of the die with the shortest queue, then fewest
wordlines, then lowest number (R316; ties DESIGN CHOICE, log 16). -/
def pickMember (c : Channel) (g : Group) (need : Nat) : Option Nat :=
  let room := g.members.filter fun b => decide (nextUnit c b + need ≤ 768) && (blockOf c b).state == .opened
  room.foldl (fun a b => match a with
    | none => some b
    | some x =>
      let kx := (dieLoad c (dieOfBlock x), nextUnit c x)
      let kb := (dieLoad c (dieOfBlock b), nextUnit c b)
      if kb.1 < kx.1 ∨ (kb.1 = kx.1 ∧ kb.2 < kx.2) then some b else some x) none

/-- The open group that takes data, moves or system writes, opened where there is none with room: the channel, the group and the
member block. -/
def groupFor (c : Channel) (move sys : Bool) (need : Nat) (prefer : Option Nat) : Option (Channel × Nat × Nat) :=
  let hit := if prefer.isSome then none else c.groups.findSome? fun p =>
    if p.2.move == move && p.2.sys == sys then (pickMember c p.2 need).map fun b => (p.1, b) else none
  match hit with
  | some (g, b) => some (c, g, b)
  | none =>
    match openGroup c move sys prefer with
    | none => none
    | some (c, g) =>
      match prefer with
      | some b => some (c, g, b)
      | none => (pickMember c (c.groups.getD g {}) need).map fun b => (c, g, b)

/-- Flash address of position `i` of a program unit at a wordline of a block (Table 13-3): 12 pages of 4 codewords. -/
def unitAddr (b wl i : Nat) : Nat := (b * 9216 + wl * 12 + i / 4) * 4 + i % 4

/-- Block and wordline of a flash address. -/
def blockAt (a : Nat) : Nat := a / 4 / 9216
def wordlineAt (a : Nat) : Nat := a / 4 % 9216 / 12

/-- A program operation of a wordline. -/
def programOp (b wl cls : Nat) (slots : List Nat) (parity : Bool) : NandOp :=
  { kind := .program slots parity, cls := cls, ladder := false, block := b, addr := unitAddr b wl 0, nsid := 0, iu := 0
    cmd := none }

/-- A slot takes its address in a program unit. -/
def placeSlot (b wl : Nat) (a : State) (p : Nat × Nat) : State :=
  { a with slots := a.slots.mod p.2 fun x => { x with loc := some (unitAddr b wl p.1), programmed := false } }

/-- Program a unit of a channel, of slots or of records: its slots take their addresses, and the operation is queued on
the member's die in Class 3 (R308, R316, R317). A part-filled unit also pads the group's lagging members with filler
(R321). -/
def programIn (s : State) (ch : Fin 48) (sys part : Bool) (slots : List Nat) (recs : List (Nat × Nat)) : State × Bool :=
  match groupFor s.channels[ch] false sys 1 none with
  | none => (s, false)
  | some (c, g, b) =>
    let wl := nextUnit c b
    let s := onChan s ch fun _ => c
    let s := ((List.range slots.length).zip slots).foldl (placeSlot b wl) s
    let s := enqueue s ch (dieOfBlock b) { programOp b wl 3 slots false with recs := recs }
    let fill (a : State) (m : Nat) : State :=
      if m ≠ b ∧ (blockOf a.channels[ch] m).state = .opened ∧ part then
        let next := nextUnit a.channels[ch] m
        (List.range (wl + 1 - next)).foldl (fun x i => enqueue x ch (dieOfBlock m) (programOp m (next + i) 3 [] false)) a
      else a
    (((c.groups.getD g {}).members).foldl fill s, true)

/-- Program a part-filled or full unit of slots. -/
def programUnit (s : State) (ch : Fin 48) (slots : List Nat) : State × Bool :=
  programIn s ch false (decide (slots.length < 48)) slots []

/-- Bytes of a program unit (Table 13-1). -/
def unitBytes : Nat := 196608

/-- The records that fit a number of bytes, and the others. -/
def cutRecs : Nat → List (Nat × Nat) → List (Nat × Nat) × List (Nat × Nat)
  | _, [] => ([], [])
  | n, (k, b) :: t =>
    let x := min n b
    let (p, q) := cutRecs (n - x) t
    ((if x = 0 then p else (k, x) :: p), (if x < b then (k, b - x) :: q else q))

/-- Destage a unit of a channel's records to its system area (R317): when they fill one, or at once. -/
def destageRecs (s : State) (ch : Fin 48) (force : Bool) : State :=
  let c := s.channels[ch]
  let n := sumNat (c.recs.map (·.2))
  if c.destageHeld ∨ c.recs = [] ∨ (n < unitBytes ∧ !force) then s
  else
    let (p, q) := cutRecs unitBytes c.recs
    let (t, ok) := programIn s ch true (decide (n < unitBytes)) [] p
    if ok then onChan t ch fun c => { c with recs := q } else s

/-- Destage a channel's program unit when it is full, or at once in the cases of R316; destaging is held while free
blocks are below 133 (R330). `force` pads a part-filled unit. -/
def destageUnit (s : State) (ch : Fin 48) (force : Bool) : State :=
  let c := s.channels[ch]
  if c.destageHeld ∨ (c.unit.length < 48 ∧ !force) ∨ c.unit = [] then s
  else
    let (t, ok) := programUnit s ch (c.unit.take 48)
    if ok then onChan t ch fun c => { c with unit := c.unit.drop 48 } else s

/-- Destage what a channel has to destage: its records, then its slots. -/
def destage (s : State) (ch : Fin 48) (force : Bool) : State := destageUnit (destageRecs s ch force) ch force

/-- Release a slot whose data and parity are programmed: an entry that still names it takes its flash address. The
first slot of a unit carries the unit's address. -/
def releaseSlot (s : State) (i : Nat) : State :=
  match s.slots.get? i with
  | none => s
  | some b =>
    let e := entryOf s b.nsid b.iu
    let s := { s with slots := s.slots.del i }
    match b.loc with
    | some a => if b.kind = 0 ∧ e.st = .buffered ∧ e.loc = i then setEntry s b.nsid b.iu { st := .flash, loc := a } else s
    | none => s

/-- Parity programs that a group owes: every wordline that each open member has programmed, or every wordline when
the group is closed (R321). -/
def parityDue (c : Channel) (g : Group) : Nat :=
  let units (l : List Nat) : List Nat := l.map fun b => (blockOf c b).units
  let op := g.members.filter fun b => (blockOf c b).state == .opened
  if op = [] then maxNat (units g.members) else (units op).foldl min 768

/-- Queue the parity programs that are due for a group. -/
def issueParity (s : State) (ch : Fin 48) (gi : Nat) : State :=
  let c := s.channels[ch]
  match c.groups.get? gi with
  | none => s
  | some g =>
    let have_ := g.covered + countOps c (programs g.parity true)
    (List.range (parityDue c g - have_)).foldl (fun a i =>
      enqueue a ch (dieOfBlock g.parity) (programOp g.parity (have_ + i) 3 [] true)) s

/-- A parity page has been programmed: the wordline is covered and its programmed slots are released. -/
def coverWordline (s : State) (ch : Fin 48) (gi : Nat) : State :=
  let c := s.channels[ch]
  match c.groups.get? gi with
  | none => s
  | some g =>
    let s := onChan s ch fun c => { c with groups := c.groups.put gi { g with covered := g.covered + 1 } }
    let hit (p : Nat × BufSlot) : Bool :=
      match p.2.loc with
      | some a => p.2.programmed && g.members.contains (blockAt a) && wordlineAt a == g.covered
          && homeOf s p.2.nsid p.2.iu == ch
      | none => false
    ((s.slots.filter hit).map (·.1)).foldl releaseSlot s

/-- Do records of a channel wait for their durable copy? -/
def recsPending (c : Channel) : Bool := c.recs != [] || (chanOps c).any fun o => o.recs != []

/-- Records come back to the buffer's own: their durable copy was not written. -/
def returnRecs (c : Channel) (l : List (Nat × Nat)) : Channel :=
  { c with recs := l.foldl (fun (a : Tab Nat) r => a.upd r.1 0 (· + r.2)) c.recs }

/-- Close a block (R322). -/
def closeBlock (c : Channel) (b : Nat) : Channel :=
  let c := onBlock c b fun x => { x with state := .closed, closeSeq := c.closeCount }
  { c with closeCount := c.closeCount + 1 }

/-- When no move of the channel is queued, its open move targets that hold copies close as they stand (R328). -/
def closeTargets (c : Channel) : Channel :=
  let targets := (c.groups.filter fun p => p.2.move).flatMap fun p => p.2.members
  if countOps c (fun o => targets.contains o.block && writes o) ≠ 0 then c
  else (targets.filter fun b => (blockOf c b).state == .opened && decide (0 < (blockOf c b).units)).foldl closeBlock c

/-! ### Collection thresholds, spares, retirement (R315, R330, R333, R337) -/

/-- Spares remaining on a channel. -/
def sparesLeft (c : Channel) : Nat := c.spares

/-- Available Spare (R334). -/
def availableSpare (s : State) : Nat :=
  (s.channels.toList.map fun c => if c.sparesShip = 0 then 0 else 100 * c.spares / c.sparesShip).foldl min 100

/-- Enter read-only mode for life (R337). -/
def enterReadOnly (s : State) (ch : Fin 48) : State :=
  if s.health.readOnly then s
  else
    let s := onHealth s fun h => { h with readOnly := true }
    let s := logEvent s (dieOfCh ch.val) 0x0017 {} (toLe 1 ch.val)
    noticeAll s (smartNotice 0)

/-- Retire a block (R333): a spare is consumed, or, with none left, read-only mode is entered and the block comes
out of the collection reserve. -/
def retireBlock (s : State) (ch : Fin 48) (b : Nat) : State :=
  let c := s.channels[ch]
  let x := blockOf c b
  if x.state == .retired then s
  else
    let before := availableSpare s
    let none_ := decide (c.spares = 0)
    let s := onChan s ch fun c =>
      let c := onBlock c b fun x => { x with state := .retired }
      gcThreshold { c with spares := c.spares - 1
                           freeBlocks := c.freeBlocks - (if x.state == .free && inService b then 1 else 0) }
    let s := bump 0x61200A 1 s
    let s := if none_ then enterReadOnly s ch else s
    if 10 ≤ before ∧ availableSpare s < 10 then noticeAll s (smartNotice 2) else s

/-! ### Valid data of a block -/

/-- The units whose entries name a block of a channel: entry keys and addresses. -/
def validIn (s : State) (ch : Fin 48) (b : Nat) : List (Nat × Nat) :=
  (s.map.filter fun p => p.2.st == .flash && p.2.loc / 4 / 9216 == b
    && homeOf s (p.1 / 2 ^ 48) (p.1 % 2 ^ 48) == ch).map fun p => (p.1, p.2.loc)

/-- Does a block's group still hold parity (R324 step 5)? -/
def hasParity (c : Channel) (b : Nat) : Bool :=
  match (blockOf c b).group with
  | some g => c.groups.has g
  | none => false

/-- Last step of the ladder that applies to a codeword (R324). -/
def lastStep (c : Channel) (b : Nat) : Nat := if hasParity c b then 5 else 4

/-- Queue an erase of a block; a retired block is never erased (R333). -/
def queueErase (s : State) (ch : Fin 48) (b : Nat) : State :=
  if (blockOf s.channels[ch] b).state == .retired ∨ countOps s.channels[ch] (fun o => o.block == b && o.kind == .erase) ≠ 0
  then s
  else enqueue s ch (dieOfBlock b) { kind := .erase, cls := 3, ladder := false, block := b, addr := unitAddr b 0 0,
                                     nsid := 0, iu := 0, cmd := none }

/-- A block leaves its group: when every remaining member has passed verification, the parity block is released to
the free blocks (R322). -/
def leaveGroup (s : State) (ch : Fin 48) (b : Nat) : State :=
  let c := s.channels[ch]
  match (blockOf c b).group.bind fun g => (c.groups.get? g).map fun x => (g, x) with
  | none => s
  | some (gi, g) =>
    let g := { g with members := g.members.filter (· != b), done := g.done.filter (· != b) }
    let c := onBlock { c with groups := c.groups.put gi g } b fun x => { x with group := none }
    if g.members.all (g.done.contains ·) then
      queueErase (onChan s ch fun _ => { c with groups := c.groups.del gi }) ch g.parity
    else onChan s ch fun _ => c

/-- Closed and verified blocks of a channel, of system writes or of data. -/
def writtenBlocks (c : Channel) (sys : Bool) : List Nat :=
  (c.blocks.filter fun p => (p.2.state == .closed || p.2.state == .verified) && p.2.sys == sys).map (·.1)

/-- Program units of a channel's part of the mapping table: 4 B for each unit of every namespace, a forty-eighth of them on each
channel. -/
def checkpointUnits (s : State) : Nat := ceilDiv (ceilDiv (sumNat (s.nss.map fun p => mapTableBytes p.2)) 48) unitBytes

/-- Checkpoint a channel's part of the mapping table (R314): it is programmed in the system area, and the blocks there that the
earlier checkpoint and journal filled are erased (DESIGN CHOICE, log 16). -/
def checkpoint (s : State) (ch : Fin 48) : State :=
  let old := writtenBlocks s.channels[ch] true
  let s := onChan s ch fun c => { c with journal := 0 }
  let s := (List.range (checkpointUnits s)).foldl (fun a _ => (programIn a ch true false [] []).1) s
  old.foldl (fun a b => queueErase a ch b) s

/-- Codewords of a mapped unit. -/
def widthOfKey (s : State) (key : Nat) : Nat :=
  match s.nss.get? (key / 2 ^ 48) with
  | some n => iuBytes n / 4096
  | none => 1

/-- Give units of a block places in a target, those of 16 KiB first so that each starts a page. -/
def layUnits (t wl : Nat) : Nat → List (Nat × Nat) → List (Nat × Nat)
  | _, [] => []
  | pos, (key, w) :: r => (key, unitAddr t (wl + pos / 48) (pos % 48)) :: layUnits t wl (pos + w) r

/-- Start a move of a block's valid data into the open move group (R328). A block already being moved, or with no
target, starts nothing; a block with no valid data is erased. `prefer` names the target block. -/
def startMove (s : State) (ch : Fin 48) (b cls : Nat) (refresh : Bool) (prefer : Option Nat) : State :=
  let c := s.channels[ch]
  if c.moves.any fun m => m.src == b then s
  else
    let keys := (validIn s ch b).map (·.1)
    let s := onChan s ch fun c => { c with refreshList := c.refreshList.filter (· != b) }
    if keys = [] then queueErase s ch b
    else
      let ius := keys.map fun k => (k, widthOfKey s k)
      let ius := (ius.filter fun p => p.2 == 4) ++ (ius.filter fun p => p.2 != 4)
      let need := ceilDiv (sumNat (ius.map (·.2))) 48
      match groupFor s.channels[ch] true false need prefer with
      | none => onChan s ch fun c => { c with refreshList := if refresh then c.refreshList ++ [b] else c.refreshList }
      | some (c, _, t) =>
        let wl := nextUnit c t
        let m : Move := { src := b, target := t, ius := layUnits t wl 0 ius, refresh := refresh, wear := prefer.isSome }
        let s := onChan s ch fun _ => { c with moves := c.moves ++ [m] }
        (List.range need).foldl (fun a i => enqueue a ch (dieOfBlock t) (programOp t (wl + i) cls [] false)) s

/-- Moves whose target failed are redone from their sources (R329). -/
def redoMoves (s : State) (ch : Fin 48) (t : Nat) : State :=
  let hit := s.channels[ch].moves.filter fun m => m.target == t
  let s := onChan s ch fun c => { c with moves := c.moves.filter fun m => m.target != t }
  let s := if hit = [] then s else bump 0x61200C 1 s
  hit.foldl (fun a m => startMove a ch m.src 3 m.refresh none) s

/-- Take every operation of a channel that satisfies a test out of its die's queue and hold. -/
def dropOps (c : Channel) (p : NandOp → Bool) : Channel × List NandOp :=
  let out (t : Tab (List NandOp)) : List NandOp := t.flatMap fun x => x.2.filter p
  ({ c with dieOps := c.dieOps.mapVals fun _ l => l.filter (!p ·), dieHeld := c.dieHeld.mapVals fun _ l => l.filter (!p ·) },
    out c.dieOps ++ out c.dieHeld)

/-- Operations of a channel are dropped from its queues; the records that they carry come back. -/
def dropPrograms (c : Channel) (p : NandOp → Bool) : Channel :=
  let (c, ops) := dropOps c p
  returnRecs c (ops.flatMap (·.recs))

/-- Slots that an operation programs. -/
def slotsOf (o : NandOp) : List Nat :=
  match o.kind with
  | .program l false => l
  | _ => []

/-- Program slots elsewhere (R333, R451): they join their channel's program unit again. -/
def reissueSlots (s : State) (ch : Fin 48) (l : List Nat) : State :=
  let l := l.filter s.slots.has
  let s := l.foldl (fun a i => { a with slots := a.slots.mod i fun x => { x with loc := none, programmed := false } }) s
  if l = [] then s
  else
    let (t, ok) := programUnit s ch l
    if ok then t else onChan s ch fun c => { c with unit := l ++ c.unit }

/-- Slots programmed, or to be programmed, in a block and not yet released. -/
def slotsIn (s : State) (ch : Fin 48) (b : Nat) : List Nat :=
  (s.slots.filter fun p => (match p.2.loc with | some a => blockAt a == b | none => false)
    && homeOf s p.2.nsid p.2.iu == ch).map (·.1)

/-- A group whose parity block has failed takes another free block for its parity, from the XOR that the root die
holds (R451). -/
def newParity (s : State) (ch : Fin 48) (gi : Nat) : State :=
  let c := s.channels[ch]
  match c.groups.get? gi with
  | none => s
  | some g =>
    let used := g.members.map dieOfBlock
    let cand := ((liveDies c).filter fun d => !used.contains d) ++ liveDies c
    match cand.findSome? (freeBlockFor c g.sys) with
    | none => s
    | some b =>
      let c := openBlock gi g.sys c b
      let c := gcThreshold { c with groups := c.groups.put gi { g with parity := b }
                                    freeBlocks := c.freeBlocks - (if inService b then 1 else 0) }
      issueParity (onChan s ch fun _ => c) ch gi

/-! ### Reads and ladders (R324 to R327) -/

/-- A read of an indirection unit. -/
def readOp (k : Option CmdKey) (cls nsid iu loc : Nat) (ladder : Bool) : NandOp :=
  { kind := .read, cls := cls, ladder := ladder, block := blockAt loc, addr := loc, nsid := nsid, iu := iu, cmd := k }

/-- The die that serves a read of a block: its own, or, where that has failed, the die of the group's parity block,
whose rebuild is step 5 (R451). -/
def servingDie (c : Channel) (b : Nat) : Nat :=
  let d := dieOfBlock b
  if bitOf c.failedDies.toNat d then
    match (blockOf c b).group.bind c.groups.get? with
    | some g => dieOfBlock g.parity
    | none => d
  else d

/-- Class 0 reads queued on a die: in progress, issued or held. -/
def c0Reads (c : Channel) (d : Nat) : Nat :=
  ((c.dieActive.get? d).toList ++ dieQueue c d ++ c.dieHeld.getD d []).countP fun o => o.cls == 0 && !writes o

/-- Issue a read of an indirection unit for a command; a read of a codeword whose ladder runs joins it (R326). A
unit of a failed die goes to step 5 of its ladder (R451). A second Class 0 read queued on the die before it, or a ladder step,
takes the command out of its row of Table 10-7. -/
def issueRead (s : State) (k : CmdKey) (cls nsid iu : Nat) : State :=
  let e := entryOf s nsid iu
  let ch := homeOf s nsid iu
  let b := blockAt e.loc
  let c := s.channels[ch]
  let ladder := c.ladders.has e.loc || bitOf c.failedDies.toNat (dieOfBlock b)
  let s := if ladder || decide (1 < c0Reads c (dieOfBlock b)) then markOutside s k else s
  if c.ladders.has e.loc then
    onChan s ch fun c => { c with ladders := c.ladders.mod e.loc fun l => { l with waiters := l.waiters ++ [k] } }
  else if bitOf c.failedDies.toNat (dieOfBlock b) then
    let s := onChan s ch fun c => { c with ladders := c.ladders.put e.loc { step := 5, waiters := [k] } }
    enqueue s ch (servingDie c b) (readOp (some k) cls nsid iu e.loc true)
  else enqueue s ch (dieOfBlock b) (readOp (some k) cls nsid iu e.loc false)

/-! ### Logical writes (R271, R274, R313, R316) -/

/-- The units that a byte range covers, with whether each is covered whole. -/
def unitsOf (n : Ns) (off len : Nat) : List (Nat × Bool) :=
  let u := iuBytes n
  if len = 0 then []
  else (List.range ((off + len - 1) / u + 1 - off / u)).map fun i =>
    let x := off / u + i
    (x, decide (off ≤ x * u) && decide ((x + 1) * u ≤ off + len))

/-- Put one unit in the write buffer; answers its slots. The unit's slots that wait in the program unit are written
in place. -/
def bufferUnit (s : State) (nsid iu : Nat) (n : Ns) : State × List Nat :=
  let old := openSlots s nsid iu
  let need := iuBytes n / 4096
  let e := entryOf s nsid iu
  if e.st = .buffered ∧ old.length = need ∧ old.contains e.loc then (s, old)
  else
    let (s, l) := takeSlots s nsid iu n.account need
    (setEntry s nsid iu { st := .buffered, loc := l.headD fillerSlot }, l)

/-- Slots that the journal records of `n` units need at most: one for each unit, or one on each channel besides those that they
fill (R317). -/
def journalSlots (n : Nat) : Nat := min n (48 + ceilDiv (journalRecord * n) 4096)

/-- Slots that a write of a range needs: those of its units and those of its journal records. -/
def slotsNeeded (n : Ns) (off len : Nat) : Nat :=
  let us := (unitsOf n off len).length
  us * (iuBytes n / 4096) + journalSlots us

/-- Write bytes of a namespace through the buffer: the caller has seen that the slots are free. Answers the slots. -/
def bufferWrite (s : State) (nsid off : Nat) (b : Bytes) (n : Ns) : State × List Nat :=
  let us := unitsOf n off b.length
  let (s, l) := us.foldl (fun (a : State × List Nat) u =>
    let (t, l) := bufferUnit a.1 nsid u.1 n
    (t, a.2 ++ l)) (s, [])
  let s := { s with media := s.media.puts 0 (mediaKey nsid off) b }
  let chs := (us.map fun u => homeOf s nsid u.1).eraseDups
  (chs.foldl (fun a ch => destage a ch (syncMode a)) s, l)

/-- Write bytes where slots suffice; firmware's own data writes (appends, index slots, rows). A record with no free
slot would wait (R317); firmware writes are taken as they stand. -/
def putMedia (s : State) (nsid off : Nat) (b : Bytes) : State :=
  match s.nss.get? nsid with
  | none => s
  | some n => (bufferWrite s nsid off b n).1

/-- Deallocate whole units of a range and zero its bytes (R274). -/
def deallocate (s : State) (nsid off len : Nat) (n : Ns) : State :=
  let us := unitsOf n off len
  let s := { s with media := s.media.clear (mediaKey nsid off) len }
  us.foldl (fun a u => if u.2 then setEntry a nsid u.1 {} else a) s

/-- Deallocate every unit of a namespace and clear its bytes; the bytes it had in the write buffer are no longer named. -/
def wipeNs (s : State) (nsid : Nat) : State :=
  let gone := (s.map.filter fun p => p.1 / 2 ^ 48 == nsid).map (·.1)
  let s := gone.foldl (fun a k => setEntry a (k / 2 ^ 48) (k % 2 ^ 48) {}) s
  { s with media := s.media.filter fun c => c.1 / 2 ^ 64 != nsid }


/-- Namespace of a command's account that is attached; the account owns it (R267). -/
def nsFor (s : State) (fn : Fin 128) (nsid : Nat) : Option Ns :=
  match s.nss.get? nsid with
  | some n => if n.account = acctOf fn ∧ n.attached then some n else none
  | none => none

/-- First unrecovered unit of a range. -/
def unrecovered (s : State) (nsid : Nat) (n : Ns) (off len : Nat) : Option Nat :=
  ((unitsOf n off len).find? fun u => (entryOf s nsid u.1).st == .unrecovered).map (·.1)

/-- Units of a range that lie on flash. -/
def onFlash (s : State) (nsid : Nat) (us : List Nat) : List Nat :=
  us.filter fun u => (entryOf s nsid u).st == .flash

end Sys2Proof.Machine
end

