-- ==== Sys2Proof/Machine/NvmOps.lean ====
section
/-! DEFINITION. What an NVM command does once it is fetched (R271 to R275), how it waits for flash reads, buffer slots
and segment-queue entries (Table 11-4, R169), and what the end of a flash operation does to the commands that wait. -/

namespace Sys2Proof.Machine

/-! ### The Class 0 guarantee (R250, R253) -/

/-- Do the conditions of R250 hold now? -/
def c0Holds (s : State) : Bool :=
  decide ((s.inflight.filter fun f => f.cls == 0).length ≤ c0Inflight s) && decide (300 ≤ effectiveCap s)
    && !(s.power.emergency || s.power.pwrbrkThrottle) && !s.sanitizing && !activationRuns s && decide (20 ≤ fieldOf (dv s 0x401000) 7 0)

/-- Record a Class 0 operation of Table 10-7 that ran outside its conditions (R253); says whether it did. -/
def c0Record (s : State) (k : CmdKey) (rowHolds : Bool) : State × Bool :=
  if c0Holds s && rowHolds then (s, false)
  else (bump 0x610001 1 (charge s (acctOf k.fn) ((flightOf s k).bind (·.session)) fC0Outside 1), true)

/-! ### Ingest segments (R168, R169) -/

def segmentCut : Nat := 2 ^ 24
def segmentQueue : Nat := 1048576

/-- The segments of a byte range, cut at 16 MiB boundaries. -/
def segmentsOf (off len : Nat) (text : Bool) : List Segment :=
  if len = 0 then []
  else (List.range ((off + len - 1) / segmentCut + 1 - off / segmentCut)).map fun i =>
    let lo := max off ((off / segmentCut + i) * segmentCut)
    { offset := lo, length := min (off + len) ((off / segmentCut + i + 1) * segmentCut) - lo, text := text }

/-- Does every binding of a source namespace have room for the segments? -/
def segmentRoom (s : State) (nsid n : Nat) : Bool :=
  s.ingests.all fun g => g.srcNs != nsid || (g.later.isEmpty && decide (g.queue.length + n ≤ segmentQueue))

/-- Queue segments for every binding of a source namespace. -/
def queueSegments (s : State) (nsid : Nat) (l : List Segment) : State :=
  { s with ingests := s.ingests.map fun g => if g.srcNs = nsid then { g with queue := g.queue ++ l } else g }

/-! ### Operands of NVM commands -/

def opWrite : Nat := 0x01
def opRead : Nat := 0x02
def opCompare : Nat := 0x05
def opWriteZeroes : Nat := 0x08
def opDsm : Nat := 0x09
def opVerify : Nat := 0x0C

/-- Byte ranges that a command names: one, or those of a Dataset Management range list (16 B each: attributes, length
in blocks, starting block; PRESUMED, log 14). -/
def byteRanges (e : Sqe) (opc : Nat) : List (Nat × Nat) :=
  if opc = opDsm then
    (List.range (fieldOf e.cdw10.toNat 7 0 + 1)).map fun i =>
      (Bytes.le e.inp (16 * i + 8) 8 * 4096, Bytes.le e.inp (16 * i + 4) 4 * 4096)
  else [(slbaOf e * 4096, nlbOf e * 4096)]

/-- Does a Dataset Management deallocate (bit 2 of CDW11, the attribute that is supported; PRESUMED, log 14)? -/
def deallocates (e : Sqe) : Bool := bitOf e.cdw11.toNat 2

/-- Does a command change data? -/
def changesData (e : Sqe) (opc : Nat) : Bool := opc == opWrite || opc == opWriteZeroes || (opc == opDsm && deallocates e)

/-- Does a Write Zeroes carry DEAC (bit 25 of CDW12; PRESUMED, log 14)? -/
def deac (e : Sqe) : Bool := bitOf e.cdw12.toNat 25

/-- Does a command release blocks (R274)? -/
def releases (e : Sqe) (opc : Nat) : Bool := opc == opDsm || (opc == opWriteZeroes && deac e)

/-- Bytes that the data pointer of a command must describe. -/
def dataLen (e : Sqe) (opc : Nat) : Nat :=
  if opc = opDsm then 16 * (fieldOf e.cdw10.toNat 7 0 + 1)
  else if opc = opWriteZeroes ∨ opc = opVerify then 0
  else nlbOf e * 4096

/-- The units whose stored data the command needs: all of them for a command that reads, those covered in part for
one that changes data (R266, R274); none for a Dataset Management that deallocates nothing. -/
def unitsNeeded (e : Sqe) (opc : Nat) (n : Ns) : List Nat :=
  if opc = opDsm ∧ !deallocates e then []
  else ((byteRanges e opc).flatMap fun r => (unitsOf n r.1 r.2).filter fun u => !(changesData e opc && u.2)).map (·.1)

/-- Is every logical block written and every spare worn (R337)? The user capacity is 153.6 TB. -/
def worn (s : State) : Bool :=
  s.channels.toList.all (fun c => c.spares == 0)
    && decide (153600000000000 ≤ sumNat (s.map.map fun p => if p.2.st = .dealloc then 0 else widthOfKey s p.1 * 4096))

/-- Why an NVM command fails before it moves data, and the first logical block concerned. The order of the checks is
the model's (DESIGN CHOICE, log 17). -/
def nvmRefuse (s : State) (e : Sqe) (opc : Nat) (n : Ns) : Option (Code × Nat) :=
  let rs := byteRanges e opc
  if !keyOpen s n.account then some (Code.notReady, 0)
  else if changesData e opc ∧ n.role ≠ .plain then some (Code.accessDenied, 0)
  else if e.dptr < dataLen e opc then some (Code.shortData e, 0)
  else if rs.any fun r => decide (n.nsze * 4096 < r.1 + r.2) then some (Code.lbaRange, 0)
  else if (s.health.readOnly || (opc == opWrite && worn s)) ∧ (opc = opWrite ∨ opc = opWriteZeroes) then
    some (Code.writeProtected, 0)
  else if s.health.readOnly ∧ opc = opDsm ∧ deallocates e ∧ (rs.any fun r => (unitsOf n r.1 r.2).any fun u => !u.2) then
    some (Code.writeProtected, 0)
  else
    match (unitsNeeded e opc n).find? fun u => (entryOf s e.nsid u).st == .unrecovered with
    | some u => some (Code.unrecoveredRead, max (slbaOf e) (u * (iuBytes n / 4096)))
    | none => none

/-! ### The effect -/

/-- Leave a command waiting as a job. -/
def waitJob (s : State) (e : Sqe) (opc : Nat) (readDone : Bool) : State :=
  { s with jobs := s.jobs ++ [{ e := e, opc := opc, readDone := readDone }] }

/-- The tokens that an append commits at its completion (R119): session, layer, count. -/
def commitTokens (s : State) : Option (Nat × Nat × Nat) → State
  | some (i, l, n) => onSess s i fun x => { x with layerTbl := x.layerTbl.put l { count := BitVec.ofNat 64 n, busy := false } }
  | none => s

/-- Does a command still wait for its slots or its records to be programmed? -/
def syncPending (s : State) (w : SyncWait) : Bool :=
  (w.slots.any s.slots.has) || w.chans.any fun n => recsPending s.channels[chIx (n % 48)]

/-- Must a command go on waiting: writes complete only after programming, and its are not programmed (R320)? -/
def syncHolds (s : State) (w : SyncWait) : Bool := syncMode s && syncPending s w

/-- What the end of such a command brings: its tokens, its segments, its completion. -/
def endCommit (s : State) (w : SyncWait) : State :=
  complete (commitTokens (queueSegments s w.nsid w.segs) w.append) w.key Code.ok w.dw0 w.dw1

/-- Channel of a session's records (R317). -/
def sessChan (i : Nat) : Fin 48 := chIx (i % 48)

/-- A session's descriptor or token count changes (R227, R317). -/
def noteSession (s : State) (i bytes : Nat) : State := addRec s (sessChan i) recSession bytes

/-- A command that changed data or a record has them in the buffer: it completes, or, while writes complete only after
programming (R320), waits for its slots and its records. -/
def finishCommit (s : State) (w : SyncWait) : State :=
  let (s, w) := match w.append with
    | some (i, _, _) => (noteSession s i 16, { w with chans := w.chans ++ [i % 48] })
    | none => (s, w)
  if syncHolds s w then
    w.chans.foldl (fun a n => destage a (chIx (n % 48)) true) { s with syncWait := s.syncWait ++ [w] }
  else endCommit s w

/-- A command that changed a session's descriptor completes. -/
def finishSession (s : State) (k : CmdKey) (i dw0 : Nat) : State :=
  finishCommit (noteSession s i 512) { key := k, dw0 := dw0, chans := [i % 48] }

def finishData (s : State) (k : CmdKey) (nsid : Nat) (slots : List Nat) (segs : List Segment) (dw0 dw1 : Nat) : State :=
  finishCommit s { key := k, slots := slots, nsid := nsid, segs := segs, dw0 := dw0, dw1 := dw1 }

/-- The end of an NVM command that changed data. -/
def finishWrite (s : State) (k : CmdKey) (nsid : Nat) (slots : List Nat) (segs : List Segment) : State :=
  finishData s k nsid slots segs 0 0

/-- Write bytes of a namespace through the buffer and add the slots to a list. -/
def putSlots (nsid : Nat) (a : State × List Nat) (w : Nat × Bytes) : State × List Nat :=
  match a.1.nss.get? nsid with
  | none => a
  | some n =>
    let (s, l) := bufferWrite a.1 nsid w.1 w.2 n
    (s, a.2 ++ l)

/-- Release whole units of a range, zero its bytes, and put the units it covers in part into the buffer (R274).
Answers the slots. -/
def releaseRange (s : State) (nsid : Nat) (n : Ns) (off len : Nat) : State × List Nat :=
  let s := deallocate s nsid off len n
  ((unitsOf n off len).filter fun u => !u.2).foldl (fun (a : State × List Nat) u =>
    if (entryOf a.1 nsid u.1).st = .dealloc then a
    else
      let (t, l) := bufferUnit a.1 nsid u.1 n
      (t, a.2 ++ l)) (s, [])

/-- Slots that a command which changes data needs: one that releases blocks, those of the units it covers in part, and of the
journal records of all. -/
def changeSlots (e : Sqe) (opc : Nat) (n : Ns) : Nat :=
  sumNat ((byteRanges e opc).map fun r =>
    let us := unitsOf n r.1 r.2
    if releases e opc then (us.filter fun u => !u.2).length * (iuBytes n / 4096) + journalSlots us.length
    else slotsNeeded n r.1 r.2)

/-- Carry out an NVM command whose data can be had. -/
def nvmApply (s : State) (e : Sqe) (opc : Nat) (n : Ns) : State :=
  let off := slbaOf e * 4096
  let len := nlbOf e * 4096
  if opc = opDsm ∧ !deallocates e then complete s e.key Code.ok 0 0
  else if changesData e opc then
    let rs := byteRanges e opc
    let segs := rs.flatMap fun r => segmentsOf r.1 r.2 (opc == opWrite)
    if freeSlots s < changeSlots e opc n ∨ !segmentRoom s e.nsid segs.length then waitJob s e opc true
    else
      let s := onCtrl s e.fn fun c => { c with writtenUnits := c.writtenUnits + (if opc = opWrite then 8 * nlbOf e else 0) }
      if releases e opc then
        let (s, l) := rs.foldl (fun (a : State × List Nat) r =>
          let (t, l) := releaseRange a.1 e.nsid n r.1 r.2
          (t, a.2 ++ l)) (s, [])
        finishWrite s e.key e.nsid l segs
      else
        let b := if opc = opWrite then Bytes.sub e.inp 0 len else List.replicate len 0
        let (s, l) := bufferWrite s e.nsid off b n
        finishWrite s e.key e.nsid l segs
  else
    let data := readMedia s e.nsid off len
    let s := onCtrl s e.fn fun c => { c with readUnits := c.readUnits + 8 * nlbOf e }
    if opc = opCompare then
      if data = Bytes.sub e.inp 0 len then complete s e.key Code.ok 0 0 else fail s e.key Code.compareFailure e.nsid (slbaOf e)
    else if opc = opVerify then complete s e.key Code.ok 0 0
    else
      let s := hostWrite s e.key 0 data
      let s := if ((flightOf s e.key).map (·.cls)) = some 0 ∧ len ≤ 16384 then (c0Record s e.key (!wasOutside s e.key)).1 else s
      complete s e.key Code.ok 0 0

/-- An NVM command: its checks, then its flash reads, then its effect. -/
def nvmBody (e : Sqe) (opc : Nat) (readDone : Bool) (s : State) : State :=
  match nsFor s e.fn e.nsid with
  | none => fail s e.key Code.invalidNs e.nsid
  | some n =>
    match nvmRefuse s e opc n with
    | some (c, lba) => fail s e.key c e.nsid lba
    | none =>
      let flash := onFlash s e.nsid (unitsNeeded e opc n)
      if readDone ∨ flash = [] then nvmApply s e opc n
      else
        let cls := ((flightOf s e.key).map (·.cls)).getD (queueClass s e.key)
        flash.foldl (fun a u => issueRead a e.key cls e.nsid u) (waitJob s e opc false)

/-- Run every job again that waits for nothing more than its turn, in order. -/
def retryJobs (s : State) : State :=
  s.jobs.foldl (fun a j =>
    if readsPending a j.e.key then a
    else nvmBody j.e j.opc true { a with jobs := a.jobs.erase j }) s

/-- Complete the commands that need not go on waiting. -/
def finishSync (s : State) : State :=
  (s.syncWait.filter (!syncHolds s ·)).foldl endCommit { s with syncWait := s.syncWait.filter (syncHolds s) }

/-- What follows the end of a flash operation: dies start their next, full units destage, waiting commands go on. -/
def afterMedia (s : State) (ch : Fin 48) : State :=
  retryJobs (finishSync (startAll (destage s ch (syncMode s)) ch))

/-- Take a command out of everything that waits in the flash layer (R279, R281, R282). -/
def cancelJob (s : State) (k : CmdKey) : State :=
  let s := { s with jobs := s.jobs.filter fun j => j.e.key != k, syncWait := s.syncWait.filter fun w => w.key != k }
  cancelReads s k

/-! ### Ends of flash reads -/

/-- The account and session that a flash read is charged to. -/
def charged (s : State) (o : NandOp) : Nat × Option Nat :=
  match o.cmd with
  | some k => (acctOf k.fn, (flightOf s k).bind (·.session))
  | none => (((s.nss.get? o.nsid).map (·.account)).getD 0, none)

/-- Charge the bytes of a page read (Table 10-6). -/
def chargeRead (s : State) (o : NandOp) : State :=
  let (a, i) := charged s o
  charge s a i fFlashRd (((s.nss.get? o.nsid).map iuBytes).getD 4096)

/-- The data of a command's read crosses the root link. -/
def linkRead (s : State) (o : NandOp) : State :=
  let (a, i) := charged s o
  chargeLink s a i (if o.cmd.isSome then ((s.nss.get? o.nsid).map iuBytes).getD 4096 else 0)

/-- Note a read of a block: its count, its recorded offset, and whether it enters the refresh list (R324, R331). -/
def noteRead (s : State) (ch : Fin 48) (b step bits offset : Nat) : State :=
  let s := if step = 0 then s else bump (0x612000 + step) 1 s
  onChan s ch fun c =>
    let c := onBlock c b fun x =>
      { x with reads := x.reads + 1, offset := if 1 ≤ step ∧ step ≤ 4 then some offset else x.offset }
    if 2 ≤ step ∨ dv s 0x302001 ≤ bits ∨ dv s 0x302002 ≤ (blockOf c b).reads then listRefresh c b else c

/-- The unit whose codewords include a flash address of a channel. -/
def unitAt (s : State) (ch : Fin 48) (addr : Nat) : Option (Nat × Nat) :=
  (validIn s ch (blockAt addr)).find? fun p => p.2 == addr || (p.2 / 4 == addr / 4 && widthOfKey s p.1 == 4)

/-- DETAIL of event 0x0005. -/
def unrecoveredDetail (nsid lba ch die step : Nat) : Bytes :=
  toLe 4 nsid ++ toLe 8 lba ++ toLe 1 ch ++ toLe 1 die ++ toLe 1 step

/-- First logical block of a unit. -/
def firstLba (s : State) (nsid iu : Nat) : Nat := iu * (((s.nss.get? nsid).map iuBytes).getD 4096 / 4096)

/-- A ladder is exhausted (R325, R328): the unit is unrecovered, its block is listed for refresh, a move drops it, the
event is recorded, and the reads that waited end. -/
def exhaust (s : State) (ch : Fin 48) (addr step : Nat) (k : Option CmdKey) : State :=
  let s := bump 0x612006 1 s
  let s := onHealth s fun h => { h with mediaErrors := h.mediaErrors + 1 }
  let s := onChan s ch fun c =>
    let (c, _) := dropOps { c with ladders := c.ladders.del addr } fun o => o.ladder && o.addr == addr
    let c := { c with dieActive := c.dieActive.mapVals fun _ o => if o.ladder ∧ o.addr = addr then { o with cmd := none } else o }
    listRefresh c (blockAt addr)
  let s := match unitAt s ch addr with
    | none => s
    | some (key, loc) =>
      let s := setEntry s (key / 2 ^ 48) (key % 2 ^ 48) { st := .unrecovered, loc := loc }
      let s := onChan s ch fun c =>
        { c with moves := c.moves.map fun m => { m with ius := m.ius.filter fun p => p.1 != key } }
      logEvent s (dieOfCh ch.val) 0x0005 ((k.map (whoIn s)).getD { account := ((s.nss.get? (key / 2 ^ 48)).map (·.account)).getD 0 })
        (unrecoveredDetail (key / 2 ^ 48) (firstLba s (key / 2 ^ 48) (key % 2 ^ 48)) ch.val (dieOfBlock (blockAt addr)) step)
  retryJobs s

/-- Queue the next read of a ladder. -/
def ladderRead (s : State) (ch : Fin 48) (o : NandOp) : State :=
  let c := s.channels[ch]
  enqueue s ch (servingDie c o.block) { o with ladder := true }

end Sys2Proof.Machine
end

