-- ==== Sys2Proof/Machine/Philox.lean ====
section
/-! DEFINITION. Random bits (spec 08): the counter generator (R192 to R194), Bernoulli masks (R201) and the legacy
shift generator (R204, R205). -/

namespace Sys2Proof.Rand

/-- The state of a Philox computation: the four words and the two key words. -/
structure Lane where
  x0 : Nat
  x1 : Nat
  x2 : Nat
  x3 : Nat
  k0 : Nat
  k1 : Nat
  deriving DecidableEq, Repr

/-- One round (R193); `last` leaves the key as it is. -/
def round (s : Lane) (last : Bool) : Lane :=
  let p0 := 0xD2511F53 * s.x0
  let p1 := 0xCD9E8D57 * s.x2
  { x0 := (p1 / 2 ^ 32).xor (s.x1.xor s.k0), x1 := p1 % 2 ^ 32
    x2 := (p0 / 2 ^ 32).xor (s.x3.xor s.k1), x3 := p0 % 2 ^ 32
    k0 := if last then s.k0 else (s.k0 + 0x9E3779B9) % 2 ^ 32
    k1 := if last then s.k1 else (s.k1 + 0xBB67AE85) % 2 ^ 32 }

/-- A block of the counter generator: seed, stream id, logical element index, draw number (R192, Table 8-1). -/
def block (seed : W64) (stream : W32) (elem : Nat) (draw : W32) : List Nat :=
  let s : Lane := { x0 := draw.toNat, x1 := stream.toNat, x2 := elem % 2 ^ 32, x3 := elem / 2 ^ 32 % 2 ^ 32
                    k0 := seed.toNat % 2 ^ 32, k1 := seed.toNat / 2 ^ 32 }
  let r := (List.range 10).foldl (fun a i => round a (i == 9)) s
  [r.x0, r.x1, r.x2, r.x3]

/-- 64-bit value of a block (R194). -/
def val64 (b : List Nat) : Nat := b.getD 0 0 + 2 ^ 32 * b.getD 1 0

/-- 16-bit value `h` of a block (R194). -/
def val16 (b : List Nat) (h : Nat) : Nat :=
  let w := b.getD (h / 2) 0
  if h % 2 = 0 then w % 65536 else w / 65536

/-- Bit of a Bernoulli mask with parameter `k` at a logical element (R201, Table 8-2). -/
def maskBit (seed : W64) (stream : W32) (elem : Nat) (draw : W32) (k : Nat) : Bool :=
  if k = 0 then false
  else if 65536 ≤ k then true
  else decide (val16 (block seed stream (elem / 8) draw) (elem % 8) < k)

/-- Seed of the shift generator's column word (R205). -/
def sgSeed (seed : W64) (e n : Nat) : W64 :=
  let x := seed ^^^ (0x9E3779B97F4A7C15#64 * BitVec.ofNat 64 (512 * e + n + 1))
  if x = 0 then 1 else x

/-- The column words of a session's generators at SESSION-OPEN: engine e of its grant and column n at 512 e + n (R205). -/
def sgStart (seed : W64) : Tab W64 := (List.range 2048).map fun k => (k, sgSeed seed (k / 512) (k % 512))

/-- One step of the shift generator (R205). -/
def sgStep (x : W64) : W64 :=
  let x := x ^^^ (x <<< 13)
  let x := x ^^^ (x >>> 7)
  x ^^^ (x <<< 17)

end Sys2Proof.Rand
end

