-- ==== Sys2Proof/Machine/SessOps.lean ====
section
/-! DEFINITION. Operations on sessions: session-region space, residency, grants, extents, stored tokens and block
summaries (spec 05, spec 10), and the flight log (spec 18). -/

namespace Sys2Proof.Machine

/-! ### Counters of roundings and quantisations (R51) -/

/-- Count what final roundings reported. -/
def countRound (s : State) (f : RoundFlags) : State :=
  bump 0x605005 f.invalid (bump 0x605004 f.sat (bump 0x605003 f.ovf (bump 0x605002 f.loss s)))

/-- Count a quantised scope. -/
def countQuant (s : State) (zero : Bool) (sat invalid : Nat) : State :=
  bump 0x605005 invalid (bump 0x605004 sat (bump 0x605001 (if zero then 1 else 0) s))

/-! ### Session-region space (R20, R480) -/

def sessFree : BitVec 3 := 0
def sessOpen : BitVec 3 := 1
def sessClosing : BitVec 3 := 2
def sessMoving : BitVec 3 := 3
def resHot : BitVec 2 := 0
def resWarm : BitVec 2 := 1
def resCold : BitVec 2 := 2

def pageBytes : Nat := 16384

/-- Token count of a layer. -/
def tokensOf (x : Sess) (l : Nat) : Nat := (x.layerTbl.getD l {}).count.toNat

/-- Index and summary pages of a session (R113). -/
def metaPages (x : Sess) : Nat :=
  2 * x.kvHeads * sumNat ((List.range x.layers).map fun l => ceilDiv (tokensOf x l) 4096)

/-- Session-region bytes of a Hot or Warm session (R480). -/
def warmBytes (x : Sess) : Nat :=
  roundUp (8 * x.layers + ceilDiv x.layers 8) 4096 + 136 * 1024 + 65536 * x.spillTiles
    + pageBytes * (x.extPages.length + metaPages x)

/-- Session-region bytes that a session holds now. -/
def heldBytes (x : Sess) : Nat := if x.res = resCold then 0 else warmBytes x

/-- Bytes of a table row (R174). -/
def rowSize (t : Table) : Nat := 4 + (if t.code4 then t.dim / 2 else t.dim)

/-- Session-region bytes of a table: its rows and spare rows (R173). -/
def tableBytes (t : Table) : Nat := (t.rows + t.spareRows) * rowSize t

/-- Session-region bytes of an index: its codebook, and its code table in steps of 64 KiB (R139). -/
def codebookBytes (vdim csub : Nat) : Nat := 16 * vdim + 96 * csub
def indexBytes (x : Index) : Nat := 65536 * x.codeSteps + codebookBytes x.vdim x.csub

/-- Session-region bytes of an account, or of the module. -/
def usedBy (s : State) (p : Nat → Bool) : Nat :=
  sumNat ((s.sess.filter fun x => p x.2.account).map fun x => heldBytes x.2)
    + sumNat ((s.tables.filter fun x => p x.2.account).map fun x => tableBytes x.2)
    + sumNat ((s.indexes.filter fun x => p x.2.account).map fun x => indexBytes x.2)
    + sumNat ((s.poolGrants.filter fun g => p g.1).map fun g => g.2.2)

def regionUsed (s : State) : Nat := usedBy s fun _ => true
def regionFree (s : State) : Nat := regionBytes s - regionUsed s

/-- Would `need` more bytes pass an account's session-region quota (R267)? A quota of 0 is no limit. -/
def overQuota (s : State) (acct need : Nat) : Bool :=
  let q := dv s (0x405000 + acct) * 2 ^ 20
  q != 0 && decide (q < usedBy s (· == acct) + need)

/-! ### Residency and grants (R232, R233, R241, R245, R449) -/

/-- The session of an id that the submitting account owns (R230). -/
def sessFor (s : State) (fn : Fin 128) (id : Nat) : Option Sess :=
  match s.sess.get? id with
  | some x => if x.state ≠ sessFree ∧ x.account = acctOf fn then some x else none
  | none => none

/-! ### Places of blocks and pages (R111, R113) -/

/-- Extents of a session in table order: KV, metadata, flight. -/
def kvExts (x : Sess) : List Nat := (x.extents.filter fun e => !e.2.1).map (·.1)
def metaExts (x : Sess) : List Nat := (x.extents.filter fun e => e.2.1 && !e.2.2).map (·.1)
def flightExts (x : Sess) : List Nat := (x.extents.filter fun e => e.2.2).map (·.1)

/-- The unit of a KV block and of a metadata page, where its extent is allocated. -/
def kvUnit (x : Sess) (n : Nat) : Option Nat := ((kvExts x)[n / 65536]?).map fun u => u + n % 65536
def metaUnit (x : Sess) (m : Nat) : Option Nat := ((metaExts x)[m / 65536]?).map fun u => u + m % 65536

/-- Block number (R111) and metadata number of an index page (R113). -/
def blockNo (x : Sess) (l h g : Nat) : Nat := (g * x.layers + l) * x.kvHeads + h
def metaNo (x : Sess) (l h j : Nat) : Nat := 2 * (j * x.layers * x.kvHeads + l * x.kvHeads + h)

/-! ### Pool copies of index and summary pages (R113, R231) -/

/-- Is a unit of a namespace unrecovered? -/
def unitLost (s : State) (nsid u : Nat) : Bool := (entryOf s nsid u).st == .unrecovered

/-- Words, counted from its start, that bytes of a table touch. -/
def wordSpan (lo n : Nat) : List Nat := (List.range ((lo + n - 1) / 32 + 1 - lo / 32)).map (lo / 32 + ·)

/-- The pool words of a block's entry of a metadata page: 256 bytes. -/
def entryCopy (i m r : Nat) : Nat := sessCopies i + pageBytes * m + 256 * r

/-- Copy a block's entry of a metadata page from flash into the pool, under the owner's tag. -/
def loadEntry (s : State) (i : Nat) (x : Sess) (m r : Nat) : State :=
  (metaUnit x m).elim s fun u =>
    (writeMem s (entryCopy i m r) (readMedia s x.kvNsid (u * pageBytes + 256 * r) 256) (tagOf s x.account)).1

/-- The metadata pages of a layer and KV head, with the number of entries in use: index page, summary page. -/
def headPages (x : Sess) (l h blocks : Nat) : List (Nat × Nat) :=
  (List.range (ceilDiv blocks 64)).flatMap fun j =>
    [(metaNo x l h j, min 64 (blocks - 64 * j)), (metaNo x l h j + 1, min 64 (blocks - 64 * j))]

/-- The metadata pages of a session. -/
def sessPages (x : Sess) : List (Nat × Nat) :=
  (List.range x.layers).flatMap fun l => (List.range x.kvHeads).flatMap fun h => headPages x l h (ceilDiv (tokensOf x l) 64)

/-- Load the pool copy of a page: its entries in use; the others stay unwritten. -/
def loadPage (s : State) (i : Nat) (x : Sess) (p : Nat × Nat) : State := (List.range p.2).foldl (fun a r => loadEntry a i x p.1 r) s

/-- Load a session's copies; what they are read from and written to is charged to its account (R232). -/
def loadPages (s : State) (i : Nat) (x : Sess) : State :=
  let ps := sessPages x
  let n := pageBytes * (ps.length + x.extPages.length)
  let s := ps.foldl (fun a p => loadPage a i x p) s
  charge (chargeFlash s x.account (some i) n) x.account (some i) fPoolWr n

/-- What reading the pool copy of a block's entry comes to: one that fails its check code is loaded again from its page on
flash. It names the page whose flash copy cannot be read (R130). -/
def entryRead (i : Nat) (x : Sess) (q : Nat × Nat) (p : State × Except Check.Outcome Bytes) : State × Option Nat :=
  if p.2.isOk then (charge p.1 x.account (some i) fPoolRd 256, none)
  else
    (metaUnit x q.1).elim (p.1, none) fun u =>
      if unitLost p.1 x.kvNsid u then (p.1, some u)
      else (loadEntry (chargeFlash p.1 x.account (some i) pageBytes) i x q.1 q.2, none)

/-- One step of reading entries: after a page that cannot be read, no more are. -/
def readEntry (i : Nat) (x : Sess) (a : State × Option Nat) (q : Nat × Nat) : State × Option Nat :=
  a.2.elim (entryRead i x q (readMem a.1 (entryCopy i q.1 q.2) 256 (tagOf a.1 x.account))) fun _ => a

/-- A session's copies leave the pool. -/
def clearPages (s : State) (i : Nat) : State :=
  { s with mem := s.mem.clear (sessCopies i) (2 ^ 45), chk := s.chk.clear (sessCopies i / 8) (2 ^ 42) }

/-- A session becomes Cold: what it holds in the session region is freed (R480). -/
def becomeCold (s : State) (i : Nat) : State := clearPages (onSess s i fun x => { x with res := resCold }) i

/-! ### Promotion and demotion (R232, R233) -/

/-- May a session be demoted now? -/
def demotable (x : Sess) : Bool :=
  x.res == resWarm && x.cls != 0 && !x.pin && x.inflight == 0 && x.state == sessOpen

/-- The Warm session that is demoted next: Class 3 first, then the oldest LAST_USE, then the lower id. -/
def nextDemoted (s : State) (keep : Option Nat) : Option Nat :=
  let cand := s.sess.filter fun p => demotable p.2 && some p.1 != keep
  (cand.foldl (fun (a : Option (Nat × Sess)) p => match a with
    | none => some p
    | some q =>
      if q.2.cls.toNat < p.2.cls.toNat ∨ (q.2.cls = p.2.cls ∧ p.2.lastUse.toNat < q.2.lastUse.toNat) then some p
      else some q) none).map (·.1)

/-- Demote Warm sessions until `need` bytes are free or none is left to demote. -/
def makeRoom (s : State) (need : Nat) (keep : Option Nat) : Nat → State
  | 0 => s
  | n + 1 =>
    if need ≤ regionFree s then s
    else match nextDemoted s keep with
      | none => s
      | some i => makeRoom (becomeCold s i) need keep n

/-- Free `need` bytes of the session region where that can be done. -/
def freeRegion (s : State) (need : Nat) (keep : Option Nat) : State × Bool :=
  let s := makeRoom s need keep s.sess.length
  (s, decide (need ≤ regionFree s))

/-- Make a Cold session Warm (R232); it stays Cold where the space cannot be freed (R233), or would pass its account's quota
(R267). -/
def makeWarm (s : State) (i : Nat) : State × Bool :=
  match s.sess.get? i with
  | none => (s, false)
  | some x =>
    if x.res ≠ resCold then (s, true)
    else
      if overQuota s x.account (warmBytes x) then (s, false)
      else
        match freeRegion s (warmBytes x) (some i) with
        | (t, true) => (loadPages (onSess t i fun x => { x with res := resWarm }) i x, true)
        | (t, false) => (t, false)

/-- Engines of a core in service. -/
def enginesOf (c : Core) : Nat := (c.engines.toList.filter fun e => !e.graft.retired).length

/-- Sessions whose grant holds a core. -/
def holders (s : State) (c : Nat) : List Nat :=
  (s.sess.filter fun p => p.2.res == resHot && bitOf p.2.grant.toNat c).map (·.1)

/-- Cores that a session may be granted (R241, R245, R246, R449, R450). -/
def grantable (s : State) (x : Sess) : List Nat :=
  (List.range 8).filter fun c =>
    let k := s.cores[coreIx c]
    !k.retired && decide (0 < enginesOf k) && (x.cls != 0 || bitOf (c0Cores s) c)
      && decide (x.grantMe.toNat ≤ enginesOf k) && (!x.sg || x.grantMe == 0 || x.grantMe.toNat == enginesOf k)

/-- Has an account a program whose largest tile so far exceeds the Class 0 core cost ceiling (R238)? -/
def bigTiles (s : State) (acct : Nat) : Bool :=
  s.ctrls.toList.any fun c => c.programs.any fun p => p.2.account == acct && decide (dv s 0x402002 < p.2.largest)

/-- The core granted: for a session of Classes 1 to 3 whose tiles exceed the ceiling, one outside C0_CORES where there is one
(R238); then the one that fewest sessions hold; for Classes 1 to 3 a core outside C0_CORES on the home die first. One core
makes a grant. DESIGN CHOICE, log 18: the spec leaves the count and the ties. -/
def chooseCore (s : State) (x : Sess) : Option Nat :=
  let far (c : Nat) : Bool := x.cls != 0 && bitOf (c0Cores s) c
  let big := bigTiles s x.account
  let rank (c : Nat) : Nat :=
    (if far c ∧ big then 2 ^ 32 else 0) + (holders s c).length * 4 + (if far c then 2 else 0) + (if c / 4 = x.homeDie.val then 0 else 1)
  (grantable s x).foldl (fun a c => match a with
    | none => some c
    | some b => if rank c < rank b then some c else some b) none

/-- Make a session Hot (R232): it is granted a core and takes a turn there. -/
def makeHot (s : State) (i : Nat) : State × Bool :=
  let (s, ok) := makeWarm s i
  match s.sess.get? i with
  | none => (s, false)
  | some x =>
    if x.res = resHot then (s, true)
    else if !ok then (s, false)
    else
      match chooseCore s x with
      | none => (s, false)
      | some c =>
        let me := enginesOf s.cores[coreIx c]
        let s := onSess s i fun x => { x with res := resHot, grant := BitVec.ofNat 8 (2 ^ c), grantMe := BitVec.ofNat 8 me }
        (onCore s (coreIx c) fun k => if x.cls = 0 ∨ k.turns.contains i then k else { k with turns := k.turns ++ [i] }, true)

/-- Bytes of a saved context: 136 KiB, and 4 KiB per engine of shift-generator state (R204, R239). -/
def savedBytes (b : Bank) : Nat := 136 * 1024 + 8 * b.sg.length

/-- Save a context to its session's CTX_AREA (R231, R239). -/
def saveContext (s : State) (i : Nat) (b : Bank) : State :=
  let acct := ((s.sess.get? i).map (·.account)).getD 0
  charge (onSess s i fun x => { x with ctxSaved := some { b with session := none } }) acct (some i) fPoolWr (savedBytes b)

/-- A session leaves every core: its context is saved to CTX_AREA and its turns end (R231, R239). -/
def leaveCores (s : State) (i : Nat) : State :=
  (List.finRange 8).foldl (fun a c =>
    let k := a.cores[c]
    let saved := if k.bankA.session = some i then some k.bankA else if k.bankB.session = some i then some k.bankB else none
    let a := match saved with
      | some b => saveContext a i b
      | none => a
    onCore a c fun k =>
      { k with turns := k.turns.filter (· != i)
               bankA := if k.bankA.session = some i then {} else k.bankA
               bankB := if k.bankB.session = some i then {} else k.bankB }) s

/-! ### Data tiles of a core (R219, R237, R240, R241) -/

/-- Number of a data tile within its core: 0 to 383 in scratch, from 512 on in the tile store of its die. -/
def localTile (t : Nat) : Nat := if t < 2 ^ 25 then t % 512 else 512 + t % 1024

/-- The data tile of a core with such a number. -/
def tileAt (c l : Nat) : Nat := if l < 512 then 2 ^ 24 + c * 512 + l else 2 ^ 25 + c / 4 * 1024 + (l - 512)

/-- The canopy die of a data tile. -/
def tileDie (t : Nat) : Nat := if t < 2 ^ 25 then t / 512 % 8 / 4 else t / 1024 % 2

/-- Does a data tile hold what a session has away from its place? -/
def parkedTile (s : State) (t : Nat) : Bool := s.sess.any fun p => p.2.away.any fun q => q.2.2 == some t

/-- Data tiles granted to an account for a session, or for none, in a core's scratch, and in its die's tile store with the
core's write grant; not those that only hold what is away from its place. -/
def heldTiles (s : State) (c acct : Nat) (o : Option Nat) : List Nat :=
  (s.tileDir.filter fun p => p.2.granted && p.2.account.toNat == acct && p.2.owner == o
    && (if p.1 < 2 ^ 25 then p.1 / 512 % 8 == c else p.1 / 1024 % 2 == c / 4 && p.2.wcore.toNat == c % 4)
    && !parkedTile s p.1).map (·.1)

/-- The grant of a data tile ends: GRANTED is cleared, no HOME (Table 9-6). -/
def dropTile (s : State) (t : Nat) : State := { s with tileDir := s.tileDir.del t, maxRec := s.maxRec.del t }

/-- Where the spill area of a session holds a data tile of such a local number (DESIGN CHOICE, log 15). -/
def spillTile (i l : Nat) : Nat := tileNo (sessCopies i) + 2 ^ 29 + l

/-- Change what a session has away from its place; SPILL_TILES counts what its spill area holds. -/
def setAway (s : State) (i : Nat) (f : Tab (TileDirE × Option Nat) → Tab (TileDirE × Option Nat)) : State :=
  onSess s i fun x =>
    let a := f x.away
    { x with away := a, spillTiles := (a.filter fun q => q.2.2 == some (spillTile i q.1)).length }

/-- Spill a data tile to its session's spill area. -/
def spillOut (s : State) (i t : Nat) : State :=
  let e := dirOf s t
  let acct := e.account.toNat
  let d := spillTile i (localTile t)
  let s := charge (carryTile s (tagOf s acct) t d) acct (some i) fPoolWr tileBytes
  setAway s i fun a => a.put (localTile t) (e, some d)

/-- Free a data tile (R219): a DIRTY one is written back to its HOME, or spilled to its session's spill area; an account that
runs without a session has no spill area (DESIGN CHOICE, log 73: such a tile is freed with no write). -/
def freeTile (s : State) (t : Nat) : State :=
  let s := writeBackTile s t
  let s := match (dirOf s t).owner with
    | some i => if (dirOf s t).state = tdDirty then spillOut s i t else s
    | none => s
  dropTile s t

/-- Free the data tiles of an account at a core that it holds for no session. -/
def freeTiles (s : State) (c acct : Nat) : State := (heldTiles s c acct none).foldl freeTile s

/-- Grant a data tile to an account, for a session where there is one (Table 9-6). -/
def grantTile (s : State) (t acct core : Nat) (o : Option Nat) (class0 : Bool) : State :=
  { s with
    tileDir := s.tileDir.put t { state := tdInvalid, granted := true, wcore := BitVec.ofNat 2 (core % 4),
                                 account := BitVec.ofNat 16 acct, class0 := class0, owner := o }
    maxRec := s.maxRec.del t }

/-- A tile of a die's tile store that nobody holds. -/
def freeStoreTile (s : State) (d : Nat) : Option Nat :=
  ((List.range 1024).map (tileNo (storeBase d) + ·)).find? fun t => !(dirOf s t).granted && !s.repair.badTiles.contains t

/-- Send a data tile of a session away from its place (R240, R241 step 5): a CLEAN one is dropped, its HOME holds its contents;
a DIRTY one is spilled to its die's tile store where that has room, else to the spill area; an INVALID one has no contents. -/
def sendAway (s : State) (i t : Nat) : State :=
  let e := dirOf s t
  let l := localTile t
  if e.state = tdInvalid then dropTile (setAway s i fun a => a.put l (e, none)) t
  else if e.state = tdClean ∧ e.home ≠ noHome then dropTile (setAway s i fun a => a.put l (e, some e.home.toNat)) t
  else
    match if t < 2 ^ 25 then freeStoreTile s (tileDie t) else none with
    | some p =>
      let s := carryTile s (tagOf s e.account.toNat) t p
      let s := { s with tileDir := s.tileDir.put p { e with class0 := false } }
      dropTile (setAway s i fun a => a.put l (e, some p)) t
    | none => dropTile (spillOut s i t) t

/-- Free a place for another tile: what a session holds there is sent away, what an account holds for none is freed. -/
def evict (s : State) (t : Nat) : State :=
  match (dirOf s t).owner with
  | some i => sendAway s i t
  | none => freeTile s t

/-- Evict tiles: CLEAN ones first, then the others by least recent use (R241 step 5). -/
def evictAll (s : State) (l : List Nat) : State :=
  let first (t : Nat) : Nat := if (dirOf s t).state = tdClean then 0 else 1
  (sortBy (fun a b : Nat => decide (first a < first b) || (first a == first b && decide ((dirOf s a).used < (dirOf s b).used))) l).foldl
    evict s

/-- Does a Class 0 session hold scratch tiles of a core? -/
def class0Tiles (s : State) (c : Fin 8) : Bool :=
  (List.range 384).any fun i => (dirOf s (tileNo (scratchBase c) + i)).granted && (dirOf s (tileNo (scratchBase c) + i)).class0

/-- The Class 0 partition of a core, its first data tiles: a change to 0x4020.01 takes effect while no Class 0 session
holds tiles there (R237). -/
def partOf (s : State) (c : Fin 8) : Nat := if class0Tiles s c then s.cores[c].part else dv s 0x402001

/-- The partition that is in force as tiles of a core are granted. -/
def fixPart (s : State) (c : Fin 8) : State := let n := partOf s c; onCore s c fun k => { k with part := n }

/-- Bring a tile of a session back to its place on a core, which nobody holds (R240, R241 step 6). -/
def bringTile (s : State) (i acct c l : Nat) (e : TileDirE) (at_ : Option Nat) : State :=
  let t := tileAt c l
  let s := match at_ with
    | some p =>
      let s := carryTile s (tagOf s acct) p t
      if isDataTile p then dropTile s p else charge s acct (some i) fPoolRd tileBytes
    | none => s
  let e := { e with granted := true, account := BitVec.ofNat 16 acct, wcore := BitVec.ofNat 2 (c % 4), owner := some i }
  setAway { s with tileDir := s.tileDir.put t e } i fun a => a.del l

/-- Bring a session's tiles back to their places on a core; what another session holds there is sent away first (R240). A
place that is no longer granted (R225) takes none: that tile stays away (DESIGN CHOICE, log 73). -/
def bringTiles (s : State) (i : Nat) (c : Fin 8) : State :=
  match s.sess.get? i with
  | none => s
  | some x =>
    let l := x.away.filter fun p => !s.repair.badTiles.contains (tileAt c p.1)
    let s := fixPart s c
    let s := evictAll s ((l.map fun p => tileAt c p.1).filter fun t => (dirOf s t).granted && (dirOf s t).owner != some i)
    l.foldl (fun a p => bringTile a i x.account c p.1 p.2.1 p.2.2) s

/-- What a session has away in data tiles of a tile store that satisfies a test goes to its spill area. -/
def unpark (s : State) (i : Nat) (p : Nat → Bool) : State :=
  match s.sess.get? i with
  | none => s
  | some x =>
    let one (a : State) (q : Nat × TileDirE × Option Nat) : State :=
      match q.2.2 with
      | some t =>
        if isDataTile t && p t then
          let d := spillTile i q.1
          let a := charge (carryTile a (tagOf a x.account) t d) x.account (some i) fPoolWr tileBytes
          dropTile (setAway a i fun l => l.put q.1 (q.2.1, some d)) t
        else a
      | none => a
    x.away.foldl one s

/-- Release a session's grant (R219, R232): its tiles are freed, written back or spilled, those in a tile store too, and its
context is saved. -/
def dropGrant (s : State) (i : Nat) : State :=
  if !s.sess.has i then s
  else
    let s := unpark s i fun _ => true
    let s := ((s.tileDir.filter fun p => p.2.granted && p.2.owner == some i).map (·.1)).foldl freeTile s
    onSess (leaveCores s i) i fun x => { x with res := if x.res = resHot then resWarm else x.res, grant := 0 }

/-- The fetch of a command that names a session: LAST_USE, INFLIGHT, and the promotion of a Cold session (R228, R230,
R232). The answer says whether the session is served Cold. -/
def touchSession (s : State) (k : CmdKey) (i : Nat) : State × Bool :=
  let (s, ok) := makeWarm (nameSession s k i) i
  if ok then (s, false) else (bump 0x610003 1 s, true)

/-! ### Extents (R111, R113, R229) -/

/-- Numbers of the extents of a KV namespace that its sessions hold, and of its system-area units that hold a page. -/
def extentsHeld (s : State) (nsid : Nat) : List Nat :=
  (s.sess.filter fun p => p.2.kvNsid == nsid).flatMap fun p => p.2.extents.map fun e => e.1 / 65536
def pagesHeld (s : State) (nsid : Nat) : List Nat :=
  (s.sess.filter fun p => p.2.kvNsid == nsid).flatMap fun p => p.2.extPages

/-- The lowest number from `i` on that a list does not hold. -/
def lowestOut (l : List Nat) (i : Nat) : Nat → Nat
  | 0 => i
  | n + 1 => if l.contains i then lowestOut l (i + 1) n else i

/-- First unit of a free extent of a KV namespace: extents follow the 1 GiB system area in order of allocation (R229);
the lowest free one is taken (DESIGN CHOICE, log 18). -/
def freeExtent (s : State) (nsid : Nat) : Option Nat :=
  match s.nss.get? nsid with
  | none => none
  | some n =>
    let l := extentsHeld s nsid
    let u := 65536 * lowestOut l 1 l.length
    if (u + 65536) * 4 ≤ n.nsze then some u else none

/-- The lowest system-area unit that holds no page. -/
def freePage (s : State) (nsid : Nat) : Nat := lowestOut (pagesHeld s nsid) 0 (pagesHeld s nsid).length

/-- The bytes of an extent-table page: its entries, then the next page's unit number or all ones (R229). -/
def extPageBytes (x : Sess) (i : Nat) : Bytes :=
  let es := ((x.extents.drop (2047 * i)).take 2047).map fun e => e.1 + (if e.2.1 then 2 ^ 63 else 0)
  Bytes.sub (es.flatMap (toLe 8)) 0 (2047 * 8) ++ toLe 8 ((x.extPages[i + 1]?).getD (2 ^ 64 - 1))

/-- Write the extent-table pages of a session. -/
def writeExtTable (s : State) (i : Nat) : State :=
  match s.sess.get? i with
  | none => s
  | some x => (List.range x.extPages.length).foldl (fun a j =>
      match x.extPages[j]? with
      | some u => putMedia a x.kvNsid (u * pageBytes) (extPageBytes x j)
      | none => a) s

/-- Allocate an extent of a session; a full extent table takes another page of the system area. -/
def allocExtent (s : State) (i : Nat) (meta_ flight : Bool) : State × Option Nat :=
  match s.sess.get? i with
  | none => (s, none)
  | some x =>
    match freeExtent s x.kvNsid with
    | none => (s, none)
    | some u =>
      let more := x.extPages.length * 2047 ≤ x.extents.length
      let page := freePage s x.kvNsid
      let s := onSess s i fun x =>
        { x with extents := x.extents ++ [(u, meta_, flight)], extPages := if more then x.extPages ++ [page] else x.extPages }
      (writeExtTable s i, some u)

/-- Allocate extents until block or page number `m` has one; answers whether there was room. -/
def growTo (s : State) (i : Nat) (meta_ : Bool) (m : Nat) : Nat → State × Bool
  | 0 => (s, false)
  | n + 1 =>
    match s.sess.get? i with
    | none => (s, false)
    | some x =>
      if m / 65536 < (if meta_ then metaExts x else kvExts x).length then (s, true)
      else match allocExtent s i meta_ false with
        | (s, some _) => growTo s i meta_ m n
        | (s, none) => (s, false)

/-! ### Stored tokens and block summaries (R114 to R118) -/

/-- A stored token of a stream: scales and codes of its key and value. -/
structure Token where
  kscale : Nat
  vscale : Nat
  kcode : List Nat
  vcode : List Nat
  deriving DecidableEq, Repr, Inhabited

/-- Token `t` of the stream of layer `l` and KV head `h`. -/
def tokenAt (s : State) (x : Sess) (l h t : Nat) : Token :=
  let g := t / 64
  let i := t % 64
  let kb := ((kvUnit x (blockNo x l h g)).getD 0) * pageBytes
  let mb := ((metaUnit x (metaNo x l h (g / 64))).getD 0) * pageBytes + 256 * (g % 64)
  { kscale := leNat (readMedia s x.kvNsid (mb + 2 * i) 2)
    vscale := leNat (readMedia s x.kvNsid (mb + 128 + 2 * i) 2)
    kcode := (readMedia s x.kvNsid (kb + 128 * i) x.headDim).map BitVec.toNat
    vcode := (readMedia s x.kvNsid (kb + 0x2000 + 128 * i) x.headDim).map BitVec.toNat }

/-- A decoded key, exact (R115). -/
def keyOf (t : Token) : List (Int × Int) := t.kcode.map fun c => Num.mulDy (Num.dy 7 t.kscale) (Num.dy 5 c)

/-- FP32 code, rounded up, of the norm of exact values. -/
def normUp (vs : List (Int × Int)) : Nat :=
  let (m, e) := Num.sumDy (vs.map fun v => Num.mulDy v v)
  let (n, d) := Num.sqrtDy m e
  Num.ru32 n d

/-- A block summary (Table 5-3), without its position fields. -/
structure Summary where
  count : Nat
  opened : Bool
  cscale : Nat
  kmax : Nat
  radius : Nat
  centroid : List Nat
  deriving DecidableEq, Repr, Inhabited

/-- The quantised centroid of the 64 decoded keys of a full block (R117). -/
def centroidOf (dim : Nat) (ts : List Token) : Num.Quant :=
  let keys := ts.map keyOf
  let mean (d : Nat) : Num.Val :=
    let (m, e) := Num.sumDy (keys.map fun k => k.getD d (0, 0))
    .fin m (e - 6)
  Num.quantSym 5 ((List.range dim).map mean)

/-- The summary of the tokens of a block (R117). -/
def summaryOf (dim : Nat) (ts : List Token) : Summary :=
  let keys := ts.map keyOf
  let kmax := maxNat (keys.map normUp)
  if ts.length < 64 then
    { count := ts.length, opened := true, cscale := 0, kmax := kmax, radius := 0, centroid := List.replicate dim 0 }
  else
    let q := centroidOf dim ts
    let cen := q.codes.map fun c => Num.mulDy (Num.dy 7 q.scale) (Num.dy 5 c)
    let dist (k : List (Int × Int)) : Nat := normUp ((k.zip cen).map fun p => Num.sumDy [p.1, (-p.2.1, p.2.2)])
    { count := 64, opened := false, cscale := q.scale, kmax := kmax, radius := maxNat (keys.map dist), centroid := q.codes }

/-- The 256 bytes of a summary. -/
def summaryBytes (y : Summary) (firstPos gen n : Nat) : Bytes :=
  Bytes.sub (toLe 8 firstPos ++ toLe 1 y.count ++ toLe 1 (if y.opened then 1 else 0) ++ toLe 2 y.cscale ++ toLe 4 y.kmax
    ++ toLe 4 y.radius ++ toLe 4 gen ++ toLe 8 n) 0 128 ++ Bytes.sub (y.centroid.map (BitVec.ofNat 8)) 0 128

/-! ### The flight log (R454 to R457) -/

def flightExtentBytes : Nat := 2 ^ 30

/-- Bytes of an entry. -/
def flightLen (f : FlightEntry) : Nat :=
  144 + roundUp f.inp.length 8 + roundUp f.out.length 8 + roundUp f.snap.length 8

/-- An entry as bytes (Table 18-8). -/
def flightBytes (f : FlightEntry) : Bytes :=
  let pad (b : Bytes) : Bytes := Bytes.sub b 0 (roundUp b.length 8)
  toLe 4 (flightLen f) ++ toLe 1 f.kind.toNat ++ toLe 1 f.opc.toNat ++ toLe 2 f.status.toNat ++ toLe 8 f.logSeq.toNat
    ++ toLe 8 f.epoch.toNat ++ toLe 8 f.timestamp.toNat ++ toLe 4 f.gen.toNat ++ toLe 4 f.draw0.toNat
    ++ toLe 4 f.nsid.toNat ++ toLe 4 0 ++ Bytes.sub (bytesOf f.cdw) 0 24 ++ Bytes.sub f.imageHash 0 48
    ++ toLe 4 f.inp.length ++ toLe 4 f.out.length ++ toLe 4 f.snap.length ++ toLe 4 0 ++ toLe 8 f.tileSeq0.toNat
    ++ pad f.inp ++ pad f.out ++ pad f.snap

/-- The first page of a flight extent (R455). -/
def flightMarker : Bytes := [0xFF, 0xFF, 0x4B, 0x47, 0x46, 0x4C]

/-- Take a new flight extent for a session: a fresh one below the limit of 0x6160.01, else the oldest, whose entries
are dropped (R455). Answers whether there is one. -/
def nextFlightExtent (s : State) (i : Nat) : State × Bool :=
  match s.sess.get? i with
  | none => (s, false)
  | some x =>
    let live := flightExts x
    let (s, got) := if live.length < dv s 0x616001 then allocExtent s i true true else (s, none)
    match got with
    | some u =>
      let s := putMedia s x.kvNsid (u * pageBytes) flightMarker
      (onSess s i fun x => { x with logExt := x.logExt + 1, logFill := 0 }, true)
    | none =>
      match live with
      | [] => (s, false)
      | u :: _ =>
        let old := x.logExt + 1 - live.length
        let lost := (x.log.filter fun f => f.ext == old).length
        let s := onSess s i fun x =>
          { x with log := x.log.filter fun f => f.ext != old
                   logDropped := x.logDropped + lost, logExt := x.logExt + 1, logFill := 0
                   extents := (x.extents.filter fun e => e.1 != u) ++ [(u, true, true)] }
        let s := putMedia (writeExtTable s i) x.kvNsid (u * pageBytes) flightMarker
        let s := bump 0x615005 lost s
        (logEvent s dieTrunk 0x000C { account := x.account, session := i } (toLe 8 lost), true)

/-- Log an entry in a session's flight log. In read-only mode nothing is logged, and the entry is counted (R454); so is one that no
flight extent can hold (DESIGN CHOICE, log 79). -/
def logFlight (s : State) (i : Nat) (f : FlightEntry) : State :=
  if s.health.readOnly || decide (flightExtentBytes - pageBytes < flightLen f) then bump 0x615005 1 s
  else
    match s.sess.get? i with
    | none => s
    | some x =>
      let (s, ok) :=
        if x.logExt ≠ 0 ∧ x.logFill + flightLen f ≤ flightExtentBytes - pageBytes then (s, true) else nextFlightExtent s i
      match s.sess.get? i with
      | none => s
      | some x =>
        if !ok then bump 0x615005 1 s
        else
          let f := { f with logSeq := x.logNext, ext := x.logExt }
          let u := (flightExts x).getLast?.getD 0
          let s := putMedia s x.kvNsid (u * pageBytes + pageBytes + x.logFill) (flightBytes f)
          onSess s i fun x =>
            { x with log := x.log ++ [f], logNext := x.logNext + 1, logFill := x.logFill + flightLen f }

/-- The entry of a command: its bytes as fetched, and what it came to. -/
def commandEntry (s : State) (e : Sqe) (opc : Nat) (c : Code) (gen draw0 : Nat) (out snap : Bytes) : FlightEntry :=
  let f := flightOf s e.key
  { kind := 0, opc := BitVec.ofNat 8 opc, status := BitVec.ofNat 16 (c.sc + 256 * c.sct)
    epoch := BitVec.ofNat 64 ((f.map (·.epoch)).getD s.dict.epoch), timestamp := (f.map (·.ts)).getD 0
    gen := BitVec.ofNat 32 gen, draw0 := BitVec.ofNat 32 draw0, nsid := BitVec.ofNat 32 e.nsid
    cdw := [e.cdw10, e.cdw11, e.cdw12, e.cdw13, e.cdw14, e.cdw15], imageHash := []
    inp := inRegion e, out := if c = Code.ok then out else [], snap := snap }

/-- Log a command of an account in its flight session, where it has one (R454). -/
def logCommand (s : State) (e : Sqe) (f : FlightEntry) : State :=
  match flightSession s (acctOf e.fn) with
  | some i => logFlight s i f
  | none => s

/-! ### Checks of the vendor commands (R286, R287, R291) -/

/-- Steps 1 and 2 of R291 for a command with the buffer of R287. -/
def vendorRefuse (e : Sqe) : Option Code :=
  if e.fuse ≠ 0 then some Code.invalidField
  else if !lengthsOk e then some Code.invalidField
  else if !dptrOk e then some (Code.shortData e)
  else none

/-- Step 1 of R291 for a vendor admin command. -/
def fuseRefuse (e : Sqe) : Option Code := if e.fuse ≠ 0 then some Code.invalidField else none

/-- Write the output region of a command: the record, then its data (R288). -/
def writeOutput (s : State) (e : Sqe) (rec data : Bytes) : State :=
  hostWrite s e.key (outOff e) (rec ++ data)

end Sys2Proof.Machine
end

