-- ==== Sys2Proof/Machine/SessMoveOps.lean ====
section
/-! DEFINITION. Sessions as wholes: opening and closing (R110, R232, R236, R299, R300), residency moves (R230, R232,
R234, R297), the sealed export and its import (R380 to R382). -/

namespace Sys2Proof.Machine

/-! ### The descriptor and the context as bytes -/

/-- SESS_DESC (Table 10-1). Its three pool addresses are free values: the spec does not say where firmware puts
them. -/
def sessDesc (x : Sess) (layerTbl ctxArea acctRec : Nat) : Bytes :=
  let w0 := x.state.toNat + 16 * x.res.toNat + 64 * x.cls.toNat + (if x.flight then 256 else 0)
    + (if x.sg then 512 else 0) + (if x.pin then 1024 else 0) + 2048 * x.homeDie.val
  Bytes.sub (toLe 4 w0 ++ toLe 2 x.account ++ toLe 1 x.grant.toNat ++ toLe 1 x.grantMe.toNat
    ++ toLe 2 x.layers ++ toLe 1 x.kvHeads ++ toLe 1 ((x.qPerKv - 1) + 16 * (x.headDim / 32 - 1)) ++ toLe 4 x.kvNsid
    ++ toLe 8 x.basePos.toNat ++ toLe 8 x.seed.toNat ++ toLe 8 layerTbl ++ toLe 8 (x.extPages.headD 0)
    ++ toLe 4 x.extents.length ++ toLe 4 x.spillTiles ++ toLe 8 ctxArea ++ toLe 8 x.lastUse.toNat ++ toLe 4 0
    ++ toLe 4 x.inflight ++ toLe 4 x.sliceDebt ++ toLe 2 x.keySlot ++ toLe 2 0 ++ toLe 8 acctRec
    ++ toLe 8 x.epochOpen.toNat) 0 512

def ctxBytes : Nat := 136 * 1024
def recBytesLen : Nat := 8192

/-- The dwords of a core context besides its registers: the TILE_DESC slots and the outbound entry (R239). -/
def contextDws (b : Bank) : List W32 :=
  (b.tileSlots.toList.flatMap fun x => (List.range 16).map fun i => dwAt' x.dw i) ++ (List.range 16).map fun i => dwAt' b.mboxOutReg i
where
  dwAt' (l : List W32) (i : Nat) : W32 := l.getD i 0

/-- The 136 KiB of a core context: vector registers, then the control-processor registers, PC, CG_DRAW, the TILE_DESC slots
and the outbound entry, the numbers of entries in the mailboxes, the CSRs. DESIGN CHOICE, log 19: the spec gives the size and
the contents, not the layout. -/
def contextBytes (b : Bank) : Bytes :=
  Bytes.sub (b.vregs.gets 0 0 131072 ++ b.xregs.flatMap (fun r => toLe 8 r.toNat) ++ toLe 8 b.pc.toNat
    ++ toLe 4 b.cgDraw.toNat ++ toLe 4 b.csrs.length ++ bytesOf (contextDws b) ++ toLe 4 b.mboxIn.length ++ toLe 4 b.mboxOut.length
    ++ b.csrs.flatMap fun p => toLe 2 p.1 ++ toLe 8 p.2.toNat) 0 ctxBytes

/-- Offset of the CSRs in a context. -/
def csrOff : Nat := 131072 + 272 + 192 + 8

/-- The context that 136 KiB spell; the mailboxes' entries are the core's own and do not come with it. -/
def contextOf (b : Bytes) : Bank :=
  let n := min (Bytes.le b (131072 + 268) 4) 700
  let dws (o k : Nat) : List W32 := (List.range k).map fun i => BitVec.ofNat 32 (Bytes.le b (131072 + 272 + 4 * (o + i)) 4)
  { xregs := (List.range 32).map fun i => BitVec.ofNat 64 (Bytes.le b (131072 + 8 * i) 8)
    pc := BitVec.ofNat 64 (Bytes.le b (131072 + 256) 8)
    csrs := (List.range n).foldl (fun (t : Tab (BitVec 64)) i =>
      t.put (Bytes.le b (csrOff + 10 * i) 2) (BitVec.ofNat 64 (Bytes.le b (csrOff + 2 + 10 * i) 8))) []
    vregs := Mem.puts 0 [] 0 (b.take 131072)
    cgDraw := BitVec.ofNat 32 (Bytes.le b (131072 + 264) 4)
    tileSlots := #v[{ dw := dws 0 16 }, { dw := dws 16 16 }]
    mboxOutReg := dws 32 16 }

/-- The shift-generator words of a context, 4 KiB per engine of the grant (R204), in a tile of 64 KiB. -/
def sgTile (b : Bank) : Bytes := Bytes.sub ((List.range 2048).flatMap fun k => toLe 8 (b.sg.getD k 0).toNat) 0 65536

/-- The shift-generator words that a tile spells. -/
def sgOfTile (b : Bytes) : Tab W64 := (List.range 2048).map fun k => (k, BitVec.ofNat 64 (Bytes.le b (8 * k) 8))

/-! ### The export (R381) -/

def exportMagic : Nat := 0x5853474B
def chunkBytes : Nat := 1048576
/-- Logical blocks of a full chunk with its tag. -/
def chunkBlocks : Nat := 257
def sealInfo (s : String) : Bytes := s.toUTF8.toList.map fun b => BitVec.ofNat 8 b.toNat
def saltZero : Bytes := List.replicate 48 0

/-- MK of an account (R380). -/
def migrationKey (s : State) (acct : Nat) : Bytes :=
  Crypto.hkdf saltZero s.accounts[acctIx acct].tk (sealInfo "KGA session migrate") 32

/-- EK of an export (R381). -/
def exportKey (sk salt : Bytes) : Bytes := Crypto.hkdf salt sk (sealInfo "KGSX export") 32

/-- Tiles of 64 KiB in a body: those of the spill area, and, for an SG session, one with its shift-generator words (DESIGN
CHOICE, log 19: they must move with the context, and 136 KiB do not hold them). -/
def bodyTiles (x : Sess) : Nat := x.spillTiles + (if x.sg then 1 else 0)

/-- Plaintext bytes of a body. -/
def bodyLen (spill extents : Nat) : Nat := recBytesLen + ctxBytes + 65536 * spill + 2 ^ 30 * extents
def chunksOf (len : Nat) : Nat := ceilDiv len chunkBytes
/-- Logical blocks of an export: header and padded chunks. -/
def exportBlocks (len : Nat) : Nat :=
  1 + (len / chunkBytes) * chunkBlocks + (if len % chunkBytes = 0 then 0 else ceilDiv (len % chunkBytes + 16) 4096)

/-- GEOMETRY of an export header. -/
def geometryBytes (x : Sess) : Bytes :=
  toLe 2 x.layers ++ toLe 1 x.kvHeads ++ toLe 1 x.qPerKv ++ toLe 1 x.headDim ++ toLe 1 x.cls.toNat
    ++ toLe 2 ((if x.flight then 1 else 0) + (if x.sg then 2 else 0))
    ++ toLe 4 (kvExts x).length ++ toLe 4 ((x.extents.filter (·.2.1)).length)

def tagIv : Bytes := List.replicate 12 0xFF

/-- The header (Table 15-9): its first 112 bytes, then HDR_TAG. -/
def exportHead (s : State) (x : Sess) (salt : Bytes) : Bytes :=
  let len := bodyLen (bodyTiles x) x.extents.length
  Bytes.sub (toLe 4 exportMagic ++ toLe 2 1 ++ toLe 2 0 ++ toLe 8 len ++ toLe 4 (chunksOf len) ++ toLe 4 0
    ++ Bytes.sub salt 0 32 ++ Bytes.sub (Config.keyWrap (migrationKey s x.account) x.sk) 0 40 ++ geometryBytes x) 0 112

def headTag (ek head : Bytes) : Bytes := Bytes.sub (Config.gcmSeal ek tagIv head []).2 0 16

/-- The tiles of a session's spill area. -/
def spillArea (i : Nat) (x : Sess) : List (Nat × TileDirE) :=
  (x.away.filter fun q => q.2.2 == some (spillTile i q.1)).map fun q => (q.1, q.2.1)

/-- The session record of the body: descriptor image, token counts, and, in the rest, one bit for each extent that is
a metadata extent, and from the end on two bytes for each spilled tile: its number within its core and its STATE. DESIGN
CHOICE, log 19: the spec's body says neither which extents are metadata extents nor which tiles are spilled. -/
def sessionRecord (s : State) (i : Nat) (x : Sess) : Bytes :=
  let f (i : Nat) : Nat := Config.freeNat (s.free + i)
  let counts := (List.range x.layers).flatMap fun l => toLe 8 (tokensOf x l)
  let bits := sumNat ((List.range x.extents.length).map fun i => if (x.extents.getD i (0, false, false)).2.1 then 2 ^ i else 0)
  let tiles := (spillArea i x).reverse.flatMap fun q => toLe 2 (q.1 + 2048 * q.2.state.toNat)
  Bytes.sub (sessDesc x (f 0) (f 1) (f 2) ++ counts ++ toLe (recBytesLen - 512 - 8 * x.layers - tiles.length) bits ++ tiles) 0 recBytesLen

/-- A tile of the body: of the spill area, or the shift-generator words. -/
def bodyTile (s : State) (i : Nat) (x : Sess) (sg : Bytes) (k r : Nat) : Byte :=
  match (spillArea i x)[k]? with
  | some q => s.mem.get 0 (spillTile i q.1 * tileBytes + r)
  | none => sg.getD r 0

/-- Bytes of the body from an offset: record, context, spilled tiles, extents. -/
def bodyByte (s : State) (i : Nat) (x : Sess) (record ctx sg : Bytes) (a : Nat) : Byte :=
  if a < recBytesLen then record.getD a 0
  else if a < recBytesLen + ctxBytes then ctx.getD (a - recBytesLen) 0
  else
    let r := a - recBytesLen - ctxBytes
    if r < 65536 * bodyTiles x then bodyTile s i x sg (r / 65536) (r % 65536)
    else
      let r := r - 65536 * bodyTiles x
      let u := (x.extents.getD (r / 2 ^ 30) (0, false, false)).1
      s.media.get 0 (mediaKey x.kvNsid (u * pageBytes + r % 2 ^ 30))

/-- The context of a session, from the bank of a core or from its CTX_AREA. -/
def contextFor (s : State) (x : Sess) (i : Nat) : Bank :=
  match s.cores.toList.findSome? fun k =>
    if k.bankA.session = some i then some k.bankA else if k.bankB.session = some i then some k.bankB else none with
  | some b => b
  | none => x.ctxSaved.getD {}

/-- IV of chunk `i`, and its additional data. -/
def chunkIv (i : Nat) : Bytes := toLe 12 i
def chunkAad (tag : Bytes) (i : Nat) (last : Bool) : Bytes := tag ++ toLe 4 i ++ [if last then 1 else 0]

/-- Piece `p` of an export as stored, with its first logical block: piece 0 is the header, piece `i + 1` chunk `i`. -/
def exportPiece (s : State) (i : Nat) (x : Sess) (salt : Bytes) (p : Nat) : Nat × Bytes :=
  let ek := exportKey x.sk salt
  let head := exportHead s x salt
  let tag := headTag ek head
  match p with
  | 0 => (0, Bytes.sub (head ++ tag) 0 4096)
  | c + 1 =>
    let len := bodyLen (bodyTiles x) x.extents.length
    let n := min chunkBytes (len - c * chunkBytes)
    let record := sessionRecord s i x
    let b := contextFor s x i
    let ctx := contextBytes b
    let sg := sgTile b
    let plain := (List.range n).map fun k => bodyByte s i x record ctx sg (c * chunkBytes + k)
    let (ct, t) := Config.gcmSeal ek (chunkIv c) (chunkAad tag c (decide (c + 1 = chunksOf len))) plain
    (1 + c * chunkBlocks, Bytes.sub (Bytes.sub ct 0 n ++ Bytes.sub t 0 16) 0 (roundUp (n + 16) 4096))

/-- Does a session's extents hold an unrecovered unit, and which? -/
def badExtent (s : State) (x : Sess) : Option Nat :=
  (s.map.find? fun p => p.2.st == .unrecovered && p.1 / 2 ^ 48 == x.kvNsid
    && x.extents.any fun e => decide (e.1 ≤ p.1 % 2 ^ 48) && decide (p.1 % 2 ^ 48 < e.1 + 65536)).map fun p => p.1 % 2 ^ 48

/-- End of a SESSION-MOVE: the session is open again. -/
def endMove (s : State) (i : Nat) : State := onSess s i fun x => { x with state := sessOpen, pendingMove := none }

/-- Slots of a namespace that are still buffered. -/
def slotsOfNs (s : State) (nsid : Nat) : List Nat := (s.slots.filter fun p => p.2.nsid == nsid).map (·.1)

/-- Firmware reads the spill area before it exports it (R208). -/
def checkSpill (s : State) (i : Nat) (x : Sess) : State :=
  (spillArea i x).foldl (fun a q => fwCheck a (spillTile i q.1 * tileBytes) tileBytes (tagOf a x.account)) s

/-- Write the pieces of an export that the write buffer has room for; the last one ends the command. The fuel is the
number of pieces left. -/
def exportStep (s : State) (i : Nat) : Nat → State
  | 0 => s
  | fuel + 1 =>
    match s.sess.get? i with
    | none => s
    | some x =>
      match x.pendingMove with
      | none => s
      | some m =>
        match s.nss.get? m.nsid with
        | none => fail (endMove s i) m.key Code.invalidNs m.nsid
        | some n =>
          let len := bodyLen (bodyTiles x) x.extents.length
          if chunksOf len < m.pos then
            let b := exportBlocks len
            finishData (endMove { s with free := s.free + 3 } i) m.key m.nsid (slotsOfNs s m.nsid) [] b (b / 2 ^ 32 * 256)
          else
            match badExtent s x with
            | some u => fail (endMove s i) m.key Code.unrecoveredRead x.kvNsid (4 * u)
            | none =>
              let (lba, b) := exportPiece s i x m.salt m.pos
              let off := (m.slba + lba) * 4096
              if freeSlots s < slotsNeeded n off b.length then s
              else
                let s := if m.pos = 0 then checkSpill s i x else s
                let (s, _) := bufferWrite s m.nsid off b n
                exportStep (onSess s i fun x => { x with pendingMove := some { m with pos := m.pos + 1 } }) i fuel

/-! ### Residency moves (R232, R233, R234, R297) -/

/-- Class 0 sessions that are Hot, other than one. -/
def hotC0 (s : State) (i : Nat) : Nat :=
  (s.sess.filter fun p => p.1 != i && p.2.cls == 0 && p.2.state != sessFree && p.2.res == resHot).length

/-- Make a session Cold: its grant and its session-region space go (R232, R377). -/
def makeCold (s : State) (i : Nat) : State := becomeCold (dropGrant s i) i

/-- Put a session in the residency a move asks for; PIN is set as asked, and the session stays where it is when the
space cannot be freed (R297). -/
def moveResidency (s : State) (i : Nat) (m : MoveReq) : State :=
  let s := onSess s i fun x => { x with pin := m.pin }
  let s :=
    if m.res = resHot then (makeHot s i).1
    else if m.res = resWarm then (makeWarm (dropGrant s i) i).1
    else makeCold s i
  let res := ((s.sess.get? i).map (·.res.toNat)).getD 2
  finishSession (endMove s i) m.key i res

/-- Run the SESSION-MOVE of a session that has no other command in progress (R230). -/
def runMove (s : State) (i : Nat) : State :=
  match s.sess.get? i with
  | none => s
  | some x =>
    match x.pendingMove with
    | none => s
    | some m =>
      if x.inflight ≠ 0 ∨ freeSlots s = 0 then s
      else if m.export_ then exportStep s i (chunksOf (bodyLen (bodyTiles x) x.extents.length) + 2 - m.pos)
      else moveResidency s i m

/-- Hold a command: behind a SESSION-MOVE (R230), or until its record finds a slot (R317). -/
def holdJob (s : State) (e : Sqe) (opc : Nat) : State := { s with held := s.held ++ [{ e := e, opc := opc, readDone := false }] }

def opSessionOpen : Nat := 0xC1
def opSessionClose : Nat := 0xC4

/-- Is a session held by a SESSION-MOVE that runs (R230)? -/
def moveHolds (x : Sess) : Bool := x.pendingMove.isSome && x.inflight == 0

/-! ### Opening (R110, R227, R232, R236, R299) -/

/-- Is a Sess geometry in the ranges of Table 5-1? -/
def geometryOk (layers kv q dim : Nat) : Bool :=
  decide (1 ≤ layers) && decide (layers ≤ 512) && decide (1 ≤ kv) && decide (kv ≤ 64) && decide (1 ≤ q) && decide (q ≤ 16)
    && (dim == 32 || dim == 64 || dim == 96 || dim == 128)

/-- Has a namespace no allocated logical block? -/
def nsEmpty (s : State) (nsid : Nat) : Bool := s.map.all fun p => p.1 / 2 ^ 48 != nsid || p.2.st == .dealloc

/-- May a namespace of the account be, or become, a KV namespace (Table 11-6)? -/
def kvNs (s : State) (e : Sqe) : Bool :=
  match nsFor s e.fn e.nsid with
  | some n => n.flbas == 1 && (n.role == .kv || (n.role == .plain && nsEmpty s e.nsid))
  | none => false

/-- Class 0 sessions that are open. -/
def openC0 (s : State) : Nat := (s.sess.filter fun p => p.2.cls == 0).length

/-- Open sessions whose home is a die. -/
def homesOf (s : State) (d : Nat) : Nat := (s.sess.filter fun p => p.2.homeDie.val == d).length

/-- The home die of a new session: that of fewer open sessions, CD0 on a tie. -/
def newHome (s : State) : Fin 2 := if homesOf s 1 < homesOf s 0 then 1 else 0

def sessionSlots : Nat := 65536

/-- Steps 1 to 4 of R291 for a SESSION-OPEN. -/
def openRefuse (s : State) (e : Sqe) (p : OpenP) : Option Code :=
  if e.fuse ≠ 0 then some Code.invalidField
  else if e.cdw10 ≠ 64 then some Code.invalidField
  else if e.dptr < 64 then some (Code.shortData e)
  else if !kvNs s e then some Code.invalidField
  else if 3 < p.cls ∨ 8 ≤ Bytes.le e.inp 6 2 then some Code.invalidField
  else if p.imp then
    (match nsFor s e.fn p.impNsid with
      | some n => if n.nsze ≤ p.impSlba then some Code.lbaRange else none
      | none => some Code.invalidField)
  else if !geometryOk p.layers p.kvHeads p.qPerKv p.headDim then some Code.invalidField
  else none

/-- Step 6 of R291: the Class 0 reservation and right (R236). -/
def openReserve (s : State) (e : Sqe) (cls : Nat) : Bool :=
  cls == 0 && (decide (c0Sess s ≤ openC0 s) || !c0Rights s (acctOf e.fn))

/-- The session that an open makes, before its residency is set. -/
def newSession (s : State) (e : Sqe) (i : Nat) (layers kv q dim cls basePos seed : Nat) (flight sg : Bool) : Sess :=
  { state := sessFree, res := resCold, cls := BitVec.ofNat 2 cls, flight := flight, sg := sg, homeDie := newHome s
    account := acctOf e.fn, layers := layers, kvHeads := kv, qPerKv := q, headDim := dim, kvNsid := e.nsid
    basePos := BitVec.ofNat 64 basePos, seed := BitVec.ofNat 64 seed, lastUse := s.health.timestamp, keySlot := i
    ctxSaved := if sg then some { sg := Rand.sgStart (BitVec.ofNat 64 seed) } else none
    sk := Bytes.sub (Config.randomBytes s.free) 0 32, epochOpen := BitVec.ofNat 64 s.dict.epoch }

/-- The session becomes open: Warm where the space can be freed, else Cold (R232, R233). -/
def finishOpen (s : State) (k : CmdKey) (i : Nat) : State :=
  let s := onSess s i fun x => { x with state := sessOpen }
  let (s, _) := makeWarm s i
  let home := ((s.sess.get? i).map (·.homeDie.val)).getD 0
  finishSession s k i (i + 65536 * home)

/-- Give a namespace its role (R268). -/
def setRole (s : State) (nsid : Nat) (r : Role) : State := { s with nss := s.nss.mod nsid fun n => { n with role := r } }

/-- Deallocate the units of a session's extents and extent-table pages, and clear their bytes (R300, R382). -/
def freeExtents (s : State) (x : Sess) : State :=
  let hit (u : Nat) : Bool :=
    (x.extents.any fun e => decide (e.1 ≤ u) && decide (u < e.1 + 65536)) || x.extPages.contains u
  let gone := (s.map.filter fun p => p.1 / 2 ^ 48 == x.kvNsid && hit (p.1 % 2 ^ 48)).map (·.1)
  let s := gone.foldl (fun a k => setEntry a (k / 2 ^ 48) (k % 2 ^ 48) {}) s
  { s with media := s.media.filter fun c => !(c.1 / 2 ^ 64 == x.kvNsid && hit (c.1 % 2 ^ 64 / pageBytes)) }

/-- Deallocate, then drop a session from its slot (R300). -/
def dropSession (s : State) (i : Nat) : State :=
  match s.sess.get? i with
  | none => s
  | some x =>
    let s := clearPages (freeExtents (dropGrant s i) x) i
    let s := { s with mem := s.mem.clear (spillTile i 0 * tileBytes) (2 ^ 27), chk := s.chk.clear (spillTile i 0 * tileBytes / 8) (2 ^ 24) }
    { s with sess := s.sess.del i }

/-- The closed-session record (Table 12-12). -/
def closedRecord (s : State) (i : Nat) (x : Sess) : Bytes :=
  toLe 2 i ++ List.replicate 6 0 ++ toLe 8 s.health.timestamp.toNat ++ acctBytes x.acct

/-- Close a session: its record joins the account's last 256 (R300, R305). -/
def closeSession (s : State) (i : Nat) : State :=
  match s.sess.get? i with
  | none => s
  | some x =>
    let r := closedRecord s i x
    let s := onAcct s (acctIx x.account) fun a => { a with closedRecs := (r :: a.closedRecs).take 256 }
    dropSession s i

/-! ### The import (R382) -/

/-- An import that fails authentication (R382). -/
def importFail (s : State) (j : ImportJob) (c : Code) : State :=
  let s := { s with imports := s.imports.filter fun x => x.e.key != j.e.key }
  let s := dropSession s j.id
  fail (if c = Code.accessDenied then bump 0x614003 1 s else s) j.e.key c j.e.nsid

/-- The exported record's flight entries, parsed from an extent's bytes: from its second page on, while an entry's
length and fields can be one. -/
def parseFlight (get : Nat → Nat → Nat) (bytes : Nat → Nat → Bytes) (ext : Nat) : Nat → Nat → List FlightEntry
  | 0, _ => []
  | fuel + 1, a =>
    let elen := get a 4
    if elen < 144 ∨ flightExtentBytes < a + elen then []
    else
      let n1 := get (a + 0x78) 4
      let n2 := get (a + 0x7C) 4
      let n3 := get (a + 0x80) 4
      let o1 := a + 144
      let o2 := o1 + roundUp n1 8
      let o3 := o2 + roundUp n2 8
      let f : FlightEntry :=
        { kind := BitVec.ofNat 8 (get (a + 4) 1), opc := BitVec.ofNat 8 (get (a + 5) 1)
          status := BitVec.ofNat 16 (get (a + 6) 2), logSeq := BitVec.ofNat 64 (get (a + 8) 8)
          epoch := BitVec.ofNat 64 (get (a + 0x10) 8), timestamp := BitVec.ofNat 64 (get (a + 0x18) 8)
          gen := BitVec.ofNat 32 (get (a + 0x20) 4), draw0 := BitVec.ofNat 32 (get (a + 0x24) 4)
          nsid := BitVec.ofNat 32 (get (a + 0x28) 4)
          cdw := (List.range 6).map fun i => BitVec.ofNat 32 (get (a + 0x30 + 4 * i) 4)
          imageHash := bytes (a + 0x48) 48, inp := bytes o1 n1, out := bytes o2 n2, snap := bytes o3 n3
          tileSeq0 := BitVec.ofNat 64 (get (a + 0x88) 8), ext := ext }
      if flightLen f ≠ elen then [] else f :: parseFlight get bytes ext fuel (a + elen)

/-- Read the flight log of an imported session from its flight extents: entries in order of LOG_SEQ. -/
def loadFlight (s : State) (i : Nat) : State :=
  match s.sess.get? i with
  | none => s
  | some x =>
    let ex := x.extents.map fun e =>
      if e.2.1 ∧ readMedia s x.kvNsid (e.1 * pageBytes) 6 = flightMarker then (e.1, true, true) else (e.1, e.2.1, false)
    let fl := (ex.filter (·.2.2)).map (·.1)
    let log := ((List.range fl.length).zip fl).flatMap fun p =>
      let base := p.2 * pageBytes
      parseFlight (fun a n => leNat (readMedia s x.kvNsid (base + a) n)) (fun a n => readMedia s x.kvNsid (base + a) n)
        (p.1 + 1) (flightExtentBytes / 144) pageBytes
    let log := sortBy (fun a b : FlightEntry => decide (a.logSeq.toNat < b.logSeq.toNat)) log
    let fill := sumNat ((log.filter fun f => f.ext == fl.length).map flightLen)
    onSess s i fun x =>
      { x with extents := ex, log := log, logExt := fl.length, logFill := fill
               logNext := match log.getLast? with | some f => f.logSeq + 1 | none => 1
               logDropped := match log.head? with | some f => f.logSeq.toNat - 1 | none => 0 }

/-- Put the words of a session's spill area in place, from an export's bytes; the tiles have no HOME on this module. -/
def importTiles (s : State) (i spill : Nat) (b : Bytes) : State :=
  match s.sess.get? i with
  | none => s
  | some x =>
    (List.range spill).foldl (fun a k =>
      let w := Bytes.le b (recBytesLen - 2 * (k + 1)) 2
      let l := w % 2048
      let e : TileDirE := { state := BitVec.ofNat 2 (w / 2048), account := BitVec.ofNat 16 x.account }
      let a := (writeMem a (spillTile i l * tileBytes) (Bytes.sub b (recBytesLen + ctxBytes + 65536 * k) 65536) (tagOf a x.account)).1
      setAway a i fun t => t.put l (e, some (spillTile i l))) s

/-- The first bytes of an export that are held before the extents: record, context and spilled tiles. -/
def applyHead (s : State) (i spill : Nat) (b : Bytes) : State :=
  let sg := (((s.sess.get? i).map (·.sg)).getD false)
  let n := if sg then spill - 1 else spill
  let words := if sg then sgOfTile (Bytes.sub b (recBytesLen + ctxBytes + 65536 * n) 65536) else []
  let s := onSess s i fun x =>
    { x with
      basePos := BitVec.ofNat 64 (Bytes.le b 0x10 8), seed := BitVec.ofNat 64 (Bytes.le b 0x18 8)
      layerTbl := (List.range x.layers).foldl (fun (t : Tab LayerSt) l =>
        t.put l { count := BitVec.ofNat 64 (Bytes.le b (512 + 8 * l) 8) }) []
      ctxSaved := some { contextOf (Bytes.sub b recBytesLen ctxBytes) with sg := words } }
  importTiles s i n b

/-- Place a plaintext chunk's bytes that belong to extents; extents are allocated as they come. -/
def applyExtents (s : State) (i : Nat) (metaBits : Nat) (lo : Nat) (b : Bytes) : Nat → State × Bool
  | 0 => (s, true)
  | fuel + 1 =>
    if b = [] then (s, true)
    else
      match s.sess.get? i with
      | none => (s, false)
      | some x =>
        let e := lo / 2 ^ 30
        if x.extents.length ≤ e then
          match allocExtent s i (bitOf metaBits e) false with
          | (t, some _) => applyExtents t i metaBits lo b fuel
          | (t, none) => (t, false)
        else
          let u := (x.extents.getD e (0, false, false)).1
          let n := min b.length (2 ^ 30 - lo % 2 ^ 30)
          let part := b.take n
          let s := if part.all (· == 0) then s else putMedia s x.kvNsid (u * pageBytes + lo % 2 ^ 30) part
          applyExtents s i metaBits (lo + n) (b.drop n) fuel

/-- Counts of an export header. -/
def headSpill (h : Bytes) : Nat :=
  (Bytes.le h 8 8 - recBytesLen - ctxBytes - 2 ^ 30 * (Bytes.le h 0x68 4 + Bytes.le h 0x6C 4)) / 65536

/-- Put a decrypted chunk of an import in place: the head of the session until it is whole, then its extents. -/
def importChunk (s : State) (key : CmdKey) (j : ImportJob) (plain : Bytes) : State × Bool :=
  let h := Bytes.sub j.head 0 112
  let spill := headSpill h
  let fixed := recBytesLen + ctxBytes + 65536 * spill
  let lo := j.pos * chunkBytes
  let held := Bytes.sub j.head 128 (j.head.length - 128)
  let held := if lo < fixed then held ++ plain.take (fixed - lo) else held
  let layers := Bytes.le h 0x60 2
  let bits := Bytes.le held (512 + 8 * layers) (recBytesLen - 512 - 8 * layers)
  let s := if lo < fixed ∧ fixed ≤ lo + plain.length then applyHead s j.id spill held else s
  let ext := plain.drop (fixed - lo)
  let r := applyExtents s j.id bits (max lo fixed - fixed) ext 8
  if !r.2 then (importFail r.1 j Code.capacity, false)
  else
    let j' := { j with pos := j.pos + 1, head := j.head.take 128 ++ held }
    ({ r.1 with imports := r.1.imports.map fun x => if x.e.key == key then j' else x }, true)

/-- The number of chunks an export header states. -/
def importChunks (j : ImportJob) : Nat := Bytes.le (Bytes.sub j.head 0 112) 0x10 4

/-- The next chunk of an import, verified and decrypted; or why the import fails. -/
def importOpen (s : State) (j : ImportJob) (src : Ns) : Except Code Bytes :=
  let p := openP (inRegion { j.e with cdw10 := 64 })
  let h := Bytes.sub j.head 0 112
  let n := min chunkBytes (Bytes.le h 8 8 - j.pos * chunkBytes)
  let off := (p.impSlba + 1 + j.pos * chunkBlocks) * 4096
  match unrecovered s p.impNsid src off (n + 16) with
  | some _ => .error Code.unrecoveredRead
  | none =>
    let ek := exportKey (((s.sess.get? j.id).map (·.sk)).getD []) (Bytes.sub h 0x18 32)
    let ct := readMedia s p.impNsid off n
    let tag := readMedia s p.impNsid (off + n) 16
    match Config.gcmOpen ek (chunkIv j.pos) (chunkAad (Bytes.sub j.head 112 16) j.pos (decide (j.pos + 1 = importChunks j))) ct tag with
    | none => .error Code.accessDenied
    | some plain => .ok (Bytes.sub plain 0 n)

/-- Has the write buffer no room for a chunk? -/
def noChunkRoom (s : State) (dst : Ns) : Bool :=
  let n := chunkBytes / 4096 + 8 * (iuBytes dst / 4096)
  decide (freeSlots s < n + journalSlots n)

/-- Verify and decrypt the next chunk of an import, if the write buffer has room for it; the last one opens the session.
The answer says whether another chunk may follow. -/
def importOne (s : State) (key : CmdKey) (j : ImportJob) : State × Bool :=
  if importChunks j ≤ j.pos then
    let s := loadFlight s j.id
    (finishOpen { s with imports := s.imports.filter fun x => x.e.key != key } key j.id, false)
  else
    match s.nss.get? (openP (inRegion { j.e with cdw10 := 64 })).impNsid, s.nss.get? j.e.nsid with
    | some src, some dst =>
      if noChunkRoom s dst then (s, false)
      else
        match importOpen s j src with
        | .error c => (importFail s j c, false)
        | .ok b => importChunk s key j b
    | _, _ => (importFail s j Code.invalidNs, false)

/-- Go on after a chunk, or stop. -/
def importNext (p : State × Bool) (k : State → State) : State := if p.2 then k p.1 else p.1

/-- Verify and decrypt the chunks of an import as far as it goes. The fuel is the number of chunks left and one. -/
def importStep (s : State) (key : CmdKey) : Nat → State
  | 0 => s
  | fuel + 1 =>
    match s.imports.find? fun j => j.e.key == key with
    | none => s
    | some j => importNext (importOne s key j) fun s => importStep s key fuel

/-- Steps 1 to 3 of R382 on a header: its SK, or why the import fails. -/
def importCheck (s : State) (e : Sqe) (b : Bytes) : Except Code Bytes :=
  let h := Bytes.sub b 0 112
  let len := Bytes.le h 8 8
  let ext := Bytes.le h 0x68 4 + Bytes.le h 0x6C 4
  if Bytes.le h 0 4 ≠ exportMagic ∨ Bytes.le h 4 2 ≠ 1 then .error Code.accessDenied
  else
    match Config.keyUnwrap (migrationKey s (acctOf e.fn)) (Bytes.sub h 0x38 40) with
    | none => .error Code.accessDenied
    | some sk =>
      let ek := exportKey sk (Bytes.sub h 0x18 32)
      if Config.gcmOpen ek tagIv h [] (Bytes.sub b 112 16) = none then .error Code.accessDenied
      else if !geometryOk (Bytes.le h 0x60 2) (Bytes.le h 0x62 1) (Bytes.le h 0x63 1) (Bytes.le h 0x64 1)
          ∨ 3 < Bytes.le h 0x65 1 ∨ 4 ≤ Bytes.le h 0x66 2 then .error Code.invalidField
      else if Bytes.le h 0x10 4 ≠ chunksOf len ∨ len ≠ bodyLen (headSpill h) ext ∨ (bitOf (Bytes.le h 0x66 2) 1 ∧ headSpill h = 0) then
        .error Code.accessDenied
      else .ok sk

/-- Session-region bytes of a new session without tokens. -/
def openBytes (layers : Nat) : Nat := roundUp (8 * layers + ceilDiv layers 8) 4096 + ctxBytes

/-- A SESSION-OPEN that has passed its checks creates its session or starts its import. -/
def openSession (s : State) (e : Sqe) (p : OpenP) (i : Nat) : State :=
  if p.imp then
    let b := readMedia s p.impNsid (p.impSlba * 4096) 128
    match importCheck s e b with
    | .error c => fail (if c = Code.accessDenied then bump 0x614003 1 s else s) e.key c e.nsid
    | .ok sk =>
      let g (o n : Nat) : Nat := Bytes.le b o n
      if openReserve s e (g 0x65 1) then failDw0 s e.key Code.classReservation (c0Sess s)
      else if overQuota s (acctOf e.fn) (openBytes (g 0x60 2)) then fail s e.key Code.capacity e.nsid
      else
        let x := newSession s e i (g 0x60 2) (g 0x62 1) (g 0x63 1) (g 0x64 1) (g 0x65 1) 0 0 (bitOf (g 0x66 2) 0) (bitOf (g 0x66 2) 1)
        let s := setRole { s with sess := s.sess.put i { x with sk := sk } } e.nsid .kv
        let s := { s with imports := s.imports ++ [{ e := e, id := i, pos := 0, head := b }] }
        importStep s e.key (g 0x10 4 + 1)
  else
    let x := newSession s e i p.layers p.kvHeads p.qPerKv p.headDim p.cls p.basePos p.seed p.flight p.sg
    let s := { s with free := s.free + 1, sess := s.sess.put i x }
    finishOpen (setRole s e.nsid .kv) e.key i

/-- SESSION-OPEN (R110, R227, R232, R236, R267, R299, R337). -/
def openBody (e : Sqe) (s : State) : State :=
  let p := openP (Bytes.sub e.inp 0 64)
  match openRefuse s e p with
  | some c => fail s e.key c e.nsid
  | none =>
    if s.health.readOnly then fail s e.key Code.writeProtected e.nsid
    else if !p.imp && openReserve s e p.cls then failDw0 s e.key Code.classReservation (c0Sess s)
    else if !keyOpen s (acctOf e.fn) then fail s e.key Code.keyLocked e.nsid
    else if overQuota s (acctOf e.fn) (if p.imp then 0 else openBytes p.layers) then fail s e.key Code.capacity e.nsid
    else if freeSlots s = 0 then holdJob s e opSessionOpen
    else
      match s.sess.firstFree 0 sessionSlots with
      | none => fail s e.key Code.capacity e.nsid
      | some i => openSession s e p i

/-! ### Close, move, export -/

/-- A SESSION-CLOSE or SESSION-MOVE of a session of the account takes the session's class and is its last command fetched; its
INFLIGHT does not count it (R228, R230, R235). -/
def classFor (s : State) (e : Sqe) (i : Nat) : State := if (sessFor s e.fn i).isSome then takeClass s e.key i else s

/-- SESSION-CLOSE (R230, R300), in its session's class (R235). -/
def closeBody (e : Sqe) (s : State) : State :=
  let i := cdw10Lo e
  let s := classFor s e i
  match fuseRefuse e, sessFor s e.fn i with
  | some c, _ => fail s e.key c
  | none, none => fail s e.key Code.sessionUnknown
  | none, some x =>
    if x.pendingMove.isSome ∨ x.inflight ≠ 0 then fail s e.key Code.sessionBusy
    else if !keyOpen s x.account then fail s e.key Code.keyLocked
    else if freeSlots s = 0 then holdJob s e opSessionClose
    else finishSession (closeSession s i) e.key i 0

/-- Start a SESSION-MOVE that has passed its checks: it waits for the session's commands (R230). -/
def startMoveReq (s : State) (i : Nat) (m : MoveReq) : State :=
  runMove (onSess s i fun x => { x with state := sessMoving, pendingMove := some m }) i

/-- What a SESSION-MOVE checks first, for both operations: FUSE, the session, the fields. -/
def moveRefuse (s : State) (e : Sqe) : Option Code :=
  let op := fieldOf e.cdw13.toNat 1 0
  if e.fuse ≠ 0 then some Code.invalidField
  else
    match sessFor s e.fn (cdw12Lo e) with
    | none => some Code.sessionUnknown
    | some _ => if 2 ≤ op ∨ fieldOf e.cdw13.toNat 5 4 = 3 then some Code.invalidField else none

/-- SESSION-MOVE with OP 0 (R297, R234). -/
def moveBody (e : Sqe) (s : State) : State :=
  let i := cdw12Lo e
  let s := classFor s e i
  let res := BitVec.ofNat 2 (fieldOf e.cdw13.toNat 5 4)
  match moveRefuse s e, s.sess.get? i with
  | some c, _ => fail s e.key c
  | none, none => fail s e.key Code.sessionUnknown
  | none, some x =>
    if x.cls = 0 ∧ res = resHot ∧ c0Sess s ≤ hotC0 s i then failDw0 s e.key Code.classReservation (c0Sess s)
    else if x.pendingMove.isSome then fail s e.key Code.sessionBusy
    else if !keyOpen s x.account then fail s e.key Code.keyLocked
    else startMoveReq s i { key := e.key, res := res, pin := bitOf e.cdw13.toNat 6, export_ := false, nsid := 0, slba := 0,
                            pos := 0, salt := [] }

/-- SESSION-MOVE with OP 1 (R297, R381, R337). -/
def exportBody (e : Sqe) (s : State) : State :=
  let i := cdw12Lo e
  let s := classFor s e i
  let slba := e.cdw14.toNat + 2 ^ 32 * e.cdw15.toNat
  match moveRefuse s e, s.sess.get? i with
  | some c, _ => fail s e.key c
  | none, none => fail s e.key Code.sessionUnknown
  | none, some x =>
    match nsFor s e.fn e.nsid with
    | none => fail s e.key Code.invalidField e.nsid
    | some n =>
      if n.role ≠ .plain then fail s e.key Code.invalidField e.nsid
      else if x.pendingMove.isSome then fail s e.key Code.sessionBusy
      else if !keyOpen s x.account then fail s e.key Code.keyLocked
      else if s.health.readOnly then fail s e.key Code.writeProtected e.nsid
      else if n.nsze < slba + exportBlocks (bodyLen (bodyTiles x) x.extents.length) then fail s e.key Code.capacity e.nsid
      else startMoveReq { s with free := s.free + 1 } i
        { key := e.key, res := x.res, pin := x.pin, export_ := true, nsid := e.nsid, slba := slba, pos := 0
          salt := Bytes.sub (Config.randomBytes s.free) 0 32 }

end Sys2Proof.Machine
end

