-- ==== Sys2Proof/Machine/AttendOps.lean ====
section
/-! DEFINITION. ATTEND (spec 05): checks, view, visibility, score bounds, selection, the bound-anchored softmax of one
query vector, and the commit of appended tokens. -/

namespace Sys2Proof.Machine

open Num

/-! ### Layout of the operands (R131, R292) -/

/-- Query heads of a session. -/
def queryHeads (x : Sess) : Nat := x.kvHeads * x.qPerKv

/-- Elements of the query array, and of one of the key and value arrays. -/
def queryElems (x : Sess) (p : AttendP) : Nat := p.qtok * queryHeads x * x.headDim
def appendElems (x : Sess) (p : AttendP) : Nat := p.qtok * x.kvHeads * x.headDim

/-- IN_LEN and the least OUT_LEN of an ATTEND. -/
def attendIn (x : Sess) (p : AttendP) : Nat :=
  64 + 2 * queryElems x p + (if p.append then 4 * appendElems x p else 0)
def attendOut (x : Sess) (p : AttendP) : Nat :=
  64 + p.qtok * queryHeads x * (x.headDim * (widthOf p.ofmt.toNat / 8) + 4)

/-- 16-bit codes of an array of the input region. -/
def codesAt (b : Bytes) (off n : Nat) : List Nat := Bytes.les b off 2 n

/-- Query vector of query token `i` and query head `j`, decoded. -/
def queryVec (x : Sess) (p : AttendP) (b : Bytes) (i j : Nat) : List Val :=
  (codesAt b (64 + 2 * ((i * queryHeads x + j) * x.headDim)) x.headDim).map (dec p.qfmt.toNat)

/-- A new key (`which = 0`) or value (`which = 1`) vector of token `i` and KV head `h`, decoded. -/
def newVec (x : Sess) (p : AttendP) (b : Bytes) (which i h : Nat) : List Val :=
  let base := 64 + 2 * queryElems x p + which * (2 * appendElems x p)
  (codesAt b (base + 2 * ((i * x.kvHeads + h) * x.headDim)) x.headDim).map (dec p.qfmt.toNat)

/-- Is an FP32 code finite and above zero? -/
def posFinite32 (c : Nat) : Bool :=
  match dec 9 c with
  | .fin m _ => decide (0 < m)
  | _ => false

/-- Is every 16-bit element of the input arrays finite? -/
def arraysFinite (x : Sess) (p : AttendP) (b : Bytes) : Bool :=
  (codesAt b 64 ((attendIn x p - 64) / 2)).all fun c => (dec p.qfmt.toNat c).isFin

/-- Step 4 of R291 for ATTEND (Table 5-4, R292). -/
def attendParamsOk (x : Sess) (e : Sqe) (p : AttendP) : Bool :=
  let b := inRegion e
  decide (p.layer < x.layers) && decide (1 ≤ p.qtok) && decide (p.qtok ≤ 4096)
    && (p.qfmt == 7 || p.qfmt == 8) && (p.ofmt == 7 || p.ofmt == 8 || p.ofmt == 9) && decide (Bytes.le b 6 1 < 8)
    && posFinite32 p.tau.toNat && decide (p.window ≤ 2 ^ 63)
    && (!p.selective || (decide (1 ≤ p.selBlocks) && decide (p.selBlocks ≤ 65536)
      && decide (p.sink + max p.recent 1 ≤ p.selBlocks)))
    && inLen e == attendIn x p && decide (attendOut x p ≤ outLen e) && arraysFinite x p b

/-! ### The view (R120, R123) -/

/-- The appended tokens of KV head `h`, quantised (R118). -/
def ownToken (x : Sess) (p : AttendP) (b : Bytes) (h i : Nat) : Token :=
  let k := quantSym 5 (newVec x p b 0 i h)
  let v := quantSym 5 (newVec x p b 1 i h)
  { kscale := k.scale, vscale := v.scale, kcode := k.codes, vcode := v.codes }

/-- Token `t` of the view of KV head `h`: a stored one, or one of the command's own. -/
def viewToken (s : State) (x : Sess) (j : AttendJob) (h t : Nat) : Token :=
  let n := if j.p.append then j.view - j.p.qtok else j.view
  if t < n then tokenAt s x j.p.layer h t else ownToken x j.p (inRegion j.e) h (t - n)

/-- Tokens of block `g` that lie in the view, by number. -/
def blockTokens (j : AttendJob) (g : Nat) : List Nat := (List.range (min (64 * g + 64) j.view - 64 * g)).map (64 * g + ·)

/-- Blocks of the view. -/
def viewBlocks (j : AttendJob) : Nat := ceilDiv j.view 64

/-- Position of query token `i`. -/
def queryPos (x : Sess) (j : AttendJob) (i : Nat) : Nat :=
  if j.p.append then x.basePos.toNat + (j.view - j.p.qtok) + i else j.p.qpos + i

/-- Is the token at position `p` visible to a query vector at position `q` (R123)? -/
def visible (j : AttendJob) (p q : Nat) : Bool := (!j.p.causal || decide (p ≤ q)) && (j.p.window == 0 || decide (q < p + j.p.window))

/-- Tokens of a block visible to query token `i`. -/
def visTokens (x : Sess) (j : AttendJob) (i g : Nat) : List Nat :=
  (blockTokens j g).filter fun t => visible j (x.basePos.toNat + t) (queryPos x j i)

/-- Candidate blocks of a KV head (R123): positions do not depend on the head. -/
def candidates (x : Sess) (j : AttendJob) : List Nat :=
  (List.range (viewBlocks j)).filter fun g => (List.range j.p.qtok).any fun i => visTokens x j i g != []

/-- The summary of a block as the command's view has it (R117, R120). -/
def viewSummary (s : State) (x : Sess) (j : AttendJob) (h g : Nat) : Summary :=
  summaryOf x.headDim ((blockTokens j g).map (viewToken s x j h))

/-! ### Score bounds and selection (R124, R125) -/

/-- Order of FP32 codes as values; a NaN is below every value. -/
def ltCode (a b : Nat) : Bool :=
  match dec 9 a, dec 9 b with
  | .nan, .nan => false
  | .nan, _ => true
  | _, .nan => false
  | .inf true, .inf true => false
  | .inf true, _ => true
  | _, .inf true => false
  | .inf false, _ => false
  | .fin _ _, .inf false => true
  | .fin m e, .fin n f => ltDy (m, e) (n, f)

def maxCode32 (l : List Nat) : Nat := l.foldl (fun a b => if ltCode a b then b else a) 0xFF800000
def minCode32 (a b : Nat) : Nat := if ltCode b a then b else a

/-- Exact values of a decoded finite vector. -/
def dys (v : List Val) : List (Int × Int) := v.map fun x => match x with | .fin m e => (m, e) | _ => (0, 0)

/-- FP32 code, nearest even, of an exact value. -/
def rneDy (x : Int × Int) : Nat := let (n, d) := frac x.1 x.2; rne32 n d
def ruDy (x : Int × Int) : Nat := let (n, d) := frac x.1 x.2; ru32 n d

/-- A norm times TAU and a further factor: the norm of a BF16 vector can pass FP32's range, and then is infinite; times a
factor of 0 it is 0 (DESIGN CHOICE, log 18: every score is then 0 too, or the centroid's). -/
def mulNorm (tau : Int × Int) (qn : Nat) (x : Int × Int) : Val :=
  match dec 9 qn with
  | .fin m e => let (a, b) := mulDy tau (mulDy (m, e) x); .fin a b
  | v => if x.1 = 0 then .fin 0 0 else v

/-- The score bound u(b, v) (R124). -/
def scoreBound (p : AttendP) (y : Summary) (v : List Val) : Nat :=
  let tau := dy 9 p.tau.toNat
  let qn := normUp (dys v)
  let far := mulNorm tau qn (if y.opened then dy 9 y.kmax else dy 9 y.radius)
  let near : Int × Int := if y.opened then (0, 0) else mulDy tau (mulDy (dy 7 y.cscale) (dotDy (dys v) (y.centroid.map (dy 5))))
  match far with
  | .fin m e => rneDy (sumDy [near, (m, e)])
  | _ => 0x7F800000

/-- The anchor of a query vector (R126). -/
def anchorOf (p : AttendP) (kmax : Nat) (v : List Val) : Nat :=
  match mulNorm (dy 9 p.tau.toNat) (normUp (dys v)) (dy 9 kmax) with
  | .fin m e => ruDy (m, e)
  | _ => 0x7F800000

/-- Query vectors of a command that map to a KV head: (query token, query head). -/
def vectorsOf (x : Sess) (p : AttendP) (h : Nat) : List (Nat × Nat) :=
  (List.range p.qtok).flatMap fun i => (List.range x.qPerKv).map fun r => (i, h * x.qPerKv + r)

/-- The selected blocks of a KV head (R125). -/
def selectBlocks (s : State) (x : Sess) (j : AttendJob) (h : Nat) : List Nat :=
  let cand := candidates x j
  if !j.p.selective ∨ cand.length ≤ j.p.selBlocks then cand
  else
    let nb := viewBlocks j
    let forced := cand.filter fun g => decide (g < j.p.sink) || decide (nb ≤ g + max j.p.recent 1)
    let score (g : Nat) : Nat :=
      let y := viewSummary s x j h g
      maxCode32 ((vectorsOf x j.p h).map fun v => scoreBound j.p y (queryVec x j.p (inRegion j.e) v.1 v.2))
    let rest := (cand.filter fun g => !forced.contains g).map fun g => (score g, g)
    let ordered := sortBy (fun a b => ltCode b.1 a.1) rest
    forced ++ (ordered.take (j.p.selBlocks - forced.length)).map (·.2)

/-! ### The softmax of one query vector (R126, R127) -/

/-- FP32 difference `a - b` of codes, rounded to nearest even. -/
def subCode (a b : Nat) : Val :=
  match dec 9 a, dec 9 b with
  | .fin m e, .fin n f => let (n, d) := (let (m, e) := sumDy [(m, e), (-n, f)]; frac m e); dec 9 (rne32 n d)
  | .nan, _ => .nan
  | _, .nan => .nan
  | .inf s, .inf t => if s = t then .nan else .inf s
  | .inf s, .fin _ _ => .inf s
  | .fin _ _, .inf t => .inf (!t)

/-- exp32 of a value. -/
def expVal : Val → Val
  | .fin m e => dec 9 (exp32 m e)
  | .inf true => .fin 0 0
  | v => v

/-- A value rounded to BF16. -/
def bf16 (v : Val) : Val := dec 8 (convert 8 0 0 false v).code

/-- What a pass over the tokens of a query vector leaves. -/
structure Pass where
  z : DaRec
  o : List DaRec
  m : Nat
  loss : Nat
  deriving DecidableEq, Repr, Inhabited

/-- One pass of R126 over visible tokens with an anchor and an upper bound. -/
def softPass (p : AttendP) (dim : Nat) (v : List Val) (ts : List Token) (a ub : Nat) : Pass :=
  let tau := dy 9 p.tau.toNat
  let e : Int := match expVal (subCode ub a) with
    | .fin m e => if m = 0 then -150 else elog m e
    | _ => -150
  let mode := if p.qfmt = 7 then modeQ else modeA
  let cq : Int := eOf p.qfmt.toNat v + 10
  let step (r : Pass) (t : Token) : Pass :=
    let dot := dotRec mode cq v (t.kcode.map (dec 5))
    let sc := match recVal dot with
      | .fin m e => rneDy (mulDy tau (mulDy (dy 7 t.kscale) (m, e)))
      | _ => 0x7FC00000
    let pv := bf16 (expVal (subCode sc a))
    let w := bf16 (mulVal pv (dec 7 t.vscale))
    { z := addProd r.z pv
      o := (r.o.zip t.vcode).map fun x => addProd x.1 (mulVal w (dec 5 x.2))
      m := if ltCode r.m sc then sc else r.m
      loss := r.loss + dot.loss.toNat }
  ts.foldl step { z := emptyRec modeA (e + 3), o := List.replicate dim (emptyRec modeA (e + 28)), m := 0xFF800000, loss := 0 }

/-- The result of one query vector: output codes, log-sum-exp, loss, rounding flags, whether it had no visible token,
whether it fell back, blocks scored in a fallback. -/
structure VecOut where
  codes : List Nat
  lse : Nat
  flags : RoundFlags
  empty : Bool
  fell : Bool
  again : Nat
  deriving DecidableEq, Repr, Inhabited

/-- The exact quotient of two records, rounded once. -/
def quotient (fmt : Nat) (o z : DaRec) : Rounded :=
  match recVal o, recVal z with
  | .fin m e, .fin n f =>
    if n = 0 then nanCode fmt
    else
      let (a, b) := frac m (e - f)
      if n < 0 then roundTo fmt 0 0 true (-a) (b * n.natAbs) else roundTo fmt 0 0 true a (b * n.natAbs)
  | .inf s, .fin n _ => convert fmt 0 0 true (.inf (s != decide (n < 0)))
  | _, _ => nanCode fmt

/-- a + ln z (R126, R131). -/
def logSumExp (a : Nat) (z : DaRec) : Nat :=
  match recVal z with
  | .fin m e =>
    if m ≤ 0 then 0x7FC00000
    else
      let (n, d) := frac m e
      let (zm, ze) := dy 9 (rne32 n d)
      let l := rneDy (mulDy (dy 9 (log2Of zm ze)) (dy 9 0x3F317218))
      match dec 9 a with
      | .fin am ae => rneDy (sumDy [(am, ae), dy 9 l])
      | .inf _ => a
      | .nan => 0x7FC00000
  | _ => 0x7FC00000

/-- Is a record zero with clear flags? -/
def recZero (r : DaRec) : Bool := r.value == 0 && !r.nan && !r.pinf && !r.ninf

/-- The output of one query vector (R126, R127, R132). -/
def attendVec (s : State) (x : Sess) (j : AttendJob) (i jh : Nat) : VecOut :=
  let h := jh / x.qPerKv
  let v := queryVec x j.p (inRegion j.e) i jh
  let vis := (j.selected.getD h []).filter fun g => visTokens x j i g != []
  if vis = [] then
    { codes := List.replicate x.headDim 0, lse := 0xFF800000, flags := {}, empty := true, fell := false, again := 0 }
  else
    let ys := vis.map (viewSummary s x j h)
    let a := anchorOf j.p (maxNat (ys.map (·.kmax))) v
    let ub := minCode32 a (maxCode32 (ys.map fun y => scoreBound j.p y v))
    let ts := vis.flatMap fun g => (visTokens x j i g).map (viewToken s x j h)
    let p1 := softPass j.p x.headDim v ts a ub
    let far := match subCode a p1.m, dec 9 a, dec 9 p1.m with
      | _, .fin am ae, .fin bm be => ltDy (80, 0) (sumDy [(am, ae), (-bm, be)])
      | .inf false, _, _ => true
      | _, _, _ => false
    let fell := far || recZero p1.z
    let (p, a) := if fell then (softPass j.p x.headDim v ts p1.m p1.m, p1.m) else (p1, a)
    let rs := p.o.map fun o => quotient j.p.ofmt.toNat o p.z
    let codes := rs.map (·.code)
    let isNan (c : Nat) : Bool := dec j.p.ofmt.toNat c == .nan
    { codes := codes
      lse := logSumExp a p.z
      flags := { loss := p.loss + p.z.loss.toNat + sumNat (p.o.map fun o => o.loss.toNat)
                 ovf := (p.o.filter fun o => o.ovf || p.z.ovf).length, sat := (rs.filter (·.sat)).length
                 invalid := (rs.filter (·.invalid)).length, nan := (codes.filter isNan).length }
      empty := false, fell := fell, again := if fell then vis.length else 0 }

/-! ### The command's result -/

/-- Every vector's output in buffer order (R131). -/
def attendAll (s : State) (x : Sess) (j : AttendJob) : List VecOut :=
  (List.range j.p.qtok).flatMap fun i => (List.range (queryHeads x)).map (attendVec s x j i)

/-- Blocks selected over all KV heads. -/
def blocksSelected (j : AttendJob) : Nat := sumNat (j.selected.map List.length)

/-- The output data: vectors, then the log-sum-exp values (R131). -/
def attendData (j : AttendJob) (vs : List VecOut) : Bytes :=
  pack j.p.ofmt.toNat (vs.flatMap (·.codes)) ++ vs.flatMap fun v => toLe 4 v.lse

/-- The flags of an ATTEND. -/
def attendFlags (vs : List VecOut) (outside : Bool) : VFlags :=
  { loss := vs.any fun v => decide (0 < v.flags.loss), ovf := vs.any fun v => decide (0 < v.flags.ovf)
    nan := vs.any fun v => decide (0 < v.flags.nan), outside := outside
    fallback := vs.any (·.fell), short := vs.any (·.empty) }

/-- The ATTEND part of the result record (R292). -/
def attendRecord (j : AttendJob) (vs : List VecOut) (data : Bytes) (outside : Bool) : Bytes :=
  resultRecord data.length (attendFlags vs outside) (sumNat (vs.map fun v => v.flags.loss))
    (toLe 8 (blocksSelected j + sumNat (vs.map (·.again))) ++ toLe 4 (vs.filter (·.empty)).length
      ++ toLe 4 (vs.filter (·.fell)).length ++ toLe 8 j.view ++ toLe 1 (if j.place then 1 else 0))

/-- The snapshot of R457: the summary of the last block of each stream of the layer, as the command used it. -/
def attendSnap (s : State) (x : Sess) (j : AttendJob) : Bytes :=
  if j.view = 0 then List.replicate (256 * x.kvHeads) 0
  else
    let g := viewBlocks j - 1
    (List.range x.kvHeads).flatMap fun h =>
      let gen := (metaUnit x (metaNo x j.p.layer h (g / 64) + 1)).map fun u =>
        leNat (readMedia s x.kvNsid (u * pageBytes + 256 * (g % 64) + 0x14) 4)
      summaryBytes (viewSummary s x j h g) (x.basePos.toNat + 64 * g) (gen.getD 0) (blockNo x j.p.layer h g)

/-! ### Failures and the append (R119, R130) -/

def opAttend : Nat := 0x83
def opReplay : Nat := 0x93

/-- Bytes by which an append raises a session's holdings (R267, R480). -/
def appendGrowth (old x : Sess) (j : AttendJob) : Nat :=
  if old.res = resCold then 0
  else warmBytes { x with layerTbl := x.layerTbl.put j.p.layer { count := BitVec.ofNat 64 j.view } } - warmBytes old

/-- End an ATTEND: its job goes, and an append's layer is free again. -/
def dropAttend (s : State) (j : AttendJob) : State :=
  let s := { s with attends := s.attends.filter fun a => a.e.key != j.e.key }
  if j.p.append then
    onSess s j.session fun x => { x with layerTbl := x.layerTbl.upd j.p.layer {} fun l => { l with busy := false } }
  else s

/-- Log an ATTEND in its session's flight log (R454, R457). -/
def logAttend (s : State) (j : AttendJob) (c : Code) (out : Bytes) : State :=
  match s.sess.get? j.session with
  | some x =>
    if x.flight then logFlight s j.session (commandEntry s j.e 0x83 c 0 0 out j.snap) else s
  | none => s

/-- An ATTEND fails after its checks: it writes and appends nothing (R130). -/
def attendFail (s : State) (j : AttendJob) (c : Code) (nsid lba : Nat) : State :=
  fail (dropAttend (logAttend s j c []) j) j.e.key c nsid lba

/-- The first unrecovered unit among those that a command reads. -/
def badUnit (s : State) (nsid : Nat) (us : List (Option Nat)) : Option Nat :=
  (us.filterMap id).find? fun u => (entryOf s nsid u).st == .unrecovered

/-- Index and summary pages that a command of a layer reads. -/
def pagesRead (x : Sess) (j : AttendJob) : List (Option Nat) :=
  (List.range x.kvHeads).flatMap fun h => (List.range (ceilDiv (viewBlocks j) 64)).flatMap fun r =>
    let m := metaNo x j.p.layer h r
    if m / 65536 < (metaExts x).length then [metaUnit x m, metaUnit x (m + 1)] else []

/-- Selected blocks that lie on flash or in the buffer: those of the view before the command's own tokens. -/
def blocksRead (x : Sess) (j : AttendJob) : List (Option Nat) :=
  let n := if j.p.append then j.view - j.p.qtok else j.view
  (List.range x.kvHeads).flatMap fun h => ((j.selected.getD h []).filter fun g => decide (64 * g < n)).map fun g =>
    kvUnit x (blockNo x j.p.layer h g)

/-- The writes that store the appended tokens of one KV head in one block: codes, scales, summary. -/
def appendBlock (s : State) (x : Sess) (j : AttendJob) (h g : Nat) : List (Nat × Bytes) :=
  let n := j.view - j.p.qtok
  let lo := max n (64 * g)
  let ts := ((blockTokens j g).filter fun t => decide (lo ≤ t)).map (viewToken s x j h)
  let i := lo - 64 * g
  let kb := ((kvUnit x (blockNo x j.p.layer h g)).getD 0) * pageBytes
  let m := metaNo x j.p.layer h (g / 64)
  let ib := ((metaUnit x m).getD 0) * pageBytes + 256 * (g % 64)
  let sb := ((metaUnit x (m + 1)).getD 0) * pageBytes + 256 * (g % 64)
  let row (c : List Nat) : Bytes := Bytes.sub (c.map (BitVec.ofNat 8)) 0 128
  let gen := leNat (readMedia s x.kvNsid (sb + 0x14) 4)
  [(kb + 128 * i, ts.flatMap fun t => row t.kcode), (kb + 0x2000 + 128 * i, ts.flatMap fun t => row t.vcode),
   (ib + 2 * i, ts.flatMap fun t => toLe 2 t.kscale), (ib + 128 + 2 * i, ts.flatMap fun t => toLe 2 t.vscale),
   (sb, summaryBytes (viewSummary s x j h g) (x.basePos.toNat + 64 * g) (gen + 1) (blockNo x j.p.layer h g))]

/-- Allocate what an append needs; answers whether there was room (R119). -/
def appendRoom (s : State) (j : AttendJob) : State × Bool :=
  match s.sess.get? j.session with
  | none => (s, false)
  | some x =>
    let g := viewBlocks j - 1
    let n := blockNo x j.p.layer (x.kvHeads - 1) g
    let m := metaNo x j.p.layer (x.kvHeads - 1) (g / 64) + 1
    match growTo s j.session false n (n / 65536 + 2) with
    | (s, false) => (s, false)
    | (s, true) => growTo s j.session true m (m / 65536 + 2)

/-- Blocks of a view that an append of its last `qtok` tokens writes. -/
def appendedBlocks (j : AttendJob) : List Nat :=
  (List.range (viewBlocks j)).filter fun g => decide (j.view - j.p.qtok < 64 * g + 64)

/-- What an append quantises: its keys and values, and the centroids of the blocks it fills (R117, R118). -/
def appendQuants (s : State) (x : Sess) (j : AttendJob) : List Num.Quant :=
  (List.range x.kvHeads).flatMap fun h =>
    ((List.range j.p.qtok).flatMap fun i =>
      [quantSym 5 (newVec x j.p (inRegion j.e) 0 i h), quantSym 5 (newVec x j.p (inRegion j.e) 1 i h)])
      ++ ((appendedBlocks j).filter fun g => (blockTokens j g).length == 64).map fun g =>
        centroidOf x.headDim ((blockTokens j g).map (viewToken s x j h))

/-- The pool copies of the entries that an append wrote, where the session has copies (R113). -/
def appendCopies (s : State) (j : AttendJob) : State :=
  match s.sess.get? j.session with
  | none => s
  | some x =>
    if x.res = resCold then s
    else
      ((List.range x.kvHeads).flatMap fun h => (appendedBlocks j).map fun g => (metaNo x j.p.layer h (g / 64), g % 64)).foldl
        (fun a q => loadEntry (loadEntry a j.session x q.1 q.2) j.session x (q.1 + 1) q.2) s

/-- Space for a session whose layer grows; it becomes Cold where it cannot be had (R233). -/
def growRegion (s : State) (j : AttendJob) (x : Sess) : State :=
  if x.res = resCold then s
  else
    match freeRegion s (appendGrowth x x j) (some j.session) with
    | (s, true) => s
    | (s, false) => becomeCold (dropGrant s j.session) j.session

/-- Write the appended tokens (R118, R119): codes, scales and summaries. Answers the buffer slots. -/
def appendWrite (s : State) (j : AttendJob) : State × List Nat :=
  match s.sess.get? j.session with
  | none => (s, [])
  | some x =>
    let ws := (List.range x.kvHeads).flatMap fun h => (appendedBlocks j).flatMap fun g => appendBlock s x j h g
    let s := (appendQuants s x j).foldl (fun a q => countQuant a q.zero q.sat q.invalid) s
    match ws.foldl (putSlots x.kvNsid) (growRegion s j x, []) with
    | (s, slots) => (appendCopies s j, slots)

/-- Does an append of a layer go on: it runs, waits for its programs, or is held (R120)? -/
def appending (s : State) (i l : Nat) : Bool :=
  let held (e : Sqe) : Bool := cdw12Lo e == i && (attendP (inRegion e)).append && (attendP (inRegion e)).layer == l
  (s.attends.any fun j => j.session == i && j.p.append && j.p.layer == l)
    || (s.syncWait.any fun w => (w.append.map fun a => a.1 == i && a.2.1 == l).getD false)
    || s.held.any fun j => j.opc == opAttend && held j.e

/-- Layers whose append has ended are free again (R120). -/
def freeLayers (s : State) : State :=
  { s with sess := s.sess.mapVals fun i x =>
      { x with layerTbl := x.layerTbl.mapVals fun l y => { y with busy := y.busy && appending s i l } } }

/-! ### The command at its fetch and at its end -/

/-- A layer of a session as the fetch of a command found it (R120). -/
def layerAtFetch (s : State) (k : CmdKey) (x : Sess) (l : Nat) : LayerSt :=
  (((flightOf s k).bind (·.view)).getD x.layerTbl).getD l {}

/-- Does an appending ATTEND find another in progress: one that ran at its fetch, or one that came between (R120)? -/
def layerTaken (s : State) (k : CmdKey) (x : Sess) (l : Nat) : Bool :=
  let at_ := layerAtFetch s k x l
  at_.busy || (x.layerTbl.getD l {}).busy || at_.count != (x.layerTbl.getD l {}).count

/-- The checks of R291 for an ATTEND, in their order, then read-only mode (R337). One that waited holds its layer. -/
def attendRefuse (s : State) (e : Sqe) (p : AttendP) (waited : Bool) : Option Code :=
  match vendorRefuse e, sessFor s e.fn (cdw12Lo e) with
  | some c, _ => some c
  | none, none => some Code.sessionUnknown
  | none, some x =>
    if !attendParamsOk x e p then some Code.invalidField
    else if p.append && !waited && layerTaken s e.key x p.layer then some Code.sessionBusy
    else if !keyOpen s x.account then some Code.keyLocked
    else if p.append && s.health.readOnly then some Code.writeProtected
    else none

/-- An appending ATTEND holds its layer from its fetch on (R120). -/
def holdLayer (s : State) (i : Nat) (p : AttendP) : State :=
  if p.append then onSess s i fun x => { x with layerTbl := x.layerTbl.upd p.layer {} fun l => { l with busy := true } } else s

/-- Hold an ATTEND behind a SESSION-MOVE (R230) or until a grant can be formed (R246). -/
def holdAttend (s : State) (e : Sqe) (p : AttendP) : State :=
  let s := holdLayer s (cdw12Lo e) p
  { s with held := s.held ++ [{ e := e, opc := opAttend, readDone := false, waited := true }] }

/-- Does the command run on the canopy engines (R129)? -/
def onCanopy (s : State) (k : CmdKey) (x : Sess) (p : AttendP) : Bool := decide (dvFor s k 0x420001 < p.qtok * x.qPerKv)

/-- Flash bytes of a list of units. -/
def flashBytes (s : State) (nsid : Nat) (us : List (Option Nat)) : Nat :=
  pageBytes * ((us.filterMap id).filter fun u => (entryOf s nsid u).st == .flash).length

/-- The entries of metadata pages in the pool that a command of a layer reads. -/
def entriesRead (x : Sess) (j : AttendJob) : List (Nat × Nat) :=
  let n := if j.p.append then j.view - j.p.qtok else j.view
  (List.range x.kvHeads).flatMap fun h => (headPages x j.p.layer h (ceilDiv n 64)).flatMap fun q => (List.range q.2).map fun r => (q.1, r)

/-- The pages of a command: from flash for a session served Cold (R233), else from the pool (R130). The answer is a page that
cannot be read. -/
def readPages (s : State) (x : Sess) (j : AttendJob) : State × Option Nat :=
  if j.cold then
    let n := flashBytes s x.kvNsid (pagesRead x j)
    (chargeFlash s x.account (some j.session) n, badUnit s x.kvNsid (pagesRead x j))
  else (entriesRead x j).foldl (readEntry j.session x) (s, none)

/-- Selection and anchors beside the channel are firmware work of the session's account (R129); how many cycles it takes the
spec does not say, and nothing constrains them here. -/
def chargeSelection (s : State) (x : Sess) (j : AttendJob) : State :=
  if j.place then s else let (n, s) := fresh s; charge s x.account (some j.session) fVec n

/-- An ATTEND takes its view and selects its blocks (R120, R123 to R125). -/
def attendBegin (s : State) (e : Sqe) (p : AttendP) (x : Sess) (place cold : Bool) : State :=
  let i := cdw12Lo e
  let view := (layerAtFetch s e.key x p.layer).count.toNat + (if p.append then p.qtok else 0)
  let j : AttendJob := { e := e, session := i, p := p, view := view, place := place, cold := cold }
  let j := { j with selected := (List.range x.kvHeads).map (selectBlocks s x j), snap := attendSnap s x j }
  let s := holdLayer { s with attends := s.attends ++ [j] } i p
  match readPages (chargeSelection s x j) x j with
  | (s, some u) => attendFail s j Code.unrecoveredRead x.kvNsid (4 * u)
  | (s, none) => s

/-- An ATTEND whose checks passed starts (R129, R232, R233); one for the canopy engines waits while its session can have no
grant (R246). -/
def attendStart (s : State) (e : Sqe) (p : AttendP) : State :=
  let i := cdw12Lo e
  let (s, cold) := touchSession s e.key i
  let place := match s.sess.get? i with | some x => onCanopy s e.key x p | none => false
  let (s, hot) := if place && !cold then makeHot s i else (s, true)
  match s.sess.get? i with
  | none => s
  | some x => if hot then attendBegin s e p x place cold else holdAttend s e p

/-- ATTEND at its fetch. -/
def attendBody (e : Sqe) (waited : Bool) (s : State) : State :=
  let p := attendP (inRegion e)
  match attendRefuse s e p waited with
  | some c => let s := fail s e.key c e.nsid; if waited then freeLayers s else s
  | none =>
    match s.sess.get? (cdw12Lo e) with
    | some x => if moveHolds x then holdAttend (takeView s e.key (cdw12Lo e)) e p else attendStart s e p
    | none => s

/-- Blocks that an ATTEND reads from flash, by channel and address. -/
def flashReads (s : State) (x : Sess) (j : AttendJob) : List (Fin 48 × Nat) :=
  ((blocksRead x j).filterMap id).filterMap fun u =>
    let e := entryOf s x.kvNsid u
    if e.st = .flash then some (homeOf s x.kvNsid u, e.loc) else none

/-- Class 0 block reads queued on a channel: those of its dies, and those of the other Class 0 commands that attend. -/
def c0BlockReads (s : State) (j : AttendJob) (ch : Fin 48) : Nat :=
  countOps s.channels[ch] (fun o => o.cls == 0 && !writes o) + sumNat (s.attends.map fun a =>
    match s.sess.get? a.session with
    | some x => if x.cls = 0 ∧ a.e.key ≠ j.e.key then ((flashReads s x a).filter (·.1 == ch)).length else 0
    | none => 0)

/-- Do the further conditions of Table 10-7 hold for an ATTEND? -/
def attendRow (s : State) (x : Sess) (j : AttendJob) (vs : List VecOut) : Bool :=
  let rs := flashReads s x j
  !j.cold && decide (x.kvHeads ≤ 8) && decide (j.p.selBlocks ≤ 256) && decide ((candidates x j).length ≤ 65536)
    && (List.finRange 48).all (fun ch => decide ((rs.filter (·.1 == ch)).length + c0BlockReads s j ch ≤ 192))
    && rs.all (fun r => !s.channels[r.1].ladders.has r.2) && vs.all fun v => !v.fell

/-- Slots that an append of a command needs: three 16 KiB units for each KV head and block written, those of their journal
records, and one for the token count's. -/
def appendSlots (x : Sess) (j : AttendJob) : Nat :=
  let n := 3 * x.kvHeads * ((List.range (viewBlocks j)).filter fun g => decide (j.view - j.p.qtok < 64 * g + 64)).length
  4 * n + journalSlots n + 1

/-- An ATTEND whose records are merged completes: counters, outputs, flight log, append, completion (R126 to R132,
R119, R253, R288, R292, R454). -/
def attendDone (s : State) (x : Sess) (j : AttendJob) : State :=
  let vs := attendAll s x j
  let fl := vs.foldl (fun a v => a.add v.flags) ({} : RoundFlags)
  let s := bump 0x606001 (vs.filter (·.fell)).length (countRound s fl)
  let n := flashBytes s x.kvNsid (blocksRead x j) + pageBytes * sumNat (vs.map (·.again))
  let s := chargeLink (charge s x.account (some j.session) fFlashRd n) x.account (some j.session) (if j.place then n else 0)
  let (s, outside) := if x.cls = 0 ∧ j.p.selective ∧ !j.place then c0Record s j.e.key (attendRow s x j vs) else (s, false)
  let data := attendData j vs
  let out := attendRecord j vs data outside ++ data
  let s := writeOutput s j.e (attendRecord j vs data outside) data
  let s := logAttend s j Code.ok out
  let (s, slots) := if j.p.append then appendWrite s j else (s, [])
  finishCommit { s with attends := s.attends.filter fun a => a.e.key != j.e.key }
    { key := j.e.key, slots := slots, nsid := x.kvNsid, dw0 := (vs.filter (·.empty)).length
      dw1 := (attendFlags vs outside).word % 256 + (if j.place then 256 else 0)
      append := if j.p.append then some (j.session, j.p.layer, j.view) else none }

/-- The end of an ATTEND: a failed block read or an append without room fails it (R119, R130, R267). Tokens past the last
64-bit position have no room (DESIGN CHOICE, log 18: R111 states the limit and no status). -/
def attendMerge (s : State) (x : Sess) (j : AttendJob) : State :=
  match badUnit s x.kvNsid (blocksRead x j) with
  | some u => attendFail s j Code.unrecoveredRead x.kvNsid (4 * u)
  | none =>
    if !j.p.append then attendDone s x j
    else
      let (t, room) := appendRoom s j
      match t.sess.get? j.session with
      | none => s
      | some y =>
        if !room ∨ 2 ^ 64 < x.basePos.toNat + j.view ∨ overQuota s x.account (appendGrowth x y j) then attendFail s j Code.capacity j.e.nsid 0
        else if freeSlots t < appendSlots y j then s
        else attendDone t y j

end Sys2Proof.Machine
end

