-- ==== Sys2Proof/Machine/LampSlots.lean ====
section
/-! DEFINITION. The context slots of a lamp cluster (spec 04 R99 to R104, spec 10 R236, spec 18 R450): which slot a dispatch
takes, the dispatches that wait, and the contexts of a command. -/

namespace Sys2Proof.Machine

/-! ### Slots and classes (R100, R103, R236, R450) -/

def cxFree : BitVec 4 := 0
def cxReady : BitVec 4 := 1
def cxWaiting : BitVec 4 := 3
def cxDone : BitVec 4 := 4
def cxFault : BitVec 4 := 5

/-- Context slots in service: 512 while no more than the 16 spares are used up (R104). Beyond that the highest slot numbers
go out of service (DESIGN CHOICE, log 28: the spec does not say which). -/
def slotsInService (k : Cluster) : Nat := 512 - (k.retiredSlots - 16)

/-- Contexts of a cluster that Classes 1 to 3 may hold together (R236, R450). -/
def restCap (s : State) (k : Cluster) : Nat := slotsInService k - c0Ctx s

/-- Contexts that a class holds. -/
def ctxCount (k : Cluster) (p : Nat → Bool) : Nat := (k.ctxs.filter fun x => x.2.state != cxFree && p x.2.cls.toNat).length

/-- The lowest free slot of a class (R103). -/
def ctxSlot (s : State) (k : Cluster) (cls : Nat) : Option Nat :=
  let free := (List.range (slotsInService k)).find? fun i => (k.ctxs.getD i {}).state == cxFree
  if k.retired then none
  else if cls = 0 then free
  else if ctxCount k (· == cls) < min (ctxCap s cls) (restCap s k) ∧ ctxCount k (· != 0) < restCap s k then free
  else none

def onCtx (s : State) (ch : Fin 48) (i : Nat) (f : Ctx → Ctx) : State :=
  onCluster s ch fun k => { k with ctxs := k.ctxs.upd i {} f }

/-- A context ends as fault (R102). -/
def ctxFaulted (x : Ctx) (code : Nat) : Ctx := { x with state := cxFault, faultCode := BitVec.ofNat 16 code }

/-- The context that a dispatch starts. -/
def ctxOf (d : LampDispatch) : Ctx :=
  let f := lampFields d.dw
  { state := cxReady, cls := BitVec.ofNat 2 f.cls, kernel := BitVec.ofNat 4 f.kernel, account := BitVec.ofNat 16 d.account
    tag := BitVec.ofNat 32 f.tag, lidx := BitVec.ofNat 64 f.lidx, budget := BitVec.ofNat 32 f.budget
    reply := BitVec.ofNat 64 f.reply, seed := d.seed, core := d.core, cmd := d.cmd }

/-- The cluster that serves a channel: its own, or, where that is retired, the other of its root die (R450). -/
def servedBy (s : State) (ch : Fin 48) : Fin 48 := if s.clusters[ch].retired then chIx (ch.val / 2 * 2 + 1 - ch.val % 2) else ch

/-- The slot in which a dispatch starts at once: none while an earlier one of its class waits, or no slot is free. -/
def slotNow (s : State) (k : Cluster) (cls : Nat) : Option Nat :=
  if k.queue.any fun q => (lampFields q.dw).cls == cls then none else ctxSlot s k cls

/-- A dispatch waits in the queue of 256; a full queue stalls its sender. The answer says whether the cluster took it. -/
def queueDispatch (s : State) (ch : Fin 48) (d : LampDispatch) : State × Bool :=
  if s.clusters[ch].queue.length < 256 then (onCluster s ch fun k => { k with queue := k.queue ++ [d] }, true)
  else (onCluster s ch fun k => { k with stalledSenders := k.stalledSenders ++ [d] }, false)

/-- Does a dispatch of a command still wait for a slot of a cluster? -/
def dispatchWaits (k : Cluster) (key : CmdKey) (tag : Nat) : Bool :=
  (k.queue ++ k.stalledSenders).any fun d => d.cmd == some key && (lampFields d.dw).tag == tag

/-- The contexts of a command in a cluster whose tag satisfies a test end by their own reply: a slot is free when every
request of its context has returned (R102). -/
def endCtxs (key : CmdKey) (p : Nat → Bool) (k : Cluster) : Cluster :=
  let mine (x : Ctx) : Bool := x.cmd == some key && p x.tag.toNat
  { k with
    ctxs := (k.ctxs.keep fun _ x => !(mine x && x.outstanding == 0)).mapVals fun _ x =>
      if mine x then { x with state := cxDone, posted := true } else x
    units := k.units.mapVals fun _ l => l.filter fun i => !((k.ctxs.get? i).map mine).getD false }

/-- An abort ends the contexts that firmware started for a command as fault, and its dispatches that wait start nothing (R102);
a program's contexts end with the program. -/
def abortServing (key : CmdKey) (k : Cluster) : Cluster :=
  let waits (d : LampDispatch) : Bool := !(d.cmd == some key && d.core.isNone)
  { k with
    queue := k.queue.filter waits, stalledSenders := k.stalledSenders.filter waits
    ctxs := k.ctxs.mapVals fun _ x =>
      if x.cmd = some key ∧ x.core.isNone ∧ x.state ≠ cxDone ∧ x.state ≠ cxFault then ctxFaulted x 5 else x }

/-! ### Walkers of a query (R148, R164) -/

/-- The dispatch of a walker: its class, and the node it expands as its TAG. READ_BUDGET is as large as it can be, and the walker
replies to its lead, not to a pool address (DESIGN CHOICE, log 28: firmware's kernels are not in the spec). -/
def walkerDispatch (key : CmdKey) (acct cls node : Nat) : LampDispatch :=
  let ones : W32 := BitVec.allOnes 32
  { dw := [BitVec.ofNat 32 (256 * cls), 0, BitVec.ofNat 32 node, ones, 0, 0, 0, ones, ones] ++ List.replicate 7 0
    account := acct, seed := 0, core := none, cmd := some key }

/-- Class of a command in flight. -/
def flightClass (s : State) (key : CmdKey) : Nat := ((flightOf s key).map (·.cls)).getD (queueClass s key)

/-- A walker is dispatched to the cluster of its node's home channel (R136). -/
def sendWalker (key : CmdKey) (acct : Nat) (s : State) (node : Nat) : State :=
  let ch := servedBy s (chIx node)
  let cls := flightClass s key
  let d := walkerDispatch key acct cls node
  let s := chargeLink s acct none 64
  match slotNow s s.clusters[ch] cls with
  | some i => onCluster s ch fun k => { k with ctxs := k.ctxs.put i (ctxOf d) }
  | none => (queueDispatch s ch d).1

/-- Does the walker of a node still wait for a context? -/
def walkerWaits (s : State) (key : CmdKey) (node : Nat) : Bool := s.clusters.toList.any fun k => dispatchWaits k key node

/-- The walkers of some nodes of a query have replied: their contexts end. -/
def endWalkersOf (s : State) (key : CmdKey) (p : Nat → Bool) : State := { s with clusters := s.clusters.map (endCtxs key p) }

/-- No walker of a query goes on. -/
def endWalkers (s : State) (key : CmdKey) : State :=
  { s with clusters := s.clusters.map fun k =>
      let k := endCtxs key (fun _ => true) k
      { k with queue := k.queue.filter (·.cmd != some key), stalledSenders := k.stalledSenders.filter (·.cmd != some key) } }

end Sys2Proof.Machine
end

