-- ==== Sys2Proof/Machine/SearchOps.lean ====
section
/-! DEFINITION. Indexes (R134 to R146, R479): slots, codes, distances, inserts, commits, compaction; predicates (R157,
R158); queries (R147 to R156), scans (R159 to R161) and the recall probe (R163). -/

namespace Sys2Proof.Machine

open Num

/-! ### An index and its namespace (R134 to R137, R479) -/

def indexLimit : Nat := 1024

/-- Units of the code-table copy and of the codebook copy. -/
def codeUnits (slots csub : Nat) : Nat := ceilDiv (slots * csub / 2) 4096
def bookUnits (vdim csub : Nat) : Nat := ceilDiv (codebookBytes vdim csub) 4096

/-- Does a slot count fit a namespace of `u` units (R479)? -/
def slotsFit (u vdim csub n : Nat) : Bool :=
  decide (n + codeUnits n csub + bookUnits vdim csub ≤ u) && decide (n ≤ 2 ^ 32 - 1)

/-- The largest slot count that fits, by bits from `2 ^ i` down on top of `r`. -/
def slotCountFrom (u vdim csub : Nat) : Nat → Nat → Nat
  | 0, r => if slotsFit u vdim csub (r + 1) then r + 1 else r
  | i + 1, r => slotCountFrom u vdim csub i (if slotsFit u vdim csub (r + 2 ^ (i + 1)) then r + 2 ^ (i + 1) else r)

def slotCount (u vdim csub : Nat) : Nat := slotCountFrom u vdim csub 31 0

/-- The index of an id that the submitting account owns and that is not being destroyed. -/
def indexFor (s : State) (fn : Fin 128) (id : Nat) : Option Index :=
  match s.indexes.get? id with
  | some x => if x.account = acctOf fn ∧ x.destroying = none then some x else none
  | none => none

/-- The index that occupies a namespace. -/
def indexOfNs (s : State) (nsid : Nat) : Option Nat := (s.indexes.find? (·.2.nsid == nsid)).map (·.1)

def onIndex (s : State) (i : Nat) (f : Index → Index) : State := { s with indexes := s.indexes.mod i f }

/-- The generation a query reads; generation 0, before the first commit, holds nothing. -/
def genOf (x : Index) (g : Nat) : Gen := x.gens.getD g {}

/-- The oldest retained generation. -/
def oldestGen (s : State) (i : Nat) (x : Index) : Nat :=
  ((x.gens.map (·.1)).filter (retainedGen s i x)).headD x.cur

/-- Largest code of VFMT (R138). -/
def vfmtOf (x : Index) : Nat := x.vfmt.toNat

/-- The stored elements of a node, decoded: VSCALE × code (R138). -/
def nodeVec (x : Index) (n : Node) : List (Int × Int) :=
  n.vec.map fun b => mulDy (dy 7 n.vscale.toNat) (dy (vfmtOf x) b.toNat)

/-- The 4,096 bytes of a node slot (Table 6-2). -/
def slotBytes (ν : Nat) (n : Node) : Bytes :=
  Bytes.sub (toLe 8 n.userId.toNat ++ toLe 4 ν ++ toLe 1 n.nbr.length
    ++ toLe 1 ((if n.tomb then 1 else 0) + (if n.entry then 2 else 0)) ++ toLe 2 n.vscale.toNat ++ toLe 4 n.insGen
    ++ toLe 4 n.delGen ++ toLe 2 n.payload.length ++ List.replicate 6 0
    ++ (List.range 64).flatMap (fun i => toLe 4 (n.nbr.getD i 0xFFFFFFFF)) ++ Bytes.sub n.attr 0 128
    ++ Bytes.sub n.payload 0 608 ++ n.vec) 0 4096

/-! ### Compressed codes and distances (R139 to R141) -/

/-- Width of a subspace. -/
def subDim (x : Index) : Nat := x.vdim / x.csub

/-- Centroid `k` of subspace `c`. -/
def centroid (b : Codebook) (c k : Nat) : Bytes × BitVec 16 × BitVec 32 := (b.cents.getD c []).getD k ([], 0, 0)

/-- A decoded centroid. -/
def centVec (b : Codebook) (c k : Nat) : List (Int × Int) :=
  let (codes, sc, _) := centroid b c k
  codes.map fun v => mulDy (dy 7 sc.toNat) (dy 5 v.toNat)

/-- Squared distance of exact vectors. -/
def sqDist (a b : List (Int × Int)) : Int × Int :=
  sumDy ((a.zip b).map fun p => let d := sumDy [p.1, (-p.2.1, p.2.2)]; mulDy d d)

/-- The code of a vector: the nearest centroid of each subspace, the lowest on a tie. DEDUCED, log 20: the spec says
that a code picks a centroid, not which. -/
def codeOf (x : Index) (b : Codebook) (v : List (Int × Int)) : List Nat :=
  (List.range x.csub).map fun c =>
    let part := (v.drop (c * subDim x)).take (subDim x)
    ((List.range 16).foldl (fun (a : Nat × Option (Int × Int)) k =>
      let d := sqDist part (centVec b c k)
      match a.2 with
      | none => (k, some d)
      | some m => if ltDy d m then (k, some d) else a) (0, none)).1

/-- The contribution t[c][k] (R140) as an FP32 code. -/
def contribution (x : Index) (b : Codebook) (q : List (Int × Int)) (c k : Nat) : Nat :=
  let part := (q.drop (c * subDim x)).take (subDim x)
  let (m, e) := dotDy part (centVec b c k)
  let (_, _, n) := centroid b c k
  if x.metric = 0 then rneDy (sumDy [dy 9 n.toNat, (-2 * m, e)]) else rneDy (-m, e)

/-- The table LUT of a query (R140). A contribution that is not finite has no stated result: its entry is free. -/
def lutOf (x : Index) (b : Codebook) (qc : List W16) (q : List (Int × Int)) : List (List Nat) :=
  let t := (List.range x.csub).map fun c => (List.range 16).map (contribution x b q c)
  let shift := t.map fun row =>
    let lo := row.foldl minCode32 0x7F800000
    row.map fun a => sumDy [dy 9 a, (let d := dy 9 lo; (-d.1, d.2))]
  let top := (shift.flatMap id).foldl (fun a d => if ltDy a d then d else a) (0, 0)
  let scale := if top.1 = 0 then dy 9 0x3F800000 else let (n, d) := frac top.1 top.2; dy 9 (ru32 n (d * 255))
  (List.range x.csub).map fun c => (List.range 16).map fun k =>
    if (dec 9 ((t.getD c []).getD k 0)).isFin then
      let (m, e) := (shift.getD c []).getD k (0, 0)
      let (n, d) := frac m (e - scale.2)
      min 255 (roundInt 0 0 n (d * scale.1.natAbs)).toNat
    else Config.lutOverflow qc c k % 256

/-- d_a of a code under a table. -/
def approx (lut : List (List Nat)) (code : List Nat) : Nat :=
  sumNat ((List.range code.length).map fun c => (lut.getD c []).getD (code.getD c 0) 0)

/-- d_f (R141) as an FP32 code. -/
def fullDist (x : Index) (q : List (Int × Int)) (n : Node) : Nat :=
  if x.metric = 0 then rneDy (sqDist q (nodeVec x n))
  else let (m, e) := dotDy q (nodeVec x n); rneDy (-m, e)

/-! ### The code table and the codebook in the pool (R139, R156, R479) -/

/-- The record of a node number: the pending one, else one that a generation holds. A node number is not reused while a
retained generation holds it (R143). -/
def nodeOf (x : Index) (ν : Nat) : Option Node := (x.pending.nodes.get? ν).or (x.gens.findSome? fun p => p.2.nodes.get? ν)

/-- A byte of the code table. -/
def codeByte (look : Nat → Option Node) (csub a : Nat) : Byte :=
  let per := csub / 2
  match look (a / per) with
  | some y => BitVec.ofNat 8 (y.code.getD (2 * (a % per)) 0 + 16 * y.code.getD (2 * (a % per) + 1) 0)
  | none => 0

/-- The bytes of a codebook: for each subspace, 16 centroids of codes, scale and squared norm. DESIGN CHOICE, log 78:
the spec gives the size of the copy, not its order. -/
def codebookImage (b : Codebook) : Bytes :=
  b.cents.flatMap fun c => c.flatMap fun k => k.1 ++ toLe 2 k.2.1.toNat ++ toLe 4 k.2.2.toNat

/-- Where an index's codes and codebook lie in the pool (DESIGN CHOICE, log 15), and their durable copies in its namespace. -/
def codeTableAt (i : Nat) : Nat := indexCopies i
def bookAt (i : Nat) : Nat := indexCopies i + 2 ^ 45
def codesOff (x : Index) : Nat := 4096 * x.slots
def bookOff (s : State) (x : Index) : Nat := 4096 * (((s.nss.get? x.nsid).map (·.nsze)).getD 0 - bookUnits x.vdim x.csub)

/-- Write the code of a node into the pool: firmware composes whole words (R214). -/
def putCode (i : Nat) (x : Index) (s : State) (ν : Nat) : State :=
  (wordSpan (ν * (x.csub / 2)) (x.csub / 2)).foldl (fun a w =>
    writeWord a (codeTableAt i + 32 * w) ((List.range 32).map fun k => codeByte (nodeOf x) x.csub (32 * w + k)) (tagOf s x.account)) s

/-- Write the codebook into the pool. -/
def putBook (i : Nat) (x : Index) (s : State) : State :=
  match x.codebook with
  | some b => (writeMem s (bookAt i) (Bytes.sub (codebookImage b) 0 (roundUp (codebookBytes x.vdim x.csub) 32)) (tagOf s x.account)).1
  | none => s

/-- Copy an index's codes and codebook into the pool. -/
def loadCodes (s : State) (i : Nat) : State :=
  match s.indexes.get? i with
  | none => s
  | some x =>
    if x.codebook.isNone then s
    else ((x.gens.flatMap fun p => p.2.nodes.map (·.1)).eraseDups).foldl (putCode i x) (putBook i x s)

/-- Read a word of a pool copy. One that fails its check code is reloaded from the durable copy at a namespace offset; the
answer is the unit that cannot be read (R139, R156). -/
def readCopy (nsid off a tag : Nat) (r : State × Option Nat) : State × Option Nat :=
  match readWord r.1 a tag with
  | (s, o) =>
    if o.data?.isSome then (s, r.2)
    else if unitLost s nsid (off / 4096) then (s, r.2.or (some (off / 4096)))
    else (writeWord s a (readMedia s nsid off 32) tag, r.2)

/-- Read the code of a node. -/
def readNodeCode (i : Nat) (x : Index) (s : State) (ν : Nat) : State × Option Nat :=
  (wordSpan (ν * (x.csub / 2)) (x.csub / 2)).foldl
    (fun r w => readCopy x.nsid (codesOff x + 32 * w) (codeTableAt i + 32 * w) (tagOf s x.account) r) (s, none)

/-- Read the codes of nodes, charged to the index's account: those that cannot be read, each with the unit of its durable
copy. -/
def readCodes (i : Nat) (x : Index) (s : State) (ns : List Nat) : State × List (Nat × Nat) :=
  if x.codebook.isNone then (s, [])
  else
    let (s, bad) := ns.foldl (fun (a : State × List (Nat × Nat)) n =>
      match readNodeCode i x a.1 n with
      | (s, some u) => (s, a.2 ++ [(n, u)])
      | (s, none) => (s, a.2)) (s, [])
    (charge s x.account none fPoolRd (ns.length * (x.csub / 2)), bad)

/-- Read the codebook, charged to the index's account; the answer is the unit that cannot be read. -/
def readBook (i : Nat) (x : Index) (s : State) : State × Option Nat :=
  if x.codebook.isNone then (s, none)
  else
    let n := codebookBytes x.vdim x.csub
    let r := (List.range (ceilDiv n 32)).foldl
      (fun r w => readCopy x.nsid (bookOff s x + 32 * w) (bookAt i + 32 * w) (tagOf s x.account) r) (s, none)
    (charge r.1 x.account none fPoolRd n, r.2)

/-! ### Inserts and deletes (R138, R143, R144) -/

/-- The live node of a USER_ID. -/
def liveUser (g : Gen) (u : BitVec 64) : Option Nat := (g.nodes.find? fun p => p.2.userId == u && !p.2.tomb).map (·.1)

/-- Is a node live in a generation? -/
def liveNode (g : Gen) (n : Nat) : Bool := match g.nodes.get? n with | some x => !x.tomb | none => false

/-- Tombstone a node in the pending changes; `delGen` is set when a commit publishes it. -/
def tombNode (g : Gen) (n : Nat) : Gen := { g with nodes := g.nodes.mod n fun x => { x with tomb := true } }

/-- Delete a USER_ID from the pending changes; answers whether it was live. -/
def deleteUser (x : Index) (u : BitVec 64) : Index × Bool :=
  match liveUser x.pending u with
  | some n => ({ x with pending := tombNode x.pending n, dirty := true }, true)
  | none => (x, false)

/-- Rank of a candidate in an insert's search, as an exact value: d_a, or d_f before the codebook exists (R139). -/
def insertRank (x : Index) (lut : Option (List (List Nat))) (q : List (Int × Int)) (n : Node) : Int × Int :=
  match lut with
  | some l => (approx l n.code, 0)
  | none => dy 9 (fullDist x q n)

/-- Order of candidates: rank, then node number. -/
def candLt (a b : (Int × Int) × Nat × Bool) : Bool :=
  ltDy a.1 b.1 || (!ltDy b.1 a.1 && decide (a.2.1 < b.2.1))

/-- The search of an insert: expand the first unexpanded candidate of a list of at most `l` until none is left. The
fuel is the number of nodes. -/
def insertSearch (x : Index) (rank : Node → Int × Int) (l : Nat) :
    Nat → List ((Int × Int) × Nat × Bool) → List Nat → List Nat
  | 0, beam, _ => beam.map (·.2.1)
  | fuel + 1, beam, seen =>
    match beam.find? fun b => !b.2.2 with
    | none => beam.map (·.2.1)
    | some b =>
      let beam := beam.map fun c => if c.2.1 = b.2.1 then (c.1, c.2.1, true) else c
      let new := (((x.pending.nodes.get? b.2.1).map (·.nbr)).getD []).filter fun n => !seen.contains n
      let add := new.eraseDups.filterMap fun n => (x.pending.nodes.get? n).map fun y => (rank y, n, false)
      let beam := (add.foldl (fun a c => insertBy candLt c a) beam).take l
      insertSearch x rank l fuel beam (seen ++ new)

/-- The ALPHA prune of candidates of a node: at most MAXDEG live ones (R143). -/
def pruneTo (x : Index) (self : Nat) (v : List (Int × Int)) (cands : List Nat) : List Nat :=
  let live := (cands.filter fun n => n != self && liveNode x.pending n).eraseDups
  let withD := live.filterMap fun n => (x.pending.nodes.get? n).map fun y => (n, BitVec.ofNat 32 (fullDist x v y))
  ((Config.alphaPrune x.alpha x.maxdeg self withD).filter live.contains).eraseDups.take x.maxdeg

/-- Add an edge to a node; a list beyond MAXDEG is pruned. -/
def addEdge (x : Index) (frm dst : Nat) : Index :=
  match x.pending.nodes.get? frm with
  | none => x
  | some y =>
    if y.nbr.contains dst then x
    else
      let l := y.nbr ++ [dst]
      let l := if x.maxdeg < l.length then pruneTo x frm (nodeVec x y) l else l
      { x with pending := { x.pending with nodes := x.pending.nodes.put frm { y with nbr := l } } }

/-- Grow the entry points to ENTRIES from the nodes inserted so far (R135). The choice is the module's: free. -/
def growEntries (x : Index) : Index :=
  let g := x.pending
  if x.nentries ≤ g.entries.length then x
  else
    let nodes := g.nodes.map (·.1)
    let picked := (Config.pickEntries x.nentries nodes).filter fun n => nodes.contains n && !g.entries.contains n
    let es := (g.entries ++ picked.eraseDups).take x.nentries
    let es := if es = [] then nodes.take 1 else es
    { x with pending := { g with entries := es, nodes := g.nodes.mapVals fun n y => { y with entry := es.contains n } } }

/-- A node number that an insert may take: none that the pending changes or a retained generation holds (R143). -/
def freeNode (s : State) (i : Nat) (x : Index) : Option Nat :=
  let held := x.gens.filter fun p => retainedGen s i x p.1
  let used (n : Nat) : Bool := x.pending.nodes.has n || held.any fun p => p.2.nodes.has n
  let lim := x.pending.nodes.length + sumNat (held.map fun p => p.2.nodes.length) + 1
  ((List.range (min x.slots lim)).find? fun n => !used n)

/-- 64 KiB steps of the code table for node numbers up to `n`. -/
def stepsFor (x : Index) (n : Nat) : Nat := ceilDiv ((n + 1) * x.csub / 2) 65536

/-- One entry of an insert: its USER_ID, attributes, payload and vector. -/
structure Entry where
  userId : BitVec 64
  attr : Bytes
  payload : Bytes
  fmt : Nat
  vec : List W16
  deriving DecidableEq, Repr, Inhabited

/-- Insert a node into the pending changes of an index (R138, R139, R143, R479); answers whether it was
inserted. -/
def insertEntry (s : State) (i : Nat) (e : Entry) : State × Bool :=
  match s.indexes.get? i with
  | none => (s, false)
  | some x =>
    let vals := e.vec.map fun c => dec e.fmt c.toNat
    if !(vals.all Val.isFin) then (s, false)
    else
      match freeNode s i x with
      | none => (s, false)
      | some n =>
        let more := stepsFor x n - x.codeSteps
        if more ≠ 0 ∧ (regionFree s < 65536 * more ∨ overQuota s x.account (65536 * more)) then (s, false)
        else
          let x := (deleteUser { x with codeSteps := x.codeSteps + more } e.userId).1
          let q := quantSym (vfmtOf x) vals
          let t := countQuant s q.zero q.sat q.invalid
          let y : Node := { userId := e.userId, vscale := BitVec.ofNat 16 q.scale, attr := Bytes.sub e.attr 0 128
                            payload := e.payload, vec := q.codes.map (BitVec.ofNat 8) }
          let v := nodeVec x y
          let y := { y with code := match x.codebook with | some b => codeOf x b v | none => [] }
          let lut := x.codebook.map fun b => lutOf x b [] v
          let rank := insertRank x lut v
          let start := x.pending.entries.filterMap fun m => (x.pending.nodes.get? m).map fun z => (rank z, m, false)
          let beam := start.foldl (fun a c => insertBy candLt c a) []
          let found := insertSearch x rank x.buildL (x.pending.nodes.length + 1) beam x.pending.entries
          let nbr := pruneTo x n v found
          let x := { x with pending := { x.pending with
            nodes := x.pending.nodes.put n { y with nbr := nbr }, highest := max x.pending.highest n }, dirty := true }
          let x := nbr.foldl (fun a m => addEdge a m n) x
          let x := growEntries x
          (if x.codebook.isSome then putCode i x (onIndex t i fun _ => x) n else onIndex t i fun _ => x, true)

/-! ### Ingest bindings (R169 to R172) -/

/-- Change the binding of an index. -/
def onIngest (s : State) (i : Nat) (f : Ingest → Ingest) : State :=
  { s with ingests := s.ingests.map fun g => if g.index = i then f g else g }

/-- The segment in progress or at the head of the queue is done: its changes are applied, to be committed. -/
def segmentDone (seg : Segment) (g : Ingest) : Ingest := { g with current := none, applied := g.applied ++ [seg] }

/-- The next segment leaves the queue; one of BACKFILL that found no room takes its entry. -/
def popSegment (g : Ingest) : Ingest := { g with queue := g.queue.drop 1 ++ g.later.take 1, later := g.later.drop 1 }

/-- What a binding has applied is committed. -/
def ingestCommitted (g : Ingest) : Ingest := { g with sinceCommit := 0, applied := [], committed := g.chunks }

/-- A rejected segment is counted and recorded (R171). The spec gives REASON no values: it is a free value. -/
def rejectSegment (s : State) (g : Ingest) (seg : Segment) : State :=
  let (r, s) := fresh (bump 0x608003 1 s)
  logEvent s dieTrunk 0x0009 { account := g.account }
    (toLe 2 g.index ++ toLe 4 g.srcNs ++ toLe 8 seg.offset ++ toLe 4 seg.length ++ toLe 1 (r % 256))

/-- The program of a binding has failed: its segment is rejected, and the binding goes on with the next (R171). -/
def bindingFailed (s : State) (i : Nat) : State :=
  match s.ingests.find? (·.index == i) with
  | none => s
  | some g =>
    match g.current with
    | none => s
    | some seg => rejectSegment (onIngest s i (segmentDone seg)) g seg

/-! ### Publishing a generation (R139, R142, R145, R479) -/

/-- The nodes of `g` that differ from those of `old`. -/
def changedNodes (old g : Gen) : List Nat := (g.nodes.filter fun p => old.nodes.get? p.1 != some p.2).map (·.1)

/-- The bytes of a code-table unit's durable copy: the codes of the generations, not of pending inserts. -/
def codeUnitBytes (x : Index) (u : Nat) : Bytes :=
  (List.range 4096).map fun k => codeByte (fun ν => x.gens.reverse.findSome? fun p => p.2.nodes.get? ν) x.csub (u * 4096 + k)

/-- The code-table units that hold the code of a node. -/
def codeUnitsOf (x : Index) (n : Nat) : List Nat :=
  let per := x.csub / 2
  (List.range ((n * per + per - 1) / 4096 + 1 - n * per / 4096)).map (n * per / 4096 + ·)

/-- Write the slots that changed, and the durable copies of their codes and, when it is new, of the codebook. -/
def writeGen (s : State) (x : Index) (old g : Gen) (newBook : Bool) : State :=
  let ch := changedNodes old g
  let s := ch.foldl (fun a n => match g.nodes.get? n with
    | some y => putMedia a x.nsid (4096 * n) (slotBytes n y)
    | none => a) s
  let units := (ch.flatMap (codeUnitsOf x)).eraseDups
  let s := units.foldl (fun a u => putMedia a x.nsid (codesOff x + 4096 * u) (codeUnitBytes x u)) s
  match newBook, x.codebook with
  | true, some b => putMedia s x.nsid (bookOff s x) (codebookImage b)
  | _, _ => s

/-- Slots of the write buffer that publishing waits for. -/
def writeGenSlots (s : State) (x : Index) (old g : Gen) : Nat :=
  let n := 3 * (changedNodes old g).length + bookUnits x.vdim x.csub
  slotsFor s (n + journalSlots n)

/-- A trained codebook has the shape of R139 whatever training gives: 16 centroids for each subspace, each of its elements
in FP8 E4M3 with an FP16 scale and the squared norm of what they decode to; centroids beyond the distinct slices repeat
the last one. -/
def bookOf (x : Index) (raw : Codebook) (vs : List (List (Int × Int))) : Codebook :=
  { cents := (List.range x.csub).map fun c =>
      let slices := (vs.map fun v => (v.drop (c * subDim x)).take (subDim x)).eraseDups.length
      (List.range 16).map fun k =>
        let (codes, sc, _) := centroid raw c (min k (slices - 1))
        let codes := Bytes.sub codes 0 (subDim x)
        let v := codes.map fun y => mulDy (dy 7 sc.toNat) (dy 5 y.toNat)
        (codes, sc, BitVec.ofNat 32 (rneDy (dotDy v v))) }

/-- Training draw `n` (Table 8-2): the whole block of stream 0x6002, with draw number 0. -/
def trainingDraw (seed : W64) (n : Nat) : List Nat := Rand.block seed 0x6002 n 0

/-- Train the codebook at the first commit, and code every node (R139). -/
def trainBook (x : Index) : Index :=
  match x.codebook with
  | some _ => x
  | none =>
    let vs := (x.pending.nodes.take 262144).map fun p => nodeVec x p.2
    let b := bookOf x (Config.trainCodebook (trainingDraw x.seed) x.vdim x.csub vs) vs
    { x with codebook := some b
             pending := { x.pending with nodes := x.pending.nodes.mapVals fun _ y => { y with code := codeOf x b (nodeVec x y) } } }

/-- Does the share of tombstoned nodes start compaction (R145)? Judged whenever a chunk may run. -/
def compactDue (s : State) (g : Gen) : Bool :=
  decide (dv s 0x421002 * g.nodes.length < 100 * (g.nodes.filter (·.2.tomb)).length)

/-- Publish the pending changes as the next generation (R142); nothing when there are none. -/
def publishIndex (s : State) (i : Nat) : State :=
  match s.indexes.get? i with
  | none => s
  | some x =>
    if !x.dirty then s
    else
      let newBook := x.codebook.isNone
      let x := trainBook x
      let g := x.cur + 1
      let old := genOf x x.cur
      let stamp (y : Node) : Node :=
        { y with insGen := if y.insGen = 0 then g else y.insGen, delGen := if y.tomb ∧ y.delGen = 0 then g else y.delGen }
      let p := { x.pending with nodes := x.pending.nodes.mapVals fun _ y => stamp y }
      let y := { x with pending := p, cur := g, gens := x.gens.put g p, dirty := false }
      let s := writeGen (onIndex s i fun _ => y) y old p newBook
      let s := if newBook then loadCodes s i else s
      onIngest s i ingestCommitted

/-- Is a node number tombstoned in a generation, or, in neither it nor the graph at work, gone? -/
def tombedIn (cur g : Gen) (n : Nat) : Bool := match cur.nodes.get? n with | some y => y.tomb | none => !g.nodes.has n

/-- Compaction of the node numbers of a chunk in one graph (R145); the tombstones are those of generation `cur`. -/
def compactGraph (x : Index) (cur : Gen) (lo hi : Nat) : Gen :=
  let g := x.pending
  let tomb := tombedIn cur g
  let fix (n : Nat) (y : Node) : Node :=
    if lo ≤ n ∧ n < hi ∧ !tomb n ∧ y.nbr.any tomb then
      let others := y.nbr.filter fun m => !tomb m
      let live := (y.nbr.filter tomb).flatMap fun m => (((g.nodes.get? m).map (·.nbr)).getD []).filter fun k => !tomb k
      { y with nbr := pruneTo x n (nodeVec x y) (others ++ live) }
    else y
  let nodes := g.nodes.mapVals fix
  let nearest (n : Nat) : Option Nat :=
    match g.nodes.get? n with
    | none => none
    | some y => ((nodes.filter fun p => !p.2.tomb).foldl (fun (a : Option (Nat × Nat)) p =>
        let d := fullDist x (nodeVec x y) p.2
        match a with
        | none => some (d, p.1)
        | some b => if ltCode d b.1 then some (d, p.1) else a) none).map (·.2)
  let es := (g.entries.map fun n => if lo ≤ n ∧ n < hi ∧ tomb n then (nearest n).getD n else n).eraseDups
  let named := (nodes.flatMap fun p => p.2.nbr) ++ es
  let nodes := nodes.keep fun n y => !(decide (lo ≤ n) && decide (n < hi) && y.tomb && tomb n && !named.contains n)
  { g with nodes := nodes.mapVals fun n y => { y with entry := es.contains n }, entries := es }

/-- The chunk that a compaction in progress, or one that is due, does next (R145). -/
def nextChunk (s : State) (x : Index) : Option Nat := x.compactAt.or (if compactDue s (genOf x x.cur) then some 0 else none)

/-- One chunk of compaction: a generation made from the current one; the pending changes, made from it too, lose the same
tombstones and keep their own. -/
def compactChunk (s : State) (i : Nat) : State :=
  match s.indexes.get? i with
  | none => s
  | some x =>
    match nextChunk s x with
    | none => s
    | some c =>
      let old := genOf x x.cur
      let lo := 65536 * c
      let g := compactGraph { x with pending := old } old lo (lo + 65536)
      let p := if x.dirty then compactGraph x old lo (lo + 65536) else g
      let y := { x with cur := x.cur + 1, gens := x.gens.put (x.cur + 1) g, pending := p
                        compactAt := if old.highest < lo + 65536 then none else some (c + 1) }
      writeGen (onIndex s i fun _ => y) y old g false

/-! ### Predicates (R157, R158) -/

/-- One step of a predicate. -/
structure PStep where
  op : Nat
  ty : Nat
  off : Nat
  const : Nat
  raw : Bytes
  deriving DecidableEq, Repr, Inhabited

/-- The steps of a program. -/
def predSteps (b : Bytes) : List PStep :=
  (List.range (Bytes.le b 0 2)).map fun i =>
    let r := Bytes.sub b (16 + 16 * i) 16
    { op := Bytes.le r 0 1, ty := Bytes.le r 1 1, off := Bytes.le r 2 2, const := Bytes.le r 8 8, raw := r }

/-- Size of a field type (Table 6-6); 0 for an unlisted one. -/
def typeSize : Nat → Nat
  | 1 => 1 | 2 => 2 | 3 => 4 | 4 => 8 | 5 => 4 | 6 => 8 | 7 => 4 | _ => 0

/-- Does a step compare a field? -/
def isCompare (op : Nat) : Bool := decide (1 ≤ op) && decide (op ≤ 8)

/-- A step's own validity for records of `rsize` bytes. -/
def stepOk (rsize : Nat) (p : PStep) : Bool :=
  let zero (lo n : Nat) : Bool := (Bytes.sub p.raw lo n).all (· == 0)
  if isCompare p.op then
    let z := typeSize p.ty
    z != 0 && decide (p.off % z = 0) && decide (p.off + z ≤ rsize) && zero 4 4 && zero (8 + z) (8 - z)
      && (decide (p.op ≤ 6) || decide (p.ty ≤ 4))
  else (p.op == 0 || (decide (0x10 ≤ p.op) && decide (p.op ≤ 0x13))) && zero 1 15

/-- Stack depth after a step; none on underflow or overflow. -/
def depthAfter (d : Nat) (op : Nat) : Option Nat :=
  if isCompare op ∨ op = 0x13 then (if d < 16 then some (d + 1) else none)
  else if op = 0x10 ∨ op = 0x11 then (if 2 ≤ d then some (d - 1) else none)
  else if op = 0x12 then (if 1 ≤ d then some d else none)
  else (if d = 1 then some d else none)

/-- Is a program valid (R158)? An empty one accepts every record. -/
def predOk (rsize : Nat) (b : Bytes) : Bool :=
  if b = [] then true
  else
    let n := Bytes.le b 0 2
    let ps := predSteps b
    decide (1 ≤ n) && decide (n ≤ 64) && b.length == 16 + 16 * n && (Bytes.sub b 2 14).all (· == 0)
      && ps.all (stepOk rsize)
      && ((List.range n).all fun i => ((ps.getD i default).op == 0) == decide (i + 1 = n))
      && (ps.foldl (fun d p => d.bind fun k => depthAfter k p.op) (some 0)) == some 1

/-- A comparison of a field. -/
def compareField (p : PStep) (rec_ : Bytes) : Bool :=
  let z := typeSize p.ty
  let a := Bytes.le rec_ p.off z
  let c := p.const % 2 ^ (8 * z)
  if p.op = 7 then decide (a &&& c = c)
  else if p.op = 8 then decide (a &&& c ≠ 0)
  else
    let (lt, eq, nan) :=
      if p.ty = 7 then
        match dec 9 a, dec 9 c with
        | .nan, _ => (false, false, true)
        | _, .nan => (false, false, true)
        | _, _ => (ltCode a c, !ltCode a c && !ltCode c a, false)
      else if p.ty = 5 ∨ p.ty = 6 then
        (decide (signedOf (8 * z) a < signedOf (8 * z) c), decide (a = c), false)
      else (decide (a < c), decide (a = c), false)
    if nan then p.op == 2
    else match p.op with
      | 1 => eq
      | 2 => !eq
      | 3 => lt
      | 4 => lt || eq
      | 5 => !lt && !eq
      | _ => !lt

/-- Evaluate a program over a record; an empty program accepts it. -/
def predEval (b : Bytes) (rec_ : Bytes) : Bool :=
  if b = [] then true
  else
    let step (st : List Bool) (p : PStep) : List Bool :=
      if isCompare p.op then compareField p rec_ :: st
      else match p.op, st with
        | 0x10, x :: y :: t => (x && y) :: t
        | 0x11, x :: y :: t => (x || y) :: t
        | 0x12, x :: t => (!x) :: t
        | 0x13, t => true :: t
        | _, t => t
    ((predSteps b).foldl step []).headD false

/-! ### Queries (R147 to R156) -/

/-- Decoded query. -/
def queryOf (p : SearchP) (q : List W16) : List (Int × Int) := dys (q.map fun c => dec p.qfmt.toNat c.toNat)

/-- Offset of the predicate of a query. -/
def predOff (vdim : Nat) : Nat := roundUp (64 + 2 * vdim) 16

/-- Are the parameters of a query in their ranges (Tables 6-3, 12-6)? -/
def queryParamsOk (x : Index) (e : Sqe) (p : SearchP) : Bool :=
  let b := inRegion e
  let q := (Bytes.les b 64 2 x.vdim)
  decide (p.mode < 2) && (p.qfmt == 7 || p.qfmt == 8) && (p.mode == 1 || p.gen == 0) && decide (1 ≤ p.k)
    && decide (p.k ≤ 1024) && decide (p.k ≤ p.l) && decide (p.l ≤ 4096) && decide (1 ≤ p.par) && decide (p.par ≤ 32)
    && decide (1 ≤ p.visitBudget) && decide (p.visitBudget ≤ 4096)
    && (p.timeBudget == 0 || (p.mode == 0 && decide (10 ≤ p.timeBudget) && decide (p.timeBudget ≤ 1000000)))
    && decide (p.widen ≤ 3) && decide (Bytes.le b 14 1 < 4)
    && inLen e == predOff x.vdim + p.plen && decide (64 + p.k * 12 + (if p.payload then p.k * 616 else 0) ≤ outLen e)
    && (q.all fun c => (dec p.qfmt.toNat c).isFin) && predOk 128 (Bytes.sub b (predOff x.vdim) p.plen)

/-- The lookup of approximate distances of a query; before a codebook exists no query has a node to rank. -/
def queryLut (x : Index) (q : Query) : List (List Nat) :=
  match x.codebook with
  | some b => lutOf x b q.query (queryOf q.p q.query)
  | none => []

/-- Order of the beam (R151). -/
def beamLt (a b : Nat × Nat × Bool) : Bool := decide (a.1 < b.1) || (a.1 == b.1 && decide (a.2.1 < b.2.1))

/-- Order of the results (R151). -/
def resLt (a b : BitVec 32 × BitVec 64 × Nat) : Bool :=
  ltCode a.1.toNat b.1.toNat || (!ltCode b.1.toNat a.1.toNat && decide (a.2.1.toNat < b.2.1.toNat))

/-- Start or restart a pass from the entry points. -/
def startPass (x : Index) (q : Query) : Query :=
  let g := genOf x q.gen
  let lut := queryLut x q
  let start := (g.entries.filter fun n => !q.unseen.contains n).filterMap fun n => (g.nodes.get? n).map fun y => (approx lut y.code, n, false)
  { q with beam := (start.foldl (fun a c => insertBy beamLt c a) []).take q.lcur, visited := start.map (·.2.1), flying := [] }

/-- The neighbours that the replies of expanded nodes name and the query has not seen, each once (R149). -/
def newNeighbours (x : Index) (q : Query) (picks : List Nat) : List Nat :=
  let g := genOf x q.gen
  ((picks.flatMap fun n => ((g.nodes.get? n).map (·.nbr)).getD []).eraseDups).filter fun n => !q.visited.contains n

/-- Merge the replies of expanded nodes, in beam order (R149); `hide` are neighbours that count as not seen (R156). -/
def mergeReplies (x : Index) (q : Query) (picks hide : List Nat) : Query :=
  let g := genOf x q.gen
  let lut := queryLut x q
  let qv := queryOf q.p q.query
  let nodes := picks.filterMap fun n => (g.nodes.get? n).map fun y => (n, y)
  let hits := (nodes.filter fun p => !p.2.tomb && predEval q.pred p.2.attr && some p.1 != q.without).map fun p =>
    (BitVec.ofNat 32 (fullDist x qv p.2), p.2.userId, p.1)
  let new := (newNeighbours x q picks).filter fun n => !hide.contains n
  let add := new.filterMap fun n => (g.nodes.get? n).map fun y => (approx lut y.code, n, false)
  let beam := q.beam.map fun b => if picks.contains b.2.1 then (b.1, b.2.1, true) else b
  let results := hits.foldl (fun a h => if a.contains h then a else insertBy resLt h a) q.results
  { q with beam := (add.foldl (fun a c => insertBy beamLt c a) beam).take q.lcur
           visited := q.visited ++ new, results := results.take q.p.k }

/-- The picks of a Pinned round, or the reason to stop (R149). -/
def roundPick (q : Query) : Except StopReason (List Nat) :=
  let pick := ((q.beam.filter fun b => !b.2.2).take q.p.par).map (·.2.1)
  if pick = [] then .error .converged
  else
    let pick := pick.take (q.passBudget - q.reads)
    if pick = [] then .error .visitBudget else .ok pick

/-- Does a pass that stopped widen (R154)? -/
def widens (q : Query) : Bool := decide (q.results.length < q.p.k) && decide (q.widened < q.p.widen)

/-- A widening step. -/
def widen (x : Index) (q : Query) : Query :=
  startPass x { q with lcur := min (2 * q.lcur) 4096, passBudget := q.passBudget + q.p.visitBudget, widened := q.widened + 1 }

/-- Set the next picks of a Pinned query flying, widening as often as it may; the fuel is 4. Answers why it
stopped. -/
def nextRound (x : Index) : Nat → Query → Query × Option StopReason
  | 0, q => (q, some .converged)
  | fuel + 1, q =>
    match roundPick q with
    | .ok pick => ({ q with flying := pick }, none)
    | .error r => if widens q then nextRound x fuel (widen x q) else ({ q with flying := [] }, some r)

/-- End a Pinned round whose replies have all arrived. -/
def mergeRound (x : Index) (q : Query) : Query × Option StopReason :=
  let q := mergeReplies x q q.flying []
  nextRound x 4 { q with reads := q.reads + q.flying.length, rounds := q.rounds + 1 }

/-- Dispatch walkers of an Open query while it may (R150); the fuel is PAR. Reads count at dispatch. -/
def dispatchOpen : Nat → Query → Query
  | 0, q => q
  | fuel + 1, q =>
    if q.p.par ≤ q.flying.length ∨ q.passBudget ≤ q.reads then q
    else
      match q.beam.find? fun b => !b.2.2 && !q.flying.contains b.2.1 with
      | none => q
      | some b => dispatchOpen fuel { q with flying := q.flying ++ [b.2.1], reads := q.reads + 1 }

/-- Let an Open query go on: it dispatches, or stops, or widens; the fuel is 4. -/
def nextOpen (x : Index) : Nat → Query → Query × Option StopReason
  | 0, q => (q, some .converged)
  | fuel + 1, q =>
    let q := dispatchOpen q.p.par q
    if q.flying ≠ [] then (q, none)
    else
      let r : StopReason := if q.beam.any (fun b => !b.2.2) then .visitBudget else .converged
      if widens q then nextOpen x fuel (widen x q) else (q, some r)

def stopCode : StopReason → Nat
  | .converged => 0
  | .visitBudget => 1
  | .timeBudget => 2

/-- The payload block of a result. -/
def payloadBlock (g : Gen) (n : Nat) : Bytes :=
  match g.nodes.get? n with
  | some y => toLe 2 y.payload.length ++ List.replicate 6 0 ++ Bytes.sub y.payload 0 608
  | none => List.replicate 616 0

/-- Output data of a query (R155), and its record (R293). -/
def queryData (x : Index) (q : Query) : Bytes :=
  let g := genOf x q.gen
  q.results.flatMap (fun r => toLe 8 r.2.1.toNat ++ toLe 4 r.1.toNat)
    ++ (if q.p.payload then q.results.flatMap fun r => payloadBlock g r.2.2 else [])

def queryFlags (q : Query) : VFlags := { short := decide (q.results.length < q.p.k) }

def queryRecord (q : Query) (stop : Nat) (data : Bytes) : Bytes :=
  resultRecord data.length (queryFlags q) 0
    (toLe 4 q.results.length ++ toLe 4 (min q.reads (2 ^ 32 - 1)) ++ toLe 4 q.rounds ++ toLe 1 q.widened ++ toLe 1 stop
      ++ toLe 2 0 ++ toLe 4 q.gen ++ toLe 4 q.skipped)


/-- Store a query in progress. -/
def setQuery (s : State) (q : Query) : State :=
  { s with queries := s.queries.map fun y => if y.e.key == q.e.key then q else y }

/-- Free an index that DESTROY named, when its last query has ended (R302): its space and its units are released. -/
def freeIndex (s : State) (i : Nat) : State :=
  match s.indexes.get? i with
  | none => s
  | some x =>
    match x.destroying with
    | none => s
    | some k =>
      if (s.queries ++ s.queryWait).any (·.index == i) then s
      else
        let s := { s with indexes := s.indexes.del i }
        complete (wipeNs s x.nsid) k Code.ok 0 0

/-- Charge the node reads of a query. -/
def chargeReads (s : State) (q : Query) (n : Nat) : State := charge s (acctOf q.e.fn) none fFlashRd (4096 * n)

/-- A query begins in its slot: Pinned sets its first round flying, Open its first walkers. -/
def beginQuery (x : Index) (q : Query) : Query × Option StopReason :=
  let q := startPass x q
  if q.p.mode = 1 then nextRound x 4 q else nextOpen x 4 q

/-- Drop a query, waiting or in its slot; its walkers go with it. -/
def dropQuery (s : State) (q : Query) : State :=
  endWalkers { s with queries := s.queries.filter (fun y => y.e.key != q.e.key)
                      queryWait := s.queryWait.filter fun y => y.e.key != q.e.key } q.e.key

/-- Widening steps of a query are counted (R154). -/
def countWiden (s : State) (old q : Query) : State := bump 0x607003 (q.widened - old.widened) s

/-- End a query: results, flight log, completion (R155, R288, R293, R454). -/
def finishQuery (s : State) (x : Index) (q : Query) (stop : StopReason) : State :=
  let data := queryData x q
  let rc := queryRecord q (stopCode stop) data
  let s := if stop = .timeBudget then bump 0x607001 1 s else s
  let s := writeOutput s q.e rc data
  let s := logCommand s q.e (commandEntry s q.e opSearch Code.ok q.gen 0 (rc ++ data) [])
  let s := dropQuery s q
  complete s q.e.key Code.ok q.results.length
    ((queryFlags q).word % 256 + 256 * stopCode stop + 1024 * q.widened)

/-- A query fails (R156). -/
def failQuery (s : State) (q : Query) (c : Code) (nsid lba : Nat) : State :=
  let s := logCommand s q.e (commandEntry s q.e opSearch c q.gen 0 [] [])
  fail (dropQuery s q) q.e.key c nsid lba

/-- A query whose record changed goes on, its new picks each to a walker; or ends. `kept` are the nodes that flew before. -/
def queryOn (s : State) (x : Index) (old : Query) (kept : List Nat) (r : Query × Option StopReason) : State :=
  let s := countWiden s old r.1
  match r.2 with
  | none => (r.1.flying.filter fun n => !kept.contains n).foldl (sendWalker r.1.e.key x.account) (setQuery s r.1)
  | some stop => finishQuery s x r.1 stop

/-- Neighbours or entry points that an Open query cannot reach for want of their codes are counted (R156). -/
def skipCodes (s : State) (q : Query) (bad : List (Nat × Nat)) : State × Query :=
  (bump 0x607002 bad.length s, { q with skipped := q.skipped + bad.length })

/-- A query that took its slot reads the codebook and the codes of the entry points, and begins (R149, R156). -/
def openQuery (s : State) (x : Index) (q : Query) : State :=
  match readBook q.index x s with
  | (s, some u) => failQuery s q Code.unrecoveredRead x.nsid u
  | (s, none) =>
    match readCodes q.index x s (genOf x q.gen).entries with
    | (s, []) => queryOn s x q [] (beginQuery x q)
    | (s, b :: bad) =>
      if q.p.mode = 1 then failQuery s q Code.unrecoveredRead x.nsid b.2
      else
        let (s, q) := skipCodes s q (b :: bad)
        queryOn s x q [] (beginQuery x { q with unseen := (b :: bad).map (·.1) })

/-- Let the queries that wait take the slots that are free; the fuel is their number. -/
def admitQueries (s : State) : Nat → State
  | 0 => s
  | fuel + 1 =>
    let room (q : Query) : Bool :=
      match s.indexes.get? q.index with
      | some x => decide ((s.queries.filter (·.index == q.index)).length < x.qslots)
      | none => true
    match s.queryWait.find? room with
    | none => s
    | some q =>
      let s := { s with queryWait := s.queryWait.erase q, queries := s.queries ++ [q] }
      match s.indexes.get? q.index with
      | none => admitQueries (failQuery s q Code.internalError 0 0) fuel
      | some x => admitQueries (openQuery s x q) fuel

/-- After a query has ended: waiting ones begin, a destroyed index is freed. -/
def afterQuery (s : State) (i : Nat) : State := freeIndex (admitQueries s s.queryWait.length) i

/-- The generation that a SEARCH pinned at its fetch: the current one, or the one it names (R148). -/
def queryGen (s : State) (e : Sqe) (p : SearchP) (x : Index) : Option Nat :=
  let l := (((flightOf s e.key).map fun f => f.gens.getD p.index [])).getD []
  let l := if l = [] then [x.cur] else l
  if p.gen = 0 then l.head? else if l.contains p.gen then some p.gen else none

/-- The checks of R291 for a query. -/
def queryRefuse (s : State) (e : Sqe) (p : SearchP) : Option (Code × Nat) :=
  match vendorRefuse e, indexFor s e.fn p.index with
  | some c, _ => some (c, 0)
  | none, none => some (Code.invalidField, 0)
  | none, some x =>
    if !queryParamsOk x e p then some (Code.invalidField, 0)
    else if (queryGen s e p x).isNone then some (Code.indexGenRetired, oldestGen s p.index x)
    else if !keyOpen s x.account then some (Code.keyLocked, 0)
    else none

/-- The query that an entry asks for, on the generation it pinned. -/
def mkQuery (x : Index) (e : Sqe) (p : SearchP) (gen : Nat) : Query :=
  let b := inRegion e
  { e := e, index := p.index, gen := gen, p := p
    query := (Bytes.les b 64 2 x.vdim).map (BitVec.ofNat 16), pred := Bytes.sub b (predOff x.vdim) p.plen
    lcur := p.l, passBudget := p.visitBudget }

/-- SEARCH with MODE Open or Pinned at its fetch (R147, R148, R164). -/
def searchBody (e : Sqe) (s : State) : State :=
  let p := searchP (inRegion e)
  match queryRefuse s e p with
  | some (c, dw0) => failDw0 s e.key c dw0
  | none =>
    match indexFor s e.fn p.index with
    | none => s
    | some x =>
      let q := mkQuery x e p ((queryGen s e p x).getD x.cur)
      let s := onFlight { s with queryWait := s.queryWait ++ [q] } e.key fun f => { f with gens := [] }
      admitQueries s s.queryWait.length

/-- The first unreadable slot among nodes of a generation. A version older than the current one lies where the map no longer
points (R142); its reads do not fail (DESIGN CHOICE, log 78). -/
def badNode (s : State) (x : Index) (g : Nat) (ns : List Nat) : Option Nat :=
  ns.find? fun n => (genOf x g).nodes.get? n == (genOf x x.cur).nodes.get? n && unitLost s x.nsid n

/-! ### Replies (R149, R150, R156) -/

/-- A query in its slot with its index. -/
def runningQuery (s : State) (key : CmdKey) : Option (Query × Index) :=
  match s.queries.find? fun q => q.e.key == key with
  | none => none
  | some q => (s.indexes.get? q.index).map fun x => (q, x)

/-- Every reply of a Pinned round has arrived: a slot or a code that cannot be read fails the query. -/
def roundMerged (s : State) (q : Query) (x : Index) : State :=
  let s := endWalkersOf (chargeReads s q q.flying.length) q.e.key fun _ => true
  match badNode s x q.gen q.flying with
  | some n => failQuery s q Code.unrecoveredRead x.nsid n
  | none =>
    match readCodes q.index x s (newNeighbours x q q.flying) with
    | (s, b :: _) => failQuery s q Code.unrecoveredRead x.nsid b.2
    | (s, []) => queryOn s x q [] (mergeRound x q)

/-- The record of an Open query after a walker's reply: an unreadable node counts as expanded with no neighbours and no
result. -/
def openReply (x : Index) (q : Query) (node : Nat) (bad : Bool) (hide : List Nat) : Query :=
  let q := { q with flying := q.flying.erase node, rounds := q.rounds + 1 }
  if bad then
    { q with skipped := q.skipped + 1, beam := q.beam.map fun b => if b.2.1 = node then (b.1, b.2.1, true) else b }
  else mergeReplies x q [node] hide

/-- A walker of an Open query has replied; `bad` where its node could not be read. -/
def replyMerged (s : State) (q : Query) (x : Index) (node : Nat) (bad : Bool) : State :=
  let s := endWalkersOf (chargeReads (if bad then bump 0x607002 1 s else s) q 1) q.e.key (· == node)
  let (s, lost) := readCodes q.index x s (if bad then [] else newNeighbours x q [node])
  let (s, y) := skipCodes s q lost
  queryOn s x q (q.flying.erase node) (nextOpen x 4 (openReply x y node bad (lost.map (·.1))))

/-! ### Scans (R159 to R162) -/

/-- Are the parameters of a scan in their ranges? -/
def scanParamsOk (n : Ns) (e : Sqe) (p : SearchP) : Bool :=
  let b := inRegion e
  let rsize := 2 ^ p.rsizeLog
  decide (4 ≤ p.rsizeLog) && decide (p.rsizeLog ≤ 12) && n.role != .kv && n.role != .index && decide (1 ≤ p.count)
    && decide (p.count ≤ 2 ^ 40) && decide ((p.first + p.count) * rsize ≤ n.nsze * 4096) && decide (Bytes.le b 14 1 < 4)
    && decide (p.plen ≠ 0) && inLen e == 64 + p.plen && predOk rsize (Bytes.sub b 64 p.plen)
    && decide (64 + (if p.outRecords then rsize else 8) ≤ outLen e)

/-- The matches of a scan that fit, CURSOR, and whether it was cut. -/
def scanRun (s : State) (nsid : Nat) (pred : Bytes) (rsize first count cap : Nat) : List Nat × Nat × Bool :=
  let hit (r : Nat) : Bool := predEval pred (readMedia s nsid (r * rsize) rsize)
  let all := ((List.range count).map (first + ·)).filter hit
  if all.length ≤ cap then (all, first + count, false)
  else
    let got := all.take cap
    (got, got.getLast?.getD first + 1, true)

/-- Record and data of a scan. -/
def scanOut (s : State) (e : Sqe) (p : SearchP) (nsid : Nat) : Bytes × Bytes × Nat × VFlags :=
  let rsize := 2 ^ p.rsizeLog
  let size := if p.outRecords then rsize else 8
  let pred := Bytes.sub (inRegion e) 64 p.plen
  let (got, cursor, more) := scanRun s nsid pred rsize p.first p.count ((outLen e - 64) / size)
  let data := got.flatMap fun r => if p.outRecords then readMedia s nsid (r * rsize) rsize else toLe 8 r
  let f : VFlags := { more := more }
  let units := ((p.first + p.count) * rsize - 1) / 4096 + 1 - p.first * rsize / 4096
  (resultRecord data.length f 0 (toLe 4 got.length ++ toLe 4 (min units (2 ^ 32 - 1)) ++ toLe 4 0 ++ toLe 1 0 ++ toLe 1 0
    ++ toLe 2 0 ++ toLe 4 0 ++ toLe 4 0 ++ toLe 8 cursor), data, got.length, f)

/-- SEARCH with MODE Scan (R159). -/
def scanBody (e : Sqe) (s : State) : State :=
  let p := searchP (inRegion e)
  match vendorRefuse e, nsFor s e.fn e.nsid with
  | some c, _ => fail s e.key c e.nsid
  | none, none => fail s e.key Code.invalidField e.nsid
  | none, some n =>
    if !scanParamsOk n e p then fail s e.key Code.invalidField e.nsid
    else if !keyOpen s n.account then fail s e.key Code.keyLocked e.nsid
    else
      let off := p.first * 2 ^ p.rsizeLog
      let len := p.count * 2 ^ p.rsizeLog
      match unrecovered s e.nsid n off len with
      | some u =>
        let s := logCommand s e (commandEntry s e opSearch Code.unrecoveredRead 0 0 [] [])
        fail s e.key Code.unrecoveredRead e.nsid (u * (iuBytes n / 4096))
      | none =>
        let (rc, data, nret, f) := scanOut s e p e.nsid
        let s := charge s n.account none fFlashRd
          (iuBytes n * (onFlash s e.nsid ((unitsOf n off len).map (·.1))).length)
        let s := writeOutput s e rc data
        let s := logCommand s e (commandEntry s e opSearch Code.ok 0 0 (rc ++ data) [])
        complete s e.key Code.ok nret (f.word % 256)

/-! ### The whole of a Pinned query, and the recall probe (R163) -/

/-- Run a Pinned query to its end; the fuel bounds its rounds. -/
def runPinned (x : Index) : Nat → Query → Query × StopReason
  | 0, q => (q, .visitBudget)
  | fuel + 1, q =>
    match mergeRound x q with
    | (q, none) => runPinned x fuel q
    | (q, some r) => (q, r)

/-- A Pinned query from its beginning. -/
def wholePinned (x : Index) (q : Query) : Query × StopReason :=
  match beginQuery x q with
  | (q, some r) => (q, r)
  | (q, none) => runPinned x 16400 q

/-- The truth list of a probe: live nodes that pass, by (d_f, USER_ID). -/
def truthList (x : Index) (q : Query) : List (BitVec 64) :=
  let qv := queryOf q.p q.query
  let all := ((genOf x q.gen).nodes.filter fun p => !p.2.tomb && predEval q.pred p.2.attr && some p.1 != q.without).map fun p =>
    (BitVec.ofNat 32 (fullDist x qv p.2), p.2.userId, p.1)
  ((all.foldl (fun a h => insertBy resLt h a) []).take q.p.k).map (·.2.1)

/-- The node that probe `n` samples (R163). -/
def sampleNode (x : Index) (g : Gen) (n : Nat) : Option Nat :=
  let draw (i : Nat) : Nat := Rand.val64 (Rand.block x.seed 0x6001 n (BitVec.ofNat 32 i)) % (g.highest + 1)
  match (List.range 64).find? fun i => liveNode g (draw i) with
  | some i => some (draw i)
  | none =>
    let live := (g.nodes.filter fun p => !p.2.tomb).map (·.1)
    match live.find? fun m => decide (draw 63 < m) with
    | some m => some m
    | none => live.head?

/-- The FP16 query that a sampled node becomes. -/
def sampleQuery (x : Index) (y : Node) : List W16 :=
  (nodeVec x y).map fun v => BitVec.ofNat 16 (let (n, d) := frac v.1 v.2; (roundTo 7 0 0 false n d).code)

/-- One probe's report: HITS, TRUTH, NRET, READS. A sampled node is left out of both lists (`Query.without`). -/
def probeOne (x : Index) (q r : Query) : Nat × Nat × Nat × Nat :=
  let truth := truthList x q
  let got := r.results.map (·.2.1)
  ((got.filter truth.contains).length, truth.length, got.length, r.reads)

/-- The codebook and the codes that whole queries read; the answer is the first unit that cannot be read. -/
def readRun (s : State) (i : Nat) (x : Index) (rs : List Query) : State × Option Nat :=
  match readBook i x s with
  | (s, some u) => (s, some u)
  | (s, none) =>
    match readCodes i x s (rs.flatMap (·.visited)).eraseDups with
    | (s, bad) => (s, (bad.head?).map (·.2))

end Sys2Proof.Machine
end

