-- ==== Sys2Proof/Machine/ProgMem.lean ====
section
/-! DEFINITION. The register bank a core runs (R239), its program, and the pool as that program reaches it: the
before-images of a logged run (R457) and the replay copies of a replayed one (R459). -/

namespace Sys2Proof.Machine

/-- The register bank that runs. -/
def bank (k : Core) : Bank := if k.useB then k.bankB else k.bankA

def onBank (s : State) (c : Fin 8) (f : Bank → Bank) : State :=
  onCore s c fun k => if k.useB then { k with bankB := f k.bankB } else { k with bankA := f k.bankA }

/-- A named bank of a core. -/
def bankOf (k : Core) (b : Bool) : Bank := if b then k.bankB else k.bankA

def onBankOf (s : State) (c : Fin 8) (b : Bool) (f : Bank → Bank) : State :=
  onCore s c fun k => if b then { k with bankB := f k.bankB } else { k with bankA := f k.bankA }

def progOn (s : State) (c : Fin 8) : Option Prog := (bank s.cores[c]).prog
def sessOn (s : State) (c : Fin 8) : Option Nat := (bank s.cores[c]).session

def onProg (s : State) (c : Fin 8) (f : Prog → Prog) : State := onBank s c fun b => { b with prog := b.prog.map f }

/-- The account that a core's work belongs to: its program's, else its session's, else the system account. -/
def ownerOn (s : State) (c : Fin 8) : Nat :=
  match progOn s c with
  | some p => p.account
  | none => (((sessOn s c).bind fun i => s.sess.get? i).map (·.account)).getD 0

/-- The tag of a core's accesses. -/
def tagOn (s : State) (c : Fin 8) : Nat := tagOf s (ownerOn s c)

/-- Charge a core's work. -/
def chargeOn (s : State) (c : Fin 8) (field n : Nat) : State := charge s (ownerOn s c) (sessOn s c) field n

/-- The program of a core, for an account, as the subject of an event: its command, where it serves one, and its session. -/
def whoOn (s : State) (c : Fin 8) (account : Nat) : Who :=
  let w := ((progOn s c).bind (·.handle)).elim { account := account } whoOf
  { w with account := account, session := (sessOn s c).getD 0xFFFFFFFF }

/-- Where the replay copies of a core's program lie (DESIGN CHOICE, log 15). -/
def copyBase (c : Fin 8) : Nat := 2 ^ 43 + c.val * 2 ^ 40

/-- Where the program of a core reads a pool address: in its replay copy of the tile, where there is one. -/
def poolAt (s : State) (c : Option (Fin 8)) (a : Nat) : Nat :=
  match c with
  | none => a
  | some c =>
    match progOn s c with
    | some p => if p.replay.isSome && p.overlay.contains (tileNo a) then copyBase c + a else a
    | none => a

/-- Make ready for a pool write by the program of a core: a logged run takes the tile's before-image at its first
write (R457), a replayed run makes its copy of the tile (R459). Answers where the write goes. -/
def poolForWrite (s : State) (c : Option (Fin 8)) (a : Nat) : State × Nat :=
  match c with
  | none => (s, a)
  | some c =>
    match progOn s c with
    | none => (s, a)
    | some p =>
      let t := tileNo a
      if p.replay.isSome then
        let s := if p.overlay.contains t then s
          else onProg (copyRaw s (t * tileBytes) (copyBase c + t * tileBytes)) c fun p => { p with overlay := t :: p.overlay }
        (s, copyBase c + a)
      else if p.flight.isSome && !p.snap.has t then
        let s := fwCheck s (t * tileBytes) tileBytes (tagOf s p.account)
        (onProg s c fun p => { p with snap := p.snap.put t (s.mem.gets 0 (t * tileBytes) tileBytes) }, a)
      else (s, a)

/-! ### A session's context in a bank (R239, R240, R245) -/

/-- The lists of a context's TILE_DESC slots name the data tiles of the core that runs it (R245). -/
def placeBank (b : Bank) (c : Fin 8) : Bank :=
  let here (l : List Nat) : List Nat := l.map fun t => tileAt c (localTile t)
  { b with tileSlots := b.tileSlots.map fun x => { x with ins := here x.ins, outs := here x.outs } }

/-- Load a session's context into a bank that holds none, and its tiles into their places (R240, R245). -/
def loadContext (s : State) (c : Fin 8) (b : Bool) (i : Nat) : State :=
  if (bankOf s.cores[c] b).session = some i then s
  else
    let x := (s.sess.get? i).getD {}
    let saved := x.ctxSaved.getD {}
    let s := onBankOf s c b fun _ => { placeBank saved c with session := some i }
    let s := if x.ctxSaved.isSome then charge s x.account (some i) fPoolRd (savedBytes saved) else s
    bringTiles (onSess s i fun x => { x with ctxSaved := none }) i c

/-! ### Sections of an image (R106) -/

/-- A section of an image. -/
structure Section where
  ty : Nat
  flags : Nat
  off : Nat
  size : Nat
  load : Nat
  rest : Nat
  deriving DecidableEq, Repr, Inhabited

/-- The section table of an image (R105, R106). -/
def sectionsOf (b : Bytes) : List Section :=
  let o := Bytes.le b 0x18 8
  (List.range (min 64 (Bytes.le b 0x0C 4))).map fun i =>
    let p := o + 32 * i
    { ty := Bytes.le b p 2, flags := Bytes.le b (p + 2) 2, off := Bytes.le b (p + 4) 8, size := Bytes.le b (p + 12) 8
      load := Bytes.le b (p + 20) 8, rest := Bytes.le b (p + 28) 4 }

/-- The image that a program runs. -/
def imageOf (s : State) (p : Prog) : Option Image := s.ctrls[p.fn].programs.get? p.index

/-- TYPE values (Table 4-12). -/
def tyCode : Nat := 1
def tyData : Nat := 2
def tyZero : Nat := 3
def tyKernel : Nat := 0x10
def tyConst : Nat := 0x20
def tyImport : Nat := 0x40
def tyNote : Nat := 0xF0

/-- The bindings of an image: pairs of a kind (0 namespace, 1 index, 2 table) and a number, 8 bytes each (DESIGN
CHOICE, log 21: the spec gives an IMPORT section no layout). -/
def importsOf (b : Bytes) : List (Nat × Nat) :=
  ((sectionsOf b).filter (·.ty == tyImport)).flatMap fun x =>
    (List.range (x.size / 8)).map fun i => (Bytes.le b (x.off + 8 * i) 4, Bytes.le b (x.off + 8 * i + 4) 4)

/-- Does an address lie in a code section of the program that runs? Firmware alone has none to check. -/
def inCode (s : State) (c : Fin 8) (a : Nat) : Bool :=
  match progOn s c with
  | none => true
  | some p =>
    match imageOf s p with
    | none => true
    | some im => (sectionsOf im.bytes).any fun x => x.ty == tyCode && decide (p.base + x.load ≤ a) && decide (a < p.base + x.load + x.size)

def meets (a b : Nat × Nat) : Bool := decide (a.1 < b.1 + b.2) && decide (b.1 < a.1 + a.2)

/-- Is a read, or a write, of a physical range closed to the program of a core by Table 4-12? Its code is for execution
only, its constants for reading only. -/
def forbids (s : State) (c : Option (Fin 8)) (write : Bool) (p n : Nat) : Bool :=
  match c with
  | none => false
  | some c =>
    match progOn s c with
    | none => false
    | some g =>
      match imageOf s g with
      | none => false
      | some im =>
        (sectionsOf im.bytes).any fun x =>
          (x.ty == tyCode && meets (scratchBase c + g.base + x.load, x.size) (p, n))
            || (write && x.ty == tyConst && meets (im.pool.1 + x.load, x.size) (p, n))


/-! ### The pool as a program reaches it -/

/-- Numbers of the tiles that a range meets. -/
def tilesIn (p n : Nat) : List Nat := if n = 0 then [] else (List.range ((p + n - 1) / tileBytes + 1 - p / tileBytes)).map (p / tileBytes + ·)

/-- The part of a range that lies in a tile: its first address and its length. -/
def tilePart (a n t : Nat) : Nat × Nat :=
  (max a (t * tileBytes), min (a + n) ((t + 1) * tileBytes) - max a (t * tileBytes))

/-- Write bytes to the pool for a core's program, tile by tile; every tile's record turns stale (R221). The answer is the
outcome of the first write that was refused. -/
def poolPut (s : State) (c : Option (Fin 8)) (a : Nat) (b : Bytes) (tag : Nat) : State × Option Check.Outcome :=
  (tilesIn a b.length).foldl (fun (p : State × Option Check.Outcome) t =>
    let (lo, n) := tilePart a b.length t
    let (s, q) := poolForWrite p.1 c lo
    let (s, o) := writeMem s q ((b.drop (lo - a)).take n) tag
    (setStale s (tileNo q), p.2.or o)) (s, none)

/-- Read bytes of the pool as a core's program reaches them, tile by tile, up to the first word that returns no data. -/
def poolGet (s : State) (c : Option (Fin 8)) (a n tag : Nat) : State × Except Check.Outcome Bytes :=
  (tilesIn a n).foldl (fun (p : State × Except Check.Outcome Bytes) t =>
    match p.2 with
    | .error _ => p
    | .ok d =>
      let (lo, m) := tilePart a n t
      match readMem p.1 (poolAt p.1 c lo) m tag with
      | (s, .ok r) => (s, .ok (d ++ r))
      | (s, .error o) => (s, .error o)) (s, .ok [])

/-- Free the replay copies of a core's program (R459). -/
def dropCopies (s : State) (c : Fin 8) : State :=
  { s with mem := s.mem.clear (copyBase c) (2 ^ 40), chk := s.chk.clear (copyBase c / 8) (2 ^ 37) }

end Sys2Proof.Machine
end

