-- ==== Sys2Proof/Machine/LampOps.lean ====
section
/-! DEFINITION. Operations of a lamp cluster (spec 04, R98 to R104): dispatches, contexts, choice of the context that
issues, and the effect of one instruction. -/

namespace Sys2Proof.Machine

open Sys2Proof.Num

/-- Is a pool range inside an account's grants? The system account may touch all of it (R108). -/
def poolGranted (s : State) (acct a n : Nat) : Bool :=
  acct == 0 || s.poolGrants.any fun g => g.1 == acct && decide (g.2.1 ≤ a) && decide (a + n ≤ g.2.1 + g.2.2)

/-- LOCAL of a context as it starts: zeros, whole words under its account's tag (Table 4-9, R206). -/
def clearLocal (s : State) (x : Ctx) : State :=
  (List.range 32).foldl (fun a w => writeWord a (x.base + 32 * w) (List.replicate 32 0) (tagOf a x.account.toNat)) s

/-- Start a context in a slot (R103): its arguments are read under the account's tag. -/
def startCtx (s : State) (ch : Fin 48) (d : LampDispatch) (slot : Nat) : State :=
  let f := lampFields d.dw
  let x := { ctxOf d with base := localAt ch.val slot }
  let put (s : State) (x : Ctx) : State := onCluster s ch fun k => { k with ctxs := k.ctxs.put slot x }
  let loaded := d.core.isNone || s.kernels.has f.kernel
  if !loaded ∨ 1024 < f.len then put s (ctxFaulted x 4)
  else if f.len = 0 then put (clearLocal s x) x
  else if !poolGranted s d.account f.arg f.len then put s (ctxFaulted x 2)
  else
    match poolGet s d.core f.arg f.len (tagOf s d.account) with
    | (s, .ok b) =>
      put (writeMem (chargePool (clearLocal s x) d.account fPoolRd f.len) x.base b (tagOf s d.account)).1 x
    | (s, .error _) => put s (ctxFaulted x 1)

/-- Deliver a dispatch (R103): a context starts, or the dispatch waits in the queue of 256. The answer says whether
the cluster took it; a full queue stalls the sender. -/
def deliver (s : State) (ch : Fin 48) (d : LampDispatch) : State × Bool :=
  let ch := servedBy s ch
  let s := chargeLink s d.account none 64
  match slotNow s s.clusters[ch] (lampFields d.dw).cls with
  | some i => (startCtx s ch d i, true)
  | none => queueDispatch s ch d

/-- The first queued dispatch whose class has a free slot, Class 0 first, with its place in the queue. -/
def nextDispatch (s : State) (k : Cluster) : Option (Nat × Nat) :=
  let ok (i : Nat) : Option (Nat × Nat) :=
    (k.queue[i]?).bind fun d => (ctxSlot s k (lampFields d.dw).cls).map fun j => (i, j)
  let isC0 (i : Nat) : Bool := ((k.queue[i]?).map fun d => (lampFields d.dw).cls == 0).getD false
  let is := List.range k.queue.length
  ((is.filter isC0) ++ is.filter fun i => !isC0 i).findSome? ok

/-- The context that issues next (R100): its slot, with the cluster's places and credits after the choice. -/
def chooseCtx (s : State) (k : Cluster) : Option (Nat × Cluster) :=
  let ready (c : Nat) : List Nat := (k.ctxs.filter fun x => x.2.state == cxReady && x.2.cls.toNat == c).map (·.1)
  let inClass (k : Cluster) (c : Nat) : Option (Nat × Cluster) :=
    let l := ready c
    let last := k.last.getD c 511
    match (l.filter fun i => decide (last < i)) ++ l with
    | i :: _ => some (i, { k with last := setAt k.last c i })
    | [] => none
  match inClass k 0 with
  | some r => some r
  | none =>
    match wrrPick (fun c => !(ready c).isEmpty) (weights s) k.credit with
    | some (c, cr) => inClass { k with credit := cr } c
    | none => none

/-! ### Instructions (R98) -/

/-- Register `r` of a context; x0 reads as zero. -/
def xr (x : Ctx) (r : Fin 32) : BitVec 32 := if r = 0 then 0 else x.xreg.getD r.val 0

/-- Write a register; a write of x0 is dropped. -/
def setX (x : Ctx) (r : Fin 32) (v : BitVec 32) : Ctx := if r = 0 then x else { x with xreg := setAt x.xreg r.val v }

/-- Step the program counter. -/
def stepPc (x : Ctx) (n : Nat) : Ctx := { x with pc := x.pc + BitVec.ofNat 16 n }

def sx12 (i : BitVec 12) : BitVec 32 := i.signExtend 32

/-- RV32 division and remainder, with the results the RISC-V specification fixes for a zero divisor and for the
overflow (PRESUMED, log 14). -/
def rvDiv (a b : BitVec 32) : BitVec 32 := if b = 0 then BitVec.allOnes 32 else BitVec.sdiv a b
def rvDivu (a b : BitVec 32) : BitVec 32 := if b = 0 then BitVec.allOnes 32 else a / b
def rvRem (a b : BitVec 32) : BitVec 32 := if b = 0 then a else BitVec.srem a b
def rvRemu (a b : BitVec 32) : BitVec 32 := if b = 0 then a else a % b
def high32 (x : Int) : BitVec 32 := BitVec.ofInt 32 (x / (2 ^ 32 : Nat))

/-- Register-register and register-immediate arithmetic of RV32IM: the destination and its value. -/
def aluOf (x : Ctx) : LampInsn → Option (Fin 32 × BitVec 32)
  | .addi rd rs i => some (rd, xr x rs + sx12 i)
  | .slti rd rs i => some (rd, if (xr x rs).slt (sx12 i) then 1 else 0)
  | .sltiu rd rs i => some (rd, if (xr x rs).ult (sx12 i) then 1 else 0)
  | .xori rd rs i => some (rd, xr x rs ^^^ sx12 i)
  | .ori rd rs i => some (rd, xr x rs ||| sx12 i)
  | .andi rd rs i => some (rd, xr x rs &&& sx12 i)
  | .slli rd rs n => some (rd, xr x rs <<< n.val)
  | .srli rd rs n => some (rd, xr x rs >>> n.val)
  | .srai rd rs n => some (rd, (xr x rs).sshiftRight n.val)
  | .add rd a b => some (rd, xr x a + xr x b)
  | .sub rd a b => some (rd, xr x a - xr x b)
  | .sll rd a b => some (rd, xr x a <<< ((xr x b).toNat % 32))
  | .slt rd a b => some (rd, if (xr x a).slt (xr x b) then 1 else 0)
  | .sltu rd a b => some (rd, if (xr x a).ult (xr x b) then 1 else 0)
  | .xor rd a b => some (rd, xr x a ^^^ xr x b)
  | .srl rd a b => some (rd, xr x a >>> ((xr x b).toNat % 32))
  | .sra rd a b => some (rd, (xr x a).sshiftRight ((xr x b).toNat % 32))
  | .or rd a b => some (rd, xr x a ||| xr x b)
  | .and rd a b => some (rd, xr x a &&& xr x b)
  | .mul rd a b => some (rd, xr x a * xr x b)
  | .mulh rd a b => some (rd, high32 ((xr x a).toInt * (xr x b).toInt))
  | .mulhsu rd a b => some (rd, high32 ((xr x a).toInt * (xr x b).toNat))
  | .mulhu rd a b => some (rd, high32 ((xr x a).toNat * (xr x b).toNat : Nat))
  | .div rd a b => some (rd, rvDiv (xr x a) (xr x b))
  | .divu rd a b => some (rd, rvDivu (xr x a) (xr x b))
  | .rem rd a b => some (rd, rvRem (xr x a) (xr x b))
  | .remu rd a b => some (rd, rvRemu (xr x a) (xr x b))
  | .lui rd i => some (rd, (i.zeroExtend 32) <<< 12)
  | .auipc rd i => some (rd, (x.pc.zeroExtend 32) + ((i.zeroExtend 32) <<< 12))
  | _ => none

/-- Jumps and branches: the link register's write, and the next program counter. -/
def jumpOf (x : Ctx) : LampInsn → Option (Option (Fin 32) × BitVec 16)
  | .jal rd off => some (some rd, x.pc + (off.signExtend 32).truncate 16)
  | .jalr rd rs i => some (some rd, (((xr x rs + sx12 i) >>> 1) <<< 1).truncate 16)
  | .beq a b off => br (xr x a == xr x b) off
  | .bne a b off => br (xr x a != xr x b) off
  | .blt a b off => br ((xr x a).slt (xr x b)) off
  | .bge a b off => br (!(xr x a).slt (xr x b)) off
  | .bltu a b off => br ((xr x a).ult (xr x b)) off
  | .bgeu a b off => br (!(xr x a).ult (xr x b)) off
  | _ => none
where
  br (t : Bool) (off : BitVec 13) : Option (Option (Fin 32) × BitVec 16) :=
    some (none, if t then x.pc + (off.signExtend 32).truncate 16 else x.pc + 4)

/-- The unit an instruction queues on: 0 multiply-accumulate, 1 distance, 2 predicate, 3 exponential, 4 draws. -/
def unitOf : LampInsn → Option Nat
  | .mac .. => some 0
  | .daClear .. => some 0
  | .daRound .. => some 0
  | .distance .. => some 1
  | .predicate .. => some 2
  | .exp .. => some 3
  | .rawDraw .. => some 4
  | .maskDraw .. => some 4
  | _ => none

/-- Bytes of LOCAL, and a write to it under the account's tag. -/
def locGet (s : State) (x : Ctx) (a n : Nat) : Bytes := s.mem.gets 0 (x.base + a) n
def locByte (s : State) (x : Ctx) (a : Nat) : Byte := s.mem.get 0 (x.base + a)
def locPut (s : State) (x : Ctx) (a : Nat) (b : Bytes) : State × Option Check.Outcome :=
  writeMem s (x.base + a) (b.take (1024 - a)) (tagOf s x.account.toNat)

/-- The 64-bit address in a register pair. -/
def addrPair (x : Ctx) (lo hi : Fin 32) : Nat := (xr x lo).toNat + 2 ^ 32 * (xr x hi).toNat

/-- The bytes of MX block scales that `n` elements have at a register's address. -/
def scaleRange (x : Ctx) (n : Nat) (r : Option (Fin 32)) : List (Nat × Nat) := (r.map fun r => ((xr x r).toNat, ceilDiv n 32)).toList

/-- The ranges of LOCAL that an instruction reads. -/
def locReads (x : Ctx) : LampInsn → List (Nat × Nat)
  | .loadLocal _ rs i w _ => [((xr x rs + sx12 i).toNat, w)]
  | .poolWrite _ _ src w => if w = 32 then [((xr x src).toNat, 32)] else []
  | .mac _ a b n af bf sa sb =>
    [((xr x a).toNat, ceilDiv (n * widthOf af.toNat) 8), ((xr x b).toNat, ceilDiv (n * widthOf bf.toNat) 8)]
      ++ scaleRange x n sa ++ scaleRange x n sb
  | .distance _ lut code csub => [((xr x lut).toNat, 16 * csub), ((xr x code).toNat, ceilDiv csub 2)]
  | .predicate _ prog (.loc r) => [((xr x prog).toNat, 16), ((xr x r).toNat, 1)]
  | .predicate _ prog (.page ..) => [((xr x prog).toNat, 16)]
  | _ => []

/-- The range of LOCAL that a request in flight will write. -/
def locDue : LampReq → Option (Nat × Nat)
  | .flash _ a d => some (d, min (1024 - d) (16384 - a % 16384))
  | .pool _ d => some (d, 32)
  | _ => none

/-- Does a request in flight bring a page? -/
def brings (ns page : Nat) : LampReq → Bool
  | .flash n a _ => n == ns && a / 16384 == page
  | _ => false

/-- The requests in flight whose data an instruction needs (R99). -/
def needOf (x : Ctx) (i : LampInsn) : List LampReq :=
  x.wait.filter fun q => ((locReads x i).any fun r => ((locDue q).map (meets r)).getD false)
    || (match i with
      | .predicate _ _ (.page ns lo hi) => brings (xr x ns).toNat (addrPair x lo hi / 16384) q
      | _ => false)

/-- The ranges of LOCAL whose words an instruction decodes: those that it reads, and those that it writes in part (R214). -/
def locChecks (x : Ctx) (i : LampInsn) : List (Nat × Nat) :=
  match i with
  | .predicate _ prog src =>
    ((xr x prog).toNat, 1024 - (xr x prog).toNat) :: (match src with | .loc r => [((xr x r).toNat, 1024 - (xr x r).toNat)] | .page .. => [])
  | .storeLocal _ base o w => [((xr x base + sx12 o).toNat, w)]
  | .rawDraw dst .. => [((xr x dst).toNat, 16)]
  | _ => locReads x i

/-- Decode the words of LOCAL that an instruction touches (R208); the answer says whether all of them return data. -/
def checkLocal (s : State) (x : Ctx) (i : LampInsn) : State × Bool :=
  (locChecks x i).foldl (fun (p : State × Bool) r =>
    if !p.2 ∨ 1024 < r.1 + r.2 then p
    else
      match readMem p.1 (x.base + r.1) r.2 (tagOf p.1 x.account.toNat) with
      | (s, .ok _) => (s, true)
      | (s, .error _) => (s, false)) (s, true)

/-- Do the LOCAL operands of an instruction lie in its 1,024 B? -/
def locOk (x : Ctx) (i : LampInsn) : Bool := (locReads x i).all fun r => decide (r.1 + r.2 ≤ 1024)

/-- The record that a predicate reads: LOCAL from an address on, or up to 4 KiB of a page that reached the decoded-page
staging for this context; none for one that did not. -/
def recordAt (s : State) (x : Ctx) : PredSrc → Option Bytes
  | .loc r => some (locGet s x (xr x r).toNat (1024 - (xr x r).toNat))
  | .page ns lo hi =>
    let a := addrPair x lo hi
    if x.staged.contains ((xr x ns).toNat, a / 16384) then some (readMedia s (xr x ns).toNat a (min 4096 (16384 - a % 16384))) else none

/-- May the multiply-accumulate unit take a pair of formats (Tables 2-3, 4-8)? -/
def macOk (a b : Nat) : Bool := decide (a ≤ 6) && (decide (b ≤ 8))

/-- Cycles that an instruction occupies its unit for (Table 4-8). -/
def unitCycles (s : State) (x : Ctx) : LampInsn → Nat
  | .mac _ _ _ n .. => ceilDiv n 128
  | .distance _ _ _ csub => ceilDiv csub 128
  | .predicate _ prog _ => Bytes.le (locGet s x (xr x prog).toNat 2) 0 2
  | _ => 1

/-- Elements 0 to n - 1 of an operand in LOCAL, their MX block scales applied. -/
def macVals (s : State) (x : Ctx) (r : Fin 32) (fmt n : Nat) (scale : Option (Fin 32)) : List Val :=
  (List.range n).map fun i =>
    let v := dec fmt (elem fmt (fun j => locByte s x ((xr x r).toNat + j)) i)
    match scale with
    | some q => mxScale (locByte s x ((xr x q).toNat + i / 32)).toNat v
    | none => v

/-- What an instruction of a unit or of LOCAL does to its context; none for an illegal operand. A multiply-accumulate into a
record of another MODE than its formats sum in (R32) is one (DESIGN CHOICE, log 28). A lamp instruction has no operand for
the rounding mode of R41: it rounds to nearest even (DESIGN CHOICE, log 28). -/
def unitEffect (s : State) (x : Ctx) : LampInsn → Option (State × Ctx)
  | .loadLocal rd rs i w sext =>
    if w ≠ 1 ∧ w ≠ 2 ∧ w ≠ 4 then none
    else
      let v := leNat (locGet s x (xr x rs + sx12 i).toNat w)
      some (s, setX x rd (if sext then BitVec.ofInt 32 (signedOf (8 * w) v) else BitVec.ofNat 32 v))
  | .storeLocal src base i w =>
    let a := (xr x base + sx12 i).toNat
    if (w ≠ 1 ∧ w ≠ 2 ∧ w ≠ 4) ∨ 1024 < a + w then none else some ((locPut s x a (toLe w (xr x src).toNat)).1, x)
  | .mac da a b n af bf sa sb =>
    let r := x.darec.getD da.val {}
    if !macOk af.toNat bf.toNat ∨ r.mode ≠ modeOf af.toNat bf.toNat (sa.isSome || sb.isSome) then none
    else
      let r := ((macVals s x a af.toNat n sa).zip (macVals s x b bf.toNat n sb)).foldl (fun r p => addProd r (mulVal p.1 p.2)) r
      some (s, { x with darec := setAt x.darec da.val r })
  | .daClear da mode anchor =>
    if mode = 3 then none
    else some (s, { x with darec := setAt x.darec da.val (emptyRec mode (signedOf 16 (xr x anchor).toNat)) })
  | .daRound rd da fmt osat =>
    if 0xA < fmt.toNat then none
    else
      let r := x.darec.getD da.val {}
      let o := roundRec r fmt.toNat 0 0 osat 1 1
      some (countRound s (roundFlags r o), setX x rd (BitVec.ofNat 32 o.code))
  | .distance rd lut code csub =>
    let row (c : Nat) : List Nat := (locGet s x ((xr x lut).toNat + 16 * c) 16).map (·.toNat)
    let codes := (List.range csub).map fun c => elem 0 (fun j => locByte s x ((xr x code).toNat + j)) c
    some (s, setX x rd (BitVec.ofNat 32 (approx ((List.range csub).map row) codes)))
  | .predicate rd prog src =>
    let pa := (xr x prog).toNat
    let b := locGet s x pa (16 + 16 * Bytes.le (locGet s x pa 2) 0 2)
    match recordAt s x src with
    | some r => if predOk r.length b then some (s, setX x rd (if predEval b r then 1 else 0)) else none
    | none => none
  | .exp rd rs =>
    match dec 9 (xr x rs).toNat with
    | .fin m e =>
      if m ≤ 0 then some (s, setX x rd (BitVec.ofNat 32 (exp32 m e)))
      else let (v, s) := fresh s; some (s, setX x rd (BitVec.ofNat 32 v))
    | .inf true => some (s, setX x rd 0)
    | _ => let (v, s) := fresh s; some (s, setX x rd (BitVec.ofNat 32 v))
  | .rawDraw dst stream el draw =>
    let a := (xr x dst).toNat
    if 1024 < a + 16 then none
    else
      let b := Rand.block x.seed (xr x stream) (x.lidx + (xr x el).zeroExtend 64).toNat (xr x draw)
      some ((locPut s x a (b.flatMap (toLe 4))).1, x)
  | .maskDraw dst stream el draw k =>
    if 65536 < (xr x k).toNat then none
    else
      let m := Rand.maskBit x.seed (xr x stream) (x.lidx + (xr x el).zeroExtend 64).toNat (xr x draw) (xr x k).toNat
      some (s, setX x dst (if m then 1 else 0))
  | _ => none

/-- A memory request of a context (R99, R102): the request, and whether the context may make it. -/
def requestOf (s : State) (x : Ctx) : LampInsn → Option (LampReq × Option Nat)
  | .poolRead lo hi d =>
    let a := addrPair x lo hi
    some (.pool a (xr x d).toNat, if 1024 < (xr x d).toNat + 32 then some 4
      else if poolGranted s x.account.toNat (wordAt a) 32 then none else some 2)
  | .flashRead ns lo hi d =>
    some (.flash (xr x ns).toNat (addrPair x lo hi) (xr x d).toNat,
      if x.core.isSome then some 2 else if 1024 ≤ (xr x d).toNat then some 4 else none)
  | _ => none

/-- A pool write of a kernel: a whole word from LOCAL, or a narrow write of a register (R214). -/
def lampPoolWrite (s : State) (x : Ctx) (lo hi src : Fin 32) (w : Nat) : State × Ctx :=
  let a := addrPair x lo hi
  if !((w == 1 || w == 2 || w == 4 || w == 32) && a % w == 0) then (s, ctxFaulted x 4)
  else if !poolGranted s x.account.toNat a w ∨ forbids s x.core true a w then (s, ctxFaulted x 2)
  else
    let b := if w = 32 then locGet s x (xr x src).toNat 32 else toLe w (xr x src).toNat
    let (s, p) := poolForWrite s x.core a
    match writeMem s p b (tagOf s x.account.toNat) with
    | (s, none) => (chargePool (touchTile s p) x.account.toNat fPoolWr w, stepPc x 4)
    | (s, some _) => (s, ctxFaulted x 1)

/-- Does the program counter point at an instruction of the kernel? Firmware's kernels have their own memory. -/
def pcOk (s : State) (x : Ctx) : Bool :=
  x.core.isNone || ((s.kernels.get? x.kernel.toNat).map fun k => decide (x.pc.toNat + 4 ≤ k.size)).getD false

/-- The fetch of an instruction decodes its word of kernel memory under the context's tag (R206, R208); the answer says
whether it returns data. -/
def fetchInsn (s : State) (x : Ctx) : State × Bool :=
  if x.core.isNone then (s, true)
  else
    match readWord s (wordAt (kernelAt x.kernel.toNat + x.pc.toNat)) (tagOf s x.account.toNat) with
    | (s, o) => (s, o.data?.isSome)

/-- What came of an instruction: none where its context only starts to wait and takes no issue slot (R99), else the unit
that it occupies, if any. -/
abbrev Issued := Option (Option Nat)

/-- A context that waits for something takes no issue slot (R99). -/
def ctxWaits (x : Ctx) (l : List LampReq) : Ctx := { x with state := cxWaiting, needs := l }

/-- An instruction of a unit: it waits for room in the unit's queue, or occupies the unit (R99, R100). -/
def lampUnit (s : State) (k : Cluster) (x : Ctx) (i : LampInsn) (u : Nat) : State × Ctx × Issued :=
  if 8 ≤ (k.units.getD u []).length then (s, ctxWaits x [.unit u], none)
  else
    match unitEffect s x i with
    | some (s, y) => (s, ctxWaits (stepPc y 4) [.unit u], some (some u))
    | none => (s, ctxFaulted x 4, some none)

/-- A read request: at most four outstanding, and each within the context's budget. -/
def lampRequest (s : State) (x : Ctx) (q : LampReq) (bad : Option Nat) : State × Ctx × Issued :=
  if 4 ≤ x.outstanding then (s, ctxWaits x [.slotFree], none)
  else match bad with
    | some c => (s, ctxFaulted x c, some none)
    | none =>
      if x.budget = 0 then (s, ctxFaulted x 3, some none)
      else (s, { stepPc x 4 with budget := x.budget - 1, used := x.used + 1, outstanding := x.outstanding + 1,
                                 wait := x.wait ++ [q] }, some none)

/-- An instruction that completes at once on the context's registers and LOCAL. FENCE orders nothing in a context that issues
in order. A cluster has no environment to call: ECALL and EBREAK end the context as illegal instructions do (DESIGN CHOICE,
log 28). -/
def lampPlain (s : State) (x : Ctx) (i : LampInsn) : State × Ctx :=
  match aluOf x i, jumpOf x i, unitEffect s x i with
  | some (rd, v), _, _ => (s, stepPc (setX x rd v) 4)
  | _, some (rd, pc), _ => (s, { (match rd with | some r => setX x r (x.pc.zeroExtend 32 + 4) | none => x) with pc := pc })
  | _, _, some (s, y) => (s, stepPc y 4)
  | _, _, _ => (s, if i = .fence then stepPc x 4 else ctxFaulted x 4)

/-- An instruction whose words have decoded: by its kind. -/
def lampKind (s : State) (k : Cluster) (x : Ctx) (i : LampInsn) : State × Ctx × Issued :=
  match unitOf i, requestOf s x i, i with
  | some u, _, _ => lampUnit s k x i u
  | none, some (q, bad), _ => lampRequest s x q bad
  | none, none, .poolWrite lo hi src w => let r := lampPoolWrite s x lo hi src w; (r.1, r.2, some none)
  | none, none, .endKernel => (s, { x with state := cxDone }, some none)
  | none, none, _ => let r := lampPlain s x i; (r.1, r.2, some none)

/-- Go on with a context whose words decode; one that does not is a check-code failure on a read (Table 4-10). -/
def lampChecked (p : State × Bool) (x : Ctx) (k : State → State × Ctx × Issued) : State × Ctx × Issued :=
  if p.2 then k p.1 else (p.1, ctxFaulted x 1, some none)

/-- One instruction of a context: the state, the context after it, and what came of it. -/
def lampStep (s : State) (k : Cluster) (x : Ctx) (i : LampInsn) : State × Ctx × Issued :=
  if !pcOk s x then (s, ctxFaulted x 4, some none)
  else lampChecked (fetchInsn s x) x fun s =>
    if !locOk x i then (s, ctxFaulted x 4, some none)
    else if needOf x i ≠ [] then (s, ctxWaits x (needOf x i), none)
    else lampChecked (checkLocal s x i) x fun s => lampKind s k x i

/-- The 32 bytes of a completion record (R102, R215). -/
def lampRecord (x : Ctx) : Bytes :=
  Bytes.sub (toLe 4 x.tag.toNat ++ toLe 4 x.state.toNat ++ toLe 4 x.faultCode.toNat ++ toLe 4 x.used.toNat) 0 32

/-- Post a completion record as one whole word at the reply address (R102, R215); the core gets its event (R96). -/
def postRecord (s : State) (x : Ctx) : State :=
  let a := wordAt x.reply.toNat
  let s := if poolGranted s x.account.toNat a 32 && !forbids s x.core true a 32 then
      let (s, p) := poolForWrite s x.core a
      setStale (chargePool (writeWord s p (lampRecord x) (tagOf s x.account.toNat)) x.account.toNat fPoolWr 32) (tileNo p)
    else s
  match x.core with
  | some c => coreEvent s c 8
  | none => s

/-- The first waited-for item that a reply answers. -/
def answers : LampReply → LampReq → Bool
  | .flashPage, .flash .. => true
  | .flashFailed, .flash .. => true
  | .poolRead, .pool .. => true
  | .unitFree, .unit _ => true
  | _, _ => false

/-- Remove the first element that satisfies a test. -/
def eraseFirst {α : Type} (p : α → Bool) : List α → List α
  | [] => []
  | x :: t => if p x then t else x :: eraseFirst p t

/-- Something that a context waits for has come; it is ready when nothing else is missing (R99). -/
def arrived (x : Ctx) (q : LampReq) : Ctx :=
  let l := eraseFirst (· == q) x.needs
  { x with needs := l, state := if x.state = cxWaiting ∧ l = [] then cxReady else x.state }

/-- A request returns (R99, R102): data reach LOCAL, or a failed read faults the context; what returns to a context that
has ended is discarded. -/
def lampReturn (s : State) (x : Ctx) (q : LampReq) (r : LampReply) : State × Ctx :=
  let x := { x with outstanding := x.outstanding - 1, wait := eraseFirst (· == q) x.wait }
  if x.state = cxFault ∨ x.state = cxDone then (s, x)
  else
    let x := arrived (arrived x q) .slotFree
    match q, r with
    | .flash ns a _, .flashFailed => (s, { ctxFaulted x 6 with failed := some (ns, a) })
    | .flash ns a d, _ =>
      let x := { x with staged := (ns, a / 16384) :: x.staged }
      match locPut (charge s x.account.toNat none fFlashRd 16384) x d (readMedia s ns a (min (1024 - d) (16384 - a % 16384))) with
      | (s, none) => (s, x)
      | (s, some _) => (s, ctxFaulted x 1)
    | .pool a d, _ =>
      match readMem s (poolAt s x.core (wordAt a)) 32 (tagOf s x.account.toNat) with
      | (s, .ok b) =>
        match locPut (chargePool s x.account.toNat fPoolRd 32) x d b with
        | (s, none) => (s, x)
        | (s, some _) => (s, ctxFaulted x 1)
      | (s, .error _) => (s, ctxFaulted x 1)
    | _, _ => (s, x)

end Sys2Proof.Machine
end

