-- ==== Sys2Proof/Machine/CoreOps.lean ====
section
/-! DEFINITION. Operations of a compute core (spec 03, spec 04): the core address map, grants, the ME descriptor queue,
chains, work tiles, abandonment and replay, mailboxes, and the end of a program. -/

namespace Sys2Proof.Machine

open Sys2Proof.Num

/-! ### Core address map (Table 4-2) -/

def poolCoreBase : Nat := 0x10000000000

/-- Where a core address lies in `mem`: scratch, the own die's tile store, or the pool. -/
def physOf (c : Fin 8) (a : Nat) : Option Nat :=
  if a < scratchBytes then some (scratchBase c + a)
  else if 0x10000000 ≤ a ∧ a < 0x10000000 + storeBytes then some (storeBase (c / 4) + (a - 0x10000000))
  else if poolCoreBase ≤ a ∧ a < poolCoreBase + poolBytes then some (a - poolCoreBase)
  else none

/-- Is a core address in a register region of Table 4-2? -/
def inRegs (a : Nat) : Bool :=
  (decide (0x30000000 ≤ a) && decide (a < 0x30000C80)) || (decide (0x30001000 ≤ a) && decide (a < 0x30001200))
    || (decide (0x30002000 ≤ a) && decide (a < 0x30002C00))

/-- The engine and offset that an operand-memory address names. -/
def opRegionOf (a : Nat) : Option (Fin 4 × Nat) :=
  if 0x20000000 ≤ a ∧ a < 0x20000000 + 4 * opMemBytes then
    (finOf? 4 ((a - 0x20000000) / opMemBytes)).map fun e => (e, (a - 0x20000000) % opMemBytes)
  else none

/-- Is a physical address in scratch or a tile store? -/
def inTiles (p : Nat) : Bool := isDataTile (tileNo p)

/-! ### Grants (R83, R108) -/

def tileGranted (s : State) (acct t : Nat) : Bool :=
  let e := dirOf s t
  acct == 0 || (e.granted && e.account.toNat == acct)

/-- May the core write the data tile: granted, and in a tile store with its write grant? -/
def tileWritable (s : State) (c : Fin 8) (acct t : Nat) : Bool :=
  tileGranted s acct t && (decide (t < 2 ^ 25) || (dirOf s t).wcore.toNat == c.val % 4)

/-- Is a physical range granted to an account? -/
def rangeGranted (s : State) (acct p n : Nat) : Bool :=
  if isPool p then poolGranted s acct p n && decide (p + n ≤ poolBytes) else (tilesIn p n).all (tileGranted s acct)

/-! ### Descriptor slots -/

/-- Replace dword `i` of a descriptor. -/
def setDw (d : List W32) (i v : Nat) : List W32 := setAt d i (BitVec.ofNat 32 v)

def onMe (s : State) (c : Fin 8) (i : Fin 16) (f : MeSlot → MeSlot) : State :=
  onCore s c fun k => { k with meSlots := upd k.meSlots i f }
def onTm (s : State) (c : Fin 8) (i : Fin 32) (f : DescSlot → DescSlot) : State :=
  onCore s c fun k => { k with tmSlots := upd k.tmSlots i f }
def onTd (s : State) (c : Fin 8) (i : Fin 2) (f : DescSlot → DescSlot) : State :=
  onBank s c fun b => { b with tileSlots := upd b.tileSlots i f }

/-- ARM is set: the core acts on the slot (R75, R90). -/
def armed (d : List W32) : Bool := bitOf (dwAt d 0) 0

/-- Dword 0 that a write leaves in a slot whose ARM is 0. A refused slot, which still stands in its queue, does not arm
until its FAULT is cleared (R78, R90; DEDUCED, log 71); after an abandonment FAULT holds nothing. -/
def armWrite (old value rw : Nat) (refused : Bool) : Nat :=
  let w := writeDw0 old value rw 6
  if refused && bitOf w 2 then w &&& (2 ^ 32 - 1 - armBit) else w

/-- Add a number to a list that lacks it. -/
def addOnce (l : List Nat) (i : Nat) : List Nat := if l.contains i then l else l ++ [i]

/-! ### ME descriptors (R64, R74 to R78) -/

/-- Dword 0 bits that a write sets: ARM, TREE, EN, AFMT, ACC, OSAT, RND, PARTIAL, ANCHOR_EN. -/
def meRw : Nat := 0x7FFF09

/-- Engines that a descriptor enables. -/
def enabled (d : MeDesc) : List (Fin 4) := (List.finRange 4).filter fun e => bitOf d.en e.val

def engOf (d : MeDesc) (e : Fin 4) : MeEng := d.eng.getD e.val default

/-- Stationary format of the enabled slots. -/
def wfmtOf (d : MeDesc) : Nat := ((enabled d).head?.map fun e => (engOf d e).wfmt).getD 0

/-- The wider operand's format, and K_pass. -/
def passFmt (d : MeDesc) : Nat := wider d.afmt (wfmtOf d)
def passK (d : MeDesc) : Nat := kPass (passFmt d)

/-- Bytes of a run of elements. -/
def elemBytes (fmt n : Nat) : Nat := n * widthOf fmt / 8

/-- Bytes of a stationary operand, and with its scales. -/
def statBytes (d : MeDesc) : Nat := elemBytes (wfmtOf d) (512 * passK d)
def statLen (d : MeDesc) (e : MeEng) : Nat := statBytes d + if e.wmx then 512 * (passK d / 32) else 0

/-- Offset of output row `m`: rows of 6-bit elements leave the last 256 bytes of a tile unused (R220). -/
def rowOff (d : MeDesc) (fmt m : Nat) : Nat :=
  if d.part then 12288 * m else if widthOf fmt = 6 then m / 170 * tileBytes + m % 170 * 384 else m * elemBytes fmt 512

/-- Bytes of an output region. -/
def outLen' (d : MeDesc) (fmt : Nat) : Nat :=
  rowOff d fmt (d.m - 1) + (if d.part then 12288 else elemBytes fmt 512)

/-- Core-address ranges that a descriptor reads in scratch and tile store. -/
def meReads (d : MeDesc) : List (Nat × Nat) :=
  (d.act, d.m * elemBytes d.afmt (passK d)) :: if d.ascale = 0 then [] else [(d.ascale, d.m * (passK d / 32))]

/-- Core-address ranges that it writes. -/
def meWrites (d : MeDesc) : List (Nat × Nat) := (enabled d).map fun e => ((engOf d e).out, outLen' d (engOf d e).ofmt)

/-- Is a range of core addresses inside scratch or the own tile store, with every tile accepted by a test? -/
def tilesOk (c : Fin 8) (r : Nat × Nat) (p : Nat → Bool) : Bool :=
  match physOf c r.1, physOf c (r.1 + r.2 - 1) with
  | some a, some b => inTiles a && inTiles b && a / 2 ^ 25 == b / 2 ^ 25 && (tilesIn a r.2).all p
  | _, _ => false

/-- Is a read or a write of a range of core addresses closed to the core's program (Table 4-12)? -/
def closed (s : State) (c : Fin 8) (write : Bool) (r : Nat × Nat) : Bool :=
  ((physOf c r.1).map fun p => forbids s (some c) write p r.2).getD false

/-- The chain of an engine as a descriptor leaves it: its M while open, and whether it belongs to the open tile. -/
def chainAfter (d : MeDesc) (inTile : Bool) (cur : Option (Nat × Bool)) : Option (Nat × Bool) :=
  match d.acc with | 0 => some (d.m, inTile) | 1 => cur | _ => none

/-- The chain of an engine behind the queued descriptors ahead of a slot (R64). -/
def chainAhead (k : Core) (e : Fin 4) (slot : Nat) : Option (Nat × Bool) :=
  let start := (k.engines[e].chain).bind fun c => if c.draining then none else some (c.m, c.inTile)
  (k.meQueue.takeWhile (· != slot)).foldl (fun cur i =>
    match finOf? 16 i with
    | some i =>
      let d := meDesc k.meSlots[i].dw
      if armed k.meSlots[i].dw ∧ bitOf d.en e.val then chainAfter d k.meSlots[i].inTile cur else cur
    | none => cur) start

/-- Is a descriptor out of sequence on an engine (R64)? A continue or finish pass needs an open chain of its own tile. One
whose M is another than its chain's has no STATUS of its own in the spec: it is taken as out of sequence (DESIGN CHOICE,
log 72). -/
def chainBad (d : MeDesc) (inTile : Bool) (cur : Option (Nat × Bool)) : Bool :=
  if d.acc = 1 ∨ d.acc = 2 then cur != some (d.m, inTile) else cur.isSome

/-- The data tile of the open work tile's LOCAL_TILE. -/
def localTileOf (s : State) (c : Fin 8) : Option Nat :=
  (s.cores[c].tile.bind fun w => (finOf? 2 w.slot).bind fun i =>
    physOf c (tileDesc (bank s.cores[c]).tileSlots[i].dw).localTile).map tileNo

/-- Is a data tile neither in the OUT_LIST of the open tile nor its LOCAL_TILE (R87)? -/
def outsideOut (s : State) (c : Fin 8) (t : Nat) : Bool :=
  match s.cores[c].tile with
  | some w => !((finOf? 2 w.slot).map fun i => (bank s.cores[c]).tileSlots[i].outs.contains t).getD false
      && localTileOf s c != some t
  | none => false

/-- The work tile that accepts descriptors: open and not closed. What the core accepts between CLOSE and the tile's
completion does not belong to the tile (DEDUCED, log 77: R84 says that CLOSE closes it). -/
def accepting (k : Core) : Bool := (k.tile.map fun w => !w.closed).getD false

/-- STATUS of an ME_DESC at its check: 0, or the lowest code of Table 3-8 that applies (DEDUCED, log 22). Block scales on
elements of a format for which R28 defines no MX block have no refusal in the spec: the pass applies them as to the
others (DESIGN CHOICE, log 72). -/
def meCheck (s : State) (c : Fin 8) (slot : Nat) (d : MeDesc) (fw : Bool) : Nat :=
  let k := s.cores[c]
  let es := enabled d
  let acct := ownerOn s c
  let anch := modeOf d.afmt (wfmtOf d) (d.ascale != 0 || es.any fun e => (engOf d e).wmx) == modeA
  if d.m = 0 ∨ 768 < d.m then 1
  else if 10 ≤ d.afmt ∨ d.rnd = 3 ∨ 10 ≤ wfmtOf d ∨ (es.any fun e => (engOf d e).wfmt != wfmtOf d)
      ∨ (!d.part ∧ es.any fun e => decide (10 < (engOf d e).ofmt)) then 2
  else if d.act % 128 ≠ 0 ∨ es.any fun e => (engOf d e).wOff % 1024 != 0 || (engOf d e).out % 65536 != 0
      || decide (opMemBytes < (engOf d e).wOff + statLen d (engOf d e)) then 3
  else if (meWrites d).any fun w => (meReads d).any (meets w)
      || (if accepting k then (k.tile.map (·.operands)).getD [] else []).any (meets w) then 4
  else if !((meReads d).all fun r => tilesOk c r (tileGranted s acct) && !closed s c false r)
      ∨ !((meWrites d).all fun r => tilesOk c r (fun t => tileWritable s c acct t && !(accepting k && outsideOut s c t))
        && !closed s c true r) then 5
  else if anch ∧ d.acc ≠ 3 ∧ !d.anchorEn then 6
  else if d.en = 0 then 7
  else if es.any fun e => k.engines[e].graft.retired then 8
  else if es.any fun e => chainBad d (accepting k) (chainAhead k e slot) then 9
  else if d.tree ∧ !fw then 10
  else 0

/-- A write of dword 0 of an ME descriptor slot (R75, R76): a slot whose ARM is 1 ignores it; setting ARM latches and
checks the descriptor, then queues or refuses it. -/
def meWrite (s : State) (c : Fin 8) (slot : Fin 16) (v : Nat) (fw : Bool) : State :=
  let k := s.cores[c]
  let old := k.meSlots[slot].dw
  if bitOf (dwAt old 0) 0 then s
  else
    let w := armWrite (dwAt old 0) v meRw (k.meQueue.contains slot)
    let dw := setDw old 0 w
    if !bitOf w 0 then onMe s c slot fun x => { x with dw := dw }
    else
      let st := meCheck s c slot (meDesc dw) fw
      let s := onCore s c fun k => { k with meQueue := addOnce k.meQueue slot }
      if st ≠ 0 then
        coreEvent (onMe s c slot fun x => { x with dw := setDw (setDw dw 0 (endDw0 w faultBit)) 7 st }) c 3
      else
        let inT := accepting k
        let s := onMe s c slot fun _ =>
          { dw := setDw dw 7 0, draw := (bank k).cgDraw, fw := fw, issued := false, inTile := inT }
        if inT then onCore s c fun k => { k with tile := k.tile.map fun t => { t with operands := t.operands ++ meReads (meDesc dw) } }
        else s

/-! ### The issue rule and a pass (R54, R58 to R64) -/

/-- The descriptor at the head of the ME queue, where nothing holds it. -/
def meHead (k : Core) : Option (Fin 16) :=
  match k.meQueue with
  | i :: _ => (finOf? 16 i).bind fun i => if armed k.meSlots[i].dw then some i else none
  | [] => none

/-- ME-cycles that a descriptor adds to the stream budget (R85). -/
def streamCost (d : MeDesc) : Nat :=
  period d.m (passFmt d) + if d.part ∧ 2 ≤ d.acc then 48 * d.m - 6144 else 0

/-- COST of the open tile. -/
def tileCost (s : State) (c : Fin 8) : Nat :=
  match s.cores[c].tile with
  | some w => ((finOf? 2 w.slot).map fun i => (tileDesc (bank s.cores[c]).tileSlots[i].dw).cost).getD 0
  | none => 0

/-- Would the head descriptor take the stream budget past COST (R85)? -/
def overBudget (s : State) (c : Fin 8) : Bool :=
  match s.cores[c].tile, meHead s.cores[c] with
  | some w, some i =>
    let x := s.cores[c].meSlots[i]
    x.inTile && decide (tileCost s c < w.stream + streamCost (meDesc x.dw) + 640)
  | _, _ => false

/-- Rescan a resident tile whose record is stale or of another format (R221): its words are read under the owner's tag; one
that does not decode shows when it is read for use. -/
def rescan (s : State) (c : Fin 8) (fmt : Option Nat) (t : Nat) : State :=
  let r := recOf s t
  let f := fmt.getD r.fmt.toNat
  let st := (dirOf s t).state
  if (r.stale ∨ r.fmt.toNat ≠ f) ∧ (st = tdClean ∨ st = tdDirty) then
    let s := checkWords s (t * tileBytes) tileBytes (tagOn s c)
    chargeOn { s with maxRec := s.maxRec.put t (scanTile s t f) } c fVec 64
  else s

/-- Tiles of a core-address range. -/
def rangeTiles (c : Fin 8) (r : Nat × Nat) : List Nat := ((physOf c r.1).map fun p => tilesIn p r.2).getD []

/-- Operand-memory regions that an engine's operand covers. -/
def opRegions (d : MeDesc) (e : MeEng) : List Nat :=
  (List.range 4).filter fun r => meets (r * tileBytes, tileBytes) (e.wOff, statLen d e)

/-- Is the open tile one that an emergency trip abandoned, whose replay waits for the trip to clear (R73, R427)? -/
def tripHeld (s : State) (c : Fin 8) : Bool := s.power.emergency && (s.cores[c].tile.any fun t => t.replayCause == some 0x12)

/-- Do the conditions of R58 hold for the head descriptor? -/
def passReady (s : State) (c : Fin 8) (i : Fin 16) : Bool :=
  let k := s.cores[c]
  let x := k.meSlots[i]
  let d := meDesc x.dw
  k.level == .lit && k.stepReq.isNone && !tripHeld s c && (x.inTile == k.tile.isSome) && !overBudget s c
    && ((enabled d).all fun e => ((opRegions d (engOf d e)).all fun r => bitOf k.engines[e].opResident.toNat r)
      && !((k.engines[e].chain.map (·.draining)).getD false))
    && ((meWrites d).all fun r => tilesOk c r (tileWritable s c (ownerOn s c)))
    && (meReads d).all fun r => (rangeTiles c r).all (resident s)

/-- Every 64 KiB region of operand memory whose record is of another format is rescanned (R221). -/
def rescanOps (s : State) (c : Fin 8) (d : MeDesc) (e : Fin 4) : State :=
  (opRegions d (engOf d e)).foldl (fun a r =>
    let m := a.cores[c].engines[e].opRec.getD r {}
    if m.fmt.toNat = (engOf d e).wfmt then a
    else
      let a := checkWords a (opMemBase c e + r * tileBytes) tileBytes (tagOn a c)
      let rc := tileRec (engOf d e).wfmt fun i => a.mem.get 0 (opMemBase c e + r * tileBytes + i)
      chargeOn (onEngine a c e fun g => { g with opRec := g.opRec.put r rc }) c fVec 64) s

/-- Read a range of core addresses, or one that lies in operand memory, with its check codes. -/
def readRange (s : State) (c : Fin 8) (r : Nat × Nat) : State × Option (Array Byte) :=
  match physOf c r.1 with
  | none => (s, none)
  | some p =>
    match readMem s p r.2 (tagOn s c) with
    | (s, .ok b) => (s, some b.toArray)
    | (s, .error _) => (s, none)

/-- Decoded elements `0` to `n - 1` of a row that starts at byte `off`, with their MX scales from byte `so` on. -/
def actVals (fmt n : Nat) (b : Array Byte) (off : Nat) (sc : Option (Array Byte)) (so : Nat) : List Val :=
  (List.range n).map fun k =>
    let v := dec fmt (elem fmt (fun j => b.getD (off + j) 0) k)
    match sc with
    | some a => mxScale (a.getD (so + k / 32) 0).toNat v
    | none => v

/-- Column `n` of a stationary operand: element (k, n) is element 512 k + n of the operand, the scales of the columns
follow the elements, K_pass / 32 bytes for each column in turn (DEDUCED, log 22). -/
def colVals (d : MeDesc) (e : MeEng) (b : Array Byte) (n : Nat) : List Val :=
  (List.range (passK d)).map fun k =>
    let v := dec e.wfmt (elem e.wfmt (fun j => b.getD j 0) (512 * k + n))
    if e.wmx then mxScale (b.getD (statBytes d + n * (passK d / 32) + k / 32) 0).toNat v else v

/-- E of the activations and of a stationary operand: from the max-abs records, or, where block scales apply, from the
decoded values (R33, R34). -/
def maxInt (l : List Int) (d : Int) : Int := match l with | [] => d | x :: t => t.foldl max x
def actE (s : State) (c : Fin 8) (d : MeDesc) (rows : List (List Val)) : Int :=
  if d.ascale ≠ 0 then eOf d.afmt rows.flatten
  else maxInt ((rangeTiles c (d.act, d.m * elemBytes d.afmt (passK d))).map fun t => (recOf s t).e.toInt) (ellOf d.afmt)
def statE (s : State) (c : Fin 8) (d : MeDesc) (e : Fin 4) (cols : List (List Val)) : Int :=
  if (engOf d e).wmx then eOf (wfmtOf d) cols.flatten
  else maxInt ((opRegions d (engOf d e)).map fun r => (s.cores[c].engines[e].opRec.getD r {}).e.toInt) (ellOf (wfmtOf d))

/-- The mode of a pass on an engine. -/
def passMode (d : MeDesc) (e : Fin 4) : BitVec 2 := modeOf d.afmt (wfmtOf d) (d.ascale != 0 || (engOf d e).wmx)

/-- The accumulator entries after a pass: entry 512 m + n is output (m, n). -/
def passAcc (clear : Bool) (base : DaRec) (old : Tab DaRec) (rows cols : List (List Val)) : Tab DaRec :=
  (List.range (rows.length * 512)).map fun i =>
    let r := if clear then base else old.getD i base
    (i, ((rows.getD (i / 512) []).zip (cols.getD (i % 512) [])).foldl (fun r p => addProd r (mulVal p.1 p.2)) r)

/-- The residues after a pass: each column counts modulo 255 the units that its products add (R69). -/
def passResid (clear : Bool) (base : DaRec) (old : Tab Nat) (rows cols : List (List Val)) : Tab Nat :=
  let units (v : Val) : Int := match v with
    | .fin m e => (toUnits (lsbOf base) m e).1
    | _ => 0
  (List.range (rows.length * 512)).map fun i =>
    let r : Int := if clear then 0 else old.getD i 0
    (i, (((rows.getD (i / 512) []).zip (cols.getD (i % 512) [])).foldl
      (fun r p => (r + units (mulVal p.1 p.2)) % 255) r).toNat)

/-- Does an accumulator entry agree with its residue? Entries with OVF set are exempt (R69). -/
def residueOk (r : DaRec) (x : Nat) : Bool := r.ovf || daInt r % 255 == (x : Int)

/-- Do all entries of an engine agree with their residues? -/
def engineResidues (g : Engine) : Bool := g.acc.all fun p => residueOk p.2 (g.resid.getD p.1 0)

/-- Physical rows and columns in use, in order: logical row `i` is the (i + 1)th set bit of ROW_USE, logical column `j` that
of COL_USE (R68). -/
def graftRows (g : Graft) : List Nat := (List.range 132).filter fun i => g.rowUse.getLsbD i
def graftCols (g : Graft) : List Nat := (List.range 520).filter fun i => g.colUse.getLsbD i

/-- The register planes of an engine's cells after a stationary load: physical cell (r, c) holds 4 bytes at
4 (520 r + c), the element of its logical row and column, or the pair of elements 2k and 2k + 1 where K_pass is 256
(R52, R53, R68; DESIGN CHOICE, log 72: the spec does not say which two). -/
def cellPlane (g : Graft) (d : MeDesc) (e : MeEng) (b : Array Byte) : Mem :=
  let code (k n : Nat) : Nat := elem e.wfmt (fun j => b.getD j 0) (512 * k + n)
  let word (k n : Nat) : Nat := if passK d = 256 then code (2 * k) n + 2 ^ widthOf e.wfmt * code (2 * k + 1) n else code k n
  ((graftRows g).zip (List.range 128)).flatMap fun r => ((graftCols g).zip (List.range 512)).flatMap fun c =>
    (((List.range 4).zip (toLe 4 (word r.2 c.2))).map fun x => (4 * (520 * r.1 + c.1) + x.1, x.2)).filter fun x => x.2 != 0

/-- ME-cycles of a pass: those of its own vectors, the account's, and those of the gap that keep-lit vectors fill, the
system account's (R63, R72). In tree mode a vector enters every 4 v cycles behind the load, and no gap follows (R66; DESIGN
CHOICE, log 72: the spec gives no figure for a whole pass). -/
def passCycles (d : MeDesc) : Nat × Nat :=
  let own := d.m * vOf (passFmt d)
  if d.tree then (4 * own + lOf (passFmt d), 0) else (own, period d.m (passFmt d) - own)

/-- One engine's part of a pass: none where a read fails or the anchors of the chain differ, with the cause. -/
def passEngine (s : State) (c : Fin 8) (i : Fin 16) (d : MeDesc) (rows : List (List Val)) (e : Fin 4) :
    State × Option (BitVec 8) :=
  let g := engOf d e
  match readMem s (opMemBase c e + g.wOff) (statLen d g) (tagOn s c) with
  | (s, .error _) => (s, some 0x21)
  | (s, .ok b) =>
    let a := b.toArray
    let cols := (List.range 512).map (colVals d g a)
    let mode := passMode d e
    let ceil : Int := if mode ≠ modeA then 0 else if d.anchorEn then d.anchor else actE s c d rows + statE s c d e cols + 2
    let base := emptyRec mode ceil
    let clear := d.acc == 0 || d.acc == 3
    let old := s.cores[c].engines[e].acc
    if !clear ∧ !mergeable (old.getD 0 {}) base then (s, some 0x11)
    else
      let x := s.cores[c].engines[e]
      let st : Stat := { data := cellPlane x.graft d g a, fmt := BitVec.ofNat 4 g.wfmt, mx := g.wmx }
      let (own, gap) := passCycles d
      let inT := if clear then s.cores[c].meSlots[i].inTile else (x.chain.map (·.inTile)).getD false
      (onEngine (charge (chargeOn s c fMe own) 0 none fMe gap) c e fun x =>
        { x with
          shadow := st, active := st, flow := .streaming
          acc := passAcc clear base old rows cols
          resid := passResid clear base x.resid rows cols
          chain := some { m := d.m, anchor := if mode = modeA then some ceil else none, draining := decide (2 ≤ d.acc)
                          slot := i.val, inTile := inT } },
       none)

/-- The passes of every enabled engine, up to the first that fails. -/
def passEngines (s : State) (c : Fin 8) (i : Fin 16) (d : MeDesc) (rows : List (List Val)) :
    List (Fin 4) → State × Option (BitVec 8)
  | [] => (s, none)
  | e :: t =>
    match passEngine s c i d rows e with
    | (s, none) => passEngines s c i d rows t
    | r => r

/-! ### Work tiles: end, abandonment, replay (R73, R74, R85 to R88, R92, R440) -/

/-- Clear the accumulators and chains of a core. -/
def clearAcc (s : State) (c : Fin 8) : State :=
  (List.finRange 4).foldl (fun a e => onEngine a c e fun g => { g with acc := [], resid := [], chain := none }) s

/-- The ME slots of a core that satisfy a test lose ARM and leave the queue; their DONE and FAULT stay clear. -/
def dropMe (s : State) (c : Fin 8) (p : MeSlot → Bool) : State :=
  (List.finRange 16).foldl (fun a i =>
    let x := a.cores[c].meSlots[i]
    if p x && (bitOf (dwAt x.dw 0) 0 || x.issued) then
      onCore (onMe a c i fun x => { x with dw := setDw x.dw 0 (endDw0 (dwAt x.dw 0) 0), issued := false }) c
        fun k => { k with meQueue := k.meQueue.filter (· != i.val) }
    else a) s

/-- Mark ME slots as abandoned with a STATUS. -/
def abandonMe (s : State) (c : Fin 8) (l : List (Fin 16)) (status : Nat) : State :=
  l.foldl (fun a i =>
    coreEvent (onCore (onMe a c i fun x =>
        { x with dw := setDw (setDw x.dw 0 (endDw0 (dwAt x.dw 0) faultBit)) 7 status, issued := false }) c
      fun k => { k with meQueue := k.meQueue.filter (· != i.val) }) c 3) s

/-- The ME slots whose pass or drain is in progress. -/
def issuedMe (k : Core) : List (Fin 16) := (List.finRange 16).filter fun i => k.meSlots[i].issued

/-- The data tiles that the open tile's lists name. -/
def tileOuts (s : State) (c : Fin 8) : List Nat :=
  match s.cores[c].tile with
  | some w => ((finOf? 2 w.slot).map fun i => (bank s.cores[c]).tileSlots[i].outs).getD []
  | none => []
def tileIns (s : State) (c : Fin 8) : List Nat :=
  match s.cores[c].tile with
  | some w => ((finOf? 2 w.slot).map fun i => (bank s.cores[c]).tileSlots[i].ins).getD []
  | none => []

/-- A tile written by a store: DIRTY with a stale record, or, in the OUT_LIST of the open tile, still PENDING. -/
def storedTile (s : State) (c : Fin 8) (t : Nat) (r : Option MaxAbs) : State :=
  let old := recOf s t
  let new := r.getD { old with stale := true }
  if (tileOuts s c).contains t then
    onCore s c fun k => { k with tile := k.tile.map fun w => { w with recs := w.recs.put t new } }
  else useTile { setDir s t tdDirty with maxRec := s.maxRec.put t new } t

/-- Write DONE or FAULT and STATUS of a TILE_DESC, clear ARM and CLOSE, and take it off its queue unless it is refused. -/
def endTd (s : State) (c : Fin 8) (i : Fin 2) (set status : Nat) (refused : Bool) : State :=
  let s := onTd s c i fun x =>
    let w := endDw0 (dwAt x.dw 0) set &&& (2 ^ 32 - 1 - 8)
    { x with dw := setDw x.dw 0 (setField w 15 8 status) }
  let s := if refused then s else onBank s c fun b => { b with armedTiles := b.armedTiles.filter (· != i.val) }
  coreEvent s c 5

/-- Tile-mover slots that satisfy a test lose ARM and leave the queue. -/
def dropTm (s : State) (c : Fin 8) (p : DescSlot → Bool) : State :=
  (List.finRange 32).foldl (fun a i =>
    let x := a.cores[c].tmSlots[i]
    if p x && bitOf (dwAt x.dw 0) 0 then
      onCore (onTm a c i fun x => { x with dw := setDw x.dw 0 (endDw0 (dwAt x.dw 0) 0) }) c
        fun k => { k with tmQueue := k.tmQueue.filter (· != i.val) }
    else a) s

/-- The open tile ends without valid outputs (Tables 4-4 and 9-6). -/
def endTile (s : State) (c : Fin 8) (status : Nat) : State :=
  match s.cores[c].tile with
  | none => s
  | some w =>
    let s := (tileOuts s c).foldl (fun a t => setDir a t tdInvalid) s
    let s := dropTm (dropMe (clearAcc s c) c (·.inTile)) c (·.inTile)
    let s := match finOf? 2 w.slot with
      | some i => endTd s c i faultBit status false
      | none => s
    onCore s c fun k => { k with tile := none, stalled := !k.releasing.isEmpty }

/-- Abort the lamp contexts that a core's program dispatched (R102). -/
def abortCtxs (s : State) (c : Fin 8) : State :=
  (List.finRange 48).foldl (fun a n => onCluster a n fun k =>
    { k with
      ctxs := Tab.mapVals k.ctxs fun _ x => if x.core = some c ∧ x.state ≠ cxDone ∧ x.state ≠ cxFault then ctxFaulted x 5 else x
      queue := k.queue.filter fun d => d.core != some c }) s

/-- Snapshot bytes of a logged program (R457). -/
def progSnap (p : Prog) : Bytes := (p.snap.flatMap fun t => toLe 8 t.1 ++ t.2) ++ p.sgSnap

def kindExecute : Nat := 0x201

/-- The flight-log entry of an Execute Program. -/
def execEntry (s : State) (p : Prog) (c : Code) (out : Bytes) : FlightEntry :=
  { commandEntry s p.e kindExecute c 0 p.draw0.toNat out (progSnap p) with
    imageHash := p.imageHash, inp := p.inp, tileSeq0 := p.tileSeq0 }

/-- The flight-log entry of a NOTE (Table 4-7, R456). -/
def noteEntry (s : State) (b : Bytes) : FlightEntry :=
  { kind := 1, epoch := BitVec.ofNat 64 s.dict.epoch, timestamp := s.health.timestamp, inp := b.take 48 }

/-- The REPLAY record (R298, R460): OPC, EPOCH, FIRST_DIFF, NDIFF. -/
def replayOwn (f : FlightEntry) (first n : Nat) : Bytes :=
  toLe 8 f.opc.toNat ++ toLe 8 f.epoch.toNat ++ toLe 8 first ++ toLe 8 n

/-- Number of differing bytes of two strings, and the offset of the first, all ones for none; a missing byte
differs. -/
def diffBytes (a b : Bytes) : Nat × Nat :=
  let ds := (List.range (max a.length b.length)).filter fun i => a[i]? != b[i]?
  (ds.headD (2 ^ 64 - 1), ds.length)

/-- End a REPLAY whose run produced `out`, to be compared with the logged bytes; `shown` is the output data that MODE 1
returns (R298, R460). A replay that differs has completed too (0x6150.06; DEDUCED, log 68). -/
def endReplay (s : State) (e : Sqe) (f : FlightEntry) (out logged shown : Bytes) (outside : Bool) : State :=
  let (first, n) := diffBytes out logged
  let data := if Bytes.le (inRegion e) 8 1 = 1 then shown else []
  let s := writeOutput s e (resultRecord data.length { outside := outside } 0 (replayOwn f first n)) data
  if n = 0 then complete (bump 0x615006 1 s) e.key Code.ok 0 (VFlags.word { outside := outside })
  else
    let s := logEvent (bump 0x615007 1 (bump 0x615006 1 s)) dieTrunk 0x000B (whoIn s e.key) (toLe 8 f.logSeq.toNat ++ toLe 8 first ++ toLe 8 n)
    failDw0 s e.key Code.replayMismatch (first % 2 ^ 32)

/-- The command of a program ends (R277, R109): its completion, its flight entry or its comparison. A replay that posts COMPLETE
with another status differs in it (R460). -/
def endCommand (s : State) (p : Prog) (c : Code) (dw0 : Nat) (out : Bytes) : State :=
  match p.replay with
  | some f => if c = Code.ok ∨ out ≠ [] then endReplay s p.e f out f.out (out.drop 4) p.outside else failDw0 s p.e.key c dw0
  | none =>
    match p.handle, p.binding with
    | none, none => s
    | none, some i => if c = Code.ok ∨ c = Code.abortRequested then s else bindingFailed s i
    | some k, _ =>
      let s := match p.flight with
        | some i => logFlight s i (execEntry s p c out)
        | none => s
      if c = Code.ok then complete (hostWrite s k 0 (Bytes.sub (out.drop 4) 0 (min (out.length - 4) p.e.dptr))) k c dw0
        (VFlags.word { outside := p.outside })
      else failDw0 s k c dw0

/-- What firmware still finds in the outbound mailbox of a program that ends: its notes go into the flight log, its other
entries are kept for firmware to take (R95: no entry is dropped). -/
def leaveEntries (s : State) (c : Fin 8) (p : Prog) : State :=
  let out := (bank s.cores[c]).mboxOut
  let notes := out.filter fun e => entryType e == 0x0103
  let s := match if p.replay.isSome then none else p.flight with
    | some i => notes.foldl (fun a e => logFlight a i (noteEntry a (entryPayload e))) s
    | none => s
  onCore (onBank s c fun b => { b with mboxOut := [] }) c fun k =>
    { k with left := k.left ++ ((out.filter fun e => entryType e == 0x0102).map fun e => (p, e)) }

/-- CORE_EVT.MBOX_IN follows the inbound mailbox (Table 4-6). -/
def syncMbox (s : State) (c : Fin 8) : State :=
  if (bank s.cores[c]).mboxIn = [] then
    onCore s c fun k => setEvt k (k.evt &&& BitVec.ofNat 64 (2 ^ 64 - 2))
  else coreEvent s c 0

/-- The program of a core's running bank ends: its open tile ends with a STATUS, its descriptors are discarded, its
contexts aborted, its command completed. The entries posted to it have no reader left and go with its context. -/
def endProgram (s : State) (c : Fin 8) (status : Nat) (code : Code) (dw0 : Nat) (out : Bytes) : State :=
  match progOn s c with
  | none => endTile s c status
  | some p =>
    let s := dropTm (dropMe (clearAcc (endTile s c status) c) c fun _ => true) c fun _ => true
    let s := leaveEntries (abortCtxs s c) c p
    let s := if p.replay.isSome then dropCopies s c else s
    let s := onBank s c fun b =>
      { b with
        prog := none, armedTiles := [], mboxIn := [], mboxInHeld := []
        tileSlots := b.tileSlots.map fun x => if bitOf (dwAt x.dw 0) 0 then { x with dw := setDw x.dw 0 (endDw0 (dwAt x.dw 0) 0) } else x }
    let s := syncMbox (onCore s c fun k => { k with stalled := false, releasing := [], abortPending := false }) c
    let s := if (sessOn s c).isNone then freeTiles s c p.account else s
    endCommand s p code dw0 out

/-- An access fault of a core's control processor (R109). -/
def accessFault (s : State) (c : Fin 8) (addr : Nat) : State :=
  endProgram s c 0x12 Code.accessDenied (addr % 2 ^ 32) []

/-- Restore what R88 recorded: registers, program counter, CG_DRAW, LOCAL_TILE. -/
def restoreTile (s : State) (c : Fin 8) (w : OpenTile) : State :=
  let d := (finOf? 2 w.slot).map fun i => tileDesc (bank s.cores[c]).tileSlots[i].dw
  let s := match d.bind fun d => physOf c d.localTile with
    | some p =>
      { s with mem := w.localCopy.foldl (fun m b => m.put 0 (p + b.1) b.2) (s.mem.clear p tileBytes)
               chk := w.localChk.foldl (fun m b => m.put 0 (p / 8 + b.1) b.2) (s.chk.clear (p / 8) (tileBytes / 8)) }
    | none => s
  onBank s c fun b => { b with xregs := w.xregs, pc := BitVec.ofNat 64 ((d.map (·.replayPc)).getD 0), cgDraw := w.draw }

/-- Abandon the open tile (R73, R88): the descriptors of passes in flight take a STATUS, and the tile is replayed; a
second abandonment for the same cause ends it (R213, R440). -/
def abandonTile (s : State) (c : Fin 8) (cause : BitVec 8) (status : Nat) (at_ : List (Fin 16)) : State :=
  match s.cores[c].tile with
  | none => abandonMe (clearAcc s c) c at_ status
  | some w =>
    let s := abandonMe (clearAcc s c) c at_ status
    let s := chargeOn s c fReplayed w.stream
    if w.replayCause = some cause ∧ cause ≠ 0x10 then
      let seq := s.cores[c].tileSeq.toNat
      let s := logEvent s (dieOfCore c) 0x0003 (whoOn s c w.account) (toLe 8 seq ++ toLe 1 c.val ++ toLe 1 status)
      endProgram s c 0x11 Code.internalError 0 []
    else
      let s := dropTm (dropMe s c (·.inTile)) c (·.inTile)
      let s := restoreTile s c w
      let s := match finOf? 2 w.slot with
        | some i => onTd s c i fun x => { x with dw := setDw x.dw 0 (dwAt x.dw 0 &&& (2 ^ 32 - 1 - 8)) }
        | none => s
      let s := onCore s c fun k =>
        { k with
          stalled := !k.releasing.isEmpty
          tile := k.tile.map fun t =>
            { t with stream := 0, vec := 0, closed := false, operands := [], deferred := [], overflow := none
                     counters := [], recs := [], replayCause := some cause, replayed := true } }
      coreEvent s c 6

/-- The activation tiles of the head descriptor with a stale record, or for an anchored pass without ANCHOR_EN with a
record of another format, are rescanned (R221). -/
def passScan (s : State) (c : Fin 8) (i : Fin 16) : State :=
  let d := meDesc s.cores[c].meSlots[i].dw
  let anch := (enabled d).any fun e => passMode d e == modeA
  let fmt := if anch && !d.anchorEn then some d.afmt else none
  ((meReads d).flatMap (rangeTiles c)).foldl (fun a t => rescan a c fmt t) s

/-- The activations of a pass and their block scales, where every word decodes. -/
def passInputs (s : State) (c : Fin 8) (d : MeDesc) : State × Option (Array Byte × Option (Array Byte)) :=
  match readRange s c (d.act, d.m * elemBytes d.afmt (passK d)) with
  | (s, none) => (s, none)
  | (s, some a) =>
    if d.ascale = 0 then (s, some (a, none))
    else
      match readRange s c (d.ascale, d.m * (passK d / 32)) with
      | (s, some b) => (s, some (a, some b))
      | (s, none) => (s, none)

/-- The activation rows of a pass. -/
def passRows (d : MeDesc) (a : Array Byte) (sc : Option (Array Byte)) : List (List Val) :=
  (List.range d.m).map fun m => actVals d.afmt (passK d) a (m * elemBytes d.afmt (passK d)) sc (m * (passK d / 32))

/-- The stationary loads and the vectors of a pass run to their end; the answer is the cause that abandons it, if any. -/
def passTaken (s : State) (c : Fin 8) (i : Fin 16) : State × Option (BitVec 8) :=
  let d := meDesc s.cores[c].meSlots[i].dw
  match passInputs ((enabled d).foldl (fun a e => rescanOps a c d e) s) c d with
  | (s, none) => (s, some 0x21)
  | (s, some (a, sc)) => passEngines s c i d (passRows d a sc) (enabled d)

/-- The descriptor of a pass that ran leaves the queue: done, or issued until its drain ends (R65). -/
def passIssued (s : State) (c : Fin 8) (i : Fin 16) (d : MeDesc) : State :=
  let longer (t : OpenTile) : OpenTile := { t with stream := t.stream + streamCost d }
  let s := onCore s c fun k =>
    { k with tile := if k.meSlots[i].inTile then k.tile.map longer else k.tile
             meQueue := k.meQueue.filter (· != i.val) }
  if 2 ≤ d.acc then onMe s c i (fun x => { x with issued := true })
  else coreEvent (onMe s c i fun x => { x with dw := setDw x.dw 0 (endDw0 (dwAt x.dw 0) doneBit) }) c 2

/-- Issue the head descriptor (R58). -/
def issuePass (s : State) (c : Fin 8) (i : Fin 16) : State :=
  match passTaken s c i with
  | (t, some cause) => abandonTile t c cause 0x11 [i]
  | (t, none) => passIssued t c i (meDesc s.cores[c].meSlots[i].dw)

/-! ### The drain (R42 to R44, R65, R195, R204, R205, R221) -/

/-- The seed of a core's draws. -/
def seedOn (s : State) (c : Fin 8) : W64 :=
  match progOn s c with
  | some p => p.seed
  | none => (((sessOn s c).bind fun i => s.sess.get? i).map (·.seed)).getD 0

/-- The seed of the shift generators of a core's session: its own (R205). -/
def sgSeedOn (s : State) (c : Fin 8) : W64 := (((sessOn s c).bind fun i => s.sess.get? i).map (·.seed)).getD (seedOn s c)

/-- Does the core's session use the shift generator (R204)? -/
def sgOn (s : State) (c : Fin 8) : Bool :=
  match sessOn s c with
  | some i => ((s.sess.get? i).map (·.sg)).getD false
  | none => ((progOn s c).bind (·.replay)).isSome && (progOn s c).any fun p => !p.sgSnap.isEmpty

/-- Position of an engine among the core's engines in service: its number in the grant (R204, R246). -/
def grantPos (k : Core) (e : Fin 4) : Nat :=
  ((List.finRange 4).filter fun g => decide (g.val < e.val) && !k.engines[g].graft.retired).length

/-- Stochastic draw of an output element: 16 bits, and the generator state after it. -/
def drainDraw (s : State) (c : Fin 8) (x : MeSlot) (d : MeDesc) (e : Fin 4) (m n : Nat) : State × Nat :=
  if d.rnd ≠ 2 then (s, 0)
  else if sgOn s c then
    let key := grantPos s.cores[c] e * 512 + n
    let v := Rand.sgStep ((bank s.cores[c]).sg.getD key (Rand.sgSeed (sgSeedOn s c) (key / 512) n))
    (onBank s c fun b => { b with sg := b.sg.put key v }, v.toNat % 65536)
  else (s, Rand.val16 (Rand.block (seedOn s c) d.sr ((engOf d e).lidx + 512 * m + n) x.draw) 0)

/-- Round one output row: its codes and flags. -/
def drainRow (s : State) (c : Fin 8) (x : MeSlot) (d : MeDesc) (e : Fin 4) (acc : Tab DaRec) (m : Nat) :
    State × List Nat × RoundFlags :=
  (List.range 512).foldl (fun (a : State × List Nat × RoundFlags) n =>
    let r := acc.getD (512 * m + n) {}
    let (s, u) := drainDraw a.1 c x d e m n
    let o := roundRec r (engOf d e).ofmt d.rnd u d.osat 1 1
    (s, a.2.1 ++ [o.code], a.2.2.add (roundFlags r o))) (s, [], {})

/-- Drain one engine: rows or partial records are written, whole words under the owner's tag, and the entries freed. A
drain of partial records adds nothing to the counters of R51: their losses count where the merged record is rounded (DESIGN
CHOICE, log 72: the spec does not say which of the two). -/
def drainEngine (s : State) (c : Fin 8) (x : MeSlot) (d : MeDesc) (e : Fin 4) : State × RoundFlags :=
  let g := engOf d e
  let acc := s.cores[c].engines[e].acc
  let base := (physOf c g.out).getD 0
  let rows := List.range d.m
  let (s, f) := if d.part then
      (rows.foldl (fun a m =>
          (writeMem a (base + rowOff d g.ofmt m) ((List.range 512).flatMap fun n => recBytes (acc.getD (512 * m + n) {})) (tagOn a c)).1) s,
       acc.foldl (fun (f : RoundFlags) r => f.add { loss := r.2.loss.toNat, ovf := if r.2.ovf then 1 else 0 }) {})
    else
      rows.foldl (fun (a : State × RoundFlags) m =>
        let (s, codes, f) := drainRow a.1 c x d e acc m
        ((writeMem s (base + rowOff d g.ofmt m) (pack g.ofmt codes) (tagOn s c)).1, a.2.add f)) (s, {})
  let tiles := tilesIn base (outLen' d g.ofmt)
  let recs := tiles.map fun t => (t, if d.part then ({ fmt := 15 } : MaxAbs) else scanTile s t g.ofmt)
  let s := onEngine s c e fun y => { y with acc := [], resid := [], chain := none }
  if x.inTile then
    let f' := if d.part then {} else f
    let s := recs.foldl (fun a p => storedTile a c p.1 (some p.2)) s
    (onCore s c fun k => { k with tile := k.tile.map fun w =>
      { w with
        counters := [(0x605002, f'.loss), (0x605003, f'.ovf), (0x605004, f'.sat), (0x605005, f'.invalid)].foldl
          (fun t p => t.upd p.1 0 (· + p.2)) w.counters } }, f)
  else
    let s := recs.foldl (fun a p => { setDir a p.1 tdDirty with maxRec := a.maxRec.put p.1 p.2 }) s
    (if d.part then s else countRound s f, f)

/-- SG state of the grant as snapshot bytes (R457). -/
def sgBytes (s : State) (c : Fin 8) : Bytes :=
  let k := s.cores[c]
  (List.range (enginesOf k)).flatMap fun e => (List.range 512).flatMap fun n =>
    toLe 8 ((bank k).sg.getD (e * 512 + n) (Rand.sgSeed (sgSeedOn s c) e n)).toNat

/-- The drain of a finish or single pass completes (R65). -/
def drainSlot (s : State) (c : Fin 8) (i : Fin 16) : State :=
  let x := s.cores[c].meSlots[i]
  let d := meDesc x.dw
  let s := if sgOn s c then
      let b := sgBytes s c
      onProg s c (fun p => if p.flight.isSome ∧ p.sgSnap = [] then { p with sgSnap := b } else p)
    else s
  let (s, f) := (enabled d).foldl (fun (a : State × RoundFlags) e =>
    let (s, g) := drainEngine a.1 c x d e
    (s, a.2.add g)) (s, {})
  let st := meStatusWord 0 (decide (0 < f.loss)) (decide (0 < f.ovf)) (!d.part && decide (0 < f.nan))
  coreEvent (onMe s c i fun x =>
    { x with issued := false, dw := setDw (setDw x.dw 0 (endDw0 (dwAt x.dw 0) doneBit)) 7 st }) c 2

end Sys2Proof.Machine
end

