-- ==== Sys2Proof/Machine/TileOps.lean ====
section
/-! DEFINITION. Operations of a compute core, continued (spec 04, spec 09): tile descriptors, the opening, closing and
completion of a work tile, deferred actions, the tile mover, mailboxes, stores, and vector instructions. -/

namespace Sys2Proof.Machine

open Sys2Proof.Num

/-! ### Tile descriptors (R90 to R92) -/

/-- May the work of a core read a range of core addresses (R82, Table 4-12)? -/
def coreRange (s : State) (c : Fin 8) (a n : Nat) : Bool :=
  match physOf c a, physOf c (a + n - 1) with
  | some p, some q => q == p + n - 1 && rangeGranted s (ownerOn s c) p n && !forbids s (some c) false p n
  | _, _ => false

/-- Read a list of tile addresses: their data tile numbers, none for an address that is no aligned tile. A list outside the
account's grants is not read. -/
def readList (s : State) (c : Fin 8) (a n : Nat) : State × Option (List (Option Nat)) :=
  if n = 0 then (s, some [])
  else if !coreRange s c a (8 * n) then (s, none)
  else
    match readRange s c (a, 8 * n) with
    | (s, none) => (s, none)
    | (s, some b) =>
      (s, some ((List.range n).map fun i =>
        let t := Bytes.le b.toList (8 * i) 8
        match physOf c t with
        | some p => if t % 65536 = 0 ∧ inTiles p then some (tileNo p) else none
        | none => none))

/-- STATUS of a TILE_DESC at its check (Table 4-4), lowest code first, with its latched lists. A misaligned IN_LIST or
OUT_LIST gets 0x03, one that is not granted or does not decode 0x05 (DEDUCED, log 77: Table 4-4 names the addresses in
the lists, not those of the lists). -/
def tdCheck (s : State) (c : Fin 8) (d : TileDesc) : State × Nat × List Nat × List Nat :=
  if d.cost = 0 ∨ 26000 < d.cost ∨ 256 < d.inCount ∨ d.outCount = 0 ∨ 256 < d.outCount then (s, 2, [], [])
  else
    let (s, is) := readList s c d.inList d.inCount
    let (s, os) := readList s c d.outList d.outCount
    match is, os with
    | some is, some os =>
      let local_ := physOf c d.localTile
      let ins := is.filterMap id
      let outs := os.filterMap id
      let lt := (local_.map tileNo).getD 0
      let acct := ownerOn s c
      let st :=
        if d.inList % 8 ≠ 0 ∨ d.outList % 8 ≠ 0 ∨ is.contains none ∨ os.contains none ∨ d.localTile % 65536 ≠ 0
          ∨ scratchBytes ≤ d.localTile then 3
        else if (ins.any outs.contains) ∨ ins.contains lt ∨ outs.contains lt then 4
        else if !((lt :: ins).all (tileGranted s acct)) ∨ !((lt :: outs).all (tileWritable s c acct)) then 5
        else if !inCode s c d.replayPc then 6
        else 0
      (s, st, ins, outs)
    | _, _ => (s, if d.inList % 8 ≠ 0 ∨ d.outList % 8 ≠ 0 then 3 else 5, [], [])

/-- Is the open tile the one of a slot? -/
def openSlot (k : Core) (i : Fin 2) : Bool := (k.tile.map fun w => w.slot == i.val).getD false

/-- CLOSE ends the acceptance of work into the open tile (R84, R87). -/
def closeTile (s : State) (c : Fin 8) : State :=
  match s.cores[c].tile with
  | none => s
  | some w =>
    let s := match finOf? 2 w.slot with
      | some i => onTd s c i fun x => { x with dw := setDw x.dw 0 (dwAt x.dw 0 ||| 8) }
      | none => s
    onCore s c fun k => { k with tile := k.tile.map fun t => { t with closed := true } }

/-- Note the COST of a tile that the program of a core arms: firmware places its sessions by the largest (R238). -/
def noteCost (s : State) (c : Fin 8) (cost : Nat) : State :=
  match progOn s c with
  | some p => onCtrl s p.fn fun k => { k with programs := k.programs.mod p.index fun im => { im with largest := max im.largest cost } }
  | none => s

/-- A write of dword 0 of a TILE_DESC slot (R90, R91). -/
def tdWrite (s : State) (c : Fin 8) (i : Fin 2) (v : Nat) : State :=
  let old := (bank s.cores[c]).tileSlots[i].dw
  if bitOf (dwAt old 0) 0 then (if bitOf v 3 ∧ openSlot s.cores[c] i then closeTile s c else s)
  else
    let w := armWrite (dwAt old 0) v 1 ((bank s.cores[c]).armedTiles.contains i)
    let dw := setDw old 0 w
    if !bitOf w 0 then onTd s c i fun x => { x with dw := dw }
    else
      let (s, st, ins, outs) := tdCheck s c (tileDesc dw)
      let s := onBank s c fun b => { b with armedTiles := addOnce b.armedTiles i }
      let s := onTd s c i fun _ => { dw := setDw dw 0 (setField w 15 8 0), ins := ins, outs := outs }
      if st = 0 then noteCost s c (tileDesc dw).cost else endTd s c i faultBit st true

/-! ### Opening a tile (R86, R88, R238) -/

/-- The class of the work on a core. -/
def clsOn (s : State) (c : Fin 8) : Nat :=
  if s.cores[c].useB then 0
  else match (sessOn s c).bind fun i => s.sess.get? i with
    | some x => x.cls.toNat
    | none =>
      match (progOn s c).bind (·.binding) with
      | some i => ((s.ingests.find? (·.index == i)).map (·.p.cls)).getD 1
      | none => (((progOn s c).bind (·.handle)).bind (flightOf s)).map (·.cls) |>.getD 1

/-- Does the Class 0 core cost ceiling hold a tile back (R238)? -/
def ceilingHolds (s : State) (c : Fin 8) (cost : Nat) : Bool :=
  clsOn s c != 0 && bitOf (c0Cores s) c.val && decide (dv s 0x402002 < cost)
    && (holders s c).any fun i => ((s.sess.get? i).map fun x => x.cls == 0).getD false

/-- The staged descriptor that opens next: the oldest armed one, unless a refused one is ahead of it. -/
def nextTile (s : State) (c : Fin 8) : Option (Fin 2) :=
  match (bank s.cores[c]).armedTiles with
  | i :: _ => (finOf? 2 i).bind fun i => if armed (bank s.cores[c]).tileSlots[i].dw then some i else none
  | [] => none

/-- The 64 KiB regions of a core's operand memories, 0 to 15, four for each engine in turn, that a copy writes; none
where its destination lies elsewhere or runs past them. -/
def opDst (d : TmDesc) : Option (List Nat) :=
  if (opRegionOf d.dst).isSome ∧ (opRegionOf (d.dst + (d.count - 1) * tileBytes)).isSome then
    some ((List.range d.count).map ((d.dst - 0x20000000) / tileBytes + ·))
  else none

/-- Is a mover write into operand memory held by an armed ME_DESC that has not loaded its operand (R94)? -/
def moverHeld (k : Core) (d : TmDesc) : Bool :=
  match opDst d with
  | none => false
  | some l =>
    k.meQueue.any fun i => ((finOf? 16 i).map fun i =>
      let x := k.meSlots[i]
      let m := meDesc x.dw
      armed x.dw && (enabled m).any fun e => l.any fun r => r / 4 == e.val && (opRegions m (engOf m e)).contains (r % 4)).getD false

/-- The head tile-mover descriptor, where nothing holds it. -/
def tmHead (k : Core) : Option (Fin 32) :=
  match k.tmQueue with
  | i :: _ => (finOf? 32 i).bind fun i => if armed k.tmSlots[i].dw then some i else none
  | [] => none

/-- Is a tile-mover write into one of the tiles in progress (R86)? The mover works on the head of its queue. -/
def moverWrites (k : Core) (c : Fin 8) (l : List Nat) : Bool :=
  match tmHead k with
  | none => false
  | some i =>
    let d := tmDesc k.tmSlots[i].dw
    !moverHeld k d && ((physOf c d.dst).map fun p => (List.range d.count).any fun j => l.contains (tileNo p + j)).getD false

/-- Do the conditions of R86 hold, with those of R89 and R238? -/
def openReady (s : State) (c : Fin 8) (i : Fin 2) : Bool :=
  let k := s.cores[c]
  let x := (bank k).tileSlots[i]
  k.level == .lit && k.tile.isNone && k.switching.isNone && !k.abortPending && !k.stalled && !bitOf k.evt.toNat 7
    && x.ins.all (resident s) && !moverWrites k c x.ins
    && (x.outs.all fun t => tileWritable s c (ownerOn s c) t && !x.ins.contains t)

/-- Open a tile (R84, R88, R91, Table 9-6). -/
def openTile (s : State) (c : Fin 8) (i : Fin 2) : State :=
  let b := bank s.cores[c]
  let x := b.tileSlots[i]
  let d := tileDesc x.dw
  let seq := s.cores[c].tileSeq + 1
  let lp := (physOf c d.localTile).getD 0
  let w : OpenTile :=
    { slot := i.val, account := ownerOn s c, xregs := b.xregs, pc := b.pc, draw := b.cgDraw
      localCopy := s.mem.slice lp tileBytes, localChk := s.chk.slice (lp / 8) (tileBytes / 8) }
  let s := (x.ins ++ x.outs).foldl useTile (x.outs.foldl (fun a t => setDir a t tdPending) s)
  let s := onTd s c i fun y => { y with dw := setDw (setDw y.dw 11 (seq.toNat % 2 ^ 32)) 12 (seq.toNat / 2 ^ 32) }
  let s := onProg s c fun p => if p.tileSeq0 = 0 then { p with tileSeq0 := seq, draw0 := b.cgDraw } else p
  onCore s c fun k => { k with tile := some w, tileSeq := seq }

/-- A session whose tile the ceiling holds moves at once to a core outside C0_CORES that it may be granted, one with a free
bank where there is one (R238): its tiles and its context go with it, and it takes its turns there. -/
def moveCore (s : State) (c : Fin 8) : State :=
  match sessOn s c with
  | none => s
  | some i =>
    match s.sess.get? i with
    | none => s
    | some x =>
      let ok (n : Fin 8) : Bool := n != c && !bitOf (c0Cores s) n.val
      let free (n : Fin 8) : Bool := s.cores[n].bankA.session.isNone && s.cores[n].bankA.prog.isNone
      let cand := ((grantable s x).filterMap (finOf? 8)).filter ok
      match (cand.find? free).or cand.head? with
      | none => s
      | some n =>
        let s := (heldTiles s c x.account (some i)).foldl (fun a t => sendAway a i t) s
        let s := onBank (saveContext s i (bank s.cores[c])) c fun _ => {}
        let s := onCore s c fun k => { k with turns := k.turns.filter (· != i) }
        let s := onCore s n fun k => { k with turns := addOnce k.turns i }
        let s := onSess s i fun y => { y with grant := BitVec.ofNat 8 (2 ^ n.val) }
        if free n then loadContext s n false i else s

/-! ### Deferred actions, mailboxes and firmware (R87, R95 to R97) -/

/-- A command's handle in mailbox entries (DESIGN CHOICE, log 23). -/
def handleOf (k : CmdKey) : Nat := k.cid % 65536 + 65536 * (k.sqid % 65536) + 2 ^ 32 * k.fn.val

/-- Post an entry to a bank's inbound mailbox; firmware holds it while the mailbox is full (R95). -/
def postBank (b : Bank) (e : List W32) : Bank :=
  if b.mboxIn.length < 64 ∧ b.mboxInHeld = [] then { b with mboxIn := b.mboxIn ++ [e] }
  else { b with mboxInHeld := b.mboxInHeld ++ [e] }

/-- Firmware posts an entry to a bank of a core with its next sequence number in DW1 (R97). -/
def postBox (s : State) (c : Fin 8) (b : Bool) (e : List W32) : State :=
  let n := s.cores[c].inSeq + 1
  syncMbox (onBankOf (onCore s c fun k => { k with inSeq := n }) c b fun k => postBank k (setDw e 1 n.toNat)) c

/-- Firmware posts an entry to the running bank. -/
def postIn (s : State) (c : Fin 8) (e : List W32) : State := postBox s c s.cores[c].useB e

/-- The work of a MEDIA entry (Table 4-7): firmware moves the bytes between a bound namespace and the pool. The answer is
the status of its COMPLETE entry, none while the write buffer has no room. -/
def mediaMove (s : State) (c : Option (Fin 8)) (p : Prog) (b : Bytes) : State × Option Nat :=
  let (op, ns, off) := (Bytes.le b 0 4, Bytes.le b 4 4, Bytes.le b 8 8)
  let (pa, len) := (Bytes.le b 16 8, Bytes.le b 24 8)
  let bound := ((imageOf s p).map fun im => (importsOf im.bytes).contains (0, ns)).getD false
  match s.nss.get? ns with
  | none => (s, some 1)
  | some n =>
    if !bound ∨ n.account ≠ p.account ∨ n.nsze * 4096 < off + len ∨ !poolGranted s p.account pa len ∨ forbids s c (op == 0) pa len ∨ 1 < op then (s, some 1)
    else if op = 0 then
      let us := (unitsOf n off len).map (·.1)
      if us.any fun u => (entryOf s ns u).st == .unrecovered then (s, some 1)
      else
        match poolPut s c pa (readMedia s ns off len) (tagOf s p.account) with
        | (s, none) => (chargeFlash s p.account none len, some 0)
        | (s, some _) => (s, some 1)
    else if freeSlots s < slotsNeeded n off len then (s, none)
    else
      match poolGet s c pa len (tagOf s p.account) with
      | (s, .ok d) => (if s.health.readOnly ∨ p.replay.isSome then s else putMedia s ns off d, some (if s.health.readOnly then 1 else 0))
      | (s, .error _) => (s, some 1)

/-- A MEDIA entry (R97): firmware answers with a COMPLETE entry. The answer says whether the write buffer had room. -/
def mediaEntry (s : State) (c : Fin 8) (p : Prog) (b : Bytes) : State × Bool :=
  match mediaMove s (some c) p b with
  | (s, none) => (s, false)
  | (s, some st) =>
    (postIn s c (mkEntry 0x0101 0 (toLe 8 ((p.handle.map handleOf).getD 0) ++ toLe 4 st ++ toLe 4 (Bytes.le b 24 8)
      ++ toLe 8 (Bytes.le b 16 8))), true)

/-- Firmware takes the entries that programs left when they ended, in order, as far as the write buffer has room. -/
def takeLeft (s : State) (c : Fin 8) : Nat → State
  | 0 => s
  | n + 1 =>
    match s.cores[c].left with
    | [] => s
    | x :: l =>
      match mediaMove s none x.1 (entryPayload x.2) with
      | (s, none) => s
      | (s, some _) => takeLeft (onCore s c fun k => { k with left := l }) c n

/-- Firmware takes one outbound entry (Table 4-7); the answer says whether it is done with it. -/
def takeEntry (s : State) (c : Fin 8) (e : List W32) : State × Bool :=
  match progOn s c with
  | none => (s, true)
  | some p =>
    let b := entryPayload e
    match entryType e with
    | 0x0101 =>
      let (st, len, pa) := (Bytes.le b 8 4, Bytes.le b 12 4, Bytes.le b 16 8)
      if len ≠ 0 ∧ !poolGranted s p.account pa len then (accessFault s c pa, true)
      else
        match poolGet s (some c) pa len (tagOf s p.account) with
        | (s, .ok d) => (endProgram s c 0x12 (if st = 0 then Code.ok else Code.internalError) st (toLe 4 st ++ d), true)
        | (s, .error _) => (accessFault s c pa, true)
    | 0x0102 => mediaEntry s c p b
    | _ =>
      match if p.replay.isSome then none else p.flight with
      | some i => (logFlight s i (noteEntry s b), true)
      | none => (s, true)

/-- Firmware takes the outbound entries in order, as far as it can. -/
def takeOutbound (s : State) (c : Fin 8) : Nat → State
  | 0 => s
  | n + 1 =>
    match (bank s.cores[c]).mboxOut with
    | [] => s
    | e :: l =>
      match takeEntry (onBank s c fun b => { b with mboxOut := l }) c e with
      | (s, true) => takeOutbound s c n
      | (s, false) => onCore (onBank s c fun b => { b with mboxOut := e :: b.mboxOut }) c fun k => { k with outWait := true }

/-- Firmware serves a core's outbound mailbox: what earlier programs left, then the entries in order. -/
def serveOutbound (s : State) (c : Fin 8) : State :=
  let s := takeLeft (onCore s c fun k => { k with outWait := false }) c s.cores[c].left.length
  takeOutbound s c ((bank s.cores[c]).mboxOut.length)

/-- Ring firmware (R95). -/
def ringFirmware (s : State) (c : Fin 8) : State := serveOutbound (onCore s c fun k => { k with dbOut := k.dbOut + 1 }) c

/-- Send an outbound entry where the mailbox has room. -/
def pushOut (s : State) (c : Fin 8) (e : List W32) : State × Bool :=
  if (bank s.cores[c]).mboxOut.length < 64 then (onBank s c fun b => { b with mboxOut := b.mboxOut ++ [e] }, true) else (s, false)

/-- Release one action of a core; the answer says whether it was accepted. A push that finds the mailbox full stalls the
control processor until firmware frees an entry; firmware serves a full mailbox without being rung (DESIGN CHOICE, log 23:
the stalled program cannot ring). -/
def releaseOne (s : State) (c : Fin 8) : Deferred → State × Bool
  | .push e => if 64 ≤ (bank s.cores[c]).mboxOut.length then pushOut (serveOutbound s c) c e else pushOut s c e
  | .doorbell => (ringFirmware s c, true)
  | .dispatch ch d =>
    let k := s.clusters[servedBy s ch]
    if 256 ≤ k.queue.length ∧ (slotNow s k (lampFields d.dw).cls).isNone then (s, false) else ((deliver s ch d).1, true)

/-- Release a core's actions in order (R87); one that is not accepted stalls the control processor. -/
def releaseAll (s : State) (c : Fin 8) : Nat → State
  | 0 => s
  | n + 1 =>
    match s.cores[c].releasing with
    | [] => onCore s c fun k => { k with stalled := (k.tile.map (·.overflow.isSome)).getD false }
    | a :: _ =>
      match releaseOne s c a with
      | (s, true) => releaseAll (onCore s c fun k => { k with releasing := k.releasing.drop 1 }) c n
      | (s, false) => onCore s c fun k => { k with stalled := true }

def release (s : State) (c : Fin 8) : State := releaseAll s c (s.cores[c].releasing.length + 1)

/-- A push, a ring or a dispatch by the control processor: an open tile defers it, and a seventeenth stalls the
control processor and closes the tile (R87). -/
def act (s : State) (c : Fin 8) (a : Deferred) : State :=
  match s.cores[c].tile with
  | none => release (onCore s c fun k => { k with releasing := k.releasing ++ [a] }) c
  | some w =>
    if w.deferred.length < 16 then
      onCore s c fun k => { k with tile := k.tile.map fun t => { t with deferred := t.deferred ++ [a] } }
    else
      let s := onCore s c fun k => { k with stalled := true, tile := k.tile.map fun t => { t with overflow := some a } }
      if w.closed then s else closeTile s c

/-! ### Completion of a tile (R74, R84, R89, Table 9-6) -/

/-- Is the work of the open tile done: closed, nothing queued, no drain in progress? -/
def tileDone (k : Core) : Bool :=
  (k.tile.map (·.closed)).getD false
    && (List.finRange 16).all (fun i => !(k.meSlots[i].inTile && (bitOf (dwAt k.meSlots[i].dw 0) 0 || k.meSlots[i].issued)))
    && (List.finRange 32).all (fun i => !(k.tmSlots[i].inTile && bitOf (dwAt k.tmSlots[i].dw 0) 0))

/-- The command of a core's program ends as aborted. -/
def abortProgram (s : State) (c : Fin 8) : State := endProgram s c 0x12 Code.abortRequested 0 []

/-- A switch to bank B starts at the tile boundary where PREEMPT is set (R89, R241). -/
def startPreempt (k : Core) : Core :=
  if bitOf k.evt.toNat 7 && k.tile.isNone && k.switching.isNone && !k.useB then { k with switching := some k.bankB.session } else k

/-- The open tile ends with its outputs valid: its counters and records count, its actions wait for release. A chain that
its descriptors left open is cleared with its entries, since every pass of a chain belongs to one tile (DEDUCED, log 77). -/
def tileEnds (s : State) (c : Fin 8) (w : OpenTile) : State :=
  let outs := tileOuts s c
  let s := clearAcc s c
  let s := w.recs.foldl (fun a p => { a with maxRec := a.maxRec.put p.1 p.2 }) s
  let s := outs.foldl (fun a t => setDir a t tdDirty) s
  let s := w.counters.foldl (fun a p => bump p.1 p.2 a) s
  let s := match finOf? 2 w.slot with
    | some i => endTd s c i doneBit (if w.replayed then 0x10 else 0) false
    | none => s
  onCore s c fun k =>
    { k with tile := none, stalled := false
             releasing := k.releasing ++ w.deferred ++ w.overflow.toList
             meSlots := k.meSlots.map fun x => { x with inTile := false }
             tmSlots := k.tmSlots.map fun x => { x with inTile := false } }

/-- What follows the end of a tile: its actions are released, a pending abort and a preemption take effect. -/
def afterTile (s : State) (c : Fin 8) : State :=
  let s := release s c
  let s := if s.cores[c].abortPending then abortProgram s c else s
  onCore s c startPreempt

/-- Complete the open tile. -/
def completeTile (s : State) (c : Fin 8) : State :=
  match s.cores[c].tile with
  | none => s
  | some w => afterTile (tileEnds s c w) c

/-! ### The tile mover (R87, R93, R94, R221) -/

/-- Is a range of `n` tiles at a core address inside one region of the map? -/
def tmRange (c : Fin 8) (a n : Nat) : Bool :=
  match physOf c a, physOf c (a + n * tileBytes - 1) with
  | some p, some q => q == p + n * tileBytes - 1
  | _, _ => false

/-- Data tiles of the lists of the open and of the staged tile. -/
def listedIns (s : State) (c : Fin 8) : List Nat :=
  let b := bank s.cores[c]
  (b.armedTiles.filterMap (finOf? 2)).flatMap fun i => if armed b.tileSlots[i].dw then b.tileSlots[i].ins else []
def listedOuts (s : State) (c : Fin 8) : List Nat :=
  let b := bank s.cores[c]
  (b.armedTiles.filterMap (finOf? 2)).flatMap fun i => if armed b.tileSlots[i].dw then b.tileSlots[i].outs else []

/-- STATUS of a TM_DESC at its check (Table 4-5). -/
def tmCheck (s : State) (c : Fin 8) (d : TmDesc) : Nat :=
  let acct := ownerOn s c
  let sp := physOf c d.src
  let dp := physOf c d.dst
  let op := (opDst d).isSome
  let tiles (p : Nat) : List Nat := (List.range d.count).map (tileNo p + ·)
  let srcT := (sp.map tiles).getD []
  let dstT := (dp.map tiles).getD []
  if d.count = 0 ∨ 64 < d.count then 1
  else if d.src % 65536 ≠ 0 ∨ d.dst % 65536 ≠ 0 ∨ (opRegionOf d.src).isSome ∨ ((opRegionOf d.dst).isSome ∧ !op) then 3
  else if (accepting s.cores[c] ∧ (!op ∨ (sp.map isPool).getD false)) ∨ srcT.any (listedOuts s c).contains
      ∨ dstT.any (listedIns s c).contains ∨ (s.cores[c].tile.isSome ∧ dstT.any (tileOuts s c).contains) then 4
  else if !tmRange c d.src d.count ∨ !(op || tmRange c d.dst d.count)
      ∨ !((sp.map fun p => rangeGranted s acct p (d.count * tileBytes)).getD false)
      ∨ !(op || (dp.map fun p => if isPool p then rangeGranted s acct p (d.count * tileBytes)
            else (tiles p).all (tileWritable s c acct)).getD false)
      ∨ closed s c false (d.src, d.count * tileBytes) ∨ (!op ∧ closed s c true (d.dst, d.count * tileBytes)) then 5
  else 0

/-- A write of dword 0 of a TM_DESC slot (R90, R93): the RW bits are ARM and COUNT. -/
def tmWrite (s : State) (c : Fin 8) (i : Fin 32) (v : Nat) : State :=
  let old := s.cores[c].tmSlots[i].dw
  if bitOf (dwAt old 0) 0 then s
  else
    let w := armWrite (dwAt old 0) v 0x7F0001 (s.cores[c].tmQueue.contains i)
    let dw := setDw old 0 w
    if !bitOf w 0 then onTm s c i fun x => { x with dw := dw }
    else
      let st := tmCheck s c (tmDesc dw)
      let inT := accepting s.cores[c]
      let s := onCore s c fun k => { k with tmQueue := addOnce k.tmQueue i }
      if st ≠ 0 then
        coreEvent (onTm s c i fun x => { x with dw := setDw dw 0 (setField (endDw0 w faultBit) 15 8 st), inTile := false }) c 4
      else onTm s c i fun x => { x with dw := setDw dw 0 (setField w 15 8 0), inTile := inT }

/-- Copy one data tile, checked word by word (R93); the answer says whether every word decoded. A PENDING tile is readable
by no one (R218): it returns no data. -/
def copyTile (s : State) (c : Fin 8) (src dst : Nat) : State × Bool :=
  let q := if isPool src then poolAt s (some c) src else src
  if isDataTile (tileNo src) ∧ (dirOf s (tileNo src)).state = tdPending then (s, false)
  else
  match readMem s q tileBytes (tagOn s c) with
  | (s, .error _) => (s, false)
  | (s, .ok _) =>
    let (s, d) := if isPool dst then poolForWrite s (some c) dst else (s, dst)
    let s := copyRaw s q d
    let s := if isPool src then chargeOn s c fPoolRd tileBytes else s
    let s := if isPool dst then chargeOn s c fPoolWr tileBytes else s
    (s, true)

/-- What a copied tile becomes (Table 9-6, R94, R220, R221). -/
def landTile (s : State) (c : Fin 8) (src dst : Nat) : State :=
  let fmt := (recOf s (tileNo src)).fmt.toNat
  let e := dirOf s (tileNo src)
  if 2 ^ 42 ≤ dst then
    let r := (dst - opMemBase c 0) / tileBytes
    match finOf? 4 (r / 4) with
    | none => s
    | some g =>
      let rc := scanTile s (tileNo dst) fmt
      onEngine s c g fun x =>
        { x with opResident := x.opResident ||| BitVec.ofNat 4 (2 ^ (r % 4)), opRec := x.opRec.put (r % 4) rc }
  else if isPool dst then
    let s := { s with maxRec := s.maxRec.put (tileNo dst) (scanTile s (tileNo dst) fmt) }
    if !isPool src ∧ e.home.toNat = tileNo dst then setDir s (tileNo src) tdClean else s
  else
    let s := onDir s (tileNo dst) fun x =>
      if isPool src then { x with state := tdClean, home := BitVec.ofNat 24 (tileNo src) }
      else { x with state := e.state, home := e.home }
    useTile (useTile { s with maxRec := s.maxRec.put (tileNo dst) (scanTile s (tileNo dst) fmt) } (tileNo src)) (tileNo dst)

/-- Go on after a tile that was copied, or stop at one that failed. -/
def copyStep (p : State × Bool) (k : State → State × Bool) : State × Bool := if p.2 then k p.1 else p

/-- Copy the tiles of a TM_DESC in order, up to the first that fails. -/
def copyTiles (s : State) (c : Fin 8) (src dst : Nat) : Nat → State × Bool
  | 0 => (s, true)
  | n + 1 => copyStep (copyTile s c src dst) fun s => copyTiles (landTile s c src dst) c (src + tileBytes) (dst + tileBytes) n

/-- Where a copy reads and writes. -/
def tmSrc (c : Fin 8) (d : TmDesc) : Nat := (physOf c d.src).getD 0
def tmDst (c : Fin 8) (d : TmDesc) : Nat :=
  match opRegionOf d.dst with
  | some (e, o) => opMemBase c e + o
  | none => (physOf c d.dst).getD 0

/-- The operand-memory regions that a copy writes lose their marks (R94). -/
def clearMarks (s : State) (c : Fin 8) (d : TmDesc) : State :=
  ((opDst d).getD []).foldl (fun a r =>
    match finOf? 4 (r / 4) with
    | some e => onEngine a c e fun x => { x with opResident := BitVec.ofNat 4 (x.opResident.toNat &&& (15 - 2 ^ (r % 4))) }
    | none => a) s

/-- What a copy that failed leaves of its destination. -/
def copyFailed (s : State) (c : Fin 8) (d : TmDesc) : State :=
  if isPool (tmDst c d) then s
  else if 2 ^ 42 ≤ tmDst c d then clearMarks s c d
  else (List.range d.count).foldl (fun a j => setDir a (tileNo (tmDst c d) + j) tdInvalid) s

/-- The tiles of the head tile-mover descriptor are copied; the marks of operand memory clear when the write begins. -/
def copied (s : State) (c : Fin 8) (d : TmDesc) : State × Bool := copyTiles (clearMarks s c d) c (tmSrc c d) (tmDst c d) d.count

/-- A tile-mover descriptor ends (R93). -/
def endTmSlot (s : State) (c : Fin 8) (i : Fin 32) (ok : Bool) : State :=
  coreEvent (onCore (onTm s c i fun x =>
      { x with inTile := false
               dw := setDw x.dw 0 (setField (endDw0 (dwAt x.dw 0) (if ok then doneBit else faultBit)) 15 8 (if ok then 0 else 0x11)) }) c
    fun k => { k with tmQueue := k.tmQueue.filter (· != i.val) }) c 4

/-- The head tile-mover copy runs to its end. -/
def runCopy (s : State) (c : Fin 8) (i : Fin 32) : State :=
  let d := tmDesc s.cores[c].tmSlots[i].dw
  match copied s c d with
  | (s, true) => endTmSlot s c i true
  | (s, false) => endTmSlot (copyFailed s c d) c i false

/-! ### Stores into tiles (R83, R87, R214, R218, R221) -/

/-- May the core store into a data tile: writable, and, in an open tile, in OUT_LIST or LOCAL_TILE? -/
def storeOk (s : State) (c : Fin 8) (t : Nat) : Bool :=
  tileWritable s c (ownerOn s c) t
    && (s.cores[c].tile.isNone || (tileOuts s c).contains t || localTileOf s c == some t)

/-- The narrow writes of a store into a data tile, one for each word it meets (R214): one that is refused leaves what an
earlier one wrote. The answer says whether all were done. -/
def tileStore (s : State) (c : Fin 8) (p : Nat) (b : Bytes) : State × Bool :=
  let n := min b.length (32 - p % 32)
  match writeMem s p (b.take n) (tagOn s c) with
  | (s, some _) => (s, false)
  | (s, none) =>
    let s := storedTile s c (tileNo p) none
    if b.drop n = [] then (s, true)
    else
      match writeMem s (p + n) (b.drop n) (tagOn s c) with
      | (s, some _) => (s, false)
      | (s, none) => (s, true)

/-- A store by the control processor (R80, R87, R108, R214): narrow, but for one of 64 bytes to the pool. -/
def cpStore (s : State) (c : Fin 8) (a : Nat) (b : Bytes) : State :=
  match physOf c a with
  | none => if inRegs a then s else accessFault s c a
  | some p =>
    if isPool p then
      if b.length = 64 ∧ a % 64 = 0 ∧ poolGranted s (ownerOn s c) p 64 ∧ s.cores[c].tile.isNone ∧ !forbids s (some c) true p 64 then
        let (s, q) := poolForWrite s (some c) p
        setStale (chargeOn (writeMem s q b (tagOn s c)).1 c fPoolWr 64) (tileNo q)
      else accessFault s c a
    else if b.length = 64 ∨ !storeOk s c (tileNo p) ∨ tileNo p ≠ tileNo (p + b.length - 1) ∨ forbids s (some c) true p b.length then
      accessFault s c a
    else
      match tileStore s c p b with
      | (s, true) => s
      | (s, false) => accessFault s c a

/-- May the core's program read a range of physical addresses: granted, not closed by Table 4-12, not in a PENDING tile
(R218)? -/
def mayRead (s : State) (c : Fin 8) (p n : Nat) : Bool :=
  rangeGranted s (ownerOn s c) p n && !forbids s (some c) false p n
    && (tilesIn p n).all fun t => !(isDataTile t && (dirOf s t).state == tdPending)

/-- Can the control processor load from an address? A failed decode counts (Table 9-9). The lamp dispatch windows are for
writing only (Table 4-14). -/
def cpLoads (s : State) (c : Fin 8) (a : Nat) : State × Bool :=
  match physOf c a with
  | none => (s, inRegs a && decide (a < 0x30002000))
  | some p =>
    if !mayRead s c p 1 then (s, false)
    else
      match readMem s (if isPool p then poolAt s (some c) p else p) 1 (tagOn s c) with
      | (s, .ok _) => (s, true)
      | (s, .error _) => (s, false)

/-- A load of 4 KiB by the vector unit (Table 9-3): a word that returns no data abandons the open tile, which is replayed
once; outside a tile it is an access fault of the control processor, as is an address that the program may not read. -/
def vecLoad (s : State) (c : Fin 8) (a : Nat) : State :=
  match physOf c a with
  | none => accessFault s c a
  | some p =>
    if !mayRead s c p 4096 then accessFault s c a
    else
      match readMem s (if isPool p then poolAt s (some c) p else p) 4096 (tagOn s c) with
      | (s, .ok _) => s
      | (s, .error _) =>
        if s.cores[c].tile.isSome then abandonTile s c 0x21 0x11 (issuedMe s.cores[c]) else accessFault s c a

/-! ### Vector instructions (R81, R85) -/

/-- May the control processor issue: its core is lit and it does not wait? -/
def cpRuns (s : State) (c : Fin 8) : Bool := s.cores[c].level == .lit && !s.cores[c].stalled && s.cores[c].switching.isNone
  && !tripHeld s c

/-- A tile ends because a budget would pass COST (R85): the drains in progress complete, the tile's unissued descriptors
are discarded, and its program's command fails with Budget Exhausted. -/
def budgetEnd (s : State) (c : Fin 8) : State :=
  let s := (issuedMe s.cores[c]).foldl (fun a i => drainSlot a c i) s
  endProgram s c 1 Code.budgetExhausted (s.cores[c].tileSeq.toNat % 2 ^ 32) []

/-- Does the open tile's budget have room for a number of canopy cycles (R85)? -/
def vecRoom (s : State) (c : Fin 8) (n : Nat) : Bool :=
  match s.cores[c].tile with
  | none => true
  | some w => decide (w.vec + n ≤ tileCost s c)

/-- The cycles of a vector instruction count in the account's record and in the open tile's budget. -/
def vecCharged (s : State) (c : Fin 8) (n : Nat) : State :=
  onCore (chargeOn s c fVec n) c fun k => { k with tile := k.tile.map fun t => { t with vec := t.vec + n } }

/-- Issue a vector instruction of a number of canopy cycles. -/
def vecIssue (s : State) (c : Fin 8) (n : Nat) (body : State → State) : State :=
  if !cpRuns s c then s
  else if vecRoom s c n then body (vecCharged s c n)
  else budgetEnd s c

end Sys2Proof.Machine
end

