-- ==== Sys2Proof/Machine/FaultOps.lean ====
section
/-! DEFINITION. Graft-map changes and retirements (spec 03 R68, spec 17 R436 and R437, spec 18 R441, R448 to R450). -/

namespace Sys2Proof.Machine

/-- Number of set bits from bit `lo` on. -/
def onesFrom (w lo : Nat) (x : BitVec w) : Nat := ((List.range w).filter fun i => decide (lo ≤ i) && x.getLsbD i).length

/-- Spare rows and columns in use: the set bits beyond the first 128 and 512 (DEDUCED: the spares are the last ones). -/
def spareRows (g : Graft) : Nat := onesFrom 132 128 g.rowUse
def spareCols (g : Graft) : Nat := onesFrom 520 512 g.colUse

/-- Number of an engine, 0 to 31 (Table 16-11b). -/
def engineNo (c : Fin 8) (e : Fin 4) : Nat := 4 * c.val + e.val

/-- A graft-map change (R437, R68): retained state first, then the registers, then the generation. -/
def graftChange (s : State) (c : Fin 8) (e : Fin 4) (f : Graft → Graft) : State :=
  let g := f s.cores[c].engines[e].graft
  let g := { g with gen := g.gen + 1 }
  let s := onHealth s fun h => { h with graftRetained := h.graftRetained.put (engineNo c e) g, graftGen := h.graftGen + 1 }
  let s := onEngine s c e fun x => { x with graft := g }
  onCore s c fun k => { k with maskGen := BitVec.ofNat 8 s.health.graftGen.toNat }

/-- Cover a defect with spares: event 0x0010. -/
def coverEngine (s : State) (c : Fin 8) (e : Fin 4) (rows : BitVec 132) (cols : BitVec 520) : State :=
  let s := graftChange s c e fun g => { g with rowUse := rows, colUse := cols }
  let g := s.cores[c].engines[e].graft
  logEvent s (dieOfCore c) 0x0010 {} [BitVec.ofNat 8 (engineNo c e), BitVec.ofNat 8 (spareRows g), BitVec.ofNat 8 (spareCols g)]

/-- Retire a core (R450): event 0x0014. -/
def retireCore (s : State) (c : Fin 8) : State :=
  if s.cores[c].retired then s
  else logEvent (onCore s c fun k => { k with retired := true }) (dieOfCore c) 0x0014 {} [BitVec.ofNat 8 c.val]

/-- Mark an engine RETIRED: event 0x0011. A core whose four engines are retired is retired (R450). -/
def retireEngine (s : State) (c : Fin 8) (e : Fin 4) : State :=
  if s.cores[c].engines[e].graft.retired then s
  else
    let s := graftChange s c e fun g => { g with retired := true }
    let s := logEvent s (dieOfCore c) 0x0011 {} [BitVec.ofNat 8 (engineNo c e)]
    if (List.finRange 4).all fun i => s.cores[c].engines[i].graft.retired then retireCore s c else s

/-- Has a cover the row and column counts of R68? -/
def coverOk : EngineTest → Bool
  | .cover rows cols => onesFrom 132 0 rows == 128 && onesFrom 520 0 cols == 512
  | _ => true

/-- The outcome of a tree-mode test takes effect (R441). -/
def testedEngine (s : State) (c : Fin 8) (e : Fin 4) (t : EngineTest) : State :=
  match t with
  | .pass => s
  | .cover rows cols => coverEngine s c e rows cols
  | .noSpare => retireEngine s c e

/-- Retire slots of a cluster (R104, R450): event 0x0012, and 0x0013 when fewer than 128 remain. -/
def retireSlots (s : State) (ch : Fin 48) (n : Nat) : State :=
  if n = 0 then s
  else
    let s := onCluster s ch fun k => { k with retiredSlots := k.retiredSlots + n }
    let s := onHealth s fun h => { h with graftGen := h.graftGen + 1 }
    let s := logEvent s (dieOfCh ch.val) 0x0012 {} (BitVec.ofNat 8 ch.val :: toLe 2 s.clusters[ch].retiredSlots)
    if slotsInService s.clusters[ch] < 128 ∧ !s.clusters[ch].retired then
      logEvent (onCluster s ch fun k => { k with retired := true }) (dieOfCh ch.val) 0x0013 {} [BitVec.ofNat 8 ch.val]
    else s

end Sys2Proof.Machine
end

