-- ==== Sys2Proof/Machine/TableOps.lean ====
section
/-! DEFINITION. Embedding tables (R173 to R179), the gather engine (R180 to R185) and scatter-update (R187 to R190). -/

namespace Sys2Proof.Machine

open Num

def tableLimit : Nat := 1024
def opScatter : Nat := 0x8D

/-- The table of an id that the submitting account owns. -/
def tableFor (s : State) (fn : Fin 128) (id : Nat) : Option Table :=
  match s.tables.get? id with
  | some t => if t.account = acctOf fn then some t else none
  | none => none

def onTable (s : State) (i : Nat) (f : Table → Table) : State := { s with tables := s.tables.mod i f }

/-- The generations of a table that are retained (R178). -/
def retainedTabs (s : State) (i : Nat) (t : Table) : List Nat := t.kept.filter (retainedTab s i t)

/-- The oldest retained generation. -/
def oldestTab (s : State) (i : Nat) (t : Table) : Nat := (retainedTabs s i t).foldl min t.cur

/-- Bits of a code. -/
def codeBits (t : Table) : Nat := if t.code4 then 4 else 8

/-- The version of a row in a generation: the latest generation up to it that changed the row; 1 where none did. -/
def rowVersion (t : Table) (g r : Nat) : Nat :=
  (t.gens.filter fun p => decide (p.1 ≤ g) && p.2.has r).foldl (fun a p => max a p.1) 1

/-- The bytes of a version of a row: zero where nothing has written it (R174). -/
def verRow (t : Table) (v r : Nat) : Bytes :=
  match (t.gens.get? v).bind fun d => d.get? r with
  | some b => b
  | none => List.replicate (rowSize t) 0

/-- The stored bytes of a row in a generation. -/
def rowBytes (t : Table) (g r : Nat) : Bytes := verRow t (rowVersion t g r) r

/-- Code `d` of a row. -/
def rowCode (t : Table) (b : Bytes) (d : Nat) : Nat :=
  if t.code4 then (let x := Bytes.le b (4 + d / 2) 1; if d % 2 = 0 then x % 16 else x / 16) else Bytes.le b (4 + d) 1

/-- Element `d` of a row, decoded exactly (R174). -/
def rowElem (t : Table) (b : Bytes) (d : Nat) : Int × Int := rowVal (Bytes.le b 0 2) (Bytes.le b 2 2) (rowCode t b d)

/-- A quantised row as stored (Table 7-3). -/
def rowImage (t : Table) (q : QRow) : Bytes := toLe 2 q.scale ++ toLe 2 q.offset ++ pack (if t.code4 then 0 else 1) q.codes

/-- Is a version of a row the one that some generation of a list holds? -/
def needed (t : Table) (ks : List Nat) (v r : Nat) : Bool := ks.any fun k => rowVersion t k r == v

/-- Rows that the retained generations hold beyond one version each (R179). -/
def spareUsed (s : State) (i : Nat) (t : Table) : Nat :=
  let ks := retainedTabs s i t
  sumNat ((t.gens.filter fun p => decide (oldestTab s i t < p.1)).map fun p => (p.2.filter fun q => needed t ks p.1 q.1).length)

/-- Do `n` new rows fit the spare rows? -/
def spareFits (s : State) (i : Nat) (t : Table) (n : Nat) : Bool := decide (spareUsed s i t + n ≤ t.spareRows)

/-- A table that holds some generations alone: the versions of rows that none of them holds are freed. -/
def keepGens (t : Table) (ks : List Nat) : Table :=
  { t with kept := ks, gens := (t.gens.mapVals fun v d => d.keep fun r _ => needed t ks v r).keep fun _ d => d != [] }

/-- Free every generation of a table that is not retained. -/
def freeTabGens (s : State) (i : Nat) (t : Table) : Table := keepGens t (retainedTabs s i t)

/-! ### Rows in the pool (R173, R174, R184) -/

/-- Where the row map of a version lies in the pool (DESIGN CHOICE, log 15); rows are packed (R174). -/
def mapAt (i : Nat) (t : Table) (v : Nat) : Nat := tableCopies i + roundUp (t.rows * rowSize t) 32 * v

/-- A word of a version's row map. -/
def mapWord (t : Table) (v w : Nat) : Bytes :=
  (List.range 32).map fun k => let a := 32 * w + k; (verRow t v (a / rowSize t)).getD (a % rowSize t) 0

/-- The words of a row map that hold a row. -/
def rowWords (t : Table) (r : Nat) : List Nat := wordSpan (r * rowSize t) (rowSize t)

/-- Write a word of a version's row map. -/
def putMapWord (i : Nat) (t : Table) (v : Nat) (s : State) (w : Nat) : State :=
  writeWord s (mapAt i t v + 32 * w) (mapWord t v w) (tagOf s t.account)

/-- Write rows of a version into the pool: firmware composes whole words (R214). -/
def loadRows (s : State) (i : Nat) (t : Table) (v : Nat) (rs : List Nat) : State :=
  (rs.flatMap (rowWords t)).eraseDups.foldl (putMapWord i t v) s

/-- Load a table into the pool: every row of its first version, the rows that changed of each other (R173, R177). -/
def loadTable (s : State) (i : Nat) : State :=
  match s.tables.get? i with
  | none => s
  | some t => t.gens.foldl (fun a p => loadRows a i t p.1 (p.2.map (·.1))) (loadRows s i t 1 (List.range t.rows))

/-- Can a row of a generation be read from BACKING_NS: is its version the durable one there, in units that can be read? -/
def rowDurable (s : State) (t : Table) (g r : Nat) : Bool :=
  rowVersion t g r == rowVersion t t.cur r
    && (List.range ((r * rowSize t + rowSize t - 1) / 16384 + 1 - r * rowSize t / 16384)).all fun k =>
      !unitLost s t.nsid (r * rowSize t / 16384 + k)

/-- Read a word of a row; one that fails its check code is reloaded where the row is durable (R184). The answer is whether
every word so far could be read. -/
def readRowWord (i : Nat) (t : Table) (g r : Nat) (a : State × Bool) (w : Nat) : State × Bool :=
  let v := rowVersion t g r
  match readWord a.1 (mapAt i t v + 32 * w) (tagOf a.1 t.account) with
  | (s, o) =>
    if o.data?.isSome then (s, a.2)
    else if rowDurable s t g r then (putMapWord i t v (chargeFlash s t.account none 16384) w, a.2)
    else (s, false)

/-- Read rows of a generation from the pool, charged to the table's account. -/
def readRows (i : Nat) (t : Table) (g : Nat) (s : State) (rs : List Nat) : State × Bool :=
  let r := rs.foldl (fun a r => (rowWords t r).foldl (readRowWord i t g r) a) (s, true)
  (charge r.1 t.account none fPoolRd (rs.length * rowSize t), r.2)

/-! ### Publishing (R177) -/

/-- Buffer slots that the changed rows wait for. -/
def publishSlots (s : State) (t : Table) (rows : Tab Bytes) : Nat :=
  match s.nss.get? t.nsid with
  | some n => slotsFor s (sumNat (rows.map fun p => slotsNeeded n (p.1 * rowSize t) (rowSize t)))
  | none => 0

/-- Publish changed rows as the next generation and write them to BACKING_NS; answers the buffer slots. -/
def publishRows (s : State) (i : Nat) (rows : Tab Bytes) : State × List Nat :=
  match s.tables.get? i with
  | none => (s, [])
  | some t =>
    let y := { t with cur := t.cur + 1, kept := t.kept ++ [t.cur + 1], gens := t.gens.put (t.cur + 1) rows, pending := [] }
    let s := loadRows (onTable s i fun _ => y) i y y.cur (rows.map (·.1))
    let s := charge s t.account none fPoolWr (rows.length * rowSize t)
    rows.foldl (fun a p => putSlots t.nsid a (p.1 * rowSize t, p.2)) (s, [])

/-! ### TABLE-MANAGE (R173, R175, R303, R304) -/

/-- Are a table's parameters in their ranges (Table 7-2)? -/
def tableParamsOk (p : TableP) : Bool :=
  decide (1 ≤ p.rows) && decide (8 ≤ p.dim) && decide (p.dim ≤ 8192) && decide (p.dim % 8 = 0) && decide (p.code ≤ 1)
    && decide (1 ≤ p.sources) && decide (p.sources ≤ 2) && decide (1 ≤ p.spare) && decide (p.spare ≤ 100)

/-- The table that parameters describe. Spare rows round up (DEDUCED). -/
def newTable (acct nsid : Nat) (p : TableP) : Table :=
  { account := acct, nsid := nsid, rows := p.rows, dim := p.dim, code4 := p.code == 1, sources := p.sources
    spareRows := ceilDiv (p.rows * p.spare) 100 }

/-- May a namespace back a table (Table 11-6)? -/
def backingOk (s : State) (e : Sqe) : Bool :=
  match nsFor s e.fn e.nsid with
  | some n => n.flbas == 1 && n.role == .plain
      && !(s.tables.any fun p => p.2.nsid == e.nsid) && !(s.ingests.any fun g => g.srcNs == e.nsid)
  | none => false

/-- TABLE-MANAGE CREATE. -/
def tableCreateBody (e : Sqe) (s : State) : State :=
  let p := tableP (Bytes.sub e.inp 0 64)
  let t := newTable (acctOf e.fn) e.nsid p
  match fuseRefuse e with
  | some c => fail s e.key c e.nsid
  | none =>
    if e.cdw11 ≠ 64 then fail s e.key Code.invalidField e.nsid
    else if e.dptr < 64 then fail s e.key (Code.shortData e) e.nsid
    else if !backingOk s e ∨ !tableParamsOk p then fail s e.key Code.invalidField e.nsid
    else if ((s.nss.get? e.nsid).map (·.nsze)).getD 0 * 4096 < t.rows * rowSize t then fail s e.key Code.invalidField e.nsid
    else if !keyOpen s t.account then fail s e.key Code.keyLocked e.nsid
    else if s.health.readOnly then fail s e.key Code.writeProtected e.nsid
    else
      match s.tables.firstFree 0 tableLimit with
      | none => fail s e.key Code.capacity e.nsid
      | some i =>
        if regionFree s < tableBytes t ∨ overQuota s t.account (tableBytes t) then fail s e.key Code.capacity e.nsid
        else
          let s := match s.nss.get? e.nsid with
            | some n => deallocate s e.nsid 0 (t.rows * rowSize t) n
            | none => s
          let s := setRole { s with tables := s.tables.put i t } e.nsid .backing
          complete (loadTable s i) e.key Code.ok i 0

/-- Bytes of an entry of WRITE-ROWS. -/
def writeEntry (t : Table) (form : Nat) : Nat := 8 + roundUp (if form = 0 then rowSize t else 2 * t.dim) 8

/-- Is a coded row valid (R175)? -/
def codedOk (b : Bytes) : Bool :=
  (match dec 7 (Bytes.le b 0 2) with | .fin m _ => decide (0 ≤ m) | _ => false) && (dec 7 (Bytes.le b 2 2)).isFin

/-- The row numbers of a WRITE-ROWS and their vectors, decoded. -/
def writeRow (t : Table) (b : Bytes) (form i : Nat) : Nat × Bytes :=
  let off := 16 + i * writeEntry t form
  (Bytes.le b off 4, Bytes.sub b (off + 8) (if form = 0 then rowSize t else 2 * t.dim))

def rowVals (t : Table) (form : Nat) (b : Bytes) : List Val := (Bytes.les b 0 2 t.dim).map (dec (if form = 1 then 7 else 8))

/-- Are the data of a WRITE-ROWS valid? -/
def writeRowsOk (t : Table) (e : Sqe) (count form : Nat) : Bool :=
  decide (form ≤ 2) && e.cdw11.toNat == 16 + count * writeEntry t form
    && (List.range count).all fun i =>
      let (r, b) := writeRow t e.inp form i
      decide (r < t.rows) && (if form = 0 then codedOk b else (rowVals t form b).all Val.isFin)

/-- What INDEX-MANAGE and TABLE-MANAGE check of their data: the length is the bytes the data pointer must describe. -/
def manageRefuse (e : Sqe) : Option Code :=
  if e.fuse ≠ 0 then some Code.invalidField
  else if e.dptr < e.cdw11.toNat ∨ e.inp.length < e.cdw11.toNat then some (Code.shortData e)
  else none

/-- TABLE-MANAGE WRITE-ROWS. -/
def writeRowsBody (e : Sqe) (s : State) : State :=
  let i := cdw10Hi e
  let count := Bytes.le e.inp 0 4
  let form := Bytes.le e.inp 4 1
  match manageRefuse e, tableFor s e.fn i with
  | some c, _ => fail s e.key c
  | none, none => fail s e.key Code.invalidField
  | none, some t =>
    if !writeRowsOk t e count form then fail s e.key Code.invalidField
    else if t.openStep.isSome then fail s e.key Code.sequenceError
    else if !keyOpen s t.account then fail s e.key Code.keyLocked
    else if s.health.readOnly then fail s e.key Code.writeProtected
    else
      let rows := (List.range count).map fun k => writeRow t e.inp form k
      let qs := if form = 0 then [] else rows.map fun p => quantAsym (codeBits t) (rowVals t form p.2)
      let data := if form = 0 then rows else (rows.zip qs).map fun p => (p.1.1, rowImage t p.2)
      let pending := data.foldl (fun (a : Tab Bytes) p => a.put p.1 p.2) t.pending
      if !spareFits s i t pending.length then fail s e.key Code.capacity
      else
        let s := qs.foldl (fun a q => countQuant a q.zero q.sat q.invalid) s
        let s := onTable s i fun t => { t with pending := pending }
        complete s e.key Code.ok (rows.map (·.1)).eraseDups.length 0

/-- TABLE-MANAGE ABORT-STEP (R188, R304): the open step's commands complete as aborted; commands that wait for the
next step go on waiting. -/
def abortStepBody (e : Sqe) (s : State) : State :=
  let i := cdw10Hi e
  match manageRefuse e, tableFor s e.fn i with
  | some c, _ => fail s e.key c
  | none, none => fail s e.key Code.invalidField
  | none, some t =>
    if !keyOpen s t.account then fail s e.key Code.keyLocked
    else if t.openStep = none then fail s e.key Code.sequenceError
    else
      let s := onTable s i fun t => { t with openStep := none, srcs := [] }
      let s := t.srcs.foldl (fun a p =>
        fail (logCommand a p.2.e (commandEntry a p.2.e opScatter Code.abortRequested 0 0 [] [])) p.2.e.key Code.abortRequested) s
      complete s e.key Code.ok t.srcs.length 0

/-! ### GATHER (R180 to R185, R294) -/

/-- Offsets of the bag offsets and of the weights, and the end of the arrays. -/
def bagAt (p : GatherP) : Nat := roundUp (64 + 4 * p.nidx) 8
def weightAt (p : GatherP) : Nat := if p.reduce = 0 then bagAt p else roundUp (bagAt p + 4 * (p.nbags + 1)) 8
def gatherEnd (p : GatherP) : Nat :=
  if p.weights then weightAt p + 2 * p.nidx else if p.reduce = 0 then 64 + 4 * p.nidx else bagAt p + 4 * (p.nbags + 1)

def rawFmt : Nat := 0xFF

/-- Bytes of one output row or bag. -/
def outRow (t : Table) (p : GatherP) : Nat := if p.ofmt = rawFmt then rowSize t else t.dim * (widthOf p.ofmt / 8)
def gatherOut (t : Table) (p : GatherP) : Nat := (if p.reduce = 0 then p.nidx else p.nbags) * outRow t p

/-- Bag offsets: what a command without bags has is not read. -/
def bagsOk (p : GatherP) (b : Bytes) : Bool :=
  let o := Bytes.les b (bagAt p) 4 (p.nbags + 1)
  o.headD 1 == 0 && o.getLast?.getD 0 == p.nidx
    && (List.range p.nbags).all fun i => decide (o.getD i 0 ≤ o.getD (i + 1) 0) && decide (o.getD (i + 1) 0 ≤ o.getD i 0 + 16384)

/-- Are the parameters and arrays of a GATHER in their ranges (Table 7-4)? -/
def gatherParamsOk (t : Table) (e : Sqe) (p : GatherP) : Bool :=
  let b := inRegion e
  decide (1 ≤ p.nidx) && decide (p.nidx ≤ 1048576) && decide (p.reduce ≤ 3)
    && (p.ofmt == 7 || p.ofmt == 8 || p.ofmt == 9 || (p.ofmt == rawFmt && p.reduce == 0))
    && (p.reduce == 0 || (decide (1 ≤ p.nbags) && decide (p.nbags ≤ 65536))) && decide (Bytes.le b 16 1 < 2)
    && decide (gatherEnd p ≤ inLen e) && decide (64 + gatherOut t p ≤ outLen e)
    && ((Bytes.les b 64 4 p.nidx).all fun r => decide (r < t.rows)) && (p.reduce == 0 || bagsOk p b)
    && (!p.weights || (Bytes.les b (weightAt p) 2 p.nidx).all fun w => (dec 7 w).isFin)

/-- Weighted, decoded element of an index. -/
def weighted (t : Table) (b row : Bytes) (p : GatherP) (k d : Nat) : Int × Int :=
  let w := if p.weights then dy 7 (Bytes.le b (weightAt p + 2 * k) 2) else (1, 0)
  mulDy w (rowElem t row d)

/-- Round a gathered value: RNE with OSAT = 1 (R181). -/
def gatherRound (fmt : Nat) (v : Int × Int) (div : Nat) : Rounded := let (n, d) := frac v.1 v.2; roundTo fmt 0 0 true n (d * div)

/-- One element of a bag (R181). -/
def bagElem (p : GatherP) (vs : List (Int × Int)) : Rounded :=
  match vs with
  | [] => ⟨0, false, false⟩
  | v :: r =>
    if p.reduce = 3 then gatherRound p.ofmt (r.foldl (fun a x => if ltDy a x then x else a) v) 1
    else gatherRound p.ofmt (sumDy vs) (if p.reduce = 2 then vs.length else 1)

/-- What a GATHER returns: its data, empty bags, saturated elements. -/
def gatherRun (t : Table) (g : Nat) (p : GatherP) (b : Bytes) : Bytes × Nat × Nat :=
  let idx := Bytes.les b 64 4 p.nidx
  let rows := idx.map (rowBytes t g)
  let row (k : Nat) : Bytes := rows.getD k []
  if p.ofmt = rawFmt then (rows.flatMap id, 0, 0)
  else if p.reduce = 0 then
    let rs := (List.range p.nidx).map fun k => (List.range t.dim).map fun d => gatherRound p.ofmt (weighted t b (row k) p k d) 1
    (rs.flatMap fun r => pack p.ofmt (r.map (·.code)), 0, sumNat (rs.map fun r => (r.filter (·.sat)).length))
  else
    let o := Bytes.les b (bagAt p) 4 (p.nbags + 1)
    let bag (i : Nat) : List Nat := (List.range (o.getD (i + 1) 0 - o.getD i 0)).map (o.getD i 0 + ·)
    let rs := (List.range p.nbags).map fun i => (List.range t.dim).map fun d =>
      bagElem p ((bag i).map fun k => weighted t b (row k) p k d)
    (rs.flatMap fun r => pack p.ofmt (r.map (·.code)), ((List.range p.nbags).filter fun i => bag i == []).length,
      sumNat (rs.map fun r => (r.filter (·.sat)).length))

/-- Does the gather engine keep hot-row copies (Table 7-5)? -/
def keepsHot (s : State) : Bool := bitOf s.gatherCfg.toNat 0

/-- Hot-row window and threshold of TD_GATHER_CFG. -/
def hotWindow (s : State) : Nat := 2 ^ fieldOf s.gatherCfg.toNat 8 4
def hotThreshold (s : State) : Nat := fieldOf s.gatherCfg.toNat 31 16

/-- Is an index served from a hot-row copy: one of the version that the generation holds (R185)? -/
def isHot (t : Table) (g r : Nat) : Bool := t.hot.get? r == some (rowVersion t g r)

/-- Indices served from hot-row copies. -/
def hotHits (t : Table) (g : Nat) (idx : List Nat) : Nat := (idx.filter (isHot t g)).length

/-- Count lookups in the window of a table; those after the window is full belong to the next (R185). -/
def countIn (full : Nat) (t : Table) (r : Nat) : Table :=
  if t.window < full then { t with lookups := t.lookups.upd r 0 (· + 1), window := t.window + 1 } else { t with later := t.later ++ [r] }

/-- Count the lookups of a command. -/
def countLookups (s : State) (i : Nat) (idx : List Nat) : State := onTable s i fun t => idx.foldl (countIn (hotWindow s)) t

/-- The generation that a GATHER pinned at its fetch: the current one, or the one it names (R178). -/
def gatherGen (s : State) (e : Sqe) (p : GatherP) (t : Table) : Option Nat :=
  let l := (((flightOf s e.key).map fun f => f.tabGens.getD p.table [])).getD []
  let l := if l = [] then [t.cur] else l
  if p.gen = 0 then l.head? else if l.contains p.gen then some p.gen else none

/-- The checks of R291 for a GATHER. -/
def gatherRefuse (s : State) (e : Sqe) (p : GatherP) : Option (Code × Nat) :=
  match vendorRefuse e, tableFor s e.fn p.table with
  | some c, _ => some (c, 0)
  | none, none => some (Code.invalidField, 0)
  | none, some t =>
    if !gatherParamsOk t e p then some (Code.invalidField, 0)
    else if (gatherGen s e p t).isNone then some (Code.tableGenRetired, oldestTab s p.table t)
    else if !keyOpen s t.account then some (Code.keyLocked, 0)
    else none

def gatherFlags (empty : Nat) : VFlags := { short := decide (0 < empty) }

/-- The record of a GATHER (R294). -/
def gatherRecord (g empty hot len : Nat) : Bytes :=
  resultRecord len (gatherFlags empty) 0 (toLe 4 g ++ toLe 4 empty ++ toLe 4 (min hot (2 ^ 32 - 1)))

/-- A GATHER meets a row that is in neither the pool nor BACKING_NS: Internal Error and event 0x0004 (R184). The gather engine is
no lamp cluster and its command has no TAG: the event names cluster 0xFF and TAG 0 with FAULT_CODE 0x0001 (DESIGN CHOICE,
log 38). -/
def gatherFault (s : State) (e : Sqe) (t : Table) (g : Nat) : State :=
  let s := logEvent s dieTrunk 0x0004 { whoIn s e.key with account := t.account } (toLe 1 0xFF ++ toLe 2 1 ++ toLe 4 0)
  fail (logCommand s e (commandEntry s e opGather Code.internalError g 0 [] [])) e.key Code.internalError

/-- GATHER: it reads one generation and writes its output once. -/
def gatherBody (e : Sqe) (s : State) : State :=
  let b := inRegion e
  let p := gatherP b
  match gatherRefuse s e p with
  | some (c, dw0) => failDw0 s e.key c dw0
  | none =>
    match s.tables.get? p.table with
    | none => s
    | some t =>
      let g := (gatherGen s e p t).getD t.cur
      let idx := Bytes.les b 64 4 p.nidx
      match readRows p.table t g s (idx.filter fun r => !isHot t g r) with
      | (s, false) => gatherFault s e t g
      | (s, true) =>
        let (data, empty, sat) := gatherRun t g p b
        let hot := hotHits t g idx
        let s := bump 0x608001 hot (bump 0x605004 sat s)
        let s := if keepsHot s then countLookups s p.table idx else s
        let rc := gatherRecord g empty hot data.length
        let s := writeOutput s e rc data
        let s := logCommand s e (commandEntry s e opGather Code.ok g 0 (rc ++ data) [])
        complete s e.key Code.ok g ((gatherFlags empty).word % 256)

def hotStore : Nat := 32 * 2 ^ 20

/-- Bytes of hot-row copies of the other tables. -/
def hotUsed (s : State) (i : Nat) : Nat :=
  sumNat ((s.tables.filter fun p => p.1 != i).map fun p => p.2.hot.length * rowSize p.2)

/-- Rank the rows of a window and keep the leading copies; the next window begins with the lookups since (R185). -/
def rankHot (s : State) (i : Nat) (t : Table) : Table :=
  let cand := t.lookups.filter fun p => decide (hotThreshold s ≤ p.2)
  let ranked := sortBy (fun a b : Nat × Nat => decide (b.2 < a.2) || (a.2 == b.2 && decide (a.1 < b.1))) cand
  let cap := min (dv s 0x422004 * 2 ^ 20) (hotStore - hotUsed s i) / rowSize t
  let kept := if keepsHot s then (ranked.take cap).map (·.1) else []
  let hot : Tab Nat := kept.foldl (fun (a : Tab Nat) r => a.put r (rowVersion t t.cur r)) []
  t.later.foldl (countIn (hotWindow s)) { t with hot := hot, lookups := [], window := 0, later := [] }

/-! ### SCATTER-UPDATE (R187 to R190, R295, R296) -/

/-- Bytes of an entry. -/
def scatterEntry (t : Table) (p : ScatterP) : Nat := 8 + roundUp (t.dim * (widthOf p.vfmt.toNat / 8)) 8

/-- Entry `i`: its row and its values as FP32 codes; FP16 and BF16 values are exact in FP32. -/
def scatterVals (t : Table) (p : ScatterP) (b : Bytes) (i : Nat) : Nat × List W32 :=
  let off := 64 + i * scatterEntry t p
  let w := widthOf p.vfmt.toNat / 8
  (Bytes.le b off 4, (Bytes.les b (off + 8) w t.dim).map fun c => BitVec.ofNat 32 (convert 9 0 0 false (dec p.vfmt.toNat c)).code)

/-- Are the parameters and entries of a SCATTER-UPDATE in their ranges? -/
def scatterParamsOk (t : Table) (e : Sqe) (p : ScatterP) : Bool :=
  let b := inRegion e
  decide (p.src < t.sources) && decide (Bytes.le b 9 1 ≤ 1) && (p.vfmt == 7 || p.vfmt == 8 || p.vfmt == 9)
    && (dec 9 p.coef.toNat).isFin && decide (1 ≤ p.nidx) && decide (p.nidx ≤ 1048576) && outLen e == 0
    && decide (64 + p.nidx * scatterEntry t p ≤ inLen e)
    && (List.range p.nidx).all fun i =>
      let (r, vs) := scatterVals t p b i
      decide (r < t.rows) && vs.all fun v => (dec 9 v.toNat).isFin

/-- How a STEP meets a table: it joins (`some true`), waits (`some false`), or is out of order. -/
def stepFits (t : Table) (p : ScatterP) : Option Bool :=
  match t.openStep with
  | some k =>
    if p.step = k then (if t.srcs.has p.src then none else some true)
    else if p.step = k + 1 then
      (if t.waiting.any fun w => w.p.step == p.step && w.p.src == p.src then none else some false)
    else none
  | none => if p.step = t.lastStep + 1 then some true else none

/-- Rows that a set of commands names. -/
def rowsNamed (l : List StepSrc) : List Nat := (l.flatMap fun x => x.entries.map (·.1)).eraseDups

/-- The new value of a row (R189, R190): its quantised row, or none where an element is not finite; the loss; the
contributions discarded. Entries stand in key order: (is a SET, coefficient, values). -/
def scatterRow (t : Table) (g r : Nat) (es : List (Bool × W32 × List W32)) : Option QRow × Nat × Nat :=
  let lastSet := ((List.range es.length).filter fun i => (es.getD i default).1).getLast?
  let live := match lastSet with | some k => es.drop (k + 1) | none => es
  let old := rowBytes t g r
  let base (d : Nat) : Int × Int := match lastSet with
    | some k => dy 9 ((es.getD k default).2.2.getD d 0).toNat
    | none => rowElem t old d
  let terms (d : Nat) : List (Int × Int) :=
    base d :: live.map fun e => mulDy (dy 9 e.2.1.toNat) (dy 9 (e.2.2.getD d 0).toNat)
  let logs := ((List.range t.dim).flatMap terms).filterMap fun v => if v.1 = 0 then none else some (elog v.1 v.2)
  let c : Int := logs.foldl max (logs.headD 0) + 1
  let recs := (List.range t.dim).map fun d => (terms d).foldl (fun a v => addProd a (.fin v.1 v.2)) (emptyRec modeA c)
  let codes := recs.map fun x => (roundRec x 9 0 0 false 1 1).code
  let loss := sumNat (recs.map fun x => x.loss.toNat)
  let gone := match lastSet with | some k => k | none => 0
  if codes.all fun v => (dec 9 v).isFin then (some (quantAsym (codeBits t) (codes.map (dec 9))), loss, gone)
  else (none, loss, gone)

/-- The entries of a row in key order (SRC, position). -/
def rowEntries (t : Table) (r : Nat) : List (Bool × W32 × List W32) :=
  t.srcs.flatMap fun x => (x.2.entries.filter fun e => e.1 == r).map fun e => (x.2.p.set, x.2.p.coef, e.2)

/-- Do all sources stand in the open step? -/
def stepFull (t : Table) : Bool := t.openStep.isSome && t.srcs.length == t.sources

/-- The rows that closing the open step makes, with the step's counts. -/
def stepRows (t : Table) : List (Nat × QRow) × Nat × Nat × Nat :=
  let rows := rowsNamed (t.srcs.map (·.2))
  let rs := rows.map fun r => (r, scatterRow t t.cur r (rowEntries t r))
  (rs.filterMap fun x => x.2.1.map fun q => (x.1, q), sumNat (rs.map fun x => x.2.2.1),
    (rs.filter fun x => x.2.1.isNone).length, sumNat (rs.map fun x => x.2.2.2))

/-- A command joins the open step, opening it where none is. -/
def joinStep (s : State) (i : Nat) (x : StepSrc) : State :=
  onTable s i fun t => { t with openStep := some x.p.step, srcs := t.srcs.put x.p.src x }

/-- Would the rows of the open step with one more command exceed the spare rows? -/
def stepRoom (s : State) (i : Nat) (t : Table) (x : StepSrc) : Bool := spareFits s i t (rowsNamed ((t.srcs.map (·.2)) ++ [x])).length

/-- The commands that wait for the next step join it, in their order; one whose rows do not fit fails (R179, R187). -/
def joinWaiting (s : State) (i : Nat) : State :=
  match s.tables.get? i with
  | none => s
  | some t =>
    let s := onTable s i fun t => { t with waiting := [] }
    t.waiting.foldl (fun a x =>
      match a.tables.get? i with
      | none => a
      | some u => if stepRoom a i u x then joinStep a i x
          else fail (logCommand a x.e (commandEntry a x.e opScatter Code.capacity 0 0 [] [])) x.e.key Code.capacity) s

/-- Completion DW1 of a closed step (R296). -/
def stepDw1 (loss bad gone : Nat) : Nat :=
  ({ loss := decide (0 < loss) } : VFlags).word % 256 + 256 * min bad 4095 + 2 ^ 20 * min gone 4095

/-- Close a full step (R188 to R190): it waits while the write buffer has no room for its rows. -/
def closeStep (s : State) (i : Nat) : State :=
  match s.tables.get? i with
  | none => s
  | some t =>
    if !stepFull t then s
    else
      let (rows, loss, bad, gone) := stepRows t
      let images : Tab Bytes := rows.foldl (fun (a : Tab Bytes) r => a.put r.1 (rowImage t r.2)) []
      if freeSlots s < publishSlots s t images then s
      else
        let step := t.openStep.getD 0
        let s := rows.foldl (fun a r => countQuant a r.2.zero r.2.sat r.2.invalid) s
        let s := bump 0x608004 gone (bump 0x608002 bad (bump 0x605002 loss s))
        let (s, slots) := publishRows s i images
        let gen := t.cur + 1
        let rep : StepReport := { step := step, gen := gen, nonfinite := bad, loss := loss, discarded := gone }
        let s := onTable s i fun t =>
          { t with lastStep := step, openStep := none, srcs := [], reports := (rep :: t.reports).take 16 }
        let s := t.srcs.foldl (fun a p =>
          finishData (logCommand a p.2.e (commandEntry a p.2.e opScatter Code.ok gen 0 [] [])) p.2.e.key t.nsid slots []
            gen (stepDw1 loss bad gone)) s
        joinWaiting s i

/-- Close steps of a table as long as they are full; the fuel bounds the steps that waiting commands fill. -/
def closeSteps (s : State) (i : Nat) : State := closeStep (closeStep s i) i

/-- SCATTER-UPDATE at its fetch (R187, R179, R291, R337). -/
def scatterBody (e : Sqe) (s : State) : State :=
  let b := inRegion e
  let p := scatterP b
  let i := cdw12Lo e
  match vendorRefuse e, tableFor s e.fn i with
  | some c, _ => fail s e.key c
  | none, none => fail s e.key Code.invalidField
  | none, some t =>
    if !scatterParamsOk t e p then fail s e.key Code.invalidField
    else
      match stepFits t p with
      | none => fail s e.key Code.invalidField
      | some joins =>
        let x : StepSrc := { e := e, p := p, entries := (List.range p.nidx).map (scatterVals t p b) }
        if t.pending ≠ [] then fail s e.key Code.sequenceError
        else if !keyOpen s t.account then fail s e.key Code.keyLocked
        else if s.health.readOnly then fail s e.key Code.writeProtected
        else if !joins then onTable s i fun t => { t with waiting := t.waiting ++ [x] }
        else if !stepRoom s i t x then
          fail (logCommand s e (commandEntry s e opScatter Code.capacity 0 0 [] [])) e.key Code.capacity
        else closeSteps (joinStep s i x) i

end Sys2Proof.Machine
end

