-- ==== Sys2Proof/Machine/CancelOps.lean ====
section
/-! DEFINITION. Commands that end before their work does: aborted (R281), cancelled by the watchdog (R279), by the
deletion of their queue or by a reset (R282), or failed at a merge (R442). -/

namespace Sys2Proof.Machine

/-- Does a bank run the program of a command? -/
def runsIn (b : Bank) (k : CmdKey) : Bool := b.prog.any fun p => p.handle == some k

/-- The bank of a core that does not run. -/
def otherBank (k : Core) : Bank := if k.useB then k.bankA else k.bankB

/-- End the program of the bank that does not run: it has no open tile. -/
def abortPaused (s : State) (c : Fin 8) : State :=
  let k := s.cores[c]
  let s := abortProgram (onCore s c fun x => { x with useB := !x.useB, tile := none }) c
  onCore s c fun x =>
    { x with
      useB := k.useB, tile := k.tile, stalled := k.stalled, releasing := k.releasing, abortPending := k.abortPending
      meSlots := k.meSlots, meQueue := k.meQueue, tmSlots := k.tmSlots, tmQueue := k.tmQueue
      engines := k.engines }

/-- Stop the program of a core's running bank: at the end of its open tile, where it has one (R89). -/
def stopRunning (s : State) (c : Fin 8) : State :=
  if s.cores[c].tile.isSome then onCore s c fun x => { x with abortPending := true } else abortProgram s c

/-- End the program of a context saved in its session. -/
def endSaved (s : State) (i : Nat) (k : CmdKey) : State :=
  match (s.sess.get? i).bind (·.ctxSaved) with
  | some b =>
    if runsIn b k then
      endCommand (onSess s i fun x => { x with ctxSaved := some { b with prog := none } }) (b.prog.getD default) Code.abortRequested 0 []
    else s
  | none => s

/-- Stop the program of a command, wherever it is (R89). -/
def stopPrograms (s : State) (k : CmdKey) : State :=
  let s := (List.finRange 8).foldl (fun a c =>
    if runsIn (bank a.cores[c]) k then stopRunning a c
    else if runsIn (otherBank a.cores[c]) k then abortPaused a c
    else a) s
  (s.sess.map (·.1)).foldl (fun a i => endSaved a i k) s

/-- Is the command one that a program serves? -/
def isProgram (s : State) (k : CmdKey) : Bool :=
  (s.cores.toList.any fun c => runsIn c.bankA k || runsIn c.bankB k) || s.sess.any fun x => (x.2.ctxSaved.map fun b => runsIn b k).getD false

/-- A program that goes on to the end of its tile no longer answers for its command. -/
def forgetHandle (s : State) (k : CmdKey) : State :=
  let cut (b : Bank) : Bank := if runsIn b k then { b with prog := b.prog.map fun p => { p with handle := none } } else b
  { s with cores := s.cores.map fun c => { c with bankA := cut c.bankA, bankB := cut c.bankB } }

/-- Sources of a command in a scatter step go; a step without sources is not open. -/
def dropScatter (t : Table) (k : CmdKey) : Table :=
  let srcs := t.srcs.filter fun p => p.2.e.key != k
  { t with srcs := srcs, waiting := t.waiting.filter (fun x => x.e.key != k)
           openStep := if srcs.isEmpty then none else t.openStep }

/-- Does a query of an index wait or run for a command? -/
def queryIndex (s : State) (k : CmdKey) : Option Nat :=
  ((s.queries ++ s.queryWait).find? fun q => q.e.key == k).map (·.index)

/-- Drop what is left of a command whose completion is decided. -/
def dropWork (s : State) (k : CmdKey) : State :=
  let qi := queryIndex s k
  let imp := (s.imports.filter fun j => j.e.key == k).map (·.id)
  let mv := (s.sess.filter fun p => (p.2.pendingMove.map fun m => m.key == k).getD false).map (·.1)
  let s := cancelJob s k
  let s := { s with
    attends := s.attends.filter fun a => a.e.key != k
    queries := s.queries.filter fun q => q.e.key != k
    queryWait := s.queryWait.filter fun q => q.e.key != k
    held := s.held.filter fun j => j.e.key != k
    imports := s.imports.filter fun j => j.e.key != k
    tables := s.tables.mapVals fun _ t => dropScatter t k
    indexes := s.indexes.mapVals fun _ x => { x with destroying := if x.destroying = some k then none else x.destroying }
    fw := { s.fw with waitCommit := if s.fw.waitCommit = some k then none else s.fw.waitCommit }
    clusters := s.clusters.map (abortServing k) }
  let s := imp.foldl dropSession s
  let s := mv.foldl endMove s
  let s := forgetHandle (stopPrograms (freeLayers s) k) k
  match qi with
  | some i => afterQuery s i
  | none => s

/-- End a command with a status and drop its work. -/
def cancelWith (s : State) (k : CmdKey) (c : Code) : State := dropWork (fail s k c) k

/-- A context that firmware started for a command ends as fault (R130, R156): a flash read that cannot be recovered fails an
ATTEND or a Pinned query with the block that it read, and leaves an Open query without the node; any other fault is event 0x0004
and fails the command with Internal Error. -/
def contextFault (s : State) (ch : Fin 48) (x : Ctx) (k : CmdKey) : State :=
  let (nsid, addr) := x.failed.getD (0, 0)
  let node := x.tag.toNat
  if x.faultCode = 5 ∨ (flightOf s k).isNone then s
  else if x.faultCode = 6 then
    match runningQuery s k with
    | some (q, ix) =>
      if q.p.mode = 0 then (if q.flying.contains node then afterQuery (replyMerged s q ix node true) q.index else s)
      else afterQuery (failQuery s q Code.unrecoveredRead nsid (addr / 4096)) q.index
    | none => dropWork (fail s k Code.unrecoveredRead nsid (addr / 4096)) k
  else
    cancelWith (logEvent s (dieOfCh ch.val) 0x0004 (whoIn s k) (toLe 1 ch.val ++ toLe 2 x.faultCode.toNat ++ toLe 4 x.tag.toNat)) k
      Code.internalError

/-- End the program that serves a binding, wherever it is. -/
def endBinding (s : State) (i : Nat) : State :=
  let runs (b : Bank) : Bool := (b.prog.map fun p => p.binding == some i).getD false
  (List.finRange 8).foldl (fun a c =>
    if runs (bank a.cores[c]) then endProgram a c 0x12 Code.ok 0 []
    else if runs (otherBank a.cores[c]) then abortPaused a c
    else a) s

end Sys2Proof.Machine
end

