-- ==== Sys2Proof/Machine/CtrlOps.lean ====
section
/-! DEFINITION. Resets of a controller and the end of a queue's commands (R261, R282, R357, R433). -/

namespace Sys2Proof.Machine

/-- I/O queue pairs that a controller offers from its next reset on (R261). -/
def offeredPairs (s : State) (f : Fin 128) : Nat := dv s (if f.val = 0 then 0x106001 else 0x106002)

/-- End a command with no completion posted (R282). -/
def endSilently (s : State) (k : CmdKey) : State := dropWork (dropFlight s k) k

/-- Keys of the commands in flight that satisfy a test. -/
def flying (s : State) (p : CmdKey → Bool) : List CmdKey := (s.inflight.map (·.key)).filter p

/-- Is a command an Asynchronous Event Request that waits for an event? -/
def waitsEvent (s : State) (k : CmdKey) : Bool := k.sqid == 0 && s.ctrls[k.fn].aers.contains k.cid

/-- Those in progress: their completion is not yet decided. A waiting Asynchronous Event Request is none (R422). -/
def running (s : State) (p : CmdKey → Bool) : List CmdKey :=
  (flying s p).filter fun k => !completionWaits s k && !waitsEvent s k

/-- What a controller keeps across a reset: what it holds for the host's data, its logs and its saved features. -/
def resetCtrl (c : Ctrl) (pairs : Nat) : Ctrl :=
  { c with
    ccEn := false, csts := false, asqTail := 0, asqHead := 0, acqPosted := [], acqWaiting := [], acqHead := 0
    sqs := [], cqs := [], qpairs := pairs, features := c.saved, arb := BitVec.ofNat 32 (c.saved.getD 0x01 0)
    arbCredit := [], aers := [], events := [], abortRecs := [], miResponse := none, secResponse := none, rrNext := [0, 0, 0, 0] }

/-- A controller reset (R282): its commands end without completions, its I/O queues are deleted. A reset of the PF
controller makes a pending activation due (R357). -/
def resetController (s : State) (f : Fin 128) : State :=
  let s := (flying s fun k => k.fn == f).foldl endSilently s
  let s := onCtrl s f fun c => resetCtrl c (offeredPairs s f)
  let s := { s with visit := if (s.visit.map (·.1)) = some f.val then none else s.visit }
  if f.val = 0 ∧ s.fw.stage.state = 2 ∧ s.fw.activating = 0 then onFw s fun w => { w with activating := 1 } else s

/-- A function level reset, or a reset of the whole interface, resets the controller's registers too. -/
def resetFunction (s : State) (f : Fin 128) : State :=
  onCtrl (resetController s f) f fun c => { c with regs := [], ams := false, d3hot := false }

/-- Deletion of a submission queue ends its outstanding commands (R282). -/
def endQueue (s : State) (f : Fin 128) (sqid : Nat) : State :=
  (running s fun k => k.fn == f && k.sqid == sqid).foldl (fun a k => cancelWith a k Code.sqDeleted) s

end Sys2Proof.Machine
end

