-- ==== Sys2Proof/Machine/ProgOps.lean ====
section
/-! DEFINITION. Borten images and the programs that run them (spec 04 R105 to R108, spec 11 R277 and R278): the
loader's checks, pool grants, the start of a program on a core, and the memory namespace of a controller. -/

namespace Sys2Proof.Machine

/-! ### The loader's checks (R105 to R107) -/

/-- Is a section placed in the program region? -/
def inRegionTy (t : Nat) : Bool := t == tyCode || t == tyData || t == tyZero

/-- Do two ranges meet in more than nothing? -/
def overlap (a b : Nat × Nat) : Bool := a.2 != 0 && b.2 != 0 && meets a b

/-- Does any pair of a list of ranges overlap? -/
def anyOverlap : List (Nat × Nat) → Bool
  | [] => false
  | r :: t => t.any (overlap r) || anyOverlap t

/-- Fields of the image header (Table 4-11). -/
def hdrScratch (b : Bytes) : Nat := Bytes.le b 0x58 2
def hdrStore (b : Bytes) : Nat := Bytes.le b 0x5A 2
def hdrCores (b : Bytes) : Nat := Bytes.le b 0x5C 2
def hdrLamp (b : Bytes) : Nat := Bytes.le b 0x5E 2
def hdrPool (b : Bytes) : Nat := Bytes.le b 0x60 8
def hdrKernels (b : Bytes) : Nat := Bytes.le b 0x68 2
def hdrHash (b : Bytes) : Bytes := Bytes.sub b 0x20 48

/-- Are bytes of the image zero? -/
def zeroAt (b : Bytes) (off n : Nat) : Bool := (Bytes.sub b off n).all (· == 0)

/-- Bytes of a section. -/
def sectBytes (b : Bytes) (x : Section) : Bytes := if x.ty = tyZero then List.replicate x.size 0 else Bytes.sub b x.off x.size

/-- Kernel slots of a module that hold nothing. -/
def freeKernels (s : State) : List Nat := (List.range 16).filter fun i => !s.kernels.has i

/-- May an account bind an imported object (R107)? -/
def mayBind (s : State) (fn : Fin 128) (i : Nat × Nat) : Bool :=
  match i.1 with
  | 0 => (nsFor s fn i.2).isSome
  | 1 => (indexFor s fn i.2).isSome
  | 2 => (tableFor s fn i.2).isSome
  | _ => false

/-- The reason code of the first check of Table 4-13 that fails; none where the image is accepted. `len` is the loaded
length. -/
def imageReason (s : State) (fn : Fin 128) (b : Bytes) (len : Nat) : Option Nat :=
  let xs := sectionsOf b
  let count := Bytes.le b 0x0C 4
  let table := Bytes.le b 0x18 8
  let region := hdrScratch b * tileBytes
  let placed := xs.filter fun x => inRegionTy x.ty
  let kernels := xs.filter (·.ty == tyKernel)
  let entry := xs.getD (Bytes.le b 0x50 2) default
  if Bytes.le b 0 4 ≠ 0x4E545242 ∨ Bytes.le b 4 2 ≠ 3 ∨ Bytes.le b 8 4 ≠ 256 ∨ Bytes.le b 0x10 8 ≠ len ∨ len < 256 ∨ 2 ^ 28 < len then
    some 1
  else if count = 0 ∨ 64 < count ∨ table % 8 ≠ 0 ∨ len < table + 32 * count ∨ xs.any (fun x => decide (len < x.off + x.size))
      ∨ anyOverlap (xs.map fun x => (x.off, x.size)) then some 2
  else if Crypto.sha384 (b.take 0x20 ++ List.replicate 48 0 ++ b.drop 0x50) ≠ hdrHash b then some 3
  else if !(xs.all fun x => [tyCode, tyData, tyZero, tyKernel, tyConst, tyImport, tyNote].contains x.ty && x.flags == 0 && x.rest == 0)
      ∨ 4 ≤ Bytes.le b 6 2 ∨ !(zeroAt b 0x52 2 && zeroAt b 0x6A 54 && zeroAt b 0xC0 64) then some 4
  else if count ≤ Bytes.le b 0x50 2 ∨ entry.ty ≠ tyCode ∨ Bytes.le b 0x54 4 % 4 ≠ 0 ∨ entry.size ≤ Bytes.le b 0x54 4 then some 5
  else if placed.any (fun x => decide (region < x.load + x.size)) ∨ anyOverlap (placed.map fun x => (x.load, x.size))
      ∨ anyOverlap ((xs.filter (·.ty == tyConst)).map fun x => (x.load, x.size))
      ∨ xs.any (fun x => x.ty == tyConst && decide (hdrPool b < x.load + x.size)) then some 6
  else if hdrScratch b = 0 ∨ 384 < hdrScratch b ∨ 1024 < hdrStore b ∨ hdrCores b = 0 ∨ 8 < hdrCores b ∨ 512 < hdrLamp b
      ∨ hdrPool b % tileBytes ≠ 0 ∨ 16 < hdrKernels b ∨ overQuota s (acctOf fn) (hdrPool b) ∨ regionFree s < hdrPool b then some 7
  else if 16384 < sumNat (kernels.map (·.size)) ∨ (freeKernels s).length < kernels.length
      ∨ 65536 < sumNat (s.kernels.map fun k => k.2.size) + sumNat (kernels.map (·.size)) then some 8
  else if !((importsOf b).all (mayBind s fn)) then some 9
  else none

/-! ### Pool grants (R105, R108) -/

/-- The start of the highest free run of the pool (DESIGN CHOICE, log 21). -/
def poolPlace (s : State) (len : Nat) : Option Nat :=
  let gone := (s.repair.withdrawn.map fun r => (0, r * 4096, 4096)).filter fun w : Nat × Nat × Nat =>
    s.poolGrants.all fun g => decide (w.2.1 + 4096 ≤ g.2.1) || decide (g.2.1 + g.2.2 ≤ w.2.1)
  let gs := sortBy (fun a b : Nat × Nat × Nat => decide (b.2.1 < a.2.1)) (s.poolGrants ++ gone)
  let step (a : Nat × Option Nat) (g : Nat × Nat × Nat) : Nat × Option Nat :=
    match a.2 with
    | some _ => a
    | none => if g.2.1 + g.2.2 + len ≤ a.1 then (a.1, some (a.1 - len)) else (g.2.1, none)
  match gs.foldl step (poolBytes, none) with
  | (_, some p) => some p
  | (hi, none) => if len ≤ hi then some (hi - len) else none

/-- Numbers of the words that a range meets. -/
def wordsIn (p n : Nat) : List Nat := if n = 0 then [] else (List.range ((p + n - 1) / 32 + 1 - p / 32)).map (p / 32 + ·)

/-- Write placed sections, given by address and bytes, in whole words under a tag; a byte of such a word that no section
holds is zero (R106, R214). -/
def putSections (s : State) (xs : List (Nat × Bytes)) (tag : Nat) : State :=
  let all : Mem := xs.foldl (fun m x => Mem.puts 0 m x.1 x.2) []
  ((xs.flatMap fun x => wordsIn x.1 x.2.length).eraseDups).foldl (fun a w => fwWrite a (32 * w) (all.gets 0 (32 * w) 32) tag) s

/-- Give each kernel its slot: the hint, where it is free, else the lowest free one (R106); its words go to kernel memory
under the account's tag (R206). -/
def placeKernels (s : State) (acct : Nat) (b : Bytes) : State × List Nat :=
  ((sectionsOf b).filter (·.ty == tyKernel)).foldl (fun (a : State × List Nat) x =>
    let free := freeKernels a.1
    match if free.contains x.load then some x.load else free.head? with
    | some i =>
      let k : Kernel := { account := acct, size := x.size }
      let s := putSections a.1 [(kernelAt i, sectBytes b x)] (tagOf a.1 acct)
      ({ s with kernels := s.kernels.put i k }, a.2 ++ [i])
    | none => a) (s, [])

/-- Load an accepted image: pool working memory and CONST sections, kernels, the program index (R105, R106). -/
def loadImage (s : State) (fn : Fin 128) (i : Nat) (b : Bytes) : State :=
  let acct := acctOf fn
  let p := (poolPlace s (hdrPool b)).getD 0
  let s := if hdrPool b = 0 then s else { s with poolGrants := s.poolGrants ++ [(acct, p, hdrPool b)] }
  let xs := (sectionsOf b).filter (·.ty == tyConst)
  let s := putSections s (xs.map fun x => (p + x.load, sectBytes b x)) (tagOf s acct)
  let s := (xs.flatMap fun x => tilesIn (p + x.load) x.size).foldl setStale s
  let (s, ks) := placeKernels s acct b
  let im : Image := { account := acct, hash := hdrHash b, active := false, bytes := b, kernels := ks, pool := (p, hdrPool b) }
  onCtrl s fn fun c => { c with programs := c.programs.put i im }

/-- Unload an image: its kernels and its pool memory go. -/
def unloadImage (s : State) (fn : Fin 128) (i : Nat) : State :=
  match s.ctrls[fn].programs.get? i with
  | none => s
  | some im =>
    let ks : Tab Kernel := s.kernels.keep fun k _ => !im.kernels.contains k
    let gs := s.poolGrants.filter (· != (im.account, im.pool.1, im.pool.2))
    let s := { s with kernels := ks, poolGrants := gs }
    onCtrl s fn fun c => { c with programs := c.programs.del i }

/-! ### Starting a program (R239, R241, R277) -/

/-- The open session whose grant an account's program uses: its flight session, else its lowest-numbered one, of Class 0
for a Class 0 queue and of another class otherwise (DESIGN CHOICE, log 21). -/
def execSession (s : State) (acct : Nat) (c0 : Bool) : Option Nat :=
  let mine := (s.sess.filter fun p => p.2.account == acct && p.2.state == sessOpen && (p.2.cls == 0) == c0).map (·.1)
  match flightSession s acct with
  | some i => if mine.contains i then some i else mine.head?
  | none => mine.head?

/-- Can a bank take a program of a session, or of none? -/
def bankFree (k : Core) (b : Bool) (sess : Option Nat) : Bool :=
  (bankOf k b).prog.isNone && ((bankOf k b).session.isNone || (bankOf k b).session == sess)

/-- First scratch tile of a program's region: the partition serves Class 0 alone, and what a Class 0 program needs
beyond it comes from the general tiles that follow (R237, R241; DESIGN CHOICE, log 21). -/
def regionTile (s : State) (c : Fin 8) (c0 : Bool) : Nat := if c0 then 0 else partOf s c

/-- The session that a bank's tiles are held for. -/
def bankOwner (s : State) (c : Fin 8) (b : Bool) : Option Nat := (bankOf s.cores[c] b).session

/-- Tile-store tiles that are held at a core for a session, or for none. -/
def heldStore (s : State) (c : Fin 8) (acct : Nat) (o : Option Nat) : Nat := ((heldTiles s c acct o).filter fun t => decide (2 ^ 25 ≤ t)).length

/-- Scratch and tile-store tiles that a program takes: SCRATCH_TILES of scratch from `first` on, and tile-store tiles
that nobody holds beyond those held there already (DESIGN CHOICE, log 21). -/
def programTiles (s : State) (c : Fin 8) (acct : Nat) (o : Option Nat) (first : Nat) (b : Bytes) : List Nat × List Nat :=
  let scratch := (List.range (hdrScratch b)).map fun i => tileNo (scratchBase c) + first + i
  let base := tileNo (storeBase (c / 4))
  let free := ((List.range 1024).map (base + ·)).filter fun t => !(dirOf s t).granted && !s.repair.badTiles.contains t
  (scratch, free.take (hdrStore b - heldStore s c acct o))

/-- Is a data tile held for a session, or for none, of an account? -/
def heldFor (s : State) (acct : Nat) (o : Option Nat) (t : Nat) : Bool :=
  (dirOf s t).granted && (dirOf s t).account.toNat == acct && (dirOf s t).owner == o

/-- Is there room for the tiles of a program: its region in the scratch of its class, enough in the tile store, and
none of scratch that is no longer granted (R225)? -/
def storeRoom (s : State) (c : Fin 8) (acct : Nat) (o : Option Nat) (c0 : Bool) (b : Bytes) : Bool :=
  let tiles := programTiles s c acct o (regionTile s c c0) b
  decide (regionTile s c c0 + hdrScratch b ≤ 384) && decide (tiles.2.length + heldStore s c acct o ≥ hdrStore b)
    && tiles.1.all fun t => heldFor s acct o t || !s.repair.badTiles.contains t

/-- Grant a program its tiles, what another holds there sent away first (R241), and write its sections, whole words under
the account's tag (R106, R108). -/
def placeProgram (s : State) (c : Fin 8) (acct : Nat) (o : Option Nat) (first : Nat) (c0 : Bool) (b : Bytes) : State :=
  let s := fixPart s c
  let (scratch, store) := programTiles s c acct o first b
  let new := (scratch ++ store).filter fun t => !heldFor s acct o t
  let s := evictAll s (new.filter fun t => (dirOf s t).granted)
  let s := new.foldl (fun a t => grantTile a t acct c.val o c0) s
  let at_ (x : Section) : Nat := scratchBase c + first * tileBytes + x.load
  let xs := (sectionsOf b).filter fun x => inRegionTy x.ty
  let s := putSections s (xs.map fun x => (at_ x, sectBytes b x)) (tagOf s acct)
  (xs.flatMap fun x => tilesIn (at_ x) x.size).foldl (fun a t => setStale (setDir a t tdDirty) t) s

/-- Entry address of an image, in a region that begins at `base`. -/
def entryPc (base : Nat) (b : Bytes) : Nat :=
  base + ((sectionsOf b).getD (Bytes.le b 0x50 2) default).load + Bytes.le b 0x54 4

/-- A START entry (R97): command handle, pool address and length of the arguments. -/
def startEntry (h addr len : Nat) : List W32 := mkEntry 1 0 (toLe 8 h ++ toLe 8 addr ++ toLe 4 len)

/-- Start a program in a bank: its tiles and sections, its registers, its START entry. An idle core runs that bank at
once; a busy one is pre-empted (R241). -/
def startProgram (s : State) (c : Fin 8) (b : Bool) (im : Image) (p : Prog) (start : List W32) : State :=
  let first := regionTile s c b
  let p := { p with base := first * tileBytes }
  let s := placeProgram s c p.account (bankOwner s c b) first b im.bytes
  let s := onBankOf s c b fun k =>
    { k with prog := some p, pc := BitVec.ofNat 64 (entryPc p.base im.bytes), armedTiles := [], mboxIn := [], mboxInHeld := [] }
  let s := postBox s c b start
  let k := s.cores[c]
  let s := if k.useB ≠ b ∧ (bank k).prog.isNone ∧ k.tile.isNone ∧ k.switching.isNone then onCore s c fun k => { k with useB := b } else s
  if s.cores[c].useB = b then coreEvent (syncMbox s c) c 1 else s

/-- The core that an Execute Program uses: of the grant, or, for an account without a session, the lowest core from
`core` on that is in service and free. -/
def execCore (s : State) (i : Option Nat) (core : Fin 8) (b : Bool) : Option (Fin 8) :=
  match i with
  | some i =>
    match s.sess.get? i with
    | some x =>
      if bitOf x.grant.toNat core.val then some core else (List.finRange 8).find? fun c => bitOf x.grant.toNat c.val
    | none => none
  | none =>
    ((List.finRange 8).map fun k => coreIx (core.val + k.val)).find? fun c => !s.cores[c].retired && bankFree s.cores[c] b none

/-- The arguments of an Execute Program: pool address and length (log 21). -/
def argAddr (e : Sqe) : Nat := e.cdw12.toNat + 2 ^ 32 * e.cdw13.toNat
def argLen (e : Sqe) : Nat := e.cdw14.toNat

/-- Make ready a core and bank for a program: its session Hot with its context in the bank. None while the program
must wait. -/
def readyCore (s : State) (i : Option Nat) (core : Fin 8) (b : Bool) (acct : Nat) (im : Image) : State × Option (Fin 8) :=
  let s := match i with
    | some i => (makeHot s i).1
    | none => s
  match execCore s i core b with
  | none => (s, none)
  | some c =>
    if !bankFree s.cores[c] b i ∨ !storeRoom s c acct i b im.bytes then (s, none)
    else
      match i with
      | some i => (loadContext s c b i, some c)
      | none => (s, some c)

/-- Wait for the place that a command needs. -/
def holdExec (s : State) (e : Sqe) (opc : Nat) (waited : Bool) : State :=
  if s.held.any (·.e.key == e.key) then s
  else { s with held := s.held ++ [{ e := e, opc := opc, readDone := false, waited := waited }] }

/-- Does an earlier Class 0 command hold the core that a Class 0 program needs? -/
def class0Ahead (s : State) (i : Option Nat) (core : Fin 8) : Bool :=
  match execCore s i core true with
  | some c => !bankFree s.cores[c] true i
  | none => i.isNone

/-- The further conditions of a Class 0 tile dispatch (Table 10-7) and its tiles' fit (R250): no earlier Class 0
command on the core, the ceiling at 20,000 or less, and no context or tile to bring in. -/
def dispatchRow (s : State) (i : Option Nat) (c : Fin 8) (im : Image) (waited : Bool) : Bool :=
  let held := (bankOf s.cores[c] true).session == i && !((i.bind s.sess.get?).any fun x => !x.away.isEmpty)
  !waited && held && decide (dv s 0x402002 ≤ 20000) && decide (hdrScratch im.bytes ≤ partOf s c)

/-- Record the dispatch of a Class 0 program that runs outside the guarantee (R253); `s0` is the state at its dispatch. -/
def dispatchRecord (s0 s : State) (k : CmdKey) (i : Option Nat) (b : Bool) (c : Fin 8) (im : Image) (waited : Bool) : State × Bool :=
  if b then c0Record s k (dispatchRow s0 i c im waited) else (s, false)

/-- EXECUTE_PROGRAM (R277): the checks, then the start of the program, or the wait for its core. -/
def execBody (e : Sqe) (core : Fin 8) (waited : Bool) (s : State) : State :=
  let acct := acctOf e.fn
  match s.ctrls[e.fn].programs.get? (cdw10Lo e) with
  | none => fail s e.key Code.invalidField e.nsid
  | some im =>
    if e.fuse ≠ 0 ∨ !im.active then fail s e.key Code.invalidField e.nsid
    else if !keyOpen s acct then fail s e.key Code.accessDenied e.nsid
    else if argLen e ≠ 0 ∧ !poolGranted s acct (argAddr e) (argLen e) then fail s e.key Code.accessDenied e.nsid
    else
      let b := queueClass s e.key == 0
      let i := execSession s acct b
      let s0 := s
      match readyCore s i core b acct im with
      | (s, none) => holdExec s e kindExecute (waited || (b && class0Ahead s i core))
      | (s, some c) =>
        let (s, outside) := dispatchRecord s0 s e.key i b c im waited
        let s := match i with
          | some i => joinSession s e.key i
          | none => s
        let fl := flightSession s acct
        let arg := Bytes.sub e.inp 0 (min e.inp.length (argLen e))
        let seed := ((flightOf s e.key).map (·.seed)).getD 0
        let p : Prog := { account := acct, fn := e.fn, index := cdw10Lo e, handle := some e.key, seed := seed }
        let p : Prog := { p with e := e, imageHash := im.hash, flight := fl, inp := arg, outside := outside }
        let s := (poolPut s none (argAddr e) arg (tagOf s acct)).1
        startProgram s c b im p (startEntry (handleOf e.key) (argAddr e) (argLen e))

/-! ### The memory namespace of a controller (R278) -/

def opMemCopy : Nat := 0x101
def opMemRead : Nat := 0x102
def opMemWrite : Nat := 0x105

/-- Byte offset and length that a memory command names (PRESUMED, log 14). -/
def slmAddr (e : Sqe) : Nat := e.cdw10.toNat + 2 ^ 32 * e.cdw11.toNat
def slmLen (e : Sqe) : Nat := e.cdw12.toNat

/-- The format of the memory range that holds an address, 0xF where none does. -/
def rangeFmt (s : State) (fn : Fin 128) (a : Nat) : BitVec 4 :=
  ((s.ctrls[fn].ranges.find? fun r => decide (r.start ≤ a) && decide (a < r.start + r.len)).map (·.fmt)).getD 0xF

/-- Status of a read that returns no data (Table 9-3). -/
def readCode : Check.Outcome → Code
  | .uncorrectable => Code.unrecoveredRead
  | _ => Code.accessDenied

/-- The records of pool tiles that a host command wrote (R221). -/
def hostWrote (s : State) (fn : Fin 128) (a n : Nat) : State :=
  (tilesIn a n).foldl (fun s t =>
    { s with maxRec := s.maxRec.upd t {} fun r => { r with fmt := rangeFmt s fn (max a (t * tileBytes)), stale := true } }) s

end Sys2Proof.Machine
end

