-- ==== Sys2Proof/Machine/AcctOps.lean ====
section
/-! DEFINITION. Accounts: binding and its tag (R210), the unbinding of R377, the tag quarantine (R224), the deletion of
an account's data, the tenant keys (R374, R376) and a TDI's entry to ERROR (R384). -/

namespace Sys2Proof.Machine

/-! ### Tags -/

/-- Tag number `n` of a tenant key: the 16 most significant bits of HMAC-SHA-384 over the counter (R210; the byte order
of the counter is R4's). -/
def tagNumber (tk : Bytes) (n : Nat) : Nat :=
  let h := Crypto.hmac tk (toLe 4 n)
  (h.headD 0).toNat * 256 + ((h.drop 1).headD 0).toNat

/-- Is a tag free: neither held nor in quarantine (R210)? -/
def tagFree (s : State) (t : Nat) : Bool :=
  decide (0x10 ≤ t) && !(s.accounts.toList.any fun a => a.bound && a.tag.toNat == t)
    && !(s.repair.quarantine.any fun q => q.1 == t)

/-- The first free tag of a key from a counter value on. -/
def firstTag (s : State) (tk : Bytes) (n : Nat) : Nat → Option Nat
  | 0 => none
  | k + 1 => let t := tagNumber tk n; if tagFree s t then some t else firstTag s tk (n + 1) k

/-- Free tags (0x6091.03). -/
def freeTags (s : State) : Nat :=
  0xFFF0 - (s.accounts.toList.filter (·.bound)).length - s.repair.quarantine.length

/-- The function of an account. -/
def fnOf (a : Nat) : Option (Fin 128) := if a = 0 then none else finOf? 128 (a - 1)

/-- May an account be bound now (R374, R377, R384)? -/
def bindable (s : State) (a : Nat) : Bool :=
  match fnOf a with
  | none => false
  | some f => s.ctrls[f].enabled && keyOpen s a && !s.accounts[acctIx a].bound

/-- Pool scrubbing speeds up while fewer than 1,024 tags are free (R224). -/
def judgeScrub (s : State) : State := { s with repair := { s.repair with scrubFast := decide (freeTags s < 1024) } }

/-- Load the pool copies of an account's tables and indexes under its tag (R177, R211, R213). -/
def reloadPool (s : State) (a : Nat) : State :=
  let s := ((s.tables.filter fun p => p.2.account == a).map (·.1)).foldl loadTable s
  ((s.indexes.filter fun p => p.2.account == a).map (·.1)).foldl loadCodes s

/-- Bind an account: it takes a tag and its record is cleared (R210, R247); with no free tag it waits (R224). -/
def bindAccount (s : State) (a : Nat) : State :=
  if !bindable s a then s
  else
    match firstTag s s.accounts[acctIx a].tk 0 (2 ^ 32) with
    | some t =>
      let s := onAcct s (acctIx a) fun x => { x with bound := true, bindWait := false, tag := BitVec.ofNat 16 t, acct := [] }
      reloadPool (judgeScrub s) a
    | none => onAcct s (acctIx a) fun x => { x with bindWait := true }

/-- Put an account's tag in quarantine (R224): with the passes that every array has ended so far. -/
def quarantineTag (s : State) (a : Nat) : State :=
  let x := s.accounts[acctIx a]
  if !x.bound then s
  else
    let s := { s with repair := { s.repair with quarantine := s.repair.quarantine ++ [(x.tag.toNat, s.repair.passes)] } }
    judgeScrub (onAcct s (acctIx a) fun x => { x with bound := false, tag := 0 })

/-! ### Deletion of data -/

/-- Delete an ingest binding: its program ends with the segment it works on. -/
def dropIngest (s : State) (i : Nat) : State :=
  { endBinding s i with ingests := s.ingests.filter (·.index != i) }

/-- Delete an index: its bindings and its record go. -/
def dropIndex (s : State) (i : Nat) : State :=
  let s := dropIngest s i
  { s with indexes := s.indexes.del i, queries := s.queries.filter (·.index != i)
           queryWait := s.queryWait.filter (·.index != i) }

/-- Delete a namespace with everything that lives in it, whatever its role (R376). -/
def dropNs (s : State) (nsid : Nat) : State :=
  let s := ((s.sess.filter fun p => p.2.kvNsid == nsid).map (·.1)).foldl dropSession s
  let s := ((s.indexes.filter fun p => p.2.nsid == nsid).map (·.1)).foldl dropIndex s
  let s := ((s.ingests.filter fun g => g.srcNs == nsid).map (·.index)).foldl dropIngest s
  let tabs : Tab Table := s.tables.keep fun _ t => t.nsid != nsid
  let s := wipeNs { s with tables := tabs } nsid
  { s with nss := s.nss.del nsid }

/-- Namespaces of an account. -/
def nssOf (s : State) (a : Nat) : List Nat := (s.nss.filter fun p => p.2.account == a).map (·.1)

/-- Delete all that an account keeps on the module (R376). -/
def dropAccountData (s : State) (a : Nat) : State :=
  let s := (nssOf s a).foldl dropNs s
  let s := match fnOf a with
    | some f => (s.ctrls[f].programs.map (·.1)).foldl (fun x i => unloadImage x f i) s
    | none => s
  onAcct s (acctIx a) fun x => { x with closedRecs := [], probes := [] }

/-! ### Tenant keys -/

/-- The tenant key and the verifier of a secret (R374). -/
def tenantKey (secret : Bytes) : Bytes := Crypto.hkdf saltZero secret (sealInfo "KGA tenant key v1") 32
def tenantVerifier (secret : Bytes) : Bytes := Crypto.hkdf saltZero secret (sealInfo "KGA tenant verify v1") 32

/-- A new tenant key in a mode (R374, R376): the key of a claim is OPEN (DEDUCED: the example of R382 imports after a
TK_CLAIM with no TK_UNLOCK). The count of mismatches stands until the next start-up or TK_UNLOCK (R375). -/
def newTk (s : State) (a : Nat) (mode1 : Bool) (secret : Bytes) : State :=
  if mode1 then
    onAcct s (acctIx a) fun x =>
      { x with mode1 := true, opened := true, tk := tenantKey secret, verifier := tenantVerifier secret }
  else
    let k := Bytes.sub (Config.randomBytes s.free) 0 32
    onAcct { s with free := s.free + 1 } (acctIx a) fun x =>
      { x with mode1 := false, opened := true, tk := k, verifier := [] }

/-! ### SPDM endpoints -/

/-- Key of an endpoint in `spdm`. -/
def epKey : Endpoint → Nat
  | .doe f => f.val
  | .mctp => 128
  | .nvme f => 256 + f.val

/-- Record the response of an endpoint. -/
def respond (s : State) (ep : Endpoint) (b : Bytes) : State :=
  { s with spdm := s.spdm.upd (epKey ep) {} fun x => { x with resp := b } }

/-- The response to a TK message (R375): KOP, RESULT, the fields. -/
def tkReply (s : State) (f : Fin 128) (kop result : Nat) (fields : Bytes) : State :=
  respond s (.doe f) (toLe 2 kop ++ toLe 2 result ++ fields)

/-! ### Unbinding (R377) -/

/-- Step 1: new commands that need the account's keys are refused. -/
def startLock (s : State) (a : Nat) (claim : Option (Bool × Bytes)) : State :=
  onAcct s (acctIx a) fun x => { x with locking := true, claim := if claim.isSome then claim else x.claim, bindWait := false }

/-- Does an account still have commands in progress, or a program that runs to the end of its tile? -/
def acctBusy (s : State) (a : Nat) : Bool :=
  let runs (b : Bank) : Bool := (b.prog.map fun p => p.account == a && p.binding.isNone).getD false
  running s (fun k => acctOf k.fn == a && !(s.fw.waitCommit == some k)) != []
    || s.cores.toList.any fun k => runs k.bankA || runs k.bankB

/-- The segment that an ingest binding works on goes back to the head of its queue. -/
def returnSegment (s : State) (g : Ingest) : State :=
  match g.current with
  | some seg => onIngest (endBinding s g.index) g.index fun g => { g with current := none, queue := seg :: g.queue }
  | none => s

/-- Steps 3 to 6, then what waited for them: a claim's deletion and new key, and a new binding where it may be. -/
def finishLock (s : State) (a : Nat) : State :=
  let x := s.accounts[acctIx a]
  if !x.locking || acctBusy s a then s
  else
    let s := (s.ingests.filter fun g => g.account == a).foldl returnSegment s
    let s := ((s.sess.filter fun p => p.2.account == a).map (·.1)).foldl makeCold s
    let s := (List.finRange 48).foldl (fun t c =>
      if t.channels[c].unit.any fun i => ((t.slots.get? i).map fun b => b.account == a).getD false then destage t c true
      else t) s
    let s := quarantineTag s a
    let s := onAcct s (acctIx a) fun x =>
      { x with locking := false, claim := none, waitKop := 0, opened := x.opened && !x.mode1, tk := if x.mode1 then [] else x.tk }
    let s := match x.claim with
      | some (mode1, secret) => newTk (dropAccountData s a) a mode1 secret
      | none => s
    let s := bindAccount s a
    match fnOf a with
    | some f => if x.waitKop = 0 then s else tkReply s f x.waitKop 0 []
    | none => s

/-- Every unbinding that may end does. -/
def finishLocks (s : State) : State := (List.range 129).foldl finishLock s

/-- A TDI in CONFIG_LOCKED or RUN goes to ERROR (R384): its controller acts as at a controller reset, its account is
unbound. -/
def tdiError (s : State) (f : Fin 128) : State :=
  let a := acctOf f
  match s.accounts[acctIx a].tdi with
  | .configLocked | .run =>
    startLock (resetController (onAcct s (acctIx a) fun x => { x with tdi := .error }) f) a none
  | _ => s

/-- Enable or disable a function (R258, R374, R377). -/
def enableFunction (s : State) (f : Fin 128) (on : Bool) : State :=
  let a := acctOf f
  if s.ctrls[f].enabled = on then s
  else if on then bindAccount (onCtrl s f fun c => { c with enabled := true, qpairs := offeredPairs s f }) a
  else startLock (onCtrl (resetFunction s f) f fun c => { c with enabled := false }) a none

end Sys2Proof.Machine
end

