-- ==== Sys2Proof/Machine/CfOps.lean ====
section
/-! DEFINITION. The pilot code flash: its write state machine, its operations and their end, reads, region
protection, reset, and what the boot ROM does with it (14, R340 to R354). -/

namespace Sys2Proof.Machine

def cfBase : Nat := 0x20000000
def cfBytes : Nat := 8388608
def cfSector : Nat := 4096
def cfBlock : Nat := 65536

/-- The array offset of an address, where the array has it. -/
def cfOffset (a : Nat) : Option Nat := if cfBase ≤ a ∧ a < cfBase + cfBytes then some (a - cfBase) else none

/-- Bytes of the array: an erased byte is 0xFF. -/
def cfRead (s : State) (off n : Nat) : Bytes := s.cf.arr.gets 0xFF off n

/-- The sectors of the target of an erase. -/
def cfSectors (block : Bool) (off : Nat) : List Nat :=
  if block then (List.range 16).map fun i => off / cfBlock * 16 + i else [off / cfSector]

/-- Is a sector covered by a region that sets the bit `b` (1 XO, 2 WP; R350)? -/
def cfCovered (s : State) (b sector : Nat) : Bool :=
  s.cf.rgn.toList.any fun r =>
    let v := r.toNat
    bitOf v 0 && bitOf v b && decide (fieldOf v 18 8 ≤ sector) && decide (sector ≤ fieldOf v 29 19)

/-- Count a refusal for self-operation (R348). -/
def cfSelfOp (s : State) : State :=
  bump 0x613003 1 (onCf s fun f => { f with seq := [], selfOp := true })

/-- A write that does not fit: ignored, with SEQ_ERR (R343); a sequence entered in part is abandoned. -/
def cfBreak (s : State) : State := onCf s fun f => { f with seq := [], seqErr := true }

/-- Is an operation active (R341)? -/
def cfActive (s : State) : Bool := s.cf.op != .idle

/-- Does an offset lie in the target of the suspended erase, or in the word of the suspended program (R347)? -/
def cfSuspendedAt (s : State) (off : Nat) : Bool :=
  (match s.cf.suspErase with
    | some (block, o) => (cfSectors block o).contains (off / cfSector)
    | none => false) ||
  (match s.cf.suspProg with
    | some (o, _) => o / 4 == off / 4
    | none => false)

/-- Start a program (R344, R346, R347). While a program is suspended, and on the target of a suspended erase, it is refused as a
write that does not fit (DESIGN CHOICE, log 74: the spec names no refusal). -/
def cfStartProgram (s : State) (off : Nat) (data : W32) : State :=
  let s := onCf s fun f => { f with seq := [] }
  if s.cf.suspProg.isSome || cfSuspendedAt s off then cfBreak s
  else if cfCovered s 2 (off / cfSector) then onCf s fun f => { f with protErr := true }
  else if cfRead s off 4 ≠ [0xFF, 0xFF, 0xFF, 0xFF] then onCf s fun f => { f with prgErr := true }
  else onCf s fun f => { f with op := .program, opAddr := off, opData := data }

/-- Start an erase (R344, R346, R352). While a program is suspended it is refused as while an erase is (DESIGN CHOICE, log 74). -/
def cfStartErase (s : State) (block : Bool) (off : Nat) : State :=
  let s := onCf s fun f => { f with seq := [] }
  let l := cfSectors block off
  if s.cf.suspErase.isSome || s.cf.suspProg.isSome then cfBreak s
  else if l.any (cfCovered s 2) then onCf s fun f => { f with protErr := true }
  else
    onCf s fun f =>
      { f with op := if block then .blockErase else .sectorErase, opAddr := off
               flags := l.foldl (fun v n => v ||| BitVec.ofNat 2048 (2 ^ n)) f.flags }

/-- Reads that waited for the array are served in order (R341, R347): each answers the word read, or a bus error. -/
def cfServe (s : State) (off : Nat) (fetch : Bool) : State :=
  if cfSuspendedAt s off then onCf s fun f => { f with suspRd := true, lastRead := none }
  else if !fetch && cfCovered s 1 (off / cfSector) then onCf s fun f => { f with xoErr := true, lastRead := none }
  else
    let w := BitVec.ofNat 32 (leNat (cfRead s (off / 4 * 4) 4))
    if s.cf.cut.contains (off / 4) then
      let (r, s) := fresh s
      onCf s fun f => { f with lastRead := if r % 2 = 0 then none else some w }
    else onCf s fun f => { f with lastRead := some w }

/-- Serve every read that waits. -/
def cfServeAll (s : State) : State :=
  s.cf.readWait.foldl (fun a r => cfServe a r.1 r.2) (onCf s fun f => { f with readWait := [] })

/-- The Suspend write (R343, R347). -/
def cfSuspend (s : State) : State :=
  match s.cf.op with
  | .idle => cfBreak s
  | .program =>
    if s.cf.suspErase.isSome then cfBreak s
    else cfServeAll (onCf s fun f => { f with op := .idle, suspProg := some (f.opAddr, f.opData) })
  | .sectorErase => cfServeAll (onCf s fun f => { f with op := .idle, suspErase := some (false, f.opAddr) })
  | .blockErase => cfServeAll (onCf s fun f => { f with op := .idle, suspErase := some (true, f.opAddr) })

/-- The Resume write (R343, R347). -/
def cfResume (s : State) : State :=
  match s.cf.suspProg, s.cf.suspErase with
  | some (o, d), _ => onCf s fun f => { f with op := .program, opAddr := o, opData := d, suspProg := none }
  | none, some (block, o) =>
    onCf s fun f => { f with op := if block then .blockErase else .sectorErase, opAddr := o, suspErase := none }
  | none, none => cfBreak s

def cfUnlock1 : Nat := 0x20005554
def cfUnlock2 : Nat := 0x20002AA8

/-- Does a write fit a place of the sequence entered so far (Table 14-2)? -/
def cfFits (seq : List (W32 × W32)) (a v : Nat) : Bool :=
  match seq with
  | [] => a == cfUnlock1 && v == 0xAA
  | [_] => a == cfUnlock2 && v == 0x55
  | [_, _] => a == cfUnlock1 && (v == 0xA0 || v == 0x80)
  | [_, _, _] => a == cfUnlock1 && v == 0xAA
  | [_, _, _, _] => a == cfUnlock2 && v == 0x55
  | _ => false

/-- The code of cycle 3 of the sequence entered so far. -/
def cfThird (seq : List (W32 × W32)) : Nat := ((seq[2]?).map (·.2.toNat)).getD 0

/-- One write into the array's address range by the management core (R342, R343). -/
def cfWrite (s : State) (wide : Bool) (addr data : W32) : State :=
  match cfOffset addr.toNat with
  | none => s
  | some off =>
    let seq := s.cf.seq
    let v := data.toNat
    if !wide then if seq = [] then s else cfBreak s
    else if cfActive s then if v = 0xB0 then cfSuspend s else cfBreak s
    else if seq.length = 3 ∧ cfThird seq = 0xA0 then if off % 4 = 0 then cfStartProgram s off data else cfBreak s
    else if seq.length = 5 ∧ v = 0x30 then cfStartErase s false off
    else if seq.length = 5 ∧ v = 0x50 then cfStartErase s true off
    else if cfFits seq addr.toNat v then onCf s fun f => { f with seq := seq ++ [(addr, data)] }
    else if v = 0xF0 then onCf s fun f => { f with seq := [] }
    else if seq ≠ [] then cfBreak s
    else if v = 0xB0 then cfSuspend s
    else if v = 0x30 then cfResume s
    else s

/-- A sequence that opens with the unlock write (R342, R348): as much of it as was written. A write by another master than the
management core is refused with a bus error and changes nothing (R341). -/
def cfSequence (s : State) (ctx : CfCtx) (writes : List (W32 × W32)) : State :=
  match if ctx.core then writes.take ctx.cycles else [] with
  | [] => s
  | w :: t =>
    if ctx.fromArray && !cfActive s then cfSelfOp s
    else
      let s := cfWrite s ctx.wide w.1 w.2
      if ctx.fetchBetween && s.cf.seq != [] then cfSelfOp s
      else t.foldl (fun a x => cfWrite a ctx.wide x.1 x.2) s

/-- The first five cycles of an erase. -/
def cfErasePrefix : List (W32 × W32) :=
  [(0x20005554, 0xAA), (0x20002AA8, 0x55), (0x20005554, 0x80), (0x20005554, 0xAA), (0x20002AA8, 0x55)]

/-- One write of a command of one cycle. -/
def cfSingle (s : State) (ctx : CfCtx) (addr : W32) (code : W32) : State :=
  if ctx.cycles = 0 ∨ !ctx.core then s else cfWrite s ctx.wide addr code

/-- Bytes of a range become undefined (R353, R344). -/
def cfUndefine (s : State) (off n : Nat) : State :=
  let k := s.free
  let s := { s with free := s.free + 1 }
  onCf s fun f =>
    { f with arr := f.arr.puts 0xFF off ((List.range n).map fun i => Config.cfUndefined (k * 2 ^ 23 + off + i)) }

/-- Erase sectors: their bytes, their flags, their counts. -/
def cfErased (s : State) (l : List Nat) : State :=
  onCf s fun f =>
    { f with arr := l.foldl (fun m n => m.clear (n * cfSector) cfSector) f.arr
             flags := l.foldl (fun v n => v &&& ~~~(BitVec.ofNat 2048 (2 ^ n))) f.flags
             erases := l.foldl (fun t n => t.upd n 0 (· + 1)) f.erases
             cut := f.cut.filter fun w => !(l.contains (w / 1024)) }

/-- Program bytes into the array. -/
def cfProgram (s : State) (off : Nat) (b : Bytes) : State := onCf s fun f => { f with arr := f.arr.puts 0xFF off b }

/-- The active operation ends (R344, R346): `ok` says that it verified. -/
def cfEnd (s : State) (ok : Bool) : State :=
  let f := s.cf
  let l := cfSectors (f.op == .blockErase) f.opAddr
  match f.op with
  | .idle => s
  | .program =>
    let s := if ok then cfProgram s f.opAddr (toLe 4 f.opData.toNat) else cfUndefine s f.opAddr 4
    cfServeAll (onCf s fun g => { g with op := .idle, done := true, prgErr := g.prgErr || !ok })
  | _ =>
    let s := cfErased s l
    let s := if ok then s else l.foldl (fun a n => cfUndefine a (n * cfSector) cfSector) s
    cfServeAll (onCf s fun g => { g with op := .idle, done := true, ersErr := g.ersErr || !ok })

/-- OP_ADDR: the target of the active operation, else of a suspended one; with none, 0. -/
def cfOpAddr (f : CodeFlash) : Nat :=
  if f.op != .idle then f.opAddr
  else match f.suspProg, f.suspErase with
    | some (o, _), _ => o
    | none, some (_, o) => o
    | none, none => 0

/-- PD_CF_STATUS (Table 14-3). -/
def cfStatus (s : State) : Nat :=
  let f := s.cf
  let b (x : Bool) (i : Nat) : Nat := if x then 2 ^ i else 0
  b (cfActive s) 0 + b f.suspErase.isSome 1 + b f.suspProg.isSome 2
    + b (f.suspErase.isSome || f.op == .sectorErase || f.op == .blockErase) 3
    + b f.done 4 + b f.seqErr 5 + b f.selfOp 6 + b f.protErr 7 + b f.prgErr 8 + b f.ersErr 9 + b f.suspRd 10
    + b f.xoErr 11
    + ((List.range 2048).filter fun n => bitOf f.flags.toNat n).length % 4096 * 2 ^ 16 + cfOpAddr f * 2 ^ 32

/-- Does the code flash interrupt the management core (R345)? -/
def cfIrq (s : State) : Bool := decide (cfStatus s &&& s.cf.inten.toNat ≠ 0)

/-- A write of PD_CF_STATUS: bits set in bits [11:4] clear (R345). -/
def cfStatusWrite (s : State) (v : Nat) : State :=
  let keep (x : Bool) (i : Nat) : Bool := x && !bitOf v i
  onCf s fun f =>
    { f with done := keep f.done 4, seqErr := keep f.seqErr 5, selfOp := keep f.selfOp 6, protErr := keep f.protErr 7
             prgErr := keep f.prgErr 8, ersErr := keep f.ersErr 9, suspRd := keep f.suspRd 10
             xoErr := keep f.xoErr 11 }

/-- A write of PD_CF_INTEN: bits [11:4] (R345). -/
def cfIntenWrite (s : State) (v : Nat) : State := onCf s fun f => { f with inten := BitVec.ofNat 12 (v / 16 % 256 * 16) }

/-- A write of a region descriptor, which a locked one ignores (R350). -/
def cfRegionSet (s : State) (i : Fin 8) (v : W64) : State :=
  if bitOf s.cf.rgn[i].toNat 3 then s else onCf s fun f => { f with rgn := upd f.rgn i fun _ => v }

/-- A pilot core reset, or a power loss: an operation, active or suspended, is abandoned with its target undefined,
and every descriptor, status bit and enable takes its default (R350, R353). -/
def cfReset (s : State) : State :=
  let f := s.cf
  let progs := (if f.op == .program then [f.opAddr] else []) ++ (f.suspProg.map (·.1)).toList
  let ers := (if f.op == .sectorErase then [(false, f.opAddr)] else if f.op == .blockErase then [(true, f.opAddr)] else [])
    ++ f.suspErase.toList
  let s := progs.foldl (fun a o => cfUndefine a o 4) s
  let s := (ers.flatMap fun x => cfSectors x.1 x.2).foldl (fun a n => cfUndefine a (n * cfSector) cfSector) s
  onCf s fun g =>
    { arr := g.arr, flags := g.flags, erases := g.erases, cut := g.cut ++ progs.map (· / 4) }

/-- The boot ROM erases again every sector whose flag is set (R353). -/
def cfRedo (s : State) : State :=
  let l := (List.range 2048).filter fun n => bitOf s.cf.flags.toNat n
  bump 0x613001 l.length (cfErased s l)

/-- A region descriptor value with EN, LOCK and the given bits. -/
def cfRegion (bits base limit : Nat) : W64 := BitVec.ofNat 64 (1 + 8 + bits + base * 2 ^ 8 + limit * 2 ^ 19)

/-- The boot ROM sets the regions (R351): the image area and the factory block with WP, the XO ranges of the header. -/
def cfRegions (s : State) : State :=
  let n := (cfRead s 0x60 1 |> leNat)
  let xo (i : Nat) : W64 :=
    if i < n then cfRegion 2 (leNat (cfRead s (0x80 + 4 * i) 2)) (leNat (cfRead s (0x82 + 4 * i) 2)) else 0
  let r : Vector W64 8 := #v[cfRegion 4 0 1967, cfRegion 4 2032 2047, xo 0, xo 1, xo 2, xo 3, xo 4, xo 5]
  onCf s fun f => { f with rgn := r }

/-- Write bytes of an image into the array, block by block, the header last; blocks of the old image beyond it are
erased (R358 step 3). -/
def cfWriteImage (s : State) (img : Bytes) (oldLen : Nat) : State :=
  let n := max (ceilDiv img.length cfBlock) (ceilDiv oldLen cfBlock)
  let s := cfErased s (List.range (16 * n))
  cfProgram s 0 img

end Sys2Proof.Machine
end

