-- ==== Sys2Proof/Machine/FwOps.lean ====
section
/-! DEFINITION. Firmware images: their checks (R365, R366), staging (R355 to R357), activation (R358), and the start of
pilot firmware (R364, R367, R373, R391). -/

namespace Sys2Proof.Machine

def imageMax : Nat := 8060928

/-! ### The image checks of Table 15-4 -/

/-- Fields of an image header (Table 15-3). -/
def imgSize (b : Bytes) : Nat := Bytes.le b 0x008 4
def imgSvn (b : Bytes) : Nat := Bytes.le b 0x00E 2
def imgVersion (b : Bytes) : Bytes := Bytes.sub b 0x010 32
def imgHash (b : Bytes) : Bytes := Bytes.sub b 0x030 48
def imgXo (b : Bytes) (i : Nat) : Nat × Nat := (Bytes.le b (0x080 + 4 * i) 2, Bytes.le b (0x082 + 4 * i) 2)
def imgComp (b : Bytes) (i : Nat) : Nat × Nat := (Bytes.le b (0x100 + 64 * i) 4, Bytes.le b (0x104 + 64 * i) 4)
def imgCompHash (b : Bytes) (i : Nat) : Bytes := Bytes.sub b (0x110 + 64 * i) 48

/-- Zeros in place of a range of bytes. -/
def zeroed (b : Bytes) (off n : Nat) : Bytes := b.take off ++ List.replicate n 0 ++ b.drop (off + n)

/-- Are bytes of a range all zero? -/
def allZero (b : Bytes) (off n : Nat) : Bool := (Bytes.sub b off n).all (· == 0)

/-- Check 0x01. -/
def imgFormOk (b : Bytes) : Bool :=
  Bytes.le b 0 4 == 0x5746474B && Bytes.le b 4 2 == 1 && Bytes.le b 0x00C 2 == 0x4832
    && decide (131072 ≤ imgSize b) && decide (imgSize b ≤ imageMax) && imgSize b % 4 == 0
    && allZero b 0x061 31 && allZero b 0x098 104 && (List.range 4).all fun i => allZero b (0x108 + 64 * i) 8

/-- Check 0x02: the components in order, the XO entries. An entry at or above XO_COUNT is zero (DEDUCED: "XO entries are
below XO_COUNT"). -/
def imgLayoutOk (b : Bytes) : Bool :=
  let c := (List.range 4).map (imgComp b)
  let n := Bytes.le b 0x060 1
  let rec ordered : Nat → List (Nat × Nat) → Bool
    | _, [] => true
    | lo, x :: t => decide (lo ≤ x.1) && x.1 % 4096 == 0 && decide (x.1 + x.2 ≤ imgSize b) && ordered (x.1 + x.2) t
  ordered 0x10000 c && decide (n ≤ 6) && (List.range 6).all fun i =>
    let x := imgXo b i
    if i < n then decide (16 ≤ x.1) && decide (x.1 ≤ x.2) && decide (x.2 ≤ 1967) else x == (0, 0)

/-- Check 0x03. -/
def imgHashOk (b : Bytes) : Bool :=
  let img := Bytes.sub b 0 (imgSize b)
  Crypto.sha384 (zeroed (zeroed img 0x030 48) 0x200 768) == imgHash b
    && (List.range 4).all fun i =>
      let x := imgComp b i
      Crypto.sha384 (Bytes.sub b x.1 x.2) == imgCompHash b i

/-- Fields of signature slot `i`. -/
def sigIndex (b : Bytes) (i : Nat) : Nat := Bytes.le b (0x200 + 0x100 * i) 1
def sigPresent (b : Bytes) (i : Nat) : Bool := Bytes.le b (0x201 + 0x100 * i) 1 == 1
def sigKey (b : Bytes) (i : Nat) : Bytes := Bytes.sub b (0x208 + 0x100 * i) 96
def sigValue (b : Bytes) (i : Nat) : Bytes := Bytes.sub b (0x268 + 0x100 * i) 96

/-- Does the signature of a slot verify? -/
def sigVerifies (b : Bytes) (i : Nat) : Bool :=
  Config.ecdsaVerify (sigKey b i) (Crypto.sha384 (Bytes.sub b 0 0x200)) (sigValue b i)

/-- Check 0x04. -/
def imgVendorOk (s : State) (b : Bytes) : Bool :=
  let k := sigIndex b 0
  sigPresent b 0 && decide (k ≤ 3) && Crypto.sha384 (sigKey b 0) == Config.bootKeyHash k
    && !bitOf s.store.revoked.toNat k && sigVerifies b 0

/-- The enrolled owner key of a slot, as its hash (R368). -/
def ownerKey (s : State) (slot : Nat) : Option Bytes :=
  if slot = 0 then s.store.owner0 else if slot = 1 then s.store.owner1 else none

/-- Valid owner signatures of an image (check 0x05): slots that name distinct enrolled keys. -/
def ownerSigs (s : State) (b : Bytes) : Nat :=
  let ok (i : Nat) : Bool := sigPresent b i && ownerKey s (sigIndex b i) == some (Crypto.sha384 (sigKey b i)) && sigVerifies b i
  if ok 1 && ok 2 then (if sigIndex b 1 = sigIndex b 2 then 0 else 2) else if ok 1 || ok 2 then 1 else 0

/-- The reason of the first check of Table 15-4 that fails. -/
def fwReason (s : State) (b : Bytes) : Option Nat :=
  if !imgFormOk b then some 1
  else if !imgLayoutOk b then some 2
  else if !imgHashOk b then some 3
  else if !imgVendorOk s b then some 4
  else if ownerSigs s b < s.store.quorum then some 5
  else if imgSvn b < s.store.fwFloor then some 6
  else none

/-- A failed image check is counted and recorded (R366): path 0 Commit, 1 boot, 2 replica, 3 recovery. -/
def fwFailed (s : State) (w : Who) (reason path : Nat) : State :=
  logEvent (bump 0x614002 1 s) diePilot 0x000A w (toLe 1 reason ++ toLe 1 path)

/-! ### Download and staging -/

/-- A piece enters the download buffer (R355, R412). -/
def fwDownload (s : State) (off : Nat) (b : Bytes) : State :=
  onFw s fun w => { w with buf := w.buf.puts 0 off b, bufLen := max w.bufLen (off + b.length), fresh := true }

/-- The image in the download buffer. -/
def fwImage (s : State) : Bytes := s.fw.buf.gets 0 0 s.fw.bufLen

/-- Stage the downloaded image with a STATE (R355); answers the reason where a check fails. Which flash addresses the replicas
lie at is free (the spec does not say, log 74). -/
def fwStage (s : State) (w : Who) (path state : Nat) : State × Option Nat :=
  let b := fwImage s
  match fwReason s b with
  | some r => (fwFailed s w r path, some r)
  | none =>
    let img := Bytes.sub b 0 (imgSize b)
    let st : Stage := { state := state, size := imgSize b, hash := imgHash b, replicas := [img, img, img], version := imgVersion b
                        addrs := (List.range 3).map fun i => Config.freeNat (s.free + i) % 2 ^ 64 }
    (onFw { s with free := s.free + 3 } fun x => { x with stage := st, fresh := false }, none)

/-- Set STATE of the stage record (R356). -/
def setStage (s : State) (n : Nat) : State := onFw s fun w => { w with stage := { w.stage with state := n } }

/-- Stage with STATE 2, as Commit CA 0b011 does: an image already staged with STATE 4 is taken when nothing has been
downloaded since (R357). -/
def fwStageActivate (s : State) (w : Who) (path : Nat) : State × Option Nat :=
  if s.fw.stage.state = 4 ∧ !s.fw.fresh then (setStage s 2, none) else fwStage s w path 2

/-! ### The start of pilot firmware -/

/-- A reset of the pilot management core: the code flash's operation is abandoned, RW objects take their defaults,
staged values and kept responses are lost (R350, R353, R391, R393). -/
def pilotReset (s : State) : State :=
  let vals : Tab Nat := s.dict.vals.keep fun id _ => (Dic.find id).all fun o => o.acc != 1
  onDict (cfReset s) fun d => { d with vals := vals, staged := [], kept := [] }

/-- A new boot nonce (R405). -/
def newNonce (s : State) (n : W64) : State := onDict s fun d => { d with nonce := n, lastSeq := 0 }

/-- A random nonce. -/
def drawNonce (s : State) : State :=
  newNonce { s with free := s.free + 1 } (BitVec.ofNat 64 (leNat (Bytes.sub (Config.randomBytes s.free) 0 8)))

/-- Pilot firmware starts: a fresh alias key pair and boot nonce (R364, R405). -/
def pilotStart (s : State) (n : W64) : State :=
  let s := newNonce s n
  { s with store := { s.store with alias_ := s.store.alias_ + 1 }, fw := { s.fw with pilotUp := true } }

/-- Firmware of an image is what runs: what is measured (R372). -/
def runImage (s : State) (img : Bytes) : State :=
  onFw s fun w =>
    { w with version := imgVersion img, svn := imgSvn img, resident := (List.range 4).flatMap (imgCompHash img) }

/-- Boot keys below the image's KEY_INDEX are revoked where REVOKE_BELOW is set (R367). -/
def revokeBelow (old : BitVec 8) (img : Bytes) : BitVec 8 :=
  if bitOf (Bytes.le img 6 2) 0 then old ||| BitVec.ofNat 8 (2 ^ sigIndex img 0 - 1) else old

/-- Pilot firmware first starts from a new image: the anti-rollback counters advance (R367). -/
def adoptImage (s : State) (img : Bytes) : State :=
  runImage { s with store := { s.store with
    fwFloor := max s.store.fwFloor (imgSvn img), revoked := revokeBelow s.store.revoked img } } img

/-- Bytes of the image in the code flash. -/
def flashImage (s : State) : Bytes := cfRead s 0 (min imageMax (leNat (cfRead s 8 4)))

/-- The writer of R358 steps 3 to 5: from the first replica that reads back right. None where no replica does. -/
def writeIn (s : State) (replicaOk : List Bool) : Option (State × Bytes) :=
  let good := (s.fw.stage.replicas.zip replicaOk).filter (·.2)
  match good with
  | (img, _) :: _ => some (setStage (cfRegions (cfWriteImage s img (flashImage s).length)) 1, img)
  | [] => none

/-- Boot ROM recovery (R360): no pilot firmware, a fresh boot nonce (R405). -/
def enterRecovery (s : State) (n : W64) : State :=
  newNonce (onFw s fun w => { w with recovery := true, pilotUp := false }) n

/-- SPDM sessions on every endpoint end (R373). -/
def endSpdm (s : State) : State :=
  let t : Tab Spdm := s.spdm.mapVals fun _ x => { x with sessions := [] }
  { s with spdm := t }

/-! ### Activation (R358) -/

/-- Commands that step 6 waits for. -/
def step6Waits (s : State) : List CmdKey := running s fun k => s.fw.waitCommit != some k

/-- The end of step 6: the dies have loaded the new firmware, fetching resumes, the Commit that started the activation
completes. -/
def finishActivation (s : State) : State :=
  if s.fw.activating ≠ 6 ∨ step6Waits s ≠ [] then s
  else
    let k := s.fw.waitCommit
    let s := onFw s fun w => { w with activating := 0, waitCommit := none }
    match k with
    | some k => complete s k Code.ok 0 0
    | none => s

/-- Every TDI in CONFIG_LOCKED or RUN goes to ERROR. -/
def tdisToError (s : State) : State := (List.finRange 128).foldl tdiError s

/-- Steps 1 and 2: Firmware Activation Starting is reported, the pilot core resets into the boot ROM, STATE becomes 3. In recovery
there is nothing to report. The dictionary is busy until step 5 (R401). -/
def activationBegins (s : State) : State :=
  let s := if s.fw.recovery then s else noticeAll s fwStartingNotice
  onFw (setStage (pilotReset s) 3) fun w => { w with activating := 3, pilotUp := false }

/-- Steps 3 to 5, then step 6 as far as commands in progress let it. In recovery there is nothing to wait for; where no replica
reads back right, the module is in recovery. -/
def activationEnds (s : State) (replicaOk : List Bool) : State :=
  let recovery := s.fw.recovery
  match writeIn s replicaOk with
  | none =>
    let s := drawNonce (onFw s fun w => { w with activating := 0 })
    enterRecovery s s.dict.nonce
  | some (s, img) =>
    let s := drawNonce s
    let s := adoptImage (pilotStart s s.dict.nonce) img
    let s := tdisToError (endSpdm s)
    let s := onFw s fun w =>
      { w with activating := if recovery then 0 else 6, recovery := false
               dlResult := if w.dlResult = 1 then 2 else w.dlResult }
    finishActivation s

/-- An activation (R358) in two steps: its beginning, when it is due, and the write-in with what follows. -/
def activate (s : State) (replicaOk : List Bool) : State :=
  if s.fw.activating = 1 ∧ s.fw.stage.state = 2 then activationBegins s
  else if s.fw.activating = 3 then activationEnds s replicaOk
  else s

end Sys2Proof.Machine
end

