-- ==== Sys2Proof/Machine/ReplayOps.lean ====
section
/-! DEFINITION. REPLAY (spec 18 R458 to R461, spec 12 R298): a logged command runs again on its recorded input and is
compared with its logged output. -/

namespace Sys2Proof.Machine

/-- LOG_SEQ and MODE of the REPLAY parameter block. -/
def replaySeq (e : Sqe) : Nat := Bytes.le (inRegion e) 0 8
def replayMode (e : Sqe) : Nat := Bytes.le (inRegion e) 8 1

/-- The submission entry that an entry of the log records, as fetched. -/
def loggedSqe (e : Sqe) (f : FlightEntry) : Sqe :=
  let d (i : Nat) : W32 := f.cdw.getD i 0
  { e with nsid := f.nsid.toNat, cdw10 := d 0, cdw11 := d 1, cdw12 := d 2, cdw13 := d 3, cdw14 := d 4, cdw15 := d 5
           dptr := f.inp.length + f.out.length, inp := f.inp }

/-- Is an entry one that REPLAY runs (R458)? -/
def replayable (f : FlightEntry) : Bool :=
  f.kind == 0 && f.status == 0
    && (f.opc == 0x83 || f.opc == 0x8B || f.opc == 0x01 || (f.opc == 0x87 && decide ((searchP f.inp).mode ≠ 0)))

/-- Bytes of a logged entry's output data: what follows its record, or, for an Execute Program, its status. -/
def loggedData (f : FlightEntry) : Nat := if f.opc = 0x01 then f.out.length - 4 else f.out.length - 64

/-- The logged entry that a REPLAY names, where it can be replayed. -/
def replayEntry (x : Sess) (e : Sqe) : Option FlightEntry := (x.log.find? fun f => f.logSeq.toNat == replaySeq e).filter replayable

/-- The generation that a logged entry pins: the status and DW0 where it is not retained (R458). -/
def replayGen (s : State) (fn : Fin 128) (f : FlightEntry) : Option (Code × Nat) :=
  if f.opc = 0x8B then
    let i := (gatherP f.inp).table
    match tableFor s fn i with
    | some t => if retainedTab s i t f.gen.toNat then none else some (Code.tableGenRetired, oldestTab s i t)
    | none => some (Code.tableGenRetired, 0)
  else if f.opc = 0x87 ∧ (searchP f.inp).mode = 1 then
    let i := (searchP f.inp).index
    match indexFor s fn i with
    | some x => if retainedGen s i x f.gen.toNat then none else some (Code.indexGenRetired, oldestGen s i x)
    | none => some (Code.indexGenRetired, 0)
  else none

/-- The program index of an Execute Program entry, and its image where it still holds one of that hash. -/
def replayImage (s : State) (e : Sqe) (f : FlightEntry) : Option Image :=
  (s.ctrls[e.fn].programs.get? (fieldOf (f.cdw.getD 0 0).toNat 15 0)).filter fun im => im.hash == f.imageHash

/-- The checks of R291 for a REPLAY. -/
def replayRefuse (s : State) (e : Sqe) : Option (Code × Nat) :=
  match vendorRefuse e, sessFor s e.fn (cdw12Lo e) with
  | some c, _ => some (c, 0)
  | none, none => some (Code.sessionUnknown, 0)
  | none, some x =>
    match replayEntry x e with
    | none => some (Code.invalidField, 0)
    | some f =>
      if inLen e ≠ 64 ∨ outLen e < 64 ∨ 1 < replayMode e then some (Code.invalidField, 0)
      else if replayMode e = 1 ∧ outLen e < 64 + loggedData f then some (Code.invalidField, 0)
      else
        match replayGen s e.fn f with
        | some r => some r
        | none =>
          if f.opc = 0x01 ∧ (replayImage s e f).isNone then some (Code.imageRejected, 3)
          else if !keyOpen s x.account then some (Code.keyLocked, 0)
          else none

/-- The bytes that R460 compares as zero: FLAGS bits 3 and 4, PLACE of ATTEND, HOT of GATHER. -/
def replayMask (opc : Nat) (b : Bytes) : Bytes :=
  let b := setAt b 4 (b.getD 4 0 &&& 0xE7)
  if opc = 0x83 then setAt b 0x28 0
  else if opc = 0x8B then setAt (setAt (setAt (setAt b 0x18 0) 0x19 0) 0x1A 0) 0x1B 0
  else b

/-- Compare a run's record and data with the logged output. -/
def replayCompare (s : State) (e : Sqe) (f : FlightEntry) (rc data : Bytes) : State :=
  endReplay s e f (replayMask f.opc.toNat (rc ++ data)) (replayMask f.opc.toNat f.out) data false

/-- Replay of an ATTEND (R459): the recorded view, its blocks selected and its summaries formed again from the stored
tokens, which later appends leave unchanged; nothing is appended. DEDUCED: a summary is a function of its block's
tokens (R117), so the last block's is the snapshot's. -/
def replayAttend (s : State) (e : Sqe) (x : Sess) (f : FlightEntry) : State :=
  let le := loggedSqe e f
  let i := cdw12Lo e
  let j : AttendJob := { e := le, session := i, p := attendP (inRegion le), view := Bytes.le f.out 0x20 8, snap := f.snap }
  let j := { j with selected := (List.range x.kvHeads).map (selectBlocks s x j) }
  match badUnit s x.kvNsid (pagesRead x j ++ blocksRead x j) with
  | some u => fail s e.key Code.unrecoveredRead x.kvNsid (4 * u)
  | none =>
    let vs := attendAll s x j
    let data := attendData j vs
    let s := charge s x.account (some i) fFlashRd
      (flashBytes s x.kvNsid (blocksRead x j) + pageBytes * sumNat (vs.map (·.again)))
    replayCompare s e f (attendRecord j vs data false) data

/-- Run a Pinned query to its end as far as the slots it reads can be read; the fuel bounds its rounds. -/
def runReadable (s : State) (x : Index) : Nat → Query → Except Nat (Query × StopReason)
  | 0, q => .ok (q, .visitBudget)
  | fuel + 1, q =>
    match badNode s x q.gen q.flying with
    | some n => .error n
    | none =>
      match mergeRound x q with
      | (q, none) => runReadable s x fuel q
      | (q, some r) => .ok (q, r)

/-- Replay of a Pinned SEARCH (R152, R459). -/
def replayPinned (s : State) (e : Sqe) (f : FlightEntry) : State :=
  let le := loggedSqe e f
  let p := searchP f.inp
  match s.indexes.get? p.index with
  | none => s
  | some x =>
    let q := mkQuery x le p f.gen.toNat
    let r : Except Nat (Query × StopReason) := match beginQuery x q with
      | (q, some r) => .ok (q, r)
      | (q, none) => runReadable s x 16400 q
    match r with
    | .error n => fail s e.key Code.unrecoveredRead x.nsid n
    | .ok (q, stop) =>
      match readRun s p.index x [q] with
      | (s, some u) => fail s e.key Code.unrecoveredRead x.nsid u
      | (s, none) =>
        let data := queryData x q
        let s := bump 0x607003 q.widened (chargeReads s q q.reads)
        replayCompare s e f (queryRecord q (stopCode stop) data) data

/-- Replay of a scan: it reads the namespace's present contents (R459). -/
def replayScan (s : State) (e : Sqe) (f : FlightEntry) : State :=
  let le := loggedSqe e f
  let p := searchP f.inp
  match nsFor s e.fn le.nsid with
  | none => fail s e.key Code.invalidNs le.nsid
  | some n =>
    let off := p.first * 2 ^ p.rsizeLog
    let len := p.count * 2 ^ p.rsizeLog
    match unrecovered s le.nsid n off len with
    | some u => fail s e.key Code.unrecoveredRead le.nsid (u * (iuBytes n / 4096))
    | none =>
      let (rc, data, _, _) := scanOut s le p le.nsid
      let s := charge s n.account none fFlashRd (iuBytes n * (onFlash s le.nsid ((unitsOf n off len).map (·.1))).length)
      replayCompare s e f rc data

/-- Replay of a GATHER (R182, R459). -/
def replayGather (s : State) (e : Sqe) (f : FlightEntry) : State :=
  let p := gatherP f.inp
  match s.tables.get? p.table with
  | none => s
  | some t =>
    match readRows p.table t f.gen.toNat s (Bytes.les f.inp 64 4 p.nidx) with
    | (s, false) => gatherFault s e t f.gen.toNat
    | (s, true) =>
      let (data, empty, _) := gatherRun t f.gen.toNat p f.inp
      replayCompare s e f (gatherRecord f.gen.toNat empty 0 data.length) data

/-- Bytes of a snapshot record of a pool tile: its number and its before-image (R457). -/
def snapRecord : Nat := 8 + tileBytes

/-- Copy a logged before-image to the replay copy of its tile on a core. -/
def placeSnap (c : Fin 8) (tag : Nat) (snap : Bytes) (a : State) (i : Nat) : State :=
  let t := Bytes.le snap (i * snapRecord) 8
  (writeMem a (copyBase c + t * tileBytes) (Bytes.sub snap (i * snapRecord + 8) tileBytes) tag).1

/-- Copy the present contents of a pool tile to its replay copy. -/
def placeTile (c : Fin 8) (a : State) (t : Nat) : State := copyRaw a (t * tileBytes) (copyBase c + t * tileBytes)

/-- The SG state of a grant, from snapshot bytes (R457, R461). -/
def sgOf (b : Bytes) : Tab (BitVec 64) := (List.range (b.length / 8)).map fun i => (i, BitVec.ofNat 64 (Bytes.le b (8 * i) 8))

/-- Replay of an Execute Program (R459, R461): on replay copies of the snapshot's tiles, in the session's class, with
the recorded DRAW0 and SG state. It waits for its core, and in an SG session for a grant of GRANT_ME engines. -/
def replayExecute (s : State) (e : Sqe) (x : Sess) (f : FlightEntry) (im : Image) (waited : Bool) : State :=
  let i := cdw12Lo e
  let b := x.cls == 0
  let s0 := s
  match readyCore s (some i) 0 b x.account im with
  | (s, none) => holdExec s e opReplay (waited || (b && class0Ahead s (some i) 0))
  | (s, some c) =>
    let (s, outside) := dispatchRecord s0 s e.key (some i) b c im waited
    let le := loggedSqe e f
    let tiles := f.snap.length / snapRecord
    let sg := f.snap.drop (tiles * snapRecord)
    let arg := Bytes.sub f.inp 0 (min f.inp.length (argLen le))
    let own := (List.range tiles).map fun n => Bytes.le f.snap (n * snapRecord) 8
    let argTiles := (tilesIn (argAddr le) arg.length).filter fun t => !own.contains t
    let s := (List.range tiles).foldl (placeSnap c (tagOf s x.account) f.snap) s
    let s := argTiles.foldl (placeTile c) s
    let s := (writeMem s (copyBase c + argAddr le) arg (tagOf s x.account)).1
    let s := onBankOf s c b fun k => { k with cgDraw := f.draw0, sg := if sg = [] then k.sg else sgOf sg }
    let p : Prog := { account := x.account, fn := e.fn, index := cdw10Lo le, handle := some e.key, seed := x.seed, e := e }
    let p : Prog := { p with imageHash := im.hash, replay := some f, overlay := own ++ argTiles, outside := outside }
    startProgram s c b im p (startEntry (handleOf e.key) (argAddr le) (argLen le))

/-- REPLAY at its fetch (R458, R459). A replay names its session without making it other than it was. -/
def replayBody (e : Sqe) (waited : Bool) (s : State) : State :=
  match replayRefuse s e with
  | some (c, dw0) => failDw0 s e.key c dw0
  | none =>
    match s.sess.get? (cdw12Lo e) with
    | none => s
    | some x =>
      match replayEntry x e with
      | none => s
      | some f =>
        if moveHolds x then holdJob s e opReplay
        else
          let s := nameSession s e.key (cdw12Lo e)
          if f.opc = 0x83 then replayAttend s e x f
          else if f.opc = 0x8B then replayGather s e f
          else if f.opc = 0x87 ∧ (searchP f.inp).mode = 1 then replayPinned s e f
          else if f.opc = 0x87 then replayScan s e f
          else
            match replayImage s e f with
            | some im => replayExecute s e x f im waited
            | none => s

end Sys2Proof.Machine
end

