-- ==== Sys2Proof/Machine/SettleOps.lean ====
section
/-! DEFINITION. What goes on when something has ended: commands that wait for room, for a session or for a core run
again (R230, R241, R246, R316), session moves and imports go on, full scatter steps close. -/

namespace Sys2Proof.Machine

def opIndexManage : Nat := 0xC9
def opTableManage : Nat := 0xCD

/-- Publish an index's pending changes, where the write buffer has room; answers whether it had (R142). -/
def publishWhenRoom (s : State) (i : Nat) : State × Bool :=
  match s.indexes.get? i with
  | none => (s, true)
  | some x =>
    if !x.dirty then (s, true)
    else if freeSlots s < writeGenSlots s x (genOf x x.cur) x.pending then (s, false)
    else (publishIndex s i, true)

/-- INDEX-MANAGE COMMIT (R142, R302). -/
def commitBody (e : Sqe) (s : State) : State :=
  let i := cdw10Hi e
  match manageRefuse e, indexFor s e.fn i with
  | some c, _ => fail s e.key c
  | none, none => fail s e.key Code.invalidField
  | none, some x =>
    if !keyOpen s x.account then fail s e.key Code.keyLocked
    else if s.health.readOnly then fail s e.key Code.writeProtected
    else
      match publishWhenRoom s i with
      | (s, false) => holdExec s e opIndexManage false
      | (s, true) => complete s e.key Code.ok (((s.indexes.get? i).map (·.cur)).getD 0) 0

/-- INDEX-MANAGE INGEST-UNBIND (R172): the segment in progress finishes first; then the index is committed, and the
queued segments are discarded and counted. -/
def unbindBody (e : Sqe) (s : State) : State :=
  let i := cdw10Hi e
  match manageRefuse e, indexFor s e.fn i, s.ingests.find? (·.index == i) with
  | some c, _, _ => fail s e.key c
  | none, some x, some g =>
    if !keyOpen s x.account then fail s e.key Code.keyLocked
    else if g.current.isSome then holdExec s e opIndexManage false
    else if x.dirty ∧ s.health.readOnly then fail s e.key Code.writeProtected
    else
      match publishWhenRoom s i with
      | (s, false) => holdExec s e opIndexManage false
      | (s, true) => complete { s with ingests := s.ingests.filter (·.index != i) } e.key Code.ok (g.queue.length + g.later.length) 0
  | none, _, _ => fail s e.key Code.invalidField

/-- TABLE-MANAGE PUBLISH (R177, R303, R304). -/
def publishBody (e : Sqe) (s : State) : State :=
  let i := cdw10Hi e
  match manageRefuse e, tableFor s e.fn i with
  | some c, _ => fail s e.key c
  | none, none => fail s e.key Code.invalidField
  | none, some t =>
    if !keyOpen s t.account then fail s e.key Code.keyLocked
    else if s.health.readOnly then fail s e.key Code.writeProtected
    else if t.pending = [] then complete s e.key Code.ok t.cur 0
    else if freeSlots s < publishSlots s t t.pending then holdExec s e opTableManage false
    else
      let (s, slots) := publishRows s i t.pending
      finishData s e.key t.nsid slots [] (t.cur + 1) 0

/-- TABLE-MANAGE DESTROY (R304): it waits for the GATHER commands that pin the table. -/
def tableDestroyBody (e : Sqe) (s : State) : State :=
  let i := cdw10Hi e
  match manageRefuse e, tableFor s e.fn i with
  | some c, _ => fail s e.key c
  | none, none => fail s e.key Code.invalidField
  | none, some t =>
    if !keyOpen s t.account then fail s e.key Code.keyLocked
    else if t.openStep.isSome ∨ t.pending ≠ [] then fail s e.key Code.sequenceError
    else if s.inflight.any fun f => acctOf f.key.fn == t.account && f.tabGens.has i then holdExec s e opTableManage false
    else complete { s with tables := s.tables.del i } e.key Code.ok 0 0

/-- A binding commits its index where that finds room (R172). -/
def commitIngest (s : State) (i : Nat) : State :=
  match publishWhenRoom s i with
  | (s, true) => onIngest s i ingestCommitted
  | (s, false) => s

/-- Has a binding inserted COMMIT_CHUNKS since its last commit? -/
def chunksDue (g : Ingest) : Bool := decide (g.p.commitChunks ≤ g.sinceCommit)

/-- Is the segment queue of a binding empty, with changes applied? -/
def queueDone (g : Ingest) : Bool := g.applied != [] && g.queue.isEmpty && g.later.isEmpty && g.current.isNone

/-- Bindings commit that have inserted COMMIT_CHUNKS, or whose queue is empty (R172). -/
def ingestCommits (s : State) : State :=
  ((s.ingests.filter fun g => chunksDue g || queueDone g).map (·.index)).foldl
    (fun a i => if a.health.readOnly then a else commitIngest a i) s

/-- A held command runs again from its checks on. -/
def runHeld (s : State) (j : Job) : State :=
  if j.opc = opAttend then attendBody j.e j.waited s
  else if j.opc = opReplay then replayBody j.e j.waited s
  else if j.opc = opSessionOpen then openBody j.e s
  else if j.opc = opSessionClose then closeBody j.e s
  else if j.opc = kindExecute then execBody j.e 0 j.waited s
  else if j.opc = opTableManage then (if cdw10Op j.e = 5 then tableDestroyBody j.e s else publishBody j.e s)
  else if cdw10Op j.e = 7 then unbindBody j.e s
  else commitBody j.e s

/-- Chunks left to an import, and one. -/
def importFuel (j : ImportJob) : Nat := Bytes.le (Bytes.sub j.head 0 112) 0x10 4 + 1 - j.pos

/-- Let every core whose actions wait go on (R87, R103). -/
def releaseCores (s : State) : State :=
  (List.finRange 8).foldl (fun a c => if a.cores[c].releasing.isEmpty then a else release a c) s

/-- Firmware goes on with outbound entries that waited for room in the write buffer (R95). -/
def serveCores (s : State) : State :=
  (List.finRange 8).foldl (fun a c => if a.cores[c].outWait || !a.cores[c].left.isEmpty then serveOutbound a c else a) s

/-- Everything that waits and may go on does, each in order. -/
def settle (s : State) : State :=
  let s := releaseCores (serveCores s)
  let s := (s.sess.map (·.1)).foldl runMove s
  let s := s.imports.foldl (fun a j => importStep a j.e.key (importFuel j)) s
  let s := ingestCommits ((s.tables.map (·.1)).foldl closeSteps s)
  let s := s.held.foldl runHeld { s with held := [] }
  finishActivation (finishLocks s)

end Sys2Proof.Machine
end

