-- ==== Sys2Proof/Machine/Attend.lean ====
section
/-! DEFINITION. ATTEND and the merge that ends it (spec 05 R120 to R133). -/

namespace Sys2Proof.Machine

/-- ATTEND at its fetch (R122). -/
def execAttend (e : Sqe) (s : State) : Out := .next (nvme s e opAttend false (attendBody e false))

/-- ATTEND_MERGE_COMPLETE: the partial records of every unit are merged and the command ends (R126). -/
def execAttendMergeComplete (key : CmdKey) (s : State) : Out :=
  .next (
    match s.attends.find? fun j => j.e.key == key with
    | none => s
    | some j =>
      match s.sess.get? j.session with
      | none => s
      | some x => settle (attendMerge s x j))

end Sys2Proof.Machine
end

