-- ==== Sys2Proof/Machine/CodeFlash.lean ====
section
/-! DEFINITION. Meanings of the code-flash commands (14). -/

namespace Sys2Proof.Machine

/-- WORD_PROGRAM (R342, R344). -/
def execWordProgram (addr data : W32) (ctx : CfCtx) (s : State) : Out :=
  .next (cfSequence s ctx [(0x20005554, 0xAA), (0x20002AA8, 0x55), (0x20005554, 0xA0), (addr, data)])

/-- SECTOR_ERASE (R342, R352). -/
def execSectorErase (addr : W32) (ctx : CfCtx) (s : State) : Out :=
  .next (cfSequence s ctx (cfErasePrefix ++ [(addr, 0x30)]))

/-- BLOCK_ERASE (R342, R352). -/
def execBlockErase (addr : W32) (ctx : CfCtx) (s : State) : Out :=
  .next (cfSequence s ctx (cfErasePrefix ++ [(addr, 0x50)]))

/-- SUSPEND (R347). -/
def execSuspend (addr : W32) (ctx : CfCtx) (s : State) : Out := .next (cfSingle s ctx addr 0xB0)

/-- RESUME (R347). -/
def execResume (addr : W32) (ctx : CfCtx) (s : State) : Out := .next (cfSingle s ctx addr 0x30)

/-- SEQUENCE_RESET (R343). -/
def execSequenceReset (addr : W32) (ctx : CfCtx) (s : State) : Out := .next (cfSingle s ctx addr 0xF0)

/-- CF_OPERATION_DONE (R346). -/
def execCfOperationDone (ok : Bool) (s : State) : Out := .next (cfEnd s ok)

/-- CF_ARRAY_READ (R341, R347, R348, R351). -/
def execCfArrayRead (addr : W32) (fetch : Bool) (s : State) : Out :=
  .next (match cfOffset addr.toNat with
    | none => s
    | some off =>
      let s := if fetch && s.cf.seq != [] then cfSelfOp s else s
      if cfActive s then onCf s fun f => { f with readWait := f.readWait ++ [(off, fetch)] }
      else cfServe s off fetch)

/-- CF_REGION_WRITE (R350). -/
def execCfRegionWrite (i : Fin 8) (value : W64) (s : State) : Out := .next (cfRegionSet s i value)

end Sys2Proof.Machine
end

