-- ==== Sys2Proof/Machine/Engine.lean ====
section
/-! DEFINITION. Meanings of the matrix-engine rows (spec 03, spec 17 R424). -/

namespace Sys2Proof.Machine

/-- ME_DESC_ARM: dword 0 of a slot of the ME descriptor queue is written (R75, R76). -/
def execMeDescArm (c : Fin 8) (slot : Fin 16) (v : W32) (fw : Bool) (s : State) : Out :=
  .next (if fw || cpRuns s c then meWrite s c slot v.toNat fw else s)

/-- PASS_ISSUE: the head descriptor issues once every condition of R58 holds, stale records having been rescanned first
(R221). -/
def execPassIssue (c : Fin 8) (s : State) : Out :=
  match meHead s.cores[c] with
  | none => .next s
  | some i => .next (if passReady (passScan s c i) c i then issuePass (passScan s c i) c i else s)

/-- Does every engine of a slot's descriptor drain entries that agree with their residues (R69)? -/
def residuesAgree (s : State) (c : Fin 8) (slot : Fin 16) : Bool :=
  (enabled (meDesc s.cores[c].meSlots[slot].dw)).all fun e => engineResidues s.cores[c].engines[e]

/-- CHAIN_DRAIN_COMPLETE: the drain of a finish or single pass ends (R65); one that finds an entry at odds with its residue
does not (R69). -/
def execChainDrainComplete (c : Fin 8) (slot : Fin 16) (s : State) : Out :=
  .next (if s.cores[c].meSlots[slot].issued && residuesAgree s c slot then drainSlot s c slot else s)

/-- Engine clock of a throttle step, MHz (R424). -/
def stepMHz (n : Fin 4) : Nat := [1300, 1100, 900, 650].getD n.val 1300

/-- Engines of a core in a flow. -/
def inFlow (s : State) (c : Fin 8) (f : Flow) : List (Fin 4) := (List.finRange 4).filter fun e => s.cores[c].engines[e].flow == f

/-- Move engines of a core from one flow to another; the keep-lit vectors of `us` microseconds are the system
account's (R72). -/
def flowTo (s : State) (c : Fin 8) (a b : Flow) (us : Nat) : State :=
  let es := inFlow s c a
  let s := charge s 0 none fMe (es.length * us * stepMHz s.cores[c].step)
  es.foldl (fun s e => onEngine s c e fun x => { x with flow := b }) s

/-- KEEP_LIT_RAMP_DOWN: 2 µs of keep-lit vectors have passed without a pass (R71). -/
def execKeepLitRampDown (c : Fin 8) (s : State) : Out := .next (flowTo s c .streaming .rampDown 2)

/-- ARRAY_CLOCK_GATE: the ramp is over, 1 µs after it began (R71). -/
def execArrayClockGate (c : Fin 8) (s : State) : Out := .next (flowTo s c .rampDown .stopped 1)

/-- Does a drain in progress on an engine compare any entry with its residue? Entries with OVF set are exempt (R69). -/
def comparing (g : Engine) : Bool := (g.chain.map (·.draining)).getD false && g.acc.any fun p => !p.2.ovf

/-- RESIDUE_FAULT: the drain of an engine finds an entry at odds with its residue. The pass and its tile are abandoned,
the engine is tested in tree mode, and the tile is replayed or, with no spare left, ended (R69, R73, R441). -/
def execResidueFault (c : Fin 8) (e : Fin 4) (t : EngineTest) (s : State) : Out :=
  if !coverOk t then .fault .illFormed
  else if !comparing s.cores[c].engines[e] then .next s
  else
    let s := abandonTile s c 0x10 0x10 (issuedMe s.cores[c])
    let s := testedEngine s c e t
    .next (if t == .noSpare ∧ s.cores[c].tile.isSome then settle (endProgram s c 0x11 Code.internalError 0 []) else s)

/-- CLOCK_STEP_CHANGE: the passes issued before the request have left the array, and the clock changes (R424, R73). -/
def execClockStepChange (c : Fin 8) (s : State) : Out :=
  .next (onCore s c fun k =>
    match k.stepReq with
    | some n => { k with step := n, stepReq := none }
    | none => k)

end Sys2Proof.Machine
end

