-- ==== Sys2Proof/Machine/Firmware.lean ====
section
/-! DEFINITION. Meanings of the firmware update commands on the PF controller, and of the activation (R355 to R358). -/

namespace Sys2Proof.Machine

/-- Offset and bytes of a Firmware Image Download: NUMD and OFST count dwords (PRESUMED, log 14). -/
def dlBytes (e : Sqe) : Nat := 4 * (e.cdw10.toNat + 1)
def dlOffset (e : Sqe) : Nat := 4 * e.cdw11.toNat

/-- FIRMWARE_IMAGE_DOWNLOAD on the PF controller. -/
def downloadBody (e : Sqe) (s : State) : State :=
  if e.fn.val ≠ 0 then fail s e.key Code.invalidOpcode
  else if imageMax < dlOffset e + dlBytes e then fail s e.key Code.invalidField
  else if e.dptr < dlBytes e ∨ e.inp.length < dlBytes e then fail s e.key (Code.shortData e)
  else complete (fwDownload s (dlOffset e) (e.inp.take (dlBytes e))) e.key Code.ok 0 0

/-- FIRMWARE_IMAGE_DOWNLOAD (R355). -/
def execFirmwareImageDownload (e : Sqe) (s : State) : Out := .next (nvme s e 0x11 true (downloadBody e))

/-- FS and CA of a Firmware Commit (PRESUMED, log 14). -/
def commitFs (e : Sqe) : Nat := fieldOf e.cdw10.toNat 2 0
def commitCa (e : Sqe) : Nat := fieldOf e.cdw10.toNat 5 3

/-- Complete a Commit that staged, or fail it with the check that failed. -/
def endStaging (e : Sqe) (r : State × Option Nat) : State :=
  match r with
  | (s, none) => complete s e.key Code.ok 0 0
  | (s, some _) => fail s e.key Code.invalidImage

/-- FIRMWARE_COMMIT on the PF controller. -/
def fwCommitBody (e : Sqe) (s : State) : State :=
  let st := s.fw.stage.state
  let w := whoOf e.key
  if e.fn.val ≠ 0 then fail s e.key Code.invalidOpcode
  else if 1 < commitFs e then fail s e.key Code.invalidSlot
  else if st = 2 ∨ st = 3 then fail s e.key Code.activationProhibited
  else
    match commitCa e with
    | 0 => endStaging e (fwStage s w 0 4)
    | 1 => endStaging e (fwStage s w 0 2)
    | 2 => if st = 4 then complete (setStage s 2) e.key Code.ok 0 0 else fail s e.key Code.invalidImage
    | 3 =>
      match fwStageActivate s w 0 with
      | (s, none) => onFw s fun x => { x with activating := 1, waitCommit := some e.key }
      | (s, some _) => fail s e.key Code.invalidImage
    | _ => fail s e.key Code.invalidField

/-- FIRMWARE_COMMIT (R355, R357). -/
def execFirmwareCommit (e : Sqe) (s : State) : Out := .next (nvme s e 0x10 true (fwCommitBody e))

/-- FW_ACTIVATION (R358). `replicaOk` says which replicas read back right from the code flash. -/
def execFwActivation (replicaOk : List Bool) (s : State) : Out := .next (activate s replicaOk)

/-- ACTIVATION_COMMAND_TIMEOUT (R358 step 6). -/
def execActivationCommandTimeout (s : State) : Out :=
  .next (
    if s.fw.activating ≠ 6 then s
    else finishActivation ((step6Waits s).foldl (fun a k => cancelWith a k Code.interrupted) s))

end Sys2Proof.Machine
end

