-- ==== Sys2Proof/Machine/Flash.lean ====
section
/-! DEFINITION. The flash family: ends of NAND operations, ladders, verification, moves, collection, patrol, die
failure (spec 13, spec 18 R451, spec 10 R251). An event that the channel's state does not allow changes nothing. -/

namespace Sys2Proof.Machine

/-- What follows the end of a flash operation: the flash layer goes on, then what waits for room. -/
def mediaEnded (s : State) (ch : Fin 48) : State := settle (afterMedia s ch)

/-- Does the metadata of every codeword of the unit that a read asks for name that unit (R310)? -/
def metaFits (s : State) (c : Channel) (o : NandOp) : Bool :=
  (List.range (widthOfKey s (mapKey o.nsid o.iu))).all fun i =>
    (c.words.get? (o.addr + i)).all fun w => w.1 == o.nsid && w.2.1 == o.iu

/-- A codeword whose metadata names another unit is a failed decode at that step (R310). -/
def checkMeta (s : State) (c : Channel) (o : NandOp) (r : ReadOutcome) : ReadOutcome :=
  let failed (st : Fin 6) : ReadOutcome := if o.ladder then .exhausted st else .failedStep0
  match r with
  | .decoded st _ _ => if metaFits s c o then r else failed st
  | .otherUnit st => failed st
  | r => r

/-- May the outcome of a read arrive for the operation (R324)? A read that is no ladder's decodes at step 0 or fails
there; a ladder's decodes, or fails to, at its present step or a later one that applies. -/
def readFits (c : Channel) (o : NandOp) (r : ReadOutcome) : Bool :=
  if !o.ladder then
    match r with
    | .decoded st _ _ => st.val == 0
    | .otherUnit st => st.val == 0
    | .failedStep0 => true
    | .exhausted _ => false
  else
    match c.ladders.get? o.addr with
    | none => true
    | some l =>
      match r with
      | .decoded st _ _ => decide (l.step ≤ st.val) && decide (st.val ≤ lastStep c o.block)
      | .otherUnit st => decide (l.step ≤ st.val) && decide (st.val ≤ lastStep c o.block)
      | .failedStep0 => false
      | .exhausted st => decide (l.step ≤ st.val) && decide (st.val ≤ lastStep c o.block)

/-- A page read has ended. -/
def readEnded (s : State) (ch : Fin 48) (die : Nat) (o : NandOp) (r : ReadOutcome) : State :=
  let s := chargeRead (onChan s ch fun c => { c with dieActive := c.dieActive.del die }) o
  match r with
  | .decoded st bits off =>
    let s := noteRead (linkRead s o) ch o.block st.val bits off
    mediaEnded (if o.ladder then onChan s ch fun c => { c with ladders := c.ladders.del o.addr } else s) ch
  | .otherUnit _ => mediaEnded s ch
  | .failedStep0 =>
    match o.cmd with
    | none => mediaEnded s ch
    | some k =>
      let s := markOutside s k
      if s.channels[ch].ladders.has o.addr then
        mediaEnded (onChan s ch fun c =>
          { c with ladders := c.ladders.mod o.addr fun l => { l with waiters := l.waiters ++ [k] } }) ch
      else
        let s := onChan s ch fun c => { c with ladders := c.ladders.put o.addr { step := 1, waiters := [k] } }
        mediaEnded (ladderRead s ch o) ch
  | .exhausted st =>
    let c := s.channels[ch]
    if !c.ladders.has o.addr then mediaEnded s ch
    else if st.val < lastStep c o.block then
      let s := onChan s ch fun c => { c with ladders := c.ladders.mod o.addr fun l => { l with step := st.val + 1 } }
      mediaEnded (ladderRead s ch o) ch
    else mediaEnded (exhaust s ch o.addr st.val o.cmd) ch

/-- NAND_READ_COMPLETE (R324, R326, R331). -/
def execNandReadComplete (ch : Fin 48) (die : Fin 16) (r : ReadOutcome) (s : State) : Out :=
  .next (
    match s.channels[ch].dieActive.get? die.val with
    | some o =>
      if !writes o && readFits s.channels[ch] o r then readEnded s ch die.val o (checkMeta s s.channels[ch] o r) else s
    | none => s)

/-- A data program of a block has failed (R333, R329): the block is retired, its unreleased data and the records of its programs
are programmed elsewhere, moves into it are redone and its valid data is moved. -/
def programFailed (s : State) (ch : Fin 48) (b : Nat) (recs : List (Nat × Nat)) : State :=
  let s := retireBlock (bump 0x612008 1 s) ch b
  let s := onChan s ch fun c => returnRecs (dropPrograms c (programs b false)) recs
  let s := reissueSlots s ch (slotsIn s ch b)
  let s := redoMoves s ch b
  let s := if validIn s ch b = [] then leaveGroup s ch b else startMove s ch b 3 false none
  match (blockOf s.channels[ch] b).group with
  | some g => issueParity s ch g
  | none => s

/-- The metadata of a codeword (R310): its unit and the channel's next write sequence number. -/
def noteWord (c : Channel) (a nsid iu : Nat) : Channel :=
  { c with words := c.words.put a (nsid, iu, c.writeSeq.toNat), writeSeq := c.writeSeq + 1 }

/-- The codewords that a passed program wrote: those of its slots, and those of the units that a move gives places on its
wordline. -/
def writeWords (s : State) (c : Channel) (o : NandOp) (slots : List Nat) : Channel :=
  let own := ((List.range slots.length).zip slots).filterMap fun p => (s.slots.get? p.2).map fun x => (o.addr + p.1, x.nsid, x.iu)
  let moved := (c.moves.filter (·.target == o.block)).flatMap fun m =>
    (m.ius.filter fun p => wordlineAt p.2 == wordlineAt o.addr).flatMap fun p =>
      (List.range (widthOfKey s p.1)).map fun i => (p.2 + i, p.1 / 2 ^ 48, p.1 % 2 ^ 48)
  (own ++ moved).foldl (fun c w => noteWord c w.1 w.2.1 w.2.2) c

/-- A slot's data has been programmed. -/
def markSlot (a : State) (i : Nat) : State :=
  match a.slots.get? i with
  | some x =>
    chargeLink (charge { a with slots := a.slots.put i { x with programmed := true } } x.account none fFlashWr 4096) x.account none 4096
  | none => a

/-- A data program has passed: its slots are programmed, its records written (R317), the journal longer by theirs, a full block
closes, parity that is due is queued. -/
def programPassed (s : State) (ch : Fin 48) (o : NandOp) (slots : List Nat) : State :=
  let b := o.block
  let s := onChan (slots.foldl markSlot s) ch fun c =>
    let c := writeWords s c o slots
    let c := { c with journal := c.journal + sumNat ((o.recs.filter (·.1 == recJournal)).map (·.2)) }
    let c := onBlock c b fun x => { x with units := x.units + 1 }
    closeTargets (if 768 ≤ (blockOf c b).units ∧ (blockOf c b).state = .opened then closeBlock c b else c)
  match (blockOf s.channels[ch] b).group with
  | some g => issueParity s ch g
  | none => s

/-- NAND_PROGRAM_COMPLETE (R316, R321, R333). -/
def execNandProgramComplete (ch : Fin 48) (die : Fin 16) (pass : Bool) (s : State) : Out :=
  .next (
    match s.channels[ch].dieActive.get? die.val with
    | none => s
    | some o =>
      match o.kind with
      | .program slots false =>
        let s := onChan s ch fun c => { c with dieActive := c.dieActive.del die.val }
        mediaEnded (if pass then programPassed s ch o slots else programFailed s ch o.block o.recs) ch
      | .program _ true =>
        let s := onChan s ch fun c => { c with dieActive := c.dieActive.del die.val }
        let g := (blockOf s.channels[ch] o.block).group.getD 0
        if pass then
          mediaEnded (coverWordline (onChan s ch fun c => onBlock c o.block fun x => { x with units := x.units + 1 }) ch g) ch
        else
          let s := retireBlock (bump 0x612008 1 s) ch o.block
          mediaEnded (newParity (onChan s ch fun c => dropPrograms c (programs o.block true)) ch g) ch
      | _ => s)

/-- NAND_ERASE_COMPLETE (R333, R332, R324). -/
def execNandEraseComplete (ch : Fin 48) (die : Fin 16) (pass : Bool) (s : State) : Out :=
  .next (
    match s.channels[ch].dieActive.get? die.val with
    | none => s
    | some o =>
      if o.kind = .erase then
        let s := leaveGroup (onChan s ch fun c => { c with dieActive := c.dieActive.del die.val }) ch o.block
        if pass then
          mediaEnded (onChan s ch fun c =>
            let c := onBlock c o.block fun x =>
              { state := .free, erases := x.erases + 1, strikes := x.strikes }
            gcThreshold { c with freeBlocks := c.freeBlocks + (if inService o.block then 1 else 0)
                                 words := c.words.filter fun p => blockAt p.1 != o.block }) ch
        else mediaEnded (retireBlock (bump 0x612009 1 s) ch o.block) ch
      else s)

/-- Free a die for Class 0: a program or erase is suspended, a non-Class-0 read is reset and goes back to the head of
the queue; the reissue is charged to the Class 0 account (R249, R251). -/
def preemptDie (s : State) (ch : Fin 48) (d : Nat) (op : NandOp) : State :=
  match s.channels[ch].dieActive.get? d with
  | none => s
  | some o =>
    if o.cls = 0 ∧ !writes o then s
    else if writes o then
      onChan s ch fun c => { c with dieActive := c.dieActive.del d, suspended := c.suspended.put d o }
    else
      let s := onChan s ch fun c => { c with dieActive := c.dieActive.del d, dieOps := c.dieOps.upd d [] (o :: ·) }
      let (a, i) := charged s op
      charge s a i fFlashRd (((s.nss.get? o.nsid).map iuBytes).getD 4096)

/-- CLASS0_FLASH_PREEMPT (R251). The operation is a Class 0 read, queued already or arriving now. -/
def execClass0FlashPreempt (ch : Fin 48) (die : Fin 16) (op : NandOp) (s : State) : Out :=
  .next (
    if op.cls ≠ 0 ∨ writes op ∨ bitOf s.channels[ch].failedDies.toNat die.val then s
    else
      let s := preemptDie s ch die.val op
      let s := if (dieQueue s.channels[ch] die.val).contains op then s
        else onChan s ch fun c => { c with dieOps := c.dieOps.upd die.val [] (· ++ [op]) }
      startDie s ch die.val)

/-- LADDER_BUDGET_EXPIRY (R325, R328): of a ladder with waiting commands, or of one that a move or patrol runs. -/
def execLadderBudgetExpiry (ch : Fin 48) (addr : Nat) (s : State) : Out :=
  .next (
    let c := s.channels[ch]
    match c.ladders.get? addr with
    | some l => exhaust s ch addr l.step l.waiters.head?
    | none => if c.moves.any fun m => m.src == blockAt addr then exhaust s ch addr (lastStep c (blockAt addr)) none else s)

/-- DESTAGE_TIMEOUT (R316). -/
def execDestageTimeout (ch : Fin 48) (s : State) : Out := .next (destage s ch true)

/-- Does a read-back page pass (R322)? -/
def pagePasses (s : State) (p : PageResult) : Bool :=
  match p.out with
  | .decoded st bits _ => st.val == 0 && decide (bits < dv s 0x302001)
  | _ => false

/-- BLOCK_VERIFY (R322, R329). -/
def execBlockVerify (ch : Fin 48) (block : Nat) (pages : List PageResult) (s : State) : Out :=
  if blocksPerChannel ≤ block then .fault .illFormed
  else .next (
    let c := s.channels[ch]
    if (blockOf c block).state ≠ .closed then s
    else if pages.all (pagePasses s) then
      let c := onBlock c block fun x => { x with state := .verified }
      match (blockOf c block).group.bind fun g => (c.groups.get? g).map fun x => (g, x) with
      | none => onChan s ch fun _ => c
      | some (gi, g) =>
        let g := { g with done := g.done ++ [block] }
        if g.members.all (g.done.contains ·) then
          queueErase (onChan s ch fun _ => { c with groups := c.groups.del gi }) ch g.parity
        else onChan s ch fun _ => { c with groups := c.groups.put gi g }
    else
      let s := bump 0x61200B 1 s
      let strikes := (blockOf c block).strikes + 1
      let s := onChan s ch fun c => listRefresh (onBlock c block fun x => { x with strikes := strikes }) block
      let s := redoMoves s ch block
      if 2 ≤ strikes then retireBlock s ch block else s)

/-- Entries that still name a move's source take their new place (R328). -/
def commitMove (s : State) (ch : Fin 48) (m : Move) : State :=
  let s := onChan s ch fun c => { c with moves := c.moves.filter (· != m) }
  let s := m.ius.foldl (fun a p =>
    let e := entryOf a (p.1 / 2 ^ 48) (p.1 % 2 ^ 48)
    if e.st = .flash ∧ blockAt e.loc = m.src ∧ homeOf a (p.1 / 2 ^ 48) (p.1 % 2 ^ 48) = ch then
      setEntry a (p.1 / 2 ^ 48) (p.1 % 2 ^ 48) { st := .flash, loc := p.2 }
    else a) s
  let s := if m.refresh then bump 0x61200D 1 s else s
  if validIn s ch m.src ≠ [] then s
  else if (blockOf s.channels[ch] m.src).state = .retired then leaveGroup s ch m.src
  else queueErase s ch m.src

/-- MOVE_COMMIT (R328): the target has closed and passed verification. -/
def execMoveCommit (ch : Fin 48) (block : Nat) (s : State) : Out :=
  if blocksPerChannel ≤ block then .fault .illFormed
  else .next (
    let c := s.channels[ch]
    if (blockOf c block).state ≠ .verified then s
    else (c.moves.filter fun m => m.target == block).foldl (fun a m => commitMove a ch m) s)

/-- Blocks of a channel that hold data and may be moved. -/
def dataBlocks (c : Channel) : List Nat := writtenBlocks c false

/-- The block that `better` prefers over every earlier one. -/
def bestBlock (better : Nat → Nat → Bool) (l : List Nat) : Option Nat :=
  l.foldl (fun a b => match a with
    | none => some b
    | some x => if better b x then some b else some x) none

/-- The victim of R330: fewest valid units, then earliest close, then lowest number. -/
def victim (s : State) (ch : Fin 48) : Option Nat :=
  let c := s.channels[ch]
  let cand := (dataBlocks c).filter fun b => !(c.moves.any fun m => m.src == b || m.target == b)
  bestBlock (fun b x =>
    let vb := (validIn s ch b).length
    let vx := (validIn s ch x).length
    decide (vb < vx) || (vb == vx && decide ((blockOf c b).closeSeq < (blockOf c x).closeSeq))) cand

/-- GARBAGE_COLLECTION (R330). -/
def execGarbageCollection (ch : Fin 48) (s : State) : Out :=
  .next (
    let c := s.channels[ch]
    if !c.collecting then s
    else
      match victim s ch with
      | some b => startMove s ch b c.gcClass false none
      | none => s)

/-- A page that a patrol read. -/
def patrolPage (ch : Fin 48) (a : State) (p : PageResult) : State :=
  match p.out with
  | .decoded st bits off => noteRead a ch (blockAt p.addr) st.val bits off
  | .failedStep0 => a
  | .otherUnit _ => a
  | .exhausted st => exhaust a ch p.addr st.val none

/-- PATROL_READ (R331). -/
def execPatrolRead (ch : Fin 48) (block : Nat) (pages : List PageResult) (s : State) : Out :=
  if blocksPerChannel ≤ block then .fault .illFormed
  else .next (
    if (dataBlocks s.channels[ch]).contains block then
      (pages.filter fun p => blockAt p.addr == block).foldl (patrolPage ch) s
    else s)

/-- REFRESH_MOVE (R331): the first listed block is moved in Class 3. -/
def execRefreshMove (ch : Fin 48) (s : State) : Out :=
  .next (
    match s.channels[ch].refreshList with
    | b :: _ =>
      let c := s.channels[ch]
      let s := if (blockOf c b).state = .opened then onChan s ch fun c => closeBlock c b else s
      startMove s ch b 3 true none
    | [] => s)

/-- In-service blocks of a channel. -/
def servingBlocks (c : Channel) : List Nat :=
  (List.range blocksPerChannel).filter fun b => inService b && (blockOf c b).state != .retired

/-- WEAR_LEVEL_MOVE (R332): the least-erased block that holds data moves into the most-erased free block. -/
def execWearLevelMove (ch : Fin 48) (s : State) : Out :=
  .next (
    let c := s.channels[ch]
    let er (b : Nat) : Nat := (blockOf c b).erases
    let bs := servingBlocks c
    let hi := maxNat (bs.map er)
    let lo := (bs.map er).foldl min hi
    if hi - lo ≤ dv s 0x303001 ∨ (c.moves.any (·.wear)) then s
    else
      let src := bestBlock (fun b x => decide (er b < er x)) ((dataBlocks c).filter fun b => !(c.moves.any fun m => m.src == b || m.target == b))
      let dst := bestBlock (fun b x => decide (er x < er b)) (bs.filter fun b => (blockOf c b).state == .free)
      match src, dst with
      | some b, some t => startMove s ch b 3 false (some t)
      | _, _ => s)

/-- Journal size that brings a checkpoint (R314). -/
def journalLimit : Nat := 256 * 2 ^ 20

/-- MAP_CHECKPOINT (R314). -/
def execMapCheckpoint (ch : Fin 48) (s : State) : Out :=
  .next (if journalLimit ≤ s.channels[ch].journal then checkpoint s ch else s)

/-- Units on a failed die that parity can rebuild, and the others. -/
def dieUnits (s : State) (ch : Fin 48) (d : Nat) : List (Nat × Nat) × List (Nat × Nat) :=
  let all := (s.map.filter fun p => p.2.st == .flash && dieOfBlock (blockAt p.2.loc) == d
    && homeOf s (p.1 / 2 ^ 48) (p.1 % 2 ^ 48) == ch).map fun p => (p.1, p.2.loc)
  (all.filter fun p => hasParity s.channels[ch] (blockAt p.2), all.filter fun p => !hasParity s.channels[ch] (blockAt p.2))

/-- An operation of a failed die ends (R451): a read goes to step 5 of its ladder or is exhausted, a program is
reissued elsewhere, an erase is dropped. Parity programs are reissued with their group. -/
def endOnDie (ch : Fin 48) (a : State) (o : NandOp) : State :=
  match o.kind with
  | .erase => a
  | .program _ true => a
  | .program l false => reissueSlots (onChan a ch fun c => returnRecs c o.recs) ch l
  | .read =>
    if hasParity a.channels[ch] o.block then
      let a := onChan a ch fun c =>
        { c with ladders := c.ladders.put o.addr { (c.ladders.getD o.addr {}) with
            step := 5, waiters := ((c.ladders.getD o.addr {}).waiters ++ o.cmd.toList).eraseDups } }
      ladderRead a ch o
    else exhaust a ch o.addr 4 o.cmd

/-- Retire every block of a die: each consumes a spare (R451). -/
def retireDie (s : State) (ch : Fin 48) (d : Nat) : State :=
  let c := s.channels[ch]
  let good := ((List.range 1656).map fun i => d * 1656 + i).filter fun b => goodBlock b && (blockOf c b).state != .retired
  let free := (good.filter fun b => inService b && (blockOf c b).state == .free).length
  let before := availableSpare s
  let s := onChan s ch fun c =>
    gcThreshold { (good.foldl (fun c b => onBlock c b fun x => { x with state := .retired }) c) with
      spares := c.spares - good.length, freeBlocks := c.freeBlocks - free
      failedDies := c.failedDies ||| BitVec.ofNat 16 (2 ^ d) }
  let s := bump 0x61200A good.length s
  let s := if c.spares < good.length then enterReadOnly s ch else s
  if 10 ≤ before ∧ availableSpare s < 10 then noticeAll s (smartNotice 2) else s

/-- NAND_DIE_FAILURE (R451). -/
def execNandDieFailure (ch : Fin 48) (die : Fin 16) (s : State) : Out :=
  .next (
    let c := s.channels[ch]
    let d := die.val
    if bitOf c.failedDies.toNat d then s
    else
      let ops := (c.dieActive.get? d).toList ++ (c.suspended.get? d).toList ++ dieQueue c d ++ c.dieHeld.getD d []
      let (rebuilt, lost) := dieUnits s ch d
      let s := retireDie s ch d
      let s := onChan s ch fun c => { c with dieActive := c.dieActive.del d, suspended := c.suspended.del d,
                                             dieOps := c.dieOps.del d, dieHeld := c.dieHeld.del d, suspends := c.suspends.del d }
      let s := lost.foldl (fun a p => setEntry a (p.1 / 2 ^ 48) (p.1 % 2 ^ 48) { st := .unrecovered, loc := p.2 }) s
      let s := bump 0x615008 lost.length (onHealth s fun h => { h with mediaErrors := h.mediaErrors + lost.length })
      let s := logEvent s (dieOfCh ch.val) 0x0015 {}
        (toLe 1 ch.val ++ toLe 1 d ++ toLe 4 rebuilt.length ++ toLe 4 lost.length)
      let nsids := (lost.map fun p => p.1 / 2 ^ 48).eraseDups
      let s := nsids.foldl (fun a n =>
        let lba := ((lost.filter fun p => p.1 / 2 ^ 48 == n).map fun p => firstLba a n (p.1 % 2 ^ 48)).foldl min (2 ^ 64)
        logEvent a (dieOfCh ch.val) 0x0005 { account := ((a.nss.get? n).map (·.account)).getD 0 }
          (unrecoveredDetail n lba ch.val d 4)) s
      let targets := (c.moves.filter fun m => dieOfBlock m.target == d).map (·.target)
      let s := targets.eraseDups.foldl (fun a t => redoMoves a ch t) s
      let s := (rebuilt.map fun p => blockAt p.2).eraseDups.foldl (fun a b => startMove a ch b 3 false none) s
      let s := ops.foldl (endOnDie ch) s
      let noParity := (s.channels[ch].groups.filter fun p => dieOfBlock p.2.parity == d).map (·.1)
      let s := noParity.foldl (fun a g => newParity a ch g) s
      let groups := (List.range 1656).filterMap fun i => (blockOf s.channels[ch] (d * 1656 + i)).group
      let s := groups.eraseDups.foldl (fun a g => issueParity a ch g) s
      mediaEnded s ch)

end Sys2Proof.Machine
end

