-- ==== Sys2Proof/Machine/HealthOps.lean ====
section
/-! DEFINITION. Figures of health and of power that objects and logs report (R336, R414, R438, R467). -/

namespace Sys2Proof.Machine

/-- Percentage Used of a channel (R336): from the mean erase count of its in-service blocks. -/
def channelUsed (c : Channel) : Nat :=
  let l := c.blocks.filter fun p => inService p.1
  let gone := (l.filter fun p => p.2.state == .retired).length
  let sum := sumNat ((l.filter fun p => p.2.state != .retired).map (·.2.erases))
  min 255 (100 * sum / (5000 * max 1 (25898 - gone)))

/-- Percentage Used (R336). -/
def percentUsed (s : State) : Nat := maxNat (s.channels.toList.map channelUsed)

/-- Pool rows relocated (0x6091.02). -/
def rowsRelocated (s : State) : Nat := sumNat s.repair.relocCount.toList

/-- The graft map summary (Table 16-11b). -/
def graftSummary (s : State) : Bytes :=
  let eng (g : Graft) : Nat := spareRows g + 8 * spareCols g + (if g.retired then 128 else 0)
  (s.cores.toList.flatMap fun k => k.engines.toList.flatMap fun e => toLe 1 (eng e.graft))
    ++ (s.clusters.toList.flatMap fun c => toLe 1 (min 255 c.retiredSlots))
    ++ toLe 4 s.health.sramRows ++ toLe 4 (rowsRelocated s) ++ toLe 2 s.health.graftGen.toNat ++ List.replicate 6 0

/-- A temperature as an I8. -/
def i8 (t : Int) : Bytes := toLe 1 (natOfInt 8 t)

/-- The step of the cores outside C0_CORES (0x2110.01): of the lowest-numbered one, and of core 0 where every core is in
C0_CORES. -/
def reportedStep (s : State) : Nat :=
  match (List.finRange 8).find? fun c => !bitOf (c0Cores s) c.val with
  | some c => s.cores[c].step.val
  | none => s.cores[(0 : Fin 8)].step.val

/-- Module state as 0x1000.07 reports it (R421, R422). -/
def moduleState (s : State) : Nat :=
  if s.fw.recovery then 3
  else match s.power.mod with
    | .running => 0
    | .banked => 1
    | .parked => 2

end Sys2Proof.Machine
end

