-- ==== Sys2Proof/Machine/SecOps.lean ====
section
/-! DEFINITION. Security: SPDM sessions and measurements (R370 to R372), tenant key messages (R375), owner requests
(R368, R369), IDE and TDISP (R383, R384), sanitize (R385). -/

namespace Sys2Proof.Machine

/-! ### Sessions and rights -/

def spdmOf (s : State) (ep : Endpoint) : Spdm := s.spdm.getD (epKey ep) {}

def onSpdm (s : State) (ep : Endpoint) (f : Spdm → Spdm) : State := { s with spdm := s.spdm.upd (epKey ep) {} f }

/-- Is an established session of an endpoint named (R371)? -/
def securedOn (s : State) (ep : Endpoint) (session : Option Nat) : Bool :=
  match session with
  | some i => (spdmOf s ep).sessions.any fun x => x.1 == i && x.2.2
  | none => false

/-- Is an owner key enrolled? -/
def ownersEnrolled (s : State) : Bool := s.store.owner0.isSome || s.store.owner1.isSome

/-- Is a root key, by its hash, that of an enrolled owner? -/
def isOwner (s : State) (root : Option Bytes) : Bool := root.isSome && (root == s.store.owner0 || root == s.store.owner1)

/-- Does a session of an endpoint carry security rights (R370)? -/
def rightsOn (s : State) (ep : Endpoint) (session : Option Nat) : Bool :=
  securedOn s ep session &&
    (!ownersEnrolled s || (spdmOf s ep).sessions.any fun x => some x.1 == session && isOwner s x.2.1)

/-- Does a Waori request carry security rights (R370)? -/
def rights (s : State) (src : WSrc) : Bool :=
  match src.via with
  | .mctp => rightsOn s .mctp src.session
  | .doe => rightsOn s (.doe 0) src.session
  | .inband | .port => false

/-! ### SPDM responses: response code, two parameters, then the fields the spec gives (PRESUMED, log 14) -/

def spdmError (code : Nat) : Bytes := [0x7F, BitVec.ofNat 8 code, 0]
def errInvalidRequest : Nat := 0x01
def errInvalidSession : Nat := 0x02
def errUnexpected : Nat := 0x04
def errUnsupported : Nat := 0x07
def errSessionLimit : Nat := 0x0A
def errNotReady : Nat := 0x42

/-- TDI state as a number (Table 15-10). -/
def tdiNo : Tdi → Nat
  | .configUnlocked => 0
  | .configLocked => 1
  | .run => 2
  | .error => 3

/-- A measurement (Table 15-7); `f` is the function of index 16. -/
def measurement (s : State) (f : Fin 128) (i : Nat) : Option Bytes :=
  let st := s.store
  let a := s.accounts[acctIx (acctOf f)]
  match i with
  | 1 => some Config.bootRomHash
  | 2 => some (Bytes.sub s.fw.resident 0 48)
  | 3 => some (Bytes.sub s.fw.resident 48 48)
  | 4 => some (Bytes.sub s.fw.resident 96 48)
  | 5 => some (Bytes.sub s.fw.resident 144 48)
  | 6 => some (toLe 2 s.fw.svn ++ Bytes.sub s.fw.version 0 32)
  | 7 => some (toLe 2 st.fwFloor ++ toLe 1 st.revoked.toNat ++ toLe 4 st.ownerSeq)
  | 8 => some (Crypto.sha384
      (Bytes.sub (st.owner0.getD []) 0 48 ++ Bytes.sub (st.owner1.getD []) 0 48 ++ toLe 1 st.quorum))
  | 9 => some (toLe 8 (bitIf (dv s 0x609008 != 0) 0 + bitIf s.fw.recovery 1 + bitIf (activationRuns s) 2))
  | 16 => some (toLe 1 (if a.mode1 then 1 else 0) ++ toLe 1 (if a.opened then 1 else 0) ++ toLe 1 (tdiNo a.tdi)
      ++ toLe 1 (if c0Rights s (acctOf f) then 1 else 0) ++ toLe 2 (nssOf s (acctOf f)).length ++ toLe 2 0)
  | _ => none

/-- The measurement indexes. -/
def measurementIndexes : List Nat := [1, 2, 3, 4, 5, 6, 7, 8, 9, 16]

/-- The certificate chain of slot 0 (Table 15-2). -/
def certChain (s : State) : Bytes :=
  let m := (List.range 5).flatMap fun i => (measurement s 0 (i + 1)).getD []
  Config.certificateChain ++ Config.aliasCertificate s.store.alias_ m

/-- A response signed with the alias key (R364). -/
def signed (s : State) (b : Bytes) : Bytes := b ++ Config.aliasSign s.store.alias_ b

/-- Capability flags of Table 15-6: CERT, CHAL, MEAS signed and fresh, ENCRYPT, MAC, MUT_AUTH, KEY_EX, encapsulated
requests, HBEAT, KEY_UPD, CHUNK. -/
def capabilityFlags : Nat :=
  2 + 4 + 16 + 32 + 64 + 128 + 256 + 512 + 4096 + 8192 + 16384 + 131072

/-- The function whose account measurement 16 describes on an endpoint (R372). -/
def measuredFn : Endpoint → Fin 128
  | .doe f => f
  | .mctp | .nvme _ => 0

/-- Does an endpoint ask for mutual authentication (R370)? -/
def asksMutual (s : State) (ep : Endpoint) : Bool :=
  ownersEnrolled s && (ep == .doe 0 || ep == .mctp)

/-- Is an endpoint there: pilot firmware runs, and a function's mailbox or controller needs its function enabled? -/
def endpointUp (s : State) : Endpoint → Bool
  | .doe f | .nvme f => s.fw.pilotUp && s.ctrls[f].enabled
  | .mctp => s.fw.pilotUp

/-- The responder's answer to a request (R371). -/
def spdmAnswer (s : State) (ep : Endpoint) (req : SpdmReq) : State × Bytes :=
  let x := spdmOf s ep
  let named (i : Nat) : Bool := x.sessions.any fun y => y.1 == i && y.2.2
  match req with
  | .getVersion => (s, [0x04, 0, 0] ++ [2] ++ toLe 2 0x1200 ++ toLe 2 0x1300)
  | .getCapabilities => (s, [0x61, 0, 0] ++ toLe 4 capabilityFlags)
  | .negotiateAlgorithms => (s, [0x63, 0, 0])
  | .getDigests => (s, [0x01, 0, 1] ++ Crypto.sha384 (certChain s))
  | .getCertificate => (s, [0x02, 0, 0] ++ certChain s)
  | .challenge => (s, signed s ([0x03, 0, 1] ++ Crypto.sha384 (certChain s)))
  | .getMeasurements 0 => (s, [0x60, BitVec.ofNat 8 measurementIndexes.length, 0])
  | .getMeasurements i =>
    let l := if i = 0xFF then measurementIndexes else [i]
    match l.mapM (measurement s (measuredFn ep)) with
    | some ms => (s, signed s ([0x60, 0, 0] ++ ms.flatten))
    | none => (s, spdmError errInvalidRequest)
  | .keyExchange root =>
    if 2 ≤ x.sessions.length then (s, spdmError errSessionLimit)
    else
      let s' := onSpdm s ep fun y =>
        { y with sessions := y.sessions ++ [(y.nextId, root, false)]
                 nextId := if y.nextId = 65535 then 1 else y.nextId + 1 }
      (s', signed s ([0x64, 60, 0] ++ toLe 2 x.nextId ++ [if asksMutual s ep then 1 else 0]))
  | .finish =>
    if x.sessions.any fun y => !y.2.2 then
      (onSpdm s ep fun y => { y with sessions := y.sessions.map fun z => (z.1, z.2.1, true) }, [0x65, 0, 0])
    else (s, spdmError errUnexpected)
  | .heartbeat i => (s, if named i then [0x68, 0, 0] else spdmError errInvalidSession)
  | .keyUpdate i => (s, if named i then [0x69, 0, 0] else spdmError errInvalidSession)
  | .endSession i =>
    if named i then (onSpdm s ep fun y => { y with sessions := y.sessions.filter (·.1 != i) }, [0x6C, 0, 0])
    else (s, spdmError errInvalidSession)
  | .other => (s, spdmError errUnsupported)

/-! ### Tenant key messages (R374 to R377) -/

/-- The frame of a TK message: a function that is enabled, an established session on its own mailbox, no message
waiting under R377. -/
def tkMessage (s : State) (f : Fin 128) (session : Option Nat) (body : State → State) : State :=
  let s := finishLocks s
  if !endpointUp s (.doe f) then s
  else if !securedOn s (.doe f) session then respond s (.doe f) (spdmError errInvalidRequest)
  else if s.accounts[acctIx (acctOf f)].waitKop ≠ 0 then respond s (.doe f) (spdmError errNotReady)
  else body s

/-- Run the procedure of R377 for a message; it answers when it has ended. -/
def tkLockFor (s : State) (f : Fin 128) (kop : Nat) (claim : Option (Bool × Bytes)) : State :=
  let a := acctOf f
  let s := startLock s a claim
  let s := respond (onAcct s (acctIx a) fun x => { x with waitKop := kop }) (.doe f) (spdmError errNotReady)
  finishLock s a

def tkStatusBody (f : Fin 128) (s : State) : State :=
  let a := s.accounts[acctIx (acctOf f)]
  tkReply s f 1 0 (toLe 1 (if a.mode1 then 1 else 0) ++ toLe 1 (if a.opened then 1 else 0) ++ toLe 1 a.fails
    ++ toLe 1 (tdiNo a.tdi))

def tkClaimBody (f : Fin 128) (mode : Byte) (secret : Bytes) (s : State) : State :=
  if s.sanitizing then tkReply s f 2 4 []
  else if 1 < mode.toNat then respond s (.doe f) (spdmError errInvalidRequest)
  else tkLockFor (tdiError s f) f 2 (some (mode.toNat == 1, Bytes.sub secret 0 32))

def tkUnlockBody (f : Fin 128) (secret : Bytes) (s : State) : State :=
  let i := acctIx (acctOf f)
  let a := s.accounts[i]
  let k := Bytes.sub secret 0 32
  if s.sanitizing then tkReply s f 3 4 []
  else if 8 ≤ a.fails then tkReply s f 3 2 []
  else if !a.mode1 || a.opened then tkReply s f 3 3 []
  else if tenantVerifier k = a.verifier then
    let s := onAcct s i fun x => { x with opened := true, fails := 0, tk := tenantKey k }
    tkReply (bindAccount s (acctOf f)) f 3 0 []
  else tkReply (bump 0x614001 1 (onAcct s i fun x => { x with fails := x.fails + 1 })) f 3 1 []

def tkLockBody (f : Fin 128) (s : State) : State :=
  let a := s.accounts[acctIx (acctOf f)]
  if s.sanitizing then tkReply s f 4 4 []
  else if !a.mode1 || !a.opened then tkReply s f 4 3 []
  else tkLockFor s f 4 none

/-! ### Owner requests (R368, R369) -/

/-- The slots of the AUTH signatures of a request that verify. -/
def authSlots (s : State) (r : Bytes) : List Nat :=
  let d := Crypto.sha384 (Bytes.sub r 0 0xC8)
  let one (off : Nat) : List Nat :=
    let slot := Bytes.le r off 1
    match ownerKey s slot with
    | some h => if Config.ecdsaVerifyEnrolled h d (Bytes.sub r (off + 8) 96) then [slot] else []
    | none => []
  (one 0xC8 ++ one 0x130).eraseDups

/-- Owner keys enrolled. -/
def enrolled (st : SecStore) : Nat := (if st.owner0.isSome then 1 else 0) + (if st.owner1.isSome then 1 else 0)

/-- The secure store with an owner slot changed. -/
def setOwner (st : SecStore) (slot : Nat) (h : Option Bytes) : SecStore :=
  if slot = 0 then { st with owner0 := h } else { st with owner1 := h }

/-- The owner slots and keys after the operation of an owner request: enrol a slot, revoke one, or change the quorum alone;
none where the slot does not fit it (R368). -/
def ownerSlots (s : State) (r : Bytes) : Option SecStore :=
  let slot := Bytes.le r 1 1
  let key := Bytes.sub r 8 96
  match Bytes.le r 0 1 with
  | 1 =>
    if slot ≤ 1 ∧ ownerKey s slot = none
        ∧ Config.ecdsaVerify key (Crypto.sha384 (Bytes.sub r 0 0x68)) (Bytes.sub r 0x68 96) = true then
      some (setOwner s.store slot (some (Crypto.sha384 key)))
    else none
  | 2 => if slot ≤ 1 ∧ ownerKey s slot ≠ none then some (setOwner s.store slot none) else none
  | 3 => some s.store
  | _ => none

/-- What an owner request makes of the store; none where it is refused (R369). -/
def ownerResult (s : State) (r : Bytes) : Option SecStore :=
  let quorum := Bytes.le r 2 1
  let need := if enrolled s.store = 0 then 0 else max s.store.quorum 1
  if r.length ≠ 408 ∨ Bytes.le r 4 4 ≠ s.store.ownerSeq + 1 ∨ (authSlots s r).length < need then none
  else
    match ownerSlots s r with
    | some n => if quorum ≤ enrolled n then some { n with quorum := quorum, ownerSeq := s.store.ownerSeq + 1 } else none
    | none => none

/-! ### The link (R383, R384) -/

/-- Does a secure selective stream carry a VF's traffic? -/
def carried (s : State) (f : Fin 128) : Bool :=
  (List.finRange 9).any fun i => i.val != 0 && s.ide[i].secure && s.ide[i].vfs.contains f.val

/-- Does a stream carry a VF's traffic? The link stream carries what no secure selective stream does (DEDUCED). -/
def carries (s : State) (i : Fin 9) (f : Fin 128) : Bool :=
  if i.val = 0 then !carried s f else s.ide[i].vfs.contains f.val

/-! ### Sanitize (R385) -/

/-- Deallocate everything and delete every object: step 3. Namespaces keep their sizes and formats, take new keys and
return to the plain role. -/
def wipeModule (s : State) : State :=
  let s := (s.ingests.map (·.index)).foldl dropIngest s
  let s := (s.sess.map (·.1)).foldl dropSession s
  let s := (List.finRange 128).foldl (fun a f => (a.ctrls[f].programs.map (·.1)).foldl (fun x i => unloadImage x f i) a) s
  let s := (s.nss.map (·.1)).foldl wipeNs s
  let k := s.free
  let nss : Tab Ns := s.nss.mapVals fun i n => { n with role := .plain, nsk := Config.freeNat (k + i) }
  let chans := s.channels.map fun c => { c with unit := [], recs := [] }
  let accts := s.accounts.map fun a => { a with closedRecs := [], probes := [] }
  { s with free := k + 1025, nss := nss, slots := [], channels := chans, accounts := accts
           indexes := [], queries := [], queryWait := [], tables := [], ingests := [], imports := [], attends := [] }

/-- An account under a new key and a new tag: steps 2 and 4. -/
def rekeyAccount (s : State) (a : Nat) : State :=
  if a = 0 then s
  else
    let s := newTk (quarantineTag s a) a false []
    if s.accounts[acctIx a].locking then s else bindAccount s a

/-- A Crypto Erase, whole: the command itself stays in flight. -/
def cryptoErase (s : State) (k : CmdKey) : State :=
  let s := tdisToError s
  let s := (flying s fun x => x != k).foldl endSilently s
  let s := (List.range 129).foldl rekeyAccount (wipeModule s)
  finishLocks { s with sanitizing := true }

/-- The end of the sanitize, when the command queue is next empty (DESIGN CHOICE, log 12). -/
def endSanitize (s : State) : State :=
  if s.sanitizing then { s with sanitizing := false, health := { s.health with sanitizes := s.health.sanitizes + 1 } } else s

def sanitizeBody (e : Sqe) (s : State) : State :=
  if e.fn.val ≠ 0 then fail s e.key Code.invalidOpcode
  else if fieldOf e.cdw10.toNat 2 0 ≠ 4 then fail s e.key Code.invalidField
  else complete (cryptoErase s e.key) e.key Code.ok 0 0

/-- SECP of a security command; the protocols are 0x00 and 0xE8 (Table 11-2). -/
def secp (e : Sqe) : Nat := fieldOf e.cdw10.toNat 31 24

def secSendBody (e : Sqe) (req : SpdmReq) (s : State) : State :=
  if secp e = 0 then complete s e.key Code.ok 0 0
  else if secp e = 0xE8 then
    match spdmAnswer s (.nvme e.fn) req with
    | (s, b) =>
      complete (onCtrl (respond s (.nvme e.fn) b) e.fn fun c => { c with secResponse := some b }) e.key Code.ok 0 0
  else fail s e.key Code.invalidField

/-- Security Receive: the list of protocols, or the response of the last Security Send. -/
def secReceiveBody (e : Sqe) (s : State) : State :=
  let n := min e.cdw11.toNat e.dptr
  if secp e = 0 then
    let l : Bytes := List.replicate 6 0 ++ [0, 2, 0x00, 0xE8]
    complete (hostWrite s e.key 0 (l.take n)) e.key Code.ok 0 0
  else if secp e = 0xE8 then
    match s.ctrls[e.fn].secResponse with
    | some b =>
      let s := onCtrl s e.fn fun c => { c with secResponse := none }
      complete (hostWrite s e.key 0 (b.take n)) e.key Code.ok 0 0
    | none => fail s e.key Code.sequenceError
  else fail s e.key Code.invalidField

end Sys2Proof.Machine
end

