-- ==== Sys2Proof/Machine/HostOps.lean ====
section
/-! DEFINITION. The host interface below its commands: wakes and doorbells (R257, R264), controller registers (R257, R260),
arbitration and fetching (R263, R265), register writes (R10, R82). -/

namespace Sys2Proof.Machine

/-! ### Doorbells -/

/-- A doorbell, a D0 transition or a vendor admin command starts the wake of a module that is Banked or Parked (R257,
R422). -/
def startWake (s : State) : State :=
  if s.power.mod ≠ .running ∧ s.power.phase = .ready then onPower s fun p => { p with waking := true } else s

/-- Does a function's register space take a write: the link is up, the function enabled? -/
def reachable (s : State) (f : Fin 128) : Bool := s.power.linkUp && s.ctrls[f].enabled

/-- A submission queue tail doorbell: accepted in every module state, it starts the wake (R257). -/
def sqTail (s : State) (f : Fin 128) (sqid tail : Nat) : State :=
  if !reachable s f then s
  else
    let s := startWake s
    if !s.ctrls[f].ccEn then s
    else
      onCtrl s f fun c =>
        if sqid = 0 then (if tail < asqSize c then { c with asqTail := tail } else c)
        else { c with sqs := c.sqs.mod sqid fun q => if tail < q.size then { q with tail := tail } else q }

/-- Completion entries that the host frees with a head doorbell; none where the value is no entry written. -/
def freedBy (size head posted new : Nat) : Option Nat :=
  if new < size ∧ (new + size - head) % size ≤ posted then some ((new + size - head) % size) else none

/-- Post what waited for room in a completion queue: the entries that now fit. -/
def postWaiting (size : Nat) (posted waiting : List Cqe) : List Cqe × List Cqe × List Cqe :=
  let n := size - 1 - posted.length
  (posted ++ waiting.take n, waiting.drop n, waiting.take n)

/-- Free the slots of commands whose completion entry has now been written (R264). -/
def freeSlotsOf (s : State) (f : Fin 128) (l : List Cqe) : State :=
  { s with inflight := s.inflight.filter fun x => !(l.any fun e => x.key == ⟨f, e.sqid, e.cid⟩) }

/-- A completion queue head doorbell (R257, R264): it starts the wake; entries are freed, waiting completions are posted in
order, with their interrupt. -/
def cqHead (s : State) (f : Fin 128) (cqid head : Nat) : State :=
  if !reachable s f then s
  else
    let s := startWake s
    let c := s.ctrls[f]
    if !c.ccEn then s
    else if cqid = 0 then
      match freedBy (acqSize c) c.acqHead c.acqPosted.length head with
      | none => s
      | some n =>
        match postWaiting (acqSize c) (c.acqPosted.drop n) c.acqWaiting with
        | (posted, waiting, new) =>
          let c' := { c with acqHead := head, acqPosted := posted, acqWaiting := waiting }
          freeSlotsOf (onCtrl s f fun _ => if new = [] then c' else raiseVector c' 0) f new
    else
      match c.cqs.get? cqid with
      | none => s
      | some q =>
        match freedBy q.size q.head q.posted.length head with
        | none => s
        | some n =>
          match postWaiting q.size (q.posted.drop n) q.waiting with
          | (posted, waiting, new) =>
            let q' : Cq := { q with head := head, posted := posted, waiting := waiting }
            freeSlotsOf (onCtrl s f fun _ => cqInterrupt { c with cqs := c.cqs.put cqid q' } q new) f new

/-! ### Controller registers (offsets and layouts of the NVMe base specification, PRESUMED, log 14) -/

/-- May controllers set CSTS.RDY (R434, R468, R360, R443)? -/
def mayBeReady (s : State) : Bool :=
  s.power.phase == .ready && !s.fw.recovery && !s.power.shutdown && !s.power.holdup && !s.health.failed

/-- CAP (Table 11-3): MQES 16,383, AMS weighted round robin, TO 30, DSTRD 0, NSSRS 0, CSS NVM and I/O command sets,
MPSMIN 0, MPSMAX 4. -/
def capReg (f : Fin 128) : Nat :=
  let std := (Config.controllerReg f 0).toNat + 2 ^ 32 * (Config.controllerReg f 4).toNat
  let v := setField (setField (setField std 15 0 16383) 18 17 1) 31 24 30
  setField (setField (setField v 36 32 0) 44 37 0x41) 55 48 0x40

/-- CC as it reads: EN and AMS; the other fields are those of `regs`. -/
def ccReg (c : Ctrl) : Nat :=
  setField (setField (c.regs.getD 0x14 0) 0 0 (bitIf c.ccEn 0)) 13 11 (bitIf c.ams 0)

/-- CSTS: RDY, and CFS in the failed state (R443). -/
def cstsReg (s : State) (f : Fin 128) : Nat := bitIf s.ctrls[f].csts 0 + bitIf s.health.failed 1

/-- What a read of a controller register returns (R257), as 64 bits. -/
def readCtrlReg (s : State) (f : Fin 128) (off : Nat) : Nat :=
  let c := s.ctrls[f]
  match off with
  | 0x00 => capReg f
  | 0x14 => ccReg c
  | 0x1C => cstsReg s f
  | 0x24 | 0x28 | 0x30 => c.regs.getD off 0
  | _ => (Config.controllerReg f off).toNat

/-- A write of CC: clearing EN resets the controller (R282); setting it makes the controller ready once it may be. -/
def ccWrite (s : State) (f : Fin 128) (v : Nat) : State :=
  let c := s.ctrls[f]
  let en := bitOf v 0
  if c.ccEn && !en then resetController s f
  else
    let ams := if c.ccEn then c.ams else fieldOf v 13 11 == 1
    onCtrl s f fun c =>
      { c with ccEn := en, ams := ams, csts := c.csts || (en && mayBeReady s), regs := c.regs.put 0x14 (setField v 13 11 0) }

/-- A write of a controller register. AQA, ASQ and ACQ take writes while EN is 0. -/
def ctrlRegWrite (s : State) (f : Fin 128) (off v : Nat) : State :=
  if !reachable s f then s
  else
    let put (k x : Nat) : State := if s.ctrls[f].ccEn then s else onCtrl s f fun c => { c with regs := c.regs.put k x }
    match off with
    | 0x14 => ccWrite s f v
    | 0x24 => put 0x24 (v % 2 ^ 32)
    | 0x28 => put 0x28 (v / 4096 * 4096)
    | 0x30 => put 0x30 (v / 4096 * 4096)
    | _ => s

/-- A write to the doorbell space: doorbell y of the submission queues at 8 y, of the completion queues at 8 y + 4. -/
def doorbellWrite (s : State) (f : Fin 128) (off v : Nat) : State :=
  let o := off - 0x1000
  if off < 0x1000 ∨ o % 4 ≠ 0 then s
  else if o / 4 % 2 = 0 then sqTail s f (o / 8) (v % 2 ^ 16)
  else cqHead s f (o / 8) (v % 2 ^ 16)

/-- SR-IOV: VFs 1 to n are enabled, the others are not. -/
def vfEnable (s : State) (n : Nat) : State :=
  finishLocks ((List.finRange 128).foldl (fun a f => if f.val = 0 then a else enableFunction a f (decide (f.val ≤ n))) s)

/-- BAR0/1 of a function (Table 11-1): its size, and where the MSI-X table and the PBA lie in it. -/
def barSize (f : Fin 128) : Nat := if f.val = 0 then 0x20000 else 0x4000
def msixTableAt (f : Fin 128) : Nat := if f.val = 0 then 0x10000 else 0x2000
def pbaAt (f : Fin 128) : Nat := if f.val = 0 then 0x18000 else 0x3000

/-- What a read of a dword of BAR0 returns (R257): a controller register, the MSI-X table, the PBA. -/
def barRead (s : State) (f : Fin 128) (off : Nat) : Nat :=
  let c := s.ctrls[f]
  if msixTableAt f ≤ off ∧ off < msixTableAt f + 16 * msixVectors f then
    let i := (off - msixTableAt f) / 4
    c.msix.getD i (if i % 4 = 3 then 1 else 0)
  else if pbaAt f ≤ off ∧ off < pbaAt f + msixVectors f / 8 then
    sumNat ((List.range 32).map fun j => bitIf (c.pba.contains ((off - pbaAt f) / 4 * 32 + j)) j)
  else if off < 0x1000 then readCtrlReg s f (off / 8 * 8) / 2 ^ (8 * (off % 8)) % 2 ^ 32
  else 0

/-- A dword of configuration space: the class code, a 64-bit BAR0/1 of its size on the PF and none on a VF, and no INTx pin (R255;
the offsets are PCIe's, PRESUMED, log 14); else what the spec does not state. -/
def configWord (f : Fin 128) (off : Nat) : W32 :=
  let w := (Config.configSpace f off).toNat
  BitVec.ofNat 32 (match off with
    | 0x08 => setField w 31 8 0x010802
    | 0x10 => if f.val = 0 then setField (setField w 2 0 4) 16 4 0 else 0
    | 0x14 => if f.val = 0 then w else 0
    | 0x3C => setField w 15 8 0
    | _ => w)

/-! ### Registers of a core (Table 4-2) -/

/-- A dword other than dword 0 of a descriptor slot: a slot whose ARM is 1 ignores it, and RO dwords do. -/
def dwordWrite (d : List W32) (ro : List Nat) (i v : Nat) : List W32 :=
  if bitOf (dwAt d 0) 0 || ro.contains i then d else setDw d i (v % 2 ^ 32)

/-- A write to a register or descriptor field in the core address map that no row of its own covers. -/
def coreRegWrite (s : State) (c : Fin 8) (fw : Bool) (a v : Nat) : State :=
  if !fw && !cpRuns s c then s
  else if a % 4 ≠ 0 then s
  else if 0x30000000 ≤ a ∧ a < 0x30000800 then
    let i : Fin 16 := ⟨(a - 0x30000000) / 128 % 16, Nat.mod_lt _ (by decide)⟩
    let n := (a - 0x30000000) / 4 % 32
    if n = 0 then meWrite s c i v fw else onMe s c i fun x => { x with dw := dwordWrite x.dw [7] n v }
  else if 0x30000800 ≤ a ∧ a < 0x30000C00 then
    let i : Fin 32 := ⟨(a - 0x30000800) / 32 % 32, Nat.mod_lt _ (by decide)⟩
    let n := (a - 0x30000800) / 4 % 8
    if n = 0 then tmWrite s c i v else onTm s c i fun x => { x with dw := dwordWrite x.dw [] n v }
  else if 0x30000C00 ≤ a ∧ a < 0x30000C80 then
    let i : Fin 2 := ⟨(a - 0x30000C00) / 64 % 2, Nat.mod_lt _ (by decide)⟩
    let n := (a - 0x30000C00) / 4 % 16
    if n = 0 then tdWrite s c i v else onTd s c i fun x => { x with dw := dwordWrite x.dw [11, 12] n v }
  else if 0x30001080 ≤ a ∧ a < 0x300010C0 then
    onBank s c fun b => { b with mboxOutReg := setDw b.mboxOutReg ((a - 0x30001080) / 4) (v % 2 ^ 32) }
  else if a = 0x30001100 then
    onCore s c fun k => setEvt k (k.evt &&& ~~~(BitVec.ofNat 64 v &&& 0x17E))
  else if a = 0x30001108 then onCore s c fun k => setEvt { k with evtEn := BitVec.ofNat 64 v &&& 0x1FF } k.evt
  else if a = 0x30001180 then onBank s c fun b => { b with cgDraw := BitVec.ofNat 32 v }
  else if inRegs a ∨ (physOf c a).isSome ∨ fw then s
  else accessFault s c a

/-- TD_GATHER_CFG: its low half takes writes, its high half is read only (Table 7-5). -/
def gatherCfgWrite (s : State) (v : Nat) : State :=
  setGatherCfg s (BitVec.ofNat 64 (s.gatherCfg.toNat / 2 ^ 32 * 2 ^ 32 + v % 2 ^ 32))

/-- A register write by its place (R10). -/
def regWrite (s : State) (r : RegAddr) (v : Nat) : State :=
  match r with
  | .coreMem c fw a => coreRegWrite s c fw a v
  | .cfInten => if s.fw.pilotUp || s.fw.recovery then cfIntenWrite s v else s
  | .cfStatus => if s.fw.pilotUp || s.fw.recovery then cfStatusWrite s v else s
  | .gatherCfg => gatherCfgWrite s v
  | .ctrlReg f off => ctrlRegWrite s f off v
  | .doorbellPort f off => doorbellWrite s f off v
  | .msixTable f off =>
    if reachable s f && decide (off < 16 * msixVectors f) then onCtrl s f fun c => msixWrite c (off / 4) (v % 2 ^ 32) else s
  | .vfEnable n => if s.power.linkUp then vfEnable s n else s
  | .powerD0 f => if s.power.linkUp then startWake (onCtrl s f fun c => { c with d3hot := false }) else s

/-! ### Arbitration (R263, R265) -/

/-- Does an I/O queue hold an entry? -/
def sqWaits (q : Sq) : Bool := q.head != q.tail

/-- I/O queues of a controller that hold an entry: urgent ones, and the others. -/
def waitingSqs (c : Ctrl) (urgent : Bool) : List (Nat × Sq) := c.sqs.filter fun p => sqWaits p.2 && (p.2.prio == 0) == urgent

/-- Elements in round-robin order from a place on. -/
def rotated (l : List Nat) (start : Nat) : List Nat := (l.filter (start ≤ ·)) ++ l.filter (· < start)

/-- The first of the places that finds a command slot; every one before it is a visit skipped for want of slots
(0x6110.01). A place is a function times 65,536 plus a queue. -/
def firstWithSlot (s : State) (cls : Nat) : List Nat → State × Option Nat
  | [] => (s, none)
  | p :: t =>
    match finOf? 128 (p / 65536) with
    | none => firstWithSlot s cls t
    | some f => if slotFree s f cls then (s, some p) else firstWithSlot (bump 0x611001 1 s) cls t

/-- Weights of High, Medium and Low in a controller's Arbitration feature. -/
def arbWeights (c : Ctrl) : List Nat :=
  [fieldOf c.arb.toNat 31 24 + 1, fieldOf c.arb.toNat 23 16 + 1, fieldOf c.arb.toNat 15 8 + 1]

/-- Entries of one visit: the Arbitration Burst. -/
def arbBurst (c : Ctrl) : Nat := let n := fieldOf c.arb.toNat 2 0; if n = 7 then 65536 else 2 ^ n

/-- The next queue of a list in round robin for one of the controller's places, with the place moved past it. -/
def nextInRound (c : Ctrl) (place : Nat) (qs : List Nat) : Option (Nat × Ctrl) :=
  ((rotated qs (c.rrNext.getD place 0)).head?).map fun q => (q, { c with rrNext := setAt c.rrNext place (q + 1) })

/-- The controller's own choice among its queues that are not urgent. -/
def ownChoice (c : Ctrl) : Option (Nat × Ctrl) :=
  let qs := waitingSqs c false
  let of (cls : Nat) : List Nat := (qs.filter fun p => p.2.prio.toNat == cls).map (·.1)
  if c.ams then
    match wrrPick (fun cls => of cls != []) (arbWeights c) c.arbCredit with
    | some (cls, cr) => nextInRound { c with arbCredit := cr } cls (of cls)
    | none => none
  else nextInRound c 0 (qs.map (·.1))

/-- Functions that a test holds of. -/
def fnsWhere (p : Fin 128 → Bool) : List Nat := ((List.finRange 128).filter p).map fun f => f.val

/-- The next visit in the order of R263: the function, the queue and the entries it may take. -/
def nextVisit (s : State) : State × Option (Fin 128 × Nat × Nat) :=
  let burst (s : State) (p q : Nat) : Option (Fin 128 × Nat × Nat) :=
    (finOf? 128 (p / 65536)).map fun f => (f, q, arbBurst s.ctrls[f])
  let admin := fnsWhere fun f => serving s f && !queueEmpty s.ctrls[f] 0
  match firstWithSlot s 1 ((rotated admin s.adminTurn).map (· * 65536)) with
  | (s, some p) => ({ s with adminTurn := p / 65536 + 1 }, burst s p 0)
  | (s, none) =>
    let urgent := (List.finRange 128).flatMap fun f =>
      if serving s f then (waitingSqs s.ctrls[f] true).map fun q => f.val * 65536 + q.1 else []
    match firstWithSlot s 0 (rotated urgent s.urgentTurn) with
    | (s, some p) => ({ s with urgentTurn := p + 1 }, burst s p (p % 65536))
    | (s, none) =>
      let others := fnsWhere fun f => serving s f && waitingSqs s.ctrls[f] false != []
      match firstWithSlot s 1 ((rotated others s.arbTurn).map (· * 65536)) with
      | (s, none) => (s, none)
      | (s, some p) =>
        match finOf? 128 (p / 65536) with
        | none => (s, none)
        | some f =>
          match ownChoice s.ctrls[f] with
          | none => (s, none)
          | some (q, c) => ({ onCtrl s f (fun _ => c) with arbTurn := f.val + 1 }, some (f, q, arbBurst c))

/-- The visit in progress, while its queue still holds entries and finds slots. -/
def openVisit (s : State) : Option (Fin 128 × Nat × Nat) :=
  match s.visit with
  | some (p, q, n) =>
    match finOf? 128 p with
    | some f =>
      let cls := queueClass s ⟨f, q, 0⟩
      if n ≠ 0 ∧ serving s f = true ∧ queueEmpty s.ctrls[f] q = false ∧ slotFree s f cls = true then some (f, q, n) else none
    | none => none
  | none => none

/-- Does a session belong to an account? -/
def ownsSession (s : State) (f : Fin 128) (i : Nat) : Bool := ((s.sess.get? i).map fun x => x.account == acctOf f && x.state != 0).getD false

/-- Admin opcodes of a controller (Table 11-2), and opcodes of an I/O queue (Table 11-7): those of NVM and of the vendor, and those
of the other two command sets (PRESUMED, log 14). -/
def adminOpcodes (f : Fin 128) : List Nat :=
  [0x00, 0x01, 0x02, 0x04, 0x05, 0x06, 0x08, 0x09, 0x0A, 0x0C, 0x0D, 0x15, 0x80, 0x81, 0x82, 0xC1, 0xC4, 0xC9, 0xCA, 0xCD]
    ++ (if f.val = 0 then [0x10, 0x11, 0x14, 0x1D, 0x1E, 0x84] else [])
def ioOpcodes : List Nat := [0x00, 0x01, 0x02, 0x05, 0x08, 0x09, 0x0C, 0x83, 0x87, 0x8B, 0x8D, 0x90, 0x93]
def otherOpcodes : List Nat := [0x01, 0x02, 0x05, 0x21, 0x22, 0x23]

/-- Is an opcode one that the queue of a command takes (R259, R276)? -/
def opcodeTaken (k : CmdKey) (opc : Nat) : Bool :=
  if k.sqid = 0 then (adminOpcodes k.fn).contains opc else (ioOpcodes ++ otherOpcodes).contains opc

/-- The session that a fetched command names: SESSION-MOVE and SESSION-CLOSE run in its class and are not counted in its INFLIGHT
(R230, R235). -/
def fetchNames (s : State) (k : CmdKey) (opc i : Nat) : State :=
  if (k.sqid = 0 ∧ opc = 0xC4) ∨ (k.sqid ≠ 0 ∧ opc = 0x90) then takeClass s k i else nameSession s k i

/-- An entry of a visited queue is fetched (R263 to R265, R281): its identifier is free in its queue. -/
def fetchFrom (s : State) (v : Fin 128 × Nat × Nat) (opc cid nsid : Nat) (session : Option Nat) : State :=
  let k : CmdKey := ⟨v.1, v.2.1, cid⟩
  if (flightOf s k).isSome then s
  else
    let s := takeSlot { s with visit := if v.2.2 ≤ 1 then none else some (v.1.val, v.2.1, v.2.2 - 1) } k opc nsid
    if recordedAbort s k then complete (clearAbort s k) k Code.abortRequested 0 0
    else if !opcodeTaken k opc then fail s k Code.invalidOpcode nsid
    else match session with
      | some i => if ownsSession s v.1 i then fetchNames s k opc i else s
      | none => s

/-- One fetch (R263). -/
def fetchOne (s : State) (opc cid nsid : Nat) (session : Option Nat) : State :=
  match openVisit s with
  | some v => fetchFrom s v opc cid nsid session
  | none =>
    match nextVisit s with
    | (s, some v) => fetchFrom s v opc cid nsid session
    | (s, none) => { s with visit := none }

end Sys2Proof.Machine
end

