-- ==== Sys2Proof/Machine/AdminOps.lean ====
section
/-! DEFINITION. What the admin commands do (11): data structures, logs, features, aborts, queues, namespaces. Layouts that
the spec leaves to the NVMe base specification are PRESUMED (log 14); the bytes it leaves open are free
(`Config.standardByte`). -/

namespace Sys2Proof.Machine

/-! ### Data structures -/

/-- `n` bytes of a standard's structure. -/
def stdBytes (sel n : Nat) : Bytes := (List.range n).map (Config.standardByte sel)

/-- Bytes stored over a structure. -/
def overlay (b : Bytes) (l : List (Nat × Bytes)) : Bytes := l.foldl (fun a p => Bytes.sub (mergeBytes a p.1 p.2) 0 b.length) b

/-- A command's data: as much as its buffer takes. -/
def sendData (s : State) (e : Sqe) (b : Bytes) : State := complete (hostWrite s e.key 0 (b.take e.dptr)) e.key Code.ok 0 0

/-- Text padded with spaces. -/
def padText (b : Bytes) (n : Nat) : Bytes := (b ++ List.replicate n 0x20).take n

/-- Is a namespace one of a function's account? -/
def ownNs (s : State) (f : Fin 128) (nsid : Nat) : Option Ns :=
  match s.nss.get? nsid with
  | some n => if n.account = acctOf f then some n else none
  | none => none

/-- Logical blocks of a namespace that are allocated. -/
def blocksUsed (s : State) (nsid : Nat) (n : Ns) : Nat :=
  iuBytes n / 4096 * (s.map.filter fun p => p.1 / 2 ^ 48 == nsid && p.2.st != .dealloc).length

/-- Identify Namespace (R266, R272, R274, Table 11-5). -/
def identifyNs (s : State) (nsid : Nat) (n : Ns) : Bytes :=
  overlay (stdBytes 0x600 4096)
    [(0, toLe 8 n.nsze), (8, toLe 8 n.nsze), (16, toLe 8 (blocksUsed s nsid n)), (25, [1]), (26, toLe 1 n.flbas), (28, [0, 0]),
     (30, [0]), (33, [0x09]), (34, toLe 2 255 ++ toLe 2 255), (40, toLe 2 0), (44, toLe 2 0),
     (64, toLe 2 (if n.flbas = 1 then 3 else 0) ++ toLe 2 (if n.flbas = 1 then 3 else 0)),
     (128, toLe 4 0x000C0000 ++ toLe 4 0x000C0000)]

/-- Identify Controller (R258, R260, R411, R453, Table 11-3). -/
def identifyCtrl (s : State) (f : Fin 128) : Bytes :=
  overlay (stdBytes (0x601 + f.val) 4096)
    [(4, padText Config.serialNumber 20), (24, padText (sealInfo "Galoryn Akzer") 40), (64, padText s.fw.version 8),
     (77, [0]), (78, toLe 2 (acctOf f)), (258, [255]), (259, [15]), (260, [0x12]), (262, [255]),
     (266, toLe 2 (dv s 0x215002 + 273) ++ toLe 2 383), (328, toLe 4 1), (516, toLe 4 1024), (525, [0]),
     (526, toLe 2 255 ++ toLe 2 255), (536, toLe 4 (setField (Bytes.le (stdBytes (0x601 + f.val) 540) 536 4) 1 0 2))]

/-- A list of identifiers as U32, at most 1,024. -/
def idList (l : List Nat) : Bytes := Bytes.sub ((l.take 1024).flatMap (toLe 4)) 0 4096

/-- A controller list. -/
def ctrlList (l : List Nat) : Bytes := Bytes.sub (toLe 2 l.length ++ l.flatMap (toLe 2)) 0 4096

/-- The data of an Identify; none where the selector is not supported. A namespace of another account is as one that
does not exist. -/
def identifyData (s : State) (f : Fin 128) (cns nsid cntid : Nat) : Option (Except Code Bytes) :=
  let mine (p : Ns → Bool) : List Nat := (s.nss.filter fun x => x.2.account == acctOf f && p x.2 && decide (nsid < x.1)).map (·.1)
  let one (p : Ns → Bool) : Except Code Bytes :=
    if nsid = 0 ∨ 1024 < nsid then .error Code.invalidNs
    else match ownNs s f nsid with
      | some n => .ok (if p n then identifyNs s nsid n else List.replicate 4096 0)
      | none => .ok (List.replicate 4096 0)
  match cns with
  | 0x00 => some (one (·.attached))
  | 0x01 => some (.ok (identifyCtrl s f))
  | 0x02 => some (.ok (idList (mine (·.attached))))
  | 0x03 => some (if (ownNs s f nsid).isSome then .ok (stdBytes (0x700 + nsid) 4096) else .error Code.invalidNs)
  | 0x05 | 0x06 => some (.ok (stdBytes (0x600 + cns) 4096))
  | 0x10 => some (.ok (idList (mine fun _ => true)))
  | 0x11 => some (one fun _ => true)
  | 0x12 => some (.ok (ctrlList (match ownNs s f nsid with
      | some n => if n.attached && decide (cntid ≤ acctOf f) then [acctOf f] else []
      | none => [])))
  | 0x13 => some (.ok (ctrlList (((List.finRange 128).filter fun g =>
      s.ctrls[g].enabled && (f.val == 0 || g == f) && decide (cntid ≤ acctOf g)).map acctOf)))
  | _ => none

def identifyBody (e : Sqe) (s : State) : State :=
  match identifyData s e.fn (fieldOf e.cdw10.toNat 7 0) e.nsid (fieldOf e.cdw10.toNat 31 16) with
  | none => fail s e.key Code.invalidField
  | some (.error c) => fail s e.key c e.nsid
  | some (.ok b) => sendData s e b

/-! ### Logs (R283) -/

/-- The critical warning of the SMART log (Table 18-6). -/
def criticalWarning (s : State) : Nat :=
  let h := s.health
  bitIf (decide (availableSpare s < 10)) 0 + bitIf (h.bit1 || s.power.junction.any fun t => decide (110 ≤ t)) 1
    + bitIf (h.bit2 || h.failed) 2 + bitIf h.readOnly 3 + bitIf h.bit4 4

/-- The highest junction, in kelvin. -/
def compositeTemp (s : State) : Nat := ((s.power.junction.foldl max (-128)) + 273).toNat

/-- Data units (R453): thousands of 512 B, the controller's own on a VF and the module's on the PF. -/
def dataUnits (s : State) (f : Fin 128) (g : Ctrl → Nat) : Nat :=
  ceilDiv (if f.val = 0 then sumNat (s.ctrls.toList.map g) else g s.ctrls[f]) 1000

/-- SMART / Health Information (R453). -/
def smartLog (s : State) (f : Fin 128) (std : Bytes) : Bytes :=
  overlay std
    [(0, toLe 1 (criticalWarning s) ++ toLe 2 (compositeTemp s) ++ toLe 1 (availableSpare s) ++ [10] ++ toLe 1 (percentUsed s)),
     (32, toLe 16 (dataUnits s f (·.readUnits))), (48, toLe 16 (dataUnits s f (·.writtenUnits))),
     (144, toLe 16 s.health.badShutdowns), (160, toLe 16 s.health.mediaErrors),
     (176, toLe 16 (((s.ctrls[f].errors.head?).map (·.n)).getD 0))]

/-- An Error Information entry, 64 B. -/
def errBytes (x : ErrEntry) : Bytes :=
  Bytes.sub (toLe 8 x.n ++ toLe 2 x.sqid ++ toLe 2 x.cid ++ toLe 2 (2 * x.status) ++ toLe 2 0 ++ toLe 8 x.lba ++ toLe 4 x.nsid) 0 64

/-- A vendor event log entry (Table 18-3). -/
def evtBytes (x : Evt) : Bytes :=
  toLe 8 x.seq ++ toLe 8 x.timestamp.toNat ++ toLe 4 x.dieSeq ++ toLe 1 x.die ++ toLe 1 x.fclass ++ toLe 2 x.code
    ++ toLe 2 x.account ++ toLe 2 x.sqid ++ toLe 2 x.cid ++ toLe 2 0 ++ toLe 4 x.session ++ Bytes.sub x.detail 0 28

/-- The events that a controller sees (R444): a VF those of its account. -/
def eventsFor (s : State) (f : Fin 128) : List Evt :=
  if f.val = 0 then s.health.events else s.health.events.filter fun x => x.account == acctOf f

/-- The vendor event log (Table 18-2). -/
def eventLog (s : State) (f : Fin 128) : Bytes :=
  let l := eventsFor s f
  let lost := if f.val = 0 then s.health.overwritten else s.health.overwrittenBy.getD (acctOf f) 0
  toLe 4 l.length ++ toLe 2 64 ++ toLe 2 0 ++ toLe 8 (((l.head?).map (·.seq)).getD 0)
    ++ toLe 8 (((l.getLast?).map (·.seq)).getD 0) ++ toLe 8 lost ++ List.replicate 32 0 ++ l.flatMap evtBytes

/-- Commands Supported and Effects: CSUPP of each opcode; the other bits are the standard's. -/
def effectsLog (f : Fin 128) (std : Bytes) : Bytes :=
  let entry (off : Nat) (has : Bool) : Bytes :=
    if has then toLe 4 (Bytes.le std off 4 / 2 * 2 + 1) else [0, 0, 0, 0]
  ((List.range 256).flatMap fun i => entry (4 * i) ((adminOpcodes f).contains i))
    ++ ((List.range 256).flatMap fun i => entry (1024 + 4 * i) (ioOpcodes.contains i)) ++ List.replicate 2048 0

/-- Sanitize Status: SPROG all ones with none in progress; SSTAT 0 never, 1 completed, 2 in progress; the Crypto Erase
action. -/
def sanitizeLog (s : State) (std : Bytes) : Bytes :=
  let st := if s.sanitizing then 2 else if s.health.sanitizes = 0 then 0 else 1
  overlay std [(0, (if s.sanitizing then toLe 2 0 else toLe 2 0xFFFF) ++ toLe 2 st ++ toLe 4 (if st = 0 then 0 else 4))]

/-- A log page of a controller (Table 11-8); none where the identifier is not listed for it. -/
def logPage (s : State) (f : Fin 128) (lid : Nat) : Option Bytes :=
  let std (n : Nat) : Bytes := stdBytes (0x10000 + 0x100 * s.free + lid) n
  let c := s.ctrls[f]
  let pf (b : Bytes) : Option Bytes := if f.val = 0 then some b else none
  match lid with
  | 0x01 => some (Bytes.sub (c.errors.flatMap errBytes) 0 16384)
  | 0x02 => some (smartLog s f (std 512))
  | 0x03 => some (overlay (std 512) [(0, [if s.fw.stage.state = 2 then 0x11 else 0x01]), (8, padText s.fw.version 8)])
  | 0x04 => some (idList c.changedNs)
  | 0x05 => some (effectsLog f (std 2048))
  | 0x06 => pf (overlay (std 564) [(0, [0, 0])])
  | 0x07 | 0x08 => pf (std 512)
  | 0x09 => some (overlay (std 512) [(3, toLe 1 (availableSpare s) ++ [10] ++ toLe 1 (percentUsed s))])
  | 0x81 => some (sanitizeLog s (std 512))
  | 0xC0 => some (eventLog s f)
  | 0xC1 => some (acctBytes s.accounts[acctIx (acctOf f)].acct)
  | _ => none

/-- Get Log Page: LID, NUMD, the offset; reading the Changed Namespace List empties it. -/
def logBody (e : Sqe) (s : State) : State :=
  let lid := fieldOf e.cdw10.toNat 7 0
  let n := 4 * (fieldOf e.cdw10.toNat 31 16 + 2 ^ 16 * fieldOf e.cdw11.toNat 15 0 + 1)
  let off := e.cdw12.toNat + 2 ^ 32 * e.cdw13.toNat
  match logPage s e.fn lid with
  | none => fail s e.key Code.invalidLogPage
  | some b =>
    if b.length < off then fail s e.key Code.invalidField
    else
      let s := { s with free := s.free + 1 }
      let s := if lid = 0x04 ∧ bitOf e.cdw10.toNat 15 = false then onCtrl s e.fn fun c => { c with changedNs := [] } else s
      sendData s e ((b.drop off).take n)

/-! ### Features -/

/-- Feature identifiers (PRESUMED, log 14; R275 for Timestamp): Arbitration, Power Management, Temperature Threshold, Error
Recovery, Number of Queues, the two Interrupt features, Write Atomicity, Asynchronous Event Configuration, Timestamp. -/
def featureIds : List Nat := [0x01, 0x02, 0x04, 0x05, 0x07, 0x08, 0x09, 0x0A, 0x0B, 0x0E]

/-- The value of a feature: current, default or saved. Number of Queues is what the controller offers (R261). -/
def featureValue (s : State) (f : Fin 128) (fid sel : Nat) : Nat :=
  let c := s.ctrls[f]
  let dflt := if fid = 0x07 then (c.qpairs - 1) * 65537 else 0
  if sel = 1 then dflt
  else if sel = 2 then c.saved.getD fid dflt
  else if fid = 0x01 then c.arb.toNat
  else if fid = 0x07 then dflt
  else c.features.getD fid dflt

/-- Get Features: SEL 3 answers what can be saved and changed. -/
def getFeatureBody (e : Sqe) (s : State) : State :=
  let fid := fieldOf e.cdw10.toNat 7 0
  let sel := fieldOf e.cdw10.toNat 10 8
  if !featureIds.contains fid || decide (3 < sel) then fail s e.key Code.invalidField
  else if sel = 3 then complete s e.key Code.ok (if fid = 0x0E then 4 else 5) 0
  else if fid = 0x0E then
    complete (hostWrite s e.key 0 ((toLe 6 s.health.timestamp.toNat ++ [0, 0]).take e.dptr)) e.key Code.ok 0 0
  else complete s e.key Code.ok (featureValue s e.fn fid sel) 0

/-- Set Features (R276). The timestamp is the module's (R445). -/
def setFeatureBody (e : Sqe) (s : State) : State :=
  let fid := fieldOf e.cdw10.toNat 7 0
  let v := e.cdw11.toNat
  if !featureIds.contains fid then fail s e.key Code.invalidField
  else if fid = 0x0E then
    if bitOf e.cdw10.toNat 31 then fail s e.key Code.invalidField
    else complete (onHealth s fun h => { h with timestamp := BitVec.ofNat 64 (Bytes.le e.inp 0 6) }) e.key Code.ok 0 0
  else
    let s := onCtrl s e.fn fun c =>
      { c with features := c.features.put fid v
               saved := if bitOf e.cdw10.toNat 31 then c.saved.put fid v else c.saved
               arb := if fid = 0x01 then e.cdw11 else c.arb }
    complete s e.key Code.ok (if fid = 0x07 then featureValue s e.fn 0x07 0 else 0) 0

/-! ### Aborts (R281) and Asynchronous Event Requests (R284) -/

/-- Does an outstanding command end at once when it is aborted? A command that changes data does not once its data is in
the write buffer. -/
def abortable (s : State) (k : CmdKey) : Bool := !(s.syncWait.any fun w => w.key == k)

/-- Abort a command in flight: a program acts on it at its tile boundary (R89). -/
def abortCommand (s : State) (k : CmdKey) : State :=
  if isProgram s k then stopPrograms s k
  else
    let s := if k.sqid = 0 then onCtrl s k.fn fun c => { c with aers := c.aers.filter (· != k.cid) } else s
    cancelWith s k Code.abortRequested

/-- Record an abort of a command not yet fetched. -/
def recordAbort (s : State) (k : CmdKey) : State :=
  onCtrl s k.fn fun c => { c with abortRecs := if c.abortRecs.contains (k.sqid, k.cid) then c.abortRecs else c.abortRecs ++ [(k.sqid, k.cid)] }

def abortBody (e : Sqe) (s : State) : State :=
  let k : CmdKey := ⟨e.fn, fieldOf e.cdw10.toNat 15 0, fieldOf e.cdw10.toNat 31 16⟩
  if 256 < (s.inflight.filter fun f => f.key.fn == e.fn && f.admin && f.kind == 0x08).length then fail s e.key Code.abortLimit
  else match flightOf s k with
    | some _ =>
      if completionWaits s k || k == e.key || !abortable s k then complete s e.key Code.ok 1 0
      else complete (abortCommand s k) e.key Code.ok 0 0
    | none =>
      if queueEmpty s.ctrls[e.fn] k.sqid then complete s e.key Code.ok 1 0
      else complete (recordAbort s k) e.key Code.ok 0 0

/-- An Asynchronous Event Request: it takes an event that waits, else waits for one; at most 16 wait. -/
def aerBody (e : Sqe) (s : State) : State :=
  let c := s.ctrls[e.fn]
  if 16 ≤ c.aers.length then fail s e.key Code.aerLimit
  else match c.events with
    | w :: t => complete (onCtrl s e.fn fun c => { c with events := t }) e.key Code.ok w.toNat 0
    | [] => onCtrl s e.fn fun c => { c with aers := c.aers ++ [e.cid] }

/-! ### Queues (R260 to R262, R282) -/

def qidOf (e : Sqe) : Nat := fieldOf e.cdw10.toNat 15 0
def qsizeOf (e : Sqe) : Nat := fieldOf e.cdw10.toNat 31 16

def createCqBody (e : Sqe) (s : State) : State :=
  let c := s.ctrls[e.fn]
  if qidOf e = 0 ∨ c.qpairs < qidOf e ∨ c.cqs.has (qidOf e) then fail s e.key Code.invalidQid
  else if qsizeOf e = 0 ∨ 16383 < qsizeOf e then fail s e.key Code.invalidQsize
  else if msixVectors e.fn ≤ fieldOf e.cdw11.toNat 31 16 then fail s e.key Code.invalidVector
  else
    let q : Cq := { size := qsizeOf e + 1, iv := fieldOf e.cdw11.toNat 31 16, ien := bitOf e.cdw11.toNat 1 }
    complete (onCtrl s e.fn fun c => { c with cqs := c.cqs.put (qidOf e) q }) e.key Code.ok 0 0

def createSqBody (e : Sqe) (s : State) : State :=
  let c := s.ctrls[e.fn]
  let cqid := fieldOf e.cdw11.toNat 31 16
  let prio := fieldOf e.cdw11.toNat 2 1
  if qidOf e = 0 ∨ c.qpairs < qidOf e ∨ c.sqs.has (qidOf e) then fail s e.key Code.invalidQid
  else if qsizeOf e = 0 ∨ 16383 < qsizeOf e then fail s e.key Code.invalidQsize
  else if !c.cqs.has cqid then fail s e.key Code.invalidCq
  else if prio = 0 ∧ c0Rights s (acctOf e.fn) = false then fail s e.key Code.invalidField
  else
    let q : Sq := { size := qsizeOf e + 1, cqid := cqid, prio := BitVec.ofNat 2 prio }
    complete (onCtrl s e.fn fun c => { c with sqs := c.sqs.put (qidOf e) q }) e.key Code.ok 0 0

/-- Deletion of a submission queue (R282): a visit to it ends, aborts recorded for it go. -/
def deleteSqBody (e : Sqe) (s : State) : State :=
  if !s.ctrls[e.fn].sqs.has (qidOf e) then fail s e.key Code.invalidQid
  else
    let s := endQueue s e.fn (qidOf e)
    let s := onCtrl s e.fn fun c =>
      { c with sqs := c.sqs.del (qidOf e), abortRecs := c.abortRecs.filter fun r => r.1 != qidOf e }
    let s := { s with visit := match s.visit with
      | some (p, q, n) => if p = e.fn.val ∧ q = qidOf e then none else some (p, q, n)
      | none => none }
    complete s e.key Code.ok 0 0

/-- Deletion of a completion queue: its entries go, and the commands whose completions waited there free their slots. -/
def deleteCqBody (e : Sqe) (s : State) : State :=
  let c := s.ctrls[e.fn]
  match c.cqs.get? (qidOf e) with
  | none => fail s e.key Code.invalidQid
  | some q =>
    if c.sqs.any fun p => p.2.cqid == qidOf e then fail s e.key Code.invalidQueueDeletion
    else
      let s := freeSlotsOf s e.fn q.waiting
      complete (onCtrl s e.fn fun c => { c with cqs := c.cqs.del (qidOf e) }) e.key Code.ok 0 0

/-! ### Namespaces (R266 to R270, R478) -/

/-- The user capacity (R335). -/
def userCapacity : Nat := 153600000000000

/-- Bytes of namespaces that satisfy a test. -/
def nsBytes (s : State) (p : Ns → Bool) : Nat := sumNat ((s.nss.filter fun x => p x.2).map fun x => x.2.nsze * 4096)

/-- Namespace Attribute Changed (R284). -/
def nsChanged (s : State) (f : Fin 128) (nsid : Nat) : State :=
  notice (onCtrl s f fun c => { c with changedNs := if c.changedNs.contains nsid then c.changedNs else c.changedNs ++ [nsid] })
    f nsChangedNotice

/-- Is a namespace one that R270 does not let be deleted? -/
def nsInUse (s : State) (nsid : Nat) : Bool :=
  (s.sess.any fun x => x.2.kvNsid == nsid && x.2.state != 0) || (s.indexes.any fun x => x.2.nsid == nsid)
    || (s.tables.any fun x => x.2.nsid == nsid) || s.ingests.any fun g => g.srcNs == nsid

/-- Is a format legal for a size (R269, R478)? -/
def formatOk (flbas nsze : Nat) : Bool := flbas == 0 || (flbas == 1 && nsze % 4 == 0)

def nsCreateBody (e : Sqe) (s : State) : State :=
  let nsze := Bytes.le e.inp 0 8
  let flbas := Bytes.le e.inp 26 1
  let n : Ns := { account := acctOf e.fn, nsze := nsze, flbas := flbas, nsk := Config.freeNat s.free }
  if fieldOf e.cdw10.toNat 3 0 ≠ 0 then fail s e.key Code.invalidField
  else if !keyOpen s (acctOf e.fn) then fail s e.key Code.accessDenied
  else if e.dptr < 4096 then fail s e.key (Code.shortData e)
  else if Bytes.le e.inp 8 8 ≠ nsze ∨ formatOk flbas nsze = false ∨ Bytes.le e.inp 29 2 ≠ 0 then fail s e.key Code.invalidField
  else match Tab.firstFree s.nss 1 1024 with
    | none => fail s e.key Code.nsIdUnavailable
    | some id =>
      if userCapacity < nsBytes s (fun _ => true) + nsze * 4096
          ∨ dv s (0x304000 + acctOf e.fn) < nsBytes s (fun x => x.account == acctOf e.fn) + nsze * 4096
          ∨ regionBytes s < regionUsed s + mapTableBytes n then fail s e.key Code.nsCapacity
      else
        let s := nsChanged { s with nss := s.nss.put id n, free := s.free + 1 } e.fn id
        complete s e.key Code.ok id 0

/-- The namespaces that an NSID names: all ones names every one of the account. -/
def namedNss (s : State) (e : Sqe) : List Nat :=
  if e.nsid = 0xFFFFFFFF then nssOf s (acctOf e.fn) else if (ownNs s e.fn e.nsid).isSome then [e.nsid] else []

/-- Delete a namespace that is not in use: its key goes, its capacity and its mapping table are free (R270). -/
def deleteNs (s : State) (nsid : Nat) : State :=
  let s := wipeNs s nsid
  { s with nss := s.nss.del nsid }

def nsDeleteBody (e : Sqe) (s : State) : State :=
  let l := namedNss s e
  if fieldOf e.cdw10.toNat 3 0 ≠ 1 then fail s e.key Code.invalidField
  else if e.nsid ≠ 0xFFFFFFFF ∧ l = [] then fail s e.key Code.invalidNs e.nsid
  else if l.any (nsInUse s) then fail s e.key Code.sequenceError e.nsid
  else complete (l.foldl (fun a i => nsChanged (deleteNs a i) e.fn i) s) e.key Code.ok 0 0

/-- Namespace Attachment: SEL 0 attaches, 1 detaches; only the own controller may be named (R267). -/
def nsAttachBody (e : Sqe) (s : State) : State :=
  let sel := fieldOf e.cdw10.toNat 3 0
  let count := Bytes.le e.inp 0 2
  let ids := (List.range count).map fun i => Bytes.le e.inp (2 + 2 * i) 2
  match ownNs s e.fn e.nsid with
  | none => fail s e.key Code.invalidNs e.nsid
  | some n =>
    if 1 < sel ∨ count = 0 ∨ 2047 < count then fail s e.key Code.invalidField
    else if ids.any (· != acctOf e.fn) then fail s e.key (if sel = 0 then Code.nsPrivate else Code.nsNotAttached)
    else if sel = 0 ∧ n.attached then fail s e.key Code.nsAlreadyAttached
    else if sel = 1 ∧ n.attached = false then fail s e.key Code.nsNotAttached
    else
      let s := { s with nss := s.nss.put e.nsid { n with attached := sel == 0 } }
      complete (nsChanged s e.fn e.nsid) e.key Code.ok 0 0

/-- A namespace after a format. -/
def formatNs (s : State) (nsid flbas : Nat) (rekey : Bool) : State :=
  let s := wipeNs s nsid
  let k := s.free
  { s with free := k + 1
           nss := s.nss.mod nsid fun n => { n with flbas := flbas, nsk := if rekey then Config.freeNat k else n.nsk } }

/-- Mapping-table bytes of a namespace under a format. -/
def tableUnder (s : State) (flbas nsid : Nat) : Nat :=
  ((s.nss.get? nsid).map fun n => mapTableBytes { n with flbas := flbas }).getD 0

/-- Format NVM (R478): LBAF and SES of CDW10. -/
def formatBody (e : Sqe) (s : State) : State :=
  let l := namedNss s e
  let flbas := fieldOf e.cdw10.toNat 3 0 + 16 * fieldOf e.cdw10.toNat 13 12
  let ses := fieldOf e.cdw10.toNat 11 9
  let tabs (f : Nat → Nat) : Nat := sumNat (l.map f)
  let now := tabs fun i => ((s.nss.get? i).map mapTableBytes).getD 0
  if e.nsid ≠ 0xFFFFFFFF ∧ l = [] then fail s e.key Code.invalidNs e.nsid
  else if 2 < ses ∨ fieldOf e.cdw10.toNat 8 4 ≠ 0 then fail s e.key Code.invalidField
  else if l.any (nsInUse s) then fail s e.key Code.sequenceError e.nsid
  else if l.any fun i => !formatOk flbas (((s.nss.get? i).map (·.nsze)).getD 0) then fail s e.key Code.invalidFormat e.nsid
  else if regionBytes s + now < regionUsed s + tabs (tableUnder s flbas) then fail s e.key Code.nsCapacity e.nsid
  else complete (l.foldl (fun a i => nsChanged (formatNs a i flbas (ses == 2)) e.fn i) s) e.key Code.ok 0 0

end Sys2Proof.Machine
end

