-- ==== Sys2Proof/Machine/HostIf.lean ====
section
/-! DEFINITION. Meanings of the host interface's rows (11): registers, doorbells, fetching, admin commands, resets. -/

namespace Sys2Proof.Machine

/-- REGISTER_WRITE (R10). -/
def execRegisterWrite (r : RegAddr) (value : W64) (s : State) : Out := .next (regWrite s r value.toNat)

/-- CONFIG_REQUEST (R256): answered whenever the link is trained, in every module state. -/
def execConfigRequest (fn : Fin 128) (off : Nat) (s : State) : Out :=
  .next (if s.power.linkUp then { s with cfgSent := (fn.val, off, configWord fn off) :: s.cfgSent } else s)

/-- SQ_TAIL_DOORBELL (R257). -/
def execSqTailDoorbell (fn : Fin 128) (sqid tail : Nat) (s : State) : Out := .next (sqTail s fn sqid tail)

/-- CQ_HEAD_DOORBELL (R264). -/
def execCqHeadDoorbell (fn : Fin 128) (cqid head : Nat) (s : State) : Out := .next (cqHead s fn cqid head)

/-- COMMAND_FETCH (R263). -/
def execCommandFetch (opc : BitVec 8) (cid nsid : Nat) (session : Option Nat) (s : State) : Out :=
  .next (fetchOne s opc.toNat cid nsid session)

/-- IDENTIFY (R259). -/
def execIdentify (e : Sqe) (s : State) : Out := .next (nvme s e 0x06 true (identifyBody e))

/-- GET_LOG_PAGE (R283). -/
def execGetLogPage (e : Sqe) (s : State) : Out := .next (nvme s e 0x02 true (logBody e))

/-- GET_FEATURES (R259). -/
def execGetFeatures (e : Sqe) (s : State) : Out := .next (nvme s e 0x0A true (getFeatureBody e))

/-- SET_FEATURES (R276). -/
def execSetFeatures (e : Sqe) (s : State) : Out := .next (nvme s e 0x09 true (setFeatureBody e))

/-- ABORT (R281). -/
def execAbort (e : Sqe) (s : State) : Out := .next (nvme s e 0x08 true (abortBody e))

/-- ASYNCHRONOUS_EVENT_REQUEST (R284). -/
def execAsynchronousEventRequest (e : Sqe) (s : State) : Out := .next (nvme s e 0x0C true (aerBody e))

/-- CREATE_IO_SUBMISSION_QUEUE (R262). -/
def execCreateIoSubmissionQueue (e : Sqe) (s : State) : Out := .next (nvme s e 0x01 true (createSqBody e))

/-- CREATE_IO_COMPLETION_QUEUE (R259). -/
def execCreateIoCompletionQueue (e : Sqe) (s : State) : Out := .next (nvme s e 0x05 true (createCqBody e))

/-- DELETE_IO_SUBMISSION_QUEUE (R282). -/
def execDeleteIoSubmissionQueue (e : Sqe) (s : State) : Out := .next (nvme s e 0x00 true (deleteSqBody e))

/-- DELETE_IO_COMPLETION_QUEUE (R259). -/
def execDeleteIoCompletionQueue (e : Sqe) (s : State) : Out := .next (nvme s e 0x04 true (deleteCqBody e))

/-- NAMESPACE_CREATE (R269). -/
def execNamespaceCreate (e : Sqe) (s : State) : Out := .next (nvme s e 0x0D true (nsCreateBody e))

/-- NAMESPACE_DELETE (R270). -/
def execNamespaceDelete (e : Sqe) (s : State) : Out := .next (nvme s e 0x0D true (nsDeleteBody e))

/-- NAMESPACE_ATTACHMENT (R267). -/
def execNamespaceAttachment (e : Sqe) (s : State) : Out := .next (nvme s e 0x15 true (nsAttachBody e))

/-- FORMAT_NVM (R478). -/
def execFormatNvm (e : Sqe) (s : State) : Out := .next (nvme s e 0x80 true (formatBody e))

end Sys2Proof.Machine
end

