-- ==== Sys2Proof/Machine/IndexOps.lean ====
section
/-! DEFINITION. INDEX-MANAGE (spec 12 R301, R302): creation, batches, destruction, ingest bindings and recall probes. -/

namespace Sys2Proof.Machine

open Num

/-! ### CREATE (R134, R135, R139, R479) -/

/-- Are the parameters of an index in their ranges (Table 6-1)? -/
def indexParamsOk (p : IndexP) : Bool :=
  decide (32 ≤ p.vdim) && decide (p.vdim ≤ 3072) && decide (p.vdim % 32 = 0) && [8, 16, 32, 48].contains p.csub
    && decide (p.vdim % p.csub = 0) && (p.vfmt == 1 || p.vfmt == 5 || p.vfmt == 6) && decide (p.metric ≤ 1)
    && decide (8 ≤ p.maxdeg) && decide (p.maxdeg ≤ 64) && decide (p.maxdeg % 8 = 0) && decide (1 ≤ p.entries)
    && decide (p.entries ≤ 4) && decide (p.maxdeg ≤ p.buildL) && decide (p.buildL ≤ 512) && decide (0x3C00 ≤ p.alpha)
    && decide (p.alpha ≤ 0x4000)

/-- May a namespace hold a new index (R134, Table 11-6)? An ingest source stays plain. -/
def indexNsOk (s : State) (e : Sqe) : Bool :=
  match nsFor s e.fn e.nsid with
  | some n => n.flbas == 0 && (n.role == .plain || n.role == .index) && nsEmpty s e.nsid && (indexOfNs s e.nsid).isNone
      && !(s.ingests.any fun g => g.srcNs == e.nsid)
  | none => false

/-- The index that parameters describe, in a namespace of `u` units. -/
def newIndex (s : State) (acct nsid u : Nat) (p : IndexP) : Index :=
  { account := acct, nsid := nsid, vdim := p.vdim, vfmt := BitVec.ofNat 4 p.vfmt, metric := p.metric, maxdeg := p.maxdeg
    csub := p.csub, nentries := p.entries, buildL := p.buildL, alpha := BitVec.ofNat 16 p.alpha
    seed := BitVec.ofNat 64 p.seed, slots := slotCount u p.vdim p.csub, qslots := dv s 0x421003 }

/-- INDEX-MANAGE CREATE. -/
def indexCreateBody (e : Sqe) (s : State) : State :=
  let p := indexP (Bytes.sub e.inp 0 64)
  let acct := acctOf e.fn
  match manageRefuse e with
  | some c => fail s e.key c e.nsid
  | none =>
    if e.cdw11 ≠ 64 ∨ !indexNsOk s e ∨ !indexParamsOk p then fail s e.key Code.invalidField e.nsid
    else if !keyOpen s acct then fail s e.key Code.keyLocked e.nsid
    else if s.health.readOnly then fail s e.key Code.writeProtected e.nsid
    else
      match s.indexes.firstFree 0 indexLimit with
      | none => fail s e.key Code.capacity e.nsid
      | some i =>
        let x := newIndex s acct e.nsid (((s.nss.get? e.nsid).map (·.nsze)).getD 0) p
        if regionFree s < indexBytes x ∨ overQuota s acct (indexBytes x) then fail s e.key Code.capacity e.nsid
        else complete (setRole { s with indexes := s.indexes.put i x } e.nsid .index) e.key Code.ok i 0

/-! ### INSERT and DELETE (R143, R144) -/

/-- Bytes of an INSERT entry. -/
def insertBytes (vdim pstride : Nat) : Nat := 144 + 2 * vdim + pstride

/-- Entry `k` of an INSERT batch (Table 12-10). -/
def insertAt (b : Bytes) (vdim pstride fmt k : Nat) : Entry :=
  let o := 16 + k * insertBytes vdim pstride
  { userId := BitVec.ofNat 64 (Bytes.le b o 8), attr := Bytes.sub b (o + 16) 128
    payload := Bytes.sub b (o + 144 + 2 * vdim) (Bytes.le b (o + 8) 2), fmt := fmt
    vec := (Bytes.les b (o + 144) 2 vdim).map (BitVec.ofNat 16) }

/-- Are the header and the entries of an INSERT in their ranges? -/
def insertOk (x : Index) (e : Sqe) : Bool :=
  let b := e.inp
  let (fmt, ps, n) := (Bytes.le b 0 1, Bytes.le b 2 2, Bytes.le b 4 4)
  (fmt == 7 || fmt == 8) && decide (ps ≤ 608) && decide (ps % 8 = 0)
    && e.cdw11.toNat == 16 + n * insertBytes x.vdim ps
    && (List.range n).all fun k => decide (Bytes.le b (16 + k * insertBytes x.vdim ps + 8) 2 ≤ ps)

/-- INDEX-MANAGE INSERT. -/
def indexInsertBody (e : Sqe) (s : State) : State :=
  let i := cdw10Hi e
  match manageRefuse e, indexFor s e.fn i with
  | some c, _ => fail s e.key c
  | none, none => fail s e.key Code.invalidField
  | none, some x =>
    if !insertOk x e then fail s e.key Code.invalidField
    else if !keyOpen s x.account then fail s e.key Code.keyLocked
    else if s.health.readOnly then fail s e.key Code.writeProtected
    else
      let b := e.inp
      let n := Bytes.le b 4 4
      let (s, done) := (List.range n).foldl (fun (a : State × Nat) k =>
        let (s, ok) := insertEntry a.1 i (insertAt b x.vdim (Bytes.le b 2 2) (Bytes.le b 0 1) k)
        (s, if ok then a.2 + 1 else a.2)) (s, 0)
      complete s e.key Code.ok done (256 * (n - done))

/-- Delete a USER_ID from the pending changes of an index; answers whether it was live. -/
def deleteEntry (s : State) (i : Nat) (u : BitVec 64) : State × Bool :=
  match s.indexes.get? i with
  | none => (s, false)
  | some x =>
    let (y, ok) := deleteUser x u
    (onIndex s i fun _ => y, ok)

/-- INDEX-MANAGE DELETE. -/
def indexDeleteBody (e : Sqe) (s : State) : State :=
  let i := cdw10Hi e
  let n := Bytes.le e.inp 0 4
  match manageRefuse e, indexFor s e.fn i with
  | some c, _ => fail s e.key c
  | none, none => fail s e.key Code.invalidField
  | none, some x =>
    if e.cdw11.toNat ≠ 16 + 8 * n then fail s e.key Code.invalidField
    else if !keyOpen s x.account then fail s e.key Code.keyLocked
    else if s.health.readOnly then fail s e.key Code.writeProtected
    else
      let (s, done) := (Bytes.les e.inp 16 8 n).foldl (fun (a : State × Nat) u =>
        let (s, ok) := deleteEntry a.1 i (BitVec.ofNat 64 u)
        (s, if ok then a.2 + 1 else a.2)) (s, 0)
      complete s e.key Code.ok done (256 * (n - done))

/-- INDEX-MANAGE DESTROY (R302): it waits for the index's queries. -/
def indexDestroyBody (e : Sqe) (s : State) : State :=
  let i := cdw10Hi e
  match manageRefuse e, indexFor s e.fn i with
  | some c, _ => fail s e.key c
  | none, none => fail s e.key Code.invalidField
  | none, some x =>
    if !keyOpen s x.account then fail s e.key Code.keyLocked
    else if s.ingests.any (·.index == i) then fail s e.key Code.sequenceError
    else freeIndex (onIndex s i fun x => { x with destroying := some e.key }) i

/-! ### INGEST-BIND (R167, R168) -/

/-- Are a binding's parameters in their ranges (Table 7-1)? -/
def bindParamsOk (s : State) (e : Sqe) (p : IngestP) : Bool :=
  let src := match nsFor s e.fn e.nsid with
    | some n => n.flbas == 0 && n.role == .plain
    | none => false
  src && s.ctrls[e.fn].programs.has p.program && decide (16 ≤ p.chunkTokens) && decide (p.chunkTokens ≤ 8192)
    && decide (2 * p.overlap ≤ p.chunkTokens) && decide (p.payload ≤ 2) && decide (1 ≤ p.commitChunks)
    && decide (p.commitChunks ≤ 1048576) && decide (1 ≤ p.commitMs) && decide (p.commitMs ≤ 60000) && decide (1 ≤ p.cls)
    && decide (p.cls ≤ 3) && decide (Bytes.le e.inp 17 1 < 2) && !(s.ingests.any fun g => g.srcNs == e.nsid)

/-- Join units that follow one another into ranges of units. -/
def joinUnits : List Nat → List (Nat × Nat)
  | [] => []
  | u :: t =>
    match joinUnits t with
    | (v, n) :: r => if v = u + 1 then (u, n + 1) :: r else (u, 1) :: (v, n) :: r
    | [] => [(u, 1)]

/-- The segments that BACKFILL queues: the allocated ranges of a namespace, rising. -/
def backfill (s : State) (nsid : Nat) : List Segment :=
  let us := (s.map.filter fun p => p.1 / 2 ^ 48 == nsid && p.2.st != .dealloc).map fun p => p.1 % 2 ^ 48
  (joinUnits us).flatMap fun r => segmentsOf (4096 * r.1) (4096 * r.2) true

/-- INDEX-MANAGE INGEST-BIND. -/
def ingestBindBody (e : Sqe) (s : State) : State :=
  let i := cdw10Hi e
  let p := ingestP (Bytes.sub e.inp 0 64)
  match manageRefuse e, indexFor s e.fn i with
  | some c, _ => fail s e.key c e.nsid
  | none, none => fail s e.key Code.invalidField e.nsid
  | none, some x =>
    if e.cdw11 ≠ 64 ∨ !bindParamsOk s e p ∨ s.ingests.any (·.index == i) then fail s e.key Code.invalidField e.nsid
    else if !keyOpen s x.account then fail s e.key Code.keyLocked e.nsid
    else if s.health.readOnly then fail s e.key Code.writeProtected e.nsid
    else
      let g : Ingest := { index := i, srcNs := e.nsid, account := x.account, p := p }
      let all := if p.backfill then backfill s e.nsid else []
      let g := { g with queue := all.take segmentQueue, later := all.drop segmentQueue }
      complete { s with ingests := s.ingests ++ [g] } e.key Code.ok 0 0

/-! ### RECALL-PROBE (R163) -/

/-- Fields of a RECALL-PROBE's header, and its SEARCH parameter block. -/
def probeN (e : Sqe) : Nat := Bytes.le e.inp 0 2
def probeSource (e : Sqe) : Nat := Bytes.le e.inp 2 1
def probeFmt (e : Sqe) : Nat := Bytes.le e.inp 3 1
def probeP (e : Sqe) : SearchP := searchP (Bytes.sub e.inp 64 64)

/-- Query `k` that a probe supplies, as the codes of its elements. -/
def suppliedQuery (x : Index) (e : Sqe) (k : Nat) : List W16 :=
  (Bytes.les e.inp (128 + (probeP e).plen + 2 * x.vdim * k) 2 x.vdim).map (BitVec.ofNat 16)

/-- The parameters and queries of a probe in their ranges: its block is checked as that of a Pinned SEARCH. -/
def probeOk (x : Index) (e : Sqe) : Bool :=
  let p := probeP e
  let n := probeN e
  let q := if probeSource e = 0 then n * 2 * x.vdim else 0
  let blank : Bytes := Bytes.sub e.inp 64 64 ++ Bytes.sub [] 0 (predOff x.vdim - 64) ++ Bytes.sub e.inp 128 p.plen
  let asSearch := { e with inp := blank, cdw10 := BitVec.ofNat 32 (predOff x.vdim + p.plen), cdw11 := BitVec.ofNat 32 (2 ^ 31) }
  decide (1 ≤ n) && decide (n ≤ 1024) && decide (probeSource e ≤ 1) && e.cdw11.toNat == 128 + p.plen + q && p.mode == 1
    && queryParamsOk x asSearch p
    && (probeSource e == 1 || ((probeFmt e == 7 || probeFmt e == 8)
      && (List.range n).all fun k => (suppliedQuery x e k).all fun c => (dec (probeFmt e) c.toNat).isFin))

/-- The query that probe `k` runs. -/
def probeQuery (x : Index) (e : Sqe) (i k : Nat) : Query :=
  let p := probeP e
  let gen := if p.gen = 0 then x.cur else p.gen
  let q : Query := { e := e, index := i, gen := gen, pred := Bytes.sub e.inp 128 p.plen, lcur := p.l, passBudget := p.visitBudget }
  if probeSource e = 0 then { q with p := { p with qfmt := BitVec.ofNat 4 (probeFmt e) }, query := suppliedQuery x e k }
  else
    let g := genOf x gen
    match (sampleNode x g k).bind fun n => (g.nodes.get? n).map fun y => (n, y) with
    | none => { q with p := p }
    | some (n, y) => { q with p := { p with qfmt := 7 }, query := sampleQuery x y, without := some n }

/-- The report of a probe (Table 12-12). -/
def probeReport (rs : List (Nat × Nat × Nat × Nat)) : Bytes :=
  toLe 4 rs.length ++ toLe 4 0 ++ toLe 8 (sumNat (rs.map (·.1))) ++ toLe 8 (sumNat (rs.map (·.2.1))) ++ toLe 8 0
    ++ rs.flatMap fun r => toLe 4 r.1 ++ toLe 4 r.2.1 ++ toLe 4 r.2.2.1 ++ toLe 4 r.2.2.2

/-- INDEX-MANAGE RECALL-PROBE: it reads one generation and reports once. -/
def recallProbeBody (e : Sqe) (s : State) : State :=
  let i := cdw10Hi e
  match manageRefuse e, indexFor s e.fn i with
  | some c, _ => fail s e.key c
  | none, none => fail s e.key Code.invalidField
  | none, some x =>
    let p := probeP e
    let gen := if p.gen = 0 then x.cur else p.gen
    let live := (genOf x gen).nodes.any fun n => !n.2.tomb
    if !probeOk x e ∨ (probeSource e = 1 ∧ !live) then fail s e.key Code.invalidField
    else if p.gen ≠ 0 ∧ !retainedGen s i x p.gen then failDw0 s e.key Code.indexGenRetired (oldestGen s i x)
    else if !keyOpen s x.account then fail s e.key Code.keyLocked
    else
      match badNode s x gen ((genOf x gen).nodes.map (·.1)) with
      | some n => fail s e.key Code.unrecoveredRead x.nsid n
      | none =>
        let qs := (List.range (probeN e)).map fun k => probeQuery x e i k
        let runs := qs.map fun q => (wholePinned x q).1
        match readRun s i x runs with
        | (s, some u) => fail s e.key Code.unrecoveredRead x.nsid u
        | (s, none) =>
          let rs := (qs.zip runs).map fun r => probeOne x r.1 r.2
          let reads := sumNat (rs.map (·.2.2.2)) + ceilDiv (probeN e) 64 * x.slots
          let s := bump 0x607003 (sumNat (runs.map (·.widened))) (charge s x.account none fFlashRd (4096 * reads))
          let old := s.accounts[acctIx x.account].probes
          let h := maxNat (old.map (·.1)) + 1
          let s := onAcct s (acctIx x.account) fun a => { a with probes := ((h, probeReport rs) :: old).take 8 }
          complete s e.key Code.ok h 0

/-- INDEX-MANAGE: its OP is CDW10 [7:0] (R301). -/
def indexManage (e : Sqe) (s : State) : State :=
  match cdw10Op e with
  | 1 => indexCreateBody e s
  | 2 => indexInsertBody e s
  | 3 => indexDeleteBody e s
  | 4 => commitBody e s
  | 5 => indexDestroyBody e s
  | 6 => ingestBindBody e s
  | 7 => unbindBody e s
  | 8 => recallProbeBody e s
  | _ => fail s e.key Code.invalidField e.nsid

end Sys2Proof.Machine
end

