-- ==== Sys2Proof/Machine/Index.lean ====
section
/-! DEFINITION. INDEX-MANAGE commands, compaction and the freeing of generations (spec 06 R134 to R146, R163, spec 12
R301, R302). -/

namespace Sys2Proof.Machine

/-- INDEX_CREATE: OP 0x01 (R134, R135). -/
def execIndexCreate (e : Sqe) (s : State) : Out := .next (nvme s e opIndexManage true (indexManage e))

/-- INDEX_INSERT: OP 0x02 (R143). -/
def execIndexInsert (e : Sqe) (s : State) : Out := .next (nvme s e opIndexManage true (indexManage e))

/-- INDEX_DELETE: OP 0x03 (R143, R144). -/
def execIndexDelete (e : Sqe) (s : State) : Out := .next (nvme s e opIndexManage true (indexManage e))

/-- INDEX_COMMIT: OP 0x04 (R142). -/
def execIndexCommit (e : Sqe) (s : State) : Out := .next (nvme s e opIndexManage true (indexManage e))

/-- INDEX_DESTROY: OP 0x05 (R302). -/
def execIndexDestroy (e : Sqe) (s : State) : Out := .next (nvme s e opIndexManage true (indexManage e))

/-- INGEST_BIND: OP 0x06 (R167). -/
def execIngestBind (e : Sqe) (s : State) : Out := .next (nvme s e opIndexManage true (indexManage e))

/-- INGEST_UNBIND: OP 0x07 (R172). -/
def execIngestUnbind (e : Sqe) (s : State) : Out := .next (nvme s e opIndexManage true (indexManage e))

/-- RECALL_PROBE: OP 0x08 (R163). -/
def execRecallProbe (e : Sqe) (s : State) : Out := .next (nvme s e opIndexManage true (indexManage e))

/-- COMPACTION_CHUNK: one chunk of a compaction that is due publishes a generation (R145), where its slots find room in
the write buffer. -/
def execCompactionChunk (i : Nat) (s : State) : Out :=
  .next (
    match s.indexes.get? i with
    | none => s
    | some x =>
      if s.health.readOnly ∨ freeSlots s < writeGenSlots s x {} (genOf x x.cur) then s
      else compactChunk s i)

/-- An index without the generations that are no longer retained (R142). -/
def freeGens (s : State) (i : Nat) (x : Index) : Index := { x with gens := x.gens.keep fun g _ => retainedGen s i x g }

/-- GENERATION_FREE: space held only by generations that are not retained is freed (R142, R178). -/
def execGenerationFree (s : State) : Out :=
  .next { s with indexes := s.indexes.mapVals (freeGens s), tables := s.tables.mapVals (freeTabGens s) }

end Sys2Proof.Machine
end

