-- ==== Sys2Proof/Machine/Ingest.lean ====
section
/-! DEFINITION. Ingest bindings at work (spec 07 R168 to R172): segments, chunk lists and commits. -/

namespace Sys2Proof.Machine

open Num

/-- USER_ID of the chunk of a binding that starts at an offset (R170). -/
def chunkId (p : IngestP) (start : Nat) : BitVec 64 := BitVec.ofNat 64 (p.ingestId * 2 ^ 48 + start)

/-- Step 1 of R170: the chunks that overlap a segment are deleted. -/
def dropChunks (s : State) (g : Ingest) (seg : Segment) : State :=
  let hit (p : Nat × Nat) : Bool := decide (p.1 < seg.offset + seg.length) && decide (seg.offset < p.1 + p.2)
  let s := (g.chunks.filter hit).foldl (fun a p => onIndex a g.index fun x => (deleteUser x (chunkId g.p p.1)).1) s
  onIngest s g.index fun g => { g with chunks := g.chunks.filter fun p => !hit p }

/-- The program of a segment starts: its START entry gives the namespace offset, the length, CHUNK_TOKENS and OVERLAP
(R170 step 2); its draws are keyed by the binding alone (R172). -/
def startSegment (s : State) (c : Fin 8) (g : Ingest) (im : Image) (seg : Segment) : State :=
  let fn : Fin 128 := (finOf? 128 (g.account - 1)).getD 0
  let p : Prog := { account := g.account, fn := fn, index := g.p.program, binding := some g.index, imageHash := im.hash }
  let p : Prog := { p with seed := BitVec.ofNat 64 g.p.ingestId }
  let b := toLe 8 seg.offset ++ toLe 4 seg.length ++ toLe 2 g.p.chunkTokens ++ toLe 2 g.p.overlap
  let s := onIngest s g.index fun g => { popSegment g with current := some seg }
  startProgram s c false im p (mkEntry 1 0 b)

/-- INGEST_SEGMENT: a binding with no segment in progress takes its next one (R170). A segment with text waits for its
program and for a free core. -/
def execIngestSegment (i : Nat) (core : Fin 8) (s : State) : Out :=
  .next (
    match s.ingests.find? (·.index == i) with
    | none => s
    | some g =>
      match g.current, g.queue with
      | none, seg :: _ =>
        let skip (s : State) : State := onIngest (dropChunks s g seg) i fun g => segmentDone seg (popSegment g)
        if !keyOpen s g.account then s
        else if !seg.text then settle (skip s)
        else
          match s.nss.get? g.srcNs, s.ctrls[(finOf? 128 (g.account - 1)).getD 0].programs.get? g.p.program with
          | some n, some im =>
            if (unrecovered s g.srcNs n seg.offset seg.length).isSome then settle (rejectSegment (skip s) g seg)
            else
              match readyCore s none core false g.account im with
              | (s, some c) => startSegment (dropChunks s g seg) c g im seg
              | (_, none) => s
          | _, _ => s
      | _, _ => s)

/-- May a chunk list be applied (R171)? -/
def chunksOk (x : Index) (seg : Segment) (chunks : List Chunk) : Bool :=
  let inside (c : Chunk) : Bool :=
    decide (0 < c.length) && decide (seg.offset ≤ c.start) && decide (c.start + c.length ≤ seg.offset + seg.length)
  let rec rising : List Chunk → Bool
    | a :: b :: t => decide (a.start < b.start) && rising (b :: t)
    | _ => true
  chunks.all inside && rising chunks
    && chunks.all fun c => c.vec.length == x.vdim && c.vec.all fun v => (dec 7 v.toNat).isFin

/-- Payload of a chunk's node (R170 step 4). -/
def chunkPayload (s : State) (g : Ingest) (c : Chunk) : Bytes :=
  if g.p.payload = 0 then []
  else
    let loc := toLe 8 c.start ++ toLe 4 c.length
    if g.p.payload = 1 then loc else loc ++ readMedia s g.srcNs c.start (min 596 c.length)

/-- Insert the node of a chunk. -/
def insertChunk (i : Nat) (g : Ingest) (s : State) (c : Chunk) : State :=
  let e : Entry := { userId := chunkId g.p c.start, attr := [], payload := chunkPayload s g c, fmt := 7, vec := c.vec }
  match insertEntry s i e with
  | (s, true) => onIngest s i fun g => { g with chunks := g.chunks.put c.start c.length, sinceCommit := g.sinceCommit + 1 }
  | (s, false) => s

/-- Insert the node of a chunk; COMMIT_CHUNKS inserts commit the index (R172). -/
def applyChunk (i : Nat) (g : Ingest) (s : State) (c : Chunk) : State :=
  let s := insertChunk i g s c
  if (s.ingests.any fun g => g.index == i && chunksDue g) && !s.health.readOnly then commitIngest s i else s

/-- INGEST_CHUNK_LIST: the program of the segment in progress answers (R170, R171); `ok` is false where it faulted or
returned an error status. -/
def execIngestChunkList (i : Nat) (ok : Bool) (chunks : List Chunk) (s : State) : Out :=
  .next (
    match s.ingests.find? (·.index == i), s.indexes.get? i with
    | some g, some x =>
      match g.current with
      | none => s
      | some seg =>
        let s := endBinding s i
        let s := if ok && chunksOk x seg chunks then chunks.foldl (applyChunk i g) s else rejectSegment s g seg
        settle (onIngest s i (segmentDone seg))
    | _, _ => s)

/-- INGEST_COMMIT: COMMIT_MS after its first uncommitted insert a binding commits its index (R172). The model has no clock: the
time is taken to have come when inserts are uncommitted (log 12). -/
def execIngestCommit (i : Nat) (s : State) : Out :=
  .next (
    match s.ingests.find? (·.index == i) with
    | none => s
    | some g => if s.health.readOnly ∨ g.sinceCommit = 0 then s else commitIngest s i)

end Sys2Proof.Machine
end

