-- ==== Sys2Proof/Machine/Lamp.lean ====
section
/-! DEFINITION. Meanings of the lamp-cluster rows (spec 04, R98 to R104) and of PARTIAL_MERGE (spec 02, R40). -/

namespace Sys2Proof.Machine

open Sys2Proof.Num

/-- May the program of a core dispatch a kernel: one of its own image, or a slot that holds none (R103, R108)? -/
def ownKernel (s : State) (c : Fin 8) (kernel : Nat) : Bool :=
  match progOn s c with
  | none => true
  | some p => !s.kernels.has kernel || ((imageOf s p).map fun im => im.kernels.contains kernel).getD false

/-- LAMP_DISPATCH: the 64 bytes of a dispatch window reach the cluster (R103). A core's dispatch carries its account and
seed, whatever the sender writes; one for another image's kernel is an access fault (R108, R109). -/
def execLampDispatch (ch : Fin 48) (d : LampDispatch) (s : State) : Out :=
  if d.dw.length ≠ 16 then .fault .illFormed
  else
    match d.core with
    | none => .next (deliver s ch d).1
    | some c =>
      if !cpRuns s c then .next s
      else if !ownKernel s c (lampFields d.dw).kernel then .next (settle (accessFault s c (0x30002000 + 64 * ch.val)))
      else .next (act s c (.dispatch ch { d with account := ownerOn s c, seed := seedOn s c, cmd := (progOn s c).bind (·.handle) }))

/-- LAMP_CONTEXT_START: a queued dispatch whose class has a free slot starts, and a stalled sender's dispatch takes its
place in the queue (R103). -/
def execLampContextStart (ch : Fin 48) (s : State) : Out :=
  match nextDispatch s s.clusters[ch] with
  | none => .next s
  | some (i, slot) =>
    match s.clusters[ch].queue[i]? with
    | none => .next s
    | some d =>
      let s := onCluster s ch fun k =>
        { k with queue := k.queue.eraseIdx i ++ k.stalledSenders.take 1, stalledSenders := k.stalledSenders.drop 1 }
      .next (releaseCores (startCtx s ch d slot))

/-- The session that a context's work is charged to: that of its core's program. -/
def ctxSession (s : State) (x : Ctx) : Option Nat := x.core.bind (sessOn s)

/-- LAMP_INSTRUCTION_ISSUE: one instruction of the context that the rule of R100 chooses; it and the cycles it occupies
a unit for are the account's lamp cycles (Table 10-6). A context that only starts to wait takes no issue slot (R99). -/
def execLampInstructionIssue (ch : Fin 48) (insn : LampInsn) (s : State) : Out :=
  match chooseCtx s s.clusters[ch] with
  | none => .next s
  | some (slot, k) =>
    let x := k.ctxs.getD slot {}
    match lampStep s k x insn with
    | (s, y, none) => .next (onCtx s ch slot fun _ => y)
    | (s, y, some u) =>
      let s := charge s x.account.toNat (ctxSession s x) fLamp (1 + (u.map fun _ => unitCycles s x insn).getD 0)
      .next (onCluster s ch fun k' =>
        { k' with
          ctxs := k'.ctxs.put slot y
          last := k.last
          credit := k.credit
          units := match u with | some u => k'.units.upd u [] (· ++ [slot]) | none => k'.units })

/-- Is a slot's instruction in a unit's queue, and in which? -/
def unitHolding (k : Cluster) (slot : Nat) : Option Nat := (k.units.find? fun u => u.2.contains slot).map (·.1)

/-- A unit ends the instruction at the head of its queue, or a context that waited for an entry of a full queue finds
one (R99, R100). -/
def unitFreed (s : State) (ch : Fin 48) (slot : Nat) (x : Ctx) : State :=
  let k := s.clusters[ch]
  match unitHolding k slot with
  | some u =>
    if (k.units.getD u []).head? = some slot then
      onCluster s ch fun k => { k with units := k.units.upd u [] (·.drop 1), ctxs := k.ctxs.put slot (arrived x (.unit u)) }
    else s
  | none =>
    match x.needs.findSome? fun q => match q with | .unit u => some u | _ => none with
    | some u => if (k.units.getD u []).length < 8 then onCtx s ch slot fun _ => arrived x (.unit u) else s
    | none => s

/-- LAMP_DATA_ARRIVE (R99, R102). -/
def execLampDataArrive (ch : Fin 48) (slot : Fin 512) (r : LampReply) (s : State) : Out :=
  match s.clusters[ch].ctxs.get? slot with
  | none => .next s
  | some x =>
    match r with
    | .unitFree => .next (unitFreed s ch slot x)
    | _ =>
      match x.wait.find? (answers r) with
      | none => .next s
      | some q =>
        let (s, y) := lampReturn s x q r
        .next (onCtx s ch slot fun _ => y)

/-- LAMP_CONTEXT_END: the completion record is posted once, and the slot is free when every request has returned
(R102, R215). READ_BUDGET exhausted in a program's kernel fails the program's command with 0xC5 (Table 12-4). -/
def execLampContextEnd (ch : Fin 48) (slot : Fin 512) (s : State) : Out :=
  match s.clusters[ch].ctxs.get? slot with
  | none => .next s
  | some x =>
    if x.state ≠ cxDone ∧ x.state ≠ cxFault then .next s
    else
      let s := onCluster s ch fun k =>
        { k with units := k.units.mapVals fun _ l => l.filter (· != slot.val)
                 ctxs := k.ctxs.upd slot {} fun y => { y with posted := true } }
      let s := if x.posted then s else postRecord s x
      let s := if x.outstanding = 0 then onCluster s ch fun k => { k with ctxs := k.ctxs.del slot } else s
      if x.posted then .next s
      else
        match x.core with
        | some c => .next (if x.faultCode = 3 ∧ (progOn s c).isSome ∧ ownerOn s c = x.account.toNat then settle (endProgram s c 0x12 Code.budgetExhausted 0 []) else s)
        | none => .next (match x.cmd with
          | some k => if x.state = cxFault then settle (contextFault s ch x k) else s
          | none => s)

/-- PARTIAL_MERGE: a record of Table 2-5 arrives for a reduction of a command in flight. Records of another MODE or
ANCHOR do not merge: a core's merge abandons its tile (R73), any other fails the command and is event 0x0001 (R40,
R442). -/
def execPartialMerge (key : CmdKey) (unit : Nat) (core : Option (Fin 8)) (rec_ : List Byte) (s : State) : Out :=
  if rec_.length ≠ 24 then .fault .illFormed
  else if (flightOf s key).isNone then .next s
  else
    let r := recOfBytes rec_
    match s.merges.find? (·.1 == key) with
    | none => .next { s with merges := s.merges ++ [(key, r)] }
    | some (_, old) =>
      if mergeable old r then .next { s with merges := s.merges.map fun m => if m.1 == key then (key, merge old r) else m }
      else
        let s := { s with merges := s.merges.filter (·.1 != key) }
        match core with
        | some c => .next (settle (abandonTile s c 0x11 0x11 []))
        | none =>
          let s := logEvent s dieTrunk 0x0001 (whoIn s key) (toLe 1 unit ++ toLe 2 old.anchor.toNat ++ toLe 2 r.anchor.toNat)
          .next (settle (cancelWith s key Code.internalError))

end Sys2Proof.Machine
end

