-- ==== Sys2Proof/Machine/Nvm.lean ====
section
/-! DEFINITION. The NVM command family (R271 to R275) and the I/O watchdog (R279). -/

namespace Sys2Proof.Machine

/-- READ (R271). -/
def execRead (e : Sqe) (s : State) : Out := .next (nvme s e opRead false (nvmBody e opRead false))

/-- WRITE (R271, R272, R266). -/
def execWrite (e : Sqe) (s : State) : Out := .next (nvme s e opWrite false (nvmBody e opWrite false))

/-- FLUSH (R273): it completes without further work. -/
def execFlush (e : Sqe) (s : State) : Out := .next (nvme s e 0x00 false fun s => complete s e.key Code.ok 0 0)

/-- COMPARE (R275). -/
def execCompare (e : Sqe) (s : State) : Out := .next (nvme s e opCompare false (nvmBody e opCompare false))

/-- VERIFY (R275). -/
def execVerify (e : Sqe) (s : State) : Out := .next (nvme s e opVerify false (nvmBody e opVerify false))

/-- WRITE_ZEROES (R274). -/
def execWriteZeroes (e : Sqe) (s : State) : Out := .next (nvme s e opWriteZeroes false (nvmBody e opWriteZeroes false))

/-- DATASET_MANAGEMENT (R274). -/
def execDatasetManagement (e : Sqe) (s : State) : Out := .next (nvme s e opDsm false (nvmBody e opDsm false))

/-- Does the I/O watchdog cover a command of this kind (R279)? -/
def watched (kind : Nat) : Bool :=
  [0x00, opWrite, opRead, opCompare, opVerify, opWriteZeroes, opDsm, 0x101, 0x102, 0x105].contains kind

/-- IO_WATCHDOG_EXPIRY (R279); a command that has ended and waits for room in its completion queue is not one that the watchdog
ends. -/
def execIoWatchdogExpiry (key : CmdKey) (s : State) : Out :=
  .next (
    match flightOf s key with
    | none => s
    | some f =>
      if f.admin ∨ !watched f.kind ∨ completionWaits s key then s
      else
        let s := cancelJob s key
        let s := bump 0x611002 1 s
        let s := logEvent s dieTrunk 0x0007 (whoIn s key) (toLe 4 f.nsid ++ toLe 1 f.opc.toNat)
        fail s key Code.interrupted f.nsid)

end Sys2Proof.Machine
end

