-- ==== Sys2Proof/Machine/DicOps.lean ====
section
/-! DEFINITION. The Waori dictionary: values, item checks, staging and commit, factory restore, PDUs, and the frames of the
10BASE-T1S port (16). -/

namespace Sys2Proof.Machine

/-! ### Item status (Table 16-6) -/

def stOk : Nat := 0
def stNoObject : Nat := 1
def stAccess : Nat := 2
def stRights : Nat := 3
def stRange : Nat := 4
def stType : Nat := 5
def stLocked : Nat := 6
def stEpoch : Nat := 7
def stInvalidSet : Nat := 8
def stStageFull : Nat := 9
def stUnavailable : Nat := 10

/-! ### Sources -/

/-- A source's identity as one number (R402). -/
def srcKey (src : WSrc) : Nat :=
  match src.via with
  | .mctp => 4 * src.id
  | .doe => 1
  | .inband => 2
  | .port => 4 * src.id + 3

/-- A source's staged set. -/
def stagedOf (s : State) (key : Nat) : Tab Nat := ((s.dict.staged.find? (·.source == key)).map (·.items)).getD []

/-- Replace a source's staged set; an empty set is not held. -/
def setStaged (s : State) (key : Nat) (items : Tab Nat) : State :=
  onDict s fun d =>
    let rest := d.staged.filter (·.source != key)
    { d with staged := if items = [] then rest else rest ++ [{ source := key, items := items }] }

/-! ### Values -/

/-- Bytes of a STR object. -/
def strBytes (b : Bytes) (n : Nat) : Bytes := (b.take n).takeWhile (· != 0)

/-- Value of an RO object. -/
def roValue (s : State) (key : Nat) (o : Dic.Obj) : Bytes :=
  let id := o.id
  let num (n : Nat) : Bytes := toLe o.len n
  let flag (b : Bool) : Bytes := [if b then 1 else 0]
  if 0x504001 ≤ id ∧ id ≤ 0x504080 then
    let a := s.accounts[acctIx (id - 0x504000)]
    num (bitIf a.mode1 0 + bitIf a.opened 1 + bitIf (decide (8 ≤ a.fails)) 2 + 8 * tdiNo a.tdi)
  else if 0x700000 ≤ id ∧ id ≤ 0x700080 then acctBytes s.accounts[acctIx (id - 0x700000)].acct
  else match id with
    | 0x100001 => sealInfo "Krovdin"
    | 0x100002 => sealInfo "Galoryn Akzer"
    | 0x100003 => sealInfo "KGA-4832"
    | 0x100004 => strBytes Config.serialNumber 16
    | 0x100005 => strBytes Config.boardBuild 8
    | 0x100006 => strBytes Config.manufactureDate 10
    | 0x100007 => num (moduleState s)
    | 0x101002 => num (if s.dict.i3c then 1 else 0)
    | 0x101003 => num s.dict.eid
    | 0x105009 => Crypto.toBe 6 Config.macAddress.toNat
    | 0x10500A => num s.dict.plca
    | 0x107001 => strBytes s.fw.version 32
    | 0x107002 => num s.fw.stage.state
    | 0x107006 => num s.fw.dlResult
    | 0x210002 => num s.power.avg
    | 0x211001 => num (reportedStep s)
    | 0x211002 => s.cores.toList.flatMap fun k => toLe 1 k.step.val
    | 0x212002 => num s.power.tripCause
    | 0x213001 => num s.power.bankJ.toNat
    | 0x213002 => num s.power.bankResult
    | 0x215001 => s.power.junction.flatMap i8
    | 0x217001 => num s.power.senseLatched
    | 0x217002 => num (effectiveCap s)
    | 0x217003 => num s.power.slotW
    | 0x217004 => num s.power.cableW
    | 0x219001 => s.power.board.flatMap i8
    | 0x303002 => s.channels.toList.flatMap fun c => toLe 1 (channelUsed c)
    | 0x403001 => num (regionBytes s)
    | 0x501001 => Bytes.sub (s.store.owner0.getD []) 0 48
    | 0x501002 => Bytes.sub (s.store.owner1.getD []) 0 48
    | 0x501003 => num s.store.quorum
    | 0x501004 => num s.store.ownerSeq
    | 0x502001 => num s.store.fwFloor
    | 0x502002 => num s.store.revoked.toNat
    | 0x505002 => flag s.store.portKey.isSome
    | 0x604001 => graftSummary s
    | 0x609102 => num (rowsRelocated s)
    | 0x609103 => num (freeTags s)
    | 0x613004 => num (maxNat (s.cf.erases.map (·.2)))
    | 0x615001 => num (s.health.nextSeq - 1)
    | 0x615002 => num s.health.overwritten
    | 0x615004 => flag s.health.failed
    | 0xA00002 => num s.dict.epoch
    | 0xA00004 => num (stagedOf s key).length
    | _ => num (counter s id)

/-- What a read of an object returns (R390): zeros for WO, the staged value where one is asked for and there. -/
def readObj (s : State) (key : Nat) (staged : Bool) (o : Dic.Obj) : Bytes :=
  match o.acc with
  | 0 => roValue s key o
  | 4 => List.replicate o.len 0
  | _ =>
    match if staged && o.acc == 3 then (stagedOf s key).get? o.id else none with
    | some v => toLe o.len v
    | none => toLe o.len (dv s o.id)

/-- Has a value the wrong length or an encoding that its type refuses (Table 16-1)? -/
def badType (o : Dic.Obj) (b : Bytes) : Bool :=
  let v := leNat b
  if o.id = 0x107004 then decide (b.length < 4) || decide (1024 < b.length) || b.length % 4 != 0
  else if b.length ≠ o.len then true
  else if o.ty = 1 then decide (1 < v)
  else if o.ty = 9 then decide (v < o.min) || decide (o.max < v)
  else false

/-- Is a value outside its object's own range, fields included (Tables 10-4, 16-11)? -/
def badRange (o : Dic.Obj) (v : Nat) : Bool :=
  if o.ty = 11 ∨ o.ty = 1 ∨ o.ty = 9 then false
  else if v < o.min ∨ o.max < v then true
  else match o.id with
    | 0x107003 => v % 4 != 0
    | 0x401000 =>
      decide (50 < fieldOf v 7 0) || decide (256 < fieldOf v 17 8) || decide (1024 < fieldOf v 47 32)
        || fieldOf v 63 48 == 0 || decide (4096 < fieldOf v 63 48)
    | 0x401001 | 0x401002 | 0x401003 => fieldOf v 7 0 == 0 || fieldOf v 17 8 == 0
    | _ => false

/-! ### Commit and factory restore -/

/-- A TDI lock is in force on a function (R384). -/
def tdiLocked (s : State) (f : Fin 128) : Bool :=
  match s.accounts[acctIx (acctOf f)].tdi with
  | .configLocked | .run => true
  | _ => false

/-- Does a TDI lock hold an object whose value would become `v`? -/
def lockHolds (s : State) (id v : Nat) : Bool :=
  let old := dv s id
  if id = 0x106002 then old != v && (List.finRange 128).any fun f => f.val != 0 && tdiLocked s f
  else if id = 0x503001 then
    (List.finRange 128).any fun f => tdiLocked s f && bitOf old (acctOf f) != bitOf v (acctOf f)
  else
    let ss := if 0x304001 ≤ id ∧ id ≤ 0x304080 then id - 0x304000
      else if 0x405001 ≤ id ∧ id ≤ 0x405080 then id - 0x405000 else 0
    match fnOf ss with
    | some f => tdiLocked s f && old != v
    | none => false

/-- Is an object one that a TDI lock holds now (DESCRIBE)? -/
def lockedNow (s : State) (id : Nat) : Bool :=
  if id = 0x106002 ∨ id = 0x503001 then (List.finRange 128).any fun f => f.val != 0 && tdiLocked s f
  else
    let ss := if 0x304001 ≤ id ∧ id ≤ 0x304080 then id - 0x304000
      else if 0x405001 ≤ id ∧ id ≤ 0x405080 then id - 0x405000 else 0
    ((fnOf ss).map (tdiLocked s)).getD false

/-- C0_CORES without the retired cores (R450). -/
def coresLeft (s : State) (v : Nat) : Nat :=
  (List.finRange 8).foldl (fun a c => if s.cores[c].retired && bitOf a c.val then a - 2 ^ c.val else a) v

/-- The rules between objects that a set breaks (R394 step 3): each with the objects that take part and its reason. -/
def brokenRules (s : State) (items : Tab Nat) (rightsHeld : Bool) : List (List Nat × Nat) :=
  let v (id : Nat) : Nat := (items.get? id).getD (dv s id)
  let c0 := fieldOf (v 0x401000) 17 8
  let caps := [1, 2, 3].filterMap fun c =>
    if 512 - c0 < fieldOf (v (0x401000 + c)) 17 8 then some ([0x401000, 0x401000 + c], stRange) else none
  let queues := if 4096 < v 0x106001 + 127 * v 0x106002 then [([0x106001, 0x106002], stRange)] else []
  let cores := if coresLeft s (v 0x401004) = 0 then [(0x401004 :: items.map (·.1), stRange)] else []
  let locks := items.filterMap fun p => if lockHolds s p.1 p.2 then some ([p.1], stLocked) else none
  let needs := items.filterMap fun p =>
    if !rightsHeld && ((Dic.find p.1).map (·.rights)).getD false then some ([p.1], stRights) else none
  caps ++ queues ++ cores ++ locks ++ needs

/-- The staged object of lowest id among those that take part in a broken rule, and the reason. -/
def invalidOf (items : Tab Nat) (broken : List (List Nat × Nat)) : Option (Nat × Nat) :=
  items.findSome? fun p => (broken.find? fun r => r.1.contains p.1).map fun r => (p.1, r.2)

/-- TD_GATHER_CFG as firmware writes it from the dictionary (Table 7-5). -/
def gatherFrom (s : State) : W64 :=
  let t := dv s 0x422002
  BitVec.ofNat 64 (bitIf (decide (t ≠ 0)) 0 + 16 * dv s 0x422003 + 2 ^ 16 * t + 2 ^ 32 * 16384)

/-- PLCA status of a port that starts (Table 16-10a): a follower has seen no beacon yet (DESIGN CHOICE, log 1). -/
def plcaStart (s : State) : Nat :=
  if dv s 0x105006 = 0 ∨ dv s 0x105001 = 255 then 0 else if dv s 0x105001 = 0 then 1 else 3

/-- The port settings of the dictionary. -/
def portSettings (s : State) : Tab Nat :=
  (List.range 8).map fun i => (0x105001 + i, dv s (0x105001 + i))

/-- The new settings reach the hardware (R395, R409): TD_GATHER_CFG, and the port, which restarts when its enable, its
UDP port or its PLCA mode changed. -/
def applySettings (s : State) : State :=
  let old (id : Nat) : Nat := s.dict.portCfg.getD id (((Dic.find id).map (·.dflt)).getD 0)
  let restart := old 0x105006 != dv s 0x105006 || old 0x105007 != dv s 0x105007
    || (old 0x105001 == 255) != (dv s 0x105001 == 255)
  let role (n : Nat) : Nat := if n = 255 then 0 else if n = 0 then 1 else 2
  let moved := role (old 0x105001) != role (dv s 0x105001)
  let s := setGatherCfg s (gatherFrom s)
  onDict s fun d =>
    { d with portCfg := portSettings s, plca := if restart || moved then plcaStart s else d.plca
             announceDue := if restart && dv s 0x105006 != 0 then d.announceDue + 1 else d.announceDue }

/-- A commit (R394): the status and the item's response value. -/
def commitSet (s : State) (src : WSrc) (expected : Nat) : State × Nat × Bytes :=
  let items := stagedOf s (srcKey src)
  if expected ≠ s.dict.epoch then (s, stEpoch, [])
  else if items = [] then (s, stOk, toLe 8 s.dict.epoch)
  else
    match invalidOf items (brokenRules s items (rights s src)) with
    | some (id, why) => (s, stInvalidSet, toLe 4 id ++ toLe 1 why ++ [0, 0, 0])
    | none =>
      let s := onDict s fun d =>
        { d with vals := items.foldl (fun t p => t.put p.1 p.2) d.vals, epoch := d.epoch + 1 }
      let s := onDict s fun d => { d with vals := d.vals.put 0x401004 (coresLeft s (dv s 0x401004)) }
      let s := applySettings (setStaged s (srcKey src) [])
      (s, stOk, toLe 8 s.dict.epoch)

/-- A factory restore (R392). -/
def restoreFactory (s : State) : State × Nat :=
  let hit := s.dict.vals.filter fun p => p.1 / 2 ^ 20 != 5
  let broken := hit.any fun p => lockHolds s p.1 (((Dic.find p.1).map (·.dflt)).getD 0)
  if broken then (s, stLocked)
  else
    let vals : Tab Nat := s.dict.vals.keep fun id _ => id / 2 ^ 20 == 5
    let counters : Tab Nat := s.dict.counters.keep fun id _ => !((Dic.find id).map (·.frest)).getD false
    let s := onDict s fun d => { d with vals := vals, staged := [], counters := counters, epoch := d.epoch + 1 }
    (applySettings (onCf s fun f => { f with erases := [] }), stOk)

/-! ### Firmware objects (R412) -/

/-- DL_DATA: a piece at DL_OFFSET, which advances. -/
def dlPiece (s : State) (b : Bytes) : State × Nat :=
  let off := dv s 0x107003
  if imageMax < off + b.length then (s, stRange)
  else
    let s := fwDownload s off b
    (onDict s fun d => { d with vals := d.vals.put 0x107003 (off + b.length) }, stOk)

def setDl (s : State) (n : Nat) : State := onFw s fun w => { w with dlResult := n }

/-- DL_ACTION. -/
def dlAction (s : State) (v : Nat) : State × Nat :=
  let path := if s.fw.recovery then 3 else 0
  let st := s.fw.stage.state
  if v = 3 then (onFw s fun w => { w with buf := [], bufLen := 0, fresh := false, dlResult := 0 }, stOk)
  else if st = 2 ∨ st = 3 then (setDl s 0x0200, stOk)
  else if v = 1 then
    match fwStage s {} path 2 with
    | (s, none) => (setDl s 2, stOk)
    | (s, some r) => (setDl s (0x0100 + r), stOk)
  else
    match fwStageActivate s {} path with
    | (s, none) => (setDl (onFw s fun w => { w with activating := 1 }) 1, stOk)
    | (s, some r) => (setDl s (0x0100 + r), stOk)

/-- The port key (R415): a change ends what was accepted under the old key. -/
def setPortKey (s : State) (b : Bytes) : State :=
  let k := if b.all (· == 0) then none else some b
  onDict { s with store := { s.store with portKey := k } } fun d => { d with kept := [] }

/-! ### Items -/

/-- Why the transport or the module's condition keeps an item from being handled (R390, R401, R406, R412). -/
def itemGate (s : State) (src : WSrc) (write : Bool) (id : Nat) : Option Nat :=
  let range := id / 2 ^ 20
  let dl := id == 0x107003 || id == 0x107004 || id == 0x107005
  if s.fw.recovery then
    if write then
      if !dl then some stUnavailable
      else match src.via with
        | .mctp => none
        | .port => if src.auth then none else some stRights
        | _ => some stRights
    else if range = 1 then none else some stUnavailable
  else if src.via = .port ∧ !src.auth then
    if !write && (range == 1 || range == 2 || range == 6) then none else some stRights
  else none

/-- A value without the reserved bits of its object (R9, Table 10-4). -/
def lessReserved (id v : Nat) : Nat := if 0x401000 ≤ id ∧ id ≤ 0x401003 then setField v 31 18 0 else v

/-- A WRITE item (R389, R390, R393, R394): its status and response value. The order of the checks is the model's
(DESIGN CHOICE, log 14). -/
def writeObj (s : State) (src : WSrc) (o : Dic.Obj) (b : Bytes) : State × Nat × Bytes :=
  let v := leNat b
  let plain (r : State × Nat) : State × Nat × Bytes := (r.1, r.2, [])
  if o.acc = 0 then (s, stAccess, [])
  else if o.rights && !s.fw.recovery && !rights s src then (s, stRights, [])
  else if badType o b then (s, stType, [])
  else if badRange o v then (s, stRange, [])
  else if o.acc = 3 then
    let key := srcKey src
    let items := stagedOf s key
    let next := items.put o.id (lessReserved o.id v)
    if 64 < next.length ∨ (items = [] ∧ 8 ≤ s.dict.staged.length) then (s, stStageFull, [])
    else (setStaged s key next, stOk, [])
  else match o.id with
    | 0xA00001 => commitSet s src v
    | 0xA00003 => (if v = 1 then setStaged s (srcKey src) [] else s, stOk, [])
    | 0xA00006 => if v = 0x54535246 then plain (restoreFactory s) else (s, stRange, [])
    | 0x107004 => plain (dlPiece s b)
    | 0x107005 => plain (dlAction s v)
    | 0x501005 =>
      match ownerResult s b with
      | some st => ({ s with store := st }, stOk, [])
      | none => (s, stRange, [])
    | 0x505001 => (setPortKey s b, stOk, [])
    | _ => (onDict s fun d => { d with vals := d.vals.put o.id v }, stOk, [])

/-- DESCRIBE (Table 16-5). -/
def describeObj (s : State) (o : Dic.Obj) : Bytes :=
  let num := o.ty ≠ 10 ∧ o.ty ≠ 11
  toLe 1 o.ty ++ toLe 1 o.acc
    ++ toLe 1 (bitIf (o.rights && !s.fw.recovery) 0 + bitIf o.frest 1 + bitIf (lockedNow s o.id) 2) ++ [0]
    ++ toLe 2 o.len ++ [0, 0]
    ++ (if num then toLe 8 o.min ++ toLe 8 o.max ++ toLe 8 o.dflt else List.replicate 24 0)

/-- LIST (Table 16-5): ids above one, rising; a source sees the objects it may list. -/
def listObjs (s : State) (src : WSrc) (after : Nat) : Bytes :=
  (((Dic.all.map (·.id)).filter fun i => decide (after < i) && (itemGate s src false i).isNone).take 256).flatMap (toLe 4)

/-- One item: its status and its response value. -/
def doItem (s : State) (src : WSrc) (op : Nat) (staged : Bool) (id : Nat) (b : Bytes) : State × Nat × Bytes :=
  if op = 4 then (s, stOk, listObjs s src id)
  else match itemGate s src (op == 2) id with
    | some st => (s, st, [])
    | none =>
      match Dic.find id with
      | none => (s, stNoObject, [])
      | some o =>
        if op = 1 then (s, stOk, readObj s (srcKey src) staged o)
        else if op = 3 then (s, stOk, describeObj s o)
        else writeObj s src o b

/-! ### PDUs -/

/-- An item of a request. -/
structure Item where
  id : Nat
  value : Bytes
  deriving DecidableEq, Repr, Inhabited

/-- The items of a body, which they must fill exactly (R397, R398); the fuel is the number of items. -/
def parseItems : Nat → Bytes → Option (List Item)
  | 0, b => if b = [] then some [] else none
  | n + 1, b =>
    let len := Bytes.le b 4 2
    let size := 8 + roundUp len 4
    if b.length < size then none
    else (parseItems n (b.drop size)).map fun t =>
      { id := Bytes.le b 0 2 * 256 + Bytes.le b 2 1, value := Bytes.sub b 8 len } :: t

/-- The items of a well-formed PDU (R397). -/
def parsePdu (b : Bytes) : Option (List Item) :=
  let op := Bytes.le b 0 1
  let n := Bytes.le b 1 1
  let len := Bytes.le b 6 2
  if b.length < 16 ∨ b.length ≠ len ∨ 1280 < len ∨ n = 0 ∨ 32 < n ∨ op = 0 ∨ 4 < op ∨ (op = 4 ∧ n ≠ 1) then none
  else parseItems n (b.drop 16)

/-- A response PDU (Table 16-3); PFLAGS [7:1] are zero. -/
def responsePdu (s : State) (op count pflags presult retry : Nat) (body : Bytes) : Bytes :=
  toLe 1 op ++ toLe 1 count ++ toLe 1 (pflags % 2) ++ toLe 1 presult ++ toLe 2 retry ++ toLe 2 (16 + body.length)
    ++ toLe 8 s.dict.epoch ++ body

/-- An item of a response. -/
def responseItem (id status : Nat) (v : Bytes) : Bytes :=
  toLe 2 (id / 256) ++ toLe 1 (id % 256) ++ toLe 1 status ++ toLe 2 v.length ++ [0, 0]
    ++ v ++ List.replicate (roundUp v.length 4 - v.length) 0

/-- The items of a request in order (R396). -/
def doItems (s : State) (src : WSrc) (op : Nat) (staged : Bool) : List Item → State × Bytes
  | [] => (s, [])
  | x :: t =>
    match doItem s src op staged x.id x.value with
    | (s, st, v) =>
      match doItems s src op staged t with
      | (s, r) => (s, responseItem x.id st v ++ r)

/-- The handling of a PDU: the state and the response (R396 to R401). -/
def handlePdu (s : State) (src : WSrc) (b : Bytes) : State × Bytes :=
  let op := Bytes.le b 0 1
  let pf := Bytes.le b 2 1
  if !s.fw.pilotUp && (!s.fw.recovery || s.fw.activating == 3) then
    let k := s.free
    ({ s with free := k + 1 }, responsePdu s op 0 pf 1 (max 100 (Config.retryMs k)) [])
  else match parsePdu b with
    | none => (s, responsePdu s op 0 pf 2 0 [])
    | some items =>
      match doItems s src op (bitOf pf 0) items with
      | (s, r) => (s, responsePdu s op items.length pf (if s.fw.recovery then 3 else 0) 0 r)

/-- Is the pilot powered, so that a transport reaches it? -/
def pilotPowered (s : State) : Bool := s.power.vaux || s.power.slot12 || s.power.cable12

/-- A request on a transport: its response is recorded. -/
def waori (s : State) (src : WSrc) (b : Bytes) : State :=
  if !pilotPowered s then s
  else match handlePdu s src b with
    | (s, r) => onDict s fun d => { d with responses := (srcKey src, r) :: d.responses }

/-- The PDU of a WRITE of one object. -/
def writePdu (id : Nat) (v : Bytes) : Bytes :=
  let item := toLe 2 (id / 256) ++ toLe 1 (id % 256) ++ [0] ++ toLe 2 v.length ++ [0, 0] ++ v
    ++ List.replicate (roundUp v.length 4 - v.length) 0
  [2, 1, 0, 0, 0, 0] ++ toLe 2 (16 + item.length) ++ List.replicate 8 0 ++ item

/-- A WRITE of one object. -/
def waoriWrite (s : State) (src : WSrc) (id : Nat) (v : Bytes) : State := waori s src (writePdu id v)

/-! ### The port (R404 to R408) -/

/-- Does the port run: enabled, its PHY powered with the pilot (R474)? -/
def portUp (s : State) : Bool := pilotPowered s && dv s 0x105006 != 0

/-- Is a frame taken off the segment for Waori (R404)? -/
def frameTaken (s : State) (f : Frame) : Bool :=
  portUp s && (f.toGroup || f.toUs) && f.port == dv s 0x105007 && f.srcAddr.toNat / 2 ^ 118 == 0x3FA
    && f.hopLimit == 255 && f.udpSumOk

/-- Fields of a frame's payload (Table 16-9). -/
def frKind (f : Frame) : Nat := Bytes.le f.payload 5 1
def frAuth (f : Frame) : Bool := bitOf (Bytes.le f.payload 6 1) 0
def frTxid (f : Frame) : Nat := Bytes.le f.payload 8 4
def frSeq (f : Frame) : Nat := Bytes.le f.payload 12 4
def frNonce (f : Frame) : Nat := Bytes.le f.payload 16 8
def frBody (f : Frame) : Bytes :=
  let t := f.payload.drop 32
  if frAuth f then t.take (t.length - 16) else t

/-- Is a frame malformed (R407): its MAGIC, VER, KIND or length? -/
def frameBad (f : Frame) : Bool :=
  let n := f.payload.length
  decide (1328 < n) || decide (n < 32) || Bytes.le f.payload 0 4 != 0x524F4157 || Bytes.le f.payload 4 1 != 1
    || decide (3 < frKind f) || (frAuth f && decide (n < 48)) || (frKind f == 0 && decide ((frBody f).length < 16)) || (frKind f == 3 && n != 32)

/-- The MAC of a frame under a key (Table 16-9). -/
def frameMac (k b : Bytes) : Bytes := Bytes.sub (Crypto.hmac k b) 0 16

/-- A frame that the port sends. -/
def mkFrame (s : State) (kind result txid : Nat) (auth : Bool) (body : Bytes) : Bytes :=
  let key := if auth then s.store.portKey else none
  let b := toLe 4 0x524F4157 ++ [1] ++ toLe 1 kind ++ toLe 1 (bitIf key.isSome 0) ++ toLe 1 result ++ toLe 4 txid
    ++ toLe 4 0 ++ toLe 8 s.dict.nonce.toNat ++ toLe 4 s.dict.lastSeq ++ toLe 4 0 ++ body
  match key with
  | some k => b ++ frameMac k b
  | none => b

/-- Send a frame on the port. -/
def sendFrame (s : State) (b : Bytes) : State := onDict s fun d => { d with sent := b :: d.sent }

/-- The response to a request frame is sent and kept (R407). -/
def replyFrame (s : State) (f : Frame) (result : Nat) (body : Bytes) : State :=
  let b := mkFrame s 1 result (frTxid f) (frAuth f) body
  let k : KeptResp := { addr := f.srcAddr.toNat, txid := frTxid f, resp := b }
  onDict (sendFrame s b) fun d => { d with kept := (k :: d.kept).take 16 }

/-- The first check of R406 that a frame with AUTH fails; none where it passes. -/
def authFails (s : State) (f : Frame) : Option Nat :=
  match s.store.portKey with
  | none => some 4
  | some k =>
    let n := f.payload.length - 16
    if frameMac k (f.payload.take n) ≠ f.payload.drop n then some 1
    else if frNonce f ≠ s.dict.nonce.toNat then some 3
    else if frSeq f ≤ s.dict.lastSeq then some 2
    else none

/-- A request frame (R406, R407). -/
def requestFrame (s : State) (f : Frame) : State :=
  let src : WSrc := { via := .port, id := f.srcAddr.toNat, session := none, auth := frAuth f }
  match s.dict.kept.find? fun k => k.addr == f.srcAddr.toNat && k.txid == frTxid f with
  | some k => sendFrame s k.resp
  | none =>
    match if frAuth f then authFails s f else none with
    | some r => replyFrame (if r = 1 then bump 0x505003 1 s else s) f r []
    | none =>
      let s := if frAuth f then onDict s fun d => { d with lastSeq := frSeq f } else s
      match handlePdu s src (frBody f) with
      | (s, b) => replyFrame s f 0 b

/-- A discover frame (R408): an announce is due. -/
def discoverFrame (s : State) (f : Frame) : State :=
  if f.toGroup && !frAuth f then onDict s fun d => { d with announceDue := d.announceDue + 1 } else s

/-- A frame on the port (R404 to R408). -/
def portFrame (s : State) (f : Frame) : State :=
  if !frameTaken s f then s
  else if frameBad f then bump 0x505004 1 s
  else match frKind f with
    | 0 => requestFrame s f
    | 3 => discoverFrame s f
    | _ => s

/-- The announce frame (R408). -/
def announceFrame (s : State) : Bytes :=
  mkFrame s 2 0 0 true
    (Bytes.sub Config.serialNumber 0 16 ++ sealInfo "KGA-4832" ++ Bytes.sub s.fw.version 0 32 ++ toLe 1 (dv s 0x105001)
      ++ toLe 1 (moduleState s) ++ List.replicate 6 0)

end Sys2Proof.Machine
end

