-- ==== Sys2Proof/Machine/RepairOps.lean ====
section
/-! DEFINITION. Damaged memory: relocated and withdrawn pool rows, and data tiles that are no longer granted (spec 09
R225, spec 18 R452). -/

namespace Sys2Proof.Machine

/-- Rows of a pool range that hold an UNCORRECTABLE word. -/
def badRows (s : State) (a n tag : Nat) : List Nat :=
  if n = 0 then []
  else
    let words := (List.range ((a + n - 1) / 32 + 1 - a / 32)).map fun i => wordAt a + 32 * i
    let bad (w : Nat) : Bool := let (d, c) := rawWord s w; Check.decode d c tag == .uncorrectable
    ((words.filter bad).map poolRow).eraseDups

/-- Relocate the rows of a range that hold an UNCORRECTABLE word or have reached the threshold. -/
def repairRange (s : State) (a n tag : Nat) : State :=
  let worn := (s.repair.rowErrs.map (·.1)).filter fun r => rowWorn s r && decide (a / 4096 ≤ r) && decide (r * 4096 < a + n)
  (badRows s a n tag ++ worn).foldl relocateRow s

end Sys2Proof.Machine
end

