-- ==== Sys2Proof/Machine/SchedOps.lean ====
section
/-! DEFINITION. Turns and switches of a core (R239 to R244), the energy split (R248), scrub passes (R223 to R225). -/

namespace Sys2Proof.Machine

/-! ### Switching a core (R239 to R242) -/

/-- Save the context of a bank to its session's CTX_AREA; a bank of no session keeps what it holds. -/
def saveBank (s : State) (c : Fin 8) (b : Bool) : State :=
  let k := bankOf s.cores[c] b
  match k.session with
  | none => s
  | some i => onBankOf (saveContext s i k) c b fun _ => {}

/-- Put a session's context into a bank: what the bank held of another session is saved first. -/
def bringIn (s : State) (c : Fin 8) (b : Bool) (i : Option Nat) : State :=
  match i with
  | none => s
  | some i => if (bankOf s.cores[c] b).session = some i then s else loadContext (saveBank s c b) c b i

/-- The program of a bank that runs again is told so (R97). -/
def resumeEntry (s : State) (c : Fin 8) : State :=
  match (progOn s c).bind (·.handle) with
  | some k => postIn s c (mkEntry 3 0 (toLe 8 (handleOf k)))
  | none => syncMbox s c

/-- Does a switch go to bank B: to a Class 0 session, or, where it names none, at PREEMPT (R239)? -/
def toBankB (s : State) (c : Fin 8) (i : Option Nat) : Bool :=
  match i with
  | some j => ((s.sess.get? j).map fun x => x.cls == 0).getD false
  | none => bitOf s.cores[c].evt.toNat 7

/-- The switch in progress ends: the incoming session is in its bank with its tiles in their places, and the core runs on
(R239, R240). A pre-emption that came during a switch of Classes 1 to 3 follows it (R241). -/
def finishSwitch (s : State) (c : Fin 8) (i : Option Nat) : State :=
  let b := toBankB s c i
  let s := bringIn s c b i
  let s := onCore s c fun k => { (if b then setEvt k (k.evt &&& ~~~(0x80 : W64)) else k) with useB := b, switching := none }
  let s := match i with
    | some i => bringTiles (onSess s i fun x => { x with sliceDebt := 0 }) i c
    | none => s
  settle (onCore (resumeEntry s c) c startPreempt)

/-- Has the Class 0 work of a core ended, so that bank A runs again (R241 step 6)? -/
def class0Over (k : Core) : Bool :=
  k.useB && k.bankB.prog.isNone && k.tile.isNone && k.switching.isNone && !bitOf k.evt.toNat 7

/-! ### Turns (R242, R244) -/

/-- Does a session want its core: a program of it runs, is saved, or waits for the core? -/
def wantsCore (s : State) (k : Core) (i : Nat) : Bool :=
  (k.bankA.session == some i && k.bankA.prog.isSome)
    || ((s.sess.get? i).map fun x => (x.ctxSaved.map fun b => b.prog.isSome).getD false).getD false
    || s.held.any fun j => (j.opc == kindExecute && execSession s (acctOf j.e.fn) (queueClass s j.e.key == 0) == some i)
      || (j.opc == opReplay && cdw12Lo j.e == i)

/-- The session due next on a core, with the credits after it: another one that wants the core, by its class's weight, in
turn within a class. -/
def nextDue (s : State) (k : Core) : Option (Nat × List Nat) :=
  let others := k.turns.filter fun i => k.bankA.session != some i && wantsCore s k i
  let of (cls : Nat) : List Nat := others.filter fun i => ((s.sess.get? i).map fun x => x.cls.toNat == cls).getD false
  match wrrPick (fun cls => of cls != []) (weights s) k.turnCredit with
  | some (cls, cr) => ((of cls).head?).map fun i => (i, cr)
  | none => none

/-- Slice of a class in ME-cycles at 1.3 GHz (0x4040.01 to .03, in µs). -/
def sliceCycles (s : State) (cls : Nat) : Nat := dv s (0x404000 + cls) * 1300

/-- An overrun is added to SLICE_DEBT, capped at one slice, and charged (R244). -/
def addOverrun (s : State) (i n : Nat) : State :=
  match s.sess.get? i with
  | none => s
  | some x =>
    let s := onSess s i fun x => { x with sliceDebt := min (x.sliceDebt + n) (sliceCycles s x.cls.toNat) }
    charge s x.account (some i) fOverrun n

/-- The end of a turn. -/
def endTurn (s : State) (c : Fin 8) (overrun : Nat) : State :=
  let k := s.cores[c]
  if k.tile.isSome || k.switching.isSome || k.useB then s
  else
    match k.bankA.session with
    | none => s
    | some i =>
      let s := addOverrun s i overrun
      match nextDue s k with
      | none => s
      | some (j, cr) =>
        onCore s c fun k =>
          { k with switching := some (some j), turnCredit := cr, turns := (k.turns.filter (· != i)) ++ (if k.turns.contains i then [i] else []) }

/-! ### Energy (R248) -/

/-- Divide a part's energy among accounts in proportion to their activity; what is left, rounding included, is the system
account's. -/
def splitEnergy (s : State) (m : MeterReading) : State :=
  let total := sumNat (m.activity.map (·.2))
  let share (p : Nat × Nat) : Nat := if total = 0 then 0 else m.energy * p.2 / total
  let given := sumNat (m.activity.map share)
  let s := m.activity.foldl (fun a p => charge a p.1 none fEnergy (share p)) s
  charge s 0 none fEnergy (m.energy - given)

/-! ### Scrub passes (R223 to R225) -/

/-- The arrays that are scrubbed (Table 9-1): the scratch of cores 0 to 7, the tile stores 8 and 9, the operand memories 10 to
41 (engine e of core c is 10 + 4 c + e), the pool controllers 42 to 57, the context stores of the clusters 58 to 105, the
decoded-page staging of the root dies 106 to 129, the kernel memories of the clusters 130 to 177, the hot-row store 178, the
trunk queues 179. -/
def arrayCount : Nat := 180

/-- Is an array a pool controller's? -/
def poolArray (n : Nat) : Bool := decide (42 ≤ n) && decide (n < 58)

/-- Does an address lie in a run of bytes? -/
def within (b n a : Nat) : Bool := decide (b ≤ a) && decide (a < b + n)

/-- Does a word address lie in an array? Kernel memory has one copy of its words, in the first cluster's array; what passes
through staging, the hot-row store and the queues is read from where it came (DESIGN CHOICE, log 73). -/
def inArray (n a : Nat) : Bool :=
  if n < 8 then within (scratchBase n) scratchBytes a
  else if n < 10 then within (storeBase (n - 8)) storeBytes a
  else if n < 42 then within (opMemBase ((n - 10) / 4) ((n - 10) % 4)) opMemBytes a
  else if n < 58 then isPool a && (rowCtrl (poolRow a)).val == n - 42
  else if n < 106 then within (localAt (n - 58) 0) ctxStoreBytes a
  else n == 130 && within kernelStore (16 * 16384) a

/-- The words of an array that hold anything but VOID zeros: of those, a pass changes nothing. -/
def wordsOf (s : State) (n : Nat) : List Nat :=
  ((s.mem.map fun (c : Host.Cell) => wordAt c.1) ++ (s.chk.map fun (c : Host.Cell) => c.1 / 4 * 32)).eraseDups.filter (inArray n)

/-- The scrubber's work on a word: what it found is its tile's or its row's. -/
def scrubWord (s : State) (a : Nat) : State :=
  match rawWord s a with
  | (d, c) =>
    match Check.decodeErased d c with
    | none => countOutcome s a .uncorrectable
    | some r =>
      let s := if r.fixed then countFixed s a else s
      if s.repair.quarantine.any (·.1 == r.tag) then storeRaw s a (List.replicate 32 0) (List.replicate 4 0)
      else if r.fixed then storeRaw s a r.data r.chk
      else s

/-- What a word shows before the pass: uncorrectable, corrected. -/
def wordState (s : State) (a : Nat) : Bool × Bool :=
  match rawWord s a with
  | (d, c) => match Check.decodeErased d c with
    | none => (true, false)
    | some r => (false, r.fixed)

/-- Data tiles with a corrected error on this pass count one more pass in a row; a third, or an UNCORRECTABLE word, and
the tile is no longer granted. -/
def judgeTiles (s : State) (n : Nat) (bad fixed : List Nat) : State :=
  let p := s.repair
  let errs : Tab Nat := p.tileErrs.keep fun t _ => fixed.contains t || !inArray n (t * tileBytes)
  let errs := fixed.foldl (fun (e : Tab Nat) t => e.upd t 0 (· + 1)) errs
  let gone := bad ++ fixed.filter fun t => decide (3 ≤ errs.getD t 0)
  { s with repair := { p with tileErrs := errs, badTiles := gone.foldl addOnce p.badTiles } }

/-- Pool passes completed: those that every controller has ended. -/
def poolPasses (s : State) : Nat := ((List.range 16).map fun i => s.repair.passes.getD (42 + i) 0).foldl min (s.repair.passes.getD 42 0)

/-- A pass over an array ends (R223, R225, R226): damaged data tiles are judged; the counts of a pool controller's rows start
again. -/
def endPass (s : State) (n : Nat) : State :=
  let ws := wordsOf s n
  let bad := (ws.filter fun a => (wordState s a).1)
  let fixed := (ws.filter fun a => (wordState s a).2)
  let s := ws.foldl scrubWord s
  let s := if n < 10 then judgeTiles s n (bad.map tileNo).eraseDups (fixed.map tileNo).eraseDups
    else if poolArray n then
      let left : Tab Nat := s.repair.rowErrs.keep fun r _ => (rowCtrl r).val != n - 42
      { s with repair := { s.repair with rowErrs := left } }
    else s
  let before := poolPasses s
  let s := { s with repair := { s.repair with passes := s.repair.passes.upd n 0 (· + 1) } }
  bump 0x609007 (poolPasses s - before) s

/-! ### The quarantine (R224) -/

/-- Has every array ended a pass that began after the tag entered quarantine? The pass in progress then does not count:
the second end does. -/
def passesDone (s : State) (at_ : Tab Nat) : Bool :=
  (List.range arrayCount).all fun n => decide (at_.getD n 0 + 2 ≤ s.repair.passes.getD n 0)

/-- Release the tags whose passes have ended; account bindings that wait take them. -/
def releaseTags (s : State) : State :=
  let q := s.repair.quarantine.filter fun p => !passesDone s p.2
  let s := judgeScrub { s with repair := { s.repair with quarantine := q } }
  (List.range 129).foldl (fun a i => if a.accounts[acctIx i].bindWait then bindAccount a i else a) s

end Sys2Proof.Machine
end

