-- ==== Sys2Proof/Machine/PowerOps.lean ====
section
/-! DEFINITION. Power levels of cores and dies (R419, R420), module states (R421, R422), the power cap (R424 to R426),
trips and temperature (R427 to R429, R473), the power brake (R469). -/

namespace Sys2Proof.Machine

/-- Are the main rails up, with no hold-up sequence running? -/
def railsUp (s : State) : Bool := flashUp s

/-- Is the module Running and past start-up? -/
def runningUp (s : State) : Bool := railsUp s && s.power.mod == .running

/-- A change of every core by its number. -/
def eachCore (s : State) (f : Fin 8 → Core → Core) : State := (List.finRange 8).foldl (fun a c => onCore a c (f c)) s

/-! ### Cores and canopy dies (R419, R420) -/

/-- May a core go Dim: its engines have stopped, nothing is queued, and its control processor waits with no enabled
event? -/
def mayDim (k : Core) : Bool :=
  k.level == .lit && (k.engines.toList.all fun e => e.flow == .stopped) && k.meQueue.isEmpty && k.tmQueue.isEmpty
    && !k.irq && !k.stalled && k.switching.isNone

/-- Does a Class 0 session hold a grant of a core (R420, R436)? -/
def c0Granted (s : State) (c : Fin 8) : Bool :=
  s.sess.any fun p => p.2.res == resHot && p.2.cls == 0 && bitOf p.2.grant.toNat c.val

/-- May a core go Dark (R420)? Its open tile ends first. -/
def mayDark (s : State) (c : Fin 8) : Bool :=
  let k := s.cores[c]
  k.level == .dim && k.tile.isNone && k.meQueue.isEmpty && k.tmQueue.isEmpty && !(bitOf (c0Cores s) c.val && c0Granted s c)

/-- A memory range is as its fill leaves it: VOID (R212). -/
def voidRange (s : State) (a n : Nat) : State := { s with mem := s.mem.clear a n, chk := s.chk.clear (a / 8) (n / 8) }

/-- An engine without power: its graft map comes back from retained state (R68). -/
def darkEngine (e : Engine) : Engine := { graft := e.graft }

/-- A core goes Dark: scratch, banks, TILE_DIR and max-abs records are kept, the rest of its logic and its operand
memories lose their contents (Table 17-2). -/
def darkCore (s : State) (c : Fin 8) : State :=
  let s := onCore s c fun k =>
    { k with level := .dark, engines := k.engines.map darkEngine
             meSlots := Vector.replicate 16 {}, tmSlots := Vector.replicate 32 { dw := List.replicate 8 0 } }
  voidRange s (opMemBase c.val 0) (4 * opMemBytes)

/-- What a core keeps when it loses all power: what is in retained state (R437, R448, R450). -/
def unpowered (k : Core) : Core := { engines := k.engines.map darkEngine, maskGen := k.maskGen, retired := k.retired }

/-- Does a data tile lie in the scratch of a die's cores or in its tile store? -/
def onDieTile (d : Nat) (t : Nat) : Bool :=
  decide (2 ^ 24 ≤ t) && (if t < 2 ^ 25 then t / 512 % 8 / 4 == d else t / 1024 % 2 == d)

/-- A canopy die goes Dark (R420): nothing of its contents is kept, but the saved state in the pool's firmware region
comes back when it wakes. What a session of the other die keeps in its tile store goes to the session's spill area first. -/
def dieOff (s : State) (d : Fin 2) : State :=
  let s := (s.sess.map (·.1)).foldl (fun a i => unpark a i fun t => tileDie t == d.val) s
  let s := eachCore s fun c k => if c.val / 4 = d.val then { unpowered k with tileSeq := k.tileSeq, evtEn := k.evtEn, step := k.step } else k
  let s := ((List.range 4).map fun i => 4 * d.val + i).foldl (fun a c =>
    voidRange (voidRange a (scratchBase c) scratchBytes) (opMemBase c 0) (4 * opMemBytes)) s
  let s := voidRange s (storeBase d.val) storeBytes
  let dir : Tab TileDirE := s.tileDir.keep fun t _ => !onDieTile d.val t
  let recs : Tab MaxAbs := s.maxRec.keep fun t _ => !onDieTile d.val t
  onPower { s with tileDir := dir, maxRec := recs } fun p => { p with dieCanopy := upd p.dieCanopy d fun _ => .dark }

/-- Sessions that are Hot with a grant on a die. -/
def hotOn (s : State) (d : Nat) : List Nat :=
  (s.sess.filter fun p => p.2.res == resHot && decide (p.2.grant.toNat / 16 ^ d % 16 ≠ 0)).map (·.1)

/-- A Hot session that is never demoted automatically (R232). -/
def stays (s : State) (i : Nat) : Bool := (s.sess.get? i).any fun x => x.cls == 0 || x.pin

/-- Does a program of no session run on a core? -/
def loneProg (k : Core) : Bool := (k.bankA.prog.isSome && k.bankA.session.isNone) || (k.bankB.prog.isSome && k.bankB.session.isNone)

/-- Does a core have a cause to wake (R420): a mailbox entry, a doorbell or PREEMPT event, an armed descriptor? -/
def wakeCause (k : Core) : Bool :=
  k.evt != 0 || !k.bankA.mboxIn.isEmpty || !k.bankB.mboxIn.isEmpty || !k.meQueue.isEmpty || !k.tmQueue.isEmpty
    || !(bank k).armedTiles.isEmpty

/-- A core wakes, and its die with it. -/
def wakeCore (s : State) (c : Fin 8) : State :=
  let d : Fin 2 := ⟨c.val / 4, by omega⟩
  onPower (onCore s c fun k => { k with level := .lit }) fun p => { p with dieCanopy := upd p.dieCanopy d fun _ => .lit }

/-! ### Module states (R421, R422) -/

/-- Does a submission queue of a controller hold an entry? -/
def queuesHold (s : State) : Bool :=
  s.ctrls.toList.any fun c => c.asqHead != c.asqTail || c.sqs.any fun q => sqWaits q.2

/-- No command in progress, no entry in a submission queue, no Hot session, no program on a core (R422). -/
def idle (s : State) : Bool :=
  (running s fun _ => true).isEmpty && !queuesHold s && s.sess.all (fun p => p.2.res != resHot)
    && s.cores.toList.all fun k => k.bankA.prog.isNone && k.bankB.prog.isNone

/-- The levels of the root dies and of the trunk. -/
def setRoots (s : State) (root trunk : CoreLevel) : State :=
  onPower s fun p => { p with dieRoot := Vector.replicate 24 root, dieTrunk := trunk }

/-- A lamp cluster without power: its retirements are in retained state. -/
def darkCluster (k : Cluster) : Cluster := { retiredSlots := k.retiredSlots, retired := k.retired }

/-- The trunk loses what it does not retain: TD_GATHER_CFG takes its committed values again (R10, R186), hot-row copies and their
windows go (R185). -/
def trunkReset (s : State) : State :=
  let s := setGatherCfg s (gatherFrom s)
  { s with tables := s.tables.mapVals fun _ t => { t with hot := [], lookups := [], window := 0, later := [] } }

/-- Is a channel or a cluster of a root die active: a NAND operation in progress or suspended, a lamp context in use? -/
def rootActive (s : State) (r : Fin 24) : Bool :=
  (List.finRange 48).any fun ch => ch.val / 2 == r.val
    && (!s.channels[ch].dieActive.isEmpty || !s.channels[ch].suspended.isEmpty
      || s.clusters[ch].ctxs.any fun p => p.2.state == cxReady || p.2.state == cxWaiting)

/-- Level of a root die: that of the module's state, but Lit while it is active (R419, Table 17-3). -/
def rootLevel (s : State) (r : Fin 24) : CoreLevel :=
  if s.power.dieRoot[r] = .dim ∧ rootActive s r = true then .lit else s.power.dieRoot[r]

/-- Is every enabled function in D3hot (R422)? -/
def allD3 (s : State) : Bool :=
  (s.ctrls.toList.any (·.enabled)) && s.ctrls.toList.all fun c => !c.enabled || c.d3hot

/-- Has the flash layer nothing in progress? -/
def flashIdle (s : State) : Bool :=
  s.channels.toList.all fun c => c.dieActive.isEmpty && c.suspended.isEmpty && c.ladders.isEmpty && !recsPending c
    && (c.dieOps.all fun p => p.2.isEmpty) && c.dieHeld.all fun p => p.2.isEmpty

/-- Destage every channel's part-filled unit at once (R316, R422). -/
def destageAll (s : State) : State := (List.finRange 48).foldl (fun a ch => destage a ch true) s

/-- Checkpoint the mapping table on every channel whose journal has grown since its last checkpoint. -/
def checkpointAll (s : State) : State :=
  (List.finRange 48).foldl (fun a ch => if a.channels[ch].journal = 0 then a else checkpoint a ch) s

/-- Make ready to park: the buffer is destaged, and, once it is empty, the mapping table checkpointed (R422). -/
def parkPrepare (s : State) : State :=
  let s := destageAll s
  if s.slots.isEmpty && flashIdle s then checkpointAll s else s

/-- Enter Parked when nothing is left to write; else go on with that (R422). Sessions that are
still Hot, which only every function in D3hot allows, become Warm first. -/
def park (s : State) : State :=
  let s := parkPrepare s
  if !s.slots.isEmpty || !flashIdle s then s
  else
    let s := ((s.sess.filter fun p => p.2.res == resHot).map (·.1)).foldl dropGrant s
    let s := { s with clusters := s.clusters.map darkCluster }
    let s := voidRange (setRoots (dieOff (dieOff s 0) 1) .dark .dark) ctxStore (48 * ctxStoreBytes)
    onPower (trunkReset s) fun p => { p with mod := .parked, dueWork := false, waking := false }

/-- May the module park now (R422): after its time in Banked, at the end of due work, or with every function in
D3hot? -/
def mayPark (s : State) : Bool :=
  railsUp s && !s.power.waking && (running s fun _ => true).isEmpty && !s.cores.toList.any loneProg
    && ((s.power.mod == .banked && (dv s 0x214003 != 0 || s.power.dueWork)) || (s.power.mod != .parked && allD3 s))

/-! ### The power cap (R424, R425) -/

/-- The step that a core runs at, or has been asked to take. -/
def stepNow (k : Core) : Nat := (k.stepReq.getD k.step).val

/-- Ask a core for a step; it takes it between passes (R73, R424). -/
def askStep (n : Fin 4) (k : Core) : Core := { k with stepReq := if k.step = n then none else some n }

/-- The last step that rule 1 of R425 takes a core to: rule 3 holds the cores of C0_CORES at step 1. -/
def stepFloor (s : State) (c : Fin 8) : Nat := if bitOf (c0Cores s) c.val && c0Holds s then 1 else 3

/-- A step down of the cores that a test picks, each by one step. -/
def stepDown (s : State) (p : Fin 8 → Bool) : State :=
  eachCore s fun c k => if p c then askStep ⟨min 3 (stepNow k + 1), by omega⟩ k else k

/-- Cores that rule 1 may step down. -/
def canStepDown (s : State) (c : Fin 8) : Bool := decide (stepNow s.cores[c] < stepFloor s c)

/-- A step up of every core whose die the temperature does not hold (R425 rule 2, R428). -/
def stepUp (s : State) : State :=
  let free (c : Fin 8) : Bool := s.power.thermalHeld[(⟨c.val / 4, by omega⟩ : Fin 2)] == 0
  eachCore s fun c k => if free c then askStep ⟨min 3 (stepNow k - 1), by omega⟩ k else k

/-- Start what can start on every channel. -/
def startChannels (s : State) : State := (List.finRange 48).foldl startAll s

/-- Rule 4 of R425, one measure at a sample: the program limit, then the delay of tile openings. -/
def tightenMore (s : State) : State :=
  if s.power.progLimit ≠ 2 then onPower s fun p => { p with progLimit := 2 }
  else eachCore s fun _ k => { k with openDelay := true }

/-- The measures of rule 4 undone in reverse order, one at a sample, then the step up. -/
def relax (s : State) : State :=
  if s.cores.toList.any (·.openDelay) then eachCore s fun _ k => { k with openDelay := false }
  else if s.power.progLimit ≠ 4 then startChannels (onPower s fun p => { p with progLimit := 4 })
  else onPower (stepUp s) fun p => { p with okSamples := 0 }

/-- One sample of the power manager in Running (R425): 10 samples are 1 ms, 200 are 20 ms. -/
def controlPower (s : State) (predicted : Nat) : State :=
  let cap := effectiveCap s
  let s := onPower s fun p => { p with sinceDown := min 10 (p.sinceDown + 1) }
  if cap < s.power.avg then
    let s := onPower s fun p => { p with okSamples := 0 }
    if (List.finRange 8).any (canStepDown s) then
      if s.power.sinceDown < 10 then s
      else onPower (stepDown s (canStepDown s)) fun p => { p with sinceDown := 0 }
    else tightenMore s
  else if 97 * cap < 100 * predicted then onPower s fun p => { p with okSamples := 0 }
  else
    let s := onPower s fun p => { p with okSamples := min 200 (p.okSamples + 1) }
    if s.power.okSamples < 200 ∨ s.power.emergency ∨ s.power.pwrbrkThrottle then s else relax s

/-! ### Trips, temperature, shutdown (R427 to R429, R473) -/

/-- DIE code (Table 18-3) of a die in the order of 0x2150.01. -/
def dieCode (d : Fin 32) : Nat :=
  if d.val < 2 then d.val else if d.val < 26 then 0x10 + (d.val - 2) else if d.val = 26 then dieTrunk
  else if d.val = 27 then diePilot else 0x40 + (d.val - 28)

/-- The engines of a core act on a trip (R73): passes and tile are abandoned, the clock goes to step 3. -/
def tripCore (s : State) (c : Fin 8) : State :=
  onCore (abandonTile s c 0x12 0x12 (issuedMe s.cores[c])) c fun k =>
    { k with step := 3, stepReq := none, engines := k.engines.map fun e => { e with flow := .stopped } }

/-- An emergency trip (R427). -/
def trip (s : State) (cause die : Nat) : State :=
  let s := (List.finRange 8).foldl tripCore s
  let s := bump 0x212001 1 (onPower s fun p => { p with emergency := true, tripCause := cause, okSamples := 0 })
  settle (logEvent s die 0x0020 {} (toLe 1 cause ++ toLe 1 die))

/-- Store a die's junction; a first reading at CCTEMP raises the critical warning (R453, R284). -/
def noteJunction (s : State) (d : Fin 32) (t : Int) : State :=
  let old := s.power.junction.getD d.val 0
  let s := onPower s fun p => { p with junction := setAt p.junction d.val t }
  if 110 ≤ t ∧ old < 110 then noticeAll s (smartNotice 1) else s

/-- A canopy die at its threshold steps its cores down; a step that would take a core of C0_CORES below step 1 is an
emergency throttle (R428). -/
def thermalCanopy (s : State) (d : Fin 2) (die : Fin 32) (t : Int) : State :=
  let thr : Int := dv s 0x215002
  let mine (c : Fin 8) : Bool := c.val / 4 == d.val
  if thr ≤ t then
    let s := onPower s fun p => { p with thermalHeld := upd p.thermalHeld d fun _ => 100 }
    let below (c : Fin 8) : Bool := mine c && bitOf (c0Cores s) c.val && decide (1 ≤ stepNow s.cores[c]) && decide (stepNow s.cores[c] < 3)
    if (List.finRange 8).any below then trip s 3 (dieCode die) else stepDown s mine
  else
    onPower s fun p => { p with thermalHeld := upd p.thermalHeld d fun n => if n = 0 then 0 else if t < thr - 5 then n - 1 else 100 }

/-- A root die at its threshold halts new programs and erases on its channels until it cools (R428). -/
def thermalRoot (s : State) (r : Nat) (t : Int) : State :=
  let thr : Int := dv s 0x215002
  [2 * r, 2 * r + 1].foldl (fun a n =>
    startAll (onChan a (chIx n) fun c => { c with thermalHalt := decide (thr ≤ t) }) (chIx n)) s

/-- A reading of a die's junction, each 1 ms (R428). -/
def thermalReading (s : State) (die : Fin 32) (t : Int) : State :=
  let s := noteJunction s die t
  match finOf? 2 die.val with
  | some d => thermalCanopy s d die t
  | none => if die.val < 26 then thermalRoot s (die.val - 2) t else s

/-- Every core is asked for step 3 and the measures of R425 rule 4 apply: the power brake (R469). -/
def brake (s : State) : State :=
  let s := eachCore s fun _ k => { askStep 3 k with openDelay := true }
  bump 0x217005 1 (onPower s fun p => { p with pwrbrk := true, pwrbrkThrottle := true, progLimit := 2, okSamples := 0 })

end Sys2Proof.Machine
end

