-- ==== Sys2Proof/Machine/StartOps.lean ====
section
/-! DEFINITION. Power loss and the hold-up flush (R318, R429 to R431), start-up (R319, R359, R391, R434, R435, R468),
module resets and the failed state (R433, R443). -/

namespace Sys2Proof.Machine

/-! ### Self-test (R435, R436) -/

/-- Is an engine idle, on a core that no Class 0 session holds (R436)? -/
def engineIdle (s : State) (c : Fin 8) (e : Fin 4) : Bool :=
  let k := s.cores[c]
  k.tile.isNone && k.meQueue.isEmpty && k.engines[e].chain.isNone && !c0Granted s c

/-- Is a lamp cluster idle? -/
def clusterIdle (s : State) (ch : Fin 48) : Bool := s.clusters[ch].ctxs.isEmpty && s.clusters[ch].queue.isEmpty

/-- May a unit be tested now? -/
def testable (s : State) : TestResult → Bool
  | .engine c e _ => engineIdle s c e
  | .cluster ch _ => clusterIdle s ch
  | .sram _ => true
  | .core c => (List.finRange 4).all (engineIdle s c)

/-- Is the outcome of a test a cover that R68 allows? -/
def resultOk : TestResult → Bool
  | .engine _ _ t => coverOk t
  | _ => true

/-- Spare rows cover SRAM rows: a graft-map change (R225, R437). -/
def coverSram (s : State) (n : Nat) : State :=
  if n = 0 then s else onHealth s fun h => { h with sramRows := h.sramRows + n, graftGen := h.graftGen + 1 }

/-- Rows marked under R225 are covered, and their data tiles may be granted again. -/
def coverMarked (s : State) : State :=
  let s := coverSram s s.repair.badTiles.length
  { s with repair := { s.repair with badTiles := [], tileErrs := [] } }

/-- What a self-test found takes effect. -/
def applyResult (s : State) (r : TestResult) : State :=
  match r with
  | .engine c e t => testedEngine s c e t
  | .cluster ch n => retireSlots s ch (min n (slotsInService s.clusters[ch]))
  | .sram n => coverSram s n
  | .core c => retireCore s c

/-- What a self-test of idle units found. -/
def applyResults (s : State) (l : List TestResult) : State :=
  l.foldl (fun a r => if testable a r && resultOk r then applyResult a r else a) s

/-- Device Self-test on the PF (R436): what it finds is a free value. STC 1 is the short one, 2 the extended one, which
also tests SRAM; 0xF aborts one in progress, of which there is none (PRESUMED, log 14). -/
def selfTestBody (e : Sqe) (s : State) : State :=
  let stc := fieldOf e.cdw10.toNat 3 0
  let found := Config.selfTest s.free
  let sram : TestResult → Bool := fun r => match r with | .sram _ => true | _ => false
  if e.fn.val ≠ 0 then fail s e.key Code.invalidOpcode
  else if stc = 0xF then complete s e.key Code.ok 0 0
  else if stc = 1 then
    complete (applyResults { s with free := s.free + 1 } (found.filter fun r => !sram r)) e.key Code.ok 0 0
  else if stc = 2 then
    complete (coverMarked (applyResults { s with free := s.free + 1 } found)) e.key Code.ok 0 0
  else fail s e.key Code.invalidField

/-! ### The pilot -/

/-- The port starts: its settings reach the PHY, and it announces (R408, R409). -/
def portStart (s : State) : State :=
  onDict (setGatherCfg s (gatherFrom s)) fun d =>
    { d with portCfg := portSettings s, plca := plcaStart s
             announceDue := if dv s 0x105006 != 0 then 1 else 0 }

/-- The pilot loses its power (R417): an operation of the code flash is abandoned, what is not retained is lost. -/
def pilotDown (s : State) : State :=
  let s := onFw (pilotReset s) fun w => { w with pilotUp := false, recovery := false, activating := 0 }
  onDict s fun d => { d with i3c := false, eid := 0, plca := 0, announceDue := 0, portCfg := [] }

/-- A failed check of the image in the code flash, and of the replicas before the first that matches, are recorded
(R366). The reason of the image's is that of Table 15-4, or its hash; a replica fails its hash. -/
def bootFailures (s : State) (bad : Bool) (replicaOk : List Bool) : State :=
  let s := if bad then fwFailed s {} ((fwReason s (flashImage s)).getD 3) 1 else s
  (replicaOk.takeWhile (!·)).foldl (fun a _ => fwFailed a {} 3 2) s

/-- The pilot starts (R353, R359, R364, R391): interrupted erases are done again; then the image in the code flash is
started, or, where it fails or was being written, the first replica that matches is written in; with none, boot ROM
recovery. `readable` says whether the NAND that holds the replicas has power. -/
def pilotBoot (s : State) (imageOk readable : Bool) (replicaOk : List Bool) (n : W64) : State :=
  let s := pilotReset s
  let lost := (List.range 1968).any fun i => bitOf s.cf.flags.toNat i
  let s := onFw (cfRedo s) fun w => { w with recovery := false, pilotUp := false, activating := 0 }
  let bad := !imageOk || lost
  if !bad && s.fw.stage.state ≠ 3 then portStart (pilotStart (cfRegions s) n)
  else
    let s := bootFailures s (bad && s.fw.stage.state ≠ 3) (if readable then replicaOk else [])
    match if readable then writeIn s replicaOk else none with
    | some (s, img) => portStart (bump 0x613002 1 (adoptImage (pilotStart s n) img))
    | none => portStart (enterRecovery s n)

/-! ### Power loss (R318, R430) -/

/-- An operation in progress on a die is reset or abandoned (R318). -/
def cutOp (c : Channel) (o : NandOp) : Channel :=
  match o.kind with
  | .read => c
  | .erase => onBlock c o.block fun x => { x with eraseCut := true }
  | .program _ _ => onBlock c o.block fun x => { x with cut := true }

/-- A channel stops: operations in progress are cut short, a program's data waits in the buffer to be programmed again,
reads and ladders are gone. -/
def stopChannel (c : Channel) : Channel :=
  let act := c.dieActive ++ c.suspended
  let again (o : NandOp) : Bool := match o.kind with | .program _ _ => true | _ => false
  let back (t : Tab (List NandOp)) (p : Nat × NandOp) : Tab (List NandOp) := if again p.2 then t.upd p.1 [] (p.2 :: ·) else t
  let c := (act.map (·.2)).foldl cutOp c
  let ops : Tab (List NandOp) := c.dieOps.mapVals fun _ l => l.filter writes
  let held : Tab (List NandOp) := c.dieHeld.mapVals fun _ l => l.filter writes
  { c with dieOps := act.foldl back ops, dieHeld := held, dieActive := [], suspended := [], ladders := [], dieCredit := [], suspends := [] }

/-- What the power-up of the pool, the canopy and the root dies finds empty: every work in progress, every context,
every SRAM word and pool word (R212), the programs and their kernels. -/
def railsOff (s : State) : State :=
  let power := { s.power with
    mod := .parked, dieCanopy := Vector.replicate 2 .dark, dieRoot := Vector.replicate 24 .dark, dieTrunk := .dark
    waking := false, dueWork := false, emergency := false, pwrbrkThrottle := false, progLimit := 4
    sinceDown := 10, okSamples := 0, thermalHeld := Vector.replicate 2 0, refresh2x := Vector.replicate 16 false
    bankOk := false }
  { s with
    cores := s.cores.map unpowered, clusters := s.clusters.map darkCluster, kernels := []
    mem := [], chk := [], tileDir := [], maxRec := [], poolGrants := [], slots := []
    attends := [], queries := [], queryWait := [], jobs := [], held := [], imports := [], syncWait := []
    merges := [], inflight := [], visit := none, power := power
    ctrls := s.ctrls.map fun c => { c with programs := [], ranges := [], csts := false } }

/-- Power is lost (R430): fetching stops, commands end with no completion, the engines and root dies stop, and the
buffer goes to the flush areas; a Parked module has nothing to flush (R422). -/
def powerLoss (s : State) : State :=
  if s.power.holdup then s
  else if s.power.phase ≠ .ready then
    let s := onPower s fun p => { p with slot12 := false, cable12 := false, phase := .vauxOnly, linkUp := false }
    if s.power.vaux then s else pilotDown s
  else
    let s := (flying s fun _ => true).foldl endSilently s
    let s := { s with cores := s.cores.map unpowered, channels := s.channels.map stopChannel, visit := none }
    let img := if s.power.mod = .parked then none else some s.slots
    onPower s fun p => { p with holdup := true, flushed := img, flushDone := img.isNone }

/-- The hold-up sequence ends (R430): the main rails go off. With power present the module performs a power-on start-up,
unless it shut down for temperature, when it stays as under Vaux only (R429). -/
def holdupEnd (s : State) (completed powerPresent : Bool) : State :=
  if !s.power.holdup then s
  else
    let unsafe_ := !completed || s.health.bit4
    let s := if s.power.flushed.isSome && completed then bump 0x61200E 1 s else s
    let s := onHealth (railsOff s) fun h => { h with badShutdowns := h.badShutdowns + (if unsafe_ then 1 else 0) }
    let s := onPower s fun p =>
      { p with holdup := false, flushDone := p.flushDone || completed, slot12 := powerPresent, cable12 := powerPresent
               linkUp := p.linkUp && powerPresent
               phase := if powerPresent && !p.shutdown then .rails else .vauxOnly }
    if powerPresent || s.power.vaux then s else pilotDown s

/-- A thermal shutdown (R429): the warning, the event, the hold-up sequence on main power. -/
def thermalOff (s : State) (die : Nat) (t : Int) : State :=
  if !railsUp s || s.power.shutdown then s
  else
    let s := noticeAll (onHealth s fun h => { h with bit1 := true }) (smartNotice 1)
    let s := logEvent s die 0x0021 {} (toLe 1 die ++ i8 t)
    powerLoss (onPower s fun p => { p with shutdown := true })

/-! ### The flash layer at start-up (R319) -/

/-- A unit whose data was in a buffer that was lost: its bytes and its entry are open. -/
def loseUnit (s : State) (b : BufSlot) : State :=
  let u := ((s.nss.get? b.nsid).map iuBytes).getD 4096
  let k := s.free
  let (r, s) := fresh s
  let place (e : MapEntry) (l : Bytes) : State :=
    setEntry { s with media := s.media.puts 0 (mediaKey b.nsid (b.iu * u)) l } b.nsid b.iu e
  match r % 3 with
  | 0 => place {} (List.replicate u 0)
  | 1 => place { st := .unrecovered } (List.replicate u 0)
  | _ => place { st := .flash, loc := r / 3 } ((List.range u).map (Config.lostByte k))

/-- The flush areas are read back into the buffer; where the flush did not complete, what it held is lost. -/
def readBack (s : State) : State :=
  let img : Tab BufSlot := s.power.flushed.getD []
  let s := if s.power.flushDone then { s with slots := img }
    else
      let s := img.foldl (fun a p => if p.2.kind = 0 ∧ (entryOf a p.2.nsid p.2.iu).st = .buffered then loseUnit a p.2 else a) s
      { s with channels := s.channels.map fun c => { c with unit := [], recs := [], dieOps := [], dieHeld := [], moves := [] } }
  onPower s fun p => { p with flushed := none, flushDone := true }

/-- Blocks of a channel that satisfy a test. -/
def blocksWhere (c : Channel) (p : Block → Bool) : List Nat := (c.blocks.filter fun x => p x.2).map (·.1)

/-- A block whose program was cut short is closed and its valid data refreshed; what was to be programmed into it is
programmed elsewhere. -/
def mendCut (s : State) (ch : Fin 48) (b : Nat) : State :=
  let c := s.channels[ch]
  let parity := c.groups.filter fun p => p.2.parity == b
  let (c, ops) := dropOps c fun o => o.block == b && writes o
  let c := returnRecs c (ops.flatMap (·.recs))
  let c := onBlock c b fun x => { x with cut := false }
  let c := if (blockOf c b).state = .opened then listRefresh (closeBlock c b) b else c
  let hit := c.moves.filter fun m => m.target == b
  let s := onChan s ch fun _ => { c with moves := c.moves.filter fun m => m.target != b }
  let s := ops.foldl (fun a o => reissueSlots a ch (slotsOf o)) s
  let s := hit.foldl (fun a m => startMove a ch m.src 3 m.refresh none) s
  (parity.map (·.1)).foldl (fun a g => newParity a ch g) s

/-- The flash layer of a channel goes on: cut blocks, interrupted erases, the parity that is due, the queues. -/
def restartChannel (s : State) (ch : Fin 48) : State :=
  let s := onChan s ch fun c => { c with thermalHalt := false, caseHalt := false }
  let s := (blocksWhere s.channels[ch] (·.cut)).foldl (fun a b => mendCut a ch b) s
  let ers := blocksWhere s.channels[ch] (·.eraseCut)
  let s := onChan s ch fun c => ers.foldl (fun c b => onBlock c b fun x => { x with eraseCut := false }) c
  let s := ers.foldl (fun a b => queueErase a ch b) s
  let s := (s.channels[ch].groups.map (·.1)).foldl (fun a g => issueParity a ch g) s
  startAll (destage s ch (syncMode s)) ch

/-! ### What a start-up finds of the host's objects -/

/-- A session after the pool lost its contents: Cold (R234). -/
def coldSession (x : Sess) : Sess :=
  { x with
    res := resCold, grant := 0, away := [], spillTiles := 0, ctxSaved := none, inflight := 0, pendingMove := none
    layerTbl := x.layerTbl.mapVals fun _ y => { y with busy := false } }

/-- An index: pending changes that were not committed may be lost (the spec does not say). -/
def restartIndex (lost : Bool) (x : Index) : Index :=
  let y := { x with destroying := none }
  if lost then { y with pending := genOf x x.cur, dirty := false } else y

/-- A table after a start-up in which the pool lost its contents: its current generation is in BACKING_NS (R177); staged rows
may be lost. -/
def restartTable (lost : Bool) (t : Table) : Table :=
  let pending : Tab Bytes := if lost || t.openStep.isSome then [] else t.pending
  { keepGens t [t.cur] with
    pending := pending, srcs := [], waiting := [], openStep := none, hot := [], lookups := [], window := 0, later := [] }

/-- A binding: the segment it worked on is queued again, ahead of it those whose applied changes were lost uncommitted
(R169). -/
def restartIngest (lost : Bool) (g : Ingest) : Ingest :=
  let again := if lost then g.applied else []
  { g with
    queue := again ++ g.current.toList ++ g.queue, current := none
    applied := if lost then [] else g.applied, sinceCommit := if lost then 0 else g.sinceCommit
    chunks := if lost then g.committed else g.chunks }

/-- An account: mode 1 keys are LOCKED, the count of mismatches starts again (R374, R375); nothing is bound yet. -/
def restartAccount (a : Account) : Account :=
  { a with opened := !a.mode1, fails := 0, bound := false, tag := 0, tdi := .configUnlocked, bindWait := false
           locking := false, waitKop := 0, claim := none }

/-- Every controller resets; the PF is enabled, VFs are not. -/
def restartCtrls (s : State) : State :=
  let s := (List.finRange 128).foldl resetFunction s
  { s with ctrls := s.ctrls.mapIdx fun i c => { c with enabled := i == 0 } }

/-- The host's objects after a start-up in which the pool lost its contents. -/
def restartObjects (s : State) : State :=
  let (r, s) := fresh s
  let lost := r % 2 == 0
  let sess : Tab Sess := s.sess.mapVals fun _ x => coldSession x
  let indexes : Tab Index := s.indexes.mapVals fun _ x => restartIndex lost x
  let tables : Tab Table := s.tables.mapVals fun _ t => restartTable lost t
  { restartCtrls s with
    sess := sess, indexes := indexes, tables := tables, ingests := s.ingests.map (restartIngest lost)
    accounts := s.accounts.map restartAccount, spdm := [], ide := Vector.replicate 9 {} }

/-- Memory after its fill: no row has errors, no tag needs quarantine, the test registers hold their defaults. -/
def restartRepair (p : PoolRepair) : PoolRepair :=
  { relocated := p.relocated, relocCount := p.relocCount, withdrawn := p.withdrawn, badTiles := p.badTiles }

/-- The rest of a power-on start-up, once the pilot runs (Table 17-8). -/
def finishStart (s : State) (results : List TestResult) : State :=
  let s := restartObjects s
  let s := coverMarked { s with repair := restartRepair s.repair }
  let s := applyResults s results
  let s := onHealth s fun h => { h with failed := false, bit1 := false, bit4 := false, faultTimes := [] }
  let s := eachCore s fun _ k => { k with level := .lit }
  let s := onPower s fun p =>
    { p with phase := .ready, mod := .running, dieCanopy := Vector.replicate 2 .lit, dieRoot := Vector.replicate 24 .lit
             dieTrunk := .lit, bankOk := false, bankResult := 2 }
  let s := (List.finRange 48).foldl restartChannel (readBack s)
  let s := onFw s fun w => { w with activating := if w.stage.state = 2 then 1 else 0, waitCommit := none }
  bindAccount (endSanitize s) 1

/-- Power-on start-up (R434): with 12 V on both inputs, the sense pins are read (R467), the pilot starts, and, short of
boot ROM recovery (R360), the main rails follow. -/
def startUp (s : State) (sense : BitVec 2) (imageOk : Bool) (replicaOk : List Bool) (results : List TestResult) (n : W64) : State :=
  let p := s.power
  if p.holdup || p.phase == .ready || !(p.phase == .rails || !(p.slot12 && p.cable12)) then s
  else
    let s := onPower (railsOff s) fun p =>
      { p with slot12 := true, cable12 := true, vaux := true, sense := sense, senseLatched := sense.toNat, phase := .rails
               linkUp := false, pilotClk := true, shutdown := false }
    let s := pilotBoot s imageOk true replicaOk n
    if s.fw.recovery then s else finishStart s results

/-- 3.3 Vaux, or 12 V on one input alone, reaches an unpowered pilot: it starts (Table 17-7, R468, R477). -/
def pilotUpWith (was : Bool) (s : State) (imageOk : Bool) (n : W64) : State :=
  if was then s else pilotBoot (onPower s fun p => { p with senseLatched := 4 }) imageOk false [] n

/-! ### Module resets (R433, R443) -/

/-- Every die but the pilot and the wake island resets: commands in progress end as at a controller reset, Hot sessions
become Warm, the pool and the buffer are kept (Table 17-7). -/
def moduleReset (s : State) : State :=
  let s := (flying s fun _ => true).foldl endSilently s
  let lvl := s.cores.map (·.level)
  let s := { s with
    cores := s.cores.mapFinIdx fun i k h => { unpowered k with level := lvl[i], tileSeq := k.tileSeq, evtEn := k.evtEn }
    clusters := s.clusters.map darkCluster, visit := none, queries := [], queryWait := []
    channels := s.channels.map stopChannel }
  let s := (List.range 8).foldl (fun a c =>
    voidRange (voidRange a (scratchBase c) scratchBytes) (opMemBase c 0) (4 * opMemBytes)) s
  let s := (List.range 2).foldl (fun a d => voidRange a (storeBase d) storeBytes) s
  let s := voidRange s ctxStore (48 * ctxStoreBytes)
  let dir : Tab TileDirE := []
  let recs : Tab MaxAbs := s.maxRec.keep fun t _ => decide (t < 2 ^ 24)
  let sess : Tab Sess := s.sess.mapVals fun _ x =>
    let x := { x with away := x.away.filter fun q => !((q.2.2.map isDataTile).getD false) }
    if x.res = resHot then { x with res := resWarm, grant := 0 } else x
  let s := { s with tileDir := dir, maxRec := recs, sess := sess, ingests := s.ingests.map (restartIngest false) }
  settle ((List.finRange 48).foldl restartChannel (trunkReset s))

/-- 24 hours of the pilot's always-on clock, in ms. -/
def day : Nat := 24 * 3600 * 1000

/-- The times of the Module faults of the last 24 h before `now`. -/
def recentFaults (times : List Nat) (now : Nat) : List Nat := (times ++ [now]).filter fun t => decide (now < t + day)

/-- A Module fault (R443): event 0x0022, the module reset, and at the third within 24 h the failed state with event
0x0023. -/
def faultModule (s : State) (cause timeMs : Nat) : State :=
  if !railsUp s then s
  else
    let s := bump 0x615003 1 (logEvent s diePilot 0x0022 {} (toLe 1 cause))
    let s := moduleReset s
    let times := recentFaults s.health.faultTimes timeMs
    let s := onHealth s fun h => { h with faultTimes := times }
    if 3 ≤ times.length ∧ !s.health.failed then
      let s := logEvent s diePilot 0x0023 {} (toLe 1 cause)
      noticeAll (onHealth s fun h => { h with failed := true, bit2 := true }) (smartNotice 0)
    else s

end Sys2Proof.Machine
end

