-- ==== Sys2Proof/Machine/Power.lean ====
section
/-! DEFINITION. Meanings of the power, clock, temperature and board rows (17, 19). An event that the module's state does
not allow changes nothing. -/

namespace Sys2Proof.Machine

/-! ### Clocks, cores, dies -/

/-- PILOT_CLOCK_START (R418). -/
def execPilotClockStart (s : State) : Out :=
  .next (if pilotPowered s then onPower s fun p => { p with pilotClk := true } else s)

/-- PILOT_CLOCK_STOP (R418): in Running the sampling keeps the clock on. -/
def execPilotClockStop (s : State) : Out :=
  .next (if runningUp s then s else onPower s fun p => { p with pilotClk := false })

/-- CORE_DIM (R420). -/
def execCoreDim (core : Fin 8) (s : State) : Out :=
  .next (if mayDim s.cores[core] then onCore s core fun k => { k with level := .dim } else s)

/-- CORE_DARK (R420). -/
def execCoreDark (core : Fin 8) (s : State) : Out := .next (if mayDark s core then darkCore s core else s)

/-- CORE_WAKE (R420). -/
def execCoreWake (core : Fin 8) (s : State) : Out :=
  .next (
    if runningUp s && !s.cores[core].retired && s.cores[core].level != .lit && wakeCause s.cores[core] then wakeCore s core
    else s)

/-- CANOPY_DIE_DARK (R420). -/
def execCanopyDieDark (die : Fin 2) (s : State) : Out :=
  .next (
    let mine := (List.finRange 8).filter fun c => c.val / 4 == die.val
    if !runningUp s || !(mine.all fun c => s.cores[c].level == .dark) || mine.any (fun c => loneProg s.cores[c])
        || (hotOn s die.val).any (stays s) then s
    else settle (dieOff ((hotOn s die.val).foldl dropGrant s) die))

/-! ### Module states -/

/-- BANKED_ENTRY (R422). -/
def execBankedEntry (s : State) : Out :=
  .next (
    if runningUp s && !s.power.waking && idle s then
      onPower (setRoots (dieOff (dieOff s 0) 1) .dim .dim) fun p => { p with mod := .banked, dueWork := false }
    else s)

/-- PARKED_ENTRY (R422). -/
def execParkedEntry (s : State) : Out := .next (if mayPark s then park s else s)

/-- PARKED_DUE_WORK (R422). -/
def execParkedDueWork (s : State) : Out :=
  .next (
    if railsUp s && s.power.mod == .parked then
      onPower (setRoots s .dim .dim) fun p => { p with mod := .banked, dueWork := true }
    else s)

/-- WAKE_TO_RUNNING (R422, R423). -/
def execWakeToRunning (s : State) : Out :=
  .next (
    if railsUp s && s.power.mod != .running then
      settle (startChannels (onPower (setRoots s .lit .lit) fun p => { p with mod := .running, waking := false, dueWork := false }))
    else s)

/-- FUNCTION_D3HOT (R422). -/
def execFunctionD3hot (fn : Fin 128) (s : State) : Out :=
  .next (
    if !s.ctrls[fn].enabled then s
    else
      let s := onCtrl s fn fun c => { c with d3hot := true }
      if allD3 s && mayPark s then park s else s)

/-! ### The power cap -/

/-- POWER_SAMPLE (R425, R467). -/
def execPowerSample (avg slotW cableW predicted : Nat) (s : State) : Out :=
  .next (
    let s := onPower s fun p => { p with avg := avg, slotW := slotW, cableW := cableW }
    if runningUp s then controlPower s predicted else s)

/-! ### Temperature and trips -/

/-- THERMAL_STEP (R428). -/
def execThermalStep (die : Fin 32) (temp : Int) (s : State) : Out :=
  .next (if railsUp s then thermalReading s die temp else noteJunction s die temp)

/-- EMERGENCY_TRIP (R427): causes 1 canopy rail current, 2 input power, 3 temperature. -/
def execEmergencyTrip (cause : Fin 3) (die : Fin 32) (s : State) : Out :=
  .next (if railsUp s then trip s (cause.val + 1) (dieCode die) else s)

/-- EMERGENCY_THROTTLE_END (R427, R469). -/
def execEmergencyThrottleEnd (s : State) : Out :=
  .next (onPower s fun p => { p with emergency := false, pwrbrkThrottle := p.pwrbrkThrottle && p.pwrbrk })

/-- THERMAL_SHUTDOWN (R429). -/
def execThermalShutdown (die : Fin 32) (temp : Int) (s : State) : Out :=
  .next (if 120 ≤ temp then thermalOff (noteJunction s die temp) (dieCode die) temp else noteJunction s die temp)

/-- NAND_CASE_TEMP_LIMIT (R473). -/
def execNandCaseTempLimit (ch : Fin 48) (temp : Int) (s : State) : Out :=
  .next (
    let s := onPower s fun p => { p with board := setAt p.board (2 + ch.val) temp }
    let s := onChan s ch fun c => { c with caseHalt := if 70 < temp then true else if temp ≤ 65 then false else c.caseHalt }
    if 85 ≤ temp then thermalOff s (dieOfCh ch.val) temp else startAll s ch)

/-- LPDDR5X_TEMP_LIMIT (R473). -/
def execLpddr5xTempLimit (pkg : Fin 16) (temp : Int) (s : State) : Out :=
  .next (
    let s := onPower s fun p =>
      { p with board := setAt p.board (50 + pkg.val) temp, refresh2x := upd p.refresh2x pkg fun _ => decide (85 < temp) }
    if 95 ≤ temp then thermalOff s dieTrunk temp else s)

/-- PWRBRK_ASSERT (R469). -/
def execPwrbrkAssert (s : State) : Out := .next (if s.power.pwrbrk then s else brake s)

/-- PWRBRK_RELEASE (R469). -/
def execPwrbrkRelease (s : State) : Out := .next (onPower s fun p => { p with pwrbrk := false })

end Sys2Proof.Machine
end

