-- ==== Sys2Proof/Machine/Program.lean ====
section
/-! DEFINITION. The Computational Programs and Subsystem Local Memory command sets (spec 11 R275, R277, R278). The fields
of their commands are those of the family (PRESUMED, log 14, log 21). -/

namespace Sys2Proof.Machine

/-! ### Computational Programs (R277) -/

def kindLoad : Nat := 0x221
def kindActivate : Nat := 0x222
def kindRangeSet : Nat := 0x223

def programLimit : Nat := 64

/-- SEL of Load Program: 0 loads, 1 unloads. -/
def loadSel (e : Sqe) : Nat := fieldOf e.cdw10.toNat 31 24

/-- Is a program of an index of a controller running or paused? -/
def programBusy (s : State) (fn : Fin 128) (i : Nat) : Bool :=
  let runs (b : Bank) : Bool := (b.prog.map fun p => p.fn == fn && p.index == i).getD false
  (s.cores.toList.any fun c => runs c.bankA || runs c.bankB) || s.sess.any fun x => (x.2.ctxSaved.map runs).getD false

/-- Load Program. -/
def loadBody (e : Sqe) (s : State) : State :=
  let i := cdw10Lo e
  let len := e.cdw11.toNat
  let held := s.ctrls[e.fn].programs.get? i
  if e.fuse ≠ 0 ∨ programLimit ≤ i ∨ 2 ≤ loadSel e then fail s e.key Code.invalidField e.nsid
  else if loadSel e = 1 then
    match held with
    | none => fail s e.key Code.invalidField e.nsid
    | some im =>
      if im.active ∨ programBusy s e.fn i then fail s e.key Code.sequenceError e.nsid
      else complete (unloadImage s e.fn i) e.key Code.ok 0 0
  else if held.isSome then fail s e.key Code.invalidField e.nsid
  else if e.dptr < len ∨ e.inp.length < len then fail s e.key (Code.shortData e) e.nsid
  else
    let b := Bytes.sub e.inp 0 len
    match imageReason s e.fn b len with
    | some r => failDw0 s e.key Code.imageRejected r
    | none => complete (loadImage s e.fn i b) e.key Code.ok 0 0

/-- LOAD_PROGRAM (R105 to R107, R277). -/
def execLoadProgram (e : Sqe) (s : State) : Out := .next (nvme s e kindLoad false (loadBody e))

/-- Program Activation Management: CDW10 [16] activates or deactivates. -/
def activateBody (e : Sqe) (s : State) : State :=
  let i := cdw10Lo e
  if e.fuse ≠ 0 ∨ !s.ctrls[e.fn].programs.has i then fail s e.key Code.invalidField e.nsid
  else
    let on := bitOf e.cdw10.toNat 16
    let s := onCtrl s e.fn fun c => { c with programs := c.programs.mod i fun im => { im with active := on } }
    complete s e.key Code.ok 0 0

/-- PROGRAM_ACTIVATION_MANAGEMENT (R275, R277). -/
def execProgramActivationManagement (e : Sqe) (s : State) : Out := .next (nvme s e kindActivate false (activateBody e))

/-- EXECUTE_PROGRAM (R277). -/
def execExecuteProgram (e : Sqe) (core : Fin 8) (s : State) : Out := .next (nvme s e kindExecute false (execBody e core false))

/-! ### Memory ranges and the memory namespace (R278) -/

/-- Range descriptor `k`: 32 bytes, its format in byte 0 of its vendor-specific area. -/
def rangeAt (b : Bytes) (set k : Nat) : MemRange :=
  { set := set, start := Bytes.le b (32 * k + 8) 8, len := Bytes.le b (32 * k + 4) 4, fmt := BitVec.ofNat 4 (Bytes.le b (32 * k + 24) 1) }

/-- Is the format byte of a descriptor a code of Table 3-7, or 0xF? -/
def rangeFmtOk (b : Bytes) (k : Nat) : Bool := let f := Bytes.le b (32 * k + 24) 1; decide (f ≤ 10) || f == 15

/-- Memory Range Set Management: CDW10 [3:0] is SEL (0 creates, 1 deletes), CDW10 [31:16] the set, CDW11 the number of
ranges. -/
def rangeSetBody (e : Sqe) (s : State) : State :=
  let sel := fieldOf e.cdw10.toNat 3 0
  let n := e.cdw11.toNat
  let old := s.ctrls[e.fn].ranges
  if e.fuse ≠ 0 ∨ 2 ≤ sel then fail s e.key Code.invalidField e.nsid
  else if sel = 1 then
    if !(old.any (·.set == cdw10Hi e)) then fail s e.key Code.invalidField e.nsid
    else complete (onCtrl s e.fn fun c => { c with ranges := c.ranges.filter (·.set != cdw10Hi e) }) e.key Code.ok 0 0
  else if e.dptr < 32 * n ∨ e.inp.length < 32 * n then fail s e.key (Code.shortData e) e.nsid
  else if n = 0 ∨ !((List.range n).all (rangeFmtOk e.inp)) then fail s e.key Code.invalidField e.nsid
  else
    let id := lowestOut (old.map (·.set)) 1 (old.length + 1)
    let rs := (List.range n).map (rangeAt e.inp id)
    if !(rs.all fun r => poolGranted s (acctOf e.fn) r.start r.len) then fail s e.key Code.lbaRange e.nsid
    else complete (onCtrl s e.fn fun c => { c with ranges := c.ranges ++ rs }) e.key Code.ok id 0

/-- MEMORY_RANGE_SET_MANAGEMENT (R278). -/
def execMemoryRangeSetManagement (e : Sqe) (s : State) : Out := .next (nvme s e kindRangeSet false (rangeSetBody e))

/-- What Memory Read and Memory Write check: the range lies in the account's grants, the data pointer describes it. -/
def memRefuse (s : State) (e : Sqe) : Option Code :=
  if e.fuse ≠ 0 then some Code.invalidField
  else if e.dptr < slmLen e then some (Code.shortData e)
  else if slmLen e ≠ 0 ∧ !poolGranted s (acctOf e.fn) (slmAddr e) (slmLen e) then some Code.lbaRange
  else none

/-- Memory Read: decoded under the account's tag (Table 9-3); a row with an UNCORRECTABLE word is relocated (R225). -/
def memReadBody (e : Sqe) (s : State) : State :=
  match memRefuse s e with
  | some c => fail s e.key c e.nsid
  | none =>
    let acct := acctOf e.fn
    let (a, n, tag) := (slmAddr e, slmLen e, tagOf s acct)
    match readMem s a n tag with
    | (s, .ok b) => complete (hostWrite (charge s acct none fPoolRd n) e.key 0 b) e.key Code.ok 0 0
    | (s, .error o) => fail (repairRange s a n tag) e.key (readCode o) e.nsid

/-- MEMORY_READ (R278, R213, R225). -/
def execMemoryRead (e : Sqe) (s : State) : Out := .next (nvme s e opMemRead false (memReadBody e))

/-- Memory Write: encoded under the account's tag; a narrow write of a word that does not decode is refused (R214). -/
def memWriteBody (e : Sqe) (s : State) : State :=
  match memRefuse s e with
  | some c => fail s e.key c e.nsid
  | none =>
    let acct := acctOf e.fn
    let (a, n) := (slmAddr e, slmLen e)
    match writeMem s a (Bytes.sub e.inp 0 n) (tagOf s acct) with
    | (s, none) => complete (hostWrote (charge s acct none fPoolWr n) e.fn a n) e.key Code.ok 0 0
    | (s, some o) => fail (hostWrote s e.fn a n) e.key (readCode o) e.nsid

/-- MEMORY_WRITE (R278, R214, R221). -/
def execMemoryWrite (e : Sqe) (s : State) : Out := .next (nvme s e opMemWrite false (memWriteBody e))

/-- Source entry `k` of a Memory Copy: namespace, byte address and length. -/
def copySource (e : Sqe) (k : Nat) : Nat × Nat × Nat :=
  (Bytes.le e.inp (32 * k) 4, Bytes.le e.inp (32 * k + 8) 8, Bytes.le e.inp (32 * k + 16) 4)

/-- Number of source entries of a Memory Copy: CDW12. -/
def copyCount (e : Sqe) : Nat := e.cdw12.toNat

/-- Bytes of one source: of the memory namespace that the command names, or of a namespace of the account. -/
def copyRead (s : State) (e : Sqe) (src : Nat × Nat × Nat) : State × Except Code Bytes :=
  let acct := acctOf e.fn
  let (ns, a, n) := src
  if ns = e.nsid then
    if n ≠ 0 ∧ !poolGranted s acct a n then (s, .error Code.lbaRange)
    else
      match readMem s a n (tagOf s acct) with
      | (s, .ok b) => (charge s acct none fPoolRd n, .ok b)
      | (s, .error o) => (repairRange s a n (tagOf s acct), .error (readCode o))
  else
    match nsFor s e.fn ns with
    | none => (s, .error Code.invalidNs)
    | some x =>
      if x.nsze * 4096 < a + n then (s, .error Code.lbaRange)
      else if !keyOpen s acct then (s, .error Code.accessDenied)
      else if (unrecovered s ns x a n).isSome then (s, .error Code.unrecoveredRead)
      else (chargeFlash s acct none (iuBytes x * (onFlash s ns ((unitsOf x a n).map (·.1))).length), .ok (readMedia s ns a n))

/-- Read the sources of a copy in order, up to the first that fails. -/
def copyReads (s : State) (e : Sqe) : List Nat → State × Except Code Bytes
  | [] => (s, .ok [])
  | k :: t =>
    match copyRead s e (copySource e k) with
    | (s, .error c) => (s, .error c)
    | (s, .ok b) =>
      match copyReads s e t with
      | (s, .ok r) => (s, .ok (b ++ r))
      | r => r

/-- Memory Copy: the sources, one after another, into the memory namespace. -/
def memCopyBody (e : Sqe) (s : State) : State :=
  let acct := acctOf e.fn
  let ks := List.range (copyCount e)
  let total := sumNat (ks.map fun k => (copySource e k).2.2)
  if e.fuse ≠ 0 ∨ copyCount e = 0 then fail s e.key Code.invalidField e.nsid
  else if e.dptr < 32 * copyCount e ∨ e.inp.length < 32 * copyCount e then fail s e.key (Code.shortData e) e.nsid
  else if total ≠ 0 ∧ !poolGranted s acct (slmAddr e) total then fail s e.key Code.lbaRange e.nsid
  else
    match copyReads s e ks with
    | (s, .error c) => fail s e.key c e.nsid
    | (s, .ok b) =>
      match writeMem s (slmAddr e) b (tagOf s acct) with
      | (s, none) => complete (hostWrote (charge s acct none fPoolWr total) e.fn (slmAddr e) total) e.key Code.ok 0 0
      | (s, some o) => fail (hostWrote s e.fn (slmAddr e) total) e.key (readCode o) e.nsid

/-- MEMORY_COPY (R275, R278). -/
def execMemoryCopy (e : Sqe) (s : State) : Out := .next (nvme s e opMemCopy false (memCopyBody e))

end Sys2Proof.Machine
end

