-- ==== Sys2Proof/Machine/Sched.lean ====
section
/-! DEFINITION. Meanings of the scheduling, accounting, tag and scrub rows (09, 10). -/

namespace Sys2Proof.Machine

/-- HOT_IDLE_DEMOTE (R232). -/
def execHotIdleDemote (session : Nat) (s : State) : Out :=
  .next (
    match s.sess.get? session with
    | none => s
    | some x =>
      if x.state = sessOpen ∧ x.res = resHot ∧ x.inflight = 0 ∧ x.cls ≠ 0 ∧ x.pin = false then settle (dropGrant s session) else s)

/-- CLASS0_PREEMPT (R241): the session takes the core, PREEMPT is set, and the switch starts at the tile boundary. -/
def execClass0Preempt (core : Fin 8) (session : Nat) (s : State) : Out :=
  .next (
    match s.sess.get? session with
    | none => s
    | some x =>
      if x.state ≠ sessOpen ∨ x.cls ≠ 0 then s
      else
        let s := (makeHot s session).1
        let granted := ((s.sess.get? session).map fun x => bitOf x.grant.toNat core.val).getD false
        let k := s.cores[core]
        if !granted || k.useB || !(k.bankB.prog.isNone || k.bankB.session == some session) then s
        else onCore (coreEvent (bringIn s core true (some session)) core 7) core startPreempt)

/-- CORE_SWITCH_COMPLETE (R240, R241). -/
def execCoreSwitchComplete (core : Fin 8) (s : State) : Out :=
  .next (
    let k := s.cores[core]
    if k.level != .lit then s
    else
      match k.switching with
      | some i => finishSwitch s core i
      | none => if class0Over k then finishSwitch s core k.bankA.session else s)

/-- SLICE_END (R242, R244). -/
def execSliceEnd (core : Fin 8) (overrun : Nat) (s : State) : Out := .next (endTurn s core overrun)

/-- ENERGY_METER_SAMPLE (R248). -/
def execEnergyMeterSample (readings : List MeterReading) (s : State) : Out := .next (readings.foldl splitEnergy s)

/-- ACCOUNT_BIND (R210, R247). -/
def execAccountBind (account : Fin 129) (s : State) : Out := .next (bindAccount (finishLocks s) account.val)

/-- SCRUB_PASS_END (R223, R225). -/
def execScrubPassEnd (array : Nat) (s : State) : Out := .next (if array < arrayCount then endPass s array else s)

/-- TAG_QUARANTINE_RELEASE (R224). -/
def execTagQuarantineRelease (s : State) : Out := .next (releaseTags s)

/-- CHK_TEST_WRITE (R222, Table 9-8): the reserved bits take the write, since they are RW. -/
def execChkTestWrite (canopy : Bool) (unit : Fin 16) (value : W64) (s : State) : Out :=
  .next (
    let p := s.repair
    if canopy then
      match finOf? 2 unit.val with
      | some d => { s with repair := { p with cdTest := upd p.cdTest d fun _ => value } }
      | none => s
    else { s with repair := { p with tdTest := upd p.tdTest unit fun _ => value } })

end Sys2Proof.Machine
end

