-- ==== Sys2Proof/Machine/Search.lean ====
section
/-! DEFINITION. SEARCH: queries, their rounds and replies, scans (spec 06 R147 to R162). -/

namespace Sys2Proof.Machine

/-- SEARCH at its fetch: MODE 2 is a scan. -/
def searchCmd (e : Sqe) (s : State) : State :=
  if (searchP (inRegion e)).mode = 2 then scanBody e s else searchBody e s

/-- SEARCH_QUERY: SEARCH with MODE Open or Pinned (R147, R148, R164). -/
def execSearchQuery (e : Sqe) (s : State) : Out := .next (nvme s e opSearch false (searchCmd e))

/-- SEARCH_SCAN: SEARCH with MODE Scan (R159). -/
def execSearchScan (e : Sqe) (s : State) : Out := .next (nvme s e opSearch false (searchCmd e))

/-- SEARCH_ROUND_MERGED: every reply of a Pinned round has arrived, when none of its walkers waits for a context (R149, R154,
R156, R164). -/
def execSearchRoundMerged (key : CmdKey) (s : State) : Out :=
  .next (
    match runningQuery s key with
    | none => s
    | some (q, x) =>
      if q.p.mode ≠ 1 ∨ q.flying = [] ∨ q.flying.any (walkerWaits s key) then s
      else afterQuery (roundMerged s q x) q.index)

/-- SEARCH_REPLY_MERGE: a walker of an Open query replies (R150, R154, R156, R164). -/
def execSearchReplyMerge (key : CmdKey) (node : Nat) (s : State) : Out :=
  .next (
    match runningQuery s key with
    | none => s
    | some (q, x) =>
      if q.p.mode ≠ 0 ∨ !q.flying.contains node ∨ walkerWaits s key node then s
      else afterQuery (replyMerged s q x node (badNode s x q.gen [node]).isSome) q.index)

/-- SEARCH_TIME_BUDGET_EXPIRY: a query stops, in its slot or waiting for one; replies not yet merged are discarded, their reads
counted (R150). -/
def execSearchTimeBudgetExpiry (key : CmdKey) (s : State) : Out :=
  .next (
    match (s.queries ++ s.queryWait).find? fun q => q.e.key == key with
    | none => s
    | some q =>
      match s.indexes.get? q.index with
      | none => s
      | some x =>
        if q.p.mode ≠ 0 ∨ q.p.timeBudget = 0 then s
        else afterQuery (finishQuery (chargeReads s q q.flying.length) x q .timeBudget) q.index)

end Sys2Proof.Machine
end

