-- ==== Sys2Proof/Machine/Security.lean ====
section
/-! DEFINITION. Meanings of the security commands (15). OWNER_REQUEST stands with the dictionary. -/

namespace Sys2Proof.Machine

/-- SECURITY_SEND (R371). -/
def execSecuritySend (e : Sqe) (req : SpdmReq) (s : State) : Out := .next (nvme s e 0x81 true (secSendBody e req))

/-- SECURITY_RECEIVE (R371). -/
def execSecurityReceive (e : Sqe) (s : State) : Out := .next (nvme s e 0x82 true (secReceiveBody e))

/-- SANITIZE (R385). -/
def execSanitize (e : Sqe) (s : State) : Out := .next (nvme s e 0x84 true (sanitizeBody e))

/-- TK_STATUS (R375). -/
def execTkStatus (fn : Fin 128) (session : Option Nat) (s : State) : Out :=
  .next (tkMessage s fn session (tkStatusBody fn))

/-- TK_CLAIM (R376). -/
def execTkClaim (fn : Fin 128) (session : Option Nat) (mode : Byte) (secret : Bytes) (s : State) : Out :=
  .next (tkMessage s fn session (tkClaimBody fn mode secret))

/-- TK_UNLOCK (R374). -/
def execTkUnlock (fn : Fin 128) (session : Option Nat) (secret : Bytes) (s : State) : Out :=
  .next (tkMessage s fn session (tkUnlockBody fn secret))

/-- TK_LOCK (R377). -/
def execTkLock (fn : Fin 128) (session : Option Nat) (s : State) : Out :=
  .next (tkMessage s fn session (tkLockBody fn))

/-- SPDM_REQUEST (R371). -/
def execSpdmRequest (ep : Endpoint) (req : SpdmReq) (s : State) : Out :=
  .next (
    if !endpointUp s ep then s
    else match spdmAnswer s ep req with
      | (s, b) => respond s ep b)

/-- SPDM_HEARTBEAT_TIMEOUT (R371): a session without a heartbeat in its period ends. -/
def execSpdmHeartbeatTimeout (ep : Endpoint) (session : Nat) (s : State) : Out :=
  .next (onSpdm s ep fun x => { x with sessions := x.sessions.filter (·.1 != session) })

/-- IDE_KM_KEY_PROGRAM (R383): refused outside a secured session with security rights on the PF mailbox. -/
def execIdeKmKeyProgram (stream : Fin 9) (session : Option Nat) (vfs : List Nat) (s : State) : Out :=
  .next (
    if !endpointUp s (.doe 0) then s
    else if !rightsOn s (.doe 0) session then respond s (.doe 0) (spdmError errInvalidRequest)
    else
      { s with ide := upd s.ide stream fun _ =>
          { keyed := true, secure := true, vfs := if stream.val = 0 then [] else vfs.filter fun v => decide (1 ≤ v) && decide (v < 128) } })

/-- IDE_INTEGRITY_FAILURE (R383). -/
def execIdeIntegrityFailure (stream : Fin 9) (s : State) : Out :=
  .next (
    if !s.ide[stream].secure then s
    else
      let hit := (List.finRange 128).filter fun f => f.val != 0 && carries s stream f
      let s := { s with ide := upd s.ide stream fun x => { x with secure := false, insecure := true } }
      finishLocks (hit.foldl tdiError s))

/-- LOCK_INTERFACE (R384): of an enabled VF in CONFIG_UNLOCKED. -/
def execLockInterface (fn : Fin 128) (s : State) : Out :=
  .next (
    let i := acctIx (acctOf fn)
    if fn.val = 0 ∨ !s.ctrls[fn].enabled ∨ s.accounts[i].tdi ≠ .configUnlocked then s
    else onAcct s i fun a => { a with tdi := .configLocked })

/-- START_INTERFACE (R384). -/
def execStartInterface (fn : Fin 128) (s : State) : Out :=
  .next (
    let i := acctIx (acctOf fn)
    if s.accounts[i].tdi ≠ .configLocked ∨ !carried s fn then s
    else onAcct s i fun a => { a with tdi := .run })

/-- STOP_INTERFACE (R384): a mode 0 account rebinds. -/
def execStopInterface (fn : Fin 128) (s : State) : Out :=
  .next (
    let i := acctIx (acctOf fn)
    if fn.val = 0 then s
    else bindAccount (onAcct s i fun a => { a with tdi := .configUnlocked }) (acctOf fn))

end Sys2Proof.Machine
end

