-- ==== Sys2Proof/Machine/Session.lean ====
section
/-! DEFINITION. Session commands, REPLAY and FLIGHT-LOG-GET (spec 10 R227 to R234, spec 12 R297 to R300, R305, spec 18
R454 to R461). -/

namespace Sys2Proof.Machine

def opSessionMove : Nat := 0x90
def opFlightLogGet : Nat := 0xCA

/-- SESSION_OPEN (R110, R299). -/
def execSessionOpen (e : Sqe) (s : State) : Out := .next (nvme s e opSessionOpen true (openBody e))

/-- SESSION_CLOSE (R230, R300). -/
def execSessionClose (e : Sqe) (s : State) : Out := .next (nvme s e opSessionClose true (closeBody e))

/-- SESSION-MOVE: OP is CDW13 [1:0]. -/
def sessionMove (e : Sqe) (s : State) : State :=
  settle (if fieldOf e.cdw13.toNat 1 0 = 1 then exportBody e s else moveBody e s)

/-- SESSION_MOVE_RESIDENCY: SESSION-MOVE with OP 0 (R297). -/
def execSessionMoveResidency (e : Sqe) (s : State) : Out := .next (nvme s e opSessionMove false (sessionMove e))

/-- SESSION_EXPORT: SESSION-MOVE with OP 1 (R297, R381). -/
def execSessionExport (e : Sqe) (s : State) : Out := .next (nvme s e opSessionMove false (sessionMove e))

/-- REPLAY (R458 to R461). -/
def execReplay (e : Sqe) (s : State) : Out := .next (nvme s e opReplay false fun s => settle (replayBody e false s))

/-! ### FLIGHT-LOG-GET (R305, R456) -/

/-- The flight log of a session as bytes (Table 18-7). -/
def flightLogBytes (i : Nat) (x : Sess) : Bytes :=
  toLe 2 i ++ toLe 2 1 ++ toLe 4 x.log.length ++ toLe 8 ((x.log.head?.map (·.logSeq)).getD x.logNext).toNat
    ++ toLe 8 x.logNext.toNat ++ toLe 8 x.logDropped ++ Bytes.sub (Crypto.hmac x.sk (toLe 8 x.seed.toNat)) 0 16
    ++ List.replicate 16 0 ++ x.log.flatMap flightBytes

/-- A step report as bytes (Table 12-12). -/
def reportBytes (r : StepReport) : Bytes :=
  toLe 8 r.step ++ toLe 4 r.gen ++ toLe 4 r.nonfinite ++ toLe 8 r.loss ++ toLe 8 r.discarded

/-- The object that a selector names, or why there is none. -/
def logObject (s : State) (e : Sqe) : Except Code Bytes :=
  let i := cdw10Hi e
  match cdw10Op e with
  | 0 =>
    match sessFor s e.fn i with
    | none => .error Code.sessionUnknown
    | some x => if keyOpen s x.account then .ok (flightLogBytes i x) else .error Code.keyLocked
  | 1 => .ok (s.accounts[acctIx (acctOf e.fn)].closedRecs.flatMap id)
  | 2 =>
    match tableFor s e.fn i with
    | none => .error Code.invalidField
    | some t => .ok (t.reports.flatMap reportBytes)
  | 3 =>
    match s.accounts[acctIx (acctOf e.fn)].probes.find? (·.1 == i) with
    | none => .error Code.invalidField
    | some p => .ok p.2
  | _ => .error Code.invalidField

/-- FLIGHT-LOG-GET: bytes of the object from an offset, zero beyond its end. -/
def flightLogGet (e : Sqe) (s : State) : State :=
  let len := e.cdw11.toNat
  let off := e.cdw12.toNat + 2 ^ 32 * e.cdw13.toNat
  if e.fuse ≠ 0 then fail s e.key Code.invalidField
  else if len % 4 ≠ 0 then fail s e.key Code.invalidField
  else if e.dptr < len then fail s e.key (Code.shortData e)
  else
    match logObject s e with
    | .error c => fail s e.key c
    | .ok b => complete (hostWrite s e.key 0 (Bytes.sub b off len)) e.key Code.ok (min (b.length - off) (2 ^ 32 - 1)) 0

/-- FLIGHT_LOG_GET_SESSION_LOG: selector 0x00 (R456). -/
def execFlightLogGetSessionLog (e : Sqe) (s : State) : Out := .next (nvme s e opFlightLogGet true (flightLogGet e))

/-- FLIGHT_LOG_GET_CLOSED_RECORDS: selector 0x01 (R305). -/
def execFlightLogGetClosedRecords (e : Sqe) (s : State) : Out := .next (nvme s e opFlightLogGet true (flightLogGet e))

/-- FLIGHT_LOG_GET_STEP_REPORTS: selector 0x02 (R305). -/
def execFlightLogGetStepReports (e : Sqe) (s : State) : Out := .next (nvme s e opFlightLogGet true (flightLogGet e))

/-- FLIGHT_LOG_GET_PROBE_REPORT: selector 0x03 (R305). -/
def execFlightLogGetProbeReport (e : Sqe) (s : State) : Out := .next (nvme s e opFlightLogGet true (flightLogGet e))

end Sys2Proof.Machine
end

