-- ==== Sys2Proof/Machine/Startup.lean ====
section
/-! DEFINITION. Meanings of the power-loss, start-up, reset, self-test and Module-fault rows (11, 17, 18, 19). -/

namespace Sys2Proof.Machine

/-! ### Losing power and starting -/

/-- POWER_LOSS_DETECT (R430). -/
def execPowerLossDetect (s : State) : Out := .next (powerLoss s)

/-- HOLDUP_SEQUENCE_END (R430). -/
def execHoldupSequenceEnd (completed powerPresent : Bool) (s : State) : Out := .next (holdupEnd s completed powerPresent)

/-- Does the bank hold 30 J or more: a positive FP32 of at least 30.0? -/
def bankPasses (usable : W32) : Bool := decide (0x41F00000 ≤ usable.toNat) && decide (usable.toNat ≤ 0x7F800000)

/-- BANK_TEST (R432, R320). -/
def execBankTest (usable : W32) (s : State) : Out :=
  .next (
    if !railsUp s then s
    else
      let ok := bankPasses usable
      let s := onPower s fun p => { p with bankJ := usable, bankResult := if ok then 0 else 1, bankOk := p.bankOk || ok }
      if ok then settle (finishSync (onHealth s fun h => { h with bit4 := false }))
      else
        let fresh4 := !s.health.bit4
        let s := logEvent (onHealth s fun h => { h with bit4 := true }) diePilot 0x0018 {} (toLe 4 usable.toNat)
        if fresh4 then noticeAll s (smartNotice 0) else s)

/-- POWER_ON_STARTUP (R434). `cfImageOk` says what the boot ROM's checks of the code flash image found, `replicaOk` which
replicas match, `defects` what the self-test found, `nonce` the boot nonce drawn. -/
def execPowerOnStartup (sense : BitVec 2) (cfImageOk : Bool) (replicaOk : List Bool) (defects : List TestResult) (nonce : W64)
    (s : State) : Out :=
  if !defects.all resultOk then .fault .illFormed else .next (startUp s sense cfImageOk replicaOk defects nonce)

/-- VAUX_POWER_ON (R433, R403). -/
def execVauxPowerOn (cfImageOk : Bool) (nonce : W64) (s : State) : Out :=
  .next (
    if s.power.vaux then s
    else
      let was := pilotPowered s
      pilotUpWith was (onDict (onPower s fun p => { p with vaux := true }) fun d => { d with i3c := false }) cfImageOk nonce)

/-- SINGLE_INPUT_12V (R468). -/
def execSingleInput12v (slotPresent cfImageOk : Bool) (nonce : W64) (s : State) : Out :=
  .next (
    if s.power.holdup || s.power.phase == .ready then s
    else
      let was := pilotPowered s
      pilotUpWith was (onPower s fun p => { p with slot12 := slotPresent, cable12 := !slotPresent, phase := .oneInput }) cfImageOk nonce)

/-- VAUX_REMOVAL (R403, R417). -/
def execVauxRemoval (s : State) : Out :=
  .next (
    let s := onDict (onPower s fun p => { p with vaux := false }) fun d => { d with i3c := false, eid := 0 }
    if pilotPowered s || s.power.holdup then s else pilotDown s)

/-- RAIL_OUT_OF_REGULATION (R470). In Parked no die of a main rail is Lit or Dim, and the pool rails alone matter. -/
def execRailOutOfRegulation (pilot pool : Bool) (timeMs : Nat) (s : State) : Out :=
  .next (
    if pilot then (if railsUp s then powerLoss s else s)
    else if !pool && s.power.mod == .parked then s
    else faultModule s (if pool then 4 else 2) timeMs)

/-! ### Resets (Table 17-7) -/

/-- LINK_TRAINING_COMPLETE (R256): the link trains whenever 12 V is present on either input. -/
def execLinkTrainingComplete (s : State) : Out :=
  .next (
    if (s.power.slot12 || s.power.cable12) && !s.power.shutdown then onPower s fun p => { p with linkUp := true } else s)

/-- CONTROLLER_RESET (R282). -/
def execControllerReset (fn : Fin 128) (s : State) : Out := .next (if s.ctrls[fn].ccEn then settle (resetController s fn) else s)

/-- FUNCTION_LEVEL_RESET (R282, R384). -/
def execFunctionLevelReset (fn : Fin 128) (s : State) : Out :=
  .next (if s.ctrls[fn].enabled then settle (tdiError (resetFunction s fn) fn) else s)

/-- CONVENTIONAL_RESET (R433): the module's state, the pool, the buffer and the sessions are kept. -/
def execConventionalReset (s : State) : Out :=
  .next (settle (onPower ((List.finRange 128).foldl resetFunction s) fun p => { p with linkUp := false }))

/-- PILOT_WATCHDOG_RESET (R433): the pilot management core alone. -/
def execPilotWatchdogReset (nonce : W64) (s : State) : Out :=
  .next (if s.fw.pilotUp then pilotStart (cfRegions (cfRedo (pilotReset s))) nonce else s)

/-! ### Self-test and Module faults -/

/-- DEVICE_SELF_TEST (R436). -/
def execDeviceSelfTest (e : Sqe) (s : State) : Out := .next (nvme s e 0x14 true (selfTestBody e))

/-- FIELD_SELF_TEST (R436): of an engine or a cluster; SRAM is tested at start-up and by the extended self-test. -/
def execFieldSelfTest (result : TestResult) (s : State) : Out :=
  if !resultOk result then .fault .illFormed
  else .next (
    match result with
    | .sram _ => s
    | r => if railsUp s && testable s r then applyResult s r else s)

/-- Can a Module fault of a cause arise: a canopy die has all four cores retired (5), a root die both lamp clusters (6)? What the
other causes need is the event's own. -/
def faultStands (s : State) (cause : Nat) : Bool :=
  if cause = 5 then (List.range 2).any fun d => (List.finRange 8).all fun c => c.val / 4 != d || s.cores[c].retired
  else if cause = 6 then (List.range 24).any fun d => (List.finRange 48).all fun c => c.val / 2 != d || s.clusters[c].retired
  else true

/-- MODULE_FAULT (R443): causes 1 to 6 of event 0x0022. -/
def execModuleFault (cause : Fin 6) (timeMs : Nat) (s : State) : Out :=
  .next (if faultStands s (cause.val + 1) then faultModule s (cause.val + 1) timeMs else s)

end Sys2Proof.Machine
end

