-- ==== Sys2Proof/Machine/Table.lean ====
section
/-! DEFINITION. Embedding tables: TABLE-MANAGE, GATHER, hot rows and SCATTER-UPDATE (spec 07 R173 to R190, spec 12 R303,
R304). -/

namespace Sys2Proof.Machine

/-- TABLE-MANAGE: its OP is CDW10 [7:0] (R303). -/
def tableManage (e : Sqe) (s : State) : State :=
  match cdw10Op e with
  | 1 => tableCreateBody e s
  | 2 => writeRowsBody e s
  | 3 => publishBody e s
  | 4 => abortStepBody e s
  | 5 => tableDestroyBody e s
  | _ => fail s e.key Code.invalidField e.nsid

/-- TABLE_CREATE: OP 0x01 (R173). -/
def execTableCreate (e : Sqe) (s : State) : Out := .next (nvme s e opTableManage true (tableManage e))

/-- WRITE_ROWS: OP 0x02 (R175). -/
def execWriteRows (e : Sqe) (s : State) : Out := .next (nvme s e opTableManage true (tableManage e))

/-- PUBLISH: OP 0x03 (R177). -/
def execPublish (e : Sqe) (s : State) : Out := .next (nvme s e opTableManage true (tableManage e))

/-- ABORT_STEP: OP 0x04 (R188). -/
def execAbortStep (e : Sqe) (s : State) : Out := .next (nvme s e opTableManage true (tableManage e))

/-- TABLE_DESTROY: OP 0x05 (R304). -/
def execTableDestroy (e : Sqe) (s : State) : Out := .next (nvme s e opTableManage true (tableManage e))

/-- GATHER (R180 to R182). -/
def execGather (e : Sqe) (s : State) : Out := .next (nvme s e opGather false (gatherBody e))

/-- HOT_ROW_WINDOW_END: the window's lookups rank the rows whose copies are kept (R185). -/
def execHotRowWindowEnd (i : Nat) (s : State) : Out :=
  .next (
    match s.tables.get? i with
    | none => s
    | some t => if t.window < hotWindow s then s else onTable s i fun t => rankHot s i t)

/-- SCATTER_UPDATE (R187 to R190). -/
def execScatterUpdate (e : Sqe) (s : State) : Out := .next (nvme s e opScatter false (scatterBody e))

end Sys2Proof.Machine
end

