-- ==== Sys2Proof/Machine/Tile.lean ====
section
/-! DEFINITION. Meanings of the work-tile, tile-mover, mailbox and store rows (spec 04). -/

namespace Sys2Proof.Machine

/-! ### Work tiles (R84 to R92) -/

/-- TILE_DESC_ARM (R90, R91). -/
def execTileDescArm (c : Fin 8) (slot : Fin 2) (v : W32) (s : State) : Out :=
  .next (if cpRuns s c then tdWrite s c slot v.toNat else s)

/-- TILE_OPEN: the oldest armed descriptor opens once R86 holds; its stale input tiles are rescanned first (R221), and
a tile above the Class 0 ceiling moves its session to another core (R238). -/
def execTileOpen (c : Fin 8) (s : State) : Out :=
  match nextTile s c with
  | none => .next s
  | some i =>
    let x := (bank s.cores[c]).tileSlots[i]
    if ceilingHolds s c (tileDesc x.dw).cost then .next (moveCore s c)
    else
      let s1 := x.ins.foldl (fun a t => rescan a c none t) s
      .next (if openReady s1 c i then openTile s1 c i else s)

/-- TILE_CLOSE: the control processor sets CLOSE of the open tile (R84). -/
def execTileClose (c : Fin 8) (slot : Fin 2) (s : State) : Out :=
  .next (if cpRuns s c && openSlot s.cores[c] slot then closeTile s c else s)

/-- TILE_COMPLETE: the last drain of the last descriptor is over (R74, R84, R87). -/
def execTileComplete (c : Fin 8) (s : State) : Out :=
  .next (if tileDone s.cores[c] then settle (completeTile s c) else s)

/-- TILE_BUDGET_EXCEEDED: the head descriptor would pass COST (R85). A vector instruction that would is ended where it
issues. -/
def execTileBudgetExceeded (c : Fin 8) (s : State) : Out :=
  .next (if overBudget s c then settle (budgetEnd s c) else s)

/-! ### The tile mover (R93, R94) -/

/-- TM_DESC_ARM (R90, R93). -/
def execTmDescArm (c : Fin 8) (slot : Fin 32) (v : W32) (s : State) : Out :=
  .next (if cpRuns s c then tmWrite s c slot v.toNat else s)

/-- TM_COPY_COMPLETE: the head descriptor's copy ends (R93, R94). -/
def execTmCopyComplete (c : Fin 8) (s : State) : Out :=
  match tmHead s.cores[c] with
  | none => .next s
  | some i =>
    .next (if moverHeld s.cores[c] (tmDesc s.cores[c].tmSlots[i].dw) then s else runCopy s c i)

/-! ### Mailboxes and doorbells (R95 to R97) -/

/-- Remove the head of the running bank's inbound mailbox; a held post follows. -/
def popBank (b : Bank) : Bank :=
  { b with mboxIn := b.mboxIn.drop 1 ++ b.mboxInHeld.take (64 - (b.mboxIn.length - 1)), mboxInHeld := b.mboxInHeld.drop (64 - (b.mboxIn.length - 1)) }

/-- MBOX_IN_POP (R95). -/
def execMboxInPop (c : Fin 8) (s : State) : Out :=
  .next (if cpRuns s c ∧ (bank s.cores[c]).mboxIn ≠ [] then syncMbox (onBank s c popBank) c else s)

/-- MBOX_OUT_PUSH: the entry written at 0x3000_1080 is sent (R95, R97). -/
def execMboxOutPush (c : Fin 8) (s : State) : Out :=
  if !cpRuns s c then .next s
  else
    let e := (bank s.cores[c]).mboxOutReg
    if [0x0101, 0x0102, 0x0103].contains (entryType e) ∧ entryLen e ≤ 56 then .next (act s c (.push e))
    else .next (settle (accessFault s c 0x300010C0))

/-- CORE_DB_OUT: ring firmware (R95). -/
def execCoreDbOut (c : Fin 8) (s : State) : Out := .next (if cpRuns s c then settle (act s c .doorbell) else s)

/-- Does a bank run the program of a command handle? -/
def bankHas (b : Bank) (h : Nat) : Bool := (b.prog.bind (·.handle)).any fun k => handleOf k == h

/-- FIRMWARE_MBOX_POST: firmware posts START, ABORT or RESUME and rings the core (R95 to R97). The entry goes to the
bank whose program the handle names, else to the running one. An ABORT takes effect at the next tile boundary (R89). -/
def execFirmwareMboxPost (c : Fin 8) (e : List W32) (s : State) : Out :=
  if e.length ≠ 16 ∨ !([1, 2, 3].contains (entryType e)) ∨ 56 < entryLen e then .fault .illFormed
  else
    let h := Bytes.le (entryPayload e) 0 8
    let k := s.cores[c]
    if !bankHas (bank k) h && bankHas (otherBank k) h then
      let s := coreEvent (onCore s c fun k => if k.useB then { k with bankA := postBank k.bankA e } else { k with bankB := postBank k.bankB e }) c 1
      .next (if entryType e = 2 then settle (abortPaused s c) else s)
    else
      let s := coreEvent (syncMbox (onBank s c fun b => postBank b e) c) c 1
      .next (if entryType e = 2 ∧ bankHas (bank k) h then settle (stopRunning s c) else s)

/-! ### Accesses of the control processor (R80, R87, R108, R109, R214) -/

/-- CP_ACCESS_FAULT: a load by the control processor, or one by the vector unit, that is not permitted or whose words do not
decode (R109, Table 9-3). -/
def execCpAccessFault (c : Fin 8) (l : CpLoad) (s : State) : Out :=
  if !cpRuns s c ∨ (progOn s c).isNone then .next s
  else if l.vec then .next (settle (vecLoad s c l.addr))
  else
    let (s, ok) := cpLoads s c l.addr
    .next (if ok then s else settle (accessFault s c l.addr))

/-- CONTROL_PROCESSOR_STORE (R80, R214): 1, 2, 4 or 8 bytes, or 64 bytes of the pool. A misaligned store writes its
bytes (DESIGN CHOICE, log 24: no rule speaks of one). -/
def execControlProcessorStore (c : Fin 8) (addr : Nat) (b : Bytes) (s : State) : Out :=
  if !([1, 2, 4, 8, 64].contains b.length) then .fault .illFormed
  else .next (if cpRuns s c then cpStore s c addr b else s)

end Sys2Proof.Machine
end

