-- ==== Sys2Proof/Machine/Vector.lean ====
section
/-! DEFINITION. Meanings of the vector-unit rows (spec 04 R81, spec 02, spec 08 R195 to R201, spec 09 R214). Operand
forms that the spec does not encode are DESIGN CHOICES of log 24. -/

namespace Sys2Proof.Machine

open Sys2Proof.Num

/-! ### Registers as packed elements -/

/-- Elements of a format in a register of 4 KiB (Table 2-1). -/
def vLanes (fmt : Nat) : Nat := if widthOf fmt = 6 then 5460 else 32768 / widthOf fmt

/-- The first `n` element codes of a register. -/
def vCodes (b : Bank) (fmt n : Nat) (r : Fin 32) : List Nat :=
  let a := (b.vregs.gets 0 (r.val * 4096) 4096).toArray
  (List.range n).map fun i => elem fmt (fun j => a.getD j 0) i

/-- Their values. -/
def vVals (b : Bank) (fmt n : Nat) (r : Fin 32) : List Val := (vCodes b fmt n r).map (dec fmt)

/-- Write bytes to the low end of a register; the rest of it stays. -/
def vPutBytes (b : Bank) (r : Fin 32) (v : Bytes) : Bank := { b with vregs := Mem.puts 0 b.vregs (r.val * 4096) (v.take 4096) }

/-- Write element codes. -/
def vPutCodes (s : State) (c : Fin 8) (fmt : Nat) (r : Fin 32) (v : List Nat) : State :=
  onBank s c fun b => vPutBytes b r (pack fmt v)

/-- Counters of a vector instruction: an open tile keeps them until it completes (R74). -/
def countVec (s : State) (c : Fin 8) (zr : Nat) (f : RoundFlags) : State :=
  match s.cores[c].tile with
  | none => bump 0x605001 zr (countRound s f)
  | some _ =>
    let l := [(0x605001, zr), (0x605002, f.loss), (0x605003, f.ovf), (0x605004, f.sat), (0x605005, f.invalid)]
    let add (t : Tab Nat) : Tab Nat := l.foldl (fun t p => t.upd p.1 0 (· + p.2)) t
    onCore s c fun k => { k with tile := k.tile.map fun w => { w with counters := add w.counters } }

/-- Flags of rounded elements. -/
def vFlags (rs : List Rounded) : RoundFlags :=
  { sat := (rs.filter (·.sat)).length, invalid := (rs.filter (·.invalid)).length }

/-! ### Elementwise operations -/

/-- Exact sum of two values. -/
def addVal : Val → Val → Val
  | .fin m e, .fin n f => let (a, b) := sumDy [(m, e), (n, f)]; .fin a b
  | .nan, _ => .nan
  | _, .nan => .nan
  | .inf s, .inf t => if s = t then .inf s else .nan
  | .inf s, _ => .inf s
  | _, .inf t => .inf t

def negVal : Val → Val
  | .fin m e => .fin (-m) e
  | .inf s => .inf (!s)
  | .nan => .nan

def absVal : Val → Val
  | .fin m e => .fin m.natAbs e
  | .inf _ => .inf false
  | .nan => .nan

/-- `a < b` for values that are no NaN. -/
def ltVal : Val → Val → Bool
  | .fin m e, .fin n f => ltDy (m, e) (n, f)
  | .inf s, .inf t => s && !t
  | .inf s, _ => s
  | _, .inf t => !t
  | _, _ => false

/-- The value of one element; none for the larger or smaller of a NaN and another value, which the spec does not
state. -/
def elemVal (op : VOp) (a b c : Val) : Option Val :=
  match op with
  | .add => some (addVal a b)
  | .sub => some (addVal a (negVal b))
  | .mul => some (mulVal a b)
  | .fma => some (addVal (mulVal a b) c)
  | .max => if a = .nan ∨ b = .nan then none else some (if ltVal a b then b else a)
  | .min => if a = .nan ∨ b = .nan then none else some (if ltVal b a then b else a)
  | .neg => some (negVal a)
  | .abs => some (absVal a)
  | _ => some a

/-- The result of one element, from the codes of its operands: an unstated one is a free function of them, the same in
every lane (R81). -/
def elemCode (op : VOp) (fmt : Nat) (osat : Bool) (a b c : Nat) : Rounded :=
  match elemVal op (dec fmt a) (dec fmt b) (dec fmt c) with
  | some v => convert fmt 0 0 osat v
  | none => ⟨Config.vecExtreme op fmt a b % 2 ^ widthOf fmt, false, false⟩

/-- The max-abs of a token-wide row: the largest of the named row records (R46). -/
def tokenMax (s : State) (c : Fin 8) (rows : List (Nat × Nat)) : Int × Int :=
  rows.foldl (fun a p =>
    match (physOf c p.1).map fun x => recOf s (tileNo x) with
    | some r =>
      match dec r.fmt.toNat ((r.rowmax.getD p.2 0).toNat) with
      | .fin m e => let x : Int × Int := (m.natAbs, e); if ltDy a x then x else a
      | _ => a
    | none => a) (0, 0)

/-- May the program read the row records it names: rows of its own tiles whose record is not stale? -/
def tokenRows (s : State) (c : Fin 8) (rows : List (Nat × Nat)) : Bool :=
  rows.all fun p =>
    match physOf c p.1 with
    | some x => inTiles x && tileGranted s (ownerOn s c) (tileNo x) && !(recOf s (tileNo x)).stale
        && decide (p.2 < (recOf s (tileNo x)).nrows.toNat)
    | none => false

/-- Cut a list into pieces. -/
def pieces {α : Type} (l : List α) (n : Nat) : List (List α) :=
  (List.range (ceilDiv l.length n)).map fun i => (l.drop (i * n)).take n

/-- Formats the vector unit takes: arithmetic in INT8, FP8, FP16, BF16, FP32 and INT32, conversion from all. -/
def arithFmt (f : Nat) : Bool := [1, 5, 6, 7, 8, 9, 10].contains f

/-- Is an elementwise instruction legal (Tables 2-3 and 3-7)? -/
def elemOk (op : VOp) (fmt : Nat) : Bool :=
  match op with
  | .convert d => decide (fmt ≤ 10) && decide (d.toNat ≤ 10)
  | .convertMx d => [1, 2, 3, 4, 5, 6].contains fmt && decide (d.toNat ≤ 10)
  | .quantSym d => decide (fmt ≤ 10) && decide (d.toNat ≤ 6)
  | .quantToken d _ => decide (fmt ≤ 10) && decide (d.toNat ≤ 6)
  | .quantAsym _ => decide (fmt ≤ 10)
  | .quantMx d => decide (fmt ≤ 10) && [1, 2, 3, 4, 5, 6].contains d.toNat
  | _ => arithFmt fmt

/-- Cycles of an elementwise instruction: 1,024 elements of 32 bits or 2,048 of 16 bits are one register. -/
def elemCycles (fmt : Nat) : Nat := if widthOf fmt < 16 then 2 else 1

/-- Effect of a legal elementwise instruction. -/
def elemBody (c : Fin 8) (op : VOp) (fmt : Nat) (vd va vb vc : Fin 32) (osat : Bool) (s : State) : State :=
  let b := bank s.cores[c]
  let quant (s : State) (d : Nat) (qs : List Quant) (sc : Bytes) : State :=
    let s := onBank s c fun b => vPutBytes b vc sc
    countVec (vPutCodes s c d vd (qs.flatMap (·.codes))) c ((qs.filter (·.zero)).length)
      { sat := sumNat (qs.map (·.sat)), invalid := sumNat (qs.map (·.invalid)) }
  match op with
  | .convert d =>
    let n := min (vLanes fmt) (vLanes d.toNat)
    let rs := (vVals b fmt n va).map (convert d.toNat 0 0 osat)
    countVec (vPutCodes s c d.toNat vd (rs.map (·.code))) c 0 (vFlags rs)
  | .convertMx d =>
    let n := min (vLanes fmt) (vLanes d.toNat)
    let sc := (b.vregs.gets 0 (vb.val * 4096) 4096).toArray
    let rs := ((vVals b fmt n va).zip (List.range n)).map fun p =>
      convert d.toNat 0 0 osat (mxScale (sc.getD (p.2 / 32) 0).toNat p.1)
    countVec (vPutCodes s c d.toNat vd (rs.map (·.code))) c 0 (vFlags rs)
  | .quantSym d =>
    let qs := (pieces (vVals b fmt (min (vLanes fmt) (vLanes d.toNat)) va) 512).map (quantSym d.toNat)
    quant s d.toNat qs (qs.flatMap fun q => toLe 2 q.scale)
  | .quantToken d rows =>
    if !tokenRows s c rows then accessFault s c 0
    else
      let (m, e) := tokenMax s c rows
      let q := quantSymBy d.toNat m e (vVals b fmt (min (vLanes fmt) (vLanes d.toNat)) va)
      quant s d.toNat [q] (toLe 2 q.scale)
  | .quantMx d =>
    let qs := (pieces (vVals b fmt (min (vLanes fmt) (vLanes d.toNat)) va) 32).map (quantMx d.toNat)
    quant s d.toNat qs (qs.flatMap fun q => toLe 1 q.scale)
  | .quantAsym c4 =>
    let w := if c4 then 4 else 8
    let d := if c4 then 0 else 1
    let qs := (pieces (vVals b fmt (min (vLanes fmt) (vLanes d)) va) 512).map (quantAsym w)
    let s := onBank s c fun b => vPutBytes b vc (qs.flatMap fun q => toLe 2 q.scale ++ toLe 2 q.offset)
    countVec (vPutCodes s c d vd (qs.flatMap (·.codes))) c ((qs.filter (·.zero)).length)
      { sat := sumNat (qs.map (·.sat)), invalid := sumNat (qs.map (·.invalid)) }
  | _ =>
    let n := vLanes fmt
    let xs := (vCodes b fmt n va).zip ((vCodes b fmt n vb).zip (vCodes b fmt n vc))
    let rs := xs.map fun p => elemCode op fmt osat p.1 p.2.1 p.2.2
    countVec (vPutCodes s c fmt vd (rs.map (·.code))) c 0 (vFlags rs)

/-- VECTOR_ELEMENTWISE (R81). An illegal operand is an illegal instruction of the program (R109). -/
def execVectorElementwise (c : Fin 8) (v : VElem) (fmt : BitVec 4) (vd va vb vc : Fin 32) (s : State) : Out :=
  .next (vecIssue s c (elemCycles fmt.toNat) fun s =>
    if elemOk v.op fmt.toNat then elemBody c v.op fmt.toNat vd va vb vc v.osat s else accessFault s c 0)

/-! ### Functions -/

/-- A result beyond the largest finite value: with OSAT it saturates, without it is the infinity (R43). -/
def satInf (osat : Bool) (r : Nat) : Rounded :=
  if !osat then ⟨r, false, false⟩
  else if r = 0x7F800000 then ⟨0x7F7FFFFF, true, false⟩
  else if r = 0xFF800000 then ⟨0xFF7FFFFF, true, false⟩
  else ⟨r, false, false⟩

/-- One result of a function; none where the spec states none: a special operand, one outside the function's domain. -/
def fnVal (op : VFn) : Val → Option Nat
  | .fin m e =>
    match op with
    | .exp => some (exp32 m e)
    | .exp2 => some (exp2Of m e)
    | .log2 => if 0 < m then some (log2Of m e) else none
    | .recip => if m = 0 then none else let (n, d) := recipQ m e; some (rne32 n d)
    | .rsqrt => if 0 < m then (let (n, d) := rsqrtQ m e; some (rne32 n d)) else none
    | .sqrt => if 0 ≤ m then (let (n, d) := sqrtDy m e; some (rne32 n d)) else none
  | _ => none

/-- One lane of a function, from its operand's FP32 code. -/
def fnCode (op : VFn) (osat : Bool) (a : Nat) : Rounded :=
  match fnVal op (dec 9 a) with
  | some r => satInf osat r
  | none => ⟨Config.vecFunction op a % 2 ^ 32, false, false⟩

/-- VECTOR_FUNCTION (R81): 1,024 FP32 results, 256 for each canopy cycle. -/
def execVectorFunction (c : Fin 8) (f : VFunc) (vd va : Fin 32) (s : State) : Out :=
  .next (vecIssue s c 4 fun s =>
    let rs := (vCodes (bank s.cores[c]) 9 1024 va).map (fnCode f.fn f.osat)
    countVec (vPutCodes s c 9 vd (rs.map (·.code))) c 0 (vFlags rs))

/-! ### Reductions -/

/-- The largest or smallest of a list of values that holds no NaN. -/
def extreme (lt : Val → Val → Bool) (l : List Val) : Option Val :=
  if l.contains .nan then none
  else match l with
    | [] => none
    | x :: t => some (t.foldl (fun a v => if lt a v then v else a) x)

/-- The format of a reduction's result: FP32, or INT32 of INT32 operands (DESIGN CHOICE, log 24). -/
def redFmt (fmt : Nat) : Nat := if fmt = 10 then 10 else 9

/-- A sum or dot product through a deep accumulator (R31, R33): the ceiling comes from the operands themselves. -/
def reduceRec (fmt : Nat) (xs ys : List Val) : DaRec :=
  dotRec (modeOf fmt fmt false) (eOf fmt xs + eOf fmt ys + 2) xs ys

/-- VECTOR_REDUCTION (R81, R31): the result is element 0 of the destination. It rounds to nearest even: the spec gives the
instruction no mode (DESIGN CHOICE, log 24). -/
def execVectorReduction (c : Fin 8) (op : VRed) (fmt : BitVec 4) (vd va vb : Fin 32) (osat : Bool) (s : State) : Out :=
  .next (vecIssue s c 1 fun s =>
    let f := fmt.toNat
    let b := bank s.cores[c]
    let xs := vVals b f (vLanes f) va
    if !([7, 8, 9, 10].contains f) then accessFault s c 0
    else
      let sums (ys : List Val) : State :=
        let r := reduceRec f xs ys
        let o := roundRec r (redFmt f) 0 0 osat 1 1
        countVec (vPutCodes s c (redFmt f) vd [o.code]) c 0 (roundFlags r o)
      let ext (v : Option Val) : State :=
        match v with
        | some v => vPutCodes s c f vd [(convert f 0 0 osat v).code]
        | none => let (x, s) := fresh s; vPutCodes s c f vd [x % 2 ^ widthOf f]
      match op with
      | .sum => sums (xs.map fun _ => .fin 1 0)
      | .dot => sums (vVals b f (vLanes f) vb)
      | .max => ext (extreme ltVal xs)
      | .min => ext (extreme (fun x y => ltVal y x) xs))

/-! ### The store -/

/-- The record of a tile after a vector store of 4 KiB at an address (R46, R221): whole rows set their maxima, and the unit
forms the record over all rows under the store's format; a record of that format that is stale stays so. Anything else
leaves it stale. -/
def storeRec (s : State) (a fmt : Nat) (old : MaxAbs) : MaxAbs :=
  let row := elemBytes fmt 512
  let whole := decide (a % tileBytes % row = 0) && decide (4096 % row = 0)
  if whole then { scanTile s (tileNo a) fmt with stale := old.stale && decide (old.fmt.toNat = fmt) }
  else { old with fmt := BitVec.ofNat 4 fmt, stale := true }

/-- VECTOR_STORE: 4 KiB as 128 whole words under the core's tag (R214); an address the tile may not write abandons it
(R87, R109). -/
def execVectorStore (c : Fin 8) (vs : Fin 32) (addr : Nat) (fmt : BitVec 4) (s : State) : Out :=
  .next (vecIssue s c 1 fun s =>
    match physOf c addr with
    | none => accessFault s c addr
    | some p =>
      if addr % 32 ≠ 0 ∨ 10 < fmt.toNat ∨ !inTiles p ∨ tileNo p ≠ tileNo (p + 4095) ∨ !storeOk s c (tileNo p)
          ∨ forbids s (some c) true p 4096 then accessFault s c addr
      else
        let d := (bank s.cores[c]).vregs.gets 0 (vs.val * 4096) 4096
        let s := (writeMem s p d (tagOn s c)).1
        let old := match s.cores[c].tile.bind fun w => w.recs.get? (tileNo p) with
          | some r => r
          | none => recOf s (tileNo p)
        storedTile s c (tileNo p) (some (storeRec s p fmt.toNat old)))

/-! ### Draws (R195 to R201) -/

/-- VECTOR_STOCHASTIC_CONVERT: FP32 lanes rounded with one draw each, keyed by the lane's logical element and CG_DRAW at
issue (R42, R195, R200). -/
def execVectorStochasticConvert (c : Fin 8) (dst : BitVec 4) (vd va : Fin 32) (stream : W32) (base : W64) (osat : Bool)
    (s : State) : Out :=
  .next (vecIssue s c 4 fun s =>
    if 10 < dst.toNat then accessFault s c 0
    else
      let b := bank s.cores[c]
      let seed := seedOn s c
      let vs := vVals b 9 (min 1024 (vLanes dst.toNat)) va
      let rs := (List.range vs.length).map fun i =>
        let el := (base + BitVec.ofNat 64 i).toNat
        convert dst.toNat 2 (Rand.val16 (Rand.block seed stream el b.cgDraw) 0) osat (vs.getD i .nan)
      countVec (vPutCodes s c dst.toNat vd (rs.map (·.code))) c 0 (vFlags rs))

/-- VECTOR_BERNOULLI_MASK: one bit for each element, element 0 at bit 0 of byte 0 (R201). A k above 65,536 is an illegal
operand. -/
def execVectorBernoulliMask (c : Fin 8) (vd : Fin 32) (stream : W32) (base : W64) (draw : W32) (k : Nat) (s : State) : Out :=
  .next (vecIssue s c 16 fun s =>
    if 65536 < k then accessFault s c 0
    else
      let seed := seedOn s c
      let byte (i : Nat) : Byte :=
        BitVec.ofNat 8 (sumNat ((List.range 8).map fun j =>
          bitIf (Rand.maskBit seed stream (base + BitVec.ofNat 64 (8 * i + j)).toNat draw k) j))
      onBank s c fun b => vPutBytes b vd ((List.range 4096).map byte))

/-- VECTOR_RAW_DRAW: the block of each of 256 elements, 16 bytes each (R195, R202). -/
def execVectorRawDraw (c : Fin 8) (vd : Fin 32) (stream : W32) (base : W64) (draw : W32) (s : State) : Out :=
  .next (vecIssue s c 1 fun s =>
    let seed := seedOn s c
    onBank s c fun b => vPutBytes b vd ((List.range 256).flatMap fun i =>
      (Rand.block seed stream (base + BitVec.ofNat 64 i).toNat draw).flatMap (toLe 4)))

end Sys2Proof.Machine
end

