-- ==== Sys2Proof/Machine/Waori.lean ====
section
/-! DEFINITION. Meanings of the Waori requests, the frames and events of the 10BASE-T1S port, and NVMe-MI in-band (16). -/

namespace Sys2Proof.Machine

/-- WAORI_READ (R399). -/
def execWaoriRead (src : WSrc) (pdu : Bytes) (s : State) : Out := .next (waori s src pdu)

/-- WAORI_WRITE (R390). -/
def execWaoriWrite (src : WSrc) (pdu : Bytes) (s : State) : Out := .next (waori s src pdu)

/-- WAORI_DESCRIBE (R399). -/
def execWaoriDescribe (src : WSrc) (pdu : Bytes) (s : State) : Out := .next (waori s src pdu)

/-- WAORI_LIST (R399). -/
def execWaoriList (src : WSrc) (pdu : Bytes) (s : State) : Out := .next (waori s src pdu)

/-- COMMIT (R394). -/
def execCommit (src : WSrc) (expected : W64) (s : State) : Out :=
  .next (waoriWrite s src 0xA00001 (toLe 8 expected.toNat))

/-- DISCARD_STAGED_SET (R393). -/
def execDiscardStagedSet (src : WSrc) (value : Byte) (s : State) : Out := .next (waoriWrite s src 0xA00003 [value])

/-- FACTORY_RESTORE (R392). -/
def execFactoryRestore (src : WSrc) (value : W32) (s : State) : Out :=
  .next (waoriWrite s src 0xA00006 (toLe 4 value.toNat))

/-- STAGED_SET_TIMEOUT (R393). -/
def execStagedSetTimeout (source : Nat) (s : State) : Out := .next (setStaged s source [])

/-- OWNER_REQUEST (R369). -/
def execOwnerRequest (src : WSrc) (req : Bytes) (s : State) : Out := .next (waoriWrite s src 0x501005 req)

/-- DL_DATA (R412). -/
def execDlData (src : WSrc) (bytes : Bytes) (s : State) : Out := .next (waoriWrite s src 0x107004 bytes)

/-- DL_ACTION_STAGE (R412). -/
def execDlActionStage (src : WSrc) (s : State) : Out := .next (waoriWrite s src 0x107005 [1])

/-- DL_ACTION_STAGE_ACTIVATE (R412). -/
def execDlActionStageActivate (src : WSrc) (s : State) : Out := .next (waoriWrite s src 0x107005 [2])

/-- DL_ACTION_DISCARD (R412). -/
def execDlActionDiscard (src : WSrc) (s : State) : Out := .next (waoriWrite s src 0x107005 [3])

/-- PORT_KEY_WRITE (R415). -/
def execPortKeyWrite (src : WSrc) (key : Bytes) (s : State) : Out := .next (waoriWrite s src 0x505001 key)

/-! ### The port -/

/-- WAORI_FRAME (R406). -/
def execWaoriFrame (f : Frame) (s : State) : Out := .next (portFrame s f)

/-- DISCOVER_FRAME (R408). -/
def execDiscoverFrame (f : Frame) (s : State) : Out :=
  .next (if frameTaken s f && !frameBad f && frKind f == 3 then discoverFrame s f else s)

/-- ANNOUNCE (R408): one that is due, or a periodic one. -/
def execAnnounce (s : State) : Out :=
  .next (
    if !portUp s || !(s.fw.pilotUp || s.fw.recovery) then s
    else if s.dict.announceDue = 0 ∧ dv s 0x105008 = 0 then s
    else onDict (sendFrame s (announceFrame s)) fun d => { d with announceDue := d.announceDue - 1 })

/-- Is the module a PLCA follower? -/
def plcaFollower (s : State) : Bool := portUp s && (s.dict.plca == 2 || s.dict.plca == 3) && dv s 0x105001 != 0

/-- PLCA_BEACON_TIMEOUT (R410). -/
def execPlcaBeaconTimeout (s : State) : Out :=
  .next (if plcaFollower s then onDict s fun d => { d with plca := 3 } else s)

/-- PLCA_BEACON_RECEIVED (R410). -/
def execPlcaBeaconReceived (s : State) : Out :=
  .next (if plcaFollower s then onDict s fun d => { d with plca := 2 } else s)

/-- PLCA_OPPORTUNITY_COLLISION (R409). -/
def execPlcaOpportunityCollision (s : State) : Out :=
  .next (if portUp s && s.dict.plca != 0 then onDict s fun d => { d with plca := 3 } else s)

/-- ICMPV6_REQUEST (R404): the answer is recorded as its ICMPv6 type, its destination and what was asked. -/
def execIcmpv6Request (echo : Bool) (src : BitVec 128) (payload : Bytes) (s : State) : Out :=
  .next (
    if !portUp s then s
    else sendFrame s ([if echo then 129 else 136] ++ Crypto.toBe 16 src.toNat ++ payload))

/-- I3C_ENTDAA (R403). -/
def execI3cEntdaa (s : State) : Out :=
  .next (if s.power.vaux then onDict s fun d => { d with i3c := true } else s)

/-! ### NVMe-MI in-band (R402) -/

/-- The source of an in-band request: the PF controller. -/
def inBand : WSrc := { via := .inband, id := 0, session := none, auth := false }

/-- The NVMe-MI opcode of a command. -/
def miOpcode (e : Sqe) : Nat := fieldOf e.cdw11.toNat 7 0

/-- NVMe-MI Send on the PF controller: a second one before the Receive fails. -/
def miSendBody (e : Sqe) (s : State) : State :=
  if e.fn.val ≠ 0 then fail s e.key Code.invalidOpcode
  else if miOpcode e ≠ 0xC0 then fail s e.key Code.invalidField
  else if s.ctrls[e.fn].miResponse.isSome then fail s e.key Code.sequenceError
  else match handlePdu s inBand e.inp with
    | (s, r) => complete (onCtrl s e.fn fun c => { c with miResponse := some r }) e.key Code.ok 0 0

/-- NVMe-MI Receive on the PF controller. -/
def miReceiveBody (e : Sqe) (s : State) : State :=
  if e.fn.val ≠ 0 then fail s e.key Code.invalidOpcode
  else if miOpcode e ≠ 0xC0 then fail s e.key Code.invalidField
  else match s.ctrls[e.fn].miResponse with
    | none => fail s e.key Code.sequenceError
    | some r =>
      let s := onCtrl s e.fn fun c => { c with miResponse := none }
      complete (hostWrite s e.key 0 (r.take e.dptr)) e.key Code.ok 0 0

/-- NVME_MI_SEND (R402). -/
def execNvmeMiSend (e : Sqe) (s : State) : Out := .next (nvme s e 0x1D true (miSendBody e))

/-- NVME_MI_RECEIVE (R402). -/
def execNvmeMiReceive (e : Sqe) (s : State) : Out := .next (nvme s e 0x1E true (miReceiveBody e))

end Sys2Proof.Machine
end

