-- ==== Sys2Proof/Machine/Dispatch.lean ====
section
/-! DEFINITION. The dispatch: one arm for each command, one direct call of its meaning. -/

namespace Sys2Proof.Machine

/-- The effect of a command on everything but the queue. -/
def exec (i : Instr) (s : State) : Host.Outcome State Fault Refusal :=
  match i with
  | .meDescArm core slot dw0 fw => Sys2Proof.Machine.execMeDescArm core slot dw0 fw s
  | .passIssue core => Sys2Proof.Machine.execPassIssue core s
  | .chainDrainComplete core slot => Sys2Proof.Machine.execChainDrainComplete core slot s
  | .keepLitRampDown core => Sys2Proof.Machine.execKeepLitRampDown core s
  | .arrayClockGate core => Sys2Proof.Machine.execArrayClockGate core s
  | .residueFault core eng test => Sys2Proof.Machine.execResidueFault core eng test s
  | .clockStepChange core => Sys2Proof.Machine.execClockStepChange core s
  | .tileDescArm core slot dw0 => Sys2Proof.Machine.execTileDescArm core slot dw0 s
  | .tileOpen core => Sys2Proof.Machine.execTileOpen core s
  | .tileClose core slot => Sys2Proof.Machine.execTileClose core slot s
  | .tileComplete core => Sys2Proof.Machine.execTileComplete core s
  | .tileBudgetExceeded core => Sys2Proof.Machine.execTileBudgetExceeded core s
  | .tmDescArm core slot dw0 => Sys2Proof.Machine.execTmDescArm core slot dw0 s
  | .tmCopyComplete core => Sys2Proof.Machine.execTmCopyComplete core s
  | .mboxInPop core => Sys2Proof.Machine.execMboxInPop core s
  | .mboxOutPush core => Sys2Proof.Machine.execMboxOutPush core s
  | .coreDbOut core => Sys2Proof.Machine.execCoreDbOut core s
  | .firmwareMboxPost core entry => Sys2Proof.Machine.execFirmwareMboxPost core entry s
  | .cpAccessFault core load => Sys2Proof.Machine.execCpAccessFault core load s
  | .vectorElementwise core op fmt vd va vb vc => Sys2Proof.Machine.execVectorElementwise core op fmt vd va vb vc s
  | .vectorFunction core op vd va => Sys2Proof.Machine.execVectorFunction core op vd va s
  | .vectorReduction core op fmt vd va vb osat => Sys2Proof.Machine.execVectorReduction core op fmt vd va vb osat s
  | .vectorStore core vs addr fmt => Sys2Proof.Machine.execVectorStore core vs addr fmt s
  | .vectorStochasticConvert core dst vd va stream base osat => Sys2Proof.Machine.execVectorStochasticConvert core dst vd va stream base osat s
  | .vectorBernoulliMask core vd stream base draw k => Sys2Proof.Machine.execVectorBernoulliMask core vd stream base draw k s
  | .vectorRawDraw core vd stream base draw => Sys2Proof.Machine.execVectorRawDraw core vd stream base draw s
  | .lampDispatch ch d => Sys2Proof.Machine.execLampDispatch ch d s
  | .lampContextStart ch => Sys2Proof.Machine.execLampContextStart ch s
  | .lampInstructionIssue ch insn => Sys2Proof.Machine.execLampInstructionIssue ch insn s
  | .lampDataArrive ch slot r => Sys2Proof.Machine.execLampDataArrive ch slot r s
  | .lampContextEnd ch slot => Sys2Proof.Machine.execLampContextEnd ch slot s
  | .partialMerge key unit core rec => Sys2Proof.Machine.execPartialMerge key unit core rec s
  | .attend e => Sys2Proof.Machine.execAttend e s
  | .attendMergeComplete key => Sys2Proof.Machine.execAttendMergeComplete key s
  | .searchQuery e => Sys2Proof.Machine.execSearchQuery e s
  | .searchRoundMerged key => Sys2Proof.Machine.execSearchRoundMerged key s
  | .searchReplyMerge key node => Sys2Proof.Machine.execSearchReplyMerge key node s
  | .searchTimeBudgetExpiry key => Sys2Proof.Machine.execSearchTimeBudgetExpiry key s
  | .searchScan e => Sys2Proof.Machine.execSearchScan e s
  | .indexCreate e => Sys2Proof.Machine.execIndexCreate e s
  | .indexInsert e => Sys2Proof.Machine.execIndexInsert e s
  | .indexDelete e => Sys2Proof.Machine.execIndexDelete e s
  | .indexCommit e => Sys2Proof.Machine.execIndexCommit e s
  | .indexDestroy e => Sys2Proof.Machine.execIndexDestroy e s
  | .ingestBind e => Sys2Proof.Machine.execIngestBind e s
  | .ingestUnbind e => Sys2Proof.Machine.execIngestUnbind e s
  | .recallProbe e => Sys2Proof.Machine.execRecallProbe e s
  | .compactionChunk index => Sys2Proof.Machine.execCompactionChunk index s
  | .generationFree => Sys2Proof.Machine.execGenerationFree s
  | .ingestSegment index core => Sys2Proof.Machine.execIngestSegment index core s
  | .ingestChunkList index ok chunks => Sys2Proof.Machine.execIngestChunkList index ok chunks s
  | .ingestCommit index => Sys2Proof.Machine.execIngestCommit index s
  | .tableCreate e => Sys2Proof.Machine.execTableCreate e s
  | .writeRows e => Sys2Proof.Machine.execWriteRows e s
  | .publish e => Sys2Proof.Machine.execPublish e s
  | .abortStep e => Sys2Proof.Machine.execAbortStep e s
  | .tableDestroy e => Sys2Proof.Machine.execTableDestroy e s
  | .gather e => Sys2Proof.Machine.execGather e s
  | .hotRowWindowEnd table => Sys2Proof.Machine.execHotRowWindowEnd table s
  | .scatterUpdate e => Sys2Proof.Machine.execScatterUpdate e s
  | .sessionOpen e => Sys2Proof.Machine.execSessionOpen e s
  | .sessionClose e => Sys2Proof.Machine.execSessionClose e s
  | .sessionMoveResidency e => Sys2Proof.Machine.execSessionMoveResidency e s
  | .sessionExport e => Sys2Proof.Machine.execSessionExport e s
  | .replay e => Sys2Proof.Machine.execReplay e s
  | .flightLogGetSessionLog e => Sys2Proof.Machine.execFlightLogGetSessionLog e s
  | .flightLogGetClosedRecords e => Sys2Proof.Machine.execFlightLogGetClosedRecords e s
  | .flightLogGetStepReports e => Sys2Proof.Machine.execFlightLogGetStepReports e s
  | .flightLogGetProbeReport e => Sys2Proof.Machine.execFlightLogGetProbeReport e s
  | .hotIdleDemote session => Sys2Proof.Machine.execHotIdleDemote session s
  | .class0Preempt core session => Sys2Proof.Machine.execClass0Preempt core session s
  | .coreSwitchComplete core => Sys2Proof.Machine.execCoreSwitchComplete core s
  | .sliceEnd core overrun => Sys2Proof.Machine.execSliceEnd core overrun s
  | .energyMeterSample readings => Sys2Proof.Machine.execEnergyMeterSample readings s
  | .accountBind account => Sys2Proof.Machine.execAccountBind account s
  | .scrubPassEnd array => Sys2Proof.Machine.execScrubPassEnd array s
  | .tagQuarantineRelease => Sys2Proof.Machine.execTagQuarantineRelease s
  | .chkTestWrite canopy unit value => Sys2Proof.Machine.execChkTestWrite canopy unit value s
  | .registerWrite r value => Sys2Proof.Machine.execRegisterWrite r value s
  | .configRequest fn off => Sys2Proof.Machine.execConfigRequest fn off s
  | .sqTailDoorbell fn sqid tail => Sys2Proof.Machine.execSqTailDoorbell fn sqid tail s
  | .cqHeadDoorbell fn cqid head => Sys2Proof.Machine.execCqHeadDoorbell fn cqid head s
  | .commandFetch opc cid nsid session => Sys2Proof.Machine.execCommandFetch opc cid nsid session s
  | .identify e => Sys2Proof.Machine.execIdentify e s
  | .getLogPage e => Sys2Proof.Machine.execGetLogPage e s
  | .getFeatures e => Sys2Proof.Machine.execGetFeatures e s
  | .setFeatures e => Sys2Proof.Machine.execSetFeatures e s
  | .abort e => Sys2Proof.Machine.execAbort e s
  | .asynchronousEventRequest e => Sys2Proof.Machine.execAsynchronousEventRequest e s
  | .createIoSubmissionQueue e => Sys2Proof.Machine.execCreateIoSubmissionQueue e s
  | .createIoCompletionQueue e => Sys2Proof.Machine.execCreateIoCompletionQueue e s
  | .deleteIoSubmissionQueue e => Sys2Proof.Machine.execDeleteIoSubmissionQueue e s
  | .deleteIoCompletionQueue e => Sys2Proof.Machine.execDeleteIoCompletionQueue e s
  | .namespaceCreate e => Sys2Proof.Machine.execNamespaceCreate e s
  | .namespaceDelete e => Sys2Proof.Machine.execNamespaceDelete e s
  | .namespaceAttachment e => Sys2Proof.Machine.execNamespaceAttachment e s
  | .formatNvm e => Sys2Proof.Machine.execFormatNvm e s
  | .securitySend e req => Sys2Proof.Machine.execSecuritySend e req s
  | .securityReceive e => Sys2Proof.Machine.execSecurityReceive e s
  | .nvmeMiSend e => Sys2Proof.Machine.execNvmeMiSend e s
  | .nvmeMiReceive e => Sys2Proof.Machine.execNvmeMiReceive e s
  | .sanitize e => Sys2Proof.Machine.execSanitize e s
  | .firmwareImageDownload e => Sys2Proof.Machine.execFirmwareImageDownload e s
  | .firmwareCommit e => Sys2Proof.Machine.execFirmwareCommit e s
  | .deviceSelfTest e => Sys2Proof.Machine.execDeviceSelfTest e s
  | .read e => Sys2Proof.Machine.execRead e s
  | .write e => Sys2Proof.Machine.execWrite e s
  | .flush e => Sys2Proof.Machine.execFlush e s
  | .compare e => Sys2Proof.Machine.execCompare e s
  | .verify e => Sys2Proof.Machine.execVerify e s
  | .writeZeroes e => Sys2Proof.Machine.execWriteZeroes e s
  | .datasetManagement e => Sys2Proof.Machine.execDatasetManagement e s
  | .loadProgram e => Sys2Proof.Machine.execLoadProgram e s
  | .programActivationManagement e => Sys2Proof.Machine.execProgramActivationManagement e s
  | .executeProgram e core => Sys2Proof.Machine.execExecuteProgram e core s
  | .memoryRangeSetManagement e => Sys2Proof.Machine.execMemoryRangeSetManagement e s
  | .memoryRead e => Sys2Proof.Machine.execMemoryRead e s
  | .memoryWrite e => Sys2Proof.Machine.execMemoryWrite e s
  | .memoryCopy e => Sys2Proof.Machine.execMemoryCopy e s
  | .ioWatchdogExpiry key => Sys2Proof.Machine.execIoWatchdogExpiry key s
  | .controllerReset fn => Sys2Proof.Machine.execControllerReset fn s
  | .functionLevelReset fn => Sys2Proof.Machine.execFunctionLevelReset fn s
  | .conventionalReset => Sys2Proof.Machine.execConventionalReset s
  | .functionD3hot fn => Sys2Proof.Machine.execFunctionD3hot fn s
  | .nandReadComplete ch die r => Sys2Proof.Machine.execNandReadComplete ch die r s
  | .nandProgramComplete ch die pass => Sys2Proof.Machine.execNandProgramComplete ch die pass s
  | .nandEraseComplete ch die pass => Sys2Proof.Machine.execNandEraseComplete ch die pass s
  | .class0FlashPreempt ch die op => Sys2Proof.Machine.execClass0FlashPreempt ch die op s
  | .ladderBudgetExpiry ch addr => Sys2Proof.Machine.execLadderBudgetExpiry ch addr s
  | .destageTimeout ch => Sys2Proof.Machine.execDestageTimeout ch s
  | .blockVerify ch block pages => Sys2Proof.Machine.execBlockVerify ch block pages s
  | .moveCommit ch block => Sys2Proof.Machine.execMoveCommit ch block s
  | .garbageCollection ch => Sys2Proof.Machine.execGarbageCollection ch s
  | .patrolRead ch block pages => Sys2Proof.Machine.execPatrolRead ch block pages s
  | .refreshMove ch => Sys2Proof.Machine.execRefreshMove ch s
  | .wearLevelMove ch => Sys2Proof.Machine.execWearLevelMove ch s
  | .mapCheckpoint ch => Sys2Proof.Machine.execMapCheckpoint ch s
  | .nandDieFailure ch die => Sys2Proof.Machine.execNandDieFailure ch die s
  | .wordProgram addr data ctx => Sys2Proof.Machine.execWordProgram addr data ctx s
  | .sectorErase addr ctx => Sys2Proof.Machine.execSectorErase addr ctx s
  | .blockErase addr ctx => Sys2Proof.Machine.execBlockErase addr ctx s
  | .suspend addr ctx => Sys2Proof.Machine.execSuspend addr ctx s
  | .resume addr ctx => Sys2Proof.Machine.execResume addr ctx s
  | .sequenceReset addr ctx => Sys2Proof.Machine.execSequenceReset addr ctx s
  | .cfOperationDone ok => Sys2Proof.Machine.execCfOperationDone ok s
  | .cfArrayRead addr fetch => Sys2Proof.Machine.execCfArrayRead addr fetch s
  | .cfRegionWrite rgn value => Sys2Proof.Machine.execCfRegionWrite rgn value s
  | .fwActivation replicaOk => Sys2Proof.Machine.execFwActivation replicaOk s
  | .tkStatus fn session => Sys2Proof.Machine.execTkStatus fn session s
  | .tkClaim fn session mode secret => Sys2Proof.Machine.execTkClaim fn session mode secret s
  | .tkUnlock fn session secret => Sys2Proof.Machine.execTkUnlock fn session secret s
  | .tkLock fn session => Sys2Proof.Machine.execTkLock fn session s
  | .ownerRequest src req => Sys2Proof.Machine.execOwnerRequest src req s
  | .spdmRequest ep req => Sys2Proof.Machine.execSpdmRequest ep req s
  | .ideKmKeyProgram stream session vfs => Sys2Proof.Machine.execIdeKmKeyProgram stream session vfs s
  | .ideIntegrityFailure stream => Sys2Proof.Machine.execIdeIntegrityFailure stream s
  | .lockInterface fn => Sys2Proof.Machine.execLockInterface fn s
  | .startInterface fn => Sys2Proof.Machine.execStartInterface fn s
  | .stopInterface fn => Sys2Proof.Machine.execStopInterface fn s
  | .waoriRead src pdu => Sys2Proof.Machine.execWaoriRead src pdu s
  | .waoriWrite src pdu => Sys2Proof.Machine.execWaoriWrite src pdu s
  | .waoriDescribe src pdu => Sys2Proof.Machine.execWaoriDescribe src pdu s
  | .waoriList src pdu => Sys2Proof.Machine.execWaoriList src pdu s
  | .commit src expected => Sys2Proof.Machine.execCommit src expected s
  | .discardStagedSet src value => Sys2Proof.Machine.execDiscardStagedSet src value s
  | .factoryRestore src value => Sys2Proof.Machine.execFactoryRestore src value s
  | .stagedSetTimeout source => Sys2Proof.Machine.execStagedSetTimeout source s
  | .waoriFrame f => Sys2Proof.Machine.execWaoriFrame f s
  | .discoverFrame f => Sys2Proof.Machine.execDiscoverFrame f s
  | .announce => Sys2Proof.Machine.execAnnounce s
  | .dlData src bytes => Sys2Proof.Machine.execDlData src bytes s
  | .dlActionStage src => Sys2Proof.Machine.execDlActionStage src s
  | .dlActionStageActivate src => Sys2Proof.Machine.execDlActionStageActivate src s
  | .dlActionDiscard src => Sys2Proof.Machine.execDlActionDiscard src s
  | .portKeyWrite src key => Sys2Proof.Machine.execPortKeyWrite src key s
  | .i3cEntdaa => Sys2Proof.Machine.execI3cEntdaa s
  | .pilotClockStart => Sys2Proof.Machine.execPilotClockStart s
  | .pilotClockStop => Sys2Proof.Machine.execPilotClockStop s
  | .coreDim core => Sys2Proof.Machine.execCoreDim core s
  | .coreDark core => Sys2Proof.Machine.execCoreDark core s
  | .coreWake core => Sys2Proof.Machine.execCoreWake core s
  | .canopyDieDark die => Sys2Proof.Machine.execCanopyDieDark die s
  | .bankedEntry => Sys2Proof.Machine.execBankedEntry s
  | .parkedEntry => Sys2Proof.Machine.execParkedEntry s
  | .parkedDueWork => Sys2Proof.Machine.execParkedDueWork s
  | .wakeToRunning => Sys2Proof.Machine.execWakeToRunning s
  | .powerSample avg slotW cableW predicted => Sys2Proof.Machine.execPowerSample avg slotW cableW predicted s
  | .thermalStep die temp => Sys2Proof.Machine.execThermalStep die temp s
  | .emergencyTrip cause die => Sys2Proof.Machine.execEmergencyTrip cause die s
  | .emergencyThrottleEnd => Sys2Proof.Machine.execEmergencyThrottleEnd s
  | .thermalShutdown die temp => Sys2Proof.Machine.execThermalShutdown die temp s
  | .nandCaseTempLimit ch temp => Sys2Proof.Machine.execNandCaseTempLimit ch temp s
  | .powerLossDetect => Sys2Proof.Machine.execPowerLossDetect s
  | .bankTest usable => Sys2Proof.Machine.execBankTest usable s
  | .powerOnStartup sense cfImageOk replicaOk defects nonce => Sys2Proof.Machine.execPowerOnStartup sense cfImageOk replicaOk defects nonce s
  | .vauxPowerOn cfImageOk nonce => Sys2Proof.Machine.execVauxPowerOn cfImageOk nonce s
  | .singleInput12v slotPresent cfImageOk nonce => Sys2Proof.Machine.execSingleInput12v slotPresent cfImageOk nonce s
  | .pwrbrkAssert => Sys2Proof.Machine.execPwrbrkAssert s
  | .railOutOfRegulation pilot pool timeMs => Sys2Proof.Machine.execRailOutOfRegulation pilot pool timeMs s
  | .fieldSelfTest result => Sys2Proof.Machine.execFieldSelfTest result s
  | .moduleFault cause timeMs => Sys2Proof.Machine.execModuleFault cause timeMs s
  | .pilotWatchdogReset nonce => Sys2Proof.Machine.execPilotWatchdogReset nonce s
  | .controlProcessorStore core addr bytes => Sys2Proof.Machine.execControlProcessorStore core addr bytes s
  | .holdupSequenceEnd completed powerPresent => Sys2Proof.Machine.execHoldupSequenceEnd completed powerPresent s
  | .vauxRemoval => Sys2Proof.Machine.execVauxRemoval s
  | .pwrbrkRelease => Sys2Proof.Machine.execPwrbrkRelease s
  | .lpddr5xTempLimit pkg temp => Sys2Proof.Machine.execLpddr5xTempLimit pkg temp s
  | .plcaBeaconTimeout => Sys2Proof.Machine.execPlcaBeaconTimeout s
  | .plcaBeaconReceived => Sys2Proof.Machine.execPlcaBeaconReceived s
  | .plcaOpportunityCollision => Sys2Proof.Machine.execPlcaOpportunityCollision s
  | .icmpv6Request echo src payload => Sys2Proof.Machine.execIcmpv6Request echo src payload s
  | .spdmHeartbeatTimeout ep session => Sys2Proof.Machine.execSpdmHeartbeatTimeout ep session s
  | .linkTrainingComplete => Sys2Proof.Machine.execLinkTrainingComplete s
  | .activationCommandTimeout => Sys2Proof.Machine.execActivationCommandTimeout s

end Sys2Proof.Machine
end

