-- ==== Sys2Proof/Safety.lean ====
section
/-! DEFINITION. What counts as a safe run, one that neither faults nor is refused, and the words that statements share:
the form of the memories and counters, and what a command may change. -/

namespace Sys2Proof.Machine

/-- The step from a state ends in a next state. -/
def Goes (s : State) : Prop := ∃ t, step s = .next t

/-- `k` steps from a state end in a next state. -/
def Safe (k : Nat) (s : State) : Prop := ∃ t, Host.Core.run Sys2Proof.core k s = .next t

/-- The three memories of the module are in canonical form. -/
def MemOk (s : State) : Prop := Mem.wf 0 s.mem = true ∧ Mem.wf 0 s.chk = true ∧ Mem.wf 0 s.media = true

/-- Every dictionary counter is a 64-bit value. -/
def CountOk (s : State) : Prop := ∀ id, counter s id < 2 ^ 64

/-- The form that every step keeps. -/
def Form (s : State) : Prop := MemOk s ∧ CountOk s

/-- From `s` to `t` nothing changes but core `c`. -/
def CoreOnly (s t : State) (c : Fin 8) : Prop := t = { s with cores := t.cores } ∧ ∀ d, d ≠ c → t.cores[d] = s.cores[d]

/-- From `s` to `t` nothing changes but core `c`, the accounting records and counters, and the counter of free values. -/
def VecOnly (s t : State) (c : Fin 8) : Prop :=
  t = { s with cores := t.cores, accounts := t.accounts, sess := t.sess, dict := t.dict, free := t.free } ∧
    ∀ d, d ≠ c → t.cores[d] = s.cores[d]

/-- A vector instruction of `n` cycles that its core issues and the open tile's budget has room for. -/
def VecGoes (s : State) (c : Fin 8) (n : Nat) : Prop := cpRuns s c = true ∧ vecRoom s c n = true

/-- An entry that its row serves: its controller and its queue are there and serve (R257, R264), it holds a command slot
or finds one, no abort is recorded for it (R281), it stands on a queue of its row's kind (R259), its PSDT is not the reserved
code (R286), and no sanitize in progress bars it (R385). -/
def Served (s : State) (e : Sqe) (kind : Nat) (admin : Bool) : Prop :=
  serving s e.fn = true ∧ queueThere s e.key = true ∧
  ((flightOf s e.key).isSome = true ∨ slotFree s e.fn (queueClass s e.key) = true) ∧
  s.ctrls[e.fn].abortRecs.contains (e.sqid, e.cid) = false ∧ (e.sqid == 0) = admin ∧ e.psdt ≠ 3 ∧
  (s.sanitizing = true → admin = true ∧ sanitizeAllows.contains kind = true)

/-- The state in which a WRITE of one object ended with `r`: the state after the item, its status and its value; the
response is recorded (R390, R396). -/
def Answered (src : WSrc) (id : Nat) (r : State × Nat × Bytes) : State :=
  let b := responsePdu r.1 2 1 0 (if r.1.fw.recovery then 3 else 0) 0 (responseItem id r.2.1 r.2.2)
  { r.1 with dict := { r.1.dict with responses := (srcKey src, b) :: r.1.dict.responses } }

end Sys2Proof.Machine
end

