-- ==== Sys2Proof/Certificates/Slice0/Obligations.lean ====
section
/-! DEFINITION. The statements for the provers, chapter by chapter. Each docstring names the rules of spec/ that the
statement is about; a statement covers every operand form of the rows it names. -/

section

open Sys2Proof Sys2Proof.Machine

/-- A step takes the command at the front of the queue and runs it on the state with the queue's rest. -/
def Obligations.StepRunsTheFrontCommand : Prop :=
  ∀ (c : Instr) (rest : List Instr) (s : State), step { s with pending := c :: rest } = exec c { s with pending := rest }

/-- A well-formed command has its effect; one whose operands have not its row's shape faults. -/
def Obligations.CommandsGoWhereWellFormed : Prop :=
  ∀ (c : Instr) (s : State), (c.wf = true → ∃ t, exec c s = .next t) ∧ (c.wf = false → exec c s = .fault .illFormed)

/-- The machine right after reset meets the invariant of every step, holds no power, and idles; an empty queue lets what
waits go on and ends a sanitize (the model's choice, log 12). -/
def Obligations.ResetIdles : Prop :=
  Form State.reset ∧ State.reset.pending = [] ∧ State.reset.fw.pilotUp = false ∧ pilotPowered State.reset = false ∧
    step State.reset = .next State.reset ∧ ∀ s : State, s.pending = [] → step s = .next (settle (endSanitize s))

/-- Every step keeps the three memories in canonical form and every counter a 64-bit value, and takes one command. -/
def Obligations.EveryStepKeepsTheForm : Prop :=
  ∀ s t : State, Form s → step s = .next t → Form t ∧ t.pending = s.pending.tail

/-- No step takes back what only grows: the event number, the epoch, and every counter but those a factory restore resets,
which fall only as the epoch advances (R51, R226, R339, R392, R395, R444). -/
def Obligations.CountsOnlyGrow : Prop :=
  ∀ s t : State, Form s → step s = .next t → s.health.nextSeq ≤ t.health.nextSeq ∧ s.dict.epoch ≤ t.dict.epoch ∧
    ∀ id, counter s id ≤ counter t id ∨
      (((Dic.find id).map (·.frest)).getD false = true ∧ s.dict.epoch < t.dict.epoch)

/-- The anti-rollback counters (R367): no step lowers one of them or clears a revoked boot key; an image that first starts,
at step 5 of an activation or at the end of a start-up's write-in, raises the floor to its SVN and revokes the keys below
its own where it says so; an accepted owner request advances the owner sequence by one; a factory restore, a sanitize,
TK_CLAIM and the resets leave all three; an image of equal SVN is not refused for it. -/
def Obligations.AntiRollbackNeverFalls : Prop :=
  (∀ s t : State, step s = .next t → s.store.fwFloor ≤ t.store.fwFloor ∧ s.store.ownerSeq ≤ t.store.ownerSeq ∧
    ∀ i, s.store.revoked.getLsbD i = true → t.store.revoked.getLsbD i = true) ∧
  (∀ (s : State) (img : Bytes), (adoptImage s img).store.fwFloor = max s.store.fwFloor (imgSvn img) ∧
    (adoptImage s img).store.ownerSeq = s.store.ownerSeq ∧
    ∀ i, i < 8 → (adoptImage s img).store.revoked.getLsbD i =
      (s.store.revoked.getLsbD i || (bitOf (Bytes.le img 6 2) 0 && decide (i < sigIndex img 0)))) ∧
  (∀ (l : List Bool) (s v : State) (img : Bytes), s.fw.activating = 3 → writeIn s l = some (v, img) → ∃ t, exec (.fwActivation l) s = .next t ∧ t.store.fwFloor = (adoptImage s img).store.fwFloor ∧
      t.store.ownerSeq = s.store.ownerSeq ∧ t.store.revoked = (adoptImage s img).store.revoked) ∧
  (∀ (s : State) (ok : Bool) (l : List Bool) (n : W64) (img : Bytes) (rest : List (Bytes × Bool)), s.fw.stage.state = 3 →
    (s.fw.stage.replicas.zip l).filter (·.2) = (img, true) :: rest → let t := pilotBoot s ok true l n
    t.store.fwFloor = (adoptImage s img).store.fwFloor ∧ t.store.ownerSeq = s.store.ownerSeq ∧
      t.store.revoked = (adoptImage s img).store.revoked) ∧
  (∀ (s : State) (r : Bytes) (st : SecStore), ownerResult s r = some st →
    st.ownerSeq = s.store.ownerSeq + 1 ∧ st.fwFloor = s.store.fwFloor ∧ st.revoked = s.store.revoked) ∧
  (∀ (src : WSrc) (x : W32) (e : Sqe) (f : Fin 128) (i : Option Nat) (m : Byte) (k : Bytes) (n : W64) (s t : State),
    ∀ c ∈ [Instr.factoryRestore src x, .sanitize e, .tkClaim f i m k, .controllerReset f, .functionLevelReset f,
      .conventionalReset, .pilotWatchdogReset n], exec c s = .next t → t.store.fwFloor = s.store.fwFloor ∧
      t.store.ownerSeq = s.store.ownerSeq ∧ t.store.revoked = s.store.revoked) ∧
  (∀ (s : State) (b : Bytes), imgSvn b = s.store.fwFloor → fwReason s b ≠ some 6)

/-- Draw numbers (R198): a descriptor latches CG_DRAW when it is armed, a later write of CG_DRAW changes no descriptor, and
the record of a tile restores the value it had when the tile opened. -/
def Obligations.DrawsAreLatched : Prop :=
  (∀ (c : Fin 8) (i : Fin 16) (v : W32) (fw : Bool) (s : State), fw = true ∨ cpRuns s c = true →
    let old := s.cores[c].meSlots[i].dw
    let w := armWrite (dwAt old 0) v.toNat meRw (s.cores[c].meQueue.contains i)
    bitOf (dwAt old 0) 0 = false → bitOf w 0 = true → meCheck s c i (meDesc (setDw old 0 w)) fw = 0 →
    ∃ t, exec (.meDescArm c i v fw) s = .next t ∧ t.cores[c].meSlots[i].draw = (bank s.cores[c]).cgDraw) ∧
  (∀ (c : Fin 8) (v : W64) (s : State), cpRuns s c = true →
    ∃ t, exec (.registerWrite (.coreMem c false 0x30001180) v) s = .next t ∧ CoreOnly s t c ∧
      (bank t.cores[c]).cgDraw = v.truncate 32 ∧ t.cores[c].meSlots = s.cores[c].meSlots ∧ t.cores[c].tile = s.cores[c].tile) ∧
  (∀ (c : Fin 8) (i : Fin 2) (s : State), ∃ w, (openTile s c i).cores[c].tile = some w ∧ w.draw = (bank s.cores[c]).cgDraw) ∧
  (∀ (c : Fin 8) (w : OpenTile) (s : State), (bank (restoreTile s c w).cores[c]).cgDraw = w.draw)

/-- A factory restore is one step (R392). -/
def Obligations.FactoryRestoreIsOneStep : Prop :=
  ∀ (src : WSrc) (v : W32) (s : State), pilotPowered s = true → s.fw.pilotUp = true → s.fw.recovery = false →
    rights s src = true →
    let lost := s.dict.vals.any fun p => p.1 / 2 ^ 20 != 5 && lockHolds s p.1 (((Dic.find p.1).map (·.dflt)).getD 0)
    (v ≠ 0x54535246 → exec (.factoryRestore src v) s = .next (Answered src 0xA00006 (s, stRange, []))) ∧
    (v = 0x54535246 → lost = true → exec (.factoryRestore src v) s = .next (Answered src 0xA00006 (s, stLocked, []))) ∧
    (v = 0x54535246 → lost = false → ∃ t, exec (.factoryRestore src v) s = .next t ∧
      t = { s with dict := t.dict, gatherCfg := t.gatherCfg, tables := t.tables, cf := { s.cf with erases := [] } } ∧
      t.tables = (setGatherCfg s t.gatherCfg).tables ∧
      (∀ id, t.dict.vals.get? id = if id / 2 ^ 20 = 5 then s.dict.vals.get? id else none) ∧
      (∀ id, id / 2 ^ 20 ≠ 5 → dv t id = ((Dic.find id).map (·.dflt)).getD 0) ∧ t.dict.staged = [] ∧
      (∀ id, counter t id = if ((Dic.find id).map (·.frest)).getD false then 0 else counter s id) ∧
      t.dict.epoch = s.dict.epoch + 1 ∧ t.gatherCfg = gatherFrom t ∧ t.dict.portCfg = portSettings t)

/-- The end of a command (R264): where its completion queue has room the entry is written and the command's slot frees, else
the entry waits and the slot is held; either way nothing of memory, media or cores changes. -/
def Obligations.CompletionsAreWrittenOrWait : Prop :=
  ∀ (k : CmdKey) (c : Code) (d0 d1 : Nat) (s : State), (flightOf s k).isSome = true → completionWaits s k = false →
    let e : Cqe := { sqid := k.sqid, cid := k.cid, sct := BitVec.ofNat 3 c.sct, sc := BitVec.ofNat 8 c.sc, dnr := c.dnr, dw0 := BitVec.ofNat 32 d0, dw1 := BitVec.ofNat 32 d1 }
    let t := complete s k c d0 d1
    t = { s with ctrls := t.ctrls, inflight := t.inflight, sess := t.sess, merges := t.merges } ∧
    (∀ g, g ≠ k.fn → t.ctrls[g] = s.ctrls[g]) ∧ t.ctrls[k.fn] = (postTo s.ctrls[k.fn] e).1 ∧
    ((postTo s.ctrls[k.fn] e).2 = true → flightOf t k = none ∧ completionWaits t k = false) ∧
    ((postTo s.ctrls[k.fn] e).2 = false → (flightOf t k).isSome = true ∧ completionWaits t k = true) ∧
    ∀ f ∈ s.inflight, f.key ≠ k → f ∈ t.inflight

/-- Memory of a core, a tile store or the pool (R206, R208, R214): what an account has written it reads back, and a store
leaves every byte outside its words. -/
def Obligations.StoresAreReadBackByTheirOwner : Prop :=
  ∀ (s t : State) (a tag : Nat) (b : Bytes), MemOk s → b ≠ [] → writeMem s a b tag = (t, none) →
    (∃ u, readMem t a b.length tag = (u, .ok b)) ∧
    ∀ x, x < a / 32 * 32 ∨ (a + b.length + 31) / 32 * 32 ≤ x → t.mem.get 0 x = s.mem.get 0 x ∧ t.chk.get 0 (x / 8) = s.chk.get 0 (x / 8)

/-- Isolation of accounts in memory (R206 to R211): bytes that one tag has written are never read under another, by any
access that touches one of their words. -/
def Obligations.AnotherTagReadsNothing : Prop :=
  ∀ (s t : State) (a tag other x n : Nat) (b : Bytes), MemOk s → b ≠ [] → tag < 65536 → other < 65536 → other ≠ tag →
    writeMem s a b tag = (t, none) → a / 32 ≤ x / 32 → x / 32 ≤ (a + b.length - 1) / 32 → 0 < n →
    ∀ u l, readMem t x n other ≠ (u, .ok l)

/-- CREATE_IO_COMPLETION_QUEUE, CREATE_IO_SUBMISSION_QUEUE, DELETE_IO_SUBMISSION_QUEUE and DELETE_IO_COMPLETION_QUEUE
(R260 to R262, R282). -/
def Obligations.IoQueuesAreCreatedAndDeleted : Prop :=
  (∀ (e : Sqe) (s : State), Served s e 0x05 true →
    let v := begin_ s e 0x05
    let q : Cq := { size := qsizeOf e + 1, iv := fieldOf e.cdw11.toNat 31 16, ien := bitOf e.cdw11.toNat 1 }
    0 < qidOf e → qidOf e ≤ v.ctrls[e.fn].qpairs → v.ctrls[e.fn].cqs.has (qidOf e) = false → 0 < qsizeOf e →
    qsizeOf e ≤ 16383 → fieldOf e.cdw11.toNat 31 16 < msixVectors e.fn →
    exec (.createIoCompletionQueue e) s =
      .next (complete (onCtrl v e.fn fun c => { c with cqs := c.cqs.put (qidOf e) q }) e.key Code.ok 0 0)) ∧
  (∀ (e : Sqe) (s : State), Served s e 0x01 true →
    let v := begin_ s e 0x01
    let cq := fieldOf e.cdw11.toNat 31 16
    let prio := fieldOf e.cdw11.toNat 2 1
    0 < qidOf e → qidOf e ≤ v.ctrls[e.fn].qpairs → v.ctrls[e.fn].sqs.has (qidOf e) = false → 0 < qsizeOf e →
    qsizeOf e ≤ 16383 → v.ctrls[e.fn].cqs.has cq = true →
    (prio = 0 → c0Rights v (acctOf e.fn) = false → exec (.createIoSubmissionQueue e) s = .next (fail v e.key Code.invalidField)) ∧
    ((prio = 0 → c0Rights v (acctOf e.fn) = true) → exec (.createIoSubmissionQueue e) s =
      .next (complete (onCtrl v e.fn fun c =>
        { c with sqs := c.sqs.put (qidOf e) { size := qsizeOf e + 1, cqid := cq, prio := BitVec.ofNat 2 prio } }) e.key Code.ok 0 0))) ∧
  (∀ (e : Sqe) (s : State), Served s e 0x00 true →
    let v := begin_ s e 0x00
    v.ctrls[e.fn].sqs.has (qidOf e) = true →
    ∃ u, exec (.deleteIoSubmissionQueue e) s = .next (complete u e.key Code.ok 0 0) ∧
      u.ctrls[e.fn].sqs.has (qidOf e) = false ∧ (∀ r ∈ u.ctrls[e.fn].abortRecs, r.1 ≠ qidOf e)) ∧
  (∀ (e : Sqe) (s : State), Served s e 0x04 true →
    let v := begin_ s e 0x04
    ∀ q, v.ctrls[e.fn].cqs.get? (qidOf e) = some q →
    ((v.ctrls[e.fn].sqs.any fun p => p.2.cqid == qidOf e) = true →
      exec (.deleteIoCompletionQueue e) s = .next (fail v e.key Code.invalidQueueDeletion)) ∧
    ((v.ctrls[e.fn].sqs.any fun p => p.2.cqid == qidOf e) = false →
      exec (.deleteIoCompletionQueue e) s =
        .next (complete (onCtrl (freeSlotsOf v e.fn q.waiting) e.fn fun c => { c with cqs := c.cqs.del (qidOf e) }) e.key Code.ok 0 0)))

/-- IDENTIFY, GET_LOG_PAGE, GET_FEATURES and SET_FEATURES (R259, R276, R283). -/
def Obligations.StructuresLogsAndFeatures : Prop :=
  (∀ (e : Sqe) (s : State), Served s e 0x06 true →
    let v := begin_ s e 0x06
    ∀ b, identifyData v e.fn (fieldOf e.cdw10.toNat 7 0) e.nsid (fieldOf e.cdw10.toNat 31 16) = some (.ok b) →
    exec (.identify e) s = .next (complete (hostWrite v e.key 0 (b.take e.dptr)) e.key Code.ok 0 0)) ∧
  (∀ (e : Sqe) (s : State), Served s e 0x02 true →
    let v := begin_ s e 0x02
    let lid := fieldOf e.cdw10.toNat 7 0
    let n := 4 * (fieldOf e.cdw10.toNat 31 16 + 2 ^ 16 * fieldOf e.cdw11.toNat 15 0 + 1)
    let off := e.cdw12.toNat + 2 ^ 32 * e.cdw13.toNat
    (logPage v e.fn lid = none → exec (.getLogPage e) s = .next (fail v e.key Code.invalidLogPage)) ∧
    ∀ b, logPage v e.fn lid = some b → off ≤ b.length →
      ∃ u, exec (.getLogPage e) s = .next (complete (hostWrite u e.key 0 (((b.drop off).take n).take e.dptr)) e.key Code.ok 0 0) ∧
        u = { v with free := u.free, ctrls := u.ctrls } ∧ (lid ≠ 4 → u.ctrls = v.ctrls)) ∧
  (∀ (e : Sqe) (s : State), Served s e 0x0A true →
    let v := begin_ s e 0x0A
    let fid := fieldOf e.cdw10.toNat 7 0
    (featureIds.contains fid = true → fieldOf e.cdw10.toNat 10 8 = 3 →
      exec (.getFeatures e) s = .next (complete v e.key Code.ok (if fid = 0x0E then 4 else 5) 0)) ∧
    (featureIds.contains fid = false ∨ 3 < fieldOf e.cdw10.toNat 10 8 →
      exec (.getFeatures e) s = .next (fail v e.key Code.invalidField)) ∧
    (featureIds.contains fid = true → fieldOf e.cdw10.toNat 10 8 < 3 →
    (fid = 0x0E → exec (.getFeatures e) s = .next (complete (hostWrite v e.key 0
      ((toLe 6 v.health.timestamp.toNat ++ [0, 0]).take e.dptr)) e.key Code.ok 0 0)) ∧
    (fid ≠ 0x0E → exec (.getFeatures e) s =
      .next (complete v e.key Code.ok (featureValue v e.fn fid (fieldOf e.cdw10.toNat 10 8)) 0)))) ∧
  (∀ (e : Sqe) (s : State), Served s e 0x09 true →
    let v := begin_ s e 0x09
    let fid := fieldOf e.cdw10.toNat 7 0
    featureIds.contains fid = true →
    (fid = 0x0E → bitOf e.cdw10.toNat 31 = false → exec (.setFeatures e) s = .next (complete
      (onHealth v fun h => { h with timestamp := BitVec.ofNat 64 (Bytes.le e.inp 0 6) }) e.key Code.ok 0 0)) ∧
    (fid ≠ 0x0E → ∃ u d, exec (.setFeatures e) s = .next (complete u e.key Code.ok d 0) ∧
      u.ctrls[e.fn].features.get? fid = some e.cdw11.toNat ∧
      (bitOf e.cdw10.toNat 31 = true → u.ctrls[e.fn].saved.get? fid = some e.cdw11.toNat) ∧
      (fid = 1 → u.ctrls[e.fn].arb = e.cdw11) ∧ u = { v with ctrls := u.ctrls } ∧ ∀ g, g ≠ e.fn → u.ctrls[g] = v.ctrls[g]))

/-- ABORT and ASYNCHRONOUS_EVENT_REQUEST (R281, R284). -/
def Obligations.AbortsAndEventRequests : Prop :=
  (∀ (e : Sqe) (s : State), Served s e 0x08 true →
    let v := begin_ s e 0x08
    let k : CmdKey := ⟨e.fn, fieldOf e.cdw10.toNat 15 0, fieldOf e.cdw10.toNat 31 16⟩
    (v.inflight.filter fun f => f.key.fn == e.fn && f.admin && f.kind == 0x08).length ≤ 256 →
    (flightOf v k = none → queueEmpty v.ctrls[e.fn] k.sqid = false →
      exec (.abort e) s = .next (complete (recordAbort v k) e.key Code.ok 0 0) ∧ recordedAbort (recordAbort v k) k = true) ∧
    (flightOf v k = none → queueEmpty v.ctrls[e.fn] k.sqid = true → exec (.abort e) s = .next (complete v e.key Code.ok 1 0)) ∧
    (∀ f, flightOf v k = some f → completionWaits v k = false → k ≠ e.key → abortable v k = true →
      exec (.abort e) s = .next (complete (abortCommand v k) e.key Code.ok 0 0)) ∧
    (∀ f, flightOf v k = some f → completionWaits v k = true ∨ k = e.key ∨ abortable v k = false → exec (.abort e) s = .next (complete v e.key Code.ok 1 0))) ∧
  (∀ (e : Sqe) (s : State), Served s e 0x0C true →
    let v := begin_ s e 0x0C
    let c := v.ctrls[e.fn]
    (16 ≤ c.aers.length → exec (.asynchronousEventRequest e) s = .next (fail v e.key Code.aerLimit)) ∧
    (c.aers.length < 16 → c.events = [] → exec (.asynchronousEventRequest e) s =
      .next (onCtrl v e.fn fun c => { c with aers := c.aers ++ [e.cid] })) ∧
    (c.aers.length < 16 → ∀ w t, c.events = w :: t → exec (.asynchronousEventRequest e) s =
      .next (complete (onCtrl v e.fn fun c => { c with events := t }) e.key Code.ok w.toNat 0)))

/-- NAMESPACE_CREATE, NAMESPACE_DELETE, NAMESPACE_ATTACHMENT and FORMAT_NVM (R267 to R270, R478). -/
def Obligations.NamespacesAreManaged : Prop :=
  (∀ (e : Sqe) (s : State), Served s e 0x0D true →
    let v := begin_ s e 0x0D
    let nsze := Bytes.le e.inp 0 8
    let flbas := Bytes.le e.inp 26 1
    let n : Ns := { account := acctOf e.fn, nsze := nsze, flbas := flbas, nsk := Config.freeNat v.free }
    fieldOf e.cdw10.toNat 3 0 = 0 → keyOpen v (acctOf e.fn) = true → 4096 ≤ e.dptr → Bytes.le e.inp 8 8 = nsze →
    formatOk flbas nsze = true → Bytes.le e.inp 29 2 = 0 → ∀ id, Tab.firstFree v.nss 1 1024 = some id →
    nsBytes v (fun _ => true) + nsze * 4096 ≤ userCapacity →
    nsBytes v (fun x => x.account == acctOf e.fn) + nsze * 4096 ≤ dv v (0x304000 + acctOf e.fn) →
    regionUsed v + mapTableBytes n ≤ regionBytes v →
    ∃ u, exec (.namespaceCreate e) s = .next (complete u e.key Code.ok id 0) ∧ u.nss.get? id = some n ∧
      (∀ j, j ≠ id → u.nss.get? j = v.nss.get? j)) ∧
  (∀ (e : Sqe) (s : State), Served s e 0x0D true →
    let v := begin_ s e 0x0D
    fieldOf e.cdw10.toNat 3 0 = 1 → e.nsid ≠ 0xFFFFFFFF → ∀ n, ownNs v e.fn e.nsid = some n →
    (nsInUse v e.nsid = true → exec (.namespaceDelete e) s = .next (fail v e.key Code.sequenceError e.nsid)) ∧
    (nsInUse v e.nsid = false → ∃ u, exec (.namespaceDelete e) s = .next (complete u e.key Code.ok 0 0) ∧
      u.nss.get? e.nsid = none ∧ u.mem = v.mem)) ∧
  (∀ (e : Sqe) (s : State), Served s e 0x15 true →
    let v := begin_ s e 0x15
    let sel := fieldOf e.cdw10.toNat 3 0
    let count := Bytes.le e.inp 0 2
    sel ≤ 1 → 0 < count → count ≤ 2047 → (∀ i, i < count → Bytes.le e.inp (2 + 2 * i) 2 = acctOf e.fn) →
    ∀ n, ownNs v e.fn e.nsid = some n → n.attached = (sel == 1) →
    ∃ u, exec (.namespaceAttachment e) s = .next (complete u e.key Code.ok 0 0) ∧
      u.nss.get? e.nsid = some { n with attached := sel == 0 } ∧ (∀ j, j ≠ e.nsid → u.nss.get? j = v.nss.get? j)) ∧
  (∀ (e : Sqe) (s : State), Served s e 0x80 true →
    let v := begin_ s e 0x80
    let flbas := fieldOf e.cdw10.toNat 3 0 + 16 * fieldOf e.cdw10.toNat 13 12
    let ses := fieldOf e.cdw10.toNat 11 9
    e.nsid ≠ 0xFFFFFFFF → ∀ n, ownNs v e.fn e.nsid = some n → ses ≤ 2 → fieldOf e.cdw10.toNat 8 4 = 0 →
    nsInUse v e.nsid = false → formatOk flbas n.nsze = true →
    regionUsed v + mapTableBytes { n with flbas := flbas } ≤ regionBytes v + mapTableBytes n →
    ∃ u, exec (.formatNvm e) s = .next (complete u e.key Code.ok 0 0) ∧
      u.nss.get? e.nsid = some { n with flbas := flbas, nsk := if ses = 2 then Config.freeNat v.free else n.nsk })

/-- SECURITY_SEND, SECURITY_RECEIVE and SANITIZE (R371, R385). -/
def Obligations.SecurityCommands : Prop :=
  (∀ (e : Sqe) (r : SpdmReq) (s : State), Served s e 0x81 true →
    let v := begin_ s e 0x81
    (secp e = 0 → exec (.securitySend e r) s = .next (complete v e.key Code.ok 0 0)) ∧
    (secp e = 0xE8 → ∀ u b, spdmAnswer v (.nvme e.fn) r = (u, b) → exec (.securitySend e r) s = .next (complete
      (onCtrl (respond u (.nvme e.fn) b) e.fn fun c => { c with secResponse := some b }) e.key Code.ok 0 0))) ∧
  (∀ (e : Sqe) (s : State), Served s e 0x82 true →
    let v := begin_ s e 0x82
    let n := min e.cdw11.toNat e.dptr
    (secp e = 0 → exec (.securityReceive e) s = .next (complete
      (hostWrite v e.key 0 ((List.replicate 6 (0 : Byte) ++ [0, 2, 0x00, 0xE8]).take n)) e.key Code.ok 0 0)) ∧
    (secp e = 0xE8 → v.ctrls[e.fn].secResponse = none → exec (.securityReceive e) s = .next (fail v e.key Code.sequenceError)) ∧
    (secp e = 0xE8 → ∀ b, v.ctrls[e.fn].secResponse = some b → exec (.securityReceive e) s = .next (complete
      (hostWrite (onCtrl v e.fn fun c => { c with secResponse := none }) e.key 0 (b.take n)) e.key Code.ok 0 0))) ∧
  (∀ (e : Sqe) (s : State), Served s e 0x84 true → e.fn = 0 → fieldOf e.cdw10.toNat 2 0 = 4 →
    ∃ u, exec (.sanitize e) s = .next (complete u e.key Code.ok 0 0) ∧ u.sanitizing = true ∧ u.indexes = [] ∧
      u.tables = [])

/-- FIRMWARE_IMAGE_DOWNLOAD, FIRMWARE_COMMIT, FW_ACTIVATION and ACTIVATION_COMMAND_TIMEOUT (R355 to R358, R367): an activation
that is due resets the pilot core; then an image is written in and started, or, where no replica reads back right, the module
is in recovery (R360). -/
def Obligations.FirmwareIsStagedAndActivated : Prop :=
  (∀ (e : Sqe) (s : State), Served s e 0x11 true → e.fn = 0 →
    let v := begin_ s e 0x11
    dlOffset e + dlBytes e ≤ imageMax → dlBytes e ≤ e.dptr → dlBytes e ≤ e.inp.length →
    exec (.firmwareImageDownload e) s = .next (complete (onFw v fun w =>
      { w with buf := w.buf.puts 0 (dlOffset e) (e.inp.take (dlBytes e)), bufLen := max w.bufLen (dlOffset e + dlBytes e),
               fresh := true }) e.key Code.ok 0 0)) ∧
  (∀ (e : Sqe) (s : State), Served s e 0x10 true → e.fn = 0 →
    let v := begin_ s e 0x10
    commitFs e ≤ 1 → v.fw.stage.state ≠ 2 → v.fw.stage.state ≠ 3 →
    (fwReason v (fwImage v) = none →
      (commitCa e = 0 → ∃ u, exec (.firmwareCommit e) s = .next (complete u e.key Code.ok 0 0) ∧ u.fw.stage.state = 4) ∧
      (commitCa e = 1 → ∃ u, exec (.firmwareCommit e) s = .next (complete u e.key Code.ok 0 0) ∧ u.fw.stage.state = 2)) ∧
    (∀ r, fwReason v (fwImage v) = some r → commitCa e ≤ 1 →
      ∃ u, exec (.firmwareCommit e) s = .next (fail u e.key Code.invalidImage) ∧ u.fw.stage = v.fw.stage) ∧
    (commitCa e = 2 → v.fw.stage.state = 4 →
      ∃ u, exec (.firmwareCommit e) s = .next (complete u e.key Code.ok 0 0) ∧ u.fw.stage.state = 2) ∧
    (commitCa e = 3 → (v.fw.stage.state = 4 ∧ v.fw.fresh = false) ∨ fwReason v (fwImage v) = none →
      ∃ u, exec (.firmwareCommit e) s = .next u ∧ u.fw.stage.state = 2 ∧ u.fw.activating = 1 ∧ u.fw.waitCommit = some e.key)) ∧
  (∀ (l : List Bool) (s : State), s.fw.activating = 1 → s.fw.stage.state = 2 →
    ∃ t, exec (.fwActivation l) s = .next t ∧ t.fw.stage.state = 3 ∧ t.fw.activating = 3 ∧ t.fw.pilotUp = false ∧
      t.store = s.store) ∧
  (∀ (l : List Bool) (s : State), s.fw.activating = 3 →
    (∀ v img, writeIn s l = some (v, img) → ∃ t, exec (.fwActivation l) s = .next t ∧ t.fw.stage.state = 1 ∧
      t.fw.svn = imgSvn img ∧ t.store.fwFloor = max s.store.fwFloor (imgSvn img) ∧ t.fw.recovery = false ∧
      t.fw.pilotUp = true) ∧
    (writeIn s l = none → ∃ t, exec (.fwActivation l) s = .next t ∧ t.fw.recovery = true ∧ t.fw.pilotUp = false ∧
      t.store = s.store)) ∧
  (∀ s : State, s.fw.activating = 6 →
    exec .activationCommandTimeout s =
      .next (finishActivation ((step6Waits s).foldl (fun a k => cancelWith a k Code.interrupted) s)))

/-- READ, VERIFY, COMPARE and FLUSH (R271, R273, R275) where every unit the command needs is in the write buffer or
deallocated: at once; else the command waits and its flash reads are issued. -/
def Obligations.NvmCommandsThatRead : Prop :=
  (∀ (e : Sqe) (s : State) (n : Ns), Served s e 0x02 false →
    let v := begin_ s e 0x02
    nsFor v e.fn e.nsid = some n → nvmRefuse v e 0x02 n = none →
    (onFlash v e.nsid (unitsNeeded e 0x02 n) = [] → ∃ u, exec (.read e) s = .next (complete u e.key Code.ok 0 0) ∧
      u.hostWrites = { cmd := e.key, offset := 0, bytes := readMedia v e.nsid (slbaOf e * 4096) (nlbOf e * 4096) } :: v.hostWrites ∧
      u.media = v.media ∧ u.map = v.map ∧ u.mem = v.mem) ∧
    (onFlash v e.nsid (unitsNeeded e 0x02 n) ≠ [] → ∃ u, exec (.read e) s = .next u ∧
      { e := e, opc := 0x02, readDone := false } ∈ u.jobs ∧ u.media = v.media ∧ u.map = v.map)) ∧
  (∀ (e : Sqe) (s : State) (n : Ns), Served s e 0x0C false →
    let v := begin_ s e 0x0C
    nsFor v e.fn e.nsid = some n → nvmRefuse v e 0x0C n = none → onFlash v e.nsid (unitsNeeded e 0x0C n) = [] →
    ∃ u, exec (.verify e) s = .next (complete u e.key Code.ok 0 0) ∧ u = { v with ctrls := u.ctrls }) ∧
  (∀ (e : Sqe) (s : State) (n : Ns), Served s e 0x05 false →
    let v := begin_ s e 0x05
    let same := readMedia v e.nsid (slbaOf e * 4096) (nlbOf e * 4096) = Bytes.sub e.inp 0 (nlbOf e * 4096)
    nsFor v e.fn e.nsid = some n → nvmRefuse v e 0x05 n = none → onFlash v e.nsid (unitsNeeded e 0x05 n) = [] →
    (same → ∃ u, exec (.compare e) s = .next (complete u e.key Code.ok 0 0) ∧ u = { v with ctrls := u.ctrls }) ∧
    (¬ same → ∃ u, exec (.compare e) s = .next (fail u e.key Code.compareFailure e.nsid (slbaOf e)) ∧ u = { v with ctrls := u.ctrls })) ∧
  (∀ (e : Sqe) (s : State), Served s e 0x00 false → exec (.flush e) s = .next (complete (begin_ s e 0x00) e.key Code.ok 0 0))

/-- WRITE, WRITE_ZEROES and DATASET_MANAGEMENT (R271, R274, R320) where no unit has to be read first and the write buffer and
the segment queues have room: the bytes named read as written, or as zero, the bytes of every other place stand, and the
command completes, at once while writes need not be programmed first. A write that finds no room waits. -/
def Obligations.NvmCommandsThatWrite : Prop :=
  (∀ (e : Sqe) (s : State) (n : Ns), MemOk s → Served s e 0x01 false →
    let v := begin_ s e 0x01
    let off := slbaOf e * 4096
    let len := nlbOf e * 4096
    let segs := segmentsOf off len true
    nsFor v e.fn e.nsid = some n → nvmRefuse v e 0x01 n = none → onFlash v e.nsid (unitsNeeded e 0x01 n) = [] →
    (slotsNeeded n off len ≤ freeSlots v → segmentRoom v e.nsid segs.length = true →
      (syncMode v = false → ∃ u, exec (.write e) s = .next (complete u e.key Code.ok 0 0) ∧
        readMedia u e.nsid off len = Bytes.sub e.inp 0 len) ∧
      ∃ u l, exec (.write e) s = .next (finishWrite u e.key e.nsid l segs) ∧
        readMedia u e.nsid off len = Bytes.sub e.inp 0 len ∧
        (∀ a, a < mediaKey e.nsid off ∨ mediaKey e.nsid off + len ≤ a → u.media.get 0 a = v.media.get 0 a) ∧ u.mem = v.mem) ∧
    (freeSlots v < slotsNeeded n off len ∨ segmentRoom v e.nsid segs.length = false →
      exec (.write e) s = .next (waitJob v e 0x01 true))) ∧
  (∀ (e : Sqe) (s : State) (n : Ns), MemOk s → Served s e 0x08 false →
    let v := begin_ s e 0x08
    let off := slbaOf e * 4096
    let len := nlbOf e * 4096
    let segs := segmentsOf off len false
    nsFor v e.fn e.nsid = some n → nvmRefuse v e 0x08 n = none → onFlash v e.nsid (unitsNeeded e 0x08 n) = [] →
    slotsNeeded n off len ≤ freeSlots v → segmentRoom v e.nsid segs.length = true →
    (syncMode v = false → ∃ u, exec (.writeZeroes e) s = .next (complete u e.key Code.ok 0 0) ∧
      readMedia u e.nsid off len = List.replicate len 0) ∧
    ∃ u l, exec (.writeZeroes e) s = .next (finishWrite u e.key e.nsid l segs) ∧
      readMedia u e.nsid off len = List.replicate len 0 ∧
      (∀ a, a < mediaKey e.nsid off ∨ mediaKey e.nsid off + len ≤ a → u.media.get 0 a = v.media.get 0 a) ∧ u.mem = v.mem) ∧
  (∀ (e : Sqe) (s : State) (n : Ns), MemOk s → Served s e 0x09 false →
    let v := begin_ s e 0x09
    let rs := byteRanges e 0x09
    let segs := rs.flatMap fun r => segmentsOf r.1 r.2 false
    nsFor v e.fn e.nsid = some n → nvmRefuse v e 0x09 n = none →
    (deallocates e = false → exec (.datasetManagement e) s = .next (complete v e.key Code.ok 0 0)) ∧
    (deallocates e = true → onFlash v e.nsid (unitsNeeded e 0x09 n) = [] → changeSlots e 0x09 n ≤ freeSlots v →
      segmentRoom v e.nsid segs.length = true →
      (syncMode v = false → ∃ u, exec (.datasetManagement e) s = .next (complete u e.key Code.ok 0 0) ∧
        ∀ r ∈ rs, readMedia u e.nsid r.1 r.2 = List.replicate r.2 0) ∧
      ∃ u l, exec (.datasetManagement e) s = .next (finishWrite u e.key e.nsid l segs) ∧
        (∀ r ∈ rs, readMedia u e.nsid r.1 r.2 = List.replicate r.2 0) ∧
        (∀ a, (∀ r ∈ rs, a < mediaKey e.nsid r.1 ∨ mediaKey e.nsid r.1 + r.2 ≤ a) → u.media.get 0 a = v.media.get 0 a) ∧
        u.mem = v.mem))

/-- LOAD_PROGRAM, PROGRAM_ACTIVATION_MANAGEMENT, EXECUTE_PROGRAM and MEMORY_RANGE_SET_MANAGEMENT (R107, R277, R278). -/
def Obligations.ProgramsAreLoadedAndRun : Prop :=
  (∀ (e : Sqe) (s : State), Served s e 0x221 false →
    let v := begin_ s e 0x221
    let i := cdw10Lo e
    let len := e.cdw11.toNat
    e.fuse = 0 → i < 64 →
    (loadSel e = 0 → v.ctrls[e.fn].programs.get? i = none → len ≤ e.dptr → len ≤ e.inp.length →
      (∀ r, imageReason v e.fn (Bytes.sub e.inp 0 len) len = some r →
        exec (.loadProgram e) s = .next (failDw0 v e.key Code.imageRejected r)) ∧
      (imageReason v e.fn (Bytes.sub e.inp 0 len) len = none → ∃ u, exec (.loadProgram e) s = .next (complete u e.key Code.ok 0 0) ∧
        (u.ctrls[e.fn].programs.get? i).map (·.bytes) = some (Bytes.sub e.inp 0 len))) ∧
    (loadSel e = 1 → ∀ im, v.ctrls[e.fn].programs.get? i = some im → im.active = false → programBusy v e.fn i = false →
      ∃ u, exec (.loadProgram e) s = .next (complete u e.key Code.ok 0 0) ∧ u.ctrls[e.fn].programs.get? i = none)) ∧
  (∀ (e : Sqe) (s : State), Served s e 0x222 false →
    let v := begin_ s e 0x222
    e.fuse = 0 → ∀ im, v.ctrls[e.fn].programs.get? (cdw10Lo e) = some im →
    ∃ u, exec (.programActivationManagement e) s = .next (complete u e.key Code.ok 0 0) ∧
      u.ctrls[e.fn].programs.get? (cdw10Lo e) = some { im with active := bitOf e.cdw10.toNat 16 } ∧ u = { v with ctrls := u.ctrls }) ∧
  (∀ (e : Sqe) (core : Fin 8) (s : State) (im : Image), Served s e 0x201 false →
    let v := begin_ s e 0x201
    let acct := acctOf e.fn
    let b := queueClass v e.key == 0
    let i := execSession v acct b
    v.ctrls[e.fn].programs.get? (cdw10Lo e) = some im → e.fuse = 0 → im.active = true → keyOpen v acct = true →
    (argLen e ≠ 0 → poolGranted v acct (argAddr e) (argLen e) = true) →
    (∀ w, readyCore v i core b acct im = (w, none) →
      exec (.executeProgram e core) s = .next (holdExec w e kindExecute (b && class0Ahead w i core))) ∧
    (∀ w c, readyCore v i core b acct im = (w, some c) →
      ∃ t p, exec (.executeProgram e core) s = .next t ∧ (bankOf t.cores[c] b).prog = some p ∧ p.handle = some e.key ∧
        p.account = acct ∧ (bankOf t.cores[c] b).mboxIn =
          [setDw (startEntry (handleOf e.key) (argAddr e) (argLen e)) 1 t.cores[c].inSeq.toNat])) ∧
  (∀ (e : Sqe) (s : State), Served s e 0x223 false →
    let v := begin_ s e 0x223
    let old := v.ctrls[e.fn].ranges
    let n := e.cdw11.toNat
    let id := lowestOut (old.map (·.set)) 1 (old.length + 1)
    let rs := (List.range n).map (rangeAt e.inp id)
    e.fuse = 0 →
    (fieldOf e.cdw10.toNat 3 0 = 1 → old.any (·.set == cdw10Hi e) = true →
      exec (.memoryRangeSetManagement e) s = .next (complete
        (onCtrl v e.fn fun c => { c with ranges := c.ranges.filter (·.set != cdw10Hi e) }) e.key Code.ok 0 0)) ∧
    (fieldOf e.cdw10.toNat 3 0 = 0 → 32 * n ≤ e.dptr → 32 * n ≤ e.inp.length → 0 < n →
      (List.range n).all (rangeFmtOk e.inp) = true → rs.all (fun r => poolGranted v (acctOf e.fn) r.start r.len) = true →
      exec (.memoryRangeSetManagement e) s = .next (complete
        (onCtrl v e.fn fun c => { c with ranges := c.ranges ++ rs }) e.key Code.ok id 0)))

/-- MEMORY_READ, MEMORY_WRITE and MEMORY_COPY (R213, R214, R278): on words that decode under the account's tag the bytes
go over; a word that does not decode ends the command with the status of its outcome. -/
def Obligations.PoolMemoryCommands : Prop :=
  (∀ (e : Sqe) (s : State), Served s e 0x102 false →
    let v := begin_ s e 0x102
    memRefuse v e = none →
    (∀ w b, readMem v (slmAddr e) (slmLen e) (tagOf v (acctOf e.fn)) = (w, .ok b) → exec (.memoryRead e) s = .next (complete
      (hostWrite (charge w (acctOf e.fn) none fPoolRd (slmLen e)) e.key 0 b) e.key Code.ok 0 0)) ∧
    (∀ w o, readMem v (slmAddr e) (slmLen e) (tagOf v (acctOf e.fn)) = (w, .error o) → ∃ u,
      exec (.memoryRead e) s = .next (fail u e.key (readCode o) e.nsid) ∧ u.hostWrites = v.hostWrites)) ∧
  (∀ (e : Sqe) (s : State), Served s e 0x105 false →
    let v := begin_ s e 0x105
    memRefuse v e = none →
    (∀ w, writeMem v (slmAddr e) (Bytes.sub e.inp 0 (slmLen e)) (tagOf v (acctOf e.fn)) = (w, none) → ∃ u,
      exec (.memoryWrite e) s = .next (complete u e.key Code.ok 0 0) ∧ u.mem = w.mem ∧ u.chk = w.chk ∧
      ∀ t ∈ tilesIn (slmAddr e) (slmLen e), (recOf u t).stale = true) ∧
    (∀ w o, writeMem v (slmAddr e) (Bytes.sub e.inp 0 (slmLen e)) (tagOf v (acctOf e.fn)) = (w, some o) →
      exec (.memoryWrite e) s = .next (fail (hostWrote w e.fn (slmAddr e) (slmLen e)) e.key (readCode o) e.nsid))) ∧
  (∀ (e : Sqe) (s : State), Served s e 0x101 false →
    let v := begin_ s e 0x101
    let ks := List.range (copyCount e)
    let total := sumNat (ks.map fun k => (copySource e k).2.2)
    e.fuse = 0 → copyCount e ≠ 0 → 32 * copyCount e ≤ e.dptr → 32 * copyCount e ≤ e.inp.length →
    (total ≠ 0 → poolGranted v (acctOf e.fn) (slmAddr e) total = true) →
    ∀ w b, copyReads v e ks = (w, .ok b) → ∀ x, writeMem w (slmAddr e) b (tagOf v (acctOf e.fn)) = (x, none) →
    ∃ u, exec (.memoryCopy e) s = .next (complete u e.key Code.ok 0 0) ∧ u.mem = x.mem ∧ u.chk = x.chk)

/-- ME_DESC_ARM (R75, R76): dword 0 of an unarmed slot of the ME queue is written; a write that sets ARM queues the
descriptor and latches CG_DRAW, or refuses it with FAULT and the STATUS of its check. That a refused slot, still in its queue,
does not arm before its FAULT is cleared is the model's reading (log 71). -/
def Obligations.MeDescriptorsAreArmed : Prop :=
  ∀ (c : Fin 8) (i : Fin 16) (v : W32) (fw : Bool) (s : State), fw = true ∨ cpRuns s c = true →
    let old := s.cores[c].meSlots[i].dw
    let w := armWrite (dwAt old 0) v.toNat meRw (s.cores[c].meQueue.contains i)
    let d := setDw old 0 w
    let st := meCheck s c i (meDesc d) fw
    (bitOf (dwAt old 0) 0 = true → exec (.meDescArm c i v fw) s = .next s) ∧
    (bitOf (dwAt old 0) 0 = false → bitOf w 0 = false → ∃ t, exec (.meDescArm c i v fw) s = .next t ∧ CoreOnly s t c ∧
      t.cores[c].meSlots[i] = { s.cores[c].meSlots[i] with dw := d } ∧ t.cores[c].meQueue = s.cores[c].meQueue) ∧
    (bitOf (dwAt old 0) 0 = false → bitOf w 0 = true → ∃ t, exec (.meDescArm c i v fw) s = .next t ∧ CoreOnly s t c ∧
      t.cores[c].meQueue = addOnce s.cores[c].meQueue i ∧
      (st = 0 → t.cores[c].meSlots[i] =
        { dw := setDw d 7 0, draw := (bank s.cores[c]).cgDraw, fw := fw, issued := false, inTile := accepting s.cores[c] }) ∧
      (st ≠ 0 → t.cores[c].meSlots[i].dw = setDw (setDw d 0 (endDw0 w faultBit)) 7 st))

/-- PASS_ISSUE and CHAIN_DRAIN_COMPLETE (R58, R65): a pass that runs leaves the queue, done or issued until its drain
ends; one that a failed decode or an anchor stops is abandoned. A drain whose entries agree with their residues ends the
descriptor and frees the accumulators; one that finds another does not end (R69). -/
def Obligations.PassesIssueAndDrain : Prop :=
  (∀ (c : Fin 8) (i : Fin 16) (s : State), meHead s.cores[c] = some i → passReady (passScan s c i) c i = true →
    let r := passScan s c i
    let d := meDesc r.cores[c].meSlots[i].dw
    (∀ u, passTaken r c i = (u, none) → ∃ t, exec (.passIssue c) s = .next t ∧ CoreOnly u t c ∧
      i.val ∉ t.cores[c].meQueue ∧ t.cores[c].engines = u.cores[c].engines ∧
      (2 ≤ d.acc → t.cores[c].meSlots[i] = { u.cores[c].meSlots[i] with issued := true }) ∧
      (d.acc < 2 → t.cores[c].meSlots[i].dw =
        setDw u.cores[c].meSlots[i].dw 0 (endDw0 (dwAt u.cores[c].meSlots[i].dw 0) doneBit))) ∧
    (∀ u cause, passTaken r c i = (u, some cause) → exec (.passIssue c) s = .next (abandonTile u c cause 0x11 [i]))) ∧
  (∀ (c : Fin 8) (i : Fin 16) (s : State), s.cores[c].meSlots[i].issued = true → residuesAgree s c i = false →
    exec (.chainDrainComplete c i) s = .next s) ∧
  (∀ (c : Fin 8) (i : Fin 16) (s : State), s.cores[c].meSlots[i].issued = true → residuesAgree s c i = true →
    let d := meDesc s.cores[c].meSlots[i].dw
    ∃ t, exec (.chainDrainComplete c i) s = .next t ∧ t.cores[c].meSlots[i].issued = false ∧
      (let w := s.cores[c].meSlots[i].dw
      ∃ st, t.cores[c].meSlots[i].dw = setDw (setDw w 0 (endDw0 (dwAt w 0) doneBit)) 7 st) ∧
      ∀ e ∈ enabled d, t.cores[c].engines[e].acc = [] ∧ t.cores[c].engines[e].chain = none)

/-- KEEP_LIT_RAMP_DOWN, ARRAY_CLOCK_GATE, CLOCK_STEP_CHANGE and RESIDUE_FAULT (R69, R71, R73, R424). Entries with OVF set are
exempt from the residue's comparison. -/
def Obligations.EngineFlowClockAndResidue : Prop :=
  (∀ (c : Fin 8) (s : State), ∃ t, exec (.keepLitRampDown c) s = .next t ∧ t.mem = s.mem ∧
    ∀ e : Fin 4, t.cores[c].engines[e] = if s.cores[c].engines[e].flow = .streaming then
      { s.cores[c].engines[e] with flow := .rampDown } else s.cores[c].engines[e]) ∧
  (∀ (c : Fin 8) (s : State), ∃ t, exec (.arrayClockGate c) s = .next t ∧ t.mem = s.mem ∧
    ∀ e : Fin 4, t.cores[c].engines[e] = if s.cores[c].engines[e].flow = .rampDown then
      { s.cores[c].engines[e] with flow := .stopped } else s.cores[c].engines[e]) ∧
  (∀ (c : Fin 8) (n : Fin 4) (s : State), s.cores[c].stepReq = some n →
    ∃ t, exec (.clockStepChange c) s = .next t ∧ CoreOnly s t c ∧
      t.cores[c] = { s.cores[c] with step := n, stepReq := none }) ∧
  (∀ (c : Fin 8) (e : Fin 4) (x : EngineTest) (h : Chain) (s : State), coverOk x = true →
    s.cores[c].engines[e].chain = some h → h.draining = true →
    (∃ p ∈ s.cores[c].engines[e].acc, p.2.ovf = false) →
    let u := testedEngine (abandonTile s c 0x10 0x10 (issuedMe s.cores[c])) c e x
    ((x ≠ .noSpare ∨ u.cores[c].tile = none) → exec (.residueFault c e x) s = .next u) ∧
    (x = .noSpare → u.cores[c].tile.isSome = true →
      exec (.residueFault c e x) s = .next (settle (endProgram u c 0x11 Code.internalError 0 [])))) ∧
  (∀ (c : Fin 8) (e : Fin 4) (x : EngineTest) (s : State), coverOk x = true →
    (∀ p ∈ s.cores[c].engines[e].acc, p.2.ovf = true) → exec (.residueFault c e x) s = .next s)

/-- TILE_DESC_ARM and TM_DESC_ARM (R90, R91, R93): dword 0 of an unarmed slot is written; a write that sets ARM queues the
descriptor with the lists it latched, or refuses it with FAULT and the STATUS of its check; one to an armed slot is ignored.
That a refused slot, still in its queue, does not arm before its FAULT is cleared is the model's reading (log 71). -/
def Obligations.TileAndMoverDescriptorsAreArmed : Prop :=
  (∀ (c : Fin 8) (i : Fin 2) (v : W32) (s : State), cpRuns s c = true →
    let old := (bank s.cores[c]).tileSlots[i].dw
    let w := armWrite (dwAt old 0) v.toNat 1 ((bank s.cores[c]).armedTiles.contains i)
    let d := setDw old 0 w
    let r := tdCheck s c (tileDesc d)
    let u := onTd (onBank r.1 c fun b => { b with armedTiles := addOnce b.armedTiles i }) c i fun _ =>
      { dw := setDw d 0 (setField w 15 8 0), ins := r.2.2.1, outs := r.2.2.2 }
    (bitOf (dwAt old 0) 0 = true → bitOf v.toNat 3 = false → exec (.tileDescArm c i v) s = .next s) ∧
    (bitOf (dwAt old 0) 0 = false → bitOf w 0 = true → r.2.1 = 0 →
      exec (.tileDescArm c i v) s = .next (noteCost u c (tileDesc d).cost)) ∧
    (bitOf (dwAt old 0) 0 = false → bitOf w 0 = true → r.2.1 ≠ 0 → ∃ t, exec (.tileDescArm c i v) s = .next t ∧
      CoreOnly u t c ∧ (bank t.cores[c]).armedTiles = (bank u.cores[c]).armedTiles ∧
      let y := setDw d 0 (setField w 15 8 0)
      (bank t.cores[c]).tileSlots[i].dw =
        setDw y 0 (setField (endDw0 (dwAt y 0) faultBit &&& (2 ^ 32 - 1 - 8)) 15 8 r.2.1)) ∧
    (bitOf (dwAt old 0) 0 = false → bitOf w 0 = false → ∃ t, exec (.tileDescArm c i v) s = .next t ∧ CoreOnly s t c ∧
      (bank t.cores[c]).tileSlots[i] = { (bank s.cores[c]).tileSlots[i] with dw := d } ∧
      (bank t.cores[c]).armedTiles = (bank s.cores[c]).armedTiles)) ∧
  (∀ (c : Fin 8) (i : Fin 32) (v : W32) (s : State), cpRuns s c = true →
    let old := s.cores[c].tmSlots[i].dw
    let w := armWrite (dwAt old 0) v.toNat 0x7F0001 (s.cores[c].tmQueue.contains i)
    let d := setDw old 0 w
    let st := tmCheck s c (tmDesc d)
    (bitOf (dwAt old 0) 0 = true → exec (.tmDescArm c i v) s = .next s) ∧
    (bitOf (dwAt old 0) 0 = false → bitOf w 0 = true → st = 0 → exec (.tmDescArm c i v) s =
      .next (onTm (onCore s c fun k => { k with tmQueue := addOnce k.tmQueue i }) c i fun x =>
        { x with dw := setDw d 0 (setField w 15 8 0), inTile := accepting s.cores[c] })) ∧
    (bitOf (dwAt old 0) 0 = false → bitOf w 0 = true → st ≠ 0 → ∃ t, exec (.tmDescArm c i v) s = .next t ∧ CoreOnly s t c ∧
      t.cores[c].tmQueue = addOnce s.cores[c].tmQueue i ∧
      t.cores[c].tmSlots[i].dw = setDw d 0 (setField (endDw0 w faultBit) 15 8 st)) ∧
    (bitOf (dwAt old 0) 0 = false → bitOf w 0 = false → ∃ t, exec (.tmDescArm c i v) s = .next t ∧ CoreOnly s t c ∧
      t.cores[c].tmSlots[i] = { s.cores[c].tmSlots[i] with dw := d } ∧ t.cores[c].tmQueue = s.cores[c].tmQueue))

/-- TILE_OPEN, TILE_CLOSE, TILE_COMPLETE and TILE_BUDGET_EXCEEDED (R74, R84 to R88, Table 9-6). -/
def Obligations.WorkTilesOpenAndEnd : Prop :=
  (∀ (c : Fin 8) (i : Fin 2) (s : State), nextTile s c = some i →
    let x := (bank s.cores[c]).tileSlots[i]
    let r := x.ins.foldl (fun a t => rescan a c none t) s
    ceilingHolds s c (tileDesc x.dw).cost = false → openReady r c i = true →
    ∃ t, exec (.tileOpen c) s = .next t ∧ t.cores[c].tileSeq = r.cores[c].tileSeq + 1 ∧
      t.cores[c].tile.map (·.slot) = some i.val ∧ t.mem = r.mem ∧
      ∀ o ∈ (bank r.cores[c]).tileSlots[i].outs, (dirOf t o).state = tdPending) ∧
  (∀ (c : Fin 8) (i : Fin 2) (w : OpenTile) (s : State), cpRuns s c = true → s.cores[c].tile = some w → w.slot = i.val →
    ∃ t, exec (.tileClose c i) s = .next t ∧ CoreOnly s t c ∧ t.cores[c].tile = some { w with closed := true }) ∧
  (∀ (c : Fin 8) (w : OpenTile) (s : State), tileDone s.cores[c] = true → s.cores[c].tile = some w →
    let u := tileEnds s c w
    exec (.tileComplete c) s = .next (settle (afterTile u c)) ∧ u.cores[c].tile = none ∧
      u.cores[c].releasing = s.cores[c].releasing ++ w.deferred ++ w.overflow.toList ∧
      ∀ o ∈ tileOuts s c, (dirOf u o).state = tdDirty) ∧
  (∀ (c : Fin 8) (s : State), overBudget s c = true →
    let u := (issuedMe s.cores[c]).foldl (fun a i => drainSlot a c i) s
    exec (.tileBudgetExceeded c) s = .next (settle (endProgram u c 1 Code.budgetExhausted (u.cores[c].tileSeq.toNat % 2 ^ 32) []))) ∧
  (∀ (c : Fin 8) (st : Nat) (s : State), (endTile s c st).cores[c].tile = none ∧
    (s.cores[c].tile.isSome = true → ∀ o ∈ tileOuts s c, (dirOf (endTile s c st) o).state = tdInvalid))

/-- TM_COPY_COMPLETE and CONTROL_PROCESSOR_STORE (R93, R94, R87, R214): the tiles of the head descriptor are copied; a
store into a data tile writes its bytes, those of each word as one narrow write, and the tile is DIRTY with a stale record; a
64-byte store into the pool writes whole words. -/
def Obligations.TilesAreCopiedAndStored : Prop :=
  (∀ (c : Fin 8) (i : Fin 32) (s : State), tmHead s.cores[c] = some i →
    let d := tmDesc s.cores[c].tmSlots[i].dw
    moverHeld s.cores[c] d = false → ∀ u ok, copied s c d = (u, ok) →
    ∃ t, exec (.tmCopyComplete c) s = .next t ∧ i.val ∉ t.cores[c].tmQueue ∧ t.cores[c].tmSlots[i].inTile = false ∧
      t.mem = u.mem ∧ t.chk = u.chk ∧ (ok = true → t.tileDir = u.tileDir) ∧
      (ok = false → isPool (tmDst c d) = false → tmDst c d < 2 ^ 42 → ∀ j, j < d.count →
        (dirOf t (tileNo (tmDst c d) + j)).state = tdInvalid)) ∧
  (∀ (c : Fin 8) (a p : Nat) (b : Bytes) (s u : State), b.length = 1 ∨ b.length = 2 ∨ b.length = 4 ∨ b.length = 8 →
    cpRuns s c = true → physOf c a = some p → isPool p = false → storeOk s c (tileNo p) = true →
    tileNo p = tileNo (p + b.length - 1) → forbids s (some c) true p b.length = false →
    let n := min b.length (32 - p % 32)
    writeMem s p (b.take n) (tagOn s c) = (u, none) →
    let v := storedTile u c (tileNo p) none
    v.mem = u.mem ∧ v.chk = u.chk ∧
    ((tileOuts u c).contains (tileNo p) = false → (dirOf v (tileNo p)).state = tdDirty ∧ (recOf v (tileNo p)).stale = true) ∧
    (b.length ≤ n → exec (.controlProcessorStore c a b) s = .next v) ∧
    (n < b.length → ∀ t, writeMem v (p + n) (b.drop n) (tagOn v c) = (t, none) →
      exec (.controlProcessorStore c a b) s = .next t)) ∧
  (∀ (c : Fin 8) (a p : Nat) (b : Bytes) (s : State), b.length = 64 → cpRuns s c = true → physOf c a = some p →
    isPool p = true → a % 64 = 0 → poolGranted s (ownerOn s c) p 64 = true → s.cores[c].tile = none →
    forbids s (some c) true p 64 = false →
    let x := poolForWrite s (some c) p
    exec (.controlProcessorStore c a b) s =
      .next (setStale (chargeOn (writeMem x.1 x.2 b (tagOn x.1 c)).1 c fPoolWr 64) (tileNo x.2)))

/-- MBOX_IN_POP, MBOX_OUT_PUSH, CORE_DB_OUT, FIRMWARE_MBOX_POST and CP_ACCESS_FAULT (R87, R95 to R97, R109): an access by a load of the control processor that fails, or
by one of the vector unit that its program may not make, ends the program. -/
def Obligations.MailboxesAreFifos : Prop :=
  (∀ (c : Fin 8) (s : State), cpRuns s c = true → (bank s.cores[c]).mboxIn ≠ [] →
    ∃ t, exec (.mboxInPop c) s = .next t ∧ CoreOnly s t c ∧
      (bank t.cores[c]).mboxIn ++ (bank t.cores[c]).mboxInHeld =
        ((bank s.cores[c]).mboxIn ++ (bank s.cores[c]).mboxInHeld).drop 1 ∧
      ((bank s.cores[c]).mboxIn.length ≤ 64 → (bank t.cores[c]).mboxIn.length ≤ 64)) ∧
  (∀ (c : Fin 8) (s : State), cpRuns s c = true →
    let e := (bank s.cores[c]).mboxOutReg
    entryType e = 0x0101 ∨ entryType e = 0x0102 ∨ entryType e = 0x0103 → entryLen e ≤ 56 →
    (∀ w, s.cores[c].tile = some w → w.deferred.length < 16 → ∃ t, exec (.mboxOutPush c) s = .next t ∧ CoreOnly s t c ∧
      t.cores[c].tile = some { w with deferred := w.deferred ++ [.push e] }) ∧
    (s.cores[c].tile = none → s.cores[c].releasing = [] → (bank s.cores[c]).mboxOut.length < 64 →
      ∃ t, exec (.mboxOutPush c) s = .next t ∧ CoreOnly s t c ∧ (bank t.cores[c]).mboxOut = (bank s.cores[c]).mboxOut ++ [e])) ∧
  (∀ (c : Fin 8) (s : State), cpRuns s c = true → s.cores[c].tile = none → s.cores[c].releasing = [] →
    (bank s.cores[c]).mboxOut = [] → s.cores[c].left = [] → ∃ t, exec (.coreDbOut c) s = .next (settle t) ∧ CoreOnly s t c ∧
      t.cores[c].dbOut = s.cores[c].dbOut + 1) ∧
  (∀ (c : Fin 8) (e : List W32) (s : State), e.length = 16 → entryType e = 1 ∨ entryType e = 3 → entryLen e ≤ 56 →
    let h := Bytes.le (entryPayload e) 0 8
    bankHas (otherBank s.cores[c]) h = false ∨ bankHas (bank s.cores[c]) h = true →
    ∃ t, exec (.firmwareMboxPost c e) s = .next t ∧ CoreOnly s t c ∧
      (bank t.cores[c]).mboxIn ++ (bank t.cores[c]).mboxInHeld =
        (bank s.cores[c]).mboxIn ++ (bank s.cores[c]).mboxInHeld ++ [e] ∧ bitOf t.cores[c].evt.toNat 1 = true) ∧
  (∀ (c : Fin 8) (a : Nat) (s u : State), cpRuns s c = true → (progOn s c).isSome = true → cpLoads s c a = (u, false) →
    exec (.cpAccessFault c ⟨a, false⟩) s = .next (settle (endProgram u c 0x12 Code.accessDenied (a % 2 ^ 32) []))) ∧
  (∀ (c : Fin 8) (a : Nat) (s : State), cpRuns s c = true → (progOn s c).isSome = true →
    (∀ p, physOf c a = some p → mayRead s c p 4096 = false) →
    exec (.cpAccessFault c ⟨a, true⟩) s = .next (settle (endProgram s c 0x12 Code.accessDenied (a % 2 ^ 32) [])))

/-- VECTOR_ELEMENTWISE and VECTOR_FUNCTION (R43, R81): the elements of the sources, one by one, in the destination register,
the same result for the same operands in every lane; nothing but registers, counters and records changes. -/
def Obligations.VectorArithmetic : Prop :=
  (∀ (c : Fin 8) (op : VOp) (fmt : BitVec 4) (vd va vb vc : Fin 32) (osat : Bool) (s : State),
    VecGoes s c (elemCycles fmt.toNat) → elemOk op fmt.toNat = true →
    (∀ d rows, op = .quantToken d rows → tokenRows s c rows = true) →
    ∃ t, exec (.vectorElementwise c ⟨op, osat⟩ fmt vd va vb vc) s = .next t ∧ VecOnly s t c) ∧
  (∀ (c : Fin 8) (op : VOp) (fmt : BitVec 4) (vd va vb vc : Fin 32) (osat : Bool) (s : State),
    VecGoes s c (elemCycles fmt.toNat) → elemOk op fmt.toNat = true →
    let b := bank s.cores[c]
    let x (r : Fin 32) : List Num.Val := vVals b fmt.toNat (vLanes fmt.toNat) r
    ∀ f : Num.Val → Num.Val → Num.Val → Num.Val, (op = .add ∧ f = fun x y _ => addVal x y) ∨ (op = .sub ∧ f = fun x y _ => addVal x (negVal y)) ∨
      (op = .mul ∧ f = fun x y _ => Num.mulVal x y) ∨ (op = .fma ∧ f = fun x y z => addVal (Num.mulVal x y) z) ∨
      (op = .neg ∧ f = fun x _ _ => negVal x) ∨ (op = .abs ∧ f = fun x _ _ => absVal x) →
    ∃ t, exec (.vectorElementwise c ⟨op, osat⟩ fmt vd va vb vc) s = .next t ∧ VecOnly s t c ∧
      bank t.cores[c] = vPutBytes b vd (Num.pack fmt.toNat (((x va).zip ((x vb).zip (x vc))).map fun p =>
        (Num.convert fmt.toNat 0 0 osat (f p.1 p.2.1 p.2.2)).code))) ∧
  (∀ (c : Fin 8) (op : VOp) (fmt : BitVec 4) (vd va vb vc : Fin 32) (osat : Bool) (s : State),
    VecGoes s c (elemCycles fmt.toNat) → elemOk op fmt.toNat = true → op = .max ∨ op = .min →
    let b := bank s.cores[c]
    let x (r : Fin 32) : List Nat := vCodes b fmt.toNat (vLanes fmt.toNat) r
    ∃ (g : Nat → Nat → Nat) (t : State), exec (.vectorElementwise c ⟨op, osat⟩ fmt vd va vb vc) s = .next t ∧ VecOnly s t c ∧
      bank t.cores[c] = vPutBytes b vd (Num.pack fmt.toNat (((x va).zip ((x vb).zip (x vc))).map fun p => g p.1 p.2.1)) ∧
      ∀ i j, let y := Num.dec fmt.toNat i
        let z := Num.dec fmt.toNat j
        y ≠ .nan → z ≠ .nan → g i j = (Num.convert fmt.toNat 0 0 osat
          (if op = .max then (if ltVal y z then z else y) else (if ltVal z y then z else y))).code) ∧
  (∀ (c : Fin 8) (op : VFn) (vd va : Fin 32) (osat : Bool) (s : State), VecGoes s c 4 →
    let b := bank s.cores[c]
    ∃ (g : Nat → Nat) (t : State), exec (.vectorFunction c ⟨op, osat⟩ vd va) s = .next t ∧ VecOnly s t c ∧
      bank t.cores[c] = vPutBytes b vd (Num.pack 9 ((vCodes b 9 1024 va).map g)) ∧
      ∀ i r, fnVal op (Num.dec 9 i) = some r → g i = (satInf osat r).code)

/-- VECTOR_REDUCTION and VECTOR_STORE (R31, R81, R214, R221).
VECTOR_STOCHASTIC_CONVERT, VECTOR_BERNOULLI_MASK and VECTOR_RAW_DRAW (R42, R195, R200 to R202): every draw is a
function of the seed, the stream, the element and the draw number. -/
def Obligations.VectorReductionsStoresAndDraws : Prop :=
  ((∀ (c : Fin 8) (op : VRed) (fmt : BitVec 4) (vd va vb : Fin 32) (osat : Bool) (s : State), VecGoes s c 1 →
    fmt = 7 ∨ fmt = 8 ∨ fmt = 9 ∨ fmt = 10 →
    let b := bank s.cores[c]
    let x (r : Fin 32) : List Num.Val := vVals b fmt.toNat (vLanes fmt.toNat) r
    ∃ t, exec (.vectorReduction c op fmt vd va vb osat) s = .next t ∧ VecOnly s t c ∧
      (op = .dot → bank t.cores[c] = vPutBytes b vd (Num.pack (redFmt fmt.toNat)
        [(Num.roundRec (reduceRec fmt.toNat (x va) (x vb)) (redFmt fmt.toNat) 0 0 osat 1 1).code])) ∧
      (op = .sum → bank t.cores[c] = vPutBytes b vd (Num.pack (redFmt fmt.toNat)
        [(Num.roundRec (reduceRec fmt.toNat (x va) ((x va).map fun _ => .fin 1 0)) (redFmt fmt.toNat) 0 0 osat 1 1).code])) ∧
      (op = .max → ∀ m, extreme ltVal (x va) = some m →
        bank t.cores[c] = vPutBytes b vd (Num.pack fmt.toNat [(Num.convert fmt.toNat 0 0 osat m).code]))) ∧
  (∀ (c : Fin 8) (vs : Fin 32) (addr p : Nat) (fmt : BitVec 4) (s : State), VecGoes s c 1 →
    let v := vecCharged s c 1
    physOf c addr = some p → addr % 32 = 0 → fmt.toNat ≤ 10 → inTiles p = true → tileNo p = tileNo (p + 4095) →
    storeOk v c (tileNo p) = true → forbids v (some c) true p 4096 = false →
    ∃ t, exec (.vectorStore c vs addr fmt) s = .next t ∧
      t.mem = (writeMem v p ((bank v.cores[c]).vregs.gets 0 (vs.val * 4096) 4096) (tagOn v c)).1.mem ∧
      ((tileOuts v c).contains (tileNo p) = false → (dirOf t (tileNo p)).state = tdDirty))) ∧
  ((∀ (c : Fin 8) (dst : BitVec 4) (vd va : Fin 32) (stream : W32) (base : W64) (osat : Bool) (s : State), VecGoes s c 4 →
    dst.toNat ≤ 10 →
    let b := bank s.cores[c]
    let vs := vVals b 9 (min 1024 (vLanes dst.toNat)) va
    ∃ t, exec (.vectorStochasticConvert c dst vd va stream base osat) s = .next t ∧ VecOnly s t c ∧
      bank t.cores[c] = vPutBytes b vd (Num.pack dst.toNat ((List.range vs.length).map fun i =>
        (Num.convert dst.toNat 2 (Rand.val16 (Rand.block (seedOn s c) stream (base + BitVec.ofNat 64 i).toNat b.cgDraw) 0) osat
          (vs.getD i .nan)).code))) ∧
  (∀ (c : Fin 8) (vd : Fin 32) (stream : W32) (base : W64) (draw : W32) (k : Nat) (s : State), VecGoes s c 16 → k ≤ 65536 →
    ∃ t, exec (.vectorBernoulliMask c vd stream base draw k) s = .next t ∧ VecOnly s t c ∧
      bank t.cores[c] = vPutBytes (bank s.cores[c]) vd ((List.range 4096).map fun i =>
        BitVec.ofNat 8 (sumNat ((List.range 8).map fun j =>
          bitIf (Rand.maskBit (seedOn s c) stream (base + BitVec.ofNat 64 (8 * i + j)).toNat draw k) j)))) ∧
  (∀ (c : Fin 8) (vd : Fin 32) (stream : W32) (base : W64) (draw : W32) (s : State), VecGoes s c 1 →
    ∃ t, exec (.vectorRawDraw c vd stream base draw) s = .next t ∧ VecOnly s t c ∧
      bank t.cores[c] = vPutBytes (bank s.cores[c]) vd ((List.range 256).flatMap fun i =>
        (Rand.block (seedOn s c) stream (base + BitVec.ofNat 64 i).toNat draw).flatMap (toLe 4))))

/-- LAMP_DISPATCH and LAMP_CONTEXT_START (R103): a dispatch starts a context in the lowest free slot of its class, or
waits in the cluster's queue, or stalls its sender; a core's dispatch goes out under the core's account and seed, and an open
tile defers it.
LAMP_INSTRUCTION_ISSUE, LAMP_DATA_ARRIVE and LAMP_CONTEXT_END (R98 to R102, R215). -/
def Obligations.LampContextsStartAndRun : Prop :=
  ((∀ (ch : Fin 48) (d : LampDispatch) (s : State), d.dw.length = 16 → d.core = none →
    let h := servedBy s ch
    let u := chargeLink s d.account none 64
    let k := u.clusters[h]
    let cls := (lampFields d.dw).cls
    ((k.queue.any fun q => (lampFields q.dw).cls == cls) = false → ∀ i, ctxSlot u k cls = some i →
      exec (.lampDispatch ch d) s = .next (startCtx u h d i) ∧
      ((startCtx u h d i).clusters[h].ctxs.get? i).map (·.account) = some (BitVec.ofNat 16 d.account)) ∧
    ((k.queue.any fun q => (lampFields q.dw).cls == cls) = true ∨ ctxSlot u k cls = none →
      ∃ t, exec (.lampDispatch ch d) s = .next t ∧ t = { u with clusters := t.clusters } ∧
        (k.queue.length < 256 → t.clusters[h].queue = k.queue ++ [d]) ∧
        (256 ≤ k.queue.length → t.clusters[h].stalledSenders = k.stalledSenders ++ [d]))) ∧
  (∀ (ch : Fin 48) (d : LampDispatch) (c : Fin 8) (w : OpenTile) (s : State), d.dw.length = 16 → d.core = some c →
    cpRuns s c = true → ownKernel s c (lampFields d.dw).kernel = true → s.cores[c].tile = some w → w.deferred.length < 16 →
    ∃ t, exec (.lampDispatch ch d) s = .next t ∧ CoreOnly s t c ∧ t.cores[c].tile = some { w with
      deferred := w.deferred ++
        [.dispatch ch { d with account := ownerOn s c, seed := seedOn s c, cmd := (progOn s c).bind (·.handle) }] }) ∧
  (∀ (ch : Fin 48) (i slot : Nat) (d : LampDispatch) (s : State), nextDispatch s s.clusters[ch] = some (i, slot) →
    s.clusters[ch].queue[i]? = some d →
    ∃ u, exec (.lampContextStart ch) s = .next (releaseCores (startCtx u ch d slot)) ∧
      u.clusters[ch].queue = s.clusters[ch].queue.eraseIdx i ++ s.clusters[ch].stalledSenders.take 1 ∧
      u = { s with clusters := u.clusters })) ∧
  ((∀ (ch : Fin 48) (i : LampInsn) (slot : Nat) (k : Cluster) (s : State), chooseCtx s s.clusters[ch] = some (slot, k) →
    let x := k.ctxs.getD slot {}
    ∀ u y o, lampStep s k x i = (u, y, o) → ∃ t, exec (.lampInstructionIssue ch i) s = .next t ∧
      t.clusters[ch].ctxs.get? slot = some y ∧ t.mem = u.mem ∧
      (pcOk s x = true → (fetchInsn s x).2 = true → ∀ rd w, aluOf x i = some (rd, w) → y = stepPc (setX x rd w) 4)) ∧
  (∀ (ch : Fin 48) (slot : Fin 512) (r : LampReply) (x : Ctx) (q : LampReq) (s : State),
    s.clusters[ch].ctxs.get? slot = some x → r ≠ .unitFree → x.wait.find? (answers r) = some q →
    ∃ t, exec (.lampDataArrive ch slot r) s = .next t ∧
      (t.clusters[ch].ctxs.get? slot).map (·.outstanding) = some (x.outstanding - 1) ∧
      (x.state = cxFault ∨ x.state = cxDone →
        (t.clusters[ch].ctxs.get? slot).map (·.state) = some x.state ∧ t.mem = s.mem) ∧
      (x.state ≠ cxFault → x.state ≠ cxDone →
        (r = .flashFailed → (t.clusters[ch].ctxs.get? slot).map (·.faultCode) = some 6) ∧
        (∀ ns a d u, r = .flashPage → q = .flash ns a d →
          locPut (charge s x.account.toNat none fFlashRd 16384) x d (readMedia s ns a (min (1024 - d) (16384 - a % 16384))) =
            (u, none) → t.mem = u.mem ∧ t.chk = u.chk) ∧
        (∀ a d b v u, r = .poolRead → q = .pool a d →
          readMem s (poolAt s x.core (wordAt a)) 32 (tagOf s x.account.toNat) = (v, .ok b) →
          locPut (chargePool v x.account.toNat fPoolRd 32) x d b = (u, none) → t.mem = u.mem ∧ t.chk = u.chk))) ∧
  (∀ (ch : Fin 48) (slot : Fin 512) (x : Ctx) (n : Nat) (s : State), s.clusters[ch].ctxs.get? slot = some x →
    unitHolding s.clusters[ch] slot = some n → (s.clusters[ch].units.getD n []).head? = some slot.val →
    ∃ t, exec (.lampDataArrive ch slot .unitFree) s = .next t ∧
      t.clusters[ch].units.getD n [] = (s.clusters[ch].units.getD n []).drop 1 ∧ t.mem = s.mem) ∧
  (∀ (ch : Fin 48) (slot : Fin 512) (x : Ctx) (s : State), s.clusters[ch].ctxs.get? slot = some x →
    x.state = cxDone ∨ x.state = cxFault → x.posted = false → x.faultCode ≠ 3 →
    (x.core = none → x.cmd = none ∨ x.state = cxDone) →
    ∃ u, u = { s with clusters := u.clusters } ∧
      (x.outstanding = 0 → ∃ t, exec (.lampContextEnd ch slot) s = .next t ∧ t.clusters[ch].ctxs.get? slot = none ∧
        t.mem = (postRecord u x).mem ∧ t.cores = (postRecord u x).cores) ∧
      (x.outstanding ≠ 0 → exec (.lampContextEnd ch slot) s = .next (postRecord u x) ∧
        (u.clusters[ch].ctxs.get? slot).map (·.posted) = some true)))

/-- PARTIAL_MERGE (R40, R73, R442): records of one MODE and ANCHOR merge; others end the merge. -/
def Obligations.PartialRecordsMerge : Prop :=
  ∀ (key : CmdKey) (unit : Nat) (core : Option (Fin 8)) (b : Bytes) (s : State), b.length = 24 →
    (flightOf s key).isSome = true →
    let r := Num.recOfBytes b
    (s.merges.find? (·.1 == key) = none →
      exec (.partialMerge key unit core b) s = .next { s with merges := s.merges ++ [(key, r)] }) ∧
    (∀ k old, s.merges.find? (·.1 == key) = some (k, old) →
      (Num.mergeable old r = true → exec (.partialMerge key unit core b) s =
        .next { s with merges := s.merges.map fun m => if m.1 == key then (key, Num.merge old r) else m }) ∧
      (Num.mergeable old r = false →
        let u := { s with merges := s.merges.filter (·.1 != key) }
        (∀ c, core = some c → exec (.partialMerge key unit core b) s = .next (settle (abandonTile u c 0x11 0x11 []))) ∧
        (core = none → ∃ v, exec (.partialMerge key unit core b) s = .next (settle (cancelWith v key Code.internalError)) ∧
          v.health.nextSeq = s.health.nextSeq + 1)))

/-- SESSION_OPEN, SESSION_CLOSE, SESSION_MOVE_RESIDENCY and SESSION_EXPORT (R230, R232, R297, R299, R300). -/
def Obligations.SessionsOpenMoveAndClose : Prop :=
  (∀ (e : Sqe) (i : Nat) (s : State), Served s e 0xC1 true →
    let v := begin_ s e 0xC1
    let p := openP (Bytes.sub e.inp 0 64)
    openRefuse v e p = none → v.health.readOnly = false → p.imp = false → openReserve v e p.cls = false →
    keyOpen v (acctOf e.fn) = true → overQuota v (acctOf e.fn) (openBytes p.layers) = false →
    (freeSlots v = 0 → exec (.sessionOpen e) s = .next (holdJob v e 0xC1)) ∧
    (freeSlots v ≠ 0 → v.sess.firstFree 0 sessionSlots = some i → syncMode v = false →
    ∃ u x, exec (.sessionOpen e) s = .next (complete u e.key Code.ok (i + 65536 * x.homeDie.val) 0) ∧
      u.sess.get? i = some x ∧ x.state = sessOpen ∧ x.account = acctOf e.fn ∧ x.kvNsid = e.nsid ∧
      x.seed = BitVec.ofNat 64 p.seed ∧ x.layers = p.layers ∧ x.cls = BitVec.ofNat 2 p.cls ∧ x.inflight = 0 ∧ x.res ≠ resHot ∧
      (∀ a, a < sessCopies 0 → u.mem.get 0 a = v.mem.get 0 a))) ∧
  (∀ (e : Sqe) (x : Sess) (s : State), Served s e 0xC4 true →
    let v := classFor (begin_ s e 0xC4) e (cdw10Lo e)
    e.fuse = 0 → sessFor v e.fn (cdw10Lo e) = some x →
    (x.pendingMove.isSome = true ∨ x.inflight ≠ 0 → exec (.sessionClose e) s = .next (fail v e.key Code.sessionBusy)) ∧
    (x.pendingMove = none → x.inflight = 0 → keyOpen v x.account = true → freeSlots v ≠ 0 → syncMode v = false →
      ∃ u, exec (.sessionClose e) s = .next (complete u e.key Code.ok 0 0) ∧ u.sess.get? (cdw10Lo e) = none ∧
        u.accounts[acctIx x.account].closedRecs =
          (closedRecord v (cdw10Lo e) x :: v.accounts[acctIx x.account].closedRecs).take 256)) ∧
  (∀ (e : Sqe) (x : Sess) (s : State), Served s e 0x90 false →
    let i := cdw12Lo e
    let v := classFor (begin_ s e 0x90) e i
    fieldOf e.cdw13.toNat 1 0 = 0 → moveRefuse v e = none → v.sess.get? i = some x → x.pendingMove = none →
    ¬(x.cls = 0 ∧ BitVec.ofNat 2 (fieldOf e.cdw13.toNat 5 4) = resHot ∧ c0Sess v ≤ hotC0 v i) →
    keyOpen v x.account = true →
    (x.inflight ≠ 0 ∨ freeSlots v = 0 → ∃ u m, exec (.sessionMoveResidency e) s = .next (settle u) ∧
      u.sess.get? i = some { x with state := sessMoving, pendingMove := some m } ∧ m.key = e.key ∧
      m.res = BitVec.ofNat 2 (fieldOf e.cdw13.toNat 5 4)) ∧
    (x.inflight = 0 → freeSlots v ≠ 0 → fieldOf e.cdw13.toNat 5 4 = 2 → syncMode v = false → ∃ u y, exec (.sessionMoveResidency e) s =
      .next (settle (complete u e.key Code.ok 2 0)) ∧ u.sess.get? i = some y ∧ y.res = resCold ∧ y.state = sessOpen ∧
      y.grant = 0 ∧ y.pin = bitOf e.cdw13.toNat 6)) ∧
  (∀ (e : Sqe) (x : Sess) (n : Ns) (s : State), Served s e 0x90 false →
    let i := cdw12Lo e
    let v := classFor (begin_ s e 0x90) e i
    let slba := e.cdw14.toNat + 2 ^ 32 * e.cdw15.toNat
    fieldOf e.cdw13.toNat 1 0 = 1 → moveRefuse v e = none → v.sess.get? i = some x → nsFor v e.fn e.nsid = some n →
    n.role = .plain → x.pendingMove = none → keyOpen v x.account = true → v.health.readOnly = false →
    slba + exportBlocks (bodyLen (bodyTiles x) x.extents.length) ≤ n.nsze → x.inflight ≠ 0 →
    ∃ u m, exec (.sessionExport e) s = .next (settle u) ∧
      u.sess.get? i = some { x with state := sessMoving, pendingMove := some m } ∧ m.key = e.key ∧ m.export_ = true ∧
      m.nsid = e.nsid ∧ m.slba = slba)

/-- FLIGHT_LOG_GET, its four selectors (R305): bytes of the object from an offset, zero beyond its end; DW0 says how
many of its bytes follow the offset. -/
def Obligations.FlightLogGetReturnsBytes : Prop :=
  ∀ (e : Sqe) (s : State), Served s e 0xCA true →
    let v := begin_ s e 0xCA
    let len := e.cdw11.toNat
    let off := e.cdw12.toNat + 2 ^ 32 * e.cdw13.toNat
    let out (b : Bytes) : Host.Outcome State Fault Refusal :=
      .next (complete (hostWrite v e.key 0 (Bytes.sub b off len)) e.key Code.ok (min (b.length - off) (2 ^ 32 - 1)) 0)
    e.fuse = 0 → len ≤ e.dptr → len % 4 = 0 →
    (cdw10Op e = 0 → ∀ x, sessFor v e.fn (cdw10Hi e) = some x → keyOpen v x.account = true →
      exec (.flightLogGetSessionLog e) s = out (flightLogBytes (cdw10Hi e) x)) ∧
    (cdw10Op e = 1 →
      exec (.flightLogGetClosedRecords e) s = out (v.accounts[acctIx (acctOf e.fn)].closedRecs.flatMap id)) ∧
    (cdw10Op e = 2 → ∀ t, tableFor v e.fn (cdw10Hi e) = some t →
      exec (.flightLogGetStepReports e) s = out (t.reports.flatMap reportBytes)) ∧
    (cdw10Op e = 3 → ∀ p, v.accounts[acctIx (acctOf e.fn)].probes.find? (·.1 == cdw10Hi e) = some p →
      exec (.flightLogGetProbeReport e) s = out p.2)

/-- REPLAY of a GATHER (R182, R458 to R460): the logged bags are gathered again from the recorded generation and compared
with the logged output, where the bytes of R460 count as zero. -/
def Obligations.ReplayComparesALoggedGather : Prop :=
  ∀ (e : Sqe) (x : Sess) (f : FlightEntry) (t : Table) (s : State), Served s e 0x93 false →
    let v := begin_ s e 0x93
    let p := gatherP f.inp
    let g := gatherRun t f.gen.toNat p f.inp
    let rc := gatherRecord f.gen.toNat g.2.1 0 g.1.length
    replayRefuse v e = none → v.sess.get? (cdw12Lo e) = some x → replayEntry x e = some f → moveHolds x = false →
    f.opc = 0x8B → v.tables.get? p.table = some t → replayMode e = 0 →
    (readRows p.table t f.gen.toNat (nameSession v e.key (cdw12Lo e)) (Bytes.les f.inp 64 4 p.nidx)).2 = true →
    (replayMask 0x8B (rc ++ g.1) = replayMask 0x8B f.out → ∃ u, exec (.replay e) s =
      .next (settle (complete u e.key Code.ok 0 0)) ∧ counter u 0x615006 = satAdd 64 (counter v 0x615006) 1) ∧
    (replayMask 0x8B (rc ++ g.1) ≠ replayMask 0x8B f.out → ∃ u d, exec (.replay e) s =
      .next (settle (failDw0 u e.key Code.replayMismatch d)) ∧ counter u 0x615007 = satAdd 64 (counter v 0x615007) 1)

/-- ATTEND and ATTEND_MERGE_COMPLETE (R119, R120, R126, R129 to R132, R230): a command whose checks passed is in progress with
the view of its fetch, or waits behind a SESSION-MOVE and holds the layer it appends to; its merge writes the record and
the output vectors, which are a function of the stored tokens and the command. -/
def Obligations.AttendRunsAndMerges : Prop :=
  (∀ (e : Sqe) (x : Sess) (s : State), Served s e 0x83 false →
    let v := begin_ s e 0x83
    let p := attendP (inRegion e)
    (∀ c, attendRefuse v e p false = some c → exec (.attend e) s = .next (fail v e.key c e.nsid)) ∧
    (attendRefuse v e p false = none → v.sess.get? (cdw12Lo e) = some x →
      (moveHolds x = true → ∃ u, exec (.attend e) s = .next u ∧ u.attends = v.attends ∧
        u.held = v.held ++ [{ e := e, opc := 0x83, readDone := false, waited := true }] ∧
        u.sess.get? (cdw12Lo e) =
          some (if p.append then { x with layerTbl := x.layerTbl.upd p.layer {} fun l => { l with busy := true } } else x)) ∧
      (moveHolds x = false → exec (.attend e) s = .next (attendStart v e p)))) ∧
  (∀ (e : Sqe) (x : Sess) (s : State), s.sess.get? (cdw12Lo e) = some x →
    let p := attendP (inRegion e)
    onCanopy s e.key x p = false → (∀ u, (entryOf s x.kvNsid u).st ≠ .unrecovered) →
    ∃ j, (attendStart s e p).attends = s.attends ++ [j] ∧ j.e = e ∧ j.p = p ∧ j.place = false ∧
      j.view = (layerAtFetch s e.key x p.layer).count.toNat + (if p.append then p.qtok else 0) ∧
      (p.append = true → ∃ y, (attendStart s e p).sess.get? (cdw12Lo e) = some y ∧ (y.layerTbl.getD p.layer {}).busy = true)) ∧
  (∀ (key : CmdKey) (j : AttendJob) (x : Sess) (s : State), s.attends.find? (fun j => j.e.key == key) = some j →
    s.sess.get? j.session = some x → badUnit s x.kvNsid (blocksRead x j) = none → j.p.append = false → x.cls ≠ 0 →
    let vs := attendAll s x j
    let data := attendData j vs
    ∃ u, exec (.attendMergeComplete key) s = .next (settle (complete u key Code.ok (vs.filter (·.empty)).length
        ((attendFlags vs false).word % 256 + (if j.place then 256 else 0)))) ∧
      u.hostWrites = { cmd := key, offset := outOff j.e, bytes := attendRecord j vs data false ++ data } :: s.hostWrites ∧
      (∀ k ∈ u.attends, k.e.key ≠ key)) ∧
  (∀ (key : CmdKey) (j : AttendJob) (x : Sess) (u : Nat) (s : State), s.attends.find? (fun j => j.e.key == key) = some j →
    s.sess.get? j.session = some x → badUnit s x.kvNsid (blocksRead x j) = some u →
    ∃ v, exec (.attendMergeComplete key) s = .next (settle (fail v key Code.unrecoveredRead x.kvNsid (4 * u))) ∧
      v.hostWrites = s.hostWrites ∧ (∀ k ∈ v.attends, k.e.key ≠ key))

/-- SEARCH_QUERY and SEARCH_SCAN (R147, R148, R159 to R164): a query takes a slot of its index or waits for one, with the
generation pinned at its fetch; a scan returns the records that the predicate accepts, in order.
SEARCH_ROUND_MERGED, SEARCH_REPLY_MERGE and SEARCH_TIME_BUDGET_EXPIRY (R149, R150, R154 to R156, R164). -/
def Obligations.SearchesAreTakenAndMerged : Prop :=
  ((∀ (e : Sqe) (x : Index) (s : State), Served s e 0x87 false →
    let v := begin_ s e 0x87
    let p := searchP (inRegion e)
    let q := mkQuery x e p ((queryGen v e p x).getD x.cur)
    let u := onFlight { v with queryWait := v.queryWait ++ [q] } e.key fun f => { f with gens := [] }
    p.mode ≠ 2 →
    (∀ c d, queryRefuse v e p = some (c, d) → exec (.searchQuery e) s = .next (failDw0 v e.key c d)) ∧
    (queryRefuse v e p = none → indexFor v e.fn p.index = some x →
      (exec (.searchQuery e) s = .next (admitQueries u (v.queryWait.length + 1))) ∧
      (v.queryWait = [] → x.qslots ≤ (v.queries.filter (·.index == p.index)).length → exec (.searchQuery e) s = .next u))) ∧
  (∀ (e : Sqe) (n : Ns) (s : State), Served s e 0x87 false →
    let v := begin_ s e 0x87
    let p := searchP (inRegion e)
    let off := p.first * 2 ^ p.rsizeLog
    let len := p.count * 2 ^ p.rsizeLog
    let r := scanOut v e p e.nsid
    p.mode = 2 → vendorRefuse e = none → nsFor v e.fn e.nsid = some n → scanParamsOk n e p = true → keyOpen v n.account = true →
    unrecovered v e.nsid n off len = none →
    ∃ u, exec (.searchScan e) s = .next (complete u e.key Code.ok r.2.2.1 (r.2.2.2.word % 256)) ∧
      u.hostWrites = { cmd := e.key, offset := outOff e, bytes := r.1 ++ r.2.1 } :: v.hostWrites ∧ u.mem = v.mem)) ∧
  ((∀ (key : CmdKey) (q : Query) (x : Index) (s : State), runningQuery s key = some (q, x) → q.p.mode = 1 → q.flying ≠ [] →
    q.flying.any (walkerWaits s key) = false →
    let v := endWalkersOf (chargeReads s q q.flying.length) q.e.key fun _ => true
    (∀ n, badNode v x q.gen q.flying = some n →
      exec (.searchRoundMerged key) s = .next (afterQuery (failQuery v q Code.unrecoveredRead x.nsid n) q.index)) ∧
    (badNode v x q.gen q.flying = none →
      (∀ b l, (readCodes q.index x v (newNeighbours x q q.flying)).2 = b :: l → ∃ u, exec (.searchRoundMerged key) s =
        .next (afterQuery (failQuery u q Code.unrecoveredRead x.nsid b.2) q.index) ∧ u.queries = s.queries) ∧
      ((readCodes q.index x v (newNeighbours x q q.flying)).2 = [] →
        (∀ r, mergeRound x q = (r, none) → ∃ u, exec (.searchRoundMerged key) s = .next (afterQuery u q.index) ∧
          u.queries = s.queries.map fun y => if y.e.key == q.e.key then r else y) ∧
        (∀ r stop, mergeRound x q = (r, some stop) → ∃ u, exec (.searchRoundMerged key) s =
          .next (afterQuery (finishQuery u x r stop) q.index) ∧ u.queries = s.queries)))) ∧
  (∀ (key : CmdKey) (n : Nat) (bad : Bool) (q : Query) (x : Index) (s : State), runningQuery s key = some (q, x) → q.p.mode = 0 →
    q.flying.contains n = true → walkerWaits s key n = false → (badNode s x q.gen [n]).isSome = bad →
    (bad = false →
      (readCodes q.index x (endWalkersOf (chargeReads s q 1) q.e.key (· == n)) (newNeighbours x q [n])).2 = []) →
    (∀ r, nextOpen x 4 (openReply x q n bad []) = (r, none) → ∃ u, exec (.searchReplyMerge key n) s =
      .next (afterQuery u q.index) ∧ u.queries = s.queries.map fun y => if y.e.key == q.e.key then r else y) ∧
    (∀ r stop, nextOpen x 4 (openReply x q n bad []) = (r, some stop) → ∃ u, exec (.searchReplyMerge key n) s =
      .next (afterQuery (finishQuery u x r stop) q.index) ∧ u.queries = s.queries)) ∧
  (∀ (key : CmdKey) (q : Query) (x : Index) (s : State), (s.queries ++ s.queryWait).find? (fun q => q.e.key == key) = some q →
    s.indexes.get? q.index = some x → q.p.mode = 0 → q.p.timeBudget ≠ 0 →
    ∃ u, exec (.searchTimeBudgetExpiry key) s = .next (afterQuery (complete u q.e.key Code.ok q.results.length
        ((queryFlags q).word % 256 + 256 * 2 + 1024 * q.widened)) q.index) ∧
      (∀ y ∈ u.queries ++ u.queryWait, y.e.key ≠ q.e.key) ∧ u.hostWrites =
        { cmd := q.e.key, offset := outOff q.e, bytes := queryRecord q 2 (queryData x q) ++ queryData x q } :: s.hostWrites))

/-- INDEX_CREATE, INDEX_INSERT, INDEX_DELETE, INDEX_COMMIT and INDEX_DESTROY (R134, R142 to R144, R302). -/
def Obligations.IndexesAreManaged : Prop :=
  (∀ (e : Sqe) (i : Nat) (s : State), Served s e 0xC9 true →
    let v := begin_ s e 0xC9
    let p := indexP (Bytes.sub e.inp 0 64)
    let x := newIndex v (acctOf e.fn) e.nsid (((v.nss.get? e.nsid).map (·.nsze)).getD 0) p
    cdw10Op e = 1 → manageRefuse e = none → e.cdw11 = 64 → indexNsOk v e = true → indexParamsOk p = true →
    keyOpen v (acctOf e.fn) = true → v.health.readOnly = false → v.indexes.firstFree 0 indexLimit = some i →
    indexBytes x ≤ regionFree v → overQuota v (acctOf e.fn) (indexBytes x) = false →
    ∃ u, exec (.indexCreate e) s = .next (complete u e.key Code.ok i 0) ∧ u.indexes.get? i = some x ∧
      (∀ j, j ≠ i → u.indexes.get? j = v.indexes.get? j) ∧ (u.nss.get? e.nsid).map (·.role) = some .index) ∧
  (∀ (e : Sqe) (x : Index) (s : State), Served s e 0xC9 true →
    let v := begin_ s e 0xC9
    let n := Bytes.le e.inp 4 4
    cdw10Op e = 2 → manageRefuse e = none → indexFor v e.fn (cdw10Hi e) = some x → insertOk x e = true →
    keyOpen v x.account = true → v.health.readOnly = false →
    ∃ u done, done ≤ n ∧ exec (.indexInsert e) s = .next (complete u e.key Code.ok done (256 * (n - done))) ∧
      (u.indexes.get? (cdw10Hi e)).map (·.gens) = some x.gens ∧
      (MemOk v → ∀ a, a < indexCopies 0 → u.mem.get 0 a = v.mem.get 0 a)) ∧
  (∀ (e : Sqe) (x : Index) (s : State), Served s e 0xC9 true →
    let v := begin_ s e 0xC9
    let n := Bytes.le e.inp 0 4
    cdw10Op e = 3 → manageRefuse e = none → indexFor v e.fn (cdw10Hi e) = some x → e.cdw11.toNat = 16 + 8 * n →
    keyOpen v x.account = true → v.health.readOnly = false →
    ∃ u done, done ≤ n ∧ exec (.indexDelete e) s = .next (complete u e.key Code.ok done (256 * (n - done))) ∧
      (u.indexes.get? (cdw10Hi e)).map (·.gens) = some x.gens ∧ u = { v with indexes := u.indexes }) ∧
  (∀ (e : Sqe) (x : Index) (s : State), Served s e 0xC9 true →
    let v := begin_ s e 0xC9
    cdw10Op e = 4 → manageRefuse e = none → indexFor v e.fn (cdw10Hi e) = some x → keyOpen v x.account = true →
    v.health.readOnly = false →
    (x.dirty = false → exec (.indexCommit e) s = .next (complete v e.key Code.ok x.cur 0)) ∧
    (x.dirty = true → freeSlots v < writeGenSlots v x (genOf x x.cur) x.pending →
      exec (.indexCommit e) s = .next (holdExec v e 0xC9 false)) ∧
    (x.dirty = true → writeGenSlots v x (genOf x x.cur) x.pending ≤ freeSlots v →
      ∃ u, exec (.indexCommit e) s = .next (complete u e.key Code.ok (x.cur + 1) 0) ∧
        (u.indexes.get? (cdw10Hi e)).map (·.cur) = some (x.cur + 1) ∧
        (u.indexes.get? (cdw10Hi e)).map (·.dirty) = some false)) ∧
  (∀ (e : Sqe) (x : Index) (s : State), Served s e 0xC9 true →
    let v := begin_ s e 0xC9
    cdw10Op e = 5 → manageRefuse e = none → indexFor v e.fn (cdw10Hi e) = some x → keyOpen v x.account = true →
    (v.ingests.any (·.index == cdw10Hi e)) = false →
    ((v.queries ++ v.queryWait).any (·.index == cdw10Hi e) = false →
      ∃ u, exec (.indexDestroy e) s = .next (complete u e.key Code.ok 0 0) ∧ u.indexes.get? (cdw10Hi e) = none) ∧
    ((v.queries ++ v.queryWait).any (·.index == cdw10Hi e) = true → ∃ u, exec (.indexDestroy e) s = .next u ∧
      u.indexes.get? (cdw10Hi e) = some { x with destroying := some e.key }))

/-- INGEST_BIND, INGEST_UNBIND, RECALL_PROBE, COMPACTION_CHUNK and GENERATION_FREE (R142, R145, R163, R167, R172).
INGEST_SEGMENT, INGEST_CHUNK_LIST and INGEST_COMMIT (R170 to R172): a segment without text deletes the chunks that
overlap it; a rejected chunk list is counted and recorded; a commit publishes. -/
def Obligations.ProbesGenerationsAndIngest : Prop :=
  ((∀ (e : Sqe) (x : Index) (s : State), Served s e 0xC9 true →
    let v := begin_ s e 0xC9
    let p := ingestP (Bytes.sub e.inp 0 64)
    cdw10Op e = 6 → manageRefuse e = none → indexFor v e.fn (cdw10Hi e) = some x → e.cdw11 = 64 → bindParamsOk v e p = true →
    v.ingests.any (·.index == cdw10Hi e) = false → keyOpen v x.account = true → v.health.readOnly = false →
    let all := if p.backfill then backfill v e.nsid else []
    exec (.ingestBind e) s = .next (complete { v with ingests := v.ingests ++
      [{ index := cdw10Hi e, srcNs := e.nsid, account := x.account, p := p, queue := all.take segmentQueue
         later := all.drop segmentQueue }] } e.key Code.ok 0 0)) ∧
  (∀ (e : Sqe) (x : Index) (g : Ingest) (s : State), Served s e 0xC9 true →
    let v := begin_ s e 0xC9
    cdw10Op e = 7 → manageRefuse e = none → indexFor v e.fn (cdw10Hi e) = some x → keyOpen v x.account = true →
    v.ingests.find? (·.index == cdw10Hi e) = some g →
    (g.current.isSome = true → exec (.ingestUnbind e) s = .next (holdExec v e 0xC9 false)) ∧
    (g.current = none → x.dirty = false → exec (.ingestUnbind e) s = .next (complete
      { v with ingests := v.ingests.filter (·.index != cdw10Hi e) } e.key Code.ok
        (g.queue.length + g.later.length) 0))) ∧
  (∀ (e : Sqe) (x : Index) (s : State), Served s e 0xC9 true →
    let v := begin_ s e 0xC9
    let gen := if (probeP e).gen = 0 then x.cur else (probeP e).gen
    cdw10Op e = 8 → manageRefuse e = none → indexFor v e.fn (cdw10Hi e) = some x → probeOk x e = true →
    (probeSource e = 1 → ((genOf x gen).nodes.any fun n => !n.2.tomb) = true) →
    ((probeP e).gen ≠ 0 → retainedGen v (cdw10Hi e) x (probeP e).gen = true) → keyOpen v x.account = true →
    badNode v x gen ((genOf x gen).nodes.map (·.1)) = none →
    let q := probeQuery x e (cdw10Hi e)
    (readRun v (cdw10Hi e) x ((List.range (probeN e)).map fun k => (wholePinned x (q k)).1)).2 = none →
    ∃ u h, exec (.recallProbe e) s = .next (complete u e.key Code.ok h 0) ∧ u.indexes = v.indexes ∧
      (∀ p ∈ v.accounts[acctIx x.account].probes, p.1 < h) ∧ u.accounts[acctIx x.account].probes =
        ((h, probeReport ((List.range (probeN e)).map fun k => probeOne x (q k) (wholePinned x (q k)).1)) ::
          v.accounts[acctIx x.account].probes).take 8) ∧
  (∀ (i c : Nat) (x : Index) (s : State), s.indexes.get? i = some x → s.health.readOnly = false →
    writeGenSlots s x {} (genOf x x.cur) ≤ freeSlots s →
    (nextChunk s x = none → exec (.compactionChunk i) s = .next s) ∧
    (nextChunk s x = some c → ∃ t, exec (.compactionChunk i) s = .next t ∧ (t.indexes.get? i).map (·.cur) = some (x.cur + 1) ∧
      (t.indexes.get? i).map (fun y => y.gens.get? (x.cur + 1)) =
        some (some (compactGraph { x with pending := genOf x x.cur } (genOf x x.cur) (65536 * c) (65536 * c + 65536))))) ∧
  (∀ s : State, ∃ t, exec .generationFree s = .next t ∧ t = { s with indexes := t.indexes, tables := t.tables } ∧
    (∀ i x, s.indexes.get? i = some x → ∃ y, t.indexes.get? i = some y ∧
      ∀ g, y.gens.get? g = if retainedGen s i x g = true then x.gens.get? g else none) ∧
    ∀ i b, s.tables.get? i = some b → ∃ y, t.tables.get? i = some y ∧ y = { b with kept := y.kept, gens := y.gens } ∧
      ∀ g, g ∈ y.kept ↔ g ∈ b.kept ∧ retainedTab s i b g = true)) ∧
  ((∀ (i : Nat) (core : Fin 8) (g : Ingest) (seg : Segment) (l : List Segment) (s : State),
    s.ingests.find? (·.index == i) = some g → g.current = none → g.queue = seg :: l → keyOpen s g.account = true →
    seg.text = false → ∃ t, exec (.ingestSegment i core) s = .next (settle t) ∧
      (∀ h, t.ingests.find? (·.index == i) = some h →
        h.queue = l ++ g.later.take 1 ∧ h.current = none ∧ h.applied = g.applied ++ [seg]) ∧
      t = { s with ingests := t.ingests, indexes := t.indexes }) ∧
  (∀ (i : Nat) (core : Fin 8) (g : Ingest) (seg : Segment) (l : List Segment) (n : Ns) (im : Image) (w : State) (c : Fin 8)
    (s : State), s.ingests.find? (·.index == i) = some g → g.current = none → g.queue = seg :: l → keyOpen s g.account = true →
    seg.text = true → s.nss.get? g.srcNs = some n →
    s.ctrls[(finOf? 128 (g.account - 1)).getD 0].programs.get? g.p.program = some im →
    unrecovered s g.srcNs n seg.offset seg.length = none → readyCore s none core false g.account im = (w, some c) →
    ∃ t p, exec (.ingestSegment i core) s = .next t ∧ (bankOf t.cores[c] false).prog = some p ∧
      p.binding = some g.index ∧ p.account = g.account) ∧
  (∀ (i : Nat) (ok : Bool) (cs : List Chunk) (g : Ingest) (x : Index) (seg : Segment) (s : State),
    s.ingests.find? (·.index == i) = some g → s.indexes.get? i = some x → g.current = some seg →
    let w := endBinding s i
    (ok = false ∨ chunksOk x seg cs = false →
      exec (.ingestChunkList i ok cs) s = .next (settle (onIngest (rejectSegment w g seg) i (segmentDone seg))) ∧
      (rejectSegment w g seg).health.nextSeq = w.health.nextSeq + 1 ∧
      counter (rejectSegment w g seg) 0x608003 = satAdd 64 (counter w 0x608003) 1) ∧
    (ok = true → chunksOk x seg cs = true →
      exec (.ingestChunkList i ok cs) s = .next (settle (onIngest (cs.foldl (applyChunk i g) w) i (segmentDone seg))))) ∧
  (∀ (i : Nat) (g : Ingest) (x : Index) (s : State), s.ingests.find? (·.index == i) = some g → s.indexes.get? i = some x →
    s.health.readOnly = false → 0 < g.sinceCommit → x.dirty = true →
    writeGenSlots s x (genOf x x.cur) x.pending ≤ freeSlots s →
    ∃ t, exec (.ingestCommit i) s = .next t ∧ (t.indexes.get? i).map (·.cur) = some (x.cur + 1) ∧
      (t.ingests.find? (·.index == i)).map (fun h => (h.sinceCommit, h.applied, h.committed)) = some (0, [], g.chunks)))

/-- TABLE_CREATE, WRITE_ROWS, PUBLISH, ABORT_STEP and TABLE_DESTROY (R173, R175, R177, R188, R303, R304).
GATHER, HOT_ROW_WINDOW_END and SCATTER_UPDATE (R180 to R190). -/
def Obligations.TablesAreManagedAndServed : Prop :=
  ((∀ (e : Sqe) (i : Nat) (s : State), Served s e 0xCD true →
    let v := begin_ s e 0xCD
    let p := tableP (Bytes.sub e.inp 0 64)
    let t := newTable (acctOf e.fn) e.nsid p
    cdw10Op e = 1 → e.fuse = 0 → e.cdw11 = 64 → 64 ≤ e.dptr → backingOk v e = true → tableParamsOk p = true →
    t.rows * rowSize t ≤ ((v.nss.get? e.nsid).map (·.nsze)).getD 0 * 4096 → keyOpen v (acctOf e.fn) = true →
    v.health.readOnly = false → v.tables.firstFree 0 tableLimit = some i → tableBytes t ≤ regionFree v →
    overQuota v (acctOf e.fn) (tableBytes t) = false →
    ∃ u, exec (.tableCreate e) s = .next (complete u e.key Code.ok i 0) ∧
      u.tables.get? i = some t ∧ (∀ j, j ≠ i → u.tables.get? j = v.tables.get? j) ∧
      (u.nss.get? e.nsid).map (·.role) = some .backing) ∧
  (∀ (e : Sqe) (t : Table) (s : State), Served s e 0xCD true →
    let v := begin_ s e 0xCD
    let n := Bytes.le e.inp 0 4
    cdw10Op e = 2 → manageRefuse e = none → tableFor v e.fn (cdw10Hi e) = some t → Bytes.le e.inp 4 1 = 0 →
    writeRowsOk t e n 0 = true → t.openStep = none → keyOpen v t.account = true → v.health.readOnly = false →
    let rows := (List.range n).map fun k => writeRow t e.inp 0 k
    let pending := rows.foldl (fun (a : Tab Bytes) p => a.put p.1 p.2) t.pending
    spareFits v (cdw10Hi e) t pending.length = true →
    ∃ u, exec (.writeRows e) s = .next (complete u e.key Code.ok (rows.map (·.1)).eraseDups.length 0) ∧
      u.tables.get? (cdw10Hi e) = some { t with pending := pending } ∧ u = { v with tables := u.tables }) ∧
  (∀ (e : Sqe) (t : Table) (s : State), Served s e 0xCD true →
    let v := begin_ s e 0xCD
    cdw10Op e = 3 → manageRefuse e = none → tableFor v e.fn (cdw10Hi e) = some t → keyOpen v t.account = true →
    v.health.readOnly = false →
    (t.pending = [] → exec (.publish e) s = .next (complete v e.key Code.ok t.cur 0)) ∧
    (t.pending ≠ [] → publishSlots v t t.pending ≤ freeSlots v → ∃ u l, exec (.publish e) s =
      .next (finishData u e.key t.nsid l [] (t.cur + 1) 0) ∧ u.tables.get? (cdw10Hi e) =
        some { t with cur := t.cur + 1, kept := t.kept ++ [t.cur + 1], gens := t.gens.put (t.cur + 1) t.pending, pending := [] }) ∧
    (t.pending ≠ [] → freeSlots v < publishSlots v t t.pending → exec (.publish e) s = .next (holdExec v e 0xCD false))) ∧
  (∀ (e : Sqe) (t : Table) (s : State), Served s e 0xCD true →
    let v := begin_ s e 0xCD
    cdw10Op e = 4 → manageRefuse e = none → tableFor v e.fn (cdw10Hi e) = some t → keyOpen v t.account = true →
    (t.openStep = none → exec (.abortStep e) s = .next (fail v e.key Code.sequenceError)) ∧
    (t.openStep.isSome = true → ∃ u, exec (.abortStep e) s = .next (complete u e.key Code.ok t.srcs.length 0) ∧
      u.tables.get? (cdw10Hi e) = some { t with openStep := none, srcs := [] })) ∧
  (∀ (e : Sqe) (t : Table) (s : State), Served s e 0xCD true →
    let v := begin_ s e 0xCD
    cdw10Op e = 5 → manageRefuse e = none → tableFor v e.fn (cdw10Hi e) = some t → keyOpen v t.account = true →
    (t.openStep.isSome = true ∨ t.pending ≠ [] → exec (.tableDestroy e) s = .next (fail v e.key Code.sequenceError)) ∧
    (t.openStep = none → t.pending = [] →
      let pinned := v.inflight.any fun f => acctOf f.key.fn == t.account && f.tabGens.has (cdw10Hi e)
      (pinned = true → exec (.tableDestroy e) s = .next (holdExec v e 0xCD false)) ∧
      (pinned = false → exec (.tableDestroy e) s =
        .next (complete { v with tables := v.tables.del (cdw10Hi e) } e.key Code.ok 0 0))))) ∧
  ((∀ (e : Sqe) (t : Table) (s : State), Served s e 0x8B false →
    let v := begin_ s e 0x8B
    let p := gatherP (inRegion e)
    let g := (gatherGen v e p t).getD t.cur
    let r := gatherRun t g p (inRegion e)
    let idx := Bytes.les (inRegion e) 64 4 p.nidx
    let hot := hotHits t g idx
    let rows := readRows p.table t g v (idx.filter fun r => !isHot t g r)
    (∀ c d, gatherRefuse v e p = some (c, d) → exec (.gather e) s = .next (failDw0 v e.key c d)) ∧
    (gatherRefuse v e p = none → v.tables.get? p.table = some t → rows.2 = false →
      ∃ u, exec (.gather e) s = .next (fail u e.key Code.internalError) ∧ u.hostWrites = v.hostWrites ∧ u.tables = v.tables) ∧
    (gatherRefuse v e p = none → v.tables.get? p.table = some t → rows.2 = true →
      ∃ u, exec (.gather e) s = .next (complete u e.key Code.ok g ((gatherFlags r.2.1).word % 256)) ∧
        u.hostWrites = { cmd := e.key, offset := outOff e, bytes := gatherRecord g r.2.1 hot r.1.length ++ r.1 } :: v.hostWrites ∧
        (u.tables.get? p.table).map (·.gens) = some t.gens ∧ u.mem = rows.1.mem)) ∧
  (∀ (i : Nat) (t : Table) (s : State), s.tables.get? i = some t →
    (t.window < hotWindow s → exec (.hotRowWindowEnd i) s = .next s) ∧
    (hotWindow s ≤ t.window → ∃ u, exec (.hotRowWindowEnd i) s = .next u ∧ u = { s with tables := u.tables } ∧
      u.tables.get? i = some (rankHot s i t) ∧ (rankHot s i t).gens = t.gens ∧ (rankHot s i t).window = min t.later.length (hotWindow s))) ∧
  (∀ (e : Sqe) (t : Table) (s : State), Served s e 0x8D false →
    let v := begin_ s e 0x8D
    let p := scatterP (inRegion e)
    let x : StepSrc := { e := e, p := p, entries := (List.range p.nidx).map (scatterVals t p (inRegion e)) }
    vendorRefuse e = none → tableFor v e.fn (cdw12Lo e) = some t → scatterParamsOk t e p = true → t.pending = [] →
    keyOpen v t.account = true → v.health.readOnly = false →
    (stepFits t p = none → exec (.scatterUpdate e) s = .next (fail v e.key Code.invalidField)) ∧
    (stepFits t p = some false → ∃ u, exec (.scatterUpdate e) s = .next u ∧ u = { v with tables := u.tables } ∧
      u.tables.get? (cdw12Lo e) = some { t with waiting := t.waiting ++ [x] }) ∧
    (stepFits t p = some true → stepRoom v (cdw12Lo e) t x = true →
      (t.srcs.put p.src x).length < t.sources → ∃ u, exec (.scatterUpdate e) s = .next u ∧ u = { v with tables := u.tables } ∧
        u.tables.get? (cdw12Lo e) = some { t with openStep := some p.step, srcs := t.srcs.put p.src x })))

/-- HOT_IDLE_DEMOTE, CLASS0_PREEMPT, CORE_SWITCH_COMPLETE and SLICE_END (R232, R239 to R244). -/
def Obligations.CoresAreSharedByTurns : Prop :=
  (∀ (i : Nat) (x : Sess) (s : State), s.sess.get? i = some x → x.state = sessOpen → x.res = resHot → x.inflight = 0 →
    x.cls ≠ 0 → x.pin = false → ∃ u y, exec (.hotIdleDemote i) s = .next (settle u) ∧ u.sess.get? i = some y ∧
      y.res = resWarm ∧ y.grant = 0 ∧ y.layerTbl = x.layerTbl) ∧
  (∀ (c : Fin 8) (i : Nat) (x y : Sess) (s : State), s.sess.get? i = some x → x.state = sessOpen → x.cls = 0 →
    let v := (makeHot s i).1
    v.sess.get? i = some y → bitOf y.grant.toNat c.val = true → v.cores[c].useB = false →
    v.cores[c].bankB.prog = none → v.cores[c].tile = none → v.cores[c].switching = none →
    ∃ t, exec (.class0Preempt c i) s = .next t ∧ bitOf t.cores[c].evt.toNat 7 = true ∧
      t.cores[c].bankB.session = some i ∧ t.cores[c].switching = some (some i) ∧ t.cores[c].useB = false) ∧
  (∀ (c : Fin 8) (i : Option Nat) (s : State), s.cores[c].switching = some i → s.cores[c].level = .lit →
    ∃ u, exec (.coreSwitchComplete c) s = .next (settle u) ∧ u.cores[c].useB = toBankB s c i ∧
      ∀ j, i = some j → (bank u.cores[c]).session = some j ∧ ∀ x, u.sess.get? j = some x → x.sliceDebt = 0) ∧
  (∀ (c : Fin 8) (i j n : Nat) (x : Sess) (cr : List Nat) (s : State), s.cores[c].tile = none → s.cores[c].switching = none →
    s.cores[c].useB = false → s.cores[c].bankA.session = some i → s.sess.get? i = some x →
    nextDue (addOverrun s i n) s.cores[c] = some (j, cr) →
    ∃ t, exec (.sliceEnd c n) s = .next t ∧ t.cores[c].switching = some (some j) ∧
      (t.sess.get? i).map (·.sliceDebt) = some (min (x.sliceDebt + n) (sliceCycles s x.cls.toNat)) ∧
      t.accounts[acctIx x.account].acct.getD fOverrun 0 = satAdd 64 (s.accounts[acctIx x.account].acct.getD fOverrun 0) n)

/-- ENERGY_METER_SAMPLE, ACCOUNT_BIND, SCRUB_PASS_END, TAG_QUARANTINE_RELEASE and CHK_TEST_WRITE (R210, R222 to R224,
R247, R248). -/
def Obligations.AccountsTagsAndScrubs : Prop :=
  (∀ (l : List MeterReading) (s : State), ∃ t, exec (.energyMeterSample l) s = .next t ∧ t = { s with accounts := t.accounts } ∧
    ∀ a : Fin 129, t.accounts[a] = { s.accounts[a] with acct := t.accounts[a].acct } ∧
      ∀ i, i ≠ fEnergy → t.accounts[a].acct.getD i 0 = s.accounts[a].acct.getD i 0) ∧
  (∀ (n w : Nat) (a : Fin 129) (s : State), w ≠ 0 → a.val ≠ 0 →
    (∃ t, exec (.energyMeterSample [⟨n, [(a.val, w)]⟩]) s = .next t ∧
      t.accounts[a].acct.getD fEnergy 0 = satAdd 64 (s.accounts[a].acct.getD fEnergy 0) n ∧
      ∀ b : Fin 129, b ≠ a → b.val ≠ 0 → t.accounts[b] = s.accounts[b]) ∧
    (∃ t, exec (.energyMeterSample [⟨n, []⟩]) s = .next t ∧
      t.accounts[(0 : Fin 129)].acct.getD fEnergy 0 = satAdd 64 (s.accounts[(0 : Fin 129)].acct.getD fEnergy 0) n ∧
      ∀ b : Fin 129, b.val ≠ 0 → t.accounts[b] = s.accounts[b])) ∧
  (∀ (a : Fin 129) (n : Nat) (s : State), finishLocks s = s → bindable s a.val = true →
    firstTag s s.accounts[a].tk 0 (2 ^ 32) = some n → ∃ t, exec (.accountBind a) s = .next t ∧
      t.accounts[a] = { s.accounts[a] with bound := true, bindWait := false, tag := BitVec.ofNat 16 n, acct := [] } ∧
      0x10 ≤ n ∧ (∀ b : Fin 129, s.accounts[b].bound = true → s.accounts[b].tag.toNat ≠ n) ∧
      (∀ b, b ≠ a → t.accounts[b] = s.accounts[b]) ∧ t.repair.scrubFast = decide (freeTags t < 1024) ∧
      t = { s with accounts := t.accounts, mem := t.mem, chk := t.chk, repair := { s.repair with scrubFast := t.repair.scrubFast } }) ∧
  (∀ (n : Nat) (s : State), n < arrayCount → ∃ t, exec (.scrubPassEnd n) s = .next t ∧
    (t.repair.passes.getD n 0 = s.repair.passes.getD n 0 + 1) ∧ t.media = s.media ∧ t.cores = s.cores) ∧
  (∀ s : State, (∀ i, i < 129 → s.accounts[acctIx i].bindWait = false) → ∃ t, exec .tagQuarantineRelease s = .next t ∧
    t.repair.quarantine = s.repair.quarantine.filter (fun p => !passesDone s p.2) ∧ t = { s with repair := t.repair }) ∧
  (∀ (canopy : Bool) (u : Fin 16) (v : W64) (s : State), ∃ t, exec (.chkTestWrite canopy u v) s = .next t ∧
    t = { s with repair := t.repair } ∧ (canopy = false → t.repair.tdTest[u] = v) ∧
    (∀ d : Fin 2, canopy = true → u.val = d.val → t.repair.cdTest[d] = v))

/-- REGISTER_WRITE, CONFIG_REQUEST, SQ_TAIL_DOORBELL, CQ_HEAD_DOORBELL and COMMAND_FETCH (R255 to R257, R263, R264, R96). -/
def Obligations.RegistersDoorbellsAndFetches : Prop :=
  (∀ (c : Fin 8) (v : W64) (s : State), cpRuns s c = true →
    (∃ t, exec (.registerWrite (.coreMem c false 0x30001100) v) s = .next t ∧ CoreOnly s t c ∧
      t.cores[c].evt = s.cores[c].evt &&& ~~~(v &&& 0x17E) ∧ t.cores[c].irq = ((t.cores[c].evt &&& t.cores[c].evtEn) != 0)) ∧
    (∃ t, exec (.registerWrite (.coreMem c false 0x30001108) v) s = .next t ∧ CoreOnly s t c ∧
      t.cores[c].evtEn = v &&& 0x1FF ∧ t.cores[c].irq = ((t.cores[c].evt &&& t.cores[c].evtEn) != 0))) ∧
  (∀ (f : Fin 128) (off : Nat) (s : State), s.power.linkUp = true → exec (.configRequest f off) s =
    .next { s with cfgSent := (f.val, off, configWord f off) :: s.cfgSent } ∧
    (configWord f 8).toNat / 256 = 0x010802) ∧
  (∀ (f : Fin 128) (q : Nat) (x : Sq) (tail : Nat) (s : State), reachable s f = true → s.ctrls[f].ccEn = true → q ≠ 0 →
    s.ctrls[f].sqs.get? q = some x → ∃ t, exec (.sqTailDoorbell f q tail) s = .next t ∧
      t.ctrls[f].sqs.get? q = some (if tail < x.size then { x with tail := tail } else x) ∧
      t = { s with ctrls := t.ctrls, power := t.power } ∧ ∀ g, g ≠ f → t.ctrls[g] = s.ctrls[g]) ∧
  (∀ (f : Fin 128) (q n head : Nat) (x : Cq) (s : State), reachable s f = true → s.ctrls[f].ccEn = true → q ≠ 0 →
    s.ctrls[f].cqs.get? q = some x → freedBy x.size x.head x.posted.length head = some n →
    ∃ t y, exec (.cqHeadDoorbell f q head) s = .next t ∧ t.ctrls[f].cqs.get? q = some y ∧ y.head = head ∧
      y.posted ++ y.waiting = (x.posted ++ x.waiting).drop n ∧ (n ≤ x.posted.length → x.posted.length < x.size → y.posted.length < x.size) ∧
      (∀ k ∈ s.inflight, k ∉ t.inflight → ∃ e ∈ x.waiting, k.key = ⟨f, e.sqid, e.cid⟩)) ∧
  (∀ (opc : BitVec 8) (cid nsid q n : Nat) (f : Fin 128) (s : State), openVisit s = some (f, q, n) →
    flightOf s ⟨f, q, cid⟩ = none → s.ctrls[f].abortRecs = [] →
    (opcodeTaken ⟨f, q, cid⟩ opc.toNat = true → ∃ t, exec (.commandFetch opc cid nsid none) s = .next t ∧
      t.inflight.map (·.key) = s.inflight.map (·.key) ++ [⟨f, q, cid⟩]) ∧
    (opcodeTaken ⟨f, q, cid⟩ opc.toNat = false → ∃ u, exec (.commandFetch opc cid nsid none) s =
      .next (fail u ⟨f, q, cid⟩ Code.invalidOpcode nsid) ∧ u.inflight.map (·.key) = s.inflight.map (·.key) ++ [⟨f, q, cid⟩]))

/-- NAND_READ_COMPLETE, NAND_PROGRAM_COMPLETE and NAND_ERASE_COMPLETE (R324, R326, R331 to R333): a decoded read is
noted, a failed one goes to the ladder, a passed program marks its slots, a passed erase frees its block. -/
def Obligations.NandOperationsEnd : Prop :=
  (∀ (ch : Fin 48) (die : Fin 16) (o : NandOp) (bits off : Nat) (s : State),
    s.channels[ch].dieActive.get? die.val = some o → writes o = false → o.ladder = false →
    (metaFits s s.channels[ch] o = true → ∃ u, exec (.nandReadComplete ch die (.decoded 0 bits off)) s = .next (mediaEnded u ch) ∧
      (blockOf u.channels[ch] o.block).reads = (blockOf s.channels[ch] o.block).reads + 1 ∧
      u.channels[ch].dieActive.get? die.val = none ∧ u.media = s.media ∧ u.map = s.map) ∧
    (metaFits s s.channels[ch] o = false →
      exec (.nandReadComplete ch die (.decoded 0 bits off)) s = exec (.nandReadComplete ch die .failedStep0) s) ∧
    exec (.nandReadComplete ch die (.otherUnit 0)) s = exec (.nandReadComplete ch die .failedStep0) s) ∧
  (∀ (ch : Fin 48) (die : Fin 16) (o : NandOp) (l : Ladder) (st : Fin 6) (bits off : Nat) (s : State),
    s.channels[ch].dieActive.get? die.val = some o → writes o = false → o.ladder = true →
    s.channels[ch].ladders.get? o.addr = some l → l.step ≤ st.val → st.val ≤ lastStep s.channels[ch] o.block →
    (metaFits s s.channels[ch] o = false →
      exec (.nandReadComplete ch die (.decoded st bits off)) s = exec (.nandReadComplete ch die (.exhausted st)) s) ∧
    exec (.nandReadComplete ch die (.otherUnit st)) s = exec (.nandReadComplete ch die (.exhausted st)) s) ∧
  (∀ (ch : Fin 48) (die : Fin 16) (o : NandOp) (k : CmdKey) (s : State),
    s.channels[ch].dieActive.get? die.val = some o → writes o = false → o.ladder = false → o.cmd = some k →
    s.channels[ch].ladders.has o.addr = true →
    ∃ u l, exec (.nandReadComplete ch die .failedStep0) s = .next (mediaEnded u ch) ∧
      u.channels[ch].ladders.get? o.addr = some l ∧ k ∈ l.waiters) ∧
  (∀ (ch : Fin 48) (die : Fin 16) (o : NandOp) (l : List Nat) (s : State),
    s.channels[ch].dieActive.get? die.val = some o → o.kind = .program l false →
    (∃ u, exec (.nandProgramComplete ch die true) s = .next (mediaEnded u ch) ∧
      (∀ i ∈ l, ∀ b, s.slots.get? i = some b → u.slots.get? i = some { b with programmed := true }) ∧
      u.channels[ch].journal = s.channels[ch].journal + sumNat ((o.recs.filter (·.1 == recJournal)).map (·.2))) ∧
    (∃ u, exec (.nandProgramComplete ch die false) s = .next (mediaEnded u ch) ∧
      (blockOf u.channels[ch] o.block).state = .retired ∧ counter u 0x612008 = satAdd 64 (counter s 0x612008) 1)) ∧
  (∀ (ch : Fin 48) (die : Fin 16) (o : NandOp) (s : State),
    s.channels[ch].dieActive.get? die.val = some o → o.kind = .erase → (blockOf s.channels[ch] o.block).group = none →
    (∃ u, exec (.nandEraseComplete ch die true) s = .next (mediaEnded u ch) ∧
      (blockOf u.channels[ch] o.block).state = .free ∧
      (blockOf u.channels[ch] o.block).erases = (blockOf s.channels[ch] o.block).erases + 1 ∧
      u.channels[ch].freeBlocks = s.channels[ch].freeBlocks + (if inService o.block then 1 else 0) ∧
      ∀ p ∈ u.channels[ch].words, blockAt p.1 ≠ o.block) ∧
    (∃ u, exec (.nandEraseComplete ch die false) s = .next (mediaEnded u ch) ∧
      (blockOf u.channels[ch] o.block).state = .retired))

/-- CLASS0_FLASH_PREEMPT, LADDER_BUDGET_EXPIRY, DESTAGE_TIMEOUT and NAND_DIE_FAILURE (R251, R316, R325, R451). -/
def Obligations.FlashIsPreemptedAndFails : Prop :=
  (∀ (ch : Fin 48) (die : Fin 16) (op o : NandOp) (s : State), op.cls = 0 → writes op = false →
    bitOf s.channels[ch].failedDies.toNat die.val = false → flashUp s = true →
    s.channels[ch].dieActive.get? die.val = some o → writes o = true →
    ∃ t z, exec (.class0FlashPreempt ch die op) s = .next t ∧ t.channels[ch].dieActive.get? die.val = some z ∧ z.cls = 0 ∧
      t.channels[ch].suspended.get? die.val = some o) ∧
  (∀ (ch : Fin 48) (addr : Nat) (l : Ladder) (s : State), s.channels[ch].ladders.get? addr = some l →
    exec (.ladderBudgetExpiry ch addr) s = .next (exhaust s ch addr l.step l.waiters.head?) ∧
      s.health.mediaErrors < (exhaust s ch addr l.step l.waiters.head?).health.mediaErrors) ∧
  (∀ (ch : Fin 48) (s t : State), s.channels[ch].destageHeld = false → s.channels[ch].recs ≠ [] →
    programIn s ch true (decide (sumNat (s.channels[ch].recs.map (·.2)) < unitBytes)) [] (cutRecs unitBytes s.channels[ch].recs).1
      = (t, true) → exec (.destageTimeout ch) s =
        .next (destageUnit (onChan t ch fun c => { c with recs := (cutRecs unitBytes s.channels[ch].recs).2 }) ch true)) ∧
  (∀ (ch : Fin 48) (s : State), s.channels[ch].destageHeld = false → s.channels[ch].unit ≠ [] → s.channels[ch].recs = [] →
    (∀ t, programUnit s ch (s.channels[ch].unit.take 48) = (t, true) → ∃ u, exec (.destageTimeout ch) s = .next u ∧
      u.channels[ch].unit = t.channels[ch].unit.drop 48) ∧
    (∀ t, programUnit s ch (s.channels[ch].unit.take 48) = (t, false) → exec (.destageTimeout ch) s = .next s)) ∧
  (∀ (ch : Fin 48) (die : Fin 16) (s : State), bitOf s.channels[ch].failedDies.toNat die.val = false →
    ∃ u, exec (.nandDieFailure ch die) s = .next (mediaEnded u ch) ∧
      bitOf u.channels[ch].failedDies.toNat die.val = true ∧ s.health.nextSeq < u.health.nextSeq)

/-- BLOCK_VERIFY, MOVE_COMMIT, PATROL_READ and MAP_CHECKPOINT (R314, R322, R328, R329, R331). -/
def Obligations.BlocksAreVerifiedAndMovesCommit : Prop :=
  (∀ (ch : Fin 48) (b : Nat) (l : List PageResult) (s : State), b < blocksPerChannel →
    (blockOf s.channels[ch] b).state = .closed →
    (l.all (pagePasses s) = true → (blockOf s.channels[ch] b).group = none → ∃ t, exec (.blockVerify ch b l) s = .next t ∧
      (blockOf t.channels[ch] b).state = .verified ∧ t = { s with channels := t.channels }) ∧
    (l.all (pagePasses s) = false → (blockOf s.channels[ch] b).strikes = 0 → ∃ t, exec (.blockVerify ch b l) s = .next t ∧
      (blockOf t.channels[ch] b).strikes = 1)) ∧
  (∀ (ch : Fin 48) (b : Nat) (m : Move) (s : State), b < blocksPerChannel → (blockOf s.channels[ch] b).state = .verified →
    s.channels[ch].moves.filter (fun m => m.target == b) = [m] →
    exec (.moveCommit ch b) s = .next (commitMove s ch m) ∧
      (∀ k ∈ (commitMove s ch m).channels[ch].moves, k.target ≠ b)) ∧
  (∀ (ch : Fin 48) (b : Nat) (p : PageResult) (st : Fin 6) (bits off : Nat) (s : State), b < blocksPerChannel →
    (dataBlocks s.channels[ch]).contains b = true → blockAt p.addr = b → p.out = .decoded st bits off →
    ∃ t, exec (.patrolRead ch b [p]) s = .next t ∧
      (blockOf t.channels[ch] b).reads = (blockOf s.channels[ch] b).reads + 1 ∧ t.map = s.map ∧ t.media = s.media) ∧
  (∀ (ch : Fin 48) (s : State),
    (s.channels[ch].journal < journalLimit → exec (.mapCheckpoint ch) s = .next s) ∧
    (journalLimit ≤ s.channels[ch].journal → ∃ t, exec (.mapCheckpoint ch) s = .next t ∧ t.channels[ch].journal = 0 ∧
      t = { s with channels := t.channels } ∧
      (checkpointUnits s = 0 → writtenBlocks s.channels[ch] true = [] → t.channels[ch] = { s.channels[ch] with journal := 0 })))

/-- GARBAGE_COLLECTION, REFRESH_MOVE and WEAR_LEVEL_MOVE (R330 to R332): which block is moved. -/
def Obligations.BlocksAreChosenForMoves : Prop :=
  (∀ (ch : Fin 48) (b : Nat) (s : State), s.channels[ch].collecting = true → victim s ch = some b →
    exec (.garbageCollection ch) s = .next (startMove s ch b s.channels[ch].gcClass false none) ∧
    (∀ x ∈ dataBlocks s.channels[ch], (s.channels[ch].moves.any fun m => m.src == x || m.target == x) = false →
      (validIn s ch b).length ≤ (validIn s ch x).length)) ∧
  (∀ (ch : Fin 48) (b : Nat) (l : List Nat) (s : State), s.channels[ch].refreshList = b :: l →
    (blockOf s.channels[ch] b).state ≠ .opened → exec (.refreshMove ch) s = .next (startMove s ch b 3 true none)) ∧
  (∀ (ch : Fin 48) (s : State),
    let er (b : Nat) : Nat := (blockOf s.channels[ch] b).erases
    (∀ a ∈ servingBlocks s.channels[ch], ∀ b ∈ servingBlocks s.channels[ch], er b ≤ er a + dv s 0x303001) →
      exec (.wearLevelMove ch) s = .next s) ∧
  (∀ (ch : Fin 48) (b t : Nat) (s : State), s.channels[ch].moves = [] →
    let er (b : Nat) : Nat := (blockOf s.channels[ch] b).erases
    let l := (servingBlocks s.channels[ch]).map er
    dv s 0x303001 < maxNat l - l.foldl min (maxNat l) →
    bestBlock (fun b x => decide (er b < er x)) (dataBlocks s.channels[ch]) = some b →
    bestBlock (fun b x => decide (er x < er b)) ((servingBlocks s.channels[ch]).filter fun b => (blockOf s.channels[ch] b).state == .free) = some t →
    exec (.wearLevelMove ch) s = .next (startMove s ch b 3 false (some t)))

/-- WORD_PROGRAM, SECTOR_ERASE and BLOCK_ERASE (R342, R344, R350, R352): a whole sequence of wide writes from outside the
array starts its operation, unless a region protects the target; a write by another master changes nothing (R341).
SUSPEND, RESUME, SEQUENCE_RESET, CF_OPERATION_DONE, CF_ARRAY_READ and CF_REGION_WRITE (R341, R343 to R347, R350). -/
def Obligations.CodeFlashSequencesAndOperations : Prop :=
  ((∀ (addr data : W32) (ctx : CfCtx) (off : Nat) (s : State), ctx.core = true → ctx.wide = true → ctx.fromArray = false →
    ctx.fetchBetween = false → 6 ≤ ctx.cycles → s.cf.op = .idle → s.cf.seq = [] → s.cf.suspProg = none → s.cf.suspErase = none →
    cfOffset addr.toNat = some off → off % 4 = 0 →
    (cfCovered s 2 (off / cfSector) = true → ∃ t, exec (.wordProgram addr data ctx) s = .next t ∧
      t.cf = { s.cf with protErr := true }) ∧
    (cfCovered s 2 (off / cfSector) = false → cfRead s off 4 ≠ [0xFF, 0xFF, 0xFF, 0xFF] →
      ∃ t, exec (.wordProgram addr data ctx) s = .next t ∧ t.cf = { s.cf with prgErr := true }) ∧
    (cfCovered s 2 (off / cfSector) = false → cfRead s off 4 = [0xFF, 0xFF, 0xFF, 0xFF] →
      ∃ t, exec (.wordProgram addr data ctx) s = .next t ∧ t = { s with cf := t.cf } ∧
        t.cf = { s.cf with op := .program, opAddr := off, opData := data })) ∧
  (∀ (addr : W32) (ctx : CfCtx) (off : Nat) (s : State), ctx.core = true → ctx.wide = true → ctx.fromArray = false →
    ctx.fetchBetween = false → 6 ≤ ctx.cycles → s.cf.op = .idle → s.cf.seq = [] → s.cf.suspProg = none → s.cf.suspErase = none →
    cfOffset addr.toNat = some off →
    (cfCovered s 2 (off / cfSector) = false → ∃ t, exec (.sectorErase addr ctx) s = .next t ∧ t = { s with cf := t.cf } ∧
      t.cf.op = .sectorErase ∧ t.cf.opAddr = off ∧ t.cf.flags = s.cf.flags ||| BitVec.ofNat 2048 (2 ^ (off / cfSector)) ∧
      t.cf.arr = s.cf.arr) ∧
    ((cfSectors true off).any (cfCovered s 2) = false → ∃ t, exec (.blockErase addr ctx) s = .next t ∧
      t = { s with cf := t.cf } ∧ t.cf.op = .blockErase ∧ t.cf.opAddr = off ∧ t.cf.arr = s.cf.arr)) ∧
  (∀ (addr data : W32) (ctx : CfCtx) (s : State), ctx.core = false → exec (.wordProgram addr data ctx) s = .next s ∧
    exec (.sectorErase addr ctx) s = .next s ∧ exec (.blockErase addr ctx) s = .next s)) ∧
  ((∀ (addr : W32) (ctx : CfCtx) (off : Nat) (s : State), ctx.core = true → ctx.wide = true → ctx.cycles ≠ 0 →
    cfOffset addr.toNat = some off →
    (s.cf.op = .sectorErase → s.cf.readWait = [] → ∃ t, exec (.suspend addr ctx) s = .next t ∧
      t.cf = { s.cf with op := .idle, suspErase := some (false, s.cf.opAddr) }) ∧
    (∀ o d, s.cf.op = .idle → s.cf.seq = [] → s.cf.suspProg = some (o, d) → ∃ t, exec (.resume addr ctx) s = .next t ∧
      t.cf = { s.cf with op := .program, opAddr := o, opData := d, suspProg := none }) ∧
    (s.cf.op = .idle → s.cf.seq.length ≤ 2 → ∃ t, exec (.sequenceReset addr ctx) s = .next t ∧
      t.cf = { s.cf with seq := [] })) ∧
  (∀ s : State, s.cf.op = .program → s.cf.readWait = [] → Mem.wf 0xFF s.cf.arr = true → ∃ t, exec (.cfOperationDone true) s = .next t ∧
    t = { s with cf := t.cf } ∧ t.cf.op = .idle ∧ t.cf.done = true ∧ t.cf.prgErr = s.cf.prgErr ∧
    cfRead t s.cf.opAddr 4 = toLe 4 s.cf.opData.toNat ∧
    ∀ a, a < s.cf.opAddr ∨ s.cf.opAddr + 4 ≤ a → t.cf.arr.get 0xFF a = s.cf.arr.get 0xFF a) ∧
  (∀ s : State, s.cf.op = .sectorErase → s.cf.readWait = [] → ∃ t, exec (.cfOperationDone true) s = .next t ∧
    t.cf.op = .idle ∧ t.cf.done = true ∧ t.cf.ersErr = s.cf.ersErr ∧
    bitOf t.cf.flags.toNat (s.cf.opAddr / cfSector) = false ∧
    ∀ a, t.cf.arr.get 0xFF a = if a / cfSector = s.cf.opAddr / cfSector then 0xFF else s.cf.arr.get 0xFF a) ∧
  (∀ (addr : W32) (fetch : Bool) (off : Nat) (s : State), cfOffset addr.toNat = some off → s.cf.seq = [] →
    (s.cf.op = .idle → cfSuspendedAt s off = false → cfCovered s 1 (off / cfSector) = false → s.cf.cut.contains (off / 4) = false →
      ∃ t, exec (.cfArrayRead addr fetch) s = .next t ∧
        t.cf = { s.cf with lastRead := some (BitVec.ofNat 32 (leNat (cfRead s (off / 4 * 4) 4))) }) ∧
    (s.cf.op ≠ .idle → ∃ t, exec (.cfArrayRead addr fetch) s = .next t ∧
      t.cf = { s.cf with readWait := s.cf.readWait ++ [(off, fetch)] })) ∧
  (∀ (i : Fin 8) (v : W64) (s : State), ∃ t, exec (.cfRegionWrite i v) s = .next t ∧ t = { s with cf := t.cf } ∧
    t.cf.rgn[i] = (if bitOf s.cf.rgn[i].toNat 3 then s.cf.rgn[i] else v) ∧ ∀ j, j ≠ i → t.cf.rgn[j] = s.cf.rgn[j]))

/-- TK_STATUS, TK_CLAIM, TK_UNLOCK and TK_LOCK (R374 to R377): a message in an established session of the function's own
mailbox is answered; any other is answered InvalidRequest. -/
def Obligations.TenantKeyMessages : Prop :=
  ∀ (fn : Fin 128) (session : Option Nat) (secret : Bytes) (mode : Byte) (s : State), finishLocks s = s →
    endpointUp s (.doe fn) = true →
    let n := acctIx (acctOf fn)
    let a := s.accounts[n]
    let k := Bytes.sub secret 0 32
    (securedOn s (.doe fn) session = false → ∀ c ∈ [Instr.tkStatus fn session, .tkClaim fn session mode secret,
      .tkUnlock fn session secret, .tkLock fn session], exec c s = .next (respond s (.doe fn) (spdmError errInvalidRequest))) ∧
    (securedOn s (.doe fn) session = true → a.waitKop ≠ 0 → ∀ c ∈ [Instr.tkStatus fn session,
      .tkClaim fn session mode secret, .tkUnlock fn session secret, .tkLock fn session],
      exec c s = .next (respond s (.doe fn) (spdmError errNotReady))) ∧
    (securedOn s (.doe fn) session = true → a.waitKop = 0 →
      exec (.tkStatus fn session) s = .next (tkReply s fn 1 0
        (toLe 1 (if a.mode1 then 1 else 0) ++ toLe 1 (if a.opened then 1 else 0) ++ toLe 1 a.fails ++ toLe 1 (tdiNo a.tdi))) ∧
      (s.sanitizing = false → 8 ≤ a.fails → exec (.tkUnlock fn session secret) s = .next (tkReply s fn 3 2 [])) ∧
      (s.sanitizing = false → a.mode1 = true → a.opened = false →
        (a.fails < 8 → tenantVerifier k ≠ a.verifier → ∃ t, exec (.tkUnlock fn session secret) s = .next t ∧
          t = { s with accounts := t.accounts, dict := t.dict, spdm := t.spdm } ∧
          t.accounts[n] = { a with fails := a.fails + 1 } ∧ counter t 0x614001 = satAdd 64 (counter s 0x614001) 1 ∧
          (spdmOf t (.doe fn)).resp = toLe 2 3 ++ toLe 2 1) ∧
        (a.fails < 8 → tenantVerifier k = a.verifier → ∃ t, exec (.tkUnlock fn session secret) s = .next t ∧
          t = { s with accounts := t.accounts, spdm := t.spdm, mem := t.mem, chk := t.chk, repair := t.repair } ∧
          t.repair = { s.repair with scrubFast := t.repair.scrubFast } ∧ t.accounts[n].opened = true ∧ t.accounts[n].fails = 0 ∧
          t.accounts[n].tk = tenantKey k ∧ (spdmOf t (.doe fn)).resp = toLe 2 3 ++ toLe 2 0)) ∧
      (s.sanitizing = false → a.mode1 = true → a.opened = true →
        (acctBusy s (acctOf fn) = true → ∃ t, exec (.tkLock fn session) s = .next t ∧
          t = { s with accounts := t.accounts, spdm := t.spdm } ∧ t.accounts[n].locking = true ∧ t.accounts[n].waitKop = 4) ∧
        (acctBusy s (acctOf fn) = false → ∃ t, exec (.tkLock fn session) s = .next t ∧ t.accounts[n].opened = false ∧
          t.accounts[n].tk = [] ∧ t.accounts[n].bound = false ∧ t.accounts[n].locking = false)) ∧
      (s.sanitizing = false → mode.toNat ≤ 1 → exec (.tkClaim fn session mode secret) s =
        .next (tkLockFor (tdiError s fn) fn 2 (some (mode.toNat == 1, k)))))

/-- SPDM_REQUEST, SPDM_HEARTBEAT_TIMEOUT and OWNER_REQUEST (R368 to R372): what a session exchange adds, ends and answers;
an owner request takes effect at once exactly where its checks pass.
IDE_KM_KEY_PROGRAM, IDE_INTEGRITY_FAILURE, LOCK_INTERFACE, START_INTERFACE and STOP_INTERFACE (R383, R384). -/
def Obligations.SessionsOwnersAndTheLink : Prop :=
  ((∀ (ep : Endpoint) (root : Option Bytes) (s : State), endpointUp s ep = true → (spdmOf s ep).sessions.length < 2 →
    ∃ t, exec (.spdmRequest ep (.keyExchange root)) s = .next t ∧ t = { s with spdm := t.spdm } ∧
      (spdmOf t ep).sessions = (spdmOf s ep).sessions ++ [((spdmOf s ep).nextId, root, false)]) ∧
  (∀ (ep : Endpoint) (root : Option Bytes) (s : State), endpointUp s ep = true → 2 ≤ (spdmOf s ep).sessions.length →
    exec (.spdmRequest ep (.keyExchange root)) s = .next (respond s ep (spdmError errSessionLimit))) ∧
  (∀ (ep : Endpoint) (s : State), endpointUp s ep = true → ((spdmOf s ep).sessions.any fun y => !y.2.2) = true →
    ∃ t, exec (.spdmRequest ep .finish) s = .next t ∧ t = { s with spdm := t.spdm } ∧
      (spdmOf t ep).sessions = (spdmOf s ep).sessions.map (fun z => (z.1, z.2.1, true))) ∧
  (∀ (ep : Endpoint) (i : Nat) (s : State), endpointUp s ep = true → securedOn s ep (some i) = true →
    ∃ t, exec (.spdmRequest ep (.endSession i)) s = .next t ∧ t = { s with spdm := t.spdm } ∧ securedOn t ep (some i) = false) ∧
  (∀ (ep : Endpoint) (i : Nat) (s : State), ∃ t, exec (.spdmHeartbeatTimeout ep i) s = .next t ∧
    t = { s with spdm := t.spdm } ∧ securedOn t ep (some i) = false ∧
    ∀ j, j ≠ i → securedOn t ep (some j) = securedOn s ep (some j)) ∧
  (∀ (src : WSrc) (req : Bytes) (s : State), pilotPowered s = true → s.fw.pilotUp = true → s.fw.recovery = false →
    rights s src = true → req.length = 408 →
    ∃ t, exec (.ownerRequest src req) s = .next t ∧ t = { s with store := t.store, dict := t.dict } ∧
      t.store = (ownerResult s req).getD s.store) ∧
  (∀ (s : State) (r : Bytes) (st : SecStore), ownerResult s r = some st → st.ownerSeq = s.store.ownerSeq + 1 ∧
    Bytes.le r 4 4 = st.ownerSeq ∧ st.quorum ≤ enrolled st ∧ st.fwFloor = s.store.fwFloor ∧ st.revoked = s.store.revoked)) ∧
  ((∀ (i : Fin 9) (session : Option Nat) (vfs : List Nat) (s : State), endpointUp s (.doe 0) = true →
    (rightsOn s (.doe 0) session = true → ∃ t, exec (.ideKmKeyProgram i session vfs) s = .next t ∧
      t = { s with ide := t.ide } ∧ t.ide[i].secure = true ∧ ∀ j, j ≠ i → t.ide[j] = s.ide[j]) ∧
    (rightsOn s (.doe 0) session = false →
      exec (.ideKmKeyProgram i session vfs) s = .next (respond s (.doe 0) (spdmError errInvalidRequest)))) ∧
  (∀ (i : Fin 9) (s : State), s.ide[i].secure = true → ∃ u, exec (.ideIntegrityFailure i) s = .next (finishLocks u) ∧
    u.ide[i].secure = false ∧ u.ide[i].insecure = true ∧
    ∀ f : Fin 128, f.val ≠ 0 → carries s i f = true → tdiLocked u f = false ∧
      (tdiLocked s f = true → u.accounts[acctIx (acctOf f)].tdi = .error ∧ u.accounts[acctIx (acctOf f)].locking = true)) ∧
  (∀ (f : Fin 128) (s : State), f.val ≠ 0 →
    let n := acctIx (acctOf f)
    let set (x : Tdi) := { s with accounts := upd s.accounts n fun a => { a with tdi := x } }
    (s.ctrls[f].enabled = true → s.accounts[n].tdi = .configUnlocked → exec (.lockInterface f) s = .next (set .configLocked)) ∧
    (s.accounts[n].tdi ≠ .configUnlocked → exec (.lockInterface f) s = .next s) ∧
    (s.accounts[n].tdi = .configLocked → carried s f = true → exec (.startInterface f) s = .next (set .run)) ∧
    (carried s f = false → exec (.startInterface f) s = .next s) ∧
    (exec (.stopInterface f) s = .next (bindAccount (set .configUnlocked) (acctOf f)))))

/-- WAORI_READ, WAORI_WRITE, WAORI_DESCRIBE, WAORI_LIST, NVME_MI_SEND and NVME_MI_RECEIVE (R389, R390, R396 to R399, R402):
a malformed request is answered as such, a pilot that starts asks to come back, and a well-formed one gets every item's
answer; only a write changes more than the responses. In band the Send keeps the response for the Receive. -/
def Obligations.WaoriRequestsAreAnswered : Prop :=
  (∀ (src : WSrc) (pdu : Bytes) (s : State), pilotPowered s = true →
    let op := Bytes.le pdu 0 1
    let pf := Bytes.le pdu 2 1
    let told (b : Bytes) : State := { s with dict := { s.dict with responses := (srcKey src, b) :: s.dict.responses } }
    ∀ c ∈ [Instr.waoriRead src pdu, .waoriWrite src pdu, .waoriDescribe src pdu, .waoriList src pdu],
      (s.fw.pilotUp = false → s.fw.recovery = false ∨ s.fw.activating = 3 → ∃ t r b, exec c s = .next t ∧ 100 ≤ r ∧
        b = responsePdu s op 0 pf 1 r [] ∧ t = { told b with free := t.free }) ∧
      ((s.fw.pilotUp || s.fw.recovery && s.fw.activating != 3) = true → parsePdu pdu = none → exec c s = .next (told (responsePdu s op 0 pf 2 0 []))) ∧
      ((s.fw.pilotUp || s.fw.recovery && s.fw.activating != 3) = true → ∀ l, parsePdu pdu = some l →
        (op ≠ 2 → exec c s = .next (told (responsePdu s op l.length pf (if s.fw.recovery then 3 else 0) 0
          (l.flatMap fun x => responseItem x.id (doItem s src op (bitOf pf 0) x.id x.value).2.1
            (doItem s src op (bitOf pf 0) x.id x.value).2.2)))) ∧
        (∀ x, op = 2 → l = [x] → exec c s = .next (
          let r := doItem s src 2 (bitOf pf 0) x.id x.value
          let b := responsePdu r.1 2 1 pf (if r.1.fw.recovery then 3 else 0) 0 (responseItem x.id r.2.1 r.2.2)
          { r.1 with dict := { r.1.dict with responses := (srcKey src, b) :: r.1.dict.responses } })))) ∧
  (∀ (e : Sqe) (s u : State) (r : Bytes), Served s e 0x1D true → e.fn = 0 → miOpcode e = 0xC0 →
    let v := begin_ s e 0x1D
    v.ctrls[e.fn].miResponse = none → handlePdu v inBand e.inp = (u, r) → exec (.nvmeMiSend e) s =
      .next (complete (onCtrl u e.fn fun c => { c with miResponse := some r }) e.key Code.ok 0 0)) ∧
  (∀ (e : Sqe) (s : State) (r : Bytes), Served s e 0x1E true → e.fn = 0 → miOpcode e = 0xC0 →
    let v := begin_ s e 0x1E
    v.ctrls[e.fn].miResponse = some r → exec (.nvmeMiReceive e) s = .next (complete
      (hostWrite (onCtrl v e.fn fun c => { c with miResponse := none }) e.key 0 (r.take e.dptr)) e.key Code.ok 0 0))

/-- COMMIT, DISCARD_STAGED_SET and STAGED_SET_TIMEOUT (R390 to R395): a staged set is put in force whole or
not at all. -/
def Obligations.StagedSetsAreCommitted : Prop :=
  ∀ (src : WSrc) (s : State), pilotPowered s = true → s.fw.pilotUp = true → s.fw.recovery = false →
    (src.via = .port → src.auth = true) →
    let items := stagedOf s (srcKey src)
    (∀ n : W64, n.toNat ≠ s.dict.epoch → exec (.commit src n) s = .next (Answered src 0xA00001 (s, stEpoch, []))) ∧
    (∀ n : W64, n.toNat = s.dict.epoch → items = [] →
      exec (.commit src n) s = .next (Answered src 0xA00001 (s, stOk, toLe 8 s.dict.epoch))) ∧
    (∀ (n : W64) (id why : Nat), n.toNat = s.dict.epoch → items ≠ [] →
      invalidOf items (brokenRules s items (rights s src)) = some (id, why) →
      exec (.commit src n) s = .next (Answered src 0xA00001 (s, stInvalidSet, toLe 4 id ++ toLe 1 why ++ [0, 0, 0]))) ∧
    (∀ n : W64, n.toNat = s.dict.epoch → items ≠ [] → invalidOf items (brokenRules s items (rights s src)) = none →
      ∃ t, exec (.commit src n) s = .next t ∧ t = { s with dict := t.dict, gatherCfg := t.gatherCfg, tables := t.tables } ∧
        t.tables = (setGatherCfg s t.gatherCfg).tables ∧
        t.dict.epoch = s.dict.epoch + 1 ∧ stagedOf t (srcKey src) = [] ∧ t.gatherCfg = gatherFrom t ∧
        (∀ id, id ≠ 0x401004 → t.dict.vals.get? id = (items.foldl (fun v p => v.put p.1 p.2) s.dict.vals).get? id)) ∧
    (∃ t, exec (.discardStagedSet src 1) s = .next t ∧ t = { s with dict := t.dict } ∧ stagedOf t (srcKey src) = [] ∧
      t.dict.vals = s.dict.vals ∧ t.dict.epoch = s.dict.epoch) ∧
    (∀ k, ∃ t, exec (.stagedSetTimeout k) s = .next t ∧ t = { s with dict := t.dict } ∧ stagedOf t k = [] ∧
      (∀ j, j ≠ k → stagedOf t j = stagedOf s j) ∧ t.dict.vals = s.dict.vals ∧ t.dict.epoch = s.dict.epoch)

/-- DL_DATA, DL_ACTION_STAGE, DL_ACTION_STAGE_ACTIVATE, DL_ACTION_DISCARD and PORT_KEY_WRITE (R412, R415). -/
def Obligations.ManagementCarriesFirmware : Prop :=
  ∀ (src : WSrc) (s : State), pilotPowered s = true → s.fw.pilotUp = true → s.fw.recovery = false → rights s src = true →
    (∀ b : Bytes, 4 ≤ b.length → b.length ≤ 1024 → b.length % 4 = 0 →
      let off := dv s 0x107003
      (imageMax < off + b.length → exec (.dlData src b) s = .next (Answered src 0x107004 (s, stRange, []))) ∧
      (off + b.length ≤ imageMax → ∃ t, exec (.dlData src b) s = .next t ∧ t = { s with fw := t.fw, dict := t.dict } ∧
        t.fw = (fwDownload s off b).fw ∧ dv t 0x107003 = off + b.length)) ∧
    (∃ t, exec (.dlActionDiscard src) s = .next t ∧ t = { s with fw := t.fw, dict := t.dict } ∧ t.fw.buf = [] ∧
      t.fw.bufLen = 0 ∧ t.fw.dlResult = 0 ∧ t.fw.stage = s.fw.stage) ∧
    (s.fw.stage.state = 2 ∨ s.fw.stage.state = 3 → ∀ c ∈ [Instr.dlActionStage src, .dlActionStageActivate src],
      exec c s = .next (Answered src 0x107005 ({ s with fw := { s.fw with dlResult := 0x0200 } }, stOk, []))) ∧
    (s.fw.stage.state ≠ 2 → s.fw.stage.state ≠ 3 →
      (∀ v, fwStage s {} 0 2 = (v, none) → exec (.dlActionStage src) s =
        .next (Answered src 0x107005 ({ v with fw := { v.fw with dlResult := 2 } }, stOk, []))) ∧
      (∀ v r, fwStage s {} 0 2 = (v, some r) → exec (.dlActionStage src) s =
        .next (Answered src 0x107005 ({ v with fw := { v.fw with dlResult := 0x0100 + r } }, stOk, []))) ∧
      (∀ v, fwStageActivate s {} 0 = (v, none) → exec (.dlActionStageActivate src) s =
        .next (Answered src 0x107005 ({ v with fw := { v.fw with activating := 1, dlResult := 1 } }, stOk, []))) ∧
      (∀ v r, fwStageActivate s {} 0 = (v, some r) → exec (.dlActionStageActivate src) s =
        .next (Answered src 0x107005 ({ v with fw := { v.fw with dlResult := 0x0100 + r } }, stOk, [])))) ∧
    (∀ k : Bytes, k.length = 32 → ∃ t, exec (.portKeyWrite src k) s = .next t ∧ t = { s with store := t.store, dict := t.dict } ∧
      t.store = { s.store with portKey := if k.all (· == 0) then none else some k } ∧ t.dict.kept = [])

/-- WAORI_FRAME, DISCOVER_FRAME, ANNOUNCE, the three PLCA rows, ICMPV6_REQUEST and I3C_ENTDAA (R403 to R410): what the port
takes, drops, answers once, and sends. -/
def Obligations.ThePortAnswersFrames : Prop :=
  (∀ (f : Frame) (s : State), (frameTaken s f = false → exec (.waoriFrame f) s = .next s) ∧
    (frameTaken s f = true → frameBad f = true → ∃ t, exec (.waoriFrame f) s = .next t ∧ t = { s with dict := t.dict } ∧
      counter t 0x505004 = satAdd 64 (counter s 0x505004) 1 ∧ t.dict.sent = s.dict.sent)) ∧
  (∀ (f : Frame) (s : State), frameTaken s f = true → frameBad f = false → frKind f = 0 →
    (∀ k, (s.dict.kept.find? fun k => k.addr == f.srcAddr.toNat && k.txid == frTxid f) = some k →
      exec (.waoriFrame f) s = .next { s with dict := { s.dict with sent := k.resp :: s.dict.sent } }) ∧
    ((s.dict.kept.find? fun k => k.addr == f.srcAddr.toNat && k.txid == frTxid f) = none →
      (∀ r, frAuth f = true → authFails s f = some r → ∃ t, exec (.waoriFrame f) s = .next t ∧ t = { s with dict := t.dict } ∧
        t.dict.sent = mkFrame s 1 r (frTxid f) true [] :: s.dict.sent ∧ t.dict.lastSeq = s.dict.lastSeq ∧
        t.dict.kept.head? = some { addr := f.srcAddr.toNat, txid := frTxid f, resp := mkFrame s 1 r (frTxid f) true [] }) ∧
      (frAuth f = true → authFails s f = none → ∃ t, exec (.waoriFrame f) s = .next t ∧ t.dict.lastSeq = frSeq f ∧
        s.dict.lastSeq < frSeq f))) ∧
  (∀ (f : Frame) (s : State), frameTaken s f = true → frameBad f = false → frKind f = 3 → f.toGroup = true →
    frAuth f = false → exec (.discoverFrame f) s =
      .next { s with dict := { s.dict with announceDue := s.dict.announceDue + 1 } }) ∧
  (∀ s : State, portUp s = true → s.fw.pilotUp = true → s.dict.announceDue ≠ 0 → exec .announce s =
    .next { s with dict := { s.dict with sent := announceFrame s :: s.dict.sent, announceDue := s.dict.announceDue - 1 } }) ∧
  (∀ s : State, plcaFollower s = true →
    exec .plcaBeaconTimeout s = .next { s with dict := { s.dict with plca := 3 } } ∧
    exec .plcaBeaconReceived s = .next { s with dict := { s.dict with plca := 2 } } ∧
    exec .plcaOpportunityCollision s = .next { s with dict := { s.dict with plca := 3 } }) ∧
  (∀ (echo : Bool) (src : BitVec 128) (b : Bytes) (s : State), portUp s = true → exec (.icmpv6Request echo src b) s =
    .next { s with dict := { s.dict with
      sent := ([if echo then 129 else 136] ++ Crypto.toBe 16 src.toNat ++ b) :: s.dict.sent } }) ∧
  (∀ s : State, (s.power.vaux = true → exec .i3cEntdaa s = .next { s with dict := { s.dict with i3c := true } }) ∧
    (s.power.vaux = false → exec .i3cEntdaa s = .next s))

/-- CONTROLLER_RESET, FUNCTION_LEVEL_RESET, CONVENTIONAL_RESET, FUNCTION_D3HOT, PILOT_WATCHDOG_RESET and
IO_WATCHDOG_EXPIRY (R279, R282, R384, R422, R433): a controller that resets ends its commands with no completion and loses
its queues; the flagged erases of a pilot that restarts are done again.
DEVICE_SELF_TEST and FIELD_SELF_TEST (R436): which tests run, and that what they find takes effect on idle units. -/
def Obligations.ResetsAndSelfTests : Prop :=
  ((∀ (f : Fin 128) (s : State), ∀ u ∈ [resetController s f, resetFunction s f], u.ctrls[f].ccEn = false ∧ u.ctrls[f].csts = false ∧
    u.ctrls[f].sqs = [] ∧ u.ctrls[f].cqs = [] ∧ u.ctrls[f].aers = [] ∧ (∀ k ∈ u.inflight, k.key.fn ≠ f) ∧
    ∀ k ∈ u.inflight, ∃ j ∈ s.inflight, j.key = k.key) ∧
  (∀ (f : Fin 128) (s : State), (s.ctrls[f].ccEn = true → exec (.controllerReset f) s = .next (settle (resetController s f))) ∧
    (s.ctrls[f].ccEn = false → exec (.controllerReset f) s = .next s)) ∧
  (∀ (f : Fin 128) (s : State), s.ctrls[f].enabled = true → ∃ u, exec (.functionLevelReset f) s = .next (settle u) ∧
    u.ctrls[f].sqs = [] ∧ u.ctrls[f].cqs = [] ∧ u.ctrls[f].regs = [] ∧ u.ctrls[f].d3hot = false ∧ (∀ k ∈ u.inflight, k.key.fn ≠ f) ∧
    (tdiLocked s f = true → u.accounts[acctIx (acctOf f)].tdi = .error)) ∧
  (∀ s : State, ∃ u, exec .conventionalReset s = .next (settle u) ∧ u.inflight = [] ∧ u.power.linkUp = false ∧
    u.power.mod = s.power.mod ∧ ∀ f : Fin 128, u.ctrls[f].sqs = [] ∧ u.ctrls[f].cqs = [] ∧ u.ctrls[f].enabled = s.ctrls[f].enabled) ∧
  (∀ (f : Fin 128) (s : State), s.ctrls[f].enabled = true →
    let t := { s with ctrls := upd s.ctrls f fun c => { c with d3hot := true } }
    (allD3 t && mayPark t) = false → exec (.functionD3hot f) s = .next t) ∧
  (∀ (n : W64) (s : State), s.fw.pilotUp = true → ∃ t, exec (.pilotWatchdogReset n) s = .next t ∧ t.dict.nonce = n ∧
    t.cf.flags = 0 ∧ t = { s with cf := t.cf, dict := t.dict, store := t.store, fw := t.fw, free := t.free }) ∧
  (∀ (key : CmdKey) (s : State), (∀ f, flightOf s key = some f → f.admin = true ∨ watched f.kind = false ∨
    completionWaits s key = true) → exec (.ioWatchdogExpiry key) s = .next s) ∧
  (∀ (key : CmdKey) (f : InFlight) (s : State), flightOf s key = some f → f.admin = false → watched f.kind = true →
    completionWaits s key = false → ∃ u, exec (.ioWatchdogExpiry key) s = .next (fail u key Code.interrupted f.nsid) ∧
      (∃ e, u.health.events.getLast? = some e ∧ e.code = 0x0007) ∧
      counter u 0x611002 = satAdd 64 (counter s 0x611002) 1)) ∧
  ((∀ (e : Sqe) (s : State), Served s e 0x14 true →
    let v := begin_ s e 0x14
    let stc := fieldOf e.cdw10.toNat 3 0
    let w := { v with free := v.free + 1 }
    let found := Config.selfTest v.free
    (e.fn.val ≠ 0 → exec (.deviceSelfTest e) s = .next (fail v e.key Code.invalidOpcode)) ∧
    (e.fn.val = 0 → stc = 1 → exec (.deviceSelfTest e) s = .next
      (complete (applyResults w (found.filter fun r => match r with | .sram _ => false | _ => true)) e.key Code.ok 0 0)) ∧
    (e.fn.val = 0 → stc = 2 → exec (.deviceSelfTest e) s =
      .next (complete (coverMarked (applyResults w found)) e.key Code.ok 0 0))) ∧
  (∀ (r : TestResult) (s : State), resultOk r = false → exec (.fieldSelfTest r) s = .fault .illFormed) ∧
  (∀ (c : Fin 8) (e : Fin 4) (t : EngineTest) (s : State), railsUp s = true → engineIdle s c e = true → coverOk t = true →
    exec (.fieldSelfTest (.engine c e t)) s = .next (testedEngine s c e t)) ∧
  (∀ (ch : Fin 48) (n : Nat) (s : State), railsUp s = true → clusterIdle s ch = true →
    exec (.fieldSelfTest (.cluster ch n)) s = .next (retireSlots s ch (min n (slotsInService s.clusters[ch])))) ∧
  (∀ (c : Fin 8) (s : State), railsUp s = true → (∀ e, engineIdle s c e = true) →
    exec (.fieldSelfTest (.core c)) s = .next (retireCore s c)) ∧
  (∀ (n : Nat) (s : State), exec (.fieldSelfTest (.sram n)) s = .next s))

/-- PILOT_CLOCK_START, PILOT_CLOCK_STOP, CORE_DIM, CORE_DARK, CORE_WAKE, CANOPY_DIE_DARK, BANKED_ENTRY, PARKED_ENTRY,
PARKED_DUE_WORK and WAKE_TO_RUNNING (R418 to R423): the conditions of each level and what it keeps. -/
def Obligations.LevelsChangeAsTheStateAllows : Prop :=
  (∀ s : State, (pilotPowered s = true → exec .pilotClockStart s = .next { s with power := { s.power with pilotClk := true } }) ∧
    (runningUp s = true → exec .pilotClockStop s = .next s) ∧
    (runningUp s = false → exec .pilotClockStop s = .next { s with power := { s.power with pilotClk := false } })) ∧
  (∀ (c : Fin 8) (s : State),
    (mayDim s.cores[c] = true → exec (.coreDim c) s = .next { s with cores := upd s.cores c fun k => { k with level := .dim } }) ∧
    (mayDim s.cores[c] = false → exec (.coreDim c) s = .next s) ∧
    (mayDark s c = false → exec (.coreDark c) s = .next s) ∧
    (mayDark s c = true → ∃ t, exec (.coreDark c) s = .next t ∧ t = { s with cores := t.cores, mem := t.mem, chk := t.chk } ∧
      t.cores[c].level = .dark ∧ t.cores[c].bankA = s.cores[c].bankA ∧ t.cores[c].bankB = s.cores[c].bankB ∧
      (∀ e : Fin 4, t.cores[c].engines[e] = { graft := s.cores[c].engines[e].graft }) ∧ (∀ d, d ≠ c → t.cores[d] = s.cores[d]) ∧
      ∀ a, (a < opMemBase c.val 0 ∨ opMemBase c.val 0 + 4 * opMemBytes ≤ a) → t.mem.get 0 a = s.mem.get 0 a) ∧
    (runningUp s = true → s.cores[c].retired = false → s.cores[c].level ≠ .lit → wakeCause s.cores[c] = true →
      ∃ t, exec (.coreWake c) s = .next t ∧ t = { s with cores := t.cores, power := t.power } ∧
        t.cores = upd s.cores c (fun k => { k with level := .lit }) ∧ ∃ d : Fin 2, d.val = c.val / 4 ∧
        t.power = { s.power with dieCanopy := upd s.power.dieCanopy d fun _ => .lit })) ∧
  (∀ (d : Fin 2) (s : State), runningUp s = true → (∀ c : Fin 8, c.val / 4 = d.val →
      s.cores[c].level = .dark ∧ loneProg s.cores[c] = false) → hotOn s d.val = [] →
    ∃ u, exec (.canopyDieDark d) s = .next (settle u) ∧ u.power.dieCanopy = upd s.power.dieCanopy d (fun _ => .dark) ∧
      (∀ c : Fin 8, c.val / 4 ≠ d.val → u.cores[c] = s.cores[c]) ∧
      (∀ i, (u.sess.get? i).map (fun x => (x.res, x.grant, x.layerTbl)) = (s.sess.get? i).map fun x => (x.res, x.grant, x.layerTbl)) ∧
      ∀ c : Fin 8, c.val / 4 = d.val → u.cores[c].maskGen = s.cores[c].maskGen ∧ u.cores[c].retired = s.cores[c].retired) ∧
  (∀ s : State, (runningUp s && !s.power.waking && idle s) = true → ∃ t, exec .bankedEntry s = .next t ∧
    t.power.mod = .banked ∧ t.power.dieTrunk = .dim ∧ (∀ r : Fin 24, t.power.dieRoot[r] = .dim) ∧ (∀ d : Fin 2, t.power.dieCanopy[d] = .dark) ∧
    (∀ i, (t.sess.get? i).map (fun x => (x.res, x.grant, x.layerTbl)) = (s.sess.get? i).map fun x => (x.res, x.grant, x.layerTbl)) ∧
    t.slots = s.slots ∧ t.nss = s.nss ∧ t.media = s.media ∧ t.map = s.map) ∧
  (∀ s : State, mayPark s = true → (parkPrepare s).slots = [] → flashIdle (parkPrepare s) = true → ∃ t,
    exec .parkedEntry s = .next t ∧ t.power.mod = .parked ∧ t.power.dieTrunk = .dark ∧ (∀ r : Fin 24, t.power.dieRoot[r] = .dark) ∧
    (∀ d : Fin 2, t.power.dieCanopy[d] = .dark) ∧ t.gatherCfg = gatherFrom t ∧
    (∀ c : Fin 48, t.channels[c].journal = 0) ∧ t.nss = s.nss) ∧
  (∀ s : State, mayPark s = true → (parkPrepare s).slots ≠ [] ∨ flashIdle (parkPrepare s) = false →
    exec .parkedEntry s = .next (parkPrepare s)) ∧
  (∀ s : State, railsUp s = true → s.power.mod = .parked → exec .parkedDueWork s = .next { s with power := { s.power with
    mod := .banked, dueWork := true, dieRoot := Vector.replicate 24 .dim, dieTrunk := .dim } }) ∧
  (∀ s : State, railsUp s = true → s.power.mod ≠ .running → ∃ u, exec .wakeToRunning s = .next (settle u) ∧
    u.power.mod = .running ∧ u.power.waking = false ∧ u.power.dieTrunk = .lit ∧ ∀ r : Fin 24, u.power.dieRoot[r] = .lit)

/-- POWER_SAMPLE, PWRBRK_ASSERT, PWRBRK_RELEASE, EMERGENCY_THROTTLE_END and CLOCK_STEP_CHANGE's requests (R424, R425, R467, R469):
over the cap the steps go down, under it for 200 samples they come up, the brake asks every core for step 3. -/
def Obligations.TheCapStepsCoresDownAndUp : Prop :=
  (∀ (avg slot cable predicted : Nat) (s : State), runningUp s = true → effectiveCap s < avg →
    (∃ c : Fin 8, canStepDown s c = true) → 9 ≤ s.power.sinceDown → ∃ t, exec (.powerSample avg slot cable predicted) s = .next t ∧
      t = { s with cores := t.cores, power := t.power } ∧ t.power.avg = avg ∧ t.power.slotW = slot ∧ t.power.cableW = cable ∧
      t.power.okSamples = 0 ∧ t.power.sinceDown = 0 ∧
      ∀ c : Fin 8, (canStepDown s c = true → stepNow t.cores[c] = stepNow s.cores[c] + 1) ∧
        (canStepDown s c = false → t.cores[c] = s.cores[c])) ∧
  (∀ (avg slot cable predicted : Nat) (s : State), runningUp s = true → avg ≤ effectiveCap s →
    100 * predicted ≤ 97 * effectiveCap s → s.power.okSamples + 1 < 200 → ∃ t,
      exec (.powerSample avg slot cable predicted) s = .next t ∧ t = { s with power := t.power } ∧
      t.power.okSamples = s.power.okSamples + 1) ∧
  (∀ (avg slot cable predicted : Nat) (s : State), runningUp s = true → avg ≤ effectiveCap s →
    100 * predicted ≤ 97 * effectiveCap s → 199 ≤ s.power.okSamples → s.power.emergency = false →
    s.power.pwrbrkThrottle = false → s.power.progLimit = 4 → (∀ c : Fin 8, s.cores[c].openDelay = false) → ∃ t,
      exec (.powerSample avg slot cable predicted) s = .next t ∧ t.power.okSamples = 0 ∧
      ∀ (c : Fin 8) (d : Fin 2), d.val = c.val / 4 → s.power.thermalHeld[d] = 0 → stepNow t.cores[c] = stepNow s.cores[c] - 1) ∧
  (∀ (avg slot cable predicted : Nat) (s : State), runningUp s = false → exec (.powerSample avg slot cable predicted) s =
    .next { s with power := { s.power with avg := avg, slotW := slot, cableW := cable } }) ∧
  (∀ s : State, s.power.pwrbrk = false → ∃ t, exec .pwrbrkAssert s = .next t ∧
    t = { s with cores := t.cores, power := t.power, dict := t.dict } ∧ t.power.pwrbrk = true ∧ t.power.pwrbrkThrottle = true ∧
    t.power.progLimit = 2 ∧ counter t 0x217005 = satAdd 64 (counter s 0x217005) 1 ∧
    ∀ c : Fin 8, stepNow t.cores[c] = 3 ∧ t.cores[c].openDelay = true) ∧
  (∀ s : State, exec .pwrbrkRelease s = .next { s with power := { s.power with pwrbrk := false } }) ∧
  (∀ s : State, exec .emergencyThrottleEnd s = .next { s with power := { s.power with
    emergency := false, pwrbrkThrottle := s.power.pwrbrkThrottle && s.power.pwrbrk } })

/-- THERMAL_STEP, EMERGENCY_TRIP, THERMAL_SHUTDOWN, NAND_CASE_TEMP_LIMIT and LPDDR5X_TEMP_LIMIT (R427 to R429, R473): what
each reading holds, trips and shuts down. -/
def Obligations.TemperatureHoldsTripsAndShutsDown : Prop :=
  (∀ (cause : Fin 3) (die : Fin 32) (s : State), railsUp s = true → ∃ u, exec (.emergencyTrip cause die) s = .next (settle u) ∧
    u.power.emergency = true ∧ u.power.tripCause = cause.val + 1 ∧ counter u 0x212001 = satAdd 64 (counter s 0x212001) 1 ∧
    (∃ e, u.health.events.getLast? = some e ∧ e.code = 0x0020 ∧ e.die = dieCode die) ∧
    ∀ c : Fin 8, u.cores[c].step = 3 ∧ u.cores[c].stepReq = none ∧ (∀ w, u.cores[c].tile = some w → w.replayed = true ∧ w.closed = false) ∧
      ∀ e : Fin 4, u.cores[c].engines[e].flow = .stopped ∧ u.cores[c].engines[e].acc = [] ∧ u.cores[c].engines[e].chain = none) ∧
  (∀ (die : Fin 32) (temp : Int) (s : State), temp < 110 → 26 ≤ die.val → ∃ t, exec (.thermalStep die temp) s = .next t ∧
    t = { s with power := { s.power with junction := setAt s.power.junction die.val temp } }) ∧
  (∀ (r : Fin 24) (die : Fin 32) (temp : Int) (s : State), railsUp s = true → temp < 110 → die.val = r.val + 2 →
    (dv s 0x215002 : Int) ≤ temp → ∃ t, exec (.thermalStep die temp) s = .next t ∧
      ∀ ch : Fin 48, ch.val / 2 = r.val → t.channels[ch].thermalHalt = true) ∧
  (∀ (die : Fin 32) (temp : Int) (s : State), railsUp s = true → s.power.shutdown = false → 120 ≤ temp → ∃ u,
    exec (.thermalShutdown die temp) s = .next (powerLoss u) ∧ u.power.shutdown = true ∧ u.health.bit1 = true ∧
    (∃ e, u.health.events.getLast? = some e ∧ e.code = 0x0021 ∧ e.die = dieCode die) ∧ (powerLoss u).power.holdup = true) ∧
  (∀ (ch : Fin 48) (temp : Int) (s : State), railsUp s = true → 85 ≤ temp → s.power.shutdown = false → ∃ t,
    exec (.nandCaseTempLimit ch temp) s = .next t ∧ t.power.shutdown = true ∧ t.power.holdup = true) ∧
  (∀ (ch : Fin 48) (temp : Int) (s : State), 70 < temp → temp < 85 → ∃ t, exec (.nandCaseTempLimit ch temp) s = .next t ∧
    t.channels[ch].caseHalt = true ∧ t.power.shutdown = s.power.shutdown) ∧
  (∀ (pkg : Fin 16) (temp : Int) (s : State), temp < 95 → ∃ t, exec (.lpddr5xTempLimit pkg temp) s = .next t ∧
    t = { s with power := t.power } ∧ t.power.refresh2x[pkg] = decide (85 < temp) ∧ t.power.shutdown = s.power.shutdown) ∧
  (∀ (pkg : Fin 16) (temp : Int) (s : State), railsUp s = true → 95 ≤ temp → s.power.shutdown = false → ∃ t,
    exec (.lpddr5xTempLimit pkg temp) s = .next t ∧ t.power.shutdown = true ∧ t.power.holdup = true)

/-- POWER_LOSS_DETECT, HOLDUP_SEQUENCE_END, BANK_TEST, POWER_ON_STARTUP, VAUX_POWER_ON, SINGLE_INPUT_12V, VAUX_REMOVAL,
LINK_TRAINING_COMPLETE, RAIL_OUT_OF_REGULATION and MODULE_FAULT (R318, R319, R430 to R435, R443, R468, R470). -/
def Obligations.PowerIsLostAndReturns : Prop :=
  (∀ s : State, s.power.holdup = false → s.power.phase = .ready → ∃ t, exec .powerLossDetect s = .next t ∧
    t.power.holdup = true ∧ t.inflight = [] ∧ (∀ c : Fin 8, t.cores[c].tile = none ∧ t.cores[c].retired = s.cores[c].retired) ∧
    (∀ c : Fin 48, t.channels[c].dieActive = [] ∧ t.channels[c].suspended = []) ∧
    (s.power.mod ≠ .parked → t.power.flushed = some t.slots ∧ t.power.flushDone = false)) ∧
  (∀ (done present : Bool) (s : State), s.power.holdup = true → (present || s.power.vaux) = true → ∃ t,
    exec (.holdupSequenceEnd done present) s = .next t ∧ t.power.holdup = false ∧ t.slots = [] ∧ t.mem = [] ∧ t.chk = [] ∧
    t.inflight = [] ∧ t.media = s.media ∧ t.nss = s.nss ∧ t.store = s.store ∧ t.power.phase =
      (if present && !s.power.shutdown then .rails else .vauxOnly) ∧
    t.health.badShutdowns = s.health.badShutdowns + (if !done || s.health.bit4 then 1 else 0) ∧
    (s.power.flushed.isSome = true → done = true → counter t 0x61200E = satAdd 64 (counter s 0x61200E) 1)) ∧
  (∀ (j : W32) (s : State), railsUp s = true → ∃ t,
    exec (.bankTest j) s = .next (if bankPasses j then settle (finishSync t) else t) ∧ t.power.bankJ = j ∧
    t.power.bankResult = (if bankPasses j then 0 else 1) ∧ t.health.bit4 = !bankPasses j ∧
    (bankPasses j = false → ∃ e, t.health.events.getLast? = some e ∧ e.code = 0x0018)) ∧
  (∀ (sense : BitVec 2) (img : Bool) (reps : List Bool) (defects : List TestResult) (n : W64) (s : State),
    (defects.all resultOk) = true → s.power.holdup = false → s.power.phase = .rails →
    ∃ t, exec (.powerOnStartup sense img reps defects n) s = .next t ∧ t.inflight = [] ∧ t.power.sense = sense ∧
      t.power.slot12 = true ∧ t.power.cable12 = true ∧
      (t.fw.recovery = false → t.power.phase = .ready ∧ t.power.mod = .running ∧ t.health.failed = false ∧ t.dict.nonce = n ∧
        t.ctrls[(0 : Fin 128)].enabled = true ∧ ∀ f : Fin 128, f.val ≠ 0 → t.ctrls[f].enabled = false)) ∧
  (∀ (img : Bool) (n : W64) (s : State), s.power.vaux = false → ∃ t, exec (.vauxPowerOn img n) s = .next t ∧
    t.power.vaux = true ∧ (pilotPowered s = true → t = { s with power := t.power, dict := t.dict }) ∧
    (pilotPowered s = false → img = true → s.fw.stage.state ≠ 3 → s.cf.flags = 0 → t.fw.pilotUp = true ∧ t.dict.nonce = n)) ∧
  (∀ (slot img : Bool) (n : W64) (s : State), s.power.holdup = false → s.power.phase ≠ .ready → ∃ t,
    exec (.singleInput12v slot img n) s = .next t ∧ t.power.phase = .oneInput ∧ t.power.slot12 = slot ∧ t.power.cable12 = !slot) ∧
  (∀ s : State, ∃ t, exec .vauxRemoval s = .next t ∧ t.power.vaux = false ∧ t.dict.eid = 0 ∧ t.dict.i3c = false ∧
    ((s.power.slot12 || s.power.cable12) = true → t.fw = s.fw)) ∧
  (∀ s : State, (s.power.slot12 || s.power.cable12) = true → s.power.shutdown = false →
    exec .linkTrainingComplete s = .next { s with power := { s.power with linkUp := true } }) ∧
  (∀ (pool : Bool) (ms : Nat) (s : State), railsUp s = true →
    exec (.railOutOfRegulation true pool ms) s = .next (powerLoss s) ∧
    (pool = true ∨ s.power.mod ≠ .parked → exec (.railOutOfRegulation false pool ms) s = .next (faultModule s (if pool then 4 else 2) ms)) ∧
    (pool = false → s.power.mod = .parked → exec (.railOutOfRegulation false pool ms) s = .next s)) ∧
  (∀ (cause : Fin 6) (ms : Nat) (s : State), faultStands s (cause.val + 1) = false → exec (.moduleFault cause ms) s = .next s) ∧
  (∀ (cause : Fin 6) (ms : Nat) (s : State), railsUp s = true → faultStands s (cause.val + 1) = true →
    ∃ t, exec (.moduleFault cause ms) s = .next t ∧ counter t 0x615003 = satAdd 64 (counter s 0x615003) 1 ∧ t.health.faultTimes = recentFaults s.health.faultTimes ms ∧
    (3 ≤ (recentFaults s.health.faultTimes ms).length → t.health.failed = true) ∧
    (s.health.failed = false → (recentFaults s.health.faultTimes ms).length < 3 → t.health.failed = false))

/-- What the commands of administration, of the management port, of SPDM, of the code flash and of the clocks leave as it
was: of each group, every field of the state but those named. -/
def Obligations.QuietCommandsLeaveTheRest : Prop :=
  (∀ (e : Sqe) (s t : State), ∀ c ∈ [Instr.identify e, .getLogPage e, .getFeatures e, .setFeatures e,
      .asynchronousEventRequest e, .createIoCompletionQueue e, .createIoSubmissionQueue e, .namespaceAttachment e,
      .firmwareImageDownload e, .flush e, .programActivationManagement e, .memoryRangeSetManagement e, .securityReceive e,
      .nvmeMiReceive e],
    exec c s = .next t → t = { s with ctrls := t.ctrls, inflight := t.inflight, sess := t.sess, merges := t.merges, hostWrites := t.hostWrites, free := t.free, health := t.health, dict := t.dict, accounts := t.accounts, fw := t.fw, nss := t.nss }) ∧
  (∀ (f : Frame) (k : Nat) (echo : Bool) (a : BitVec 128) (b : Bytes) (n : Fin 128) (o : Nat) (s t : State),
    ∀ c ∈ [Instr.discoverFrame f, .announce, .plcaBeaconTimeout, .plcaBeaconReceived, .plcaOpportunityCollision,
      .icmpv6Request echo a b, .i3cEntdaa, .stagedSetTimeout k, .configRequest n o],
    exec c s = .next t → t = { s with dict := t.dict, cfgSent := t.cfgSent }) ∧
  (∀ (ep : Endpoint) (i : Nat) (r : SpdmReq) (s t : State), ∀ c ∈ [Instr.spdmRequest ep r, .spdmHeartbeatTimeout ep i],
    exec c s = .next t → t = { s with spdm := t.spdm }) ∧
  (∀ (a d : W32) (x : CfCtx) (i : Fin 8) (v : W64) (fetch : Bool) (s t : State), ∀ c ∈ [Instr.wordProgram a d x, .sectorErase a x,
      .blockErase a x, .suspend a x, .resume a x, .sequenceReset a x, .cfArrayRead a fetch, .cfRegionWrite i v],
    exec c s = .next t → t = { s with cf := t.cf, free := t.free, dict := t.dict } ∧ t.cf.arr = s.cf.arr) ∧
  (∀ s t : State, ∀ c ∈ [Instr.pilotClockStart, .pilotClockStop, .linkTrainingComplete, .pwrbrkRelease, .emergencyThrottleEnd],
    exec c s = .next t → t = { s with power := t.power })

end
end

