-- ==== Sys2Proof/Laws/State.lean ====
section
/-! SUPPORT. What each update of one unit leaves: one lemma for each field and update, and what the updated unit holds. -/

namespace Sys2Proof.Machine

/-! ### One element of a vector -/

@[simp] theorem upd_same {α : Type} {n : Nat} (v : Vector α n) (i : Fin n) (f : α → α) : (upd v i f)[i.val] = f v[i.val] := by
  simp [upd]

theorem upd_other {α : Type} {n : Nat} (v : Vector α n) (i j : Fin n) (f : α → α) (h : i ≠ j) : (upd v i f)[j] = v[j] := by
  have : i.val ≠ j.val := fun e => h (Fin.ext e)
  simp [upd, this]

/-! ### The updated unit -/

@[simp] theorem onCore_core (s : State) (c : Fin 8) (f : Core → Core) : (onCore s c f).cores[c.val] = f s.cores[c.val] := upd_same ..
@[simp] theorem onEngine_engine (s : State) (c : Fin 8) (e : Fin 4) (f : Engine → Engine) :
    (onEngine s c e f).cores[c.val].engines[e.val] = f s.cores[c.val].engines[e.val] := by simp [onEngine]
@[simp] theorem onCluster_cluster (s : State) (n : Fin 48) (f : Cluster → Cluster) :
    (onCluster s n f).clusters[n.val] = f s.clusters[n.val] := upd_same ..
@[simp] theorem onChan_channel (s : State) (n : Fin 48) (f : Channel → Channel) :
    (onChan s n f).channels[n.val] = f s.channels[n.val] := upd_same ..
@[simp] theorem onCtrl_ctrl (s : State) (n : Fin 128) (f : Ctrl → Ctrl) : (onCtrl s n f).ctrls[n.val] = f s.ctrls[n.val] := upd_same ..
@[simp] theorem onAcct_account (s : State) (n : Fin 129) (f : Account → Account) :
    (onAcct s n f).accounts[n.val] = f s.accounts[n.val] := upd_same ..
@[simp] theorem onDict_dict (s : State) (f : Dict → Dict) : (onDict s f).dict = f s.dict := rfl
@[simp] theorem onPower_power (s : State) (f : Power → Power) : (onPower s f).power = f s.power := rfl
@[simp] theorem onHealth_health (s : State) (f : Health → Health) : (onHealth s f).health = f s.health := rfl
@[simp] theorem onCf_cf (s : State) (f : CodeFlash → CodeFlash) : (onCf s f).cf = f s.cf := rfl
@[simp] theorem onFw_fw (s : State) (f : Fw → Fw) : (onFw s f).fw = f s.fw := rfl
theorem onCore_other (s : State) (c d : Fin 8) (f : Core → Core) (h : c ≠ d) : (onCore s c f).cores[d] = s.cores[d] := upd_other _ _ _ _ h
theorem onCtrl_other (s : State) (n m : Fin 128) (f : Ctrl → Ctrl) (h : n ≠ m) : (onCtrl s n f).ctrls[m] = s.ctrls[m] := upd_other _ _ _ _ h
theorem onAcct_other (s : State) (n m : Fin 129) (f : Account → Account) (h : n ≠ m) : (onAcct s n f).accounts[m] = s.accounts[m] :=
  upd_other _ _ _ _ h
theorem onChan_other (s : State) (n m : Fin 48) (f : Channel → Channel) (h : n ≠ m) : (onChan s n f).channels[m] = s.channels[m] :=
  upd_other _ _ _ _ h
theorem onCluster_other (s : State) (n m : Fin 48) (f : Cluster → Cluster) (h : n ≠ m) : (onCluster s n f).clusters[m] = s.clusters[m] :=
  upd_other _ _ _ _ h

/-! ### The fields that an update leaves alone -/

@[simp] theorem onCore_pending (s : State) (c : Fin 8) (f : Core → Core) : (onCore s c f).pending = s.pending := rfl
@[simp] theorem onCore_free (s : State) (c : Fin 8) (f : Core → Core) : (onCore s c f).free = s.free := rfl
@[simp] theorem onCore_mem (s : State) (c : Fin 8) (f : Core → Core) : (onCore s c f).mem = s.mem := rfl
@[simp] theorem onCore_chk (s : State) (c : Fin 8) (f : Core → Core) : (onCore s c f).chk = s.chk := rfl
@[simp] theorem onCore_tileDir (s : State) (c : Fin 8) (f : Core → Core) : (onCore s c f).tileDir = s.tileDir := rfl
@[simp] theorem onCore_maxRec (s : State) (c : Fin 8) (f : Core → Core) : (onCore s c f).maxRec = s.maxRec := rfl
@[simp] theorem onCore_useCount (s : State) (c : Fin 8) (f : Core → Core) : (onCore s c f).useCount = s.useCount := rfl
@[simp] theorem onCore_poolGrants (s : State) (c : Fin 8) (f : Core → Core) : (onCore s c f).poolGrants = s.poolGrants := rfl
@[simp] theorem onCore_gatherCfg (s : State) (c : Fin 8) (f : Core → Core) : (onCore s c f).gatherCfg = s.gatherCfg := rfl
@[simp] theorem onCore_clusters (s : State) (c : Fin 8) (f : Core → Core) : (onCore s c f).clusters = s.clusters := rfl
@[simp] theorem onCore_kernels (s : State) (c : Fin 8) (f : Core → Core) : (onCore s c f).kernels = s.kernels := rfl
@[simp] theorem onCore_channels (s : State) (c : Fin 8) (f : Core → Core) : (onCore s c f).channels = s.channels := rfl
@[simp] theorem onCore_map (s : State) (c : Fin 8) (f : Core → Core) : (onCore s c f).map = s.map := rfl
@[simp] theorem onCore_media (s : State) (c : Fin 8) (f : Core → Core) : (onCore s c f).media = s.media := rfl
@[simp] theorem onCore_slots (s : State) (c : Fin 8) (f : Core → Core) : (onCore s c f).slots = s.slots := rfl
@[simp] theorem onCore_jobs (s : State) (c : Fin 8) (f : Core → Core) : (onCore s c f).jobs = s.jobs := rfl
@[simp] theorem onCore_held (s : State) (c : Fin 8) (f : Core → Core) : (onCore s c f).held = s.held := rfl
@[simp] theorem onCore_imports (s : State) (c : Fin 8) (f : Core → Core) : (onCore s c f).imports = s.imports := rfl
@[simp] theorem onCore_syncWait (s : State) (c : Fin 8) (f : Core → Core) : (onCore s c f).syncWait = s.syncWait := rfl
@[simp] theorem onCore_nss (s : State) (c : Fin 8) (f : Core → Core) : (onCore s c f).nss = s.nss := rfl
@[simp] theorem onCore_sess (s : State) (c : Fin 8) (f : Core → Core) : (onCore s c f).sess = s.sess := rfl
@[simp] theorem onCore_attends (s : State) (c : Fin 8) (f : Core → Core) : (onCore s c f).attends = s.attends := rfl
@[simp] theorem onCore_indexes (s : State) (c : Fin 8) (f : Core → Core) : (onCore s c f).indexes = s.indexes := rfl
@[simp] theorem onCore_queries (s : State) (c : Fin 8) (f : Core → Core) : (onCore s c f).queries = s.queries := rfl
@[simp] theorem onCore_queryWait (s : State) (c : Fin 8) (f : Core → Core) : (onCore s c f).queryWait = s.queryWait := rfl
@[simp] theorem onCore_ingests (s : State) (c : Fin 8) (f : Core → Core) : (onCore s c f).ingests = s.ingests := rfl
@[simp] theorem onCore_tables (s : State) (c : Fin 8) (f : Core → Core) : (onCore s c f).tables = s.tables := rfl
@[simp] theorem onCore_ctrls (s : State) (c : Fin 8) (f : Core → Core) : (onCore s c f).ctrls = s.ctrls := rfl
@[simp] theorem onCore_arbTurn (s : State) (c : Fin 8) (f : Core → Core) : (onCore s c f).arbTurn = s.arbTurn := rfl
@[simp] theorem onCore_adminTurn (s : State) (c : Fin 8) (f : Core → Core) : (onCore s c f).adminTurn = s.adminTurn := rfl
@[simp] theorem onCore_urgentTurn (s : State) (c : Fin 8) (f : Core → Core) : (onCore s c f).urgentTurn = s.urgentTurn := rfl
@[simp] theorem onCore_visit (s : State) (c : Fin 8) (f : Core → Core) : (onCore s c f).visit = s.visit := rfl
@[simp] theorem onCore_inflight (s : State) (c : Fin 8) (f : Core → Core) : (onCore s c f).inflight = s.inflight := rfl
@[simp] theorem onCore_cfgSent (s : State) (c : Fin 8) (f : Core → Core) : (onCore s c f).cfgSent = s.cfgSent := rfl
@[simp] theorem onCore_hostWrites (s : State) (c : Fin 8) (f : Core → Core) : (onCore s c f).hostWrites = s.hostWrites := rfl
@[simp] theorem onCore_merges (s : State) (c : Fin 8) (f : Core → Core) : (onCore s c f).merges = s.merges := rfl
@[simp] theorem onCore_accounts (s : State) (c : Fin 8) (f : Core → Core) : (onCore s c f).accounts = s.accounts := rfl
@[simp] theorem onCore_spdm (s : State) (c : Fin 8) (f : Core → Core) : (onCore s c f).spdm = s.spdm := rfl
@[simp] theorem onCore_ide (s : State) (c : Fin 8) (f : Core → Core) : (onCore s c f).ide = s.ide := rfl
@[simp] theorem onCore_store (s : State) (c : Fin 8) (f : Core → Core) : (onCore s c f).store = s.store := rfl
@[simp] theorem onCore_sanitizing (s : State) (c : Fin 8) (f : Core → Core) : (onCore s c f).sanitizing = s.sanitizing := rfl
@[simp] theorem onCore_dict (s : State) (c : Fin 8) (f : Core → Core) : (onCore s c f).dict = s.dict := rfl
@[simp] theorem onCore_cf (s : State) (c : Fin 8) (f : Core → Core) : (onCore s c f).cf = s.cf := rfl
@[simp] theorem onCore_fw (s : State) (c : Fin 8) (f : Core → Core) : (onCore s c f).fw = s.fw := rfl
@[simp] theorem onCore_power (s : State) (c : Fin 8) (f : Core → Core) : (onCore s c f).power = s.power := rfl
@[simp] theorem onCore_health (s : State) (c : Fin 8) (f : Core → Core) : (onCore s c f).health = s.health := rfl
@[simp] theorem onCore_repair (s : State) (c : Fin 8) (f : Core → Core) : (onCore s c f).repair = s.repair := rfl

@[simp] theorem onEngine_pending (s : State) (c : Fin 8) (e : Fin 4) (f : Engine → Engine) : (onEngine s c e f).pending = s.pending := rfl
@[simp] theorem onEngine_free (s : State) (c : Fin 8) (e : Fin 4) (f : Engine → Engine) : (onEngine s c e f).free = s.free := rfl
@[simp] theorem onEngine_mem (s : State) (c : Fin 8) (e : Fin 4) (f : Engine → Engine) : (onEngine s c e f).mem = s.mem := rfl
@[simp] theorem onEngine_chk (s : State) (c : Fin 8) (e : Fin 4) (f : Engine → Engine) : (onEngine s c e f).chk = s.chk := rfl
@[simp] theorem onEngine_tileDir (s : State) (c : Fin 8) (e : Fin 4) (f : Engine → Engine) : (onEngine s c e f).tileDir = s.tileDir := rfl
@[simp] theorem onEngine_maxRec (s : State) (c : Fin 8) (e : Fin 4) (f : Engine → Engine) : (onEngine s c e f).maxRec = s.maxRec := rfl
@[simp] theorem onEngine_useCount (s : State) (c : Fin 8) (e : Fin 4) (f : Engine → Engine) : (onEngine s c e f).useCount = s.useCount := rfl
@[simp] theorem onEngine_poolGrants (s : State) (c : Fin 8) (e : Fin 4) (f : Engine → Engine) : (onEngine s c e f).poolGrants = s.poolGrants := rfl
@[simp] theorem onEngine_gatherCfg (s : State) (c : Fin 8) (e : Fin 4) (f : Engine → Engine) : (onEngine s c e f).gatherCfg = s.gatherCfg := rfl
@[simp] theorem onEngine_clusters (s : State) (c : Fin 8) (e : Fin 4) (f : Engine → Engine) : (onEngine s c e f).clusters = s.clusters := rfl
@[simp] theorem onEngine_kernels (s : State) (c : Fin 8) (e : Fin 4) (f : Engine → Engine) : (onEngine s c e f).kernels = s.kernels := rfl
@[simp] theorem onEngine_channels (s : State) (c : Fin 8) (e : Fin 4) (f : Engine → Engine) : (onEngine s c e f).channels = s.channels := rfl
@[simp] theorem onEngine_map (s : State) (c : Fin 8) (e : Fin 4) (f : Engine → Engine) : (onEngine s c e f).map = s.map := rfl
@[simp] theorem onEngine_media (s : State) (c : Fin 8) (e : Fin 4) (f : Engine → Engine) : (onEngine s c e f).media = s.media := rfl
@[simp] theorem onEngine_slots (s : State) (c : Fin 8) (e : Fin 4) (f : Engine → Engine) : (onEngine s c e f).slots = s.slots := rfl
@[simp] theorem onEngine_jobs (s : State) (c : Fin 8) (e : Fin 4) (f : Engine → Engine) : (onEngine s c e f).jobs = s.jobs := rfl
@[simp] theorem onEngine_held (s : State) (c : Fin 8) (e : Fin 4) (f : Engine → Engine) : (onEngine s c e f).held = s.held := rfl
@[simp] theorem onEngine_imports (s : State) (c : Fin 8) (e : Fin 4) (f : Engine → Engine) : (onEngine s c e f).imports = s.imports := rfl
@[simp] theorem onEngine_syncWait (s : State) (c : Fin 8) (e : Fin 4) (f : Engine → Engine) : (onEngine s c e f).syncWait = s.syncWait := rfl
@[simp] theorem onEngine_nss (s : State) (c : Fin 8) (e : Fin 4) (f : Engine → Engine) : (onEngine s c e f).nss = s.nss := rfl
@[simp] theorem onEngine_sess (s : State) (c : Fin 8) (e : Fin 4) (f : Engine → Engine) : (onEngine s c e f).sess = s.sess := rfl
@[simp] theorem onEngine_attends (s : State) (c : Fin 8) (e : Fin 4) (f : Engine → Engine) : (onEngine s c e f).attends = s.attends := rfl
@[simp] theorem onEngine_indexes (s : State) (c : Fin 8) (e : Fin 4) (f : Engine → Engine) : (onEngine s c e f).indexes = s.indexes := rfl
@[simp] theorem onEngine_queries (s : State) (c : Fin 8) (e : Fin 4) (f : Engine → Engine) : (onEngine s c e f).queries = s.queries := rfl
@[simp] theorem onEngine_queryWait (s : State) (c : Fin 8) (e : Fin 4) (f : Engine → Engine) : (onEngine s c e f).queryWait = s.queryWait := rfl
@[simp] theorem onEngine_ingests (s : State) (c : Fin 8) (e : Fin 4) (f : Engine → Engine) : (onEngine s c e f).ingests = s.ingests := rfl
@[simp] theorem onEngine_tables (s : State) (c : Fin 8) (e : Fin 4) (f : Engine → Engine) : (onEngine s c e f).tables = s.tables := rfl
@[simp] theorem onEngine_ctrls (s : State) (c : Fin 8) (e : Fin 4) (f : Engine → Engine) : (onEngine s c e f).ctrls = s.ctrls := rfl
@[simp] theorem onEngine_arbTurn (s : State) (c : Fin 8) (e : Fin 4) (f : Engine → Engine) : (onEngine s c e f).arbTurn = s.arbTurn := rfl
@[simp] theorem onEngine_adminTurn (s : State) (c : Fin 8) (e : Fin 4) (f : Engine → Engine) : (onEngine s c e f).adminTurn = s.adminTurn := rfl
@[simp] theorem onEngine_urgentTurn (s : State) (c : Fin 8) (e : Fin 4) (f : Engine → Engine) : (onEngine s c e f).urgentTurn = s.urgentTurn := rfl
@[simp] theorem onEngine_visit (s : State) (c : Fin 8) (e : Fin 4) (f : Engine → Engine) : (onEngine s c e f).visit = s.visit := rfl
@[simp] theorem onEngine_inflight (s : State) (c : Fin 8) (e : Fin 4) (f : Engine → Engine) : (onEngine s c e f).inflight = s.inflight := rfl
@[simp] theorem onEngine_cfgSent (s : State) (c : Fin 8) (e : Fin 4) (f : Engine → Engine) : (onEngine s c e f).cfgSent = s.cfgSent := rfl
@[simp] theorem onEngine_hostWrites (s : State) (c : Fin 8) (e : Fin 4) (f : Engine → Engine) : (onEngine s c e f).hostWrites = s.hostWrites := rfl
@[simp] theorem onEngine_merges (s : State) (c : Fin 8) (e : Fin 4) (f : Engine → Engine) : (onEngine s c e f).merges = s.merges := rfl
@[simp] theorem onEngine_accounts (s : State) (c : Fin 8) (e : Fin 4) (f : Engine → Engine) : (onEngine s c e f).accounts = s.accounts := rfl
@[simp] theorem onEngine_spdm (s : State) (c : Fin 8) (e : Fin 4) (f : Engine → Engine) : (onEngine s c e f).spdm = s.spdm := rfl
@[simp] theorem onEngine_ide (s : State) (c : Fin 8) (e : Fin 4) (f : Engine → Engine) : (onEngine s c e f).ide = s.ide := rfl
@[simp] theorem onEngine_store (s : State) (c : Fin 8) (e : Fin 4) (f : Engine → Engine) : (onEngine s c e f).store = s.store := rfl
@[simp] theorem onEngine_sanitizing (s : State) (c : Fin 8) (e : Fin 4) (f : Engine → Engine) : (onEngine s c e f).sanitizing = s.sanitizing := rfl
@[simp] theorem onEngine_dict (s : State) (c : Fin 8) (e : Fin 4) (f : Engine → Engine) : (onEngine s c e f).dict = s.dict := rfl
@[simp] theorem onEngine_cf (s : State) (c : Fin 8) (e : Fin 4) (f : Engine → Engine) : (onEngine s c e f).cf = s.cf := rfl
@[simp] theorem onEngine_fw (s : State) (c : Fin 8) (e : Fin 4) (f : Engine → Engine) : (onEngine s c e f).fw = s.fw := rfl
@[simp] theorem onEngine_power (s : State) (c : Fin 8) (e : Fin 4) (f : Engine → Engine) : (onEngine s c e f).power = s.power := rfl
@[simp] theorem onEngine_health (s : State) (c : Fin 8) (e : Fin 4) (f : Engine → Engine) : (onEngine s c e f).health = s.health := rfl
@[simp] theorem onEngine_repair (s : State) (c : Fin 8) (e : Fin 4) (f : Engine → Engine) : (onEngine s c e f).repair = s.repair := rfl

@[simp] theorem onCluster_pending (s : State) (n : Fin 48) (f : Cluster → Cluster) : (onCluster s n f).pending = s.pending := rfl
@[simp] theorem onCluster_free (s : State) (n : Fin 48) (f : Cluster → Cluster) : (onCluster s n f).free = s.free := rfl
@[simp] theorem onCluster_mem (s : State) (n : Fin 48) (f : Cluster → Cluster) : (onCluster s n f).mem = s.mem := rfl
@[simp] theorem onCluster_chk (s : State) (n : Fin 48) (f : Cluster → Cluster) : (onCluster s n f).chk = s.chk := rfl
@[simp] theorem onCluster_tileDir (s : State) (n : Fin 48) (f : Cluster → Cluster) : (onCluster s n f).tileDir = s.tileDir := rfl
@[simp] theorem onCluster_maxRec (s : State) (n : Fin 48) (f : Cluster → Cluster) : (onCluster s n f).maxRec = s.maxRec := rfl
@[simp] theorem onCluster_useCount (s : State) (n : Fin 48) (f : Cluster → Cluster) : (onCluster s n f).useCount = s.useCount := rfl
@[simp] theorem onCluster_poolGrants (s : State) (n : Fin 48) (f : Cluster → Cluster) : (onCluster s n f).poolGrants = s.poolGrants := rfl
@[simp] theorem onCluster_gatherCfg (s : State) (n : Fin 48) (f : Cluster → Cluster) : (onCluster s n f).gatherCfg = s.gatherCfg := rfl
@[simp] theorem onCluster_cores (s : State) (n : Fin 48) (f : Cluster → Cluster) : (onCluster s n f).cores = s.cores := rfl
@[simp] theorem onCluster_kernels (s : State) (n : Fin 48) (f : Cluster → Cluster) : (onCluster s n f).kernels = s.kernels := rfl
@[simp] theorem onCluster_channels (s : State) (n : Fin 48) (f : Cluster → Cluster) : (onCluster s n f).channels = s.channels := rfl
@[simp] theorem onCluster_map (s : State) (n : Fin 48) (f : Cluster → Cluster) : (onCluster s n f).map = s.map := rfl
@[simp] theorem onCluster_media (s : State) (n : Fin 48) (f : Cluster → Cluster) : (onCluster s n f).media = s.media := rfl
@[simp] theorem onCluster_slots (s : State) (n : Fin 48) (f : Cluster → Cluster) : (onCluster s n f).slots = s.slots := rfl
@[simp] theorem onCluster_jobs (s : State) (n : Fin 48) (f : Cluster → Cluster) : (onCluster s n f).jobs = s.jobs := rfl
@[simp] theorem onCluster_held (s : State) (n : Fin 48) (f : Cluster → Cluster) : (onCluster s n f).held = s.held := rfl
@[simp] theorem onCluster_imports (s : State) (n : Fin 48) (f : Cluster → Cluster) : (onCluster s n f).imports = s.imports := rfl
@[simp] theorem onCluster_syncWait (s : State) (n : Fin 48) (f : Cluster → Cluster) : (onCluster s n f).syncWait = s.syncWait := rfl
@[simp] theorem onCluster_nss (s : State) (n : Fin 48) (f : Cluster → Cluster) : (onCluster s n f).nss = s.nss := rfl
@[simp] theorem onCluster_sess (s : State) (n : Fin 48) (f : Cluster → Cluster) : (onCluster s n f).sess = s.sess := rfl
@[simp] theorem onCluster_attends (s : State) (n : Fin 48) (f : Cluster → Cluster) : (onCluster s n f).attends = s.attends := rfl
@[simp] theorem onCluster_indexes (s : State) (n : Fin 48) (f : Cluster → Cluster) : (onCluster s n f).indexes = s.indexes := rfl
@[simp] theorem onCluster_queries (s : State) (n : Fin 48) (f : Cluster → Cluster) : (onCluster s n f).queries = s.queries := rfl
@[simp] theorem onCluster_queryWait (s : State) (n : Fin 48) (f : Cluster → Cluster) : (onCluster s n f).queryWait = s.queryWait := rfl
@[simp] theorem onCluster_ingests (s : State) (n : Fin 48) (f : Cluster → Cluster) : (onCluster s n f).ingests = s.ingests := rfl
@[simp] theorem onCluster_tables (s : State) (n : Fin 48) (f : Cluster → Cluster) : (onCluster s n f).tables = s.tables := rfl
@[simp] theorem onCluster_ctrls (s : State) (n : Fin 48) (f : Cluster → Cluster) : (onCluster s n f).ctrls = s.ctrls := rfl
@[simp] theorem onCluster_arbTurn (s : State) (n : Fin 48) (f : Cluster → Cluster) : (onCluster s n f).arbTurn = s.arbTurn := rfl
@[simp] theorem onCluster_adminTurn (s : State) (n : Fin 48) (f : Cluster → Cluster) : (onCluster s n f).adminTurn = s.adminTurn := rfl
@[simp] theorem onCluster_urgentTurn (s : State) (n : Fin 48) (f : Cluster → Cluster) : (onCluster s n f).urgentTurn = s.urgentTurn := rfl
@[simp] theorem onCluster_visit (s : State) (n : Fin 48) (f : Cluster → Cluster) : (onCluster s n f).visit = s.visit := rfl
@[simp] theorem onCluster_inflight (s : State) (n : Fin 48) (f : Cluster → Cluster) : (onCluster s n f).inflight = s.inflight := rfl
@[simp] theorem onCluster_cfgSent (s : State) (n : Fin 48) (f : Cluster → Cluster) : (onCluster s n f).cfgSent = s.cfgSent := rfl
@[simp] theorem onCluster_hostWrites (s : State) (n : Fin 48) (f : Cluster → Cluster) : (onCluster s n f).hostWrites = s.hostWrites := rfl
@[simp] theorem onCluster_merges (s : State) (n : Fin 48) (f : Cluster → Cluster) : (onCluster s n f).merges = s.merges := rfl
@[simp] theorem onCluster_accounts (s : State) (n : Fin 48) (f : Cluster → Cluster) : (onCluster s n f).accounts = s.accounts := rfl
@[simp] theorem onCluster_spdm (s : State) (n : Fin 48) (f : Cluster → Cluster) : (onCluster s n f).spdm = s.spdm := rfl
@[simp] theorem onCluster_ide (s : State) (n : Fin 48) (f : Cluster → Cluster) : (onCluster s n f).ide = s.ide := rfl
@[simp] theorem onCluster_store (s : State) (n : Fin 48) (f : Cluster → Cluster) : (onCluster s n f).store = s.store := rfl
@[simp] theorem onCluster_sanitizing (s : State) (n : Fin 48) (f : Cluster → Cluster) : (onCluster s n f).sanitizing = s.sanitizing := rfl
@[simp] theorem onCluster_dict (s : State) (n : Fin 48) (f : Cluster → Cluster) : (onCluster s n f).dict = s.dict := rfl
@[simp] theorem onCluster_cf (s : State) (n : Fin 48) (f : Cluster → Cluster) : (onCluster s n f).cf = s.cf := rfl
@[simp] theorem onCluster_fw (s : State) (n : Fin 48) (f : Cluster → Cluster) : (onCluster s n f).fw = s.fw := rfl
@[simp] theorem onCluster_power (s : State) (n : Fin 48) (f : Cluster → Cluster) : (onCluster s n f).power = s.power := rfl
@[simp] theorem onCluster_health (s : State) (n : Fin 48) (f : Cluster → Cluster) : (onCluster s n f).health = s.health := rfl
@[simp] theorem onCluster_repair (s : State) (n : Fin 48) (f : Cluster → Cluster) : (onCluster s n f).repair = s.repair := rfl

@[simp] theorem onChan_pending (s : State) (n : Fin 48) (f : Channel → Channel) : (onChan s n f).pending = s.pending := rfl
@[simp] theorem onChan_free (s : State) (n : Fin 48) (f : Channel → Channel) : (onChan s n f).free = s.free := rfl
@[simp] theorem onChan_mem (s : State) (n : Fin 48) (f : Channel → Channel) : (onChan s n f).mem = s.mem := rfl
@[simp] theorem onChan_chk (s : State) (n : Fin 48) (f : Channel → Channel) : (onChan s n f).chk = s.chk := rfl
@[simp] theorem onChan_tileDir (s : State) (n : Fin 48) (f : Channel → Channel) : (onChan s n f).tileDir = s.tileDir := rfl
@[simp] theorem onChan_maxRec (s : State) (n : Fin 48) (f : Channel → Channel) : (onChan s n f).maxRec = s.maxRec := rfl
@[simp] theorem onChan_useCount (s : State) (n : Fin 48) (f : Channel → Channel) : (onChan s n f).useCount = s.useCount := rfl
@[simp] theorem onChan_poolGrants (s : State) (n : Fin 48) (f : Channel → Channel) : (onChan s n f).poolGrants = s.poolGrants := rfl
@[simp] theorem onChan_gatherCfg (s : State) (n : Fin 48) (f : Channel → Channel) : (onChan s n f).gatherCfg = s.gatherCfg := rfl
@[simp] theorem onChan_cores (s : State) (n : Fin 48) (f : Channel → Channel) : (onChan s n f).cores = s.cores := rfl
@[simp] theorem onChan_clusters (s : State) (n : Fin 48) (f : Channel → Channel) : (onChan s n f).clusters = s.clusters := rfl
@[simp] theorem onChan_kernels (s : State) (n : Fin 48) (f : Channel → Channel) : (onChan s n f).kernels = s.kernels := rfl
@[simp] theorem onChan_map (s : State) (n : Fin 48) (f : Channel → Channel) : (onChan s n f).map = s.map := rfl
@[simp] theorem onChan_media (s : State) (n : Fin 48) (f : Channel → Channel) : (onChan s n f).media = s.media := rfl
@[simp] theorem onChan_slots (s : State) (n : Fin 48) (f : Channel → Channel) : (onChan s n f).slots = s.slots := rfl
@[simp] theorem onChan_jobs (s : State) (n : Fin 48) (f : Channel → Channel) : (onChan s n f).jobs = s.jobs := rfl
@[simp] theorem onChan_held (s : State) (n : Fin 48) (f : Channel → Channel) : (onChan s n f).held = s.held := rfl
@[simp] theorem onChan_imports (s : State) (n : Fin 48) (f : Channel → Channel) : (onChan s n f).imports = s.imports := rfl
@[simp] theorem onChan_syncWait (s : State) (n : Fin 48) (f : Channel → Channel) : (onChan s n f).syncWait = s.syncWait := rfl
@[simp] theorem onChan_nss (s : State) (n : Fin 48) (f : Channel → Channel) : (onChan s n f).nss = s.nss := rfl
@[simp] theorem onChan_sess (s : State) (n : Fin 48) (f : Channel → Channel) : (onChan s n f).sess = s.sess := rfl
@[simp] theorem onChan_attends (s : State) (n : Fin 48) (f : Channel → Channel) : (onChan s n f).attends = s.attends := rfl
@[simp] theorem onChan_indexes (s : State) (n : Fin 48) (f : Channel → Channel) : (onChan s n f).indexes = s.indexes := rfl
@[simp] theorem onChan_queries (s : State) (n : Fin 48) (f : Channel → Channel) : (onChan s n f).queries = s.queries := rfl
@[simp] theorem onChan_queryWait (s : State) (n : Fin 48) (f : Channel → Channel) : (onChan s n f).queryWait = s.queryWait := rfl
@[simp] theorem onChan_ingests (s : State) (n : Fin 48) (f : Channel → Channel) : (onChan s n f).ingests = s.ingests := rfl
@[simp] theorem onChan_tables (s : State) (n : Fin 48) (f : Channel → Channel) : (onChan s n f).tables = s.tables := rfl
@[simp] theorem onChan_ctrls (s : State) (n : Fin 48) (f : Channel → Channel) : (onChan s n f).ctrls = s.ctrls := rfl
@[simp] theorem onChan_arbTurn (s : State) (n : Fin 48) (f : Channel → Channel) : (onChan s n f).arbTurn = s.arbTurn := rfl
@[simp] theorem onChan_adminTurn (s : State) (n : Fin 48) (f : Channel → Channel) : (onChan s n f).adminTurn = s.adminTurn := rfl
@[simp] theorem onChan_urgentTurn (s : State) (n : Fin 48) (f : Channel → Channel) : (onChan s n f).urgentTurn = s.urgentTurn := rfl
@[simp] theorem onChan_visit (s : State) (n : Fin 48) (f : Channel → Channel) : (onChan s n f).visit = s.visit := rfl
@[simp] theorem onChan_inflight (s : State) (n : Fin 48) (f : Channel → Channel) : (onChan s n f).inflight = s.inflight := rfl
@[simp] theorem onChan_cfgSent (s : State) (n : Fin 48) (f : Channel → Channel) : (onChan s n f).cfgSent = s.cfgSent := rfl
@[simp] theorem onChan_hostWrites (s : State) (n : Fin 48) (f : Channel → Channel) : (onChan s n f).hostWrites = s.hostWrites := rfl
@[simp] theorem onChan_merges (s : State) (n : Fin 48) (f : Channel → Channel) : (onChan s n f).merges = s.merges := rfl
@[simp] theorem onChan_accounts (s : State) (n : Fin 48) (f : Channel → Channel) : (onChan s n f).accounts = s.accounts := rfl
@[simp] theorem onChan_spdm (s : State) (n : Fin 48) (f : Channel → Channel) : (onChan s n f).spdm = s.spdm := rfl
@[simp] theorem onChan_ide (s : State) (n : Fin 48) (f : Channel → Channel) : (onChan s n f).ide = s.ide := rfl
@[simp] theorem onChan_store (s : State) (n : Fin 48) (f : Channel → Channel) : (onChan s n f).store = s.store := rfl
@[simp] theorem onChan_sanitizing (s : State) (n : Fin 48) (f : Channel → Channel) : (onChan s n f).sanitizing = s.sanitizing := rfl
@[simp] theorem onChan_dict (s : State) (n : Fin 48) (f : Channel → Channel) : (onChan s n f).dict = s.dict := rfl
@[simp] theorem onChan_cf (s : State) (n : Fin 48) (f : Channel → Channel) : (onChan s n f).cf = s.cf := rfl
@[simp] theorem onChan_fw (s : State) (n : Fin 48) (f : Channel → Channel) : (onChan s n f).fw = s.fw := rfl
@[simp] theorem onChan_power (s : State) (n : Fin 48) (f : Channel → Channel) : (onChan s n f).power = s.power := rfl
@[simp] theorem onChan_health (s : State) (n : Fin 48) (f : Channel → Channel) : (onChan s n f).health = s.health := rfl
@[simp] theorem onChan_repair (s : State) (n : Fin 48) (f : Channel → Channel) : (onChan s n f).repair = s.repair := rfl

@[simp] theorem onCtrl_pending (s : State) (n : Fin 128) (f : Ctrl → Ctrl) : (onCtrl s n f).pending = s.pending := rfl
@[simp] theorem onCtrl_free (s : State) (n : Fin 128) (f : Ctrl → Ctrl) : (onCtrl s n f).free = s.free := rfl
@[simp] theorem onCtrl_mem (s : State) (n : Fin 128) (f : Ctrl → Ctrl) : (onCtrl s n f).mem = s.mem := rfl
@[simp] theorem onCtrl_chk (s : State) (n : Fin 128) (f : Ctrl → Ctrl) : (onCtrl s n f).chk = s.chk := rfl
@[simp] theorem onCtrl_tileDir (s : State) (n : Fin 128) (f : Ctrl → Ctrl) : (onCtrl s n f).tileDir = s.tileDir := rfl
@[simp] theorem onCtrl_maxRec (s : State) (n : Fin 128) (f : Ctrl → Ctrl) : (onCtrl s n f).maxRec = s.maxRec := rfl
@[simp] theorem onCtrl_useCount (s : State) (n : Fin 128) (f : Ctrl → Ctrl) : (onCtrl s n f).useCount = s.useCount := rfl
@[simp] theorem onCtrl_poolGrants (s : State) (n : Fin 128) (f : Ctrl → Ctrl) : (onCtrl s n f).poolGrants = s.poolGrants := rfl
@[simp] theorem onCtrl_gatherCfg (s : State) (n : Fin 128) (f : Ctrl → Ctrl) : (onCtrl s n f).gatherCfg = s.gatherCfg := rfl
@[simp] theorem onCtrl_cores (s : State) (n : Fin 128) (f : Ctrl → Ctrl) : (onCtrl s n f).cores = s.cores := rfl
@[simp] theorem onCtrl_clusters (s : State) (n : Fin 128) (f : Ctrl → Ctrl) : (onCtrl s n f).clusters = s.clusters := rfl
@[simp] theorem onCtrl_kernels (s : State) (n : Fin 128) (f : Ctrl → Ctrl) : (onCtrl s n f).kernels = s.kernels := rfl
@[simp] theorem onCtrl_channels (s : State) (n : Fin 128) (f : Ctrl → Ctrl) : (onCtrl s n f).channels = s.channels := rfl
@[simp] theorem onCtrl_map (s : State) (n : Fin 128) (f : Ctrl → Ctrl) : (onCtrl s n f).map = s.map := rfl
@[simp] theorem onCtrl_media (s : State) (n : Fin 128) (f : Ctrl → Ctrl) : (onCtrl s n f).media = s.media := rfl
@[simp] theorem onCtrl_slots (s : State) (n : Fin 128) (f : Ctrl → Ctrl) : (onCtrl s n f).slots = s.slots := rfl
@[simp] theorem onCtrl_jobs (s : State) (n : Fin 128) (f : Ctrl → Ctrl) : (onCtrl s n f).jobs = s.jobs := rfl
@[simp] theorem onCtrl_held (s : State) (n : Fin 128) (f : Ctrl → Ctrl) : (onCtrl s n f).held = s.held := rfl
@[simp] theorem onCtrl_imports (s : State) (n : Fin 128) (f : Ctrl → Ctrl) : (onCtrl s n f).imports = s.imports := rfl
@[simp] theorem onCtrl_syncWait (s : State) (n : Fin 128) (f : Ctrl → Ctrl) : (onCtrl s n f).syncWait = s.syncWait := rfl
@[simp] theorem onCtrl_nss (s : State) (n : Fin 128) (f : Ctrl → Ctrl) : (onCtrl s n f).nss = s.nss := rfl
@[simp] theorem onCtrl_sess (s : State) (n : Fin 128) (f : Ctrl → Ctrl) : (onCtrl s n f).sess = s.sess := rfl
@[simp] theorem onCtrl_attends (s : State) (n : Fin 128) (f : Ctrl → Ctrl) : (onCtrl s n f).attends = s.attends := rfl
@[simp] theorem onCtrl_indexes (s : State) (n : Fin 128) (f : Ctrl → Ctrl) : (onCtrl s n f).indexes = s.indexes := rfl
@[simp] theorem onCtrl_queries (s : State) (n : Fin 128) (f : Ctrl → Ctrl) : (onCtrl s n f).queries = s.queries := rfl
@[simp] theorem onCtrl_queryWait (s : State) (n : Fin 128) (f : Ctrl → Ctrl) : (onCtrl s n f).queryWait = s.queryWait := rfl
@[simp] theorem onCtrl_ingests (s : State) (n : Fin 128) (f : Ctrl → Ctrl) : (onCtrl s n f).ingests = s.ingests := rfl
@[simp] theorem onCtrl_tables (s : State) (n : Fin 128) (f : Ctrl → Ctrl) : (onCtrl s n f).tables = s.tables := rfl
@[simp] theorem onCtrl_arbTurn (s : State) (n : Fin 128) (f : Ctrl → Ctrl) : (onCtrl s n f).arbTurn = s.arbTurn := rfl
@[simp] theorem onCtrl_adminTurn (s : State) (n : Fin 128) (f : Ctrl → Ctrl) : (onCtrl s n f).adminTurn = s.adminTurn := rfl
@[simp] theorem onCtrl_urgentTurn (s : State) (n : Fin 128) (f : Ctrl → Ctrl) : (onCtrl s n f).urgentTurn = s.urgentTurn := rfl
@[simp] theorem onCtrl_visit (s : State) (n : Fin 128) (f : Ctrl → Ctrl) : (onCtrl s n f).visit = s.visit := rfl
@[simp] theorem onCtrl_inflight (s : State) (n : Fin 128) (f : Ctrl → Ctrl) : (onCtrl s n f).inflight = s.inflight := rfl
@[simp] theorem onCtrl_cfgSent (s : State) (n : Fin 128) (f : Ctrl → Ctrl) : (onCtrl s n f).cfgSent = s.cfgSent := rfl
@[simp] theorem onCtrl_hostWrites (s : State) (n : Fin 128) (f : Ctrl → Ctrl) : (onCtrl s n f).hostWrites = s.hostWrites := rfl
@[simp] theorem onCtrl_merges (s : State) (n : Fin 128) (f : Ctrl → Ctrl) : (onCtrl s n f).merges = s.merges := rfl
@[simp] theorem onCtrl_accounts (s : State) (n : Fin 128) (f : Ctrl → Ctrl) : (onCtrl s n f).accounts = s.accounts := rfl
@[simp] theorem onCtrl_spdm (s : State) (n : Fin 128) (f : Ctrl → Ctrl) : (onCtrl s n f).spdm = s.spdm := rfl
@[simp] theorem onCtrl_ide (s : State) (n : Fin 128) (f : Ctrl → Ctrl) : (onCtrl s n f).ide = s.ide := rfl
@[simp] theorem onCtrl_store (s : State) (n : Fin 128) (f : Ctrl → Ctrl) : (onCtrl s n f).store = s.store := rfl
@[simp] theorem onCtrl_sanitizing (s : State) (n : Fin 128) (f : Ctrl → Ctrl) : (onCtrl s n f).sanitizing = s.sanitizing := rfl
@[simp] theorem onCtrl_dict (s : State) (n : Fin 128) (f : Ctrl → Ctrl) : (onCtrl s n f).dict = s.dict := rfl
@[simp] theorem onCtrl_cf (s : State) (n : Fin 128) (f : Ctrl → Ctrl) : (onCtrl s n f).cf = s.cf := rfl
@[simp] theorem onCtrl_fw (s : State) (n : Fin 128) (f : Ctrl → Ctrl) : (onCtrl s n f).fw = s.fw := rfl
@[simp] theorem onCtrl_power (s : State) (n : Fin 128) (f : Ctrl → Ctrl) : (onCtrl s n f).power = s.power := rfl
@[simp] theorem onCtrl_health (s : State) (n : Fin 128) (f : Ctrl → Ctrl) : (onCtrl s n f).health = s.health := rfl
@[simp] theorem onCtrl_repair (s : State) (n : Fin 128) (f : Ctrl → Ctrl) : (onCtrl s n f).repair = s.repair := rfl

@[simp] theorem onAcct_pending (s : State) (n : Fin 129) (f : Account → Account) : (onAcct s n f).pending = s.pending := rfl
@[simp] theorem onAcct_free (s : State) (n : Fin 129) (f : Account → Account) : (onAcct s n f).free = s.free := rfl
@[simp] theorem onAcct_mem (s : State) (n : Fin 129) (f : Account → Account) : (onAcct s n f).mem = s.mem := rfl
@[simp] theorem onAcct_chk (s : State) (n : Fin 129) (f : Account → Account) : (onAcct s n f).chk = s.chk := rfl
@[simp] theorem onAcct_tileDir (s : State) (n : Fin 129) (f : Account → Account) : (onAcct s n f).tileDir = s.tileDir := rfl
@[simp] theorem onAcct_maxRec (s : State) (n : Fin 129) (f : Account → Account) : (onAcct s n f).maxRec = s.maxRec := rfl
@[simp] theorem onAcct_useCount (s : State) (n : Fin 129) (f : Account → Account) : (onAcct s n f).useCount = s.useCount := rfl
@[simp] theorem onAcct_poolGrants (s : State) (n : Fin 129) (f : Account → Account) : (onAcct s n f).poolGrants = s.poolGrants := rfl
@[simp] theorem onAcct_gatherCfg (s : State) (n : Fin 129) (f : Account → Account) : (onAcct s n f).gatherCfg = s.gatherCfg := rfl
@[simp] theorem onAcct_cores (s : State) (n : Fin 129) (f : Account → Account) : (onAcct s n f).cores = s.cores := rfl
@[simp] theorem onAcct_clusters (s : State) (n : Fin 129) (f : Account → Account) : (onAcct s n f).clusters = s.clusters := rfl
@[simp] theorem onAcct_kernels (s : State) (n : Fin 129) (f : Account → Account) : (onAcct s n f).kernels = s.kernels := rfl
@[simp] theorem onAcct_channels (s : State) (n : Fin 129) (f : Account → Account) : (onAcct s n f).channels = s.channels := rfl
@[simp] theorem onAcct_map (s : State) (n : Fin 129) (f : Account → Account) : (onAcct s n f).map = s.map := rfl
@[simp] theorem onAcct_media (s : State) (n : Fin 129) (f : Account → Account) : (onAcct s n f).media = s.media := rfl
@[simp] theorem onAcct_slots (s : State) (n : Fin 129) (f : Account → Account) : (onAcct s n f).slots = s.slots := rfl
@[simp] theorem onAcct_jobs (s : State) (n : Fin 129) (f : Account → Account) : (onAcct s n f).jobs = s.jobs := rfl
@[simp] theorem onAcct_held (s : State) (n : Fin 129) (f : Account → Account) : (onAcct s n f).held = s.held := rfl
@[simp] theorem onAcct_imports (s : State) (n : Fin 129) (f : Account → Account) : (onAcct s n f).imports = s.imports := rfl
@[simp] theorem onAcct_syncWait (s : State) (n : Fin 129) (f : Account → Account) : (onAcct s n f).syncWait = s.syncWait := rfl
@[simp] theorem onAcct_nss (s : State) (n : Fin 129) (f : Account → Account) : (onAcct s n f).nss = s.nss := rfl
@[simp] theorem onAcct_sess (s : State) (n : Fin 129) (f : Account → Account) : (onAcct s n f).sess = s.sess := rfl
@[simp] theorem onAcct_attends (s : State) (n : Fin 129) (f : Account → Account) : (onAcct s n f).attends = s.attends := rfl
@[simp] theorem onAcct_indexes (s : State) (n : Fin 129) (f : Account → Account) : (onAcct s n f).indexes = s.indexes := rfl
@[simp] theorem onAcct_queries (s : State) (n : Fin 129) (f : Account → Account) : (onAcct s n f).queries = s.queries := rfl
@[simp] theorem onAcct_queryWait (s : State) (n : Fin 129) (f : Account → Account) : (onAcct s n f).queryWait = s.queryWait := rfl
@[simp] theorem onAcct_ingests (s : State) (n : Fin 129) (f : Account → Account) : (onAcct s n f).ingests = s.ingests := rfl
@[simp] theorem onAcct_tables (s : State) (n : Fin 129) (f : Account → Account) : (onAcct s n f).tables = s.tables := rfl
@[simp] theorem onAcct_ctrls (s : State) (n : Fin 129) (f : Account → Account) : (onAcct s n f).ctrls = s.ctrls := rfl
@[simp] theorem onAcct_arbTurn (s : State) (n : Fin 129) (f : Account → Account) : (onAcct s n f).arbTurn = s.arbTurn := rfl
@[simp] theorem onAcct_adminTurn (s : State) (n : Fin 129) (f : Account → Account) : (onAcct s n f).adminTurn = s.adminTurn := rfl
@[simp] theorem onAcct_urgentTurn (s : State) (n : Fin 129) (f : Account → Account) : (onAcct s n f).urgentTurn = s.urgentTurn := rfl
@[simp] theorem onAcct_visit (s : State) (n : Fin 129) (f : Account → Account) : (onAcct s n f).visit = s.visit := rfl
@[simp] theorem onAcct_inflight (s : State) (n : Fin 129) (f : Account → Account) : (onAcct s n f).inflight = s.inflight := rfl
@[simp] theorem onAcct_cfgSent (s : State) (n : Fin 129) (f : Account → Account) : (onAcct s n f).cfgSent = s.cfgSent := rfl
@[simp] theorem onAcct_hostWrites (s : State) (n : Fin 129) (f : Account → Account) : (onAcct s n f).hostWrites = s.hostWrites := rfl
@[simp] theorem onAcct_merges (s : State) (n : Fin 129) (f : Account → Account) : (onAcct s n f).merges = s.merges := rfl
@[simp] theorem onAcct_spdm (s : State) (n : Fin 129) (f : Account → Account) : (onAcct s n f).spdm = s.spdm := rfl
@[simp] theorem onAcct_ide (s : State) (n : Fin 129) (f : Account → Account) : (onAcct s n f).ide = s.ide := rfl
@[simp] theorem onAcct_store (s : State) (n : Fin 129) (f : Account → Account) : (onAcct s n f).store = s.store := rfl
@[simp] theorem onAcct_sanitizing (s : State) (n : Fin 129) (f : Account → Account) : (onAcct s n f).sanitizing = s.sanitizing := rfl
@[simp] theorem onAcct_dict (s : State) (n : Fin 129) (f : Account → Account) : (onAcct s n f).dict = s.dict := rfl
@[simp] theorem onAcct_cf (s : State) (n : Fin 129) (f : Account → Account) : (onAcct s n f).cf = s.cf := rfl
@[simp] theorem onAcct_fw (s : State) (n : Fin 129) (f : Account → Account) : (onAcct s n f).fw = s.fw := rfl
@[simp] theorem onAcct_power (s : State) (n : Fin 129) (f : Account → Account) : (onAcct s n f).power = s.power := rfl
@[simp] theorem onAcct_health (s : State) (n : Fin 129) (f : Account → Account) : (onAcct s n f).health = s.health := rfl
@[simp] theorem onAcct_repair (s : State) (n : Fin 129) (f : Account → Account) : (onAcct s n f).repair = s.repair := rfl

@[simp] theorem onSess_pending (s : State) (i : Nat) (f : Sess → Sess) : (onSess s i f).pending = s.pending := rfl
@[simp] theorem onSess_free (s : State) (i : Nat) (f : Sess → Sess) : (onSess s i f).free = s.free := rfl
@[simp] theorem onSess_mem (s : State) (i : Nat) (f : Sess → Sess) : (onSess s i f).mem = s.mem := rfl
@[simp] theorem onSess_chk (s : State) (i : Nat) (f : Sess → Sess) : (onSess s i f).chk = s.chk := rfl
@[simp] theorem onSess_tileDir (s : State) (i : Nat) (f : Sess → Sess) : (onSess s i f).tileDir = s.tileDir := rfl
@[simp] theorem onSess_maxRec (s : State) (i : Nat) (f : Sess → Sess) : (onSess s i f).maxRec = s.maxRec := rfl
@[simp] theorem onSess_useCount (s : State) (i : Nat) (f : Sess → Sess) : (onSess s i f).useCount = s.useCount := rfl
@[simp] theorem onSess_poolGrants (s : State) (i : Nat) (f : Sess → Sess) : (onSess s i f).poolGrants = s.poolGrants := rfl
@[simp] theorem onSess_gatherCfg (s : State) (i : Nat) (f : Sess → Sess) : (onSess s i f).gatherCfg = s.gatherCfg := rfl
@[simp] theorem onSess_cores (s : State) (i : Nat) (f : Sess → Sess) : (onSess s i f).cores = s.cores := rfl
@[simp] theorem onSess_clusters (s : State) (i : Nat) (f : Sess → Sess) : (onSess s i f).clusters = s.clusters := rfl
@[simp] theorem onSess_kernels (s : State) (i : Nat) (f : Sess → Sess) : (onSess s i f).kernels = s.kernels := rfl
@[simp] theorem onSess_channels (s : State) (i : Nat) (f : Sess → Sess) : (onSess s i f).channels = s.channels := rfl
@[simp] theorem onSess_map (s : State) (i : Nat) (f : Sess → Sess) : (onSess s i f).map = s.map := rfl
@[simp] theorem onSess_media (s : State) (i : Nat) (f : Sess → Sess) : (onSess s i f).media = s.media := rfl
@[simp] theorem onSess_slots (s : State) (i : Nat) (f : Sess → Sess) : (onSess s i f).slots = s.slots := rfl
@[simp] theorem onSess_jobs (s : State) (i : Nat) (f : Sess → Sess) : (onSess s i f).jobs = s.jobs := rfl
@[simp] theorem onSess_held (s : State) (i : Nat) (f : Sess → Sess) : (onSess s i f).held = s.held := rfl
@[simp] theorem onSess_imports (s : State) (i : Nat) (f : Sess → Sess) : (onSess s i f).imports = s.imports := rfl
@[simp] theorem onSess_syncWait (s : State) (i : Nat) (f : Sess → Sess) : (onSess s i f).syncWait = s.syncWait := rfl
@[simp] theorem onSess_nss (s : State) (i : Nat) (f : Sess → Sess) : (onSess s i f).nss = s.nss := rfl
@[simp] theorem onSess_attends (s : State) (i : Nat) (f : Sess → Sess) : (onSess s i f).attends = s.attends := rfl
@[simp] theorem onSess_indexes (s : State) (i : Nat) (f : Sess → Sess) : (onSess s i f).indexes = s.indexes := rfl
@[simp] theorem onSess_queries (s : State) (i : Nat) (f : Sess → Sess) : (onSess s i f).queries = s.queries := rfl
@[simp] theorem onSess_queryWait (s : State) (i : Nat) (f : Sess → Sess) : (onSess s i f).queryWait = s.queryWait := rfl
@[simp] theorem onSess_ingests (s : State) (i : Nat) (f : Sess → Sess) : (onSess s i f).ingests = s.ingests := rfl
@[simp] theorem onSess_tables (s : State) (i : Nat) (f : Sess → Sess) : (onSess s i f).tables = s.tables := rfl
@[simp] theorem onSess_ctrls (s : State) (i : Nat) (f : Sess → Sess) : (onSess s i f).ctrls = s.ctrls := rfl
@[simp] theorem onSess_arbTurn (s : State) (i : Nat) (f : Sess → Sess) : (onSess s i f).arbTurn = s.arbTurn := rfl
@[simp] theorem onSess_adminTurn (s : State) (i : Nat) (f : Sess → Sess) : (onSess s i f).adminTurn = s.adminTurn := rfl
@[simp] theorem onSess_urgentTurn (s : State) (i : Nat) (f : Sess → Sess) : (onSess s i f).urgentTurn = s.urgentTurn := rfl
@[simp] theorem onSess_visit (s : State) (i : Nat) (f : Sess → Sess) : (onSess s i f).visit = s.visit := rfl
@[simp] theorem onSess_inflight (s : State) (i : Nat) (f : Sess → Sess) : (onSess s i f).inflight = s.inflight := rfl
@[simp] theorem onSess_cfgSent (s : State) (i : Nat) (f : Sess → Sess) : (onSess s i f).cfgSent = s.cfgSent := rfl
@[simp] theorem onSess_hostWrites (s : State) (i : Nat) (f : Sess → Sess) : (onSess s i f).hostWrites = s.hostWrites := rfl
@[simp] theorem onSess_merges (s : State) (i : Nat) (f : Sess → Sess) : (onSess s i f).merges = s.merges := rfl
@[simp] theorem onSess_accounts (s : State) (i : Nat) (f : Sess → Sess) : (onSess s i f).accounts = s.accounts := rfl
@[simp] theorem onSess_spdm (s : State) (i : Nat) (f : Sess → Sess) : (onSess s i f).spdm = s.spdm := rfl
@[simp] theorem onSess_ide (s : State) (i : Nat) (f : Sess → Sess) : (onSess s i f).ide = s.ide := rfl
@[simp] theorem onSess_store (s : State) (i : Nat) (f : Sess → Sess) : (onSess s i f).store = s.store := rfl
@[simp] theorem onSess_sanitizing (s : State) (i : Nat) (f : Sess → Sess) : (onSess s i f).sanitizing = s.sanitizing := rfl
@[simp] theorem onSess_dict (s : State) (i : Nat) (f : Sess → Sess) : (onSess s i f).dict = s.dict := rfl
@[simp] theorem onSess_cf (s : State) (i : Nat) (f : Sess → Sess) : (onSess s i f).cf = s.cf := rfl
@[simp] theorem onSess_fw (s : State) (i : Nat) (f : Sess → Sess) : (onSess s i f).fw = s.fw := rfl
@[simp] theorem onSess_power (s : State) (i : Nat) (f : Sess → Sess) : (onSess s i f).power = s.power := rfl
@[simp] theorem onSess_health (s : State) (i : Nat) (f : Sess → Sess) : (onSess s i f).health = s.health := rfl
@[simp] theorem onSess_repair (s : State) (i : Nat) (f : Sess → Sess) : (onSess s i f).repair = s.repair := rfl

@[simp] theorem onDict_pending (s : State) (f : Dict → Dict) : (onDict s f).pending = s.pending := rfl
@[simp] theorem onDict_free (s : State) (f : Dict → Dict) : (onDict s f).free = s.free := rfl
@[simp] theorem onDict_mem (s : State) (f : Dict → Dict) : (onDict s f).mem = s.mem := rfl
@[simp] theorem onDict_chk (s : State) (f : Dict → Dict) : (onDict s f).chk = s.chk := rfl
@[simp] theorem onDict_tileDir (s : State) (f : Dict → Dict) : (onDict s f).tileDir = s.tileDir := rfl
@[simp] theorem onDict_maxRec (s : State) (f : Dict → Dict) : (onDict s f).maxRec = s.maxRec := rfl
@[simp] theorem onDict_useCount (s : State) (f : Dict → Dict) : (onDict s f).useCount = s.useCount := rfl
@[simp] theorem onDict_poolGrants (s : State) (f : Dict → Dict) : (onDict s f).poolGrants = s.poolGrants := rfl
@[simp] theorem onDict_gatherCfg (s : State) (f : Dict → Dict) : (onDict s f).gatherCfg = s.gatherCfg := rfl
@[simp] theorem onDict_cores (s : State) (f : Dict → Dict) : (onDict s f).cores = s.cores := rfl
@[simp] theorem onDict_clusters (s : State) (f : Dict → Dict) : (onDict s f).clusters = s.clusters := rfl
@[simp] theorem onDict_kernels (s : State) (f : Dict → Dict) : (onDict s f).kernels = s.kernels := rfl
@[simp] theorem onDict_channels (s : State) (f : Dict → Dict) : (onDict s f).channels = s.channels := rfl
@[simp] theorem onDict_map (s : State) (f : Dict → Dict) : (onDict s f).map = s.map := rfl
@[simp] theorem onDict_media (s : State) (f : Dict → Dict) : (onDict s f).media = s.media := rfl
@[simp] theorem onDict_slots (s : State) (f : Dict → Dict) : (onDict s f).slots = s.slots := rfl
@[simp] theorem onDict_jobs (s : State) (f : Dict → Dict) : (onDict s f).jobs = s.jobs := rfl
@[simp] theorem onDict_held (s : State) (f : Dict → Dict) : (onDict s f).held = s.held := rfl
@[simp] theorem onDict_imports (s : State) (f : Dict → Dict) : (onDict s f).imports = s.imports := rfl
@[simp] theorem onDict_syncWait (s : State) (f : Dict → Dict) : (onDict s f).syncWait = s.syncWait := rfl
@[simp] theorem onDict_nss (s : State) (f : Dict → Dict) : (onDict s f).nss = s.nss := rfl
@[simp] theorem onDict_sess (s : State) (f : Dict → Dict) : (onDict s f).sess = s.sess := rfl
@[simp] theorem onDict_attends (s : State) (f : Dict → Dict) : (onDict s f).attends = s.attends := rfl
@[simp] theorem onDict_indexes (s : State) (f : Dict → Dict) : (onDict s f).indexes = s.indexes := rfl
@[simp] theorem onDict_queries (s : State) (f : Dict → Dict) : (onDict s f).queries = s.queries := rfl
@[simp] theorem onDict_queryWait (s : State) (f : Dict → Dict) : (onDict s f).queryWait = s.queryWait := rfl
@[simp] theorem onDict_ingests (s : State) (f : Dict → Dict) : (onDict s f).ingests = s.ingests := rfl
@[simp] theorem onDict_tables (s : State) (f : Dict → Dict) : (onDict s f).tables = s.tables := rfl
@[simp] theorem onDict_ctrls (s : State) (f : Dict → Dict) : (onDict s f).ctrls = s.ctrls := rfl
@[simp] theorem onDict_arbTurn (s : State) (f : Dict → Dict) : (onDict s f).arbTurn = s.arbTurn := rfl
@[simp] theorem onDict_adminTurn (s : State) (f : Dict → Dict) : (onDict s f).adminTurn = s.adminTurn := rfl
@[simp] theorem onDict_urgentTurn (s : State) (f : Dict → Dict) : (onDict s f).urgentTurn = s.urgentTurn := rfl
@[simp] theorem onDict_visit (s : State) (f : Dict → Dict) : (onDict s f).visit = s.visit := rfl
@[simp] theorem onDict_inflight (s : State) (f : Dict → Dict) : (onDict s f).inflight = s.inflight := rfl
@[simp] theorem onDict_cfgSent (s : State) (f : Dict → Dict) : (onDict s f).cfgSent = s.cfgSent := rfl
@[simp] theorem onDict_hostWrites (s : State) (f : Dict → Dict) : (onDict s f).hostWrites = s.hostWrites := rfl
@[simp] theorem onDict_merges (s : State) (f : Dict → Dict) : (onDict s f).merges = s.merges := rfl
@[simp] theorem onDict_accounts (s : State) (f : Dict → Dict) : (onDict s f).accounts = s.accounts := rfl
@[simp] theorem onDict_spdm (s : State) (f : Dict → Dict) : (onDict s f).spdm = s.spdm := rfl
@[simp] theorem onDict_ide (s : State) (f : Dict → Dict) : (onDict s f).ide = s.ide := rfl
@[simp] theorem onDict_store (s : State) (f : Dict → Dict) : (onDict s f).store = s.store := rfl
@[simp] theorem onDict_sanitizing (s : State) (f : Dict → Dict) : (onDict s f).sanitizing = s.sanitizing := rfl
@[simp] theorem onDict_cf (s : State) (f : Dict → Dict) : (onDict s f).cf = s.cf := rfl
@[simp] theorem onDict_fw (s : State) (f : Dict → Dict) : (onDict s f).fw = s.fw := rfl
@[simp] theorem onDict_power (s : State) (f : Dict → Dict) : (onDict s f).power = s.power := rfl
@[simp] theorem onDict_health (s : State) (f : Dict → Dict) : (onDict s f).health = s.health := rfl
@[simp] theorem onDict_repair (s : State) (f : Dict → Dict) : (onDict s f).repair = s.repair := rfl

@[simp] theorem onPower_pending (s : State) (f : Power → Power) : (onPower s f).pending = s.pending := rfl
@[simp] theorem onPower_free (s : State) (f : Power → Power) : (onPower s f).free = s.free := rfl
@[simp] theorem onPower_mem (s : State) (f : Power → Power) : (onPower s f).mem = s.mem := rfl
@[simp] theorem onPower_chk (s : State) (f : Power → Power) : (onPower s f).chk = s.chk := rfl
@[simp] theorem onPower_tileDir (s : State) (f : Power → Power) : (onPower s f).tileDir = s.tileDir := rfl
@[simp] theorem onPower_maxRec (s : State) (f : Power → Power) : (onPower s f).maxRec = s.maxRec := rfl
@[simp] theorem onPower_useCount (s : State) (f : Power → Power) : (onPower s f).useCount = s.useCount := rfl
@[simp] theorem onPower_poolGrants (s : State) (f : Power → Power) : (onPower s f).poolGrants = s.poolGrants := rfl
@[simp] theorem onPower_gatherCfg (s : State) (f : Power → Power) : (onPower s f).gatherCfg = s.gatherCfg := rfl
@[simp] theorem onPower_cores (s : State) (f : Power → Power) : (onPower s f).cores = s.cores := rfl
@[simp] theorem onPower_clusters (s : State) (f : Power → Power) : (onPower s f).clusters = s.clusters := rfl
@[simp] theorem onPower_kernels (s : State) (f : Power → Power) : (onPower s f).kernels = s.kernels := rfl
@[simp] theorem onPower_channels (s : State) (f : Power → Power) : (onPower s f).channels = s.channels := rfl
@[simp] theorem onPower_map (s : State) (f : Power → Power) : (onPower s f).map = s.map := rfl
@[simp] theorem onPower_media (s : State) (f : Power → Power) : (onPower s f).media = s.media := rfl
@[simp] theorem onPower_slots (s : State) (f : Power → Power) : (onPower s f).slots = s.slots := rfl
@[simp] theorem onPower_jobs (s : State) (f : Power → Power) : (onPower s f).jobs = s.jobs := rfl
@[simp] theorem onPower_held (s : State) (f : Power → Power) : (onPower s f).held = s.held := rfl
@[simp] theorem onPower_imports (s : State) (f : Power → Power) : (onPower s f).imports = s.imports := rfl
@[simp] theorem onPower_syncWait (s : State) (f : Power → Power) : (onPower s f).syncWait = s.syncWait := rfl
@[simp] theorem onPower_nss (s : State) (f : Power → Power) : (onPower s f).nss = s.nss := rfl
@[simp] theorem onPower_sess (s : State) (f : Power → Power) : (onPower s f).sess = s.sess := rfl
@[simp] theorem onPower_attends (s : State) (f : Power → Power) : (onPower s f).attends = s.attends := rfl
@[simp] theorem onPower_indexes (s : State) (f : Power → Power) : (onPower s f).indexes = s.indexes := rfl
@[simp] theorem onPower_queries (s : State) (f : Power → Power) : (onPower s f).queries = s.queries := rfl
@[simp] theorem onPower_queryWait (s : State) (f : Power → Power) : (onPower s f).queryWait = s.queryWait := rfl
@[simp] theorem onPower_ingests (s : State) (f : Power → Power) : (onPower s f).ingests = s.ingests := rfl
@[simp] theorem onPower_tables (s : State) (f : Power → Power) : (onPower s f).tables = s.tables := rfl
@[simp] theorem onPower_ctrls (s : State) (f : Power → Power) : (onPower s f).ctrls = s.ctrls := rfl
@[simp] theorem onPower_arbTurn (s : State) (f : Power → Power) : (onPower s f).arbTurn = s.arbTurn := rfl
@[simp] theorem onPower_adminTurn (s : State) (f : Power → Power) : (onPower s f).adminTurn = s.adminTurn := rfl
@[simp] theorem onPower_urgentTurn (s : State) (f : Power → Power) : (onPower s f).urgentTurn = s.urgentTurn := rfl
@[simp] theorem onPower_visit (s : State) (f : Power → Power) : (onPower s f).visit = s.visit := rfl
@[simp] theorem onPower_inflight (s : State) (f : Power → Power) : (onPower s f).inflight = s.inflight := rfl
@[simp] theorem onPower_cfgSent (s : State) (f : Power → Power) : (onPower s f).cfgSent = s.cfgSent := rfl
@[simp] theorem onPower_hostWrites (s : State) (f : Power → Power) : (onPower s f).hostWrites = s.hostWrites := rfl
@[simp] theorem onPower_merges (s : State) (f : Power → Power) : (onPower s f).merges = s.merges := rfl
@[simp] theorem onPower_accounts (s : State) (f : Power → Power) : (onPower s f).accounts = s.accounts := rfl
@[simp] theorem onPower_spdm (s : State) (f : Power → Power) : (onPower s f).spdm = s.spdm := rfl
@[simp] theorem onPower_ide (s : State) (f : Power → Power) : (onPower s f).ide = s.ide := rfl
@[simp] theorem onPower_store (s : State) (f : Power → Power) : (onPower s f).store = s.store := rfl
@[simp] theorem onPower_sanitizing (s : State) (f : Power → Power) : (onPower s f).sanitizing = s.sanitizing := rfl
@[simp] theorem onPower_dict (s : State) (f : Power → Power) : (onPower s f).dict = s.dict := rfl
@[simp] theorem onPower_cf (s : State) (f : Power → Power) : (onPower s f).cf = s.cf := rfl
@[simp] theorem onPower_fw (s : State) (f : Power → Power) : (onPower s f).fw = s.fw := rfl
@[simp] theorem onPower_health (s : State) (f : Power → Power) : (onPower s f).health = s.health := rfl
@[simp] theorem onPower_repair (s : State) (f : Power → Power) : (onPower s f).repair = s.repair := rfl

@[simp] theorem onHealth_pending (s : State) (f : Health → Health) : (onHealth s f).pending = s.pending := rfl
@[simp] theorem onHealth_free (s : State) (f : Health → Health) : (onHealth s f).free = s.free := rfl
@[simp] theorem onHealth_mem (s : State) (f : Health → Health) : (onHealth s f).mem = s.mem := rfl
@[simp] theorem onHealth_chk (s : State) (f : Health → Health) : (onHealth s f).chk = s.chk := rfl
@[simp] theorem onHealth_tileDir (s : State) (f : Health → Health) : (onHealth s f).tileDir = s.tileDir := rfl
@[simp] theorem onHealth_maxRec (s : State) (f : Health → Health) : (onHealth s f).maxRec = s.maxRec := rfl
@[simp] theorem onHealth_useCount (s : State) (f : Health → Health) : (onHealth s f).useCount = s.useCount := rfl
@[simp] theorem onHealth_poolGrants (s : State) (f : Health → Health) : (onHealth s f).poolGrants = s.poolGrants := rfl
@[simp] theorem onHealth_gatherCfg (s : State) (f : Health → Health) : (onHealth s f).gatherCfg = s.gatherCfg := rfl
@[simp] theorem onHealth_cores (s : State) (f : Health → Health) : (onHealth s f).cores = s.cores := rfl
@[simp] theorem onHealth_clusters (s : State) (f : Health → Health) : (onHealth s f).clusters = s.clusters := rfl
@[simp] theorem onHealth_kernels (s : State) (f : Health → Health) : (onHealth s f).kernels = s.kernels := rfl
@[simp] theorem onHealth_channels (s : State) (f : Health → Health) : (onHealth s f).channels = s.channels := rfl
@[simp] theorem onHealth_map (s : State) (f : Health → Health) : (onHealth s f).map = s.map := rfl
@[simp] theorem onHealth_media (s : State) (f : Health → Health) : (onHealth s f).media = s.media := rfl
@[simp] theorem onHealth_slots (s : State) (f : Health → Health) : (onHealth s f).slots = s.slots := rfl
@[simp] theorem onHealth_jobs (s : State) (f : Health → Health) : (onHealth s f).jobs = s.jobs := rfl
@[simp] theorem onHealth_held (s : State) (f : Health → Health) : (onHealth s f).held = s.held := rfl
@[simp] theorem onHealth_imports (s : State) (f : Health → Health) : (onHealth s f).imports = s.imports := rfl
@[simp] theorem onHealth_syncWait (s : State) (f : Health → Health) : (onHealth s f).syncWait = s.syncWait := rfl
@[simp] theorem onHealth_nss (s : State) (f : Health → Health) : (onHealth s f).nss = s.nss := rfl
@[simp] theorem onHealth_sess (s : State) (f : Health → Health) : (onHealth s f).sess = s.sess := rfl
@[simp] theorem onHealth_attends (s : State) (f : Health → Health) : (onHealth s f).attends = s.attends := rfl
@[simp] theorem onHealth_indexes (s : State) (f : Health → Health) : (onHealth s f).indexes = s.indexes := rfl
@[simp] theorem onHealth_queries (s : State) (f : Health → Health) : (onHealth s f).queries = s.queries := rfl
@[simp] theorem onHealth_queryWait (s : State) (f : Health → Health) : (onHealth s f).queryWait = s.queryWait := rfl
@[simp] theorem onHealth_ingests (s : State) (f : Health → Health) : (onHealth s f).ingests = s.ingests := rfl
@[simp] theorem onHealth_tables (s : State) (f : Health → Health) : (onHealth s f).tables = s.tables := rfl
@[simp] theorem onHealth_ctrls (s : State) (f : Health → Health) : (onHealth s f).ctrls = s.ctrls := rfl
@[simp] theorem onHealth_arbTurn (s : State) (f : Health → Health) : (onHealth s f).arbTurn = s.arbTurn := rfl
@[simp] theorem onHealth_adminTurn (s : State) (f : Health → Health) : (onHealth s f).adminTurn = s.adminTurn := rfl
@[simp] theorem onHealth_urgentTurn (s : State) (f : Health → Health) : (onHealth s f).urgentTurn = s.urgentTurn := rfl
@[simp] theorem onHealth_visit (s : State) (f : Health → Health) : (onHealth s f).visit = s.visit := rfl
@[simp] theorem onHealth_inflight (s : State) (f : Health → Health) : (onHealth s f).inflight = s.inflight := rfl
@[simp] theorem onHealth_cfgSent (s : State) (f : Health → Health) : (onHealth s f).cfgSent = s.cfgSent := rfl
@[simp] theorem onHealth_hostWrites (s : State) (f : Health → Health) : (onHealth s f).hostWrites = s.hostWrites := rfl
@[simp] theorem onHealth_merges (s : State) (f : Health → Health) : (onHealth s f).merges = s.merges := rfl
@[simp] theorem onHealth_accounts (s : State) (f : Health → Health) : (onHealth s f).accounts = s.accounts := rfl
@[simp] theorem onHealth_spdm (s : State) (f : Health → Health) : (onHealth s f).spdm = s.spdm := rfl
@[simp] theorem onHealth_ide (s : State) (f : Health → Health) : (onHealth s f).ide = s.ide := rfl
@[simp] theorem onHealth_store (s : State) (f : Health → Health) : (onHealth s f).store = s.store := rfl
@[simp] theorem onHealth_sanitizing (s : State) (f : Health → Health) : (onHealth s f).sanitizing = s.sanitizing := rfl
@[simp] theorem onHealth_dict (s : State) (f : Health → Health) : (onHealth s f).dict = s.dict := rfl
@[simp] theorem onHealth_cf (s : State) (f : Health → Health) : (onHealth s f).cf = s.cf := rfl
@[simp] theorem onHealth_fw (s : State) (f : Health → Health) : (onHealth s f).fw = s.fw := rfl
@[simp] theorem onHealth_power (s : State) (f : Health → Health) : (onHealth s f).power = s.power := rfl
@[simp] theorem onHealth_repair (s : State) (f : Health → Health) : (onHealth s f).repair = s.repair := rfl

@[simp] theorem onCf_pending (s : State) (f : CodeFlash → CodeFlash) : (onCf s f).pending = s.pending := rfl
@[simp] theorem onCf_free (s : State) (f : CodeFlash → CodeFlash) : (onCf s f).free = s.free := rfl
@[simp] theorem onCf_mem (s : State) (f : CodeFlash → CodeFlash) : (onCf s f).mem = s.mem := rfl
@[simp] theorem onCf_chk (s : State) (f : CodeFlash → CodeFlash) : (onCf s f).chk = s.chk := rfl
@[simp] theorem onCf_tileDir (s : State) (f : CodeFlash → CodeFlash) : (onCf s f).tileDir = s.tileDir := rfl
@[simp] theorem onCf_maxRec (s : State) (f : CodeFlash → CodeFlash) : (onCf s f).maxRec = s.maxRec := rfl
@[simp] theorem onCf_useCount (s : State) (f : CodeFlash → CodeFlash) : (onCf s f).useCount = s.useCount := rfl
@[simp] theorem onCf_poolGrants (s : State) (f : CodeFlash → CodeFlash) : (onCf s f).poolGrants = s.poolGrants := rfl
@[simp] theorem onCf_gatherCfg (s : State) (f : CodeFlash → CodeFlash) : (onCf s f).gatherCfg = s.gatherCfg := rfl
@[simp] theorem onCf_cores (s : State) (f : CodeFlash → CodeFlash) : (onCf s f).cores = s.cores := rfl
@[simp] theorem onCf_clusters (s : State) (f : CodeFlash → CodeFlash) : (onCf s f).clusters = s.clusters := rfl
@[simp] theorem onCf_kernels (s : State) (f : CodeFlash → CodeFlash) : (onCf s f).kernels = s.kernels := rfl
@[simp] theorem onCf_channels (s : State) (f : CodeFlash → CodeFlash) : (onCf s f).channels = s.channels := rfl
@[simp] theorem onCf_map (s : State) (f : CodeFlash → CodeFlash) : (onCf s f).map = s.map := rfl
@[simp] theorem onCf_media (s : State) (f : CodeFlash → CodeFlash) : (onCf s f).media = s.media := rfl
@[simp] theorem onCf_slots (s : State) (f : CodeFlash → CodeFlash) : (onCf s f).slots = s.slots := rfl
@[simp] theorem onCf_jobs (s : State) (f : CodeFlash → CodeFlash) : (onCf s f).jobs = s.jobs := rfl
@[simp] theorem onCf_held (s : State) (f : CodeFlash → CodeFlash) : (onCf s f).held = s.held := rfl
@[simp] theorem onCf_imports (s : State) (f : CodeFlash → CodeFlash) : (onCf s f).imports = s.imports := rfl
@[simp] theorem onCf_syncWait (s : State) (f : CodeFlash → CodeFlash) : (onCf s f).syncWait = s.syncWait := rfl
@[simp] theorem onCf_nss (s : State) (f : CodeFlash → CodeFlash) : (onCf s f).nss = s.nss := rfl
@[simp] theorem onCf_sess (s : State) (f : CodeFlash → CodeFlash) : (onCf s f).sess = s.sess := rfl
@[simp] theorem onCf_attends (s : State) (f : CodeFlash → CodeFlash) : (onCf s f).attends = s.attends := rfl
@[simp] theorem onCf_indexes (s : State) (f : CodeFlash → CodeFlash) : (onCf s f).indexes = s.indexes := rfl
@[simp] theorem onCf_queries (s : State) (f : CodeFlash → CodeFlash) : (onCf s f).queries = s.queries := rfl
@[simp] theorem onCf_queryWait (s : State) (f : CodeFlash → CodeFlash) : (onCf s f).queryWait = s.queryWait := rfl
@[simp] theorem onCf_ingests (s : State) (f : CodeFlash → CodeFlash) : (onCf s f).ingests = s.ingests := rfl
@[simp] theorem onCf_tables (s : State) (f : CodeFlash → CodeFlash) : (onCf s f).tables = s.tables := rfl
@[simp] theorem onCf_ctrls (s : State) (f : CodeFlash → CodeFlash) : (onCf s f).ctrls = s.ctrls := rfl
@[simp] theorem onCf_arbTurn (s : State) (f : CodeFlash → CodeFlash) : (onCf s f).arbTurn = s.arbTurn := rfl
@[simp] theorem onCf_adminTurn (s : State) (f : CodeFlash → CodeFlash) : (onCf s f).adminTurn = s.adminTurn := rfl
@[simp] theorem onCf_urgentTurn (s : State) (f : CodeFlash → CodeFlash) : (onCf s f).urgentTurn = s.urgentTurn := rfl
@[simp] theorem onCf_visit (s : State) (f : CodeFlash → CodeFlash) : (onCf s f).visit = s.visit := rfl
@[simp] theorem onCf_inflight (s : State) (f : CodeFlash → CodeFlash) : (onCf s f).inflight = s.inflight := rfl
@[simp] theorem onCf_cfgSent (s : State) (f : CodeFlash → CodeFlash) : (onCf s f).cfgSent = s.cfgSent := rfl
@[simp] theorem onCf_hostWrites (s : State) (f : CodeFlash → CodeFlash) : (onCf s f).hostWrites = s.hostWrites := rfl
@[simp] theorem onCf_merges (s : State) (f : CodeFlash → CodeFlash) : (onCf s f).merges = s.merges := rfl
@[simp] theorem onCf_accounts (s : State) (f : CodeFlash → CodeFlash) : (onCf s f).accounts = s.accounts := rfl
@[simp] theorem onCf_spdm (s : State) (f : CodeFlash → CodeFlash) : (onCf s f).spdm = s.spdm := rfl
@[simp] theorem onCf_ide (s : State) (f : CodeFlash → CodeFlash) : (onCf s f).ide = s.ide := rfl
@[simp] theorem onCf_store (s : State) (f : CodeFlash → CodeFlash) : (onCf s f).store = s.store := rfl
@[simp] theorem onCf_sanitizing (s : State) (f : CodeFlash → CodeFlash) : (onCf s f).sanitizing = s.sanitizing := rfl
@[simp] theorem onCf_dict (s : State) (f : CodeFlash → CodeFlash) : (onCf s f).dict = s.dict := rfl
@[simp] theorem onCf_fw (s : State) (f : CodeFlash → CodeFlash) : (onCf s f).fw = s.fw := rfl
@[simp] theorem onCf_power (s : State) (f : CodeFlash → CodeFlash) : (onCf s f).power = s.power := rfl
@[simp] theorem onCf_health (s : State) (f : CodeFlash → CodeFlash) : (onCf s f).health = s.health := rfl
@[simp] theorem onCf_repair (s : State) (f : CodeFlash → CodeFlash) : (onCf s f).repair = s.repair := rfl

@[simp] theorem onFw_pending (s : State) (f : Fw → Fw) : (onFw s f).pending = s.pending := rfl
@[simp] theorem onFw_free (s : State) (f : Fw → Fw) : (onFw s f).free = s.free := rfl
@[simp] theorem onFw_mem (s : State) (f : Fw → Fw) : (onFw s f).mem = s.mem := rfl
@[simp] theorem onFw_chk (s : State) (f : Fw → Fw) : (onFw s f).chk = s.chk := rfl
@[simp] theorem onFw_tileDir (s : State) (f : Fw → Fw) : (onFw s f).tileDir = s.tileDir := rfl
@[simp] theorem onFw_maxRec (s : State) (f : Fw → Fw) : (onFw s f).maxRec = s.maxRec := rfl
@[simp] theorem onFw_useCount (s : State) (f : Fw → Fw) : (onFw s f).useCount = s.useCount := rfl
@[simp] theorem onFw_poolGrants (s : State) (f : Fw → Fw) : (onFw s f).poolGrants = s.poolGrants := rfl
@[simp] theorem onFw_gatherCfg (s : State) (f : Fw → Fw) : (onFw s f).gatherCfg = s.gatherCfg := rfl
@[simp] theorem onFw_cores (s : State) (f : Fw → Fw) : (onFw s f).cores = s.cores := rfl
@[simp] theorem onFw_clusters (s : State) (f : Fw → Fw) : (onFw s f).clusters = s.clusters := rfl
@[simp] theorem onFw_kernels (s : State) (f : Fw → Fw) : (onFw s f).kernels = s.kernels := rfl
@[simp] theorem onFw_channels (s : State) (f : Fw → Fw) : (onFw s f).channels = s.channels := rfl
@[simp] theorem onFw_map (s : State) (f : Fw → Fw) : (onFw s f).map = s.map := rfl
@[simp] theorem onFw_media (s : State) (f : Fw → Fw) : (onFw s f).media = s.media := rfl
@[simp] theorem onFw_slots (s : State) (f : Fw → Fw) : (onFw s f).slots = s.slots := rfl
@[simp] theorem onFw_jobs (s : State) (f : Fw → Fw) : (onFw s f).jobs = s.jobs := rfl
@[simp] theorem onFw_held (s : State) (f : Fw → Fw) : (onFw s f).held = s.held := rfl
@[simp] theorem onFw_imports (s : State) (f : Fw → Fw) : (onFw s f).imports = s.imports := rfl
@[simp] theorem onFw_syncWait (s : State) (f : Fw → Fw) : (onFw s f).syncWait = s.syncWait := rfl
@[simp] theorem onFw_nss (s : State) (f : Fw → Fw) : (onFw s f).nss = s.nss := rfl
@[simp] theorem onFw_sess (s : State) (f : Fw → Fw) : (onFw s f).sess = s.sess := rfl
@[simp] theorem onFw_attends (s : State) (f : Fw → Fw) : (onFw s f).attends = s.attends := rfl
@[simp] theorem onFw_indexes (s : State) (f : Fw → Fw) : (onFw s f).indexes = s.indexes := rfl
@[simp] theorem onFw_queries (s : State) (f : Fw → Fw) : (onFw s f).queries = s.queries := rfl
@[simp] theorem onFw_queryWait (s : State) (f : Fw → Fw) : (onFw s f).queryWait = s.queryWait := rfl
@[simp] theorem onFw_ingests (s : State) (f : Fw → Fw) : (onFw s f).ingests = s.ingests := rfl
@[simp] theorem onFw_tables (s : State) (f : Fw → Fw) : (onFw s f).tables = s.tables := rfl
@[simp] theorem onFw_ctrls (s : State) (f : Fw → Fw) : (onFw s f).ctrls = s.ctrls := rfl
@[simp] theorem onFw_arbTurn (s : State) (f : Fw → Fw) : (onFw s f).arbTurn = s.arbTurn := rfl
@[simp] theorem onFw_adminTurn (s : State) (f : Fw → Fw) : (onFw s f).adminTurn = s.adminTurn := rfl
@[simp] theorem onFw_urgentTurn (s : State) (f : Fw → Fw) : (onFw s f).urgentTurn = s.urgentTurn := rfl
@[simp] theorem onFw_visit (s : State) (f : Fw → Fw) : (onFw s f).visit = s.visit := rfl
@[simp] theorem onFw_inflight (s : State) (f : Fw → Fw) : (onFw s f).inflight = s.inflight := rfl
@[simp] theorem onFw_cfgSent (s : State) (f : Fw → Fw) : (onFw s f).cfgSent = s.cfgSent := rfl
@[simp] theorem onFw_hostWrites (s : State) (f : Fw → Fw) : (onFw s f).hostWrites = s.hostWrites := rfl
@[simp] theorem onFw_merges (s : State) (f : Fw → Fw) : (onFw s f).merges = s.merges := rfl
@[simp] theorem onFw_accounts (s : State) (f : Fw → Fw) : (onFw s f).accounts = s.accounts := rfl
@[simp] theorem onFw_spdm (s : State) (f : Fw → Fw) : (onFw s f).spdm = s.spdm := rfl
@[simp] theorem onFw_ide (s : State) (f : Fw → Fw) : (onFw s f).ide = s.ide := rfl
@[simp] theorem onFw_store (s : State) (f : Fw → Fw) : (onFw s f).store = s.store := rfl
@[simp] theorem onFw_sanitizing (s : State) (f : Fw → Fw) : (onFw s f).sanitizing = s.sanitizing := rfl
@[simp] theorem onFw_dict (s : State) (f : Fw → Fw) : (onFw s f).dict = s.dict := rfl
@[simp] theorem onFw_cf (s : State) (f : Fw → Fw) : (onFw s f).cf = s.cf := rfl
@[simp] theorem onFw_power (s : State) (f : Fw → Fw) : (onFw s f).power = s.power := rfl
@[simp] theorem onFw_health (s : State) (f : Fw → Fw) : (onFw s f).health = s.health := rfl
@[simp] theorem onFw_repair (s : State) (f : Fw → Fw) : (onFw s f).repair = s.repair := rfl

@[simp] theorem fresh_pending (s : State) : (fresh s).2.pending = s.pending := rfl
@[simp] theorem fresh_mem (s : State) : (fresh s).2.mem = s.mem := rfl
@[simp] theorem fresh_chk (s : State) : (fresh s).2.chk = s.chk := rfl
@[simp] theorem fresh_tileDir (s : State) : (fresh s).2.tileDir = s.tileDir := rfl
@[simp] theorem fresh_maxRec (s : State) : (fresh s).2.maxRec = s.maxRec := rfl
@[simp] theorem fresh_useCount (s : State) : (fresh s).2.useCount = s.useCount := rfl
@[simp] theorem fresh_poolGrants (s : State) : (fresh s).2.poolGrants = s.poolGrants := rfl
@[simp] theorem fresh_gatherCfg (s : State) : (fresh s).2.gatherCfg = s.gatherCfg := rfl
@[simp] theorem fresh_cores (s : State) : (fresh s).2.cores = s.cores := rfl
@[simp] theorem fresh_clusters (s : State) : (fresh s).2.clusters = s.clusters := rfl
@[simp] theorem fresh_kernels (s : State) : (fresh s).2.kernels = s.kernels := rfl
@[simp] theorem fresh_channels (s : State) : (fresh s).2.channels = s.channels := rfl
@[simp] theorem fresh_map (s : State) : (fresh s).2.map = s.map := rfl
@[simp] theorem fresh_media (s : State) : (fresh s).2.media = s.media := rfl
@[simp] theorem fresh_slots (s : State) : (fresh s).2.slots = s.slots := rfl
@[simp] theorem fresh_jobs (s : State) : (fresh s).2.jobs = s.jobs := rfl
@[simp] theorem fresh_held (s : State) : (fresh s).2.held = s.held := rfl
@[simp] theorem fresh_imports (s : State) : (fresh s).2.imports = s.imports := rfl
@[simp] theorem fresh_syncWait (s : State) : (fresh s).2.syncWait = s.syncWait := rfl
@[simp] theorem fresh_nss (s : State) : (fresh s).2.nss = s.nss := rfl
@[simp] theorem fresh_sess (s : State) : (fresh s).2.sess = s.sess := rfl
@[simp] theorem fresh_attends (s : State) : (fresh s).2.attends = s.attends := rfl
@[simp] theorem fresh_indexes (s : State) : (fresh s).2.indexes = s.indexes := rfl
@[simp] theorem fresh_queries (s : State) : (fresh s).2.queries = s.queries := rfl
@[simp] theorem fresh_queryWait (s : State) : (fresh s).2.queryWait = s.queryWait := rfl
@[simp] theorem fresh_ingests (s : State) : (fresh s).2.ingests = s.ingests := rfl
@[simp] theorem fresh_tables (s : State) : (fresh s).2.tables = s.tables := rfl
@[simp] theorem fresh_ctrls (s : State) : (fresh s).2.ctrls = s.ctrls := rfl
@[simp] theorem fresh_arbTurn (s : State) : (fresh s).2.arbTurn = s.arbTurn := rfl
@[simp] theorem fresh_adminTurn (s : State) : (fresh s).2.adminTurn = s.adminTurn := rfl
@[simp] theorem fresh_urgentTurn (s : State) : (fresh s).2.urgentTurn = s.urgentTurn := rfl
@[simp] theorem fresh_visit (s : State) : (fresh s).2.visit = s.visit := rfl
@[simp] theorem fresh_inflight (s : State) : (fresh s).2.inflight = s.inflight := rfl
@[simp] theorem fresh_cfgSent (s : State) : (fresh s).2.cfgSent = s.cfgSent := rfl
@[simp] theorem fresh_hostWrites (s : State) : (fresh s).2.hostWrites = s.hostWrites := rfl
@[simp] theorem fresh_merges (s : State) : (fresh s).2.merges = s.merges := rfl
@[simp] theorem fresh_accounts (s : State) : (fresh s).2.accounts = s.accounts := rfl
@[simp] theorem fresh_spdm (s : State) : (fresh s).2.spdm = s.spdm := rfl
@[simp] theorem fresh_ide (s : State) : (fresh s).2.ide = s.ide := rfl
@[simp] theorem fresh_store (s : State) : (fresh s).2.store = s.store := rfl
@[simp] theorem fresh_sanitizing (s : State) : (fresh s).2.sanitizing = s.sanitizing := rfl
@[simp] theorem fresh_dict (s : State) : (fresh s).2.dict = s.dict := rfl
@[simp] theorem fresh_cf (s : State) : (fresh s).2.cf = s.cf := rfl
@[simp] theorem fresh_fw (s : State) : (fresh s).2.fw = s.fw := rfl
@[simp] theorem fresh_power (s : State) : (fresh s).2.power = s.power := rfl
@[simp] theorem fresh_health (s : State) : (fresh s).2.health = s.health := rfl
@[simp] theorem fresh_repair (s : State) : (fresh s).2.repair = s.repair := rfl
@[simp] theorem fresh_free (s : State) : (fresh s).2.free = s.free + 1 := rfl

@[simp] theorem bump_pending (id n : Nat) (s : State) : (bump id n s).pending = s.pending := rfl
@[simp] theorem bump_free (id n : Nat) (s : State) : (bump id n s).free = s.free := rfl
@[simp] theorem bump_mem (id n : Nat) (s : State) : (bump id n s).mem = s.mem := rfl
@[simp] theorem bump_chk (id n : Nat) (s : State) : (bump id n s).chk = s.chk := rfl
@[simp] theorem bump_tileDir (id n : Nat) (s : State) : (bump id n s).tileDir = s.tileDir := rfl
@[simp] theorem bump_maxRec (id n : Nat) (s : State) : (bump id n s).maxRec = s.maxRec := rfl
@[simp] theorem bump_useCount (id n : Nat) (s : State) : (bump id n s).useCount = s.useCount := rfl
@[simp] theorem bump_poolGrants (id n : Nat) (s : State) : (bump id n s).poolGrants = s.poolGrants := rfl
@[simp] theorem bump_gatherCfg (id n : Nat) (s : State) : (bump id n s).gatherCfg = s.gatherCfg := rfl
@[simp] theorem bump_cores (id n : Nat) (s : State) : (bump id n s).cores = s.cores := rfl
@[simp] theorem bump_clusters (id n : Nat) (s : State) : (bump id n s).clusters = s.clusters := rfl
@[simp] theorem bump_kernels (id n : Nat) (s : State) : (bump id n s).kernels = s.kernels := rfl
@[simp] theorem bump_channels (id n : Nat) (s : State) : (bump id n s).channels = s.channels := rfl
@[simp] theorem bump_map (id n : Nat) (s : State) : (bump id n s).map = s.map := rfl
@[simp] theorem bump_media (id n : Nat) (s : State) : (bump id n s).media = s.media := rfl
@[simp] theorem bump_slots (id n : Nat) (s : State) : (bump id n s).slots = s.slots := rfl
@[simp] theorem bump_jobs (id n : Nat) (s : State) : (bump id n s).jobs = s.jobs := rfl
@[simp] theorem bump_held (id n : Nat) (s : State) : (bump id n s).held = s.held := rfl
@[simp] theorem bump_imports (id n : Nat) (s : State) : (bump id n s).imports = s.imports := rfl
@[simp] theorem bump_syncWait (id n : Nat) (s : State) : (bump id n s).syncWait = s.syncWait := rfl
@[simp] theorem bump_nss (id n : Nat) (s : State) : (bump id n s).nss = s.nss := rfl
@[simp] theorem bump_sess (id n : Nat) (s : State) : (bump id n s).sess = s.sess := rfl
@[simp] theorem bump_attends (id n : Nat) (s : State) : (bump id n s).attends = s.attends := rfl
@[simp] theorem bump_indexes (id n : Nat) (s : State) : (bump id n s).indexes = s.indexes := rfl
@[simp] theorem bump_queries (id n : Nat) (s : State) : (bump id n s).queries = s.queries := rfl
@[simp] theorem bump_queryWait (id n : Nat) (s : State) : (bump id n s).queryWait = s.queryWait := rfl
@[simp] theorem bump_ingests (id n : Nat) (s : State) : (bump id n s).ingests = s.ingests := rfl
@[simp] theorem bump_tables (id n : Nat) (s : State) : (bump id n s).tables = s.tables := rfl
@[simp] theorem bump_ctrls (id n : Nat) (s : State) : (bump id n s).ctrls = s.ctrls := rfl
@[simp] theorem bump_arbTurn (id n : Nat) (s : State) : (bump id n s).arbTurn = s.arbTurn := rfl
@[simp] theorem bump_adminTurn (id n : Nat) (s : State) : (bump id n s).adminTurn = s.adminTurn := rfl
@[simp] theorem bump_urgentTurn (id n : Nat) (s : State) : (bump id n s).urgentTurn = s.urgentTurn := rfl
@[simp] theorem bump_visit (id n : Nat) (s : State) : (bump id n s).visit = s.visit := rfl
@[simp] theorem bump_inflight (id n : Nat) (s : State) : (bump id n s).inflight = s.inflight := rfl
@[simp] theorem bump_cfgSent (id n : Nat) (s : State) : (bump id n s).cfgSent = s.cfgSent := rfl
@[simp] theorem bump_hostWrites (id n : Nat) (s : State) : (bump id n s).hostWrites = s.hostWrites := rfl
@[simp] theorem bump_merges (id n : Nat) (s : State) : (bump id n s).merges = s.merges := rfl
@[simp] theorem bump_accounts (id n : Nat) (s : State) : (bump id n s).accounts = s.accounts := rfl
@[simp] theorem bump_spdm (id n : Nat) (s : State) : (bump id n s).spdm = s.spdm := rfl
@[simp] theorem bump_ide (id n : Nat) (s : State) : (bump id n s).ide = s.ide := rfl
@[simp] theorem bump_store (id n : Nat) (s : State) : (bump id n s).store = s.store := rfl
@[simp] theorem bump_sanitizing (id n : Nat) (s : State) : (bump id n s).sanitizing = s.sanitizing := rfl
@[simp] theorem bump_cf (id n : Nat) (s : State) : (bump id n s).cf = s.cf := rfl
@[simp] theorem bump_fw (id n : Nat) (s : State) : (bump id n s).fw = s.fw := rfl
@[simp] theorem bump_power (id n : Nat) (s : State) : (bump id n s).power = s.power := rfl
@[simp] theorem bump_health (id n : Nat) (s : State) : (bump id n s).health = s.health := rfl
@[simp] theorem bump_repair (id n : Nat) (s : State) : (bump id n s).repair = s.repair := rfl

end Sys2Proof.Machine
end

