-- ==== Sys2Proof/Laws/Channels.lean ====
section
/-! SUPPORT. What queueing a NAND operation changes: the channels alone, and of them no journal. -/

namespace Sys2Proof.Machine

/-- `t` is `s` but for its channels, and every channel's journal stands. -/
structure Queued (s t : State) : Prop where
  rest : t = { s with channels := t.channels }
  journal : ∀ ch : Fin 48, t.channels[ch].journal = s.channels[ch].journal

theorem Queued.refl (s : State) : Queued s s := ⟨rfl, fun _ => rfl⟩

theorem Queued.trans {s t u : State} (h : Queued s t) (k : Queued t u) : Queued s u :=
  ⟨by rw [k.rest, h.rest], fun ch => (k.journal ch).trans (h.journal ch)⟩

theorem Queued.foldl {α : Type} (f : State → α → State) (h : ∀ s a, Queued s (f s a)) (l : List α) (s : State) :
    Queued s (l.foldl f s) := by
  induction l generalizing s with
  | nil => exact .refl s
  | cons a l ih => exact (h s a).trans (ih _)

theorem onChan_queued (s : State) (ch : Fin 48) (f : Channel → Channel)
    (h : (f s.channels[ch]).journal = s.channels[ch].journal) : Queued s (onChan s ch f) := by
  refine ⟨rfl, fun c => ?_⟩
  by_cases e : ch = c
  · subst e; simpa [onChan] using h
  · simp only [onChan]; rw [upd_other _ _ _ _ e]

theorem admitSome_journal (w : List Nat) (d n : Nat) (cr : List Nat) (c : Channel) :
    (admitSome w d n cr c).journal = c.journal := by
  induction n generalizing cr c with
  | zero => rfl
  | succ n ih =>
    unfold admitSome; dsimp only
    split
    · exact ih ..
    · rfl

theorem suspendFor_queued (s : State) (ch : Fin 48) (d : Nat) (o : NandOp) : Queued s (suspendFor s ch d o) := by
  unfold suspendFor
  refine onChan_queued _ _ _ ?_
  split <;> rfl

theorem startDie_queued (s : State) (ch : Fin 48) (d : Nat) : Queued s (startDie s ch d) := by
  have ha : (admitHeld s s.channels[ch] d).journal = s.channels[ch].journal := admitSome_journal ..
  unfold startDie
  extract_lets c start
  have hc : c.journal = s.channels[ch].journal := ha
  clear_value c
  split
  · exact .refl s
  · split
    · refine onChan_queued _ _ _ ?_
      split
      · exact hc
      · exact hc
    · dsimp only
      split
      · exact onChan_queued _ _ _ hc
      · exact onChan_queued _ _ _ hc

theorem enqueue_queued (s : State) (ch : Fin 48) (d : Nat) (o : NandOp) : Queued s (enqueue s ch d o) := by
  unfold enqueue
  extract_lets room v
  have hv : Queued s v := by
    refine onChan_queued _ _ _ ?_
    split <;> rfl
  clear_value v
  split
  · exact hv.trans (suspendFor_queued ..)
  · exact hv.trans (startDie_queued ..)

theorem queueErase_queued (s : State) (ch : Fin 48) (b : Nat) : Queued s (queueErase s ch b) := by
  unfold queueErase
  split
  · exact .refl s
  · exact enqueue_queued ..

theorem issueParity_queued (s : State) (ch : Fin 48) (g : Nat) : Queued s (issueParity s ch g) := by
  unfold issueParity
  extract_lets c
  clear_value c
  split
  · exact .refl s
  · exact Queued.foldl _ (fun _ _ => enqueue_queued ..) _ _

theorem onBlocks_journal (f : Channel → Nat → Channel) (h : ∀ c b, (f c b).journal = c.journal) (l : List Nat) (c : Channel) :
    (l.foldl f c).journal = c.journal := by
  induction l generalizing c with
  | nil => rfl
  | cons b l ih => exact (ih _).trans (h c b)

theorem openGroup_journal {c d : Channel} {move sys : Bool} {p : Option Nat} {g : Nat} (h : openGroup c move sys p = some (d, g)) :
    d.journal = c.journal := by
  unfold openGroup at h
  dsimp only at h
  repeat' split at h
  all_goals first
    | contradiction
    | (cases h; exact onBlocks_journal (openBlock _ sys) (fun _ _ => rfl) _ c)

theorem groupFor_journal {c d : Channel} {move sys : Bool} {n : Nat} {p : Option Nat} {g b : Nat}
    (h : groupFor c move sys n p = some (d, g, b)) : d.journal = c.journal := by
  unfold groupFor at h
  dsimp only at h
  split at h
  · cases h; rfl
  · split at h
    · contradiction
    · rename_i x y hg
      have hj := openGroup_journal hg
      split at h
      · cases h; exact hj
      · obtain ⟨_, _, h⟩ := Option.map_eq_some_iff.mp h
        cases h; exact hj

/-- A program of the system area, which holds no slots. -/
theorem programIn_queued (s : State) (ch : Fin 48) (sys part : Bool) (recs : List (Nat × Nat)) :
    Queued s (programIn s ch sys part [] recs).1 := by
  unfold programIn
  split
  · exact .refl s
  · rename_i hg
    refine (onChan_queued s ch _ (groupFor_journal hg)).trans ((enqueue_queued ..).trans (Queued.foldl _ (fun a m => ?_) _ _))
    dsimp only
    split
    · exact Queued.foldl _ (fun _ _ => enqueue_queued ..) _ _
    · exact .refl a

/-- A checkpoint empties its channel's journal, and changes nothing else but the queues (R314). -/
theorem checkpoint_spec (s : State) (ch : Fin 48) :
    Queued (onChan s ch fun c => { c with journal := 0 }) (checkpoint s ch) :=
  (Queued.foldl _ (fun _ _ => programIn_queued ..) _ _).trans (Queued.foldl _ (fun _ _ => queueErase_queued ..) _ _)

end Sys2Proof.Machine
end

