-- ==== Sys2Proof/Laws/Containers.lean ====
section
/-! SUPPORT. The two sparse containers: what a table or a memory reads after it is written, and that every operation
keeps the canonical form. -/

namespace Sys2Proof

/-! ### Tables -/

@[simp] theorem Tab.get?_put_same {α : Type} (t : Tab α) (i : Nat) (v : α) : (t.put i v).get? i = some v := by
  induction t with
  | nil => simp [Tab.put, Tab.get?]
  | cons p t ih =>
    obtain ⟨k, w⟩ := p
    by_cases h : i < k
    · simp [Tab.put, Tab.get?, h]
    · by_cases e : i = k
      · simp [Tab.put, Tab.get?, e]
      · have : k ≠ i := fun x => e x.symm
        simp [Tab.put, Tab.get?, h, e, this, ih]

theorem Tab.get?_put_other {α : Type} (t : Tab α) (i j : Nat) (v : α) (h : i ≠ j) : (t.put i v).get? j = t.get? j := by
  induction t with
  | nil => simp [Tab.put, Tab.get?, h]
  | cons p t ih =>
    obtain ⟨k, w⟩ := p
    by_cases h1 : i < k
    · simp [Tab.put, Tab.get?, h1, h]
    · by_cases e : i = k
      · subst e; simp [Tab.put, Tab.get?, h]
      · simp [Tab.put, Tab.get?, h1, e, ih]

@[simp] theorem Tab.getD_put_same {α : Type} (t : Tab α) (i : Nat) (v d : α) : (t.put i v).getD i d = v := by
  simp [Tab.getD]

theorem Tab.getD_put_other {α : Type} (t : Tab α) (i j : Nat) (v d : α) (h : i ≠ j) : (t.put i v).getD j d = t.getD j d := by
  simp [Tab.getD, Tab.get?_put_other t i j v h]

@[simp] theorem Tab.getD_upd_same {α : Type} (t : Tab α) (i : Nat) (d : α) (f : α → α) :
    (t.upd i d f).getD i d = f (t.getD i d) := by
  simp [Tab.upd]

theorem Tab.getD_upd_other {α : Type} (t : Tab α) (i j : Nat) (d : α) (f : α → α) (h : i ≠ j) :
    (t.upd i d f).getD j d = t.getD j d := Tab.getD_put_other _ _ _ _ _ h

theorem Tab.get?_mod_same {α : Type} (t : Tab α) (i : Nat) (f : α → α) : (t.mod i f).get? i = (t.get? i).map f := by
  unfold Tab.mod
  split <;> simp_all

theorem Tab.get?_mod_other {α : Type} (t : Tab α) (i j : Nat) (f : α → α) (h : i ≠ j) : (t.mod i f).get? j = t.get? j := by
  unfold Tab.mod
  split
  · exact Tab.get?_put_other _ _ _ _ h
  · rfl

theorem Tab.get?_del_same {α : Type} (t : Tab α) (i : Nat) : (t.del i).get? i = none := by
  induction t with
  | nil => rfl
  | cons p t ih =>
    obtain ⟨k, w⟩ := p
    unfold Tab.del at ih ⊢
    by_cases h : k = i
    · subst h; simp [ih]
    · simp [h, Tab.get?, ih]

theorem Tab.get?_del_other {α : Type} (t : Tab α) (i j : Nat) (h : i ≠ j) : (t.del i).get? j = t.get? j := by
  induction t with
  | nil => rfl
  | cons p t ih =>
    obtain ⟨k, w⟩ := p
    unfold Tab.del at ih ⊢
    by_cases e : k = i
    · subst e; simp [Tab.get?, ih, h]
    · simp [Tab.get?, ih, e]

/-! ### Memories: the canonical form -/

/-- The canonical form from above a lower bound, as a proposition. -/
theorem Mem.rising_cons (d : Byte) (lo : Option Nat) (k : Nat) (v : Byte) (t : Mem) :
    Mem.risingFrom d lo ((k, v) :: t) = true ↔ (∀ l, lo = some l → l < k) ∧ v ≠ d ∧ Mem.risingFrom d (some k) t = true := by
  cases lo <;> simp [Mem.risingFrom, and_assoc]

/-- A smaller lower bound serves too. -/
theorem Mem.rising_weaken (d : Byte) (lo lo' : Option Nat) (m : Mem) (h : Mem.risingFrom d lo m = true)
    (w : ∀ l, lo' = some l → ∃ k, lo = some k ∧ l ≤ k) : Mem.risingFrom d lo' m = true := by
  cases m with
  | nil => rfl
  | cons p t =>
    obtain ⟨k, v⟩ := p
    rw [Mem.rising_cons] at h ⊢
    refine ⟨fun l e => ?_, h.2⟩
    obtain ⟨q, e2, q2⟩ := w l e
    have := h.1 q e2
    omega

/-- Every address listed lies above the bound. -/
theorem Mem.rising_lt (d : Byte) (lo : Nat) (m : Mem) (h : Mem.risingFrom d (some lo) m = true) :
    ∀ p ∈ m, lo < p.1 := by
  induction m generalizing lo with
  | nil => simp
  | cons p t ih =>
    obtain ⟨k, v⟩ := p
    rw [Mem.rising_cons] at h
    intro q hq
    rcases List.mem_cons.1 hq with e | e
    · subst e; exact h.1 lo rfl
    · exact Nat.lt_trans (h.1 lo rfl) (ih k h.2.2 q e)

/-- An address below the bound reads as the default. -/
theorem Mem.get_below (d : Byte) (lo : Nat) (m : Mem) (h : Mem.risingFrom d (some lo) m = true) (a : Nat) (ha : a ≤ lo) :
    Mem.get d m a = d := by
  induction m generalizing lo with
  | nil => rfl
  | cons p t ih =>
    obtain ⟨k, v⟩ := p
    rw [Mem.rising_cons] at h
    have := h.1 lo rfl
    have e : k ≠ a := by omega
    simp only [Mem.get, e, if_false]
    exact ih k h.2.2 (by omega)

/-- A write keeps the canonical form. -/
theorem Mem.rising_put (d : Byte) (lo : Option Nat) (m : Mem) (a : Nat) (v : Byte) (h : Mem.risingFrom d lo m = true)
    (ha : ∀ l, lo = some l → l < a) : Mem.risingFrom d lo (Mem.put d m a v) = true := by
  induction m generalizing lo with
  | nil =>
    unfold Mem.put
    split
    · rfl
    · rw [Mem.rising_cons]; exact ⟨ha, by assumption, rfl⟩
  | cons p t ih =>
    obtain ⟨k, w⟩ := p
    have h0 := h
    rw [Mem.rising_cons] at h
    unfold Mem.put
    split
    · split
      · exact h0
      · rw [Mem.rising_cons]
        refine ⟨ha, by assumption, ?_⟩
        rw [Mem.rising_cons]
        exact ⟨fun l e => by cases e; assumption, h.2⟩
    · split
      · rename_i e
        split
        · refine Mem.rising_weaken d (some k) lo t h.2.2 fun l q => ⟨k, rfl, ?_⟩
          exact Nat.le_of_lt (h.1 l q)
        · rw [Mem.rising_cons]
          exact ⟨ha, by assumption, by rw [e]; exact h.2.2⟩
      · rw [Mem.rising_cons]
        exact ⟨h.1, h.2.1, ih (some k) h.2.2 fun l e => by cases e; omega⟩

/-- A write of one byte keeps the canonical form. -/
theorem Mem.wf_put (d : Byte) (m : Mem) (a : Nat) (v : Byte) (h : m.wf d = true) : (m.put d a v).wf d = true :=
  Mem.rising_put d none m a v h (by simp)

/-- A write of a run of bytes keeps the canonical form. -/
theorem Mem.wf_puts (d : Byte) (b : Bytes) (m : Mem) (a : Nat) (h : m.wf d = true) : (Mem.puts d m a b).wf d = true := by
  induction b generalizing m a with
  | nil => exact h
  | cons v b ih => exact ih _ _ (Mem.wf_put d m a v h)

/-- Leaving out entries keeps the canonical form. -/
theorem Mem.rising_filter (d : Byte) (p : Nat × Byte → Bool) (lo : Option Nat) (m : Mem) (h : Mem.risingFrom d lo m = true) :
    Mem.risingFrom d lo (m.filter p) = true := by
  induction m generalizing lo with
  | nil => rfl
  | cons q t ih =>
    obtain ⟨k, v⟩ := q
    rw [Mem.rising_cons] at h
    by_cases e : p (k, v) = true
    · rw [List.filter_cons_of_pos e, Mem.rising_cons]
      exact ⟨h.1, h.2.1, ih _ h.2.2⟩
    · rw [List.filter_cons_of_neg e]
      exact Mem.rising_weaken d (some k) lo _ (ih _ h.2.2) fun l q => ⟨k, rfl, Nat.le_of_lt (h.1 l q)⟩

theorem Mem.wf_filter (d : Byte) (p : Nat × Byte → Bool) (m : Mem) (h : m.wf d = true) : Mem.wf d (m.filter p) = true :=
  Mem.rising_filter d p none m h

theorem Mem.wf_clear (d : Byte) (m : Mem) (lo n : Nat) (h : m.wf d = true) : (m.clear lo n).wf d = true :=
  Mem.wf_filter d _ m h

@[simp] theorem Mem.wf_nil (d : Byte) : Mem.wf d [] = true := rfl

/-- Writes of a list of cells keep the canonical form. -/
theorem Mem.wf_foldl_put {α : Type} (d : Byte) (g : α → Nat) (v : α → Byte) (l : List α) (m : Mem) (h : m.wf d = true) :
    Mem.wf d (l.foldl (fun m c => Mem.put d m (g c) (v c)) m) = true := by
  induction l generalizing m with
  | nil => exact h
  | cons c l ih => exact ih _ (Mem.wf_put d m _ _ h)

/-! ### Memories: reads after writes -/

theorem Mem.rising_get_put (d : Byte) (lo : Option Nat) (m : Mem) (a : Nat) (v : Byte) (b : Nat)
    (h : Mem.risingFrom d lo m = true) : Mem.get d (Mem.put d m a v) b = if b = a then v else Mem.get d m b := by
  induction m generalizing lo with
  | nil =>
    unfold Mem.put
    by_cases e : v = d
    · simp [e, Mem.get]
    · by_cases e2 : b = a
      · simp [e, Mem.get, e2]
      · have : a ≠ b := fun x => e2 x.symm
        simp [e, Mem.get, e2, this]
  | cons p t ih =>
    obtain ⟨k, w⟩ := p
    have h0 := h
    rw [Mem.rising_cons] at h
    have hb := ih (some k) h.2.2
    unfold Mem.put
    by_cases h1 : a < k
    · have low : Mem.get d ((k, w) :: t) a = d := by
        have e : k ≠ a := by omega
        simp only [Mem.get, e, if_false]
        exact Mem.get_below d k t h.2.2 a (by omega)
      by_cases e : v = d
      · by_cases e2 : b = a
        · subst e2; simp only [h1, e, if_true]; exact low
        · simp only [h1, e, if_true, e2, if_false]
      · by_cases e2 : b = a
        · simp [h1, e, Mem.get, e2]
        · have : a ≠ b := fun x => e2 x.symm
          simp [h1, e, Mem.get, e2, this]
    · by_cases e : a = k
      · subst e
        by_cases e2 : v = d
        · by_cases e3 : b = a
          · subst e3
            simp only [Nat.lt_irrefl, if_false, e2, if_true]
            exact Mem.get_below d b t h.2.2 b (Nat.le_refl _)
          · have : a ≠ b := fun x => e3 x.symm
            simp [e2, Mem.get, e3, this]
        · by_cases e3 : b = a
          · simp [e2, Mem.get, e3]
          · have : a ≠ b := fun x => e3 x.symm
            simp [e2, Mem.get, e3, this]
      · by_cases e3 : k = b
        · subst e3
          have : k ≠ a := fun x => e x.symm
          simp [h1, e, Mem.get, this]
        · simp [h1, e, Mem.get, e3, hb]

/-- A byte reads as it was written. -/
theorem Mem.get_put_same (d : Byte) (m : Mem) (a : Nat) (v : Byte) (h : m.wf d = true) : (m.put d a v).get d a = v := by
  rw [Mem.rising_get_put d none m a v a h, if_pos rfl]

/-- A write leaves every other byte. -/
theorem Mem.get_put_other (d : Byte) (m : Mem) (a b : Nat) (v : Byte) (h : m.wf d = true) (e : b ≠ a) :
    (m.put d a v).get d b = m.get d b := by
  rw [Mem.rising_get_put d none m a v b h, if_neg e]

/-- A run of bytes written: inside it each byte, outside it what was there. -/
theorem Mem.get_puts (d : Byte) (l : Bytes) (m : Mem) (a b : Nat) (h : m.wf d = true) :
    (Mem.puts d m a l).get d b = if a ≤ b ∧ b < a + l.length then l.getD (b - a) 0 else m.get d b := by
  induction l generalizing m a with
  | nil =>
    have : ¬ (a ≤ b ∧ b < a + ([] : Bytes).length) := by simp only [List.length_nil]; omega
    rw [if_neg this]; rfl
  | cons v l ih =>
    rw [Mem.puts, ih _ _ (Mem.wf_put d m a v h)]
    by_cases e : b = a
    · subst e
      have e3 : ¬ (b + 1 ≤ b ∧ b < b + 1 + l.length) := by omega
      rw [if_neg e3, Mem.get_put_same d m b v h]
      simp
    · rw [Mem.get_put_other d m a b v h e]
      by_cases e2 : a ≤ b ∧ b < a + (v :: l).length
      · have e3 : a + 1 ≤ b ∧ b < a + 1 + l.length := by simp at e2; omega
        rw [if_pos e2, if_pos e3]
        obtain ⟨k, rfl⟩ : ∃ k, b = a + 1 + k := ⟨b - (a + 1), by omega⟩
        have e4 : a + 1 + k - a = k + 1 := by omega
        have e5 : a + 1 + k - (a + 1) = k := by omega
        simp [e4, e5]
      · have e3 : ¬ (a + 1 ≤ b ∧ b < a + 1 + l.length) := by simp at e2; omega
        rw [if_neg e2, if_neg e3]

end Sys2Proof
end

