-- ==== Sys2Proof/Laws/Keeps.lean ====
section
/-! SUPPORT. What no operation breaks: the queue stands, the memories keep their canonical form, and what only grows
grows. `Keeps r s` compares a state with the one it came from. -/

namespace Sys2Proof.Machine

/-- What `Keeps` compares of the dictionary, of the health record and of the secure store. -/
abbrev dView (d : Dict) : Nat × Tab Nat := (d.epoch, d.counters)
abbrev sView (x : SecStore) : Nat × BitVec 8 × Nat := (x.fwFloor, x.revoked, x.ownerSeq)

/-- A counter that a factory restore resets (Table 16-11), and the dictionary's epoch has advanced (R392). -/
def Falls (r s : State) (id : Nat) : Prop := ((Dic.find id).map (·.frest)).getD false = true ∧ r.dict.epoch <
    s.dict.epoch

/-- From `r` to `s` the queue stands, the memories keep their form, and epoch, event number, firmware floor, revoked boot
keys, owner sequence number have not gone back, nor has any counter except at a factory restore. -/
structure Keeps (r s : State) : Prop where
  queue : s.pending = r.pending
  memory : MemOk r → MemOk s
  epoch : r.dict.epoch ≤ s.dict.epoch
  events : r.health.nextSeq ≤ s.health.nextSeq
  floor : r.store.fwFloor ≤ s.store.fwFloor
  revoked : ∀ i, r.store.revoked.getLsbD i = true → s.store.revoked.getLsbD i = true
  owner : r.store.ownerSeq ≤ s.store.ownerSeq
  counters : CountOk r → CountOk s ∧ ∀ id, counter r id ≤ counter s id ∨ Falls r s id

theorem Keeps.refl (s : State) : Keeps s s :=
  ⟨rfl, id, Nat.le_refl _, Nat.le_refl _, Nat.le_refl _, fun _ => id, Nat.le_refl _, fun h => ⟨h, fun _ => .inl
    (Nat.le_refl _)⟩⟩

theorem Keeps.trans {r s t : State} (h : Keeps r s) (g : Keeps s t) : Keeps r t where
  queue := g.queue.trans h.queue
  memory m := g.memory (h.memory m)
  epoch := Nat.le_trans h.epoch g.epoch
  events := Nat.le_trans h.events g.events
  floor := Nat.le_trans h.floor g.floor
  revoked i x := g.revoked i (h.revoked i x)
  owner := Nat.le_trans h.owner g.owner
  counters x := by
    obtain ⟨o1, m1⟩ := h.counters x
    obtain ⟨o2, m2⟩ := g.counters o1
    refine ⟨o2, fun id => ?_⟩
    rcases m1 id with a | a
    · rcases m2 id with c | c
      · exact .inl (Nat.le_trans a c)
      · exact .inr ⟨c.1, Nat.lt_of_le_of_lt h.epoch c.2⟩
    · exact .inr ⟨a.1, Nat.lt_of_lt_of_le a.2 g.epoch⟩

/-- A record update that leaves what is compared. -/
theorem Keeps.mk_ {r t : State} {dict : Dict} {health : Health} {store : SecStore}
    {free : Nat} {tileDir : Tab TileDirE} {maxRec : Tab MaxAbs} {useCount : Nat} {poolGrants : List (Nat × Nat ×
    Nat)} {gatherCfg : BitVec 64} {cores : Vector Core 8} {clusters : Vector Cluster 48} {kernels : Tab Kernel}
    {channels : Vector Channel 48} {map : Tab MapEntry} {slots : Tab BufSlot} {jobs : List Job} {held : List Job}
    {imports : List ImportJob} {syncWait : List SyncWait} {nss : Tab Ns} {sess : Tab Sess} {attends : List
    AttendJob} {indexes : Tab Index} {queries : List Query} {queryWait : List Query} {ingests : List Ingest}
    {tables : Tab Table} {ctrls : Vector Ctrl 128} {arbTurn : Nat} {adminTurn : Nat} {urgentTurn : Nat} {visit :
    Option (Nat × Nat × Nat)} {inflight : List InFlight} {cfgSent : List (Nat × Nat × BitVec 32)} {hostWrites :
    List HostWrite} {merges : List (CmdKey × DaRec)} {accounts : Vector Account 129} {spdm : Tab Spdm} {ide :
    Vector IdeStream 9} {sanitizing : Bool} {cf : CodeFlash} {fw : Fw} {power : Power} {repair : PoolRepair}
    (h : Keeps r t) (hd : dView dict = dView t.dict) (hh : health.nextSeq = t.health.nextSeq) (hs : sView store =
    sView t.store) :
    Keeps r (State.mk t.pending free t.mem t.chk tileDir maxRec useCount poolGrants gatherCfg cores clusters
    kernels channels map t.media slots jobs held imports syncWait nss sess attends indexes queries queryWait
    ingests tables ctrls arbTurn adminTurn urgentTurn visit inflight cfgSent hostWrites merges accounts spdm ide
    store sanitizing dict cf fw power health repair) := by
  have h1 : dict.epoch = t.dict.epoch := congrArg Prod.fst hd
  have h2 : dict.counters = t.dict.counters := congrArg Prod.snd hd
  have h3 : store.fwFloor = t.store.fwFloor := congrArg Prod.fst hs
  have h4 : store.revoked = t.store.revoked := congrArg (fun x => x.2.1) hs
  have h5 : store.ownerSeq = t.store.ownerSeq := congrArg (fun x => x.2.2) hs
  exact ⟨h.queue, h.memory, by rw [h1]; exact h.epoch, by rw [hh]; exact h.events, by rw [h3]; exact h.floor,
    by rw [h4]; exact h.revoked, by rw [h5]; exact h.owner, by simpa only [CountOk, counter, Falls, h1, h2] using
    h.counters⟩

/-- Prove one thing and use it for another. -/
theorem Keeps.use {P Q : Prop} (h : P) (k : P → Q) : Q := k h

/-- The state of a pair that an operation answers. -/
theorem Keeps.ofPair {r : State} {α : Type} {p : State × α} {x : State} {y : α} (e : p = (x, y))
    (h : Keeps r p.1) : Keeps r x := by subst e; exact h

/-- A choice of two states that keep. -/
theorem Keeps.ite {r s t : State} {c : Prop} [Decidable c] (h : Keeps r s) (g : Keeps r t) :
    Keeps r (if c then s else t) := by
  split
  · exact h
  · exact g

theorem Keeps.ite_fst {r : State} {α : Type} {p q : State × α} {c : Prop} [Decidable c] (h : Keeps r p.1) (g :
    Keeps r q.1) :
    Keeps r (if c then p else q).1 := by
  split
  · exact h
  · exact g

/-- A choice by an optional value. -/
theorem Keeps.elim {α : Type} {r s : State} {o : Option α} {f : α → State} (h : Keeps r s) (hf : ∀ a, Keeps r (f a)) :
    Keeps r (o.elim s f) := by
  cases o with
  | none => exact h
  | some a => exact hf a

theorem Keeps.elim_fst {α β : Type} {r : State} {o : Option α} {p : State × β} {f : α → State × β} (h : Keeps r p.1)
    (hf : ∀ a, Keeps r (f a).1) : Keeps r (o.elim p f).1 := by
  cases o with
  | none => exact h
  | some a => exact hf a

/-- The state of a pair. -/
theorem Keeps.pair {r s : State} {α : Type} {x : α} (h : Keeps r s) : Keeps r (s, x).1 := h

/-- A fold of an operation that keeps. -/
theorem Keeps.foldl {r s : State} {α : Type} {l : List α} {f : State → α → State} (h : Keeps r s)
    (hf : ∀ s a, Keeps r s → Keeps r (f s a)) : Keeps r (l.foldl f s) := by
  induction l generalizing s with
  | nil => exact h
  | cons a l ih => exact ih (hf s a h)

/-- A fold whose accumulator holds the state beside something else. -/
theorem Keeps.foldl_fst {r : State} {α β : Type} {l : List α} {f : State × β → α → State × β} {p : State × β}
    (h : Keeps r p.1) (hf : ∀ p a, Keeps r p.1 → Keeps r (f p a).1) : Keeps r (l.foldl f p).1 := by
  induction l generalizing p with
  | nil => exact h
  | cons a l ih => exact ih (hf p a h)

/-- The state before a record update keeps what the update keeps. -/
theorem Keeps.mem_ {r s t : State} (h : Keeps r s) (q : t.pending = s.pending) (m : MemOk s → MemOk t)
    (d : dView t.dict = dView s.dict) (hh : t.health.nextSeq = s.health.nextSeq) (hs : sView t.store = sView
    s.store) :
    Keeps r t := by
  have h1 : t.dict.epoch = s.dict.epoch := congrArg Prod.fst d
  have h2 : t.dict.counters = s.dict.counters := congrArg Prod.snd d
  have h3 : t.store.fwFloor = s.store.fwFloor := congrArg Prod.fst hs
  have h4 : t.store.revoked = s.store.revoked := congrArg (fun x => x.2.1) hs
  have h5 : t.store.ownerSeq = s.store.ownerSeq := congrArg (fun x => x.2.2) hs
  exact ⟨q.trans h.queue, fun x => m (h.memory x), by rw [h1]; exact h.epoch, by rw [hh]; exact h.events,
    by rw [h3]; exact h.floor, by rw [h4]; exact h.revoked, by rw [h5]; exact h.owner,
    by simpa only [CountOk, counter, Falls, h1, h2] using h.counters⟩

end Sys2Proof.Machine
end

