-- ==== Sys2Proof/Laws/KeepsOps.lean ====
section
/-! SUPPORT. What no operation breaks (`Keeps`): the shared operations. -/

namespace Sys2Proof.Machine

theorem onCore_keeps {r : State} {s : State} {c : Fin 8} {f : Core → Core} (h : Keeps r s) :
    Keeps r (onCore s c f) := by
  exact Keeps.mk_ h rfl rfl rfl

theorem onEngine_keeps {r : State} {s : State} {c : Fin 8} {e : Fin 4} {f : Engine → Engine} (h : Keeps r s) :
    Keeps r (onEngine s c e f) := by
  exact Keeps.mk_ h rfl rfl rfl

theorem onCluster_keeps {r : State} {s : State} {n : Fin 48} {f : Cluster → Cluster} (h : Keeps r s) :
    Keeps r (onCluster s n f) := by
  exact Keeps.mk_ h rfl rfl rfl

theorem onChan_keeps {r : State} {s : State} {n : Fin 48} {f : Channel → Channel} (h : Keeps r s) :
    Keeps r (onChan s n f) := by
  exact Keeps.mk_ h rfl rfl rfl

theorem addRec_keeps {r : State} {s : State} {n : Fin 48} {kind : Nat} {bytes : Nat} (h : Keeps r s) :
    Keeps r (addRec s n kind bytes) := by
  exact Keeps.mk_ h rfl rfl rfl

theorem onCtrl_keeps {r : State} {s : State} {n : Fin 128} {f : Ctrl → Ctrl} (h : Keeps r s) :
    Keeps r (onCtrl s n f) := by
  exact Keeps.mk_ h rfl rfl rfl

theorem onAcct_keeps {r : State} {s : State} {n : Fin 129} {f : Account → Account} (h : Keeps r s) :
    Keeps r (onAcct s n f) := by
  exact Keeps.mk_ h rfl rfl rfl

theorem onSess_keeps {r : State} {s : State} {i : Nat} {f : Sess → Sess} (h : Keeps r s) :
    Keeps r (onSess s i f) := by
  exact Keeps.mk_ h rfl rfl rfl

theorem onDict_keeps {r : State} {s : State} {f : Dict → Dict} (h : Keeps r s) (hf : ∀ x, dView (f x) = dView x) :
    Keeps r (onDict s f) := by
  exact Keeps.mk_ h (hf _) rfl rfl

theorem onPower_keeps {r : State} {s : State} {f : Power → Power} (h : Keeps r s) :
    Keeps r (onPower s f) := by
  exact Keeps.mk_ h rfl rfl rfl

theorem onHealth_keeps {r : State} {s : State} {f : Health → Health} (h : Keeps r s) (hf : ∀ x, (f x).nextSeq = x.nextSeq) :
    Keeps r (onHealth s f) := by
  exact Keeps.mk_ h rfl (hf _) rfl

theorem onCf_keeps {r : State} {s : State} {f : CodeFlash → CodeFlash} (h : Keeps r s) :
    Keeps r (onCf s f) := by
  exact Keeps.mk_ h rfl rfl rfl

theorem onFw_keeps {r : State} {s : State} {f : Fw → Fw} (h : Keeps r s) :
    Keeps r (onFw s f) := by
  exact Keeps.mk_ h rfl rfl rfl

theorem fresh_keeps {r : State} {s : State} (h : Keeps r s) :
    Keeps r (fresh s).2 := by
  exact Keeps.mk_ h rfl rfl rfl

theorem bump_keeps {r : State} {id : Nat} {n : Nat} {s : State} (h : Keeps r s) :
    Keeps r (bump id n s) := by
  refine ⟨h.queue, h.memory, h.epoch, h.events, h.floor, h.revoked, h.owner, fun ok => ?_⟩
  obtain ⟨o, m⟩ := h.counters ok
  have key : ∀ j, counter s j ≤ counter (bump id n s) j ∧ counter (bump id n s) j < 2 ^ 64 := by
    intro j
    have lt := o j
    by_cases q : id = j
    · subst q
      have : counter (bump id n s) id = satAdd 64 (counter s id) n := by simp [counter, bump]
      rw [this, satAdd]
      omega
    · have : counter (bump id n s) j = counter s j := by simp [counter, bump, Tab.getD_upd_other _ _ _ _ _ q]
      rw [this]
      exact ⟨Nat.le_refl _, lt⟩
  exact ⟨fun j => (key j).2, fun j => (m j).imp (fun a => Nat.le_trans a (key j).1) fun a => a⟩

theorem notice_keeps {r : State} {s : State} {fn : Fin 128} {w : Nat} (h : Keeps r s) :
    Keeps r (notice s fn w) := by
  unfold notice
  repeat' (first
    | with_reducible assumption
    | with_reducible rfl
    | with_reducible apply onCtrl_keeps
    | split
    | with_reducible refine Keeps.mk_ ?_ ?_ ?_ ?_)

theorem noticeAll_keeps {r : State} {s : State} {w : Nat} (h : Keeps r s) :
    Keeps r (noticeAll s w) := by
  unfold noticeAll
  repeat' (first
    | with_reducible assumption
    | with_reducible apply Keeps.foldl
    | with_reducible apply notice_keeps
    | (intro _ _ _))

theorem logEvent_keeps {r : State} {s : State} {die : Nat} {code : Nat} {w : Who} {detail : Bytes} (h : Keeps r s) :
    Keeps r (logEvent s die code w detail) := by
  unfold logEvent
  extract_lets -underBinder +onlyGivenNames x d e
  split
  extract_lets -underBinder +onlyGivenNames f2 w v
  have hw : Keeps r w := addRec_keeps h
  have hv : Keeps r v :=
    ⟨hw.queue, hw.memory, hw.epoch, Nat.le_trans h.events (Nat.le_succ _), hw.floor, hw.revoked, hw.owner, hw.counters⟩
  clear_value v
  extract_lets -underBinder +onlyGivenNames u
  have hu : Keeps r u := by
    dsimp only [u]
    split
    · exact noticeAll_keeps hv
    · exact hv
  clear_value u
  split
  · split
    · exact notice_keeps hu
    · split
      · exact notice_keeps hu
      · exact hu
  · exact hu

theorem charge_keeps {r : State} {s : State} {acct : Nat} {sess : Option Nat} {field : Nat} {n : Nat} (h : Keeps r s) :
    Keeps r (charge s acct sess field n) := by
  unfold charge
  repeat' (first
    | with_reducible assumption
    | with_reducible apply onAcct_keeps
    | with_reducible apply onSess_keeps
    | split)

theorem chargeLink_keeps {r : State} {s : State} {acct : Nat} {sess : Option Nat} {n : Nat} (h : Keeps r s) :
    Keeps r (chargeLink s acct sess n) := by
  unfold chargeLink
  repeat' (first
    | with_reducible assumption
    | with_reducible apply charge_keeps)

theorem chargeFlash_keeps {r : State} {s : State} {acct : Nat} {sess : Option Nat} {n : Nat} (h : Keeps r s) :
    Keeps r (chargeFlash s acct sess n) := by
  unfold chargeFlash
  repeat' (first
    | with_reducible assumption
    | with_reducible apply chargeLink_keeps
    | with_reducible apply charge_keeps)

theorem chargePool_keeps {r : State} {s : State} {acct : Nat} {field : Nat} {n : Nat} (h : Keeps r s) :
    Keeps r (chargePool s acct field n) := by
  unfold chargePool
  repeat' (first
    | with_reducible assumption
    | with_reducible apply chargeLink_keeps
    | with_reducible apply charge_keeps)

theorem leaveSession_keeps {r : State} {s : State} {k : CmdKey} (h : Keeps r s) :
    Keeps r (leaveSession s k) := by
  unfold leaveSession
  repeat' (first
    | with_reducible assumption
    | with_reducible apply onSess_keeps
    | split)

theorem dropFlight_keeps {r : State} {s : State} {k : CmdKey} (h : Keeps r s) :
    Keeps r (dropFlight s k) := by
  unfold dropFlight
  repeat' (first
    | with_reducible assumption
    | with_reducible rfl
    | with_reducible apply leaveSession_keeps
    | with_reducible refine Keeps.mk_ ?_ ?_ ?_ ?_)

theorem complete_keeps {r : State} {s : State} {k : CmdKey} {c : Code} {dw0 : Nat} {dw1 : Nat} (h : Keeps r s) :
    Keeps r (complete s k c dw0 dw1) := by
  unfold complete
  repeat' (first
    | with_reducible assumption
    | with_reducible rfl
    | with_reducible apply onCtrl_keeps
    | with_reducible apply dropFlight_keeps
    | with_reducible apply leaveSession_keeps
    | split
    | with_reducible refine Keeps.mk_ ?_ ?_ ?_ ?_)

theorem logErr_keeps {r : State} {s : State} {k : CmdKey} {c : Code} {nsid : Nat} {lba : Nat} (h : Keeps r s) :
    Keeps r (logErr s k c nsid lba) := by
  exact Keeps.mk_ h rfl rfl rfl

theorem fail_keeps {r : State} {s : State} {k : CmdKey} {c : Code} {nsid : optParam Nat 0} {lba : optParam Nat 0} (h : Keeps r s) :
    Keeps r (fail s k c nsid lba) := by
  unfold fail
  repeat' (first
    | with_reducible assumption
    | with_reducible apply complete_keeps
    | with_reducible apply logErr_keeps)

theorem failDw0_keeps {r : State} {s : State} {k : CmdKey} {c : Code} {dw0 : Nat} (h : Keeps r s) :
    Keeps r (failDw0 s k c dw0) := by
  unfold failDw0
  repeat' (first
    | with_reducible assumption
    | with_reducible apply complete_keeps
    | with_reducible apply logErr_keeps)

theorem hostWrite_keeps {r : State} {s : State} {k : CmdKey} {off : Nat} {b0 : Bytes} (h : Keeps r s) :
    Keeps r (hostWrite s k off b0) := by
  unfold hostWrite
  repeat' (first
    | with_reducible assumption
    | with_reducible rfl
    | with_reducible apply charge_keeps
    | split
    | with_reducible refine Keeps.mk_ ?_ ?_ ?_ ?_)

theorem advanceHead_keeps {r : State} {s : State} {fn : Fin 128} {sqid : Nat} (h : Keeps r s) :
    Keeps r (advanceHead s fn sqid) := by
  exact Keeps.mk_ h rfl rfl rfl

theorem takeSlot_keeps {r : State} {s : State} {k : CmdKey} {kind : Nat} {nsid : Nat} (h : Keeps r s) :
    Keeps r (takeSlot s k kind nsid) := by
  unfold takeSlot
  repeat' (first
    | with_reducible assumption
    | with_reducible rfl
    | with_reducible apply onCtrl_keeps
    | with_reducible apply advanceHead_keeps
    | with_reducible refine Keeps.mk_ ?_ ?_ ?_ ?_)

theorem begin__keeps {r : State} {s : State} {e : Sqe} {kind : Nat} (h : Keeps r s) :
    Keeps r (begin_ s e kind) := by
  unfold begin_
  repeat' (first
    | with_reducible assumption
    | with_reducible rfl
    | with_reducible apply charge_keeps
    | with_reducible apply takeSlot_keeps
    | split
    | with_reducible refine Keeps.mk_ ?_ ?_ ?_ ?_)

theorem useSession_keeps {r : State} {s : State} {i : Nat} (h : Keeps r s) :
    Keeps r (useSession s i) := by
  exact Keeps.mk_ h rfl rfl rfl

theorem onFlight_keeps {r : State} {s : State} {k : CmdKey} {f : InFlight → InFlight} (h : Keeps r s) :
    Keeps r (onFlight s k f) := by
  exact Keeps.mk_ h rfl rfl rfl

theorem markOutside_keeps {r : State} {s : State} {k : CmdKey} (h : Keeps r s) :
    Keeps r (markOutside s k) := by
  exact Keeps.mk_ h rfl rfl rfl

theorem takeClass_keeps {r : State} {s : State} {k : CmdKey} {i : Nat} (h : Keeps r s) :
    Keeps r (takeClass s k i) := by
  unfold takeClass
  repeat' (first
    | with_reducible assumption
    | with_reducible apply onFlight_keeps
    | with_reducible apply useSession_keeps)

theorem joinSession_keeps {r : State} {s : State} {k : CmdKey} {i : Nat} (h : Keeps r s) :
    Keeps r (joinSession s k i) := by
  unfold joinSession
  repeat' (first
    | with_reducible assumption
    | with_reducible apply onSess_keeps
    | with_reducible apply onFlight_keeps
    | with_reducible apply useSession_keeps
    | split)

theorem takeView_keeps {r : State} {s : State} {k : CmdKey} {i : Nat} (h : Keeps r s) :
    Keeps r (takeView s k i) := by
  exact Keeps.mk_ h rfl rfl rfl

theorem nameSession_keeps {r : State} {s : State} {k : CmdKey} {i : Nat} (h : Keeps r s) :
    Keeps r (nameSession s k i) := by
  unfold nameSession
  repeat' (first
    | with_reducible assumption
    | with_reducible apply joinSession_keeps
    | with_reducible apply takeClass_keeps
    | with_reducible apply takeView_keeps)

theorem clearAbort_keeps {r : State} {s : State} {k : CmdKey} (h : Keeps r s) :
    Keeps r (clearAbort s k) := by
  exact Keeps.mk_ h rfl rfl rfl

theorem nvme_keeps {r : State} {s : State} {e : Sqe} {opc : Nat} {admin : Bool} {body : State → State} (h : Keeps r s) (hb : ∀ s, Keeps r s → Keeps r (body s)) :
    Keeps r (nvme s e opc admin body) := by
  unfold nvme
  split
  · exact h
  · have hb0 := begin__keeps (e := e) (kind := opc) h
    generalize begin_ s e opc = u at hb0 ⊢
    dsimp only
    split
    · exact complete_keeps (clearAbort_keeps hb0)
    · exact Keeps.ite (fail_keeps hb0) (Keeps.ite (fail_keeps hb0) (Keeps.ite (fail_keeps hb0) (hb u hb0)))

theorem ended_keeps {r : State} {k : CmdKey} {r0 : State × Code × Nat × Nat} (h : Keeps r r0.1) :
    Keeps r (ended k r0) := by
  unfold ended
  repeat' (first
    | with_reducible assumption
    | with_reducible apply complete_keeps
    | with_reducible apply logErr_keeps
    | split)

theorem storeRaw_keeps {r : State} {s : State} {a : Nat} {data : Bytes} {chk : Bytes} (h : Keeps r s) :
    Keeps r (storeRaw s a data chk) := by
  exact Keeps.mem_ h rfl (fun m => ⟨Mem.wf_puts _ _ _ _ m.1, Mem.wf_puts _ _ _ _ m.2.1, m.2.2⟩) rfl rfl rfl

theorem writeWord_keeps {r : State} {s : State} {a : Nat} {data : Bytes} {tag : Nat} (h : Keeps r s) :
    Keeps r (writeWord s a data tag) := by
  unfold writeWord
  repeat' (first
    | with_reducible assumption
    | with_reducible apply storeRaw_keeps)

theorem relocateRow_keeps {r : State} {s : State} {r0 : Nat} (h : Keeps r s) :
    Keeps r (relocateRow s r0) := by
  unfold relocateRow
  repeat' (first
    | with_reducible assumption
    | with_reducible rfl
    | with_reducible apply bump_keeps
    | with_reducible apply logEvent_keeps
    | split
    | with_reducible refine Keeps.mk_ ?_ ?_ ?_ ?_)

theorem countFixed_keeps {r : State} {s : State} {a : Nat} (h : Keeps r s) :
    Keeps r (countFixed s a) := by
  unfold countFixed
  repeat' (first
    | with_reducible assumption
    | with_reducible rfl
    | with_reducible apply bump_keeps
    | with_reducible apply relocateRow_keeps
    | split
    | with_reducible refine Keeps.mk_ ?_ ?_ ?_ ?_)

theorem countLost_keeps {r : State} {s : State} {a : Nat} (h : Keeps r s) :
    Keeps r (countLost s a) := by
  unfold countLost
  repeat' (first
    | with_reducible assumption
    | with_reducible apply logEvent_keeps
    | with_reducible apply bump_keeps
    | with_reducible apply relocateRow_keeps
    | split)

theorem countOutcome_keeps {r : State} {s : State} {a : Nat} {x2 : Check.Outcome} (h : Keeps r s) :
    Keeps r (countOutcome s a x2) := by
  unfold countOutcome
  repeat' (first
    | with_reducible assumption
    | with_reducible apply countFixed_keeps
    | with_reducible apply bump_keeps
    | with_reducible apply countLost_keeps
    | split)

theorem readWord_keeps {r : State} {s : State} {a : Nat} {tag : Nat} (h : Keeps r s) :
    Keeps r (readWord s a tag).1 := by
  unfold readWord
  split
  extract_lets -underBinder +onlyGivenNames o v
  have hv : Keeps r v := countOutcome_keeps h
  clear_value v o
  split
  · exact storeRaw_keeps hv
  · exact hv

theorem fwWrite_keeps {r : State} {s : State} {a : Nat} {data : Bytes} {tag : Nat} (h : Keeps r s) :
    Keeps r (fwWrite s a data tag) := by
  unfold fwWrite
  repeat' (first
    | with_reducible assumption
    | with_reducible apply writeWord_keeps
    | with_reducible apply storeRaw_keeps
    | split)

theorem fwRead_keeps {r : State} {s : State} {a : Nat} {tag : Nat} (h : Keeps r s) :
    Keeps r (fwRead s a tag).1 := by
  unfold fwRead
  repeat' (first
    | with_reducible assumption
    | with_reducible apply readWord_keeps
    | with_reducible apply countOutcome_keeps
    | split)

theorem readStep_keeps {r : State} {p : State × Check.Outcome} {k : State → State × Except Check.Outcome Bytes} (h : Keeps r p.1) (hk : ∀ s, Keeps r s → Keeps r (k s).1) :
    Keeps r (readStep p k).1 := by
  unfold readStep
  split
  · exact h
  · have q := hk _ h
    split
    · rename_i e; exact Keeps.ofPair e q
    · rename_i e; exact Keeps.ofPair e q

theorem readWords_keeps {r : State} {s : State} {a : Nat} {tag : Nat} {x3 : Nat} (h : Keeps r s) :
    Keeps r (readWords s a tag x3).1 := by
  induction x3 generalizing s a with
  | zero => exact h
  | succ n ih => exact readStep_keeps (readWord_keeps h) fun s hs => ih hs

theorem readMem_keeps {r : State} {s : State} {a : Nat} {n : Nat} {tag : Nat} (h : Keeps r s) :
    Keeps r (readMem s a n tag).1 := by
  unfold readMem
  repeat' (first
    | with_reducible assumption
    | with_reducible apply readWords_keeps
    | (extract_lets -underBinder +onlyGivenNames v; clear_value v)
    | split
    | with_reducible refine Keeps.ofPair (by assumption) ?_)

theorem writeNarrow_keeps {r : State} {s : State} {a : Nat} {b0 : Bytes} {tag : Nat} (h : Keeps r s) :
    Keeps r (writeNarrow s a b0 tag).1 := by
  unfold writeNarrow
  repeat' (first
    | with_reducible assumption
    | with_reducible apply readWord_keeps
    | with_reducible apply writeWord_keeps
    | with_reducible apply bump_keeps
    | (extract_lets -underBinder +onlyGivenNames v; clear_value v)
    | split
    | with_reducible refine Keeps.ofPair (by assumption) ?_)

theorem writePart_keeps {r : State} {s : State} {a : Nat} {b0 : Bytes} {tag : Nat} (h : Keeps r s) :
    Keeps r (writePart s a b0 tag).1 := by
  unfold writePart
  repeat' (first
    | with_reducible assumption
    | with_reducible apply writeWord_keeps
    | with_reducible apply writeNarrow_keeps
    | split)

theorem writeStep_keeps {r : State} {p : State × Option Check.Outcome} {k : State → State × Option Check.Outcome} (h : Keeps r p.1) (hk : ∀ s, Keeps r s → Keeps r (k s).1) :
    Keeps r (writeStep p k).1 := by
  unfold writeStep
  split
  · exact hk _ h
  · exact h

theorem writeMemFrom_keeps {r : State} {s : State} {a : Nat} {b0 : Bytes} {tag : Nat} {x4 : Nat} (h : Keeps r s) :
    Keeps r (writeMemFrom s a b0 tag x4).1 := by
  induction x4 generalizing s a b0 with
  | zero => exact h
  | succ n ih =>
    unfold writeMemFrom
    split
    · exact h
    · exact writeStep_keeps (writePart_keeps h) fun s hs => ih hs

theorem writeMem_keeps {r : State} {s : State} {a : Nat} {b0 : Bytes} {tag : Nat} (h : Keeps r s) :
    Keeps r (writeMem s a b0 tag).1 := by
  unfold writeMem
  repeat' (first
    | with_reducible assumption
    | with_reducible apply writeMemFrom_keeps)

theorem checkWords_keeps {r : State} {s : State} {a : Nat} {n : Nat} {tag : Nat} (h : Keeps r s) :
    Keeps r (checkWords s a n tag) := by
  unfold checkWords
  repeat' (first
    | with_reducible assumption
    | with_reducible apply Keeps.foldl
    | with_reducible apply readWord_keeps
    | (intro _ _ _))

theorem fwCheck_keeps {r : State} {s : State} {a : Nat} {n : Nat} {tag : Nat} (h : Keeps r s) :
    Keeps r (fwCheck s a n tag) := by
  unfold fwCheck
  repeat' (first
    | with_reducible assumption
    | with_reducible apply Keeps.foldl
    | with_reducible apply fwRead_keeps
    | (intro _ _ _))

theorem onDir_keeps {r : State} {s : State} {t : Nat} {f : TileDirE → TileDirE} (h : Keeps r s) :
    Keeps r (onDir s t f) := by
  exact Keeps.mk_ h rfl rfl rfl

theorem setDir_keeps {r : State} {s : State} {t : Nat} {st : BitVec 2} (h : Keeps r s) :
    Keeps r (setDir s t st) := by
  exact Keeps.mk_ h rfl rfl rfl

theorem setStale_keeps {r : State} {s : State} {t : Nat} (h : Keeps r s) :
    Keeps r (setStale s t) := by
  exact Keeps.mk_ h rfl rfl rfl

theorem touchTile_keeps {r : State} {s : State} {a : Nat} (h : Keeps r s) :
    Keeps r (touchTile s a) := by
  unfold touchTile
  repeat' (first
    | with_reducible assumption
    | with_reducible apply setDir_keeps
    | with_reducible apply setStale_keeps
    | split)

theorem useTile_keeps {r : State} {s : State} {t : Nat} (h : Keeps r s) :
    Keeps r (useTile s t) := by
  unfold useTile
  repeat' (first
    | with_reducible assumption
    | with_reducible rfl
    | with_reducible apply onDir_keeps
    | split
    | with_reducible refine Keeps.mk_ ?_ ?_ ?_ ?_)

theorem copyRaw_keeps {r : State} {s : State} {src : Nat} {dst : Nat} (h : Keeps r s) :
    Keeps r (copyRaw s src dst) := by
  exact Keeps.mem_ h rfl (fun m => ⟨Mem.wf_foldl_put 0 (fun c : Host.Cell => dst + c.1) (fun c : Host.Cell => c.2) _ _ (Mem.wf_clear 0 _ _ _ m.1),
    Mem.wf_foldl_put 0 (fun c : Host.Cell => dst / 8 + c.1) (fun c : Host.Cell => c.2) _ _ (Mem.wf_clear 0 _ _ _ m.2.1), m.2.2⟩) rfl rfl rfl

theorem carryTile_keeps {r : State} {s : State} {tag : Nat} {src : Nat} {dst : Nat} (h : Keeps r s) :
    Keeps r (carryTile s tag src dst) := by
  unfold carryTile
  repeat' (first
    | with_reducible assumption
    | with_reducible rfl
    | with_reducible apply copyRaw_keeps
    | with_reducible apply fwCheck_keeps
    | with_reducible refine Keeps.mk_ ?_ ?_ ?_ ?_)

theorem writeBackTile_keeps {r : State} {s : State} {t : Nat} (h : Keeps r s) :
    Keeps r (writeBackTile s t) := by
  unfold writeBackTile
  repeat' (first
    | with_reducible assumption
    | with_reducible apply carryTile_keeps
    | with_reducible apply charge_keeps
    | with_reducible apply setDir_keeps
    | (extract_lets -underBinder +onlyGivenNames v; refine Keeps.use (P := Keeps r v) ?_ ?_; any_goals (first | (intro hv; clear_value v) | (clear_value (e : v = _); subst e)))
    | (extract_lets -underBinder +onlyGivenNames v; clear_value v)
    | split)

theorem setGatherCfg_keeps {r : State} {s : State} {v : W64} (h : Keeps r s) :
    Keeps r (setGatherCfg s v) := by
  exact Keeps.mk_ h rfl rfl rfl

theorem coreEvent_keeps {r : State} {s : State} {c : Fin 8} {bit : Nat} (h : Keeps r s) :
    Keeps r (coreEvent s c bit) := by
  exact Keeps.mk_ h rfl rfl rfl

end Sys2Proof.Machine
end

