-- ==== Sys2Proof/Laws/KeepsMedia.lean ====
section
/-! SUPPORT. What no operation breaks (`Keeps`): the flash layer and the NVM commands. -/

namespace Sys2Proof.Machine

theorem setEntry_keeps {r : State} {s : State} {nsid : Nat} {iu : Nat} {e : MapEntry} (h : Keeps r s) :
    Keeps r (setEntry s nsid iu e) := by
  unfold setEntry
  repeat' (first
    | with_reducible assumption
    | with_reducible rfl
    | with_reducible apply addRec_keeps
    | with_reducible apply onChan_keeps
    | with_reducible refine Keeps.mk_ ?_ ?_ ?_ ?_)

theorem takeSlotsFrom_keeps {r : State} {s : State} {nsid : Nat} {iu : Nat} {acct : Nat} {x4 : Nat} (h : Keeps r s) :
    Keeps r (takeSlotsFrom s nsid iu acct x4).1 := by
  induction x4 generalizing s with
  | zero => exact h
  | succ n ih =>
    rw [takeSlotsFrom]
    split
    · exact h
    · exact ih (onChan_keeps (Keeps.mk_ h rfl rfl rfl))

theorem takeSlots_keeps {r : State} {s : State} {nsid : Nat} {iu : Nat} {acct : Nat} {n : Nat} (h : Keeps r s) :
    Keeps r (takeSlots s nsid iu acct n).1 := by
  unfold takeSlots
  repeat' (first
    | with_reducible assumption
    | with_reducible apply onChan_keeps
    | with_reducible apply takeSlotsFrom_keeps)

theorem startDie_keeps {r : State} {s : State} {ch : Fin 48} {d : Nat} (h : Keeps r s) :
    Keeps r (startDie s ch d) := by
  unfold startDie
  repeat' (first
    | with_reducible assumption
    | with_reducible apply onChan_keeps
    | (extract_lets -underBinder +onlyGivenNames v; clear_value v)
    | split)

theorem startAll_keeps {r : State} {s : State} {ch : Fin 48} (h : Keeps r s) :
    Keeps r (startAll s ch) := by
  unfold startAll
  repeat' (first
    | with_reducible assumption
    | with_reducible apply Keeps.foldl
    | with_reducible apply startDie_keeps
    | (intro _ _ _))

theorem suspendFor_keeps {r : State} {s : State} {ch : Fin 48} {d : Nat} {o : NandOp} (h : Keeps r s) :
    Keeps r (suspendFor s ch d o) := by
  exact Keeps.mk_ h rfl rfl rfl

theorem enqueue_keeps {r : State} {s : State} {ch : Fin 48} {d : Nat} {o : NandOp} (h : Keeps r s) :
    Keeps r (enqueue s ch d o) := by
  unfold enqueue
  repeat' (first
    | with_reducible assumption
    | with_reducible apply onChan_keeps
    | with_reducible apply suspendFor_keeps
    | with_reducible apply startDie_keeps
    | (extract_lets -underBinder +onlyGivenNames v; refine Keeps.use (P := Keeps r v) ?_ ?_; any_goals (first | (intro hv; clear_value v) | (clear_value (e : v = _); subst e)))
    | (extract_lets -underBinder +onlyGivenNames v; clear_value v)
    | split)

theorem cancelReads_keeps {r : State} {s : State} {k : CmdKey} (h : Keeps r s) :
    Keeps r (cancelReads s k) := by
  unfold cancelReads
  repeat' (first
    | with_reducible assumption
    | with_reducible apply Keeps.foldl
    | with_reducible apply bump_keeps
    | with_reducible apply onChan_keeps
    | (intro _ _ _))

theorem placeSlot_keeps {r : State} {s : State} {b wl : Nat} {p : Nat × Nat} (h : Keeps r s) :
    Keeps r (placeSlot b wl s p) := by
  exact Keeps.mk_ h rfl rfl rfl

theorem programIn_keeps {r : State} {s : State} {ch : Fin 48} {sys part : Bool} {slots : List Nat} {recs : List (Nat × Nat)}
    (h : Keeps r s) : Keeps r (programIn s ch sys part slots recs).1 := by
  unfold programIn
  repeat' (first
    | with_reducible assumption
    | with_reducible rfl
    | with_reducible apply Keeps.foldl
    | with_reducible apply placeSlot_keeps
    | with_reducible apply onChan_keeps
    | with_reducible apply enqueue_keeps
    | (intro _ _ _)
    | split)

theorem programUnit_keeps {r : State} {s : State} {ch : Fin 48} {slots : List Nat} (h : Keeps r s) :
    Keeps r (programUnit s ch slots).1 := programIn_keeps h

theorem destageRecs_keeps {r : State} {s : State} {ch : Fin 48} {force : Bool} (h : Keeps r s) :
    Keeps r (destageRecs s ch force) := by
  unfold destageRecs
  repeat' (first
    | with_reducible assumption
    | with_reducible apply programIn_keeps
    | with_reducible apply onChan_keeps
    | (extract_lets -underBinder +onlyGivenNames v; clear_value v)
    | split
    | with_reducible refine Keeps.ofPair (by assumption) ?_)

theorem destageUnit_keeps {r : State} {s : State} {ch : Fin 48} {force : Bool} (h : Keeps r s) :
    Keeps r (destageUnit s ch force) := by
  unfold destageUnit
  repeat' (first
    | with_reducible assumption
    | with_reducible apply programUnit_keeps
    | with_reducible apply onChan_keeps
    | (extract_lets -underBinder +onlyGivenNames v; clear_value v)
    | split
    | with_reducible refine Keeps.ofPair (by assumption) ?_)

theorem destage_keeps {r : State} {s : State} {ch : Fin 48} {force : Bool} (h : Keeps r s) :
    Keeps r (destage s ch force) := destageUnit_keeps (destageRecs_keeps h)

theorem releaseSlot_keeps {r : State} {s : State} {i : Nat} (h : Keeps r s) :
    Keeps r (releaseSlot s i) := by
  unfold releaseSlot
  repeat' (first
    | with_reducible assumption
    | with_reducible rfl
    | with_reducible apply setEntry_keeps
    | split
    | with_reducible refine Keeps.mk_ ?_ ?_ ?_ ?_)

theorem issueParity_keeps {r : State} {s : State} {ch : Fin 48} {gi : Nat} (h : Keeps r s) :
    Keeps r (issueParity s ch gi) := by
  unfold issueParity
  repeat' (first
    | with_reducible assumption
    | with_reducible apply Keeps.foldl
    | with_reducible apply enqueue_keeps
    | (intro _ _ _)
    | (extract_lets -underBinder +onlyGivenNames v; clear_value v)
    | split)

theorem coverWordline_keeps {r : State} {s : State} {ch : Fin 48} {gi : Nat} (h : Keeps r s) :
    Keeps r (coverWordline s ch gi) := by
  unfold coverWordline
  repeat' (first
    | with_reducible assumption
    | with_reducible apply Keeps.foldl
    | with_reducible apply onChan_keeps
    | with_reducible apply releaseSlot_keeps
    | (extract_lets -underBinder +onlyGivenNames v; clear_value v)
    | split)

theorem enterReadOnly_keeps {r : State} {s : State} {ch : Fin 48} (h : Keeps r s) :
    Keeps r (enterReadOnly s ch) := by
  unfold enterReadOnly
  repeat' (first
    | with_reducible assumption
    | with_reducible apply onHealth_keeps
    | with_reducible apply logEvent_keeps
    | with_reducible apply noticeAll_keeps
    | (intro _; with_reducible rfl)
    | split)

theorem retireBlock_keeps {r : State} {s : State} {ch : Fin 48} {b0 : Nat} (h : Keeps r s) :
    Keeps r (retireBlock s ch b0) := by
  unfold retireBlock
  repeat' (first
    | with_reducible assumption
    | with_reducible apply onChan_keeps
    | with_reducible apply bump_keeps
    | with_reducible apply enterReadOnly_keeps
    | with_reducible apply noticeAll_keeps
    | (extract_lets -underBinder +onlyGivenNames v; refine Keeps.use (P := Keeps r v) ?_ ?_; any_goals (first | (intro hv; clear_value v) | (clear_value (e : v = _); subst e)))
    | (extract_lets -underBinder +onlyGivenNames v; clear_value v)
    | split)

theorem queueErase_keeps {r : State} {s : State} {ch : Fin 48} {b0 : Nat} (h : Keeps r s) :
    Keeps r (queueErase s ch b0) := by
  unfold queueErase
  repeat' (first
    | with_reducible assumption
    | with_reducible apply enqueue_keeps
    | split)

theorem checkpoint_keeps {r : State} {s : State} {ch : Fin 48} (h : Keeps r s) : Keeps r (checkpoint s ch) := by
  unfold checkpoint
  exact Keeps.foldl (Keeps.foldl (onChan_keeps h) fun _ _ ha => programIn_keeps ha) fun _ _ ha => queueErase_keeps ha

theorem leaveGroup_keeps {r : State} {s : State} {ch : Fin 48} {b0 : Nat} (h : Keeps r s) :
    Keeps r (leaveGroup s ch b0) := by
  unfold leaveGroup
  repeat' (first
    | with_reducible assumption
    | with_reducible apply queueErase_keeps
    | with_reducible apply onChan_keeps
    | (extract_lets -underBinder +onlyGivenNames v; clear_value v)
    | split)

theorem startMove_keeps {r : State} {s : State} {ch : Fin 48} {b0 : Nat} {cls : Nat} {refresh : Bool} {prefer : Option Nat} (h : Keeps r s) :
    Keeps r (startMove s ch b0 cls refresh prefer) := by
  unfold startMove
  repeat' (first
    | with_reducible assumption
    | with_reducible apply Keeps.foldl
    | with_reducible apply onChan_keeps
    | with_reducible apply queueErase_keeps
    | with_reducible apply enqueue_keeps
    | (intro _ _ _)
    | (extract_lets -underBinder +onlyGivenNames v; refine Keeps.use (P := Keeps r v) ?_ ?_; any_goals (first | (intro hv; clear_value v) | (clear_value (e : v = _); subst e)))
    | (extract_lets -underBinder +onlyGivenNames v; clear_value v)
    | split)

theorem redoMoves_keeps {r : State} {s : State} {ch : Fin 48} {t : Nat} (h : Keeps r s) :
    Keeps r (redoMoves s ch t) := by
  unfold redoMoves
  repeat' (first
    | with_reducible assumption
    | with_reducible apply Keeps.foldl
    | with_reducible apply onChan_keeps
    | with_reducible apply bump_keeps
    | with_reducible apply startMove_keeps
    | (intro _ _ _)
    | split)

theorem reissueSlots_keeps {r : State} {s : State} {ch : Fin 48} {l : List Nat} (h : Keeps r s) :
    Keeps r (reissueSlots s ch l) := by
  unfold reissueSlots
  repeat' (first
    | with_reducible assumption
    | with_reducible rfl
    | with_reducible apply Keeps.foldl
    | with_reducible apply programUnit_keeps
    | with_reducible apply onChan_keeps
    | (intro _ _ _)
    | split
    | with_reducible refine Keeps.ofPair (by assumption) ?_
    | with_reducible refine Keeps.mk_ ?_ ?_ ?_ ?_)

theorem newParity_keeps {r : State} {s : State} {ch : Fin 48} {gi : Nat} (h : Keeps r s) :
    Keeps r (newParity s ch gi) := by
  unfold newParity
  repeat' (first
    | with_reducible assumption
    | with_reducible apply issueParity_keeps
    | with_reducible apply onChan_keeps
    | (extract_lets -underBinder +onlyGivenNames v; clear_value v)
    | split)

theorem issueRead_keeps {r : State} {s : State} {k : CmdKey} {cls : Nat} {nsid : Nat} {iu : Nat} (h : Keeps r s) :
    Keeps r (issueRead s k cls nsid iu) := by
  unfold issueRead
  repeat' (first
    | with_reducible assumption
    | with_reducible apply markOutside_keeps
    | with_reducible apply onChan_keeps
    | with_reducible apply enqueue_keeps
    | (extract_lets -underBinder +onlyGivenNames v; refine Keeps.use (P := Keeps r v) ?_ ?_; any_goals (first | (intro hv; clear_value v) | (clear_value (e : v = _); subst e)))
    | (extract_lets -underBinder +onlyGivenNames v)
    | split)

theorem bufferUnit_keeps {r : State} {s : State} {nsid : Nat} {iu : Nat} {n : Ns} (h : Keeps r s) :
    Keeps r (bufferUnit s nsid iu n).1 := by
  unfold bufferUnit
  repeat' (first
    | with_reducible assumption
    | with_reducible apply takeSlots_keeps
    | with_reducible apply setEntry_keeps
    | (extract_lets -underBinder +onlyGivenNames v; clear_value v)
    | split)

theorem bufferWrite_keeps {r : State} {s : State} {nsid : Nat} {off : Nat} {b0 : Bytes} {n : Ns} (h : Keeps r s) :
    Keeps r (bufferWrite s nsid off b0 n).1 := by
  unfold bufferWrite
  extract_lets -underBinder +onlyGivenNames us
  clear_value us
  split
  rename_i v l e
  have hv : Keeps r v := Keeps.ofPair e (Keeps.foldl_fst h fun p a hp => by
    split
    rename_i q
    exact Keeps.ofPair q (bufferUnit_keeps hp))
  exact Keeps.foldl (Keeps.mem_ hv rfl (fun m => ⟨m.1, m.2.1, Mem.wf_puts _ _ _ _ m.2.2⟩) rfl rfl rfl)
    fun s a hs => destage_keeps hs

theorem putMedia_keeps {r : State} {s : State} {nsid : Nat} {off : Nat} {b0 : Bytes} (h : Keeps r s) :
    Keeps r (putMedia s nsid off b0) := by
  unfold putMedia
  repeat' (first
    | with_reducible assumption
    | with_reducible apply bufferWrite_keeps
    | split)

theorem deallocate_keeps {r : State} {s : State} {nsid : Nat} {off : Nat} {len : Nat} {n : Ns} (h : Keeps r s) :
    Keeps r (deallocate s nsid off len n) := by
  refine Keeps.foldl (Keeps.mem_ h rfl (fun m => ⟨m.1, m.2.1, Mem.wf_clear 0 _ _ _ m.2.2⟩) rfl rfl rfl) fun s a hs => ?_
  split
  · exact setEntry_keeps hs
  · exact hs

theorem wipeNs_keeps {r : State} {s : State} {nsid : Nat} (h : Keeps r s) :
    Keeps r (wipeNs s nsid) := by
  exact Keeps.mem_ (Keeps.foldl h fun s a hs => setEntry_keeps hs) rfl (fun m => ⟨m.1, m.2.1, Mem.wf_filter 0 _ _ m.2.2⟩)
    rfl rfl rfl

theorem c0Record_keeps {r : State} {s : State} {k : CmdKey} {rowHolds : Bool} (h : Keeps r s) :
    Keeps r (c0Record s k rowHolds).1 := by
  unfold c0Record
  repeat' (first
    | with_reducible assumption
    | with_reducible apply bump_keeps
    | with_reducible apply charge_keeps
    | split)

theorem queueSegments_keeps {r : State} {s : State} {nsid : Nat} {l : List Segment} (h : Keeps r s) :
    Keeps r (queueSegments s nsid l) := by
  exact Keeps.mk_ h rfl rfl rfl

theorem waitJob_keeps {r : State} {s : State} {e : Sqe} {opc : Nat} {readDone : Bool} (h : Keeps r s) :
    Keeps r (waitJob s e opc readDone) := by
  exact Keeps.mk_ h rfl rfl rfl

theorem commitTokens_keeps {r : State} {s : State} {x1 : Option (Nat × Nat × Nat)} (h : Keeps r s) :
    Keeps r (commitTokens s x1) := by
  unfold commitTokens
  repeat' (first
    | with_reducible assumption
    | with_reducible apply onSess_keeps
    | split)

theorem endCommit_keeps {r : State} {s : State} {w : SyncWait} (h : Keeps r s) :
    Keeps r (endCommit s w) := by
  unfold endCommit
  repeat' (first
    | with_reducible assumption
    | with_reducible apply complete_keeps
    | with_reducible apply commitTokens_keeps
    | with_reducible apply queueSegments_keeps)

theorem noteSession_keeps {r : State} {s : State} {i : Nat} {bytes : Nat} (h : Keeps r s) :
    Keeps r (noteSession s i bytes) := by
  exact Keeps.mk_ h rfl rfl rfl

theorem finishCommit_keeps {r : State} {s : State} {w : SyncWait} (h : Keeps r s) :
    Keeps r (finishCommit s w) := by
  unfold finishCommit
  repeat' (first
    | with_reducible assumption
    | with_reducible rfl
    | with_reducible apply Keeps.foldl
    | with_reducible apply noteSession_keeps
    | with_reducible apply destage_keeps
    | with_reducible apply endCommit_keeps
    | (intro _ _ _)
    | split
    | with_reducible refine Keeps.ofPair (by assumption) ?_
    | with_reducible refine Keeps.mk_ ?_ ?_ ?_ ?_)

theorem finishSession_keeps {r : State} {s : State} {k : CmdKey} {i : Nat} {dw0 : Nat} (h : Keeps r s) :
    Keeps r (finishSession s k i dw0) := by
  unfold finishSession
  repeat' (first
    | with_reducible assumption
    | with_reducible apply finishCommit_keeps
    | with_reducible apply noteSession_keeps)

theorem finishData_keeps {r : State} {s : State} {k : CmdKey} {nsid : Nat} {slots : List Nat} {segs : List Segment} {dw0 : Nat} {dw1 : Nat} (h : Keeps r s) :
    Keeps r (finishData s k nsid slots segs dw0 dw1) := by
  unfold finishData
  repeat' (first
    | with_reducible assumption
    | with_reducible apply finishCommit_keeps)

theorem finishWrite_keeps {r : State} {s : State} {k : CmdKey} {nsid : Nat} {slots : List Nat} {segs : List Segment} (h : Keeps r s) :
    Keeps r (finishWrite s k nsid slots segs) := by
  unfold finishWrite
  repeat' (first
    | with_reducible assumption
    | with_reducible apply finishData_keeps)

theorem putSlots_keeps {r : State} {nsid : Nat} {a : State × List Nat} {w : Nat × Bytes} (h : Keeps r a.1) :
    Keeps r (putSlots nsid a w).1 := by
  unfold putSlots
  repeat' (first
    | with_reducible assumption
    | with_reducible apply bufferWrite_keeps
    | split)

theorem releaseRange_keeps {r : State} {s : State} {nsid : Nat} {n : Ns} {off : Nat} {len : Nat} (h : Keeps r s) :
    Keeps r (releaseRange s nsid n off len).1 := by
  unfold releaseRange
  repeat' (first
    | with_reducible assumption
    | with_reducible apply Keeps.foldl_fst
    | with_reducible apply deallocate_keeps
    | with_reducible apply bufferUnit_keeps
    | (intro _ _ _)
    | split)

theorem nvmApply_keeps {r : State} {s : State} {e : Sqe} {opc : Nat} {n : Ns} (h : Keeps r s) :
    Keeps r (nvmApply s e opc n) := by
  unfold nvmApply
  repeat' (first
    | with_reducible assumption
    | with_reducible apply Keeps.foldl_fst
    | with_reducible apply waitJob_keeps
    | with_reducible apply onCtrl_keeps
    | with_reducible apply complete_keeps
    | with_reducible apply releaseRange_keeps
    | with_reducible apply finishWrite_keeps
    | with_reducible apply bufferWrite_keeps
    | with_reducible apply fail_keeps
    | with_reducible apply hostWrite_keeps
    | with_reducible apply c0Record_keeps
    | (intro _ _ _)
    | (extract_lets -underBinder +onlyGivenNames v; refine Keeps.use (P := Keeps r v) ?_ ?_; any_goals (first | (intro hv; clear_value v) | (clear_value (e : v = _); subst e)))
    | (extract_lets -underBinder +onlyGivenNames v; clear_value v)
    | split)

theorem nvmBody_keeps {r : State} {e : Sqe} {opc : Nat} {readDone : Bool} {s : State} (h : Keeps r s) :
    Keeps r (nvmBody e opc readDone s) := by
  unfold nvmBody
  repeat' (first
    | with_reducible assumption
    | with_reducible apply Keeps.foldl
    | with_reducible apply fail_keeps
    | with_reducible apply nvmApply_keeps
    | with_reducible apply issueRead_keeps
    | with_reducible apply waitJob_keeps
    | (intro _ _ _)
    | (extract_lets -underBinder +onlyGivenNames v; clear_value v)
    | split)

theorem retryJobs_keeps {r : State} {s : State} (h : Keeps r s) :
    Keeps r (retryJobs s) := by
  unfold retryJobs
  repeat' (first
    | with_reducible assumption
    | with_reducible rfl
    | with_reducible apply Keeps.foldl
    | with_reducible apply nvmBody_keeps
    | (intro _ _ _)
    | split
    | with_reducible refine Keeps.mk_ ?_ ?_ ?_ ?_)

theorem finishSync_keeps {r : State} {s : State} (h : Keeps r s) :
    Keeps r (finishSync s) := by
  unfold finishSync
  repeat' (first
    | with_reducible assumption
    | with_reducible rfl
    | with_reducible apply Keeps.foldl
    | with_reducible apply endCommit_keeps
    | with_reducible refine Keeps.mk_ ?_ ?_ ?_ ?_)

theorem afterMedia_keeps {r : State} {s : State} {ch : Fin 48} (h : Keeps r s) :
    Keeps r (afterMedia s ch) := by
  unfold afterMedia
  repeat' (first
    | with_reducible assumption
    | with_reducible apply retryJobs_keeps
    | with_reducible apply finishSync_keeps
    | with_reducible apply startAll_keeps
    | with_reducible apply destage_keeps)

theorem cancelJob_keeps {r : State} {s : State} {k : CmdKey} (h : Keeps r s) :
    Keeps r (cancelJob s k) := by
  unfold cancelJob
  repeat' (first
    | with_reducible assumption
    | with_reducible rfl
    | with_reducible apply cancelReads_keeps
    | with_reducible refine Keeps.mk_ ?_ ?_ ?_ ?_)

theorem chargeRead_keeps {r : State} {s : State} {o : NandOp} (h : Keeps r s) :
    Keeps r (chargeRead s o) := by
  unfold chargeRead
  repeat' (first
    | with_reducible assumption
    | with_reducible apply charge_keeps)

theorem linkRead_keeps {r : State} {s : State} {o : NandOp} (h : Keeps r s) :
    Keeps r (linkRead s o) := by
  unfold linkRead
  repeat' (first
    | with_reducible assumption
    | with_reducible apply chargeLink_keeps)

theorem noteRead_keeps {r : State} {s : State} {ch : Fin 48} {b0 : Nat} {step : Nat} {bits : Nat} {offset : Nat} (h : Keeps r s) :
    Keeps r (noteRead s ch b0 step bits offset) := by
  unfold noteRead
  repeat' (first
    | with_reducible assumption
    | with_reducible apply bump_keeps
    | with_reducible apply onChan_keeps
    | split)

theorem exhaust_keeps {r : State} {s : State} {ch : Fin 48} {addr : Nat} {step : Nat} {k : Option CmdKey} (h : Keeps r s) :
    Keeps r (exhaust s ch addr step k) := by
  unfold exhaust
  repeat' (first
    | with_reducible assumption
    | with_reducible apply bump_keeps
    | with_reducible apply onHealth_keeps
    | with_reducible apply onChan_keeps
    | with_reducible apply setEntry_keeps
    | with_reducible apply logEvent_keeps
    | with_reducible apply retryJobs_keeps
    | (intro _; with_reducible rfl)
    | split)

theorem ladderRead_keeps {r : State} {s : State} {ch : Fin 48} {o : NandOp} (h : Keeps r s) :
    Keeps r (ladderRead s ch o) := by
  unfold ladderRead
  repeat' (first
    | with_reducible assumption
    | with_reducible apply enqueue_keeps)

end Sys2Proof.Machine
end

