-- ==== Sys2Proof/Laws/KeepsSess.lean ====
section
/-! SUPPORT. What no operation breaks (`Keeps`): sessions, ATTEND and search. -/

namespace Sys2Proof.Machine

theorem countRound_keeps {r : State} {s : State} {f : RoundFlags} (h : Keeps r s) :
    Keeps r (countRound s f) := by
  unfold countRound
  repeat' (first
    | with_reducible assumption
    | with_reducible apply bump_keeps)

theorem countQuant_keeps {r : State} {s : State} {zero : Bool} {sat : Nat} {invalid : Nat} (h : Keeps r s) :
    Keeps r (countQuant s zero sat invalid) := by
  unfold countQuant
  repeat' (first
    | with_reducible assumption
    | with_reducible apply bump_keeps)

theorem loadEntry_keeps {r : State} {s : State} {i : Nat} {x : Sess} {m : Nat} {r0 : Nat} (h : Keeps r s) :
    Keeps r (loadEntry s i x m r0) := by
  exact Keeps.elim h fun _ => writeMem_keeps h

theorem loadPage_keeps {r : State} {s : State} {i : Nat} {x : Sess} {p : Nat × Nat} (h : Keeps r s) :
    Keeps r (loadPage s i x p) := by
  unfold loadPage
  repeat' (first
    | with_reducible assumption
    | with_reducible apply Keeps.foldl
    | with_reducible apply loadEntry_keeps
    | (intro _ _ _))

theorem loadPages_keeps {r : State} {s : State} {i : Nat} {x : Sess} (h : Keeps r s) :
    Keeps r (loadPages s i x) := by
  unfold loadPages
  repeat' (first
    | with_reducible assumption
    | with_reducible apply Keeps.foldl
    | with_reducible apply loadPage_keeps
    | with_reducible apply charge_keeps
    | with_reducible apply chargeFlash_keeps
    | (intro _ _ _))

theorem entryRead_keeps {r : State} {i : Nat} {x : Sess} {q : Nat × Nat} {p : State × Except Check.Outcome Bytes} (h : Keeps r p.1) :
    Keeps r (entryRead i x q p).1 := by
  unfold entryRead
  exact Keeps.ite_fst (Keeps.pair (charge_keeps h)) (Keeps.elim_fst h fun _ =>
    Keeps.ite_fst (Keeps.pair h) (Keeps.pair (loadEntry_keeps (chargeFlash_keeps h))))

theorem readEntry_keeps {r : State} {i : Nat} {x : Sess} {a : State × Option Nat} {q : Nat × Nat} (h : Keeps r a.1) :
    Keeps r (readEntry i x a q).1 := by
  exact Keeps.elim_fst (entryRead_keeps (readMem_keeps h)) fun _ => h

theorem clearPages_keeps {r : State} {s : State} {i : Nat} (h : Keeps r s) :
    Keeps r (clearPages s i) := by
  exact Keeps.mem_ h rfl (fun m => ⟨Mem.wf_clear 0 _ _ _ m.1, Mem.wf_clear 0 _ _ _ m.2.1, m.2.2⟩) rfl rfl rfl

theorem becomeCold_keeps {r : State} {s : State} {i : Nat} (h : Keeps r s) :
    Keeps r (becomeCold s i) := by
  unfold becomeCold
  repeat' (first
    | with_reducible assumption
    | with_reducible apply clearPages_keeps
    | with_reducible apply onSess_keeps)

theorem makeRoom_keeps {r : State} {s : State} {need : Nat} {keep : Option Nat} {x3 : Nat} (h : Keeps r s) :
    Keeps r (makeRoom s need keep x3) := by
  induction x3 generalizing s with
  | zero => exact h
  | succ n ih =>
    rw [makeRoom]
    split
    · exact h
    · split
      · exact h
      · exact ih (becomeCold_keeps h)

theorem freeRegion_keeps {r : State} {s : State} {need : Nat} {keep : Option Nat} (h : Keeps r s) :
    Keeps r (freeRegion s need keep).1 := by
  unfold freeRegion
  repeat' (first
    | with_reducible assumption
    | with_reducible apply makeRoom_keeps)

theorem makeWarm_keeps {r : State} {s : State} {i : Nat} (h : Keeps r s) :
    Keeps r (makeWarm s i).1 := by
  unfold makeWarm
  repeat' (first
    | with_reducible assumption
    | with_reducible apply freeRegion_keeps
    | with_reducible apply loadPages_keeps
    | with_reducible apply onSess_keeps
    | split
    | with_reducible refine Keeps.ofPair (by assumption) ?_)

theorem makeHot_keeps {r : State} {s : State} {i : Nat} (h : Keeps r s) :
    Keeps r (makeHot s i).1 := by
  unfold makeHot
  repeat' (first
    | with_reducible assumption
    | with_reducible apply makeWarm_keeps
    | with_reducible apply onSess_keeps
    | with_reducible apply onCore_keeps
    | split
    | with_reducible refine Keeps.ofPair (by assumption) ?_)

theorem saveContext_keeps {r : State} {s : State} {i : Nat} {b0 : Bank} (h : Keeps r s) :
    Keeps r (saveContext s i b0) := by
  unfold saveContext
  repeat' (first
    | with_reducible assumption
    | with_reducible apply charge_keeps
    | with_reducible apply onSess_keeps)

theorem leaveCores_keeps {r : State} {s : State} {i : Nat} (h : Keeps r s) :
    Keeps r (leaveCores s i) := by
  unfold leaveCores
  repeat' (first
    | with_reducible assumption
    | with_reducible apply Keeps.foldl
    | with_reducible apply saveContext_keeps
    | with_reducible apply onCore_keeps
    | (intro _ _ _)
    | split)

theorem dropTile_keeps {r : State} {s : State} {t : Nat} (h : Keeps r s) :
    Keeps r (dropTile s t) := by
  exact Keeps.mk_ h rfl rfl rfl

theorem setAway_keeps {r : State} {s : State} {i : Nat} {f : Tab (TileDirE × Option Nat) → Tab (TileDirE × Option Nat)} (h : Keeps r s) :
    Keeps r (setAway s i f) := by
  exact Keeps.mk_ h rfl rfl rfl

theorem spillOut_keeps {r : State} {s : State} {i : Nat} {t : Nat} (h : Keeps r s) :
    Keeps r (spillOut s i t) := by
  unfold spillOut
  repeat' (first
    | with_reducible assumption
    | with_reducible apply charge_keeps
    | with_reducible apply carryTile_keeps
    | with_reducible apply setAway_keeps)

theorem freeTile_keeps {r : State} {s : State} {t : Nat} (h : Keeps r s) :
    Keeps r (freeTile s t) := by
  unfold freeTile
  repeat' (first
    | with_reducible assumption
    | with_reducible apply writeBackTile_keeps
    | with_reducible apply spillOut_keeps
    | with_reducible apply dropTile_keeps
    | split)

theorem freeTiles_keeps {r : State} {s : State} {c : Nat} {acct : Nat} (h : Keeps r s) :
    Keeps r (freeTiles s c acct) := by
  unfold freeTiles
  repeat' (first
    | with_reducible assumption
    | with_reducible apply Keeps.foldl
    | with_reducible apply freeTile_keeps)

theorem grantTile_keeps {r : State} {s : State} {t : Nat} {acct : Nat} {core : Nat} {o : Option Nat} {class0 : Bool} (h : Keeps r s) :
    Keeps r (grantTile s t acct core o class0) := by
  exact Keeps.mk_ h rfl rfl rfl

theorem sendAway_keeps {r : State} {s : State} {i : Nat} {t : Nat} (h : Keeps r s) :
    Keeps r (sendAway s i t) := by
  unfold sendAway
  repeat' (first
    | with_reducible assumption
    | with_reducible rfl
    | with_reducible apply dropTile_keeps
    | with_reducible apply setAway_keeps
    | with_reducible apply carryTile_keeps
    | with_reducible apply spillOut_keeps
    | split
    | with_reducible refine Keeps.mk_ ?_ ?_ ?_ ?_)

theorem evict_keeps {r : State} {s : State} {t : Nat} (h : Keeps r s) :
    Keeps r (evict s t) := by
  unfold evict
  repeat' (first
    | with_reducible assumption
    | with_reducible apply sendAway_keeps
    | with_reducible apply freeTile_keeps
    | split)

theorem evictAll_keeps {r : State} {s : State} {l : List Nat} (h : Keeps r s) :
    Keeps r (evictAll s l) := by
  unfold evictAll
  repeat' (first
    | with_reducible assumption
    | with_reducible apply Keeps.foldl
    | with_reducible apply evict_keeps)

theorem fixPart_keeps {r : State} {s : State} {c : Fin 8} (h : Keeps r s) :
    Keeps r (fixPart s c) := by
  exact Keeps.mk_ h rfl rfl rfl

theorem bringTile_keeps {r : State} {s : State} {i : Nat} {acct : Nat} {c : Nat} {l : Nat} {e : TileDirE} {at_ : Option Nat} (h : Keeps r s) :
    Keeps r (bringTile s i acct c l e at_) := by
  unfold bringTile
  repeat' (first
    | with_reducible assumption
    | with_reducible rfl
    | with_reducible apply carryTile_keeps
    | with_reducible apply dropTile_keeps
    | with_reducible apply charge_keeps
    | with_reducible apply setAway_keeps
    | split
    | with_reducible refine Keeps.mk_ ?_ ?_ ?_ ?_)

theorem bringTiles_keeps {r : State} {s : State} {i : Nat} {c : Fin 8} (h : Keeps r s) :
    Keeps r (bringTiles s i c) := by
  unfold bringTiles
  repeat' (first
    | with_reducible assumption
    | with_reducible apply Keeps.foldl
    | with_reducible apply fixPart_keeps
    | with_reducible apply evictAll_keeps
    | with_reducible apply bringTile_keeps
    | (intro _ _ _)
    | split)

theorem unpark_keeps {r : State} {s : State} {i : Nat} {p : Nat → Bool} (h : Keeps r s) :
    Keeps r (unpark s i p) := by
  unfold unpark
  repeat' (first
    | with_reducible assumption
    | with_reducible apply Keeps.foldl
    | with_reducible apply charge_keeps
    | with_reducible apply carryTile_keeps
    | with_reducible apply dropTile_keeps
    | with_reducible apply setAway_keeps
    | (intro _ _ _)
    | split)

theorem dropGrant_keeps {r : State} {s : State} {i : Nat} (h : Keeps r s) :
    Keeps r (dropGrant s i) := by
  unfold dropGrant
  repeat' (first
    | with_reducible assumption
    | with_reducible apply Keeps.foldl
    | with_reducible apply unpark_keeps
    | with_reducible apply freeTile_keeps
    | with_reducible apply onSess_keeps
    | with_reducible apply leaveCores_keeps
    | split)

theorem touchSession_keeps {r : State} {s : State} {k : CmdKey} {i : Nat} (h : Keeps r s) :
    Keeps r (touchSession s k i).1 := by
  unfold touchSession
  repeat' (first
    | with_reducible assumption
    | with_reducible apply makeWarm_keeps
    | with_reducible apply nameSession_keeps
    | with_reducible apply bump_keeps
    | split
    | with_reducible refine Keeps.ofPair (by assumption) ?_)

theorem writeExtTable_keeps {r : State} {s : State} {i : Nat} (h : Keeps r s) :
    Keeps r (writeExtTable s i) := by
  unfold writeExtTable
  repeat' (first
    | with_reducible assumption
    | with_reducible apply Keeps.foldl
    | with_reducible apply putMedia_keeps
    | (intro _ _ _)
    | split)

theorem allocExtent_keeps {r : State} {s : State} {i : Nat} {meta_ : Bool} {flight : Bool} (h : Keeps r s) :
    Keeps r (allocExtent s i meta_ flight).1 := by
  unfold allocExtent
  repeat' (first
    | with_reducible assumption
    | with_reducible apply onSess_keeps
    | with_reducible apply writeExtTable_keeps
    | split)

theorem growTo_keeps {r : State} {s : State} {i : Nat} {meta_ : Bool} {m : Nat} {x4 : Nat} (h : Keeps r s) :
    Keeps r (growTo s i meta_ m x4).1 := by
  induction x4 generalizing s with
  | zero => exact h
  | succ n ih =>
    rw [growTo]
    split
    · exact h
    · refine Keeps.ite_fst h ?_
      split
      · rename_i e; exact ih (Keeps.ofPair e (allocExtent_keeps h))
      · rename_i e; exact Keeps.ofPair e (allocExtent_keeps h)

theorem nextFlightExtent_keeps {r : State} {s : State} {i : Nat} (h : Keeps r s) :
    Keeps r (nextFlightExtent s i).1 := by
  unfold nextFlightExtent
  repeat' (first
    | with_reducible assumption
    | with_reducible apply allocExtent_keeps
    | with_reducible apply putMedia_keeps
    | with_reducible apply onSess_keeps
    | with_reducible apply writeExtTable_keeps
    | with_reducible apply bump_keeps
    | with_reducible apply logEvent_keeps
    | (extract_lets -underBinder +onlyGivenNames v; clear_value v)
    | split
    | with_reducible refine Keeps.ofPair (by assumption) ?_)

theorem logFlight_keeps {r : State} {s : State} {i : Nat} {f : FlightEntry} (h : Keeps r s) :
    Keeps r (logFlight s i f) := by
  unfold logFlight
  repeat' (first
    | with_reducible assumption
    | with_reducible apply bump_keeps
    | with_reducible apply nextFlightExtent_keeps
    | with_reducible apply putMedia_keeps
    | with_reducible apply onSess_keeps
    | split
    | with_reducible refine Keeps.ofPair (by assumption) ?_)

theorem logCommand_keeps {r : State} {s : State} {e : Sqe} {f : FlightEntry} (h : Keeps r s) :
    Keeps r (logCommand s e f) := by
  unfold logCommand
  repeat' (first
    | with_reducible assumption
    | with_reducible apply logFlight_keeps
    | split)

theorem writeOutput_keeps {r : State} {s : State} {e : Sqe} {rec : Bytes} {data : Bytes} (h : Keeps r s) :
    Keeps r (writeOutput s e rec data) := by
  unfold writeOutput
  repeat' (first
    | with_reducible assumption
    | with_reducible apply hostWrite_keeps)

theorem endMove_keeps {r : State} {s : State} {i : Nat} (h : Keeps r s) :
    Keeps r (endMove s i) := by
  exact Keeps.mk_ h rfl rfl rfl

theorem checkSpill_keeps {r : State} {s : State} {i : Nat} {x : Sess} (h : Keeps r s) :
    Keeps r (checkSpill s i x) := by
  unfold checkSpill
  repeat' (first
    | with_reducible assumption
    | with_reducible apply Keeps.foldl
    | with_reducible apply fwCheck_keeps
    | (intro _ _ _))

theorem exportStep_keeps {r : State} {s : State} {i : Nat} {x2 : Nat} (h : Keeps r s) :
    Keeps r (exportStep s i x2) := by
  induction x2 generalizing s with
  | zero => exact h
  | succ n ih =>
    rw [exportStep]
    split
    · exact h
    · split
      · exact h
      · split
        · exact fail_keeps (endMove_keeps h)
        · extract_lets -underBinder +onlyGivenNames len
          split
          · extract_lets -underBinder +onlyGivenNames w
            exact finishData_keeps (endMove_keeps (Keeps.mk_ h rfl rfl rfl))
          · split
            · exact fail_keeps (endMove_keeps h)
            · split
              extract_lets -underBinder +onlyGivenNames off
              split
              · exact h
              · extract_lets -underBinder +onlyGivenNames w
                have hw : Keeps r w := Keeps.ite (checkSpill_keeps h) h
                clear_value w
                split
                rename_i e
                exact ih (onSess_keeps (Keeps.ofPair e (bufferWrite_keeps hw)))

theorem makeCold_keeps {r : State} {s : State} {i : Nat} (h : Keeps r s) :
    Keeps r (makeCold s i) := by
  unfold makeCold
  repeat' (first
    | with_reducible assumption
    | with_reducible apply becomeCold_keeps
    | with_reducible apply dropGrant_keeps)

theorem moveResidency_keeps {r : State} {s : State} {i : Nat} {m : MoveReq} (h : Keeps r s) :
    Keeps r (moveResidency s i m) := by
  unfold moveResidency
  repeat' (first
    | with_reducible assumption
    | with_reducible apply onSess_keeps
    | with_reducible apply makeHot_keeps
    | with_reducible apply makeWarm_keeps
    | with_reducible apply dropGrant_keeps
    | with_reducible apply makeCold_keeps
    | with_reducible apply finishSession_keeps
    | with_reducible apply endMove_keeps
    | split)

theorem runMove_keeps {r : State} {s : State} {i : Nat} (h : Keeps r s) :
    Keeps r (runMove s i) := by
  unfold runMove
  repeat' (first
    | with_reducible assumption
    | with_reducible apply exportStep_keeps
    | with_reducible apply moveResidency_keeps
    | split)

theorem finishOpen_keeps {r : State} {s : State} {k : CmdKey} {i : Nat} (h : Keeps r s) :
    Keeps r (finishOpen s k i) := by
  unfold finishOpen
  repeat' (first
    | with_reducible assumption
    | with_reducible apply onSess_keeps
    | with_reducible apply makeWarm_keeps
    | with_reducible apply finishSession_keeps)

theorem setRole_keeps {r : State} {s : State} {nsid : Nat} {r0 : Role} (h : Keeps r s) :
    Keeps r (setRole s nsid r0) := by
  exact Keeps.mk_ h rfl rfl rfl

theorem freeExtents_keeps {r : State} {s : State} {x : Sess} (h : Keeps r s) :
    Keeps r (freeExtents s x) := by
  exact Keeps.mem_ (Keeps.foldl h fun s a hs => setEntry_keeps hs) rfl (fun m => ⟨m.1, m.2.1, Mem.wf_filter 0 _ _ m.2.2⟩)
    rfl rfl rfl

theorem dropSession_keeps {r : State} {s : State} {i : Nat} (h : Keeps r s) :
    Keeps r (dropSession s i) := by
  unfold dropSession
  split
  · exact h
  · extract_lets -underBinder +onlyGivenNames v w
    have hv : Keeps r v := clearPages_keeps (freeExtents_keeps (dropGrant_keeps h))
    have hw : Keeps r w := Keeps.mem_ hv rfl (fun m => ⟨Mem.wf_clear 0 _ _ _ m.1, Mem.wf_clear 0 _ _ _ m.2.1, m.2.2⟩) rfl rfl rfl
    exact Keeps.mk_ hw rfl rfl rfl

theorem closeSession_keeps {r : State} {s : State} {i : Nat} (h : Keeps r s) :
    Keeps r (closeSession s i) := by
  unfold closeSession
  repeat' (first
    | with_reducible assumption
    | with_reducible apply onAcct_keeps
    | with_reducible apply dropSession_keeps
    | split)

theorem importFail_keeps {r : State} {s : State} {j : ImportJob} {c : Code} (h : Keeps r s) :
    Keeps r (importFail s j c) := by
  unfold importFail
  repeat' (first
    | with_reducible assumption
    | with_reducible rfl
    | with_reducible apply dropSession_keeps
    | with_reducible apply fail_keeps
    | with_reducible apply bump_keeps
    | split
    | with_reducible refine Keeps.mk_ ?_ ?_ ?_ ?_)

theorem loadFlight_keeps {r : State} {s : State} {i : Nat} (h : Keeps r s) :
    Keeps r (loadFlight s i) := by
  unfold loadFlight
  repeat' (first
    | with_reducible assumption
    | with_reducible apply onSess_keeps
    | split)

theorem importTiles_keeps {r : State} {s : State} {i : Nat} {spill : Nat} {b0 : Bytes} (h : Keeps r s) :
    Keeps r (importTiles s i spill b0) := by
  unfold importTiles
  repeat' (first
    | with_reducible assumption
    | with_reducible apply Keeps.foldl
    | with_reducible apply writeMem_keeps
    | with_reducible apply setAway_keeps
    | (intro _ _ _)
    | split)

theorem applyHead_keeps {r : State} {s : State} {i : Nat} {spill : Nat} {b0 : Bytes} (h : Keeps r s) :
    Keeps r (applyHead s i spill b0) := by
  unfold applyHead
  repeat' (first
    | with_reducible assumption
    | with_reducible apply onSess_keeps
    | with_reducible apply importTiles_keeps)

theorem applyExtents_keeps {r : State} {s : State} {i : Nat} {metaBits : Nat} {lo : Nat} {b0 : Bytes} {x5 : Nat} (h : Keeps r s) :
    Keeps r (applyExtents s i metaBits lo b0 x5).1 := by
  induction x5 generalizing s lo b0 with
  | zero => exact h
  | succ n ih =>
    rw [applyExtents]
    split
    · exact h
    · split
      · exact h
      · extract_lets -underBinder +onlyGivenNames e
        split
        · split
          · rename_i q; exact ih (Keeps.ofPair q (allocExtent_keeps h))
          · rename_i q; exact Keeps.ofPair q (allocExtent_keeps h)
        · extract_lets -underBinder +onlyGivenNames u m part w
          have hw : Keeps r w := by
            dsimp only [w]
            split
            · exact h
            · exact putMedia_keeps h
          exact ih hw

theorem importChunk_keeps {r : State} {s : State} {key : CmdKey} {j : ImportJob} {plain : Bytes} (h : Keeps r s) :
    Keeps r (importChunk s key j plain).1 := by
  unfold importChunk
  extract_lets -underBinder +onlyGivenNames hd spill fixed lo h1 held layers bits w ext q j'
  have hw : Keeps r w := Keeps.ite (applyHead_keeps h) h
  have hq : Keeps r q.1 := applyExtents_keeps hw
  exact Keeps.ite_fst (Keeps.pair (importFail_keeps hq)) (Keeps.pair (Keeps.mk_ hq rfl rfl rfl))

theorem importOne_keeps {r : State} {s : State} {key : CmdKey} {j : ImportJob} (h : Keeps r s) :
    Keeps r (importOne s key j).1 := by
  unfold importOne
  refine Keeps.ite_fst ?_ ?_
  · extract_lets -underBinder +onlyGivenNames w
    exact Keeps.pair (finishOpen_keeps (Keeps.mk_ (loadFlight_keeps h) rfl rfl rfl))
  · split
    · refine Keeps.ite_fst h ?_
      split
      · exact Keeps.pair (importFail_keeps h)
      · exact importChunk_keeps h
    · exact Keeps.pair (importFail_keeps h)

theorem importNext_keeps {r : State} {p : State × Bool} {k : State → State} (h : Keeps r p.1) (hb : ∀ s, Keeps r s → Keeps r (k s)) :
    Keeps r (importNext p k) := by
  unfold importNext
  split
  · exact hb _ h
  · exact h

theorem importStep_keeps {r : State} {s : State} {key : CmdKey} {x2 : Nat} (h : Keeps r s) :
    Keeps r (importStep s key x2) := by
  induction x2 generalizing s with
  | zero => exact h
  | succ n ih =>
    rw [importStep]
    split
    · exact h
    · exact importNext_keeps (importOne_keeps h) (fun s hs => ih hs)

theorem openSession_keeps {r : State} {s : State} {e : Sqe} {p : OpenP} {i : Nat} (h : Keeps r s) :
    Keeps r (openSession s e p i) := by
  unfold openSession
  repeat' (first
    | with_reducible assumption
    | with_reducible rfl
    | with_reducible apply fail_keeps
    | with_reducible apply bump_keeps
    | with_reducible apply failDw0_keeps
    | with_reducible apply setRole_keeps
    | with_reducible apply importStep_keeps
    | with_reducible apply finishOpen_keeps
    | split
    | with_reducible refine Keeps.mk_ ?_ ?_ ?_ ?_)

theorem holdJob_keeps {r : State} {s : State} {e : Sqe} {opc : Nat} (h : Keeps r s) :
    Keeps r (holdJob s e opc) := by
  exact Keeps.mk_ h rfl rfl rfl

theorem openBody_keeps {r : State} {e : Sqe} {s : State} (h : Keeps r s) :
    Keeps r (openBody e s) := by
  unfold openBody
  repeat' (first
    | with_reducible assumption
    | with_reducible apply fail_keeps
    | with_reducible apply failDw0_keeps
    | with_reducible apply openSession_keeps
    | with_reducible apply holdJob_keeps
    | (extract_lets -underBinder +onlyGivenNames v; clear_value v)
    | split)

theorem classFor_keeps {r : State} {s : State} {e : Sqe} {i : Nat} (h : Keeps r s) :
    Keeps r (classFor s e i) := by
  unfold classFor
  repeat' (first
    | with_reducible assumption
    | with_reducible apply takeClass_keeps
    | split)

theorem closeBody_keeps {r : State} {e : Sqe} {s : State} (h : Keeps r s) :
    Keeps r (closeBody e s) := by
  unfold closeBody
  repeat' (first
    | with_reducible assumption
    | with_reducible apply classFor_keeps
    | with_reducible apply fail_keeps
    | with_reducible apply finishSession_keeps
    | with_reducible apply closeSession_keeps
    | with_reducible apply holdJob_keeps
    | (extract_lets -underBinder +onlyGivenNames v; refine Keeps.use (P := Keeps r v) ?_ ?_; any_goals (first | (intro hv; clear_value v) | (clear_value (e : v = _); subst e)))
    | (extract_lets -underBinder +onlyGivenNames v; clear_value v)
    | split)

theorem startMoveReq_keeps {r : State} {s : State} {i : Nat} {m : MoveReq} (h : Keeps r s) :
    Keeps r (startMoveReq s i m) := by
  unfold startMoveReq
  repeat' (first
    | with_reducible assumption
    | with_reducible apply runMove_keeps
    | with_reducible apply onSess_keeps)

theorem moveBody_keeps {r : State} {e : Sqe} {s : State} (h : Keeps r s) :
    Keeps r (moveBody e s) := by
  unfold moveBody
  repeat' (first
    | with_reducible assumption
    | with_reducible apply classFor_keeps
    | with_reducible apply fail_keeps
    | with_reducible apply failDw0_keeps
    | with_reducible apply startMoveReq_keeps
    | (extract_lets -underBinder +onlyGivenNames v; refine Keeps.use (P := Keeps r v) ?_ ?_; any_goals (first | (intro hv; clear_value v) | (clear_value (e : v = _); subst e)))
    | (extract_lets -underBinder +onlyGivenNames v; clear_value v)
    | split)

theorem exportBody_keeps {r : State} {e : Sqe} {s : State} (h : Keeps r s) :
    Keeps r (exportBody e s) := by
  unfold exportBody
  repeat' (first
    | with_reducible assumption
    | with_reducible rfl
    | with_reducible apply classFor_keeps
    | with_reducible apply fail_keeps
    | with_reducible apply startMoveReq_keeps
    | split
    | with_reducible refine Keeps.mk_ ?_ ?_ ?_ ?_)

theorem dropAttend_keeps {r : State} {s : State} {j : AttendJob} (h : Keeps r s) :
    Keeps r (dropAttend s j) := by
  unfold dropAttend
  repeat' (first
    | with_reducible assumption
    | with_reducible rfl
    | with_reducible apply onSess_keeps
    | split
    | with_reducible refine Keeps.mk_ ?_ ?_ ?_ ?_)

theorem logAttend_keeps {r : State} {s : State} {j : AttendJob} {c : Code} {out : Bytes} (h : Keeps r s) :
    Keeps r (logAttend s j c out) := by
  unfold logAttend
  repeat' (first
    | with_reducible assumption
    | with_reducible apply logFlight_keeps
    | split)

theorem attendFail_keeps {r : State} {s : State} {j : AttendJob} {c : Code} {nsid : Nat} {lba : Nat} (h : Keeps r s) :
    Keeps r (attendFail s j c nsid lba) := by
  unfold attendFail
  repeat' (first
    | with_reducible assumption
    | with_reducible apply fail_keeps
    | with_reducible apply dropAttend_keeps
    | with_reducible apply logAttend_keeps)

theorem appendRoom_keeps {r : State} {s : State} {j : AttendJob} (h : Keeps r s) :
    Keeps r (appendRoom s j).1 := by
  unfold appendRoom
  repeat' (first
    | with_reducible assumption
    | with_reducible apply growTo_keeps
    | (extract_lets -underBinder +onlyGivenNames v; clear_value v)
    | split
    | with_reducible refine Keeps.ofPair (by assumption) ?_)

theorem appendCopies_keeps {r : State} {s : State} {j : AttendJob} (h : Keeps r s) :
    Keeps r (appendCopies s j) := by
  unfold appendCopies
  repeat' (first
    | with_reducible assumption
    | with_reducible apply Keeps.foldl
    | with_reducible apply loadEntry_keeps
    | (intro _ _ _)
    | split)

theorem growRegion_keeps {r : State} {s : State} {j : AttendJob} {x : Sess} (h : Keeps r s) :
    Keeps r (growRegion s j x) := by
  unfold growRegion
  repeat' (first
    | with_reducible assumption
    | with_reducible apply freeRegion_keeps
    | with_reducible apply becomeCold_keeps
    | with_reducible apply dropGrant_keeps
    | split
    | with_reducible refine Keeps.ofPair (by assumption) ?_)

theorem appendWrite_keeps {r : State} {s : State} {j : AttendJob} (h : Keeps r s) :
    Keeps r (appendWrite s j).1 := by
  unfold appendWrite
  repeat' (first
    | with_reducible assumption
    | with_reducible apply Keeps.foldl
    | with_reducible apply Keeps.foldl_fst
    | with_reducible apply countQuant_keeps
    | with_reducible apply putSlots_keeps
    | with_reducible apply growRegion_keeps
    | with_reducible apply appendCopies_keeps
    | (intro _ _ _)
    | split)

theorem freeLayers_keeps {r : State} {s : State} (h : Keeps r s) :
    Keeps r (freeLayers s) := by
  exact Keeps.mk_ h rfl rfl rfl

theorem holdLayer_keeps {r : State} {s : State} {i : Nat} {p : AttendP} (h : Keeps r s) :
    Keeps r (holdLayer s i p) := by
  unfold holdLayer
  repeat' (first
    | with_reducible assumption
    | with_reducible apply onSess_keeps
    | split)

theorem holdAttend_keeps {r : State} {s : State} {e : Sqe} {p : AttendP} (h : Keeps r s) :
    Keeps r (holdAttend s e p) := by
  unfold holdAttend
  repeat' (first
    | with_reducible assumption
    | with_reducible rfl
    | with_reducible apply holdLayer_keeps
    | with_reducible refine Keeps.mk_ ?_ ?_ ?_ ?_)

theorem readPages_keeps {r : State} {s : State} {x : Sess} {j : AttendJob} (h : Keeps r s) :
    Keeps r (readPages s x j).1 := by
  unfold readPages
  repeat' (first
    | with_reducible assumption
    | with_reducible apply Keeps.foldl_fst
    | with_reducible apply chargeFlash_keeps
    | with_reducible apply readEntry_keeps
    | split)

theorem chargeSelection_keeps {r : State} {s : State} {x : Sess} {j : AttendJob} (h : Keeps r s) :
    Keeps r (chargeSelection s x j) := by
  unfold chargeSelection
  repeat' (first
    | with_reducible assumption
    | with_reducible apply fresh_keeps
    | with_reducible apply charge_keeps
    | split)

theorem attendBegin_keeps {r : State} {s : State} {e : Sqe} {p : AttendP} {x : Sess} {place : Bool} {cold : Bool} (h : Keeps r s) :
    Keeps r (attendBegin s e p x place cold) := by
  unfold attendBegin
  repeat' (first
    | with_reducible assumption
    | with_reducible rfl
    | with_reducible apply holdLayer_keeps
    | with_reducible apply readPages_keeps
    | with_reducible apply chargeSelection_keeps
    | with_reducible apply attendFail_keeps
    | split
    | with_reducible refine Keeps.ofPair (by assumption) ?_
    | with_reducible refine Keeps.mk_ ?_ ?_ ?_ ?_)

theorem attendStart_keeps {r : State} {s : State} {e : Sqe} {p : AttendP} (h : Keeps r s) :
    Keeps r (attendStart s e p) := by
  unfold attendStart
  repeat' (first
    | with_reducible assumption
    | with_reducible apply touchSession_keeps
    | with_reducible apply makeHot_keeps
    | with_reducible apply attendBegin_keeps
    | with_reducible apply holdAttend_keeps
    | (extract_lets -underBinder +onlyGivenNames v; clear_value v)
    | split
    | with_reducible refine Keeps.ofPair (by assumption) ?_)

theorem attendBody_keeps {r : State} {e : Sqe} {waited : Bool} {s : State} (h : Keeps r s) :
    Keeps r (attendBody e waited s) := by
  unfold attendBody
  repeat' (first
    | with_reducible assumption
    | with_reducible apply fail_keeps
    | with_reducible apply freeLayers_keeps
    | with_reducible apply holdAttend_keeps
    | with_reducible apply takeView_keeps
    | with_reducible apply attendStart_keeps
    | (extract_lets -underBinder +onlyGivenNames v; refine Keeps.use (P := Keeps r v) ?_ ?_; any_goals (first | (intro hv; clear_value v) | (clear_value (e : v = _); subst e)))
    | (extract_lets -underBinder +onlyGivenNames v; clear_value v)
    | split)

theorem attendDone_keeps {r : State} {s : State} {x : Sess} {j : AttendJob} (h : Keeps r s) :
    Keeps r (attendDone s x j) := by
  unfold attendDone
  repeat' (first
    | with_reducible assumption
    | with_reducible rfl
    | with_reducible apply bump_keeps
    | with_reducible apply countRound_keeps
    | with_reducible apply chargeLink_keeps
    | with_reducible apply charge_keeps
    | with_reducible apply c0Record_keeps
    | with_reducible apply writeOutput_keeps
    | with_reducible apply logAttend_keeps
    | with_reducible apply appendWrite_keeps
    | with_reducible apply finishCommit_keeps
    | split
    | with_reducible refine Keeps.mk_ ?_ ?_ ?_ ?_)

theorem attendMerge_keeps {r : State} {s : State} {x : Sess} {j : AttendJob} (h : Keeps r s) :
    Keeps r (attendMerge s x j) := by
  unfold attendMerge
  repeat' (first
    | with_reducible assumption
    | with_reducible apply attendFail_keeps
    | with_reducible apply attendDone_keeps
    | with_reducible apply appendRoom_keeps
    | split
    | with_reducible refine Keeps.ofPair (by assumption) ?_)

theorem onCtx_keeps {r : State} {s : State} {ch : Fin 48} {i : Nat} {f : Ctx → Ctx} (h : Keeps r s) :
    Keeps r (onCtx s ch i f) := by
  exact Keeps.mk_ h rfl rfl rfl

theorem queueDispatch_keeps {r : State} {s : State} {ch : Fin 48} {d : LampDispatch} (h : Keeps r s) :
    Keeps r (queueDispatch s ch d).1 := by
  unfold queueDispatch
  repeat' (first
    | with_reducible assumption
    | with_reducible apply onCluster_keeps
    | split)

theorem sendWalker_keeps {r : State} {key : CmdKey} {acct : Nat} {s : State} {node : Nat} (h : Keeps r s) :
    Keeps r (sendWalker key acct s node) := by
  unfold sendWalker
  repeat' (first
    | with_reducible assumption
    | with_reducible apply chargeLink_keeps
    | with_reducible apply onCluster_keeps
    | with_reducible apply queueDispatch_keeps
    | (extract_lets -underBinder +onlyGivenNames v)
    | split)

theorem endWalkersOf_keeps {r : State} {s : State} {key : CmdKey} {p : Nat → Bool} (h : Keeps r s) :
    Keeps r (endWalkersOf s key p) := by
  exact Keeps.mk_ h rfl rfl rfl

theorem endWalkers_keeps {r : State} {s : State} {key : CmdKey} (h : Keeps r s) :
    Keeps r (endWalkers s key) := by
  exact Keeps.mk_ h rfl rfl rfl

theorem onIndex_keeps {r : State} {s : State} {i : Nat} {f : Index → Index} (h : Keeps r s) :
    Keeps r (onIndex s i f) := by
  exact Keeps.mk_ h rfl rfl rfl

theorem putCode_keeps {r : State} {i : Nat} {x : Index} {s : State} {x3 : Nat} (h : Keeps r s) :
    Keeps r (putCode i x s x3) := by
  unfold putCode
  repeat' (first
    | with_reducible assumption
    | with_reducible apply Keeps.foldl
    | with_reducible apply writeWord_keeps
    | (intro _ _ _))

theorem putBook_keeps {r : State} {i : Nat} {x : Index} {s : State} (h : Keeps r s) :
    Keeps r (putBook i x s) := by
  unfold putBook
  repeat' (first
    | with_reducible assumption
    | with_reducible apply writeMem_keeps
    | split)

theorem loadCodes_keeps {r : State} {s : State} {i : Nat} (h : Keeps r s) :
    Keeps r (loadCodes s i) := by
  unfold loadCodes
  repeat' (first
    | with_reducible assumption
    | with_reducible apply Keeps.foldl
    | with_reducible apply putCode_keeps
    | with_reducible apply putBook_keeps
    | split)

theorem readCopy_keeps {r : State} {nsid : Nat} {off : Nat} {a : Nat} {tag : Nat} {r0 : State × Option Nat} (h : Keeps r r0.1) :
    Keeps r (readCopy nsid off a tag r0).1 := by
  unfold readCopy
  repeat' (first
    | with_reducible assumption
    | with_reducible apply readWord_keeps
    | with_reducible apply writeWord_keeps
    | split
    | with_reducible refine Keeps.ofPair (by assumption) ?_)

theorem readNodeCode_keeps {r : State} {i : Nat} {x : Index} {s : State} {x3 : Nat} (h : Keeps r s) :
    Keeps r (readNodeCode i x s x3).1 := by
  unfold readNodeCode
  repeat' (first
    | with_reducible assumption
    | with_reducible apply Keeps.foldl_fst
    | with_reducible apply readCopy_keeps
    | (intro _ _ _))

theorem readCodes_keeps {r : State} {i : Nat} {x : Index} {s : State} {ns : List Nat} (h : Keeps r s) :
    Keeps r (readCodes i x s ns).1 := by
  unfold readCodes
  repeat' (first
    | with_reducible assumption
    | with_reducible apply Keeps.foldl_fst
    | with_reducible apply readNodeCode_keeps
    | with_reducible apply charge_keeps
    | (intro _ _ _)
    | split
    | with_reducible refine Keeps.ofPair (by assumption) ?_)

theorem readBook_keeps {r : State} {i : Nat} {x : Index} {s : State} (h : Keeps r s) :
    Keeps r (readBook i x s).1 := by
  unfold readBook
  repeat' (first
    | with_reducible assumption
    | with_reducible apply Keeps.foldl_fst
    | with_reducible apply readCopy_keeps
    | with_reducible apply charge_keeps
    | (intro _ _ _)
    | split)

theorem insertEntry_keeps {r : State} {s : State} {i : Nat} {e : Entry} (h : Keeps r s) :
    Keeps r (insertEntry s i e).1 := by
  unfold insertEntry
  repeat' (first
    | with_reducible assumption
    | with_reducible apply countQuant_keeps
    | with_reducible apply putCode_keeps
    | with_reducible apply onIndex_keeps
    | (extract_lets -underBinder +onlyGivenNames v; refine Keeps.use (P := Keeps r v) ?_ ?_; any_goals (first | (intro hv; clear_value v) | (clear_value (e : v = _); subst e)))
    | (extract_lets -underBinder +onlyGivenNames v; clear_value v)
    | split)

theorem onIngest_keeps {r : State} {s : State} {i : Nat} {f : Ingest → Ingest} (h : Keeps r s) :
    Keeps r (onIngest s i f) := by
  exact Keeps.mk_ h rfl rfl rfl

theorem rejectSegment_keeps {r : State} {s : State} {g : Ingest} {seg : Segment} (h : Keeps r s) :
    Keeps r (rejectSegment s g seg) := by
  unfold rejectSegment
  repeat' (first
    | with_reducible assumption
    | with_reducible apply fresh_keeps
    | with_reducible apply bump_keeps
    | with_reducible apply logEvent_keeps)

theorem bindingFailed_keeps {r : State} {s : State} {i : Nat} (h : Keeps r s) :
    Keeps r (bindingFailed s i) := by
  unfold bindingFailed
  repeat' (first
    | with_reducible assumption
    | with_reducible apply rejectSegment_keeps
    | with_reducible apply onIngest_keeps
    | split)

theorem writeGen_keeps {r : State} {s : State} {x : Index} {old : Gen} {g : Gen} {newBook : Bool} (h : Keeps r s) :
    Keeps r (writeGen s x old g newBook) := by
  unfold writeGen
  repeat' (first
    | with_reducible assumption
    | with_reducible apply Keeps.foldl
    | with_reducible apply putMedia_keeps
    | (intro _ _ _)
    | split)

theorem publishIndex_keeps {r : State} {s : State} {i : Nat} (h : Keeps r s) :
    Keeps r (publishIndex s i) := by
  unfold publishIndex
  repeat' (first
    | with_reducible assumption
    | with_reducible apply writeGen_keeps
    | with_reducible apply onIndex_keeps
    | with_reducible apply loadCodes_keeps
    | with_reducible apply onIngest_keeps
    | split)

theorem compactChunk_keeps {r : State} {s : State} {i : Nat} (h : Keeps r s) :
    Keeps r (compactChunk s i) := by
  unfold compactChunk
  repeat' (first
    | with_reducible assumption
    | with_reducible apply writeGen_keeps
    | with_reducible apply onIndex_keeps
    | split)

theorem setQuery_keeps {r : State} {s : State} {q : Query} (h : Keeps r s) :
    Keeps r (setQuery s q) := by
  exact Keeps.mk_ h rfl rfl rfl

theorem freeIndex_keeps {r : State} {s : State} {i : Nat} (h : Keeps r s) :
    Keeps r (freeIndex s i) := by
  unfold freeIndex
  repeat' (first
    | with_reducible assumption
    | with_reducible rfl
    | with_reducible apply complete_keeps
    | with_reducible apply wipeNs_keeps
    | split
    | with_reducible refine Keeps.mk_ ?_ ?_ ?_ ?_)

theorem chargeReads_keeps {r : State} {s : State} {q : Query} {n : Nat} (h : Keeps r s) :
    Keeps r (chargeReads s q n) := by
  exact Keeps.mk_ h rfl rfl rfl

theorem dropQuery_keeps {r : State} {s : State} {q : Query} (h : Keeps r s) :
    Keeps r (dropQuery s q) := by
  unfold dropQuery
  repeat' (first
    | with_reducible assumption
    | with_reducible rfl
    | with_reducible apply endWalkers_keeps
    | with_reducible refine Keeps.mk_ ?_ ?_ ?_ ?_)

theorem countWiden_keeps {r : State} {s : State} {old : Query} {q : Query} (h : Keeps r s) :
    Keeps r (countWiden s old q) := by
  unfold countWiden
  repeat' (first
    | with_reducible assumption
    | with_reducible apply bump_keeps)

theorem finishQuery_keeps {r : State} {s : State} {x : Index} {q : Query} {stop : StopReason} (h : Keeps r s) :
    Keeps r (finishQuery s x q stop) := by
  unfold finishQuery
  repeat' (first
    | with_reducible assumption
    | with_reducible apply bump_keeps
    | with_reducible apply writeOutput_keeps
    | with_reducible apply logCommand_keeps
    | with_reducible apply dropQuery_keeps
    | with_reducible apply complete_keeps
    | split)

theorem failQuery_keeps {r : State} {s : State} {q : Query} {c : Code} {nsid : Nat} {lba : Nat} (h : Keeps r s) :
    Keeps r (failQuery s q c nsid lba) := by
  unfold failQuery
  repeat' (first
    | with_reducible assumption
    | with_reducible apply logCommand_keeps
    | with_reducible apply fail_keeps
    | with_reducible apply dropQuery_keeps)

theorem queryOn_keeps {r : State} {s : State} {x : Index} {old : Query} {kept : List Nat} {r0 : Query × Option StopReason} (h : Keeps r s) :
    Keeps r (queryOn s x old kept r0) := by
  unfold queryOn
  repeat' (first
    | with_reducible assumption
    | with_reducible apply Keeps.foldl
    | with_reducible apply countWiden_keeps
    | with_reducible apply sendWalker_keeps
    | with_reducible apply setQuery_keeps
    | with_reducible apply finishQuery_keeps
    | split)

theorem skipCodes_keeps {r : State} {s : State} {q : Query} {bad : List (Nat × Nat)} (h : Keeps r s) :
    Keeps r (skipCodes s q bad).1 := by
  unfold skipCodes
  repeat' (first
    | with_reducible assumption
    | with_reducible apply bump_keeps)

theorem openQuery_keeps {r : State} {s : State} {x : Index} {q : Query} (h : Keeps r s) :
    Keeps r (openQuery s x q) := by
  unfold openQuery
  repeat' (first
    | with_reducible assumption
    | with_reducible apply readBook_keeps
    | with_reducible apply failQuery_keeps
    | with_reducible apply readCodes_keeps
    | with_reducible apply queryOn_keeps
    | with_reducible apply skipCodes_keeps
    | split
    | with_reducible refine Keeps.ofPair (by assumption) ?_)

theorem admitQueries_keeps {r : State} {s : State} {x1 : Nat} (h : Keeps r s) :
    Keeps r (admitQueries s x1) := by
  induction x1 generalizing s with
  | zero => exact h
  | succ n ih =>
    rw [admitQueries]
    split
    · exact h
    · extract_lets -underBinder +onlyGivenNames w
      have hw : Keeps r w := Keeps.mk_ h rfl rfl rfl
      clear_value w
      split
      · exact ih (failQuery_keeps hw)
      · exact ih (openQuery_keeps hw)

theorem afterQuery_keeps {r : State} {s : State} {i : Nat} (h : Keeps r s) :
    Keeps r (afterQuery s i) := by
  unfold afterQuery
  repeat' (first
    | with_reducible assumption
    | with_reducible apply freeIndex_keeps
    | with_reducible apply admitQueries_keeps)

theorem searchBody_keeps {r : State} {e : Sqe} {s : State} (h : Keeps r s) :
    Keeps r (searchBody e s) := by
  unfold searchBody
  repeat' (first
    | with_reducible assumption
    | with_reducible rfl
    | with_reducible apply failDw0_keeps
    | with_reducible apply onFlight_keeps
    | with_reducible apply admitQueries_keeps
    | split
    | with_reducible refine Keeps.mk_ ?_ ?_ ?_ ?_)

theorem roundMerged_keeps {r : State} {s : State} {q : Query} {x : Index} (h : Keeps r s) :
    Keeps r (roundMerged s q x) := by
  unfold roundMerged
  repeat' (first
    | with_reducible assumption
    | with_reducible apply endWalkersOf_keeps
    | with_reducible apply chargeReads_keeps
    | with_reducible apply failQuery_keeps
    | with_reducible apply readCodes_keeps
    | with_reducible apply queryOn_keeps
    | (extract_lets -underBinder +onlyGivenNames v; refine Keeps.use (P := Keeps r v) ?_ ?_; any_goals (first | (intro hv; clear_value v) | (clear_value (e : v = _); subst e)))
    | split
    | with_reducible refine Keeps.ofPair (by assumption) ?_)

theorem replyMerged_keeps {r : State} {s : State} {q : Query} {x : Index} {node : Nat} {bad : Bool} (h : Keeps r s) :
    Keeps r (replyMerged s q x node bad) := by
  unfold replyMerged
  repeat' (first
    | with_reducible assumption
    | with_reducible apply endWalkersOf_keeps
    | with_reducible apply chargeReads_keeps
    | with_reducible apply bump_keeps
    | with_reducible apply readCodes_keeps
    | with_reducible apply skipCodes_keeps
    | with_reducible apply queryOn_keeps
    | split)

theorem scanBody_keeps {r : State} {e : Sqe} {s : State} (h : Keeps r s) :
    Keeps r (scanBody e s) := by
  unfold scanBody
  repeat' (first
    | with_reducible assumption
    | with_reducible apply fail_keeps
    | with_reducible apply logCommand_keeps
    | with_reducible apply charge_keeps
    | with_reducible apply writeOutput_keeps
    | with_reducible apply complete_keeps
    | (extract_lets -underBinder +onlyGivenNames v; clear_value v)
    | split)

theorem readRun_keeps {r : State} {s : State} {i : Nat} {x : Index} {rs : List Query} (h : Keeps r s) :
    Keeps r (readRun s i x rs).1 := by
  unfold readRun
  repeat' (first
    | with_reducible assumption
    | with_reducible apply readBook_keeps
    | with_reducible apply readCodes_keeps
    | split
    | with_reducible refine Keeps.ofPair (by assumption) ?_)

theorem onBank_keeps {r : State} {s : State} {c : Fin 8} {f : Bank → Bank} (h : Keeps r s) :
    Keeps r (onBank s c f) := by
  exact Keeps.mk_ h rfl rfl rfl

theorem onBankOf_keeps {r : State} {s : State} {c : Fin 8} {b0 : Bool} {f : Bank → Bank} (h : Keeps r s) :
    Keeps r (onBankOf s c b0 f) := by
  exact Keeps.mk_ h rfl rfl rfl

theorem onProg_keeps {r : State} {s : State} {c : Fin 8} {f : Prog → Prog} (h : Keeps r s) :
    Keeps r (onProg s c f) := by
  exact Keeps.mk_ h rfl rfl rfl

theorem chargeOn_keeps {r : State} {s : State} {c : Fin 8} {field : Nat} {n : Nat} (h : Keeps r s) :
    Keeps r (chargeOn s c field n) := by
  unfold chargeOn
  repeat' (first
    | with_reducible assumption
    | with_reducible apply charge_keeps)

theorem poolForWrite_keeps {r : State} {s : State} {c : Option (Fin 8)} {a : Nat} (h : Keeps r s) :
    Keeps r (poolForWrite s c a).1 := by
  unfold poolForWrite
  split
  · exact h
  · split
    · exact h
    · extract_lets -underBinder +onlyGivenNames t
      refine Keeps.ite_fst (Keeps.ite h (onProg_keeps (copyRaw_keeps h))) (Keeps.ite_fst ?_ h)
      exact onProg_keeps (fwCheck_keeps h)

theorem loadContext_keeps {r : State} {s : State} {c : Fin 8} {b0 : Bool} {i : Nat} (h : Keeps r s) :
    Keeps r (loadContext s c b0 i) := by
  unfold loadContext
  repeat' (first
    | with_reducible assumption
    | with_reducible apply onBankOf_keeps
    | with_reducible apply charge_keeps
    | with_reducible apply bringTiles_keeps
    | with_reducible apply onSess_keeps
    | split)

theorem poolPut_keeps {r : State} {s : State} {c : Option (Fin 8)} {a : Nat} {b0 : Bytes} {tag : Nat} (h : Keeps r s) :
    Keeps r (poolPut s c a b0 tag).1 := by
  unfold poolPut
  repeat' (first
    | with_reducible assumption
    | with_reducible apply Keeps.foldl_fst
    | with_reducible apply poolForWrite_keeps
    | with_reducible apply writeMem_keeps
    | with_reducible apply setStale_keeps
    | (intro _ _ _))

theorem poolGet_keeps {r : State} {s : State} {c : Option (Fin 8)} {a : Nat} {n : Nat} {tag : Nat} (h : Keeps r s) :
    Keeps r (poolGet s c a n tag).1 := by
  unfold poolGet
  repeat' (first
    | with_reducible assumption
    | with_reducible apply Keeps.foldl_fst
    | with_reducible apply readMem_keeps
    | (intro _ _ _)
    | split
    | with_reducible refine Keeps.ofPair (by assumption) ?_)

theorem dropCopies_keeps {r : State} {s : State} {c : Fin 8} (h : Keeps r s) :
    Keeps r (dropCopies s c) := by
  exact Keeps.mem_ h rfl (fun m => ⟨Mem.wf_clear 0 _ _ _ m.1, Mem.wf_clear 0 _ _ _ m.2.1, m.2.2⟩) rfl rfl rfl

end Sys2Proof.Machine
end

