-- ==== Sys2Proof/Laws/KeepsCore.lean ====
section
/-! SUPPORT. What no operation breaks (`Keeps`): lamp clusters, cores and tiles. -/

namespace Sys2Proof.Machine

theorem clearLocal_keeps {r : State} {s : State} {x : Ctx} (h : Keeps r s) :
    Keeps r (clearLocal s x) := by
  unfold clearLocal
  repeat' (first
    | with_reducible assumption
    | with_reducible apply Keeps.foldl
    | with_reducible apply writeWord_keeps
    | (intro _ _ _))

theorem startCtx_keeps {r : State} {s : State} {ch : Fin 48} {d : LampDispatch} {slot : Nat} (h : Keeps r s) :
    Keeps r (startCtx s ch d slot) := by
  unfold startCtx
  extract_lets -underBinder +onlyGivenNames f
  extract_lets -underBinder +onlyGivenNames y
  extract_lets -underBinder +onlyGivenNames x
  extract_lets -underBinder +onlyGivenNames put
  extract_lets -underBinder +onlyGivenNames loaded
  have hp : ∀ a y, Keeps r a → Keeps r (put a y) := fun a y ha => onCluster_keeps ha
  clear_value x y f put loaded
  split
  · exact hp _ _ h
  split
  · exact hp _ _ (clearLocal_keeps h)
  split
  · exact hp _ _ h
  split
  · rename_i q; exact hp _ _ (writeMem_keeps (chargePool_keeps (clearLocal_keeps (Keeps.ofPair q (poolGet_keeps h)))))
  · rename_i q; exact hp _ _ (Keeps.ofPair q (poolGet_keeps h))

theorem deliver_keeps {r : State} {s : State} {ch : Fin 48} {d : LampDispatch} (h : Keeps r s) :
    Keeps r (deliver s ch d).1 := by
  unfold deliver
  repeat' (first
    | with_reducible assumption
    | with_reducible apply chargeLink_keeps
    | with_reducible apply startCtx_keeps
    | with_reducible apply queueDispatch_keeps
    | (extract_lets -underBinder +onlyGivenNames v)
    | split)

theorem locPut_keeps {r : State} {s : State} {x : Ctx} {a : Nat} {b0 : Bytes} (h : Keeps r s) :
    Keeps r (locPut s x a b0).1 := by
  unfold locPut
  repeat' (first
    | with_reducible assumption
    | with_reducible apply writeMem_keeps)

theorem checkLocal_keeps {r : State} {s : State} {x : Ctx} {i : LampInsn} (h : Keeps r s) :
    Keeps r (checkLocal s x i).1 := by
  unfold checkLocal
  repeat' (first
    | with_reducible assumption
    | with_reducible apply Keeps.foldl_fst
    | with_reducible apply readMem_keeps
    | (intro _ _ _)
    | split
    | with_reducible refine Keeps.ofPair (by assumption) ?_)

theorem lampPoolWrite_keeps {r : State} {s : State} {x : Ctx} {lo : Fin 32} {hi : Fin 32} {src : Fin 32} {w : Nat} (h : Keeps r s) :
    Keeps r (lampPoolWrite s x lo hi src w).1 := by
  unfold lampPoolWrite
  repeat' (first
    | with_reducible assumption
    | with_reducible apply poolForWrite_keeps
    | with_reducible apply writeMem_keeps
    | with_reducible apply chargePool_keeps
    | with_reducible apply touchTile_keeps
    | (extract_lets -underBinder +onlyGivenNames v; clear_value v)
    | split
    | with_reducible refine Keeps.ofPair (by assumption) ?_)

theorem fetchInsn_keeps {r : State} {s : State} {x : Ctx} (h : Keeps r s) :
    Keeps r (fetchInsn s x).1 := by
  unfold fetchInsn
  repeat' (first
    | with_reducible assumption
    | with_reducible apply readWord_keeps
    | split)

theorem unitEffect_keeps {r s t : State} {x y : Ctx} {i : LampInsn} (h : Keeps r s) (e : unitEffect s x i = some (t, y)) :
    Keeps r t := by
  have hc : ∀ {f}, Keeps r (countRound s f) := countRound_keeps h
  have hf := fresh_keeps h
  unfold unitEffect at e
  dsimp -zeta only at e
  split at e
  all_goals
    (try extract_lets at e)
    (repeat' split at e)
    all_goals (first | (cases e; with_reducible assumption) | (cases e; exact hc) | (cases e; exact hf) | (cases e; exact locPut_keeps h) | cases e)

theorem lampUnit_keeps {r : State} {s : State} {k : Cluster} {x : Ctx} {i : LampInsn} {u : Nat} (h : Keeps r s) :
    Keeps r (lampUnit s k x i u).1 := by
  unfold lampUnit
  refine Keeps.ite_fst h ?_
  split
  · rename_i e; exact unitEffect_keeps h e
  · exact h

theorem lampRequest_keeps {r : State} {s : State} {x : Ctx} {q : LampReq} {bad : Option Nat} (h : Keeps r s) :
    Keeps r (lampRequest s x q bad).1 := by
  unfold lampRequest
  repeat' (first
    | with_reducible assumption
    | split)

theorem lampPlain_keeps {r : State} {s : State} {x : Ctx} {i : LampInsn} (h : Keeps r s) :
    Keeps r (lampPlain s x i).1 := by
  unfold lampPlain
  split
  · exact h
  · exact h
  · rename_i e; exact unitEffect_keeps h (by assumption)
  · exact h

theorem lampKind_keeps {r : State} {s : State} {k : Cluster} {x : Ctx} {i : LampInsn} (h : Keeps r s) :
    Keeps r (lampKind s k x i).1 := by
  unfold lampKind
  repeat' (first
    | with_reducible assumption
    | with_reducible apply lampUnit_keeps
    | with_reducible apply lampRequest_keeps
    | with_reducible apply lampPoolWrite_keeps
    | with_reducible apply lampPlain_keeps
    | split)

theorem lampChecked_keeps {r : State} {p : State × Bool} {x : Ctx} {k : State → State × Ctx × Issued} (h : Keeps r p.1) (hk : ∀ s, Keeps r s → Keeps r (k s).1) :
    Keeps r (lampChecked p x k).1 := by
  unfold lampChecked
  exact Keeps.ite_fst (hk _ h) h

theorem lampStep_keeps {r : State} {s : State} {k : Cluster} {x : Ctx} {i : LampInsn} (h : Keeps r s) :
    Keeps r (lampStep s k x i).1 := by
  unfold lampStep
  repeat' (first
    | with_reducible assumption
    | with_reducible apply lampChecked_keeps
    | with_reducible apply fetchInsn_keeps
    | with_reducible apply checkLocal_keeps
    | with_reducible apply lampKind_keeps
    | (intro _ _)
    | split)

theorem postRecord_keeps {r : State} {s : State} {x : Ctx} (h : Keeps r s) :
    Keeps r (postRecord s x) := by
  unfold postRecord
  repeat' (first
    | with_reducible assumption
    | with_reducible apply poolForWrite_keeps
    | with_reducible apply setStale_keeps
    | with_reducible apply chargePool_keeps
    | with_reducible apply writeWord_keeps
    | with_reducible apply coreEvent_keeps
    | (extract_lets -underBinder +onlyGivenNames v; refine Keeps.use (P := Keeps r v) ?_ ?_; any_goals (first | (intro hv; clear_value v) | (clear_value (e : v = _); subst e)))
    | (extract_lets -underBinder +onlyGivenNames v; clear_value v)
    | split)

theorem lampReturn_keeps {r : State} {s : State} {x : Ctx} {q : LampReq} {r0 : LampReply} (h : Keeps r s) :
    Keeps r (lampReturn s x q r0).1 := by
  unfold lampReturn
  repeat' (first
    | with_reducible assumption
    | with_reducible apply locPut_keeps
    | with_reducible apply charge_keeps
    | with_reducible apply readMem_keeps
    | with_reducible apply chargePool_keeps
    | (extract_lets -underBinder +onlyGivenNames v; clear_value v)
    | split
    | with_reducible refine Keeps.ofPair (by assumption) ?_)

theorem onMe_keeps {r : State} {s : State} {c : Fin 8} {i : Fin 16} {f : MeSlot → MeSlot} (h : Keeps r s) :
    Keeps r (onMe s c i f) := by
  exact Keeps.mk_ h rfl rfl rfl

theorem onTm_keeps {r : State} {s : State} {c : Fin 8} {i : Fin 32} {f : DescSlot → DescSlot} (h : Keeps r s) :
    Keeps r (onTm s c i f) := by
  exact Keeps.mk_ h rfl rfl rfl

theorem onTd_keeps {r : State} {s : State} {c : Fin 8} {i : Fin 2} {f : DescSlot → DescSlot} (h : Keeps r s) :
    Keeps r (onTd s c i f) := by
  exact Keeps.mk_ h rfl rfl rfl

theorem meWrite_keeps {r : State} {s : State} {c : Fin 8} {slot : Fin 16} {v : Nat} {fw : Bool} (h : Keeps r s) :
    Keeps r (meWrite s c slot v fw) := by
  unfold meWrite
  repeat' (first
    | with_reducible assumption
    | with_reducible apply onMe_keeps
    | with_reducible apply onCore_keeps
    | with_reducible apply coreEvent_keeps
    | (extract_lets -underBinder +onlyGivenNames v; refine Keeps.use (P := Keeps r v) ?_ ?_; any_goals (first | (intro hv; clear_value v) | (clear_value (e : v = _); subst e)))
    | (extract_lets -underBinder +onlyGivenNames v; clear_value v)
    | split)

theorem rescan_keeps {r : State} {s : State} {c : Fin 8} {fmt : Option Nat} {t : Nat} (h : Keeps r s) :
    Keeps r (rescan s c fmt t) := by
  unfold rescan
  extract_lets -underBinder +onlyGivenNames a f st
  refine Keeps.ite ?_ h
  extract_lets -underBinder +onlyGivenNames v
  have hv : Keeps r v := checkWords_keeps h
  exact chargeOn_keeps (Keeps.mk_ hv rfl rfl rfl)

theorem rescanOps_keeps {r : State} {s : State} {c : Fin 8} {d : MeDesc} {e : Fin 4} (h : Keeps r s) :
    Keeps r (rescanOps s c d e) := by
  unfold rescanOps
  refine Keeps.foldl h fun a n ha => ?_
  extract_lets -underBinder +onlyGivenNames m
  refine Keeps.ite ha ?_
  extract_lets -underBinder +onlyGivenNames v rc
  exact chargeOn_keeps (onEngine_keeps (checkWords_keeps ha))

theorem readRange_keeps {r : State} {s : State} {c : Fin 8} {r0 : Nat × Nat} (h : Keeps r s) :
    Keeps r (readRange s c r0).1 := by
  unfold readRange
  repeat' (first
    | with_reducible assumption
    | with_reducible apply readMem_keeps
    | split
    | with_reducible refine Keeps.ofPair (by assumption) ?_)

theorem passEngine_keeps {r : State} {s : State} {c : Fin 8} {i : Fin 16} {d : MeDesc} {rows : List (List Num.Val)} {e : Fin 4} (h : Keeps r s) :
    Keeps r (passEngine s c i d rows e).1 := by
  unfold passEngine
  repeat' (first
    | with_reducible assumption
    | with_reducible apply readMem_keeps
    | with_reducible apply onEngine_keeps
    | with_reducible apply charge_keeps
    | with_reducible apply chargeOn_keeps
    | (extract_lets -underBinder +onlyGivenNames v; clear_value v)
    | split
    | with_reducible refine Keeps.ofPair (by assumption) ?_)

theorem passEngines_keeps {r : State} {s : State} {c : Fin 8} {i : Fin 16} {d : MeDesc} {rows : List (List Num.Val)} {x5 : List (Fin 4)} (h : Keeps r s) :
    Keeps r (passEngines s c i d rows x5).1 := by
  induction x5 generalizing s with
  | nil => exact h
  | cons e t ih =>
    rw [passEngines]
    split
    · rename_i q; exact ih (Keeps.ofPair q (passEngine_keeps h))
    · exact passEngine_keeps h

theorem clearAcc_keeps {r : State} {s : State} {c : Fin 8} (h : Keeps r s) :
    Keeps r (clearAcc s c) := by
  unfold clearAcc
  repeat' (first
    | with_reducible assumption
    | with_reducible apply Keeps.foldl
    | with_reducible apply onEngine_keeps
    | (intro _ _ _))

theorem dropMe_keeps {r : State} {s : State} {c : Fin 8} {p : MeSlot → Bool} (h : Keeps r s) :
    Keeps r (dropMe s c p) := by
  unfold dropMe
  repeat' (first
    | with_reducible assumption
    | with_reducible apply Keeps.foldl
    | with_reducible apply onCore_keeps
    | with_reducible apply onMe_keeps
    | (intro _ _ _)
    | (extract_lets -underBinder +onlyGivenNames v; clear_value v)
    | split)

theorem abandonMe_keeps {r : State} {s : State} {c : Fin 8} {l : List (Fin 16)} {status : Nat} (h : Keeps r s) :
    Keeps r (abandonMe s c l status) := by
  unfold abandonMe
  repeat' (first
    | with_reducible assumption
    | with_reducible apply Keeps.foldl
    | with_reducible apply coreEvent_keeps
    | with_reducible apply onCore_keeps
    | with_reducible apply onMe_keeps
    | (intro _ _ _))

theorem storedTile_keeps {r : State} {s : State} {c : Fin 8} {t : Nat} {r0 : Option MaxAbs} (h : Keeps r s) :
    Keeps r (storedTile s c t r0) := by
  unfold storedTile
  repeat' (first
    | with_reducible assumption
    | with_reducible rfl
    | with_reducible apply onCore_keeps
    | with_reducible apply useTile_keeps
    | with_reducible apply setDir_keeps
    | split
    | with_reducible refine Keeps.mk_ ?_ ?_ ?_ ?_)

theorem endTd_keeps {r : State} {s : State} {c : Fin 8} {i : Fin 2} {set : Nat} {status : Nat} {refused : Bool} (h : Keeps r s) :
    Keeps r (endTd s c i set status refused) := by
  unfold endTd
  repeat' (first
    | with_reducible assumption
    | with_reducible apply onTd_keeps
    | with_reducible apply onBank_keeps
    | with_reducible apply coreEvent_keeps
    | split)

theorem dropTm_keeps {r : State} {s : State} {c : Fin 8} {p : DescSlot → Bool} (h : Keeps r s) :
    Keeps r (dropTm s c p) := by
  unfold dropTm
  repeat' (first
    | with_reducible assumption
    | with_reducible apply Keeps.foldl
    | with_reducible apply onCore_keeps
    | with_reducible apply onTm_keeps
    | (intro _ _ _)
    | (extract_lets -underBinder +onlyGivenNames v; clear_value v)
    | split)

theorem endTile_keeps {r : State} {s : State} {c : Fin 8} {status : Nat} (h : Keeps r s) :
    Keeps r (endTile s c status) := by
  unfold endTile
  repeat' (first
    | with_reducible assumption
    | with_reducible apply Keeps.foldl
    | with_reducible apply setDir_keeps
    | with_reducible apply dropTm_keeps
    | with_reducible apply dropMe_keeps
    | with_reducible apply clearAcc_keeps
    | with_reducible apply endTd_keeps
    | with_reducible apply onCore_keeps
    | (intro _ _ _)
    | split)

theorem abortCtxs_keeps {r : State} {s : State} {c : Fin 8} (h : Keeps r s) :
    Keeps r (abortCtxs s c) := by
  unfold abortCtxs
  repeat' (first
    | with_reducible assumption
    | with_reducible apply Keeps.foldl
    | with_reducible apply onCluster_keeps
    | (intro _ _ _))

theorem endReplay_keeps {r : State} {s : State} {e : Sqe} {f : FlightEntry} {out : Bytes} {logged : Bytes} {shown : Bytes} {outside : Bool} (h : Keeps r s) :
    Keeps r (endReplay s e f out logged shown outside) := by
  unfold endReplay
  repeat' (first
    | with_reducible assumption
    | with_reducible apply writeOutput_keeps
    | with_reducible apply complete_keeps
    | with_reducible apply bump_keeps
    | with_reducible apply logEvent_keeps
    | with_reducible apply failDw0_keeps
    | split)

theorem endCommand_keeps {r : State} {s : State} {p : Prog} {c : Code} {dw0 : Nat} {out : Bytes} (h : Keeps r s) :
    Keeps r (endCommand s p c dw0 out) := by
  unfold endCommand
  repeat' (first
    | with_reducible assumption
    | with_reducible apply endReplay_keeps
    | with_reducible apply failDw0_keeps
    | with_reducible apply bindingFailed_keeps
    | with_reducible apply logFlight_keeps
    | with_reducible apply complete_keeps
    | with_reducible apply hostWrite_keeps
    | split)

theorem leaveEntries_keeps {r : State} {s : State} {c : Fin 8} {p : Prog} (h : Keeps r s) :
    Keeps r (leaveEntries s c p) := by
  unfold leaveEntries
  repeat' (first
    | with_reducible assumption
    | with_reducible apply Keeps.foldl
    | with_reducible apply logFlight_keeps
    | with_reducible apply onCore_keeps
    | with_reducible apply onBank_keeps
    | (intro _ _ _)
    | split)

theorem syncMbox_keeps {r : State} {s : State} {c : Fin 8} (h : Keeps r s) :
    Keeps r (syncMbox s c) := by
  unfold syncMbox
  repeat' (first
    | with_reducible assumption
    | with_reducible apply onCore_keeps
    | with_reducible apply coreEvent_keeps
    | split)

theorem endProgram_keeps {r : State} {s : State} {c : Fin 8} {status : Nat} {code : Code} {dw0 : Nat} {out : Bytes} (h : Keeps r s) :
    Keeps r (endProgram s c status code dw0 out) := by
  unfold endProgram
  repeat' (first
    | with_reducible assumption
    | with_reducible apply endTile_keeps
    | with_reducible apply dropTm_keeps
    | with_reducible apply dropMe_keeps
    | with_reducible apply clearAcc_keeps
    | with_reducible apply leaveEntries_keeps
    | with_reducible apply abortCtxs_keeps
    | with_reducible apply dropCopies_keeps
    | with_reducible apply onBank_keeps
    | with_reducible apply syncMbox_keeps
    | with_reducible apply onCore_keeps
    | with_reducible apply freeTiles_keeps
    | with_reducible apply endCommand_keeps
    | split)

theorem accessFault_keeps {r : State} {s : State} {c : Fin 8} {addr : Nat} (h : Keeps r s) :
    Keeps r (accessFault s c addr) := by
  unfold accessFault
  repeat' (first
    | with_reducible assumption
    | with_reducible apply endProgram_keeps)

theorem restoreTile_keeps {r : State} {s : State} {c : Fin 8} {w : OpenTile} (h : Keeps r s) :
    Keeps r (restoreTile s c w) := by
  unfold restoreTile
  refine onBank_keeps ?_
  split
  · exact Keeps.mem_ h rfl (fun m => ⟨Mem.wf_foldl_put 0 _ _ _ _ (Mem.wf_clear 0 _ _ _ m.1),
      Mem.wf_foldl_put 0 _ _ _ _ (Mem.wf_clear 0 _ _ _ m.2.1), m.2.2⟩) rfl rfl rfl
  · exact h

theorem abandonTile_keeps {r : State} {s : State} {c : Fin 8} {cause : BitVec 8} {status : Nat} {at_ : List (Fin 16)} (h : Keeps r s) :
    Keeps r (abandonTile s c cause status at_) := by
  unfold abandonTile
  repeat' (first
    | with_reducible assumption
    | with_reducible apply abandonMe_keeps
    | with_reducible apply clearAcc_keeps
    | with_reducible apply chargeOn_keeps
    | with_reducible apply logEvent_keeps
    | with_reducible apply endProgram_keeps
    | with_reducible apply dropTm_keeps
    | with_reducible apply dropMe_keeps
    | with_reducible apply restoreTile_keeps
    | with_reducible apply onTd_keeps
    | with_reducible apply onCore_keeps
    | with_reducible apply coreEvent_keeps
    | split
    | with_reducible refine Keeps.mk_ ?_ ?_ ?_ ?_)

theorem passScan_keeps {r : State} {s : State} {c : Fin 8} {i : Fin 16} (h : Keeps r s) :
    Keeps r (passScan s c i) := by
  unfold passScan
  repeat' (first
    | with_reducible assumption
    | with_reducible apply Keeps.foldl
    | with_reducible apply rescan_keeps
    | (intro _ _ _))

theorem passInputs_keeps {r : State} {s : State} {c : Fin 8} {d : MeDesc} (h : Keeps r s) :
    Keeps r (passInputs s c d).1 := by
  unfold passInputs
  repeat' (first
    | with_reducible assumption
    | with_reducible apply readRange_keeps
    | split
    | with_reducible refine Keeps.ofPair (by assumption) ?_)

theorem passTaken_keeps {r : State} {s : State} {c : Fin 8} {i : Fin 16} (h : Keeps r s) :
    Keeps r (passTaken s c i).1 := by
  unfold passTaken
  repeat' (first
    | with_reducible assumption
    | with_reducible apply Keeps.foldl
    | with_reducible apply passInputs_keeps
    | with_reducible apply rescanOps_keeps
    | with_reducible apply passEngines_keeps
    | (intro _ _ _)
    | (extract_lets -underBinder +onlyGivenNames v; clear_value v)
    | split
    | with_reducible refine Keeps.ofPair (by assumption) ?_)

theorem passIssued_keeps {r : State} {s : State} {c : Fin 8} {i : Fin 16} {d : MeDesc} (h : Keeps r s) :
    Keeps r (passIssued s c i d) := by
  unfold passIssued
  repeat' (first
    | with_reducible assumption
    | with_reducible apply onCore_keeps
    | with_reducible apply onMe_keeps
    | with_reducible apply coreEvent_keeps
    | split)

theorem issuePass_keeps {r : State} {s : State} {c : Fin 8} {i : Fin 16} (h : Keeps r s) :
    Keeps r (issuePass s c i) := by
  unfold issuePass
  repeat' (first
    | with_reducible assumption
    | with_reducible apply passTaken_keeps
    | with_reducible apply abandonTile_keeps
    | with_reducible apply passIssued_keeps
    | split
    | with_reducible refine Keeps.ofPair (by assumption) ?_)

theorem drainDraw_keeps {r : State} {s : State} {c : Fin 8} {x : MeSlot} {d : MeDesc} {e : Fin 4} {m : Nat} {n : Nat} (h : Keeps r s) :
    Keeps r (drainDraw s c x d e m n).1 := by
  unfold drainDraw
  repeat' (first
    | with_reducible assumption
    | with_reducible apply onBank_keeps
    | split)

theorem drainRow_keeps {r : State} {s : State} {c : Fin 8} {x : MeSlot} {d : MeDesc} {e : Fin 4} {acc : Tab DaRec} {m : Nat} (h : Keeps r s) :
    Keeps r (drainRow s c x d e acc m).1 := by
  unfold drainRow
  repeat' (first
    | with_reducible assumption
    | with_reducible apply Keeps.foldl_fst
    | with_reducible apply drainDraw_keeps
    | (intro _ _ _))

theorem drainEngine_keeps {r : State} {s : State} {c : Fin 8} {x : MeSlot} {d : MeDesc} {e : Fin 4} (h : Keeps r s) :
    Keeps r (drainEngine s c x d e).1 := by
  unfold drainEngine
  repeat' (first
    | with_reducible assumption
    | with_reducible rfl
    | with_reducible apply Keeps.foldl
    | with_reducible apply Keeps.foldl_fst
    | with_reducible apply writeMem_keeps
    | with_reducible apply drainRow_keeps
    | with_reducible apply onEngine_keeps
    | with_reducible apply storedTile_keeps
    | with_reducible apply onCore_keeps
    | with_reducible apply setDir_keeps
    | with_reducible apply countRound_keeps
    | (intro _ _ _)
    | split
    | with_reducible refine Keeps.ofPair (by assumption) ?_
    | with_reducible refine Keeps.mk_ ?_ ?_ ?_ ?_)

theorem drainSlot_keeps {r : State} {s : State} {c : Fin 8} {i : Fin 16} (h : Keeps r s) :
    Keeps r (drainSlot s c i) := by
  unfold drainSlot
  repeat' (first
    | with_reducible assumption
    | with_reducible apply Keeps.foldl_fst
    | with_reducible apply onProg_keeps
    | with_reducible apply drainEngine_keeps
    | with_reducible apply coreEvent_keeps
    | with_reducible apply onMe_keeps
    | (intro _ _ _)
    | split)

theorem readList_keeps {r : State} {s : State} {c : Fin 8} {a : Nat} {n : Nat} (h : Keeps r s) :
    Keeps r (readList s c a n).1 := by
  unfold readList
  repeat' (first
    | with_reducible assumption
    | with_reducible apply readRange_keeps
    | split
    | with_reducible refine Keeps.ofPair (by assumption) ?_)

theorem tdCheck_keeps {r : State} {s : State} {c : Fin 8} {d : TileDesc} (h : Keeps r s) :
    Keeps r (tdCheck s c d).1 := by
  unfold tdCheck
  repeat' (first
    | with_reducible assumption
    | with_reducible apply readList_keeps
    | split
    | with_reducible refine Keeps.ofPair (by assumption) ?_)

theorem closeTile_keeps {r : State} {s : State} {c : Fin 8} (h : Keeps r s) :
    Keeps r (closeTile s c) := by
  unfold closeTile
  repeat' (first
    | with_reducible assumption
    | with_reducible apply onTd_keeps
    | with_reducible apply onCore_keeps
    | split)

theorem noteCost_keeps {r : State} {s : State} {c : Fin 8} {cost : Nat} (h : Keeps r s) :
    Keeps r (noteCost s c cost) := by
  unfold noteCost
  repeat' (first
    | with_reducible assumption
    | with_reducible apply onCtrl_keeps
    | split)

theorem tdWrite_keeps {r : State} {s : State} {c : Fin 8} {i : Fin 2} {v : Nat} (h : Keeps r s) :
    Keeps r (tdWrite s c i v) := by
  unfold tdWrite
  repeat' (first
    | with_reducible assumption
    | with_reducible apply closeTile_keeps
    | with_reducible apply onTd_keeps
    | with_reducible apply tdCheck_keeps
    | with_reducible apply onBank_keeps
    | with_reducible apply noteCost_keeps
    | with_reducible apply endTd_keeps
    | (extract_lets -underBinder +onlyGivenNames v; refine Keeps.use (P := Keeps r v) ?_ ?_; any_goals (first | (intro hv; clear_value v) | (clear_value (e : v = _); subst e)))
    | (extract_lets -underBinder +onlyGivenNames v; clear_value v)
    | split
    | with_reducible refine Keeps.ofPair (by assumption) ?_)

theorem openTile_keeps {r : State} {s : State} {c : Fin 8} {i : Fin 2} (h : Keeps r s) :
    Keeps r (openTile s c i) := by
  unfold openTile
  repeat' (first
    | with_reducible assumption
    | with_reducible apply Keeps.foldl
    | with_reducible apply useTile_keeps
    | with_reducible apply setDir_keeps
    | with_reducible apply onTd_keeps
    | with_reducible apply onProg_keeps
    | with_reducible apply onCore_keeps
    | (intro _ _ _))

theorem moveCore_keeps {r : State} {s : State} {c : Fin 8} (h : Keeps r s) :
    Keeps r (moveCore s c) := by
  unfold moveCore
  repeat' (first
    | with_reducible assumption
    | with_reducible apply Keeps.foldl
    | with_reducible apply sendAway_keeps
    | with_reducible apply onBank_keeps
    | with_reducible apply saveContext_keeps
    | with_reducible apply onCore_keeps
    | with_reducible apply onSess_keeps
    | with_reducible apply loadContext_keeps
    | (intro _ _ _)
    | (extract_lets -underBinder +onlyGivenNames v; refine Keeps.use (P := Keeps r v) ?_ ?_; any_goals (first | (intro hv; clear_value v) | (clear_value (e : v = _); subst e)))
    | (extract_lets -underBinder +onlyGivenNames v; clear_value v)
    | split)

theorem postBox_keeps {r : State} {s : State} {c : Fin 8} {b0 : Bool} {e : List W32} (h : Keeps r s) :
    Keeps r (postBox s c b0 e) := by
  unfold postBox
  repeat' (first
    | with_reducible assumption
    | with_reducible apply syncMbox_keeps
    | with_reducible apply onBankOf_keeps
    | with_reducible apply onCore_keeps)

theorem postIn_keeps {r : State} {s : State} {c : Fin 8} {e : List W32} (h : Keeps r s) :
    Keeps r (postIn s c e) := by
  unfold postIn
  repeat' (first
    | with_reducible assumption
    | with_reducible apply postBox_keeps)

theorem mediaMove_keeps {r : State} {s : State} {c : Option (Fin 8)} {p : Prog} {b0 : Bytes} (h : Keeps r s) :
    Keeps r (mediaMove s c p b0).1 := by
  unfold mediaMove
  repeat' (first
    | with_reducible assumption
    | with_reducible apply poolPut_keeps
    | with_reducible apply chargeFlash_keeps
    | with_reducible apply poolGet_keeps
    | with_reducible apply putMedia_keeps
    | (extract_lets -underBinder +onlyGivenNames v; clear_value v)
    | split
    | with_reducible refine Keeps.ofPair (by assumption) ?_)

theorem mediaEntry_keeps {r : State} {s : State} {c : Fin 8} {p : Prog} {b0 : Bytes} (h : Keeps r s) :
    Keeps r (mediaEntry s c p b0).1 := by
  unfold mediaEntry
  split
  · rename_i q; exact Keeps.ofPair q (mediaMove_keeps h)
  · rename_i q; exact postIn_keeps (Keeps.ofPair q (mediaMove_keeps h))

theorem takeLeft_keeps {r : State} {s : State} {c : Fin 8} {x2 : Nat} (h : Keeps r s) :
    Keeps r (takeLeft s c x2) := by
  induction x2 generalizing s with
  | zero => exact h
  | succ n ih =>
    rw [takeLeft]
    split
    · exact h
    · split
      · rename_i q; exact Keeps.ofPair q (mediaMove_keeps h)
      · rename_i q; exact ih (onCore_keeps (Keeps.ofPair q (mediaMove_keeps h)))

theorem takeEntry_keeps {r : State} {s : State} {c : Fin 8} {e : List W32} (h : Keeps r s) :
    Keeps r (takeEntry s c e).1 := by
  unfold takeEntry
  repeat' (first
    | with_reducible assumption
    | with_reducible apply accessFault_keeps
    | with_reducible apply poolGet_keeps
    | with_reducible apply endProgram_keeps
    | with_reducible apply mediaEntry_keeps
    | with_reducible apply logFlight_keeps
    | (extract_lets -underBinder +onlyGivenNames v; clear_value v)
    | split
    | with_reducible refine Keeps.ofPair (by assumption) ?_)

theorem takeOutbound_keeps {r : State} {s : State} {c : Fin 8} {x2 : Nat} (h : Keeps r s) :
    Keeps r (takeOutbound s c x2) := by
  induction x2 generalizing s with
  | zero => exact h
  | succ n ih =>
    rw [takeOutbound]
    split
    · exact h
    · split
      · rename_i q; exact ih (Keeps.ofPair q (takeEntry_keeps (onBank_keeps h)))
      · rename_i q; exact onCore_keeps (onBank_keeps (Keeps.ofPair q (takeEntry_keeps (onBank_keeps h))))

theorem serveOutbound_keeps {r : State} {s : State} {c : Fin 8} (h : Keeps r s) :
    Keeps r (serveOutbound s c) := by
  unfold serveOutbound
  repeat' (first
    | with_reducible assumption
    | with_reducible apply takeLeft_keeps
    | with_reducible apply onCore_keeps
    | with_reducible apply takeOutbound_keeps)

theorem ringFirmware_keeps {r : State} {s : State} {c : Fin 8} (h : Keeps r s) :
    Keeps r (ringFirmware s c) := by
  unfold ringFirmware
  repeat' (first
    | with_reducible assumption
    | with_reducible apply serveOutbound_keeps
    | with_reducible apply onCore_keeps)

theorem pushOut_keeps {r : State} {s : State} {c : Fin 8} {e : List W32} (h : Keeps r s) :
    Keeps r (pushOut s c e).1 := by
  unfold pushOut
  repeat' (first
    | with_reducible assumption
    | with_reducible apply onBank_keeps
    | split)

theorem releaseOne_keeps {r : State} {s : State} {c : Fin 8} {x2 : Deferred} (h : Keeps r s) :
    Keeps r (releaseOne s c x2).1 := by
  unfold releaseOne
  repeat' (first
    | with_reducible assumption
    | with_reducible apply pushOut_keeps
    | with_reducible apply serveOutbound_keeps
    | with_reducible apply ringFirmware_keeps
    | with_reducible apply deliver_keeps
    | (extract_lets -underBinder +onlyGivenNames v; clear_value v)
    | split)

theorem releaseAll_keeps {r : State} {s : State} {c : Fin 8} {x2 : Nat} (h : Keeps r s) :
    Keeps r (releaseAll s c x2) := by
  induction x2 generalizing s with
  | zero => exact h
  | succ n ih =>
    rw [releaseAll]
    split
    · exact onCore_keeps h
    · split
      · rename_i q; exact ih (onCore_keeps (Keeps.ofPair q (releaseOne_keeps h)))
      · rename_i q; exact onCore_keeps (Keeps.ofPair q (releaseOne_keeps h))

theorem release_keeps {r : State} {s : State} {c : Fin 8} (h : Keeps r s) :
    Keeps r (release s c) := by
  unfold release
  repeat' (first
    | with_reducible assumption
    | with_reducible apply releaseAll_keeps)

theorem act_keeps {r : State} {s : State} {c : Fin 8} {a : Deferred} (h : Keeps r s) :
    Keeps r (act s c a) := by
  unfold act
  repeat' (first
    | with_reducible assumption
    | with_reducible apply release_keeps
    | with_reducible apply onCore_keeps
    | with_reducible apply closeTile_keeps
    | split)

theorem abortProgram_keeps {r : State} {s : State} {c : Fin 8} (h : Keeps r s) :
    Keeps r (abortProgram s c) := by
  unfold abortProgram
  repeat' (first
    | with_reducible assumption
    | with_reducible apply endProgram_keeps)

theorem tileEnds_keeps {r : State} {s : State} {c : Fin 8} {w : OpenTile} (h : Keeps r s) :
    Keeps r (tileEnds s c w) := by
  unfold tileEnds
  repeat' (first
    | with_reducible assumption
    | with_reducible rfl
    | with_reducible apply Keeps.foldl
    | with_reducible apply clearAcc_keeps
    | with_reducible apply setDir_keeps
    | with_reducible apply bump_keeps
    | with_reducible apply endTd_keeps
    | with_reducible apply onCore_keeps
    | (intro _ _ _)
    | split
    | with_reducible refine Keeps.mk_ ?_ ?_ ?_ ?_)

theorem afterTile_keeps {r : State} {s : State} {c : Fin 8} (h : Keeps r s) :
    Keeps r (afterTile s c) := by
  unfold afterTile
  repeat' (first
    | with_reducible assumption
    | with_reducible apply release_keeps
    | with_reducible apply abortProgram_keeps
    | with_reducible apply onCore_keeps
    | split)

theorem completeTile_keeps {r : State} {s : State} {c : Fin 8} (h : Keeps r s) :
    Keeps r (completeTile s c) := by
  unfold completeTile
  repeat' (first
    | with_reducible assumption
    | with_reducible apply afterTile_keeps
    | with_reducible apply tileEnds_keeps
    | split)

theorem tmWrite_keeps {r : State} {s : State} {c : Fin 8} {i : Fin 32} {v : Nat} (h : Keeps r s) :
    Keeps r (tmWrite s c i v) := by
  unfold tmWrite
  repeat' (first
    | with_reducible assumption
    | with_reducible apply onTm_keeps
    | with_reducible apply onCore_keeps
    | with_reducible apply coreEvent_keeps
    | (extract_lets -underBinder +onlyGivenNames v; refine Keeps.use (P := Keeps r v) ?_ ?_; any_goals (first | (intro hv; clear_value v) | (clear_value (e : v = _); subst e)))
    | (extract_lets -underBinder +onlyGivenNames v; clear_value v)
    | split)

theorem copyTile_keeps {r : State} {s : State} {c : Fin 8} {src : Nat} {dst : Nat} (h : Keeps r s) :
    Keeps r (copyTile s c src dst).1 := by
  unfold copyTile
  repeat' (first
    | with_reducible assumption
    | with_reducible apply readMem_keeps
    | with_reducible apply poolForWrite_keeps
    | with_reducible apply copyRaw_keeps
    | with_reducible apply chargeOn_keeps
    | (extract_lets -underBinder +onlyGivenNames v; refine Keeps.use (P := Keeps r v) ?_ ?_; any_goals (first | (intro hv; clear_value v) | (clear_value (e : v = _); subst e)))
    | (extract_lets -underBinder +onlyGivenNames v; clear_value v)
    | split
    | with_reducible refine Keeps.ofPair (by assumption) ?_)

theorem landTile_keeps {r : State} {s : State} {c : Fin 8} {src : Nat} {dst : Nat} (h : Keeps r s) :
    Keeps r (landTile s c src dst) := by
  unfold landTile
  repeat' (first
    | with_reducible assumption
    | with_reducible rfl
    | with_reducible apply onEngine_keeps
    | with_reducible apply setDir_keeps
    | with_reducible apply onDir_keeps
    | with_reducible apply useTile_keeps
    | split
    | with_reducible refine Keeps.mk_ ?_ ?_ ?_ ?_)

theorem copyStep_keeps {r : State} {p : State × Bool} {k : State → State × Bool} (h : Keeps r p.1) (hk : ∀ s, Keeps r s → Keeps r (k s).1) :
    Keeps r (copyStep p k).1 := by
  unfold copyStep
  split
  · exact hk _ h
  · exact h

theorem copyTiles_keeps {r : State} {s : State} {c : Fin 8} {src : Nat} {dst : Nat} {x4 : Nat} (h : Keeps r s) :
    Keeps r (copyTiles s c src dst x4).1 := by
  induction x4 generalizing s src dst with
  | zero => exact h
  | succ n ih => exact copyStep_keeps (copyTile_keeps h) fun s hs => ih (landTile_keeps hs)

theorem clearMarks_keeps {r : State} {s : State} {c : Fin 8} {d : TmDesc} (h : Keeps r s) :
    Keeps r (clearMarks s c d) := by
  unfold clearMarks
  repeat' (first
    | with_reducible assumption
    | with_reducible apply Keeps.foldl
    | with_reducible apply onEngine_keeps
    | (intro _ _ _)
    | split)

theorem copyFailed_keeps {r : State} {s : State} {c : Fin 8} {d : TmDesc} (h : Keeps r s) :
    Keeps r (copyFailed s c d) := by
  unfold copyFailed
  repeat' (first
    | with_reducible assumption
    | with_reducible apply Keeps.foldl
    | with_reducible apply clearMarks_keeps
    | with_reducible apply setDir_keeps
    | (intro _ _ _)
    | split)

theorem copied_keeps {r : State} {s : State} {c : Fin 8} {d : TmDesc} (h : Keeps r s) :
    Keeps r (copied s c d).1 := by
  unfold copied
  repeat' (first
    | with_reducible assumption
    | with_reducible apply copyTiles_keeps
    | with_reducible apply clearMarks_keeps)

theorem endTmSlot_keeps {r : State} {s : State} {c : Fin 8} {i : Fin 32} {ok : Bool} (h : Keeps r s) :
    Keeps r (endTmSlot s c i ok) := by
  unfold endTmSlot
  repeat' (first
    | with_reducible assumption
    | with_reducible apply coreEvent_keeps
    | with_reducible apply onCore_keeps
    | with_reducible apply onTm_keeps)

theorem runCopy_keeps {r : State} {s : State} {c : Fin 8} {i : Fin 32} (h : Keeps r s) :
    Keeps r (runCopy s c i) := by
  unfold runCopy
  repeat' (first
    | with_reducible assumption
    | with_reducible apply copied_keeps
    | with_reducible apply endTmSlot_keeps
    | with_reducible apply copyFailed_keeps
    | (extract_lets -underBinder +onlyGivenNames v; clear_value v)
    | split
    | with_reducible refine Keeps.ofPair (by assumption) ?_)

theorem tileStore_keeps {r : State} {s : State} {c : Fin 8} {p : Nat} {b0 : Bytes} (h : Keeps r s) :
    Keeps r (tileStore s c p b0).1 := by
  unfold tileStore
  repeat' (first
    | with_reducible assumption
    | with_reducible apply writeMem_keeps
    | with_reducible apply storedTile_keeps
    | (extract_lets -underBinder +onlyGivenNames v; refine Keeps.use (P := Keeps r v) ?_ ?_; any_goals (first | (intro hv; clear_value v) | (clear_value (e : v = _); subst e)))
    | (extract_lets -underBinder +onlyGivenNames v; clear_value v)
    | split
    | with_reducible refine Keeps.ofPair (by assumption) ?_)

theorem cpStore_keeps {r : State} {s : State} {c : Fin 8} {a : Nat} {b0 : Bytes} (h : Keeps r s) :
    Keeps r (cpStore s c a b0) := by
  unfold cpStore
  repeat' (first
    | with_reducible assumption
    | with_reducible apply accessFault_keeps
    | with_reducible apply poolForWrite_keeps
    | with_reducible apply setStale_keeps
    | with_reducible apply chargeOn_keeps
    | with_reducible apply writeMem_keeps
    | with_reducible apply tileStore_keeps
    | split
    | with_reducible refine Keeps.ofPair (by assumption) ?_)

theorem cpLoads_keeps {r : State} {s : State} {c : Fin 8} {a : Nat} (h : Keeps r s) :
    Keeps r (cpLoads s c a).1 := by
  unfold cpLoads
  repeat' (first
    | with_reducible assumption
    | with_reducible apply readMem_keeps
    | split
    | with_reducible refine Keeps.ofPair (by assumption) ?_)

theorem vecLoad_keeps {r : State} {s : State} {c : Fin 8} {a : Nat} (h : Keeps r s) :
    Keeps r (vecLoad s c a) := by
  unfold vecLoad
  repeat' (first
    | with_reducible assumption
    | with_reducible apply accessFault_keeps
    | with_reducible apply readMem_keeps
    | with_reducible apply abandonTile_keeps
    | split
    | with_reducible refine Keeps.ofPair (by assumption) ?_)

theorem budgetEnd_keeps {r : State} {s : State} {c : Fin 8} (h : Keeps r s) :
    Keeps r (budgetEnd s c) := by
  unfold budgetEnd
  repeat' (first
    | with_reducible assumption
    | with_reducible apply Keeps.foldl
    | with_reducible apply drainSlot_keeps
    | with_reducible apply endProgram_keeps
    | (intro _ _ _))

theorem vecCharged_keeps {r : State} {s : State} {c : Fin 8} {n : Nat} (h : Keeps r s) :
    Keeps r (vecCharged s c n) := by
  unfold vecCharged
  repeat' (first
    | with_reducible assumption
    | with_reducible apply onCore_keeps
    | with_reducible apply chargeOn_keeps)

theorem vecIssue_keeps {r : State} {s : State} {c : Fin 8} {n : Nat} {body : State → State} (h : Keeps r s) (hb : ∀ s, Keeps r s → Keeps r (body s)) :
    Keeps r (vecIssue s c n body) := by
  unfold vecIssue
  repeat' (first
    | with_reducible assumption
    | with_reducible apply vecCharged_keeps
    | with_reducible apply budgetEnd_keeps
    | with_reducible apply hb
    | split)

theorem graftChange_keeps {r : State} {s : State} {c : Fin 8} {e : Fin 4} {f : Graft → Graft} (h : Keeps r s) :
    Keeps r (graftChange s c e f) := by
  unfold graftChange
  repeat' (first
    | with_reducible assumption
    | with_reducible apply onHealth_keeps
    | with_reducible apply onEngine_keeps
    | with_reducible apply onCore_keeps
    | (intro _; with_reducible rfl))

theorem coverEngine_keeps {r : State} {s : State} {c : Fin 8} {e : Fin 4} {rows : BitVec 132} {cols : BitVec 520} (h : Keeps r s) :
    Keeps r (coverEngine s c e rows cols) := by
  unfold coverEngine
  repeat' (first
    | with_reducible assumption
    | with_reducible apply graftChange_keeps
    | with_reducible apply logEvent_keeps)

theorem retireCore_keeps {r : State} {s : State} {c : Fin 8} (h : Keeps r s) :
    Keeps r (retireCore s c) := by
  unfold retireCore
  repeat' (first
    | with_reducible assumption
    | with_reducible apply logEvent_keeps
    | with_reducible apply onCore_keeps
    | split)

theorem retireEngine_keeps {r : State} {s : State} {c : Fin 8} {e : Fin 4} (h : Keeps r s) :
    Keeps r (retireEngine s c e) := by
  unfold retireEngine
  repeat' (first
    | with_reducible assumption
    | with_reducible apply graftChange_keeps
    | with_reducible apply logEvent_keeps
    | with_reducible apply retireCore_keeps
    | (extract_lets -underBinder +onlyGivenNames v; refine Keeps.use (P := Keeps r v) ?_ ?_; any_goals (first | (intro hv; clear_value v) | (clear_value (e : v = _); subst e)))
    | split)

theorem testedEngine_keeps {r : State} {s : State} {c : Fin 8} {e : Fin 4} {t : EngineTest} (h : Keeps r s) :
    Keeps r (testedEngine s c e t) := by
  unfold testedEngine
  repeat' (first
    | with_reducible assumption
    | with_reducible apply coverEngine_keeps
    | with_reducible apply retireEngine_keeps
    | split)

theorem retireSlots_keeps {r : State} {s : State} {ch : Fin 48} {n : Nat} (h : Keeps r s) :
    Keeps r (retireSlots s ch n) := by
  unfold retireSlots
  repeat' (first
    | with_reducible assumption
    | with_reducible apply onCluster_keeps
    | with_reducible apply onHealth_keeps
    | with_reducible apply logEvent_keeps
    | (intro _; with_reducible rfl)
    | (extract_lets -underBinder +onlyGivenNames v; refine Keeps.use (P := Keeps r v) ?_ ?_; any_goals (first | (intro hv; clear_value v) | (clear_value (e : v = _); subst e)))
    | split)

end Sys2Proof.Machine
end

