-- ==== Sys2Proof/Laws/KeepsWork.lean ====
section
/-! SUPPORT. What no operation breaks (`Keeps`): tables, programs, accounts and the end of commands. -/

namespace Sys2Proof.Machine

theorem onTable_keeps {r : State} {s : State} {i : Nat} {f : Table → Table} (h : Keeps r s) :
    Keeps r (onTable s i f) := by
  exact Keeps.mk_ h rfl rfl rfl

theorem putMapWord_keeps {r : State} {i : Nat} {t : Table} {v : Nat} {s : State} {w : Nat} (h : Keeps r s) :
    Keeps r (putMapWord i t v s w) := by
  unfold putMapWord
  repeat' (first
    | with_reducible assumption
    | with_reducible apply writeWord_keeps)

theorem loadRows_keeps {r : State} {s : State} {i : Nat} {t : Table} {v : Nat} {rs : List Nat} (h : Keeps r s) :
    Keeps r (loadRows s i t v rs) := by
  unfold loadRows
  repeat' (first
    | with_reducible assumption
    | with_reducible apply Keeps.foldl
    | with_reducible apply putMapWord_keeps)

theorem loadTable_keeps {r : State} {s : State} {i : Nat} (h : Keeps r s) :
    Keeps r (loadTable s i) := by
  unfold loadTable
  repeat' (first
    | with_reducible assumption
    | with_reducible apply Keeps.foldl
    | with_reducible apply loadRows_keeps
    | (intro _ _ _)
    | split)

theorem readRowWord_keeps {r : State} {i : Nat} {t : Table} {g : Nat} {r0 : Nat} {a : State × Bool} {w : Nat} (h : Keeps r a.1) :
    Keeps r (readRowWord i t g r0 a w).1 := by
  unfold readRowWord
  repeat' (first
    | with_reducible assumption
    | with_reducible apply readWord_keeps
    | with_reducible apply putMapWord_keeps
    | with_reducible apply chargeFlash_keeps
    | (extract_lets -underBinder +onlyGivenNames v; clear_value v)
    | split
    | with_reducible refine Keeps.ofPair (by assumption) ?_)

theorem readRows_keeps {r : State} {i : Nat} {t : Table} {g : Nat} {s : State} {rs : List Nat} (h : Keeps r s) :
    Keeps r (readRows i t g s rs).1 := by
  unfold readRows
  repeat' (first
    | with_reducible assumption
    | with_reducible apply Keeps.foldl_fst
    | with_reducible apply readRowWord_keeps
    | with_reducible apply charge_keeps
    | (intro _ _ _))

theorem publishRows_keeps {r : State} {s : State} {i : Nat} {rows : Tab Bytes} (h : Keeps r s) :
    Keeps r (publishRows s i rows).1 := by
  unfold publishRows
  repeat' (first
    | with_reducible assumption
    | with_reducible apply Keeps.foldl_fst
    | with_reducible apply loadRows_keeps
    | with_reducible apply onTable_keeps
    | with_reducible apply charge_keeps
    | with_reducible apply putSlots_keeps
    | (intro _ _ _)
    | split)

theorem tableCreateBody_keeps {r : State} {e : Sqe} {s : State} (h : Keeps r s) :
    Keeps r (tableCreateBody e s) := by
  unfold tableCreateBody
  repeat' (first
    | with_reducible assumption
    | with_reducible rfl
    | with_reducible apply fail_keeps
    | with_reducible apply deallocate_keeps
    | with_reducible apply setRole_keeps
    | with_reducible apply complete_keeps
    | with_reducible apply loadTable_keeps
    | split
    | with_reducible refine Keeps.mk_ ?_ ?_ ?_ ?_)

theorem writeRowsBody_keeps {r : State} {e : Sqe} {s : State} (h : Keeps r s) :
    Keeps r (writeRowsBody e s) := by
  unfold writeRowsBody
  repeat' (first
    | with_reducible assumption
    | with_reducible apply Keeps.foldl
    | with_reducible apply fail_keeps
    | with_reducible apply countQuant_keeps
    | with_reducible apply onTable_keeps
    | with_reducible apply complete_keeps
    | (intro _ _ _)
    | (extract_lets -underBinder +onlyGivenNames v; refine Keeps.use (P := Keeps r v) ?_ ?_; any_goals (first | (intro hv; clear_value v) | (clear_value (e : v = _); subst e)))
    | (extract_lets -underBinder +onlyGivenNames v; clear_value v)
    | split)

theorem abortStepBody_keeps {r : State} {e : Sqe} {s : State} (h : Keeps r s) :
    Keeps r (abortStepBody e s) := by
  unfold abortStepBody
  repeat' (first
    | with_reducible assumption
    | with_reducible apply Keeps.foldl
    | with_reducible apply fail_keeps
    | with_reducible apply onTable_keeps
    | with_reducible apply logCommand_keeps
    | with_reducible apply complete_keeps
    | (intro _ _ _)
    | (extract_lets -underBinder +onlyGivenNames v; refine Keeps.use (P := Keeps r v) ?_ ?_; any_goals (first | (intro hv; clear_value v) | (clear_value (e : v = _); subst e)))
    | (extract_lets -underBinder +onlyGivenNames v; clear_value v)
    | split)

theorem countLookups_keeps {r : State} {s : State} {i : Nat} {idx : List Nat} (h : Keeps r s) :
    Keeps r (countLookups s i idx) := by
  exact Keeps.mk_ h rfl rfl rfl

theorem gatherFault_keeps {r : State} {s : State} {e : Sqe} {t : Table} {g : Nat} (h : Keeps r s) :
    Keeps r (gatherFault s e t g) := by
  unfold gatherFault
  repeat' (first
    | with_reducible assumption
    | with_reducible apply logEvent_keeps
    | with_reducible apply fail_keeps
    | with_reducible apply logCommand_keeps)

theorem gatherBody_keeps {r : State} {e : Sqe} {s : State} (h : Keeps r s) :
    Keeps r (gatherBody e s) := by
  unfold gatherBody
  repeat' (first
    | with_reducible assumption
    | with_reducible apply failDw0_keeps
    | with_reducible apply readRows_keeps
    | with_reducible apply gatherFault_keeps
    | with_reducible apply bump_keeps
    | with_reducible apply countLookups_keeps
    | with_reducible apply writeOutput_keeps
    | with_reducible apply logCommand_keeps
    | with_reducible apply complete_keeps
    | (extract_lets -underBinder +onlyGivenNames v; clear_value v)
    | split
    | with_reducible refine Keeps.ofPair (by assumption) ?_)

theorem joinStep_keeps {r : State} {s : State} {i : Nat} {x : StepSrc} (h : Keeps r s) :
    Keeps r (joinStep s i x) := by
  exact Keeps.mk_ h rfl rfl rfl

theorem joinWaiting_keeps {r : State} {s : State} {i : Nat} (h : Keeps r s) :
    Keeps r (joinWaiting s i) := by
  unfold joinWaiting
  repeat' (first
    | with_reducible assumption
    | with_reducible apply Keeps.foldl
    | with_reducible apply onTable_keeps
    | with_reducible apply joinStep_keeps
    | with_reducible apply fail_keeps
    | with_reducible apply logCommand_keeps
    | (intro _ _ _)
    | split)

theorem closeStep_keeps {r : State} {s : State} {i : Nat} (h : Keeps r s) :
    Keeps r (closeStep s i) := by
  unfold closeStep
  repeat' (first
    | with_reducible assumption
    | with_reducible apply Keeps.foldl
    | with_reducible apply countQuant_keeps
    | with_reducible apply bump_keeps
    | with_reducible apply publishRows_keeps
    | with_reducible apply onTable_keeps
    | with_reducible apply finishData_keeps
    | with_reducible apply logCommand_keeps
    | with_reducible apply joinWaiting_keeps
    | (intro _ _ _)
    | (extract_lets -underBinder +onlyGivenNames v; refine Keeps.use (P := Keeps r v) ?_ ?_; any_goals (first | (intro hv; clear_value v) | (clear_value (e : v = _); subst e)))
    | (extract_lets -underBinder +onlyGivenNames v; clear_value v)
    | split)

theorem closeSteps_keeps {r : State} {s : State} {i : Nat} (h : Keeps r s) :
    Keeps r (closeSteps s i) := by
  unfold closeSteps
  repeat' (first
    | with_reducible assumption
    | with_reducible apply closeStep_keeps)

theorem scatterBody_keeps {r : State} {e : Sqe} {s : State} (h : Keeps r s) :
    Keeps r (scatterBody e s) := by
  unfold scatterBody
  repeat' (first
    | with_reducible assumption
    | with_reducible apply fail_keeps
    | with_reducible apply onTable_keeps
    | with_reducible apply logCommand_keeps
    | with_reducible apply closeSteps_keeps
    | with_reducible apply joinStep_keeps
    | (extract_lets -underBinder +onlyGivenNames v; clear_value v)
    | split)

theorem abortPaused_keeps {r : State} {s : State} {c : Fin 8} (h : Keeps r s) :
    Keeps r (abortPaused s c) := by
  unfold abortPaused
  repeat' (first
    | with_reducible assumption
    | with_reducible apply abortProgram_keeps
    | with_reducible apply onCore_keeps)

theorem stopRunning_keeps {r : State} {s : State} {c : Fin 8} (h : Keeps r s) :
    Keeps r (stopRunning s c) := by
  unfold stopRunning
  repeat' (first
    | with_reducible assumption
    | with_reducible apply onCore_keeps
    | with_reducible apply abortProgram_keeps
    | split)

theorem endSaved_keeps {r : State} {s : State} {i : Nat} {k : CmdKey} (h : Keeps r s) :
    Keeps r (endSaved s i k) := by
  unfold endSaved
  repeat' (first
    | with_reducible assumption
    | with_reducible apply endCommand_keeps
    | with_reducible apply onSess_keeps
    | split)

theorem stopPrograms_keeps {r : State} {s : State} {k : CmdKey} (h : Keeps r s) :
    Keeps r (stopPrograms s k) := by
  unfold stopPrograms
  repeat' (first
    | with_reducible assumption
    | with_reducible apply Keeps.foldl
    | with_reducible apply stopRunning_keeps
    | with_reducible apply abortPaused_keeps
    | with_reducible apply endSaved_keeps
    | (intro _ _ _)
    | split)

theorem forgetHandle_keeps {r : State} {s : State} {k : CmdKey} (h : Keeps r s) :
    Keeps r (forgetHandle s k) := by
  exact Keeps.mk_ h rfl rfl rfl

theorem dropWork_keeps {r : State} {s : State} {k : CmdKey} (h : Keeps r s) :
    Keeps r (dropWork s k) := by
  unfold dropWork
  repeat' (first
    | with_reducible assumption
    | with_reducible rfl
    | with_reducible apply Keeps.foldl
    | with_reducible apply cancelJob_keeps
    | with_reducible apply dropSession_keeps
    | with_reducible apply endMove_keeps
    | with_reducible apply forgetHandle_keeps
    | with_reducible apply stopPrograms_keeps
    | with_reducible apply freeLayers_keeps
    | with_reducible apply afterQuery_keeps
    | split
    | with_reducible refine Keeps.mk_ ?_ ?_ ?_ ?_)

theorem cancelWith_keeps {r : State} {s : State} {k : CmdKey} {c : Code} (h : Keeps r s) :
    Keeps r (cancelWith s k c) := by
  unfold cancelWith
  repeat' (first
    | with_reducible assumption
    | with_reducible apply dropWork_keeps
    | with_reducible apply fail_keeps)

theorem contextFault_keeps {r : State} {s : State} {ch : Fin 48} {x : Ctx} {k : CmdKey} (h : Keeps r s) :
    Keeps r (contextFault s ch x k) := by
  unfold contextFault
  repeat' (first
    | with_reducible assumption
    | with_reducible apply afterQuery_keeps
    | with_reducible apply replyMerged_keeps
    | with_reducible apply failQuery_keeps
    | with_reducible apply dropWork_keeps
    | with_reducible apply fail_keeps
    | with_reducible apply cancelWith_keeps
    | with_reducible apply logEvent_keeps
    | (extract_lets -underBinder +onlyGivenNames v; clear_value v)
    | split)

theorem endBinding_keeps {r : State} {s : State} {i : Nat} (h : Keeps r s) :
    Keeps r (endBinding s i) := by
  unfold endBinding
  repeat' (first
    | with_reducible assumption
    | with_reducible apply Keeps.foldl
    | with_reducible apply endProgram_keeps
    | with_reducible apply abortPaused_keeps
    | (intro _ _ _)
    | split)

theorem putSections_keeps {r : State} {s : State} {xs : List (Nat × Bytes)} {tag : Nat} (h : Keeps r s) :
    Keeps r (putSections s xs tag) := by
  unfold putSections
  repeat' (first
    | with_reducible assumption
    | with_reducible apply Keeps.foldl
    | with_reducible apply fwWrite_keeps
    | (intro _ _ _))

theorem placeKernels_keeps {r : State} {s : State} {acct : Nat} {b0 : Bytes} (h : Keeps r s) :
    Keeps r (placeKernels s acct b0).1 := by
  unfold placeKernels
  repeat' (first
    | with_reducible assumption
    | with_reducible rfl
    | with_reducible apply Keeps.foldl_fst
    | with_reducible apply putSections_keeps
    | (intro _ _ _)
    | (extract_lets -underBinder +onlyGivenNames v; refine Keeps.use (P := Keeps r v) ?_ ?_; any_goals (first | (intro hv; clear_value v) | (clear_value (e : v = _); subst e)))
    | (extract_lets -underBinder +onlyGivenNames v; clear_value v)
    | split
    | with_reducible refine Keeps.mk_ ?_ ?_ ?_ ?_)

theorem loadImage_keeps {r : State} {s : State} {fn : Fin 128} {i : Nat} {b0 : Bytes} (h : Keeps r s) :
    Keeps r (loadImage s fn i b0) := by
  unfold loadImage
  repeat' (first
    | with_reducible assumption
    | with_reducible rfl
    | with_reducible apply Keeps.foldl
    | with_reducible apply putSections_keeps
    | with_reducible apply setStale_keeps
    | with_reducible apply placeKernels_keeps
    | with_reducible apply onCtrl_keeps
    | split
    | with_reducible refine Keeps.mk_ ?_ ?_ ?_ ?_)

theorem unloadImage_keeps {r : State} {s : State} {fn : Fin 128} {i : Nat} (h : Keeps r s) :
    Keeps r (unloadImage s fn i) := by
  unfold unloadImage
  repeat' (first
    | with_reducible assumption
    | with_reducible rfl
    | with_reducible apply onCtrl_keeps
    | split
    | with_reducible refine Keeps.mk_ ?_ ?_ ?_ ?_)

theorem placeProgram_keeps {r : State} {s : State} {c : Fin 8} {acct : Nat} {o : Option Nat} {first : Nat} {c0 : Bool} {b0 : Bytes} (h : Keeps r s) :
    Keeps r (placeProgram s c acct o first c0 b0) := by
  unfold placeProgram
  repeat' (first
    | with_reducible assumption
    | with_reducible apply Keeps.foldl
    | with_reducible apply fixPart_keeps
    | with_reducible apply evictAll_keeps
    | with_reducible apply grantTile_keeps
    | with_reducible apply putSections_keeps
    | with_reducible apply setStale_keeps
    | with_reducible apply setDir_keeps
    | (intro _ _ _))

theorem startProgram_keeps {r : State} {s : State} {c : Fin 8} {b0 : Bool} {im : Image} {p : Prog} {start : List W32} (h : Keeps r s) :
    Keeps r (startProgram s c b0 im p start) := by
  unfold startProgram
  repeat' (first
    | with_reducible assumption
    | with_reducible apply placeProgram_keeps
    | with_reducible apply onBankOf_keeps
    | with_reducible apply postBox_keeps
    | with_reducible apply onCore_keeps
    | with_reducible apply coreEvent_keeps
    | with_reducible apply syncMbox_keeps
    | (extract_lets -underBinder +onlyGivenNames v; refine Keeps.use (P := Keeps r v) ?_ ?_; any_goals (first | (intro hv; clear_value v) | (clear_value (e : v = _); subst e)))
    | (extract_lets -underBinder +onlyGivenNames v; clear_value v)
    | split)

theorem readyCore_keeps {r : State} {s : State} {i : Option Nat} {core : Fin 8} {b0 : Bool} {acct : Nat} {im : Image} (h : Keeps r s) :
    Keeps r (readyCore s i core b0 acct im).1 := by
  unfold readyCore
  repeat' (first
    | with_reducible assumption
    | with_reducible apply makeHot_keeps
    | with_reducible apply loadContext_keeps
    | (extract_lets -underBinder +onlyGivenNames v; refine Keeps.use (P := Keeps r v) ?_ ?_; any_goals (first | (intro hv; clear_value v) | (clear_value (e : v = _); subst e)))
    | split)

theorem holdExec_keeps {r : State} {s : State} {e : Sqe} {opc : Nat} {waited : Bool} (h : Keeps r s) :
    Keeps r (holdExec s e opc waited) := by
  unfold holdExec
  repeat' (first
    | with_reducible assumption
    | with_reducible rfl
    | split
    | with_reducible refine Keeps.mk_ ?_ ?_ ?_ ?_)

theorem dispatchRecord_keeps {r : State} {s0 : State} {s : State} {k : CmdKey} {i : Option Nat} {b0 : Bool} {c : Fin 8} {im : Image} {waited : Bool} (h : Keeps r s) :
    Keeps r (dispatchRecord s0 s k i b0 c im waited).1 := by
  unfold dispatchRecord
  repeat' (first
    | with_reducible assumption
    | with_reducible apply c0Record_keeps
    | split)

theorem execBody_keeps {r : State} {e : Sqe} {core : Fin 8} {waited : Bool} {s : State} (h : Keeps r s) :
    Keeps r (execBody e core waited s) := by
  unfold execBody
  repeat' (first
    | with_reducible assumption
    | with_reducible apply fail_keeps
    | with_reducible apply readyCore_keeps
    | with_reducible apply holdExec_keeps
    | with_reducible apply dispatchRecord_keeps
    | with_reducible apply joinSession_keeps
    | with_reducible apply poolPut_keeps
    | with_reducible apply startProgram_keeps
    | (extract_lets -underBinder +onlyGivenNames v; clear_value v)
    | split
    | with_reducible refine Keeps.ofPair (by assumption) ?_)

theorem hostWrote_keeps {r : State} {s : State} {fn : Fin 128} {a : Nat} {n : Nat} (h : Keeps r s) :
    Keeps r (hostWrote s fn a n) := by
  unfold hostWrote
  repeat' (first
    | with_reducible assumption
    | with_reducible rfl
    | with_reducible apply Keeps.foldl
    | (intro _ _ _)
    | with_reducible refine Keeps.mk_ ?_ ?_ ?_ ?_)

theorem replayCompare_keeps {r : State} {s : State} {e : Sqe} {f : FlightEntry} {rc : Bytes} {data : Bytes} (h : Keeps r s) :
    Keeps r (replayCompare s e f rc data) := by
  unfold replayCompare
  repeat' (first
    | with_reducible assumption
    | with_reducible apply endReplay_keeps)

theorem replayAttend_keeps {r : State} {s : State} {e : Sqe} {x : Sess} {f : FlightEntry} (h : Keeps r s) :
    Keeps r (replayAttend s e x f) := by
  unfold replayAttend
  repeat' (first
    | with_reducible assumption
    | with_reducible apply fail_keeps
    | with_reducible apply charge_keeps
    | with_reducible apply replayCompare_keeps
    | (extract_lets -underBinder +onlyGivenNames v; clear_value v)
    | split)

theorem replayPinned_keeps {r : State} {s : State} {e : Sqe} {f : FlightEntry} (h : Keeps r s) :
    Keeps r (replayPinned s e f) := by
  unfold replayPinned
  repeat' (first
    | with_reducible assumption
    | with_reducible apply fail_keeps
    | with_reducible apply readRun_keeps
    | with_reducible apply bump_keeps
    | with_reducible apply chargeReads_keeps
    | with_reducible apply replayCompare_keeps
    | (extract_lets -underBinder +onlyGivenNames v; clear_value v)
    | split
    | with_reducible refine Keeps.ofPair (by assumption) ?_)

theorem replayScan_keeps {r : State} {s : State} {e : Sqe} {f : FlightEntry} (h : Keeps r s) :
    Keeps r (replayScan s e f) := by
  unfold replayScan
  repeat' (first
    | with_reducible assumption
    | with_reducible apply fail_keeps
    | with_reducible apply charge_keeps
    | with_reducible apply replayCompare_keeps
    | (extract_lets -underBinder +onlyGivenNames v; clear_value v)
    | split)

theorem replayGather_keeps {r : State} {s : State} {e : Sqe} {f : FlightEntry} (h : Keeps r s) :
    Keeps r (replayGather s e f) := by
  unfold replayGather
  repeat' (first
    | with_reducible assumption
    | with_reducible apply readRows_keeps
    | with_reducible apply gatherFault_keeps
    | with_reducible apply replayCompare_keeps
    | (extract_lets -underBinder +onlyGivenNames v; clear_value v)
    | split
    | with_reducible refine Keeps.ofPair (by assumption) ?_)

theorem placeSnap_keeps {r : State} {c : Fin 8} {tag : Nat} {snap : Bytes} {a : State} {i : Nat} (h : Keeps r a) :
    Keeps r (placeSnap c tag snap a i) := by
  unfold placeSnap
  repeat' (first
    | with_reducible assumption
    | with_reducible apply writeMem_keeps)

theorem placeTile_keeps {r : State} {c : Fin 8} {a : State} {t : Nat} (h : Keeps r a) :
    Keeps r (placeTile c a t) := by
  unfold placeTile
  repeat' (first
    | with_reducible assumption
    | with_reducible apply copyRaw_keeps)

theorem replayExecute_keeps {r : State} {s : State} {e : Sqe} {x : Sess} {f : FlightEntry} {im : Image} {waited : Bool} (h : Keeps r s) :
    Keeps r (replayExecute s e x f im waited) := by
  unfold replayExecute
  repeat' (first
    | with_reducible assumption
    | with_reducible apply Keeps.foldl
    | with_reducible apply readyCore_keeps
    | with_reducible apply holdExec_keeps
    | with_reducible apply dispatchRecord_keeps
    | with_reducible apply placeSnap_keeps
    | with_reducible apply placeTile_keeps
    | with_reducible apply writeMem_keeps
    | with_reducible apply onBankOf_keeps
    | with_reducible apply startProgram_keeps
    | (extract_lets -underBinder +onlyGivenNames v; clear_value v)
    | split
    | with_reducible refine Keeps.ofPair (by assumption) ?_)

theorem replayBody_keeps {r : State} {e : Sqe} {waited : Bool} {s : State} (h : Keeps r s) :
    Keeps r (replayBody e waited s) := by
  unfold replayBody
  repeat' (first
    | with_reducible assumption
    | with_reducible apply failDw0_keeps
    | with_reducible apply holdJob_keeps
    | with_reducible apply nameSession_keeps
    | with_reducible apply replayAttend_keeps
    | with_reducible apply replayGather_keeps
    | with_reducible apply replayPinned_keeps
    | with_reducible apply replayScan_keeps
    | with_reducible apply replayExecute_keeps
    | (extract_lets -underBinder +onlyGivenNames v; refine Keeps.use (P := Keeps r v) ?_ ?_; any_goals (first | (intro hv; clear_value v) | (clear_value (e : v = _); subst e)))
    | split)

theorem endSilently_keeps {r : State} {s : State} {k : CmdKey} (h : Keeps r s) :
    Keeps r (endSilently s k) := by
  unfold endSilently
  repeat' (first
    | with_reducible assumption
    | with_reducible apply dropWork_keeps
    | with_reducible apply dropFlight_keeps)

theorem resetController_keeps {r : State} {s : State} {f : Fin 128} (h : Keeps r s) :
    Keeps r (resetController s f) := by
  unfold resetController
  repeat' (first
    | with_reducible assumption
    | with_reducible rfl
    | with_reducible apply Keeps.foldl
    | with_reducible apply endSilently_keeps
    | with_reducible apply onCtrl_keeps
    | with_reducible apply onFw_keeps
    | split
    | with_reducible refine Keeps.mk_ ?_ ?_ ?_ ?_)

theorem resetFunction_keeps {r : State} {s : State} {f : Fin 128} (h : Keeps r s) :
    Keeps r (resetFunction s f) := by
  unfold resetFunction
  repeat' (first
    | with_reducible assumption
    | with_reducible apply onCtrl_keeps
    | with_reducible apply resetController_keeps)

theorem endQueue_keeps {r : State} {s : State} {f : Fin 128} {sqid : Nat} (h : Keeps r s) :
    Keeps r (endQueue s f sqid) := by
  unfold endQueue
  repeat' (first
    | with_reducible assumption
    | with_reducible apply Keeps.foldl
    | with_reducible apply cancelWith_keeps
    | (intro _ _ _))

theorem judgeScrub_keeps {r : State} {s : State} (h : Keeps r s) :
    Keeps r (judgeScrub s) := by
  exact Keeps.mk_ h rfl rfl rfl

theorem reloadPool_keeps {r : State} {s : State} {a : Nat} (h : Keeps r s) :
    Keeps r (reloadPool s a) := by
  unfold reloadPool
  repeat' (first
    | with_reducible assumption
    | with_reducible apply Keeps.foldl
    | with_reducible apply loadTable_keeps
    | with_reducible apply loadCodes_keeps)

theorem bindAccount_keeps {r : State} {s : State} {a : Nat} (h : Keeps r s) :
    Keeps r (bindAccount s a) := by
  unfold bindAccount
  repeat' (first
    | with_reducible assumption
    | with_reducible apply onAcct_keeps
    | with_reducible apply reloadPool_keeps
    | with_reducible apply judgeScrub_keeps
    | split)

theorem quarantineTag_keeps {r : State} {s : State} {a : Nat} (h : Keeps r s) :
    Keeps r (quarantineTag s a) := by
  unfold quarantineTag
  repeat' (first
    | with_reducible assumption
    | with_reducible rfl
    | with_reducible apply judgeScrub_keeps
    | with_reducible apply onAcct_keeps
    | split
    | with_reducible refine Keeps.mk_ ?_ ?_ ?_ ?_)

theorem dropIngest_keeps {r : State} {s : State} {i : Nat} (h : Keeps r s) :
    Keeps r (dropIngest s i) := by
  unfold dropIngest
  repeat' (first
    | with_reducible assumption
    | with_reducible rfl
    | with_reducible apply endBinding_keeps
    | with_reducible refine Keeps.mk_ ?_ ?_ ?_ ?_)

theorem dropIndex_keeps {r : State} {s : State} {i : Nat} (h : Keeps r s) :
    Keeps r (dropIndex s i) := by
  unfold dropIndex
  repeat' (first
    | with_reducible assumption
    | with_reducible rfl
    | with_reducible apply dropIngest_keeps
    | with_reducible refine Keeps.mk_ ?_ ?_ ?_ ?_)

theorem dropNs_keeps {r : State} {s : State} {nsid : Nat} (h : Keeps r s) :
    Keeps r (dropNs s nsid) := by
  unfold dropNs
  repeat' (first
    | with_reducible assumption
    | with_reducible rfl
    | with_reducible apply Keeps.foldl
    | with_reducible apply dropSession_keeps
    | with_reducible apply dropIndex_keeps
    | with_reducible apply dropIngest_keeps
    | with_reducible apply wipeNs_keeps
    | with_reducible refine Keeps.mk_ ?_ ?_ ?_ ?_)

theorem dropAccountData_keeps {r : State} {s : State} {a : Nat} (h : Keeps r s) :
    Keeps r (dropAccountData s a) := by
  unfold dropAccountData
  repeat' (first
    | with_reducible assumption
    | with_reducible apply Keeps.foldl
    | with_reducible apply dropNs_keeps
    | with_reducible apply unloadImage_keeps
    | with_reducible apply onAcct_keeps
    | (intro _ _ _)
    | split)

theorem newTk_keeps {r : State} {s : State} {a : Nat} {mode1 : Bool} {secret : Bytes} (h : Keeps r s) :
    Keeps r (newTk s a mode1 secret) := by
  unfold newTk
  repeat' (first
    | with_reducible assumption
    | with_reducible rfl
    | with_reducible apply onAcct_keeps
    | split
    | with_reducible refine Keeps.mk_ ?_ ?_ ?_ ?_)

theorem respond_keeps {r : State} {s : State} {ep : Endpoint} {b0 : Bytes} (h : Keeps r s) :
    Keeps r (respond s ep b0) := by
  exact Keeps.mk_ h rfl rfl rfl

theorem tkReply_keeps {r : State} {s : State} {f : Fin 128} {kop : Nat} {result : Nat} {fields : Bytes} (h : Keeps r s) :
    Keeps r (tkReply s f kop result fields) := by
  exact Keeps.mk_ h rfl rfl rfl

theorem startLock_keeps {r : State} {s : State} {a : Nat} {claim : Option (Bool × Bytes)} (h : Keeps r s) :
    Keeps r (startLock s a claim) := by
  exact Keeps.mk_ h rfl rfl rfl

theorem returnSegment_keeps {r : State} {s : State} {g : Ingest} (h : Keeps r s) :
    Keeps r (returnSegment s g) := by
  unfold returnSegment
  repeat' (first
    | with_reducible assumption
    | with_reducible apply onIngest_keeps
    | with_reducible apply endBinding_keeps
    | split)

theorem finishLock_keeps {r : State} {s : State} {a : Nat} (h : Keeps r s) :
    Keeps r (finishLock s a) := by
  unfold finishLock
  repeat' (first
    | with_reducible assumption
    | with_reducible rfl
    | with_reducible apply Keeps.foldl
    | with_reducible apply returnSegment_keeps
    | with_reducible apply makeCold_keeps
    | with_reducible apply destage_keeps
    | with_reducible apply quarantineTag_keeps
    | with_reducible apply onAcct_keeps
    | with_reducible apply newTk_keeps
    | with_reducible apply dropAccountData_keeps
    | with_reducible apply bindAccount_keeps
    | with_reducible apply tkReply_keeps
    | (intro _ _ _)
    | split
    | with_reducible refine Keeps.mk_ ?_ ?_ ?_ ?_)

theorem finishLocks_keeps {r : State} {s : State} (h : Keeps r s) :
    Keeps r (finishLocks s) := by
  unfold finishLocks
  repeat' (first
    | with_reducible assumption
    | with_reducible apply Keeps.foldl
    | with_reducible apply finishLock_keeps)

theorem tdiError_keeps {r : State} {s : State} {f : Fin 128} (h : Keeps r s) :
    Keeps r (tdiError s f) := by
  unfold tdiError
  repeat' (first
    | with_reducible assumption
    | with_reducible apply startLock_keeps
    | with_reducible apply resetController_keeps
    | with_reducible apply onAcct_keeps
    | (extract_lets -underBinder +onlyGivenNames v)
    | split)

theorem enableFunction_keeps {r : State} {s : State} {f : Fin 128} {on : Bool} (h : Keeps r s) :
    Keeps r (enableFunction s f on) := by
  unfold enableFunction
  repeat' (first
    | with_reducible assumption
    | with_reducible apply bindAccount_keeps
    | with_reducible apply onCtrl_keeps
    | with_reducible apply startLock_keeps
    | with_reducible apply resetFunction_keeps
    | split)

end Sys2Proof.Machine
end

