-- ==== Sys2Proof/Laws/KeepsPilot.lean ====
section
/-! SUPPORT. What no operation breaks (`Keeps`): the code flash, firmware and what waits. -/

namespace Sys2Proof.Machine

theorem cfSelfOp_keeps {r : State} {s : State} (h : Keeps r s) :
    Keeps r (cfSelfOp s) := by
  unfold cfSelfOp
  repeat' (first
    | with_reducible assumption
    | with_reducible apply bump_keeps
    | with_reducible apply onCf_keeps)

theorem cfBreak_keeps {r : State} {s : State} (h : Keeps r s) :
    Keeps r (cfBreak s) := by
  exact Keeps.mk_ h rfl rfl rfl

theorem cfStartProgram_keeps {r : State} {s : State} {off : Nat} {data : W32} (h : Keeps r s) :
    Keeps r (cfStartProgram s off data) := by
  unfold cfStartProgram
  repeat' (first
    | with_reducible assumption
    | with_reducible apply onCf_keeps
    | with_reducible apply cfBreak_keeps
    | (extract_lets -underBinder +onlyGivenNames v; refine Keeps.use (P := Keeps r v) ?_ ?_; any_goals (first | (intro hv; clear_value v) | (clear_value (e : v = _); subst e)))
    | split)

theorem cfStartErase_keeps {r : State} {s : State} {block : Bool} {off : Nat} (h : Keeps r s) :
    Keeps r (cfStartErase s block off) := by
  unfold cfStartErase
  repeat' (first
    | with_reducible assumption
    | with_reducible apply onCf_keeps
    | with_reducible apply cfBreak_keeps
    | (extract_lets -underBinder +onlyGivenNames v; refine Keeps.use (P := Keeps r v) ?_ ?_; any_goals (first | (intro hv; clear_value v) | (clear_value (e : v = _); subst e)))
    | (extract_lets -underBinder +onlyGivenNames v; clear_value v)
    | split)

theorem cfServe_keeps {r : State} {s : State} {off : Nat} {fetch : Bool} (h : Keeps r s) :
    Keeps r (cfServe s off fetch) := by
  unfold cfServe
  repeat' (first
    | with_reducible assumption
    | with_reducible apply onCf_keeps
    | with_reducible apply fresh_keeps
    | split)

theorem cfServeAll_keeps {r : State} {s : State} (h : Keeps r s) :
    Keeps r (cfServeAll s) := by
  unfold cfServeAll
  repeat' (first
    | with_reducible assumption
    | with_reducible apply Keeps.foldl
    | with_reducible apply cfServe_keeps
    | with_reducible apply onCf_keeps
    | (intro _ _ _))

theorem cfSuspend_keeps {r : State} {s : State} (h : Keeps r s) :
    Keeps r (cfSuspend s) := by
  unfold cfSuspend
  repeat' (first
    | with_reducible assumption
    | with_reducible apply cfBreak_keeps
    | with_reducible apply cfServeAll_keeps
    | with_reducible apply onCf_keeps
    | split)

theorem cfResume_keeps {r : State} {s : State} (h : Keeps r s) :
    Keeps r (cfResume s) := by
  unfold cfResume
  repeat' (first
    | with_reducible assumption
    | with_reducible apply onCf_keeps
    | with_reducible apply cfBreak_keeps
    | split)

theorem cfWrite_keeps {r : State} {s : State} {wide : Bool} {addr : W32} {data : W32} (h : Keeps r s) :
    Keeps r (cfWrite s wide addr data) := by
  unfold cfWrite
  split
  · exact h
  · extract_lets -underBinder +onlyGivenNames seq v
    clear_value seq v
    refine Keeps.ite (Keeps.ite h (cfBreak_keeps h)) (Keeps.ite (Keeps.ite (cfSuspend_keeps h) (cfBreak_keeps h)) ?_)
    refine Keeps.ite (Keeps.ite (cfStartProgram_keeps h) (cfBreak_keeps h)) (Keeps.ite (cfStartErase_keeps h) ?_)
    refine Keeps.ite (cfStartErase_keeps h) (Keeps.ite (onCf_keeps h) (Keeps.ite (onCf_keeps h) ?_))
    exact Keeps.ite (cfBreak_keeps h) (Keeps.ite (cfSuspend_keeps h) (Keeps.ite (cfResume_keeps h) h))

theorem cfSequence_keeps {r : State} {s : State} {ctx : CfCtx} {writes : List (W32 × W32)} (h : Keeps r s) :
    Keeps r (cfSequence s ctx writes) := by
  unfold cfSequence
  repeat' (first
    | with_reducible assumption
    | with_reducible apply Keeps.foldl
    | with_reducible apply cfSelfOp_keeps
    | with_reducible apply cfWrite_keeps
    | (intro _ _ _)
    | (extract_lets -underBinder +onlyGivenNames v; refine Keeps.use (P := Keeps r v) ?_ ?_; any_goals (first | (intro hv; clear_value v) | (clear_value (e : v = _); subst e)))
    | split)

theorem cfSingle_keeps {r : State} {s : State} {ctx : CfCtx} {addr : W32} {code : W32} (h : Keeps r s) :
    Keeps r (cfSingle s ctx addr code) := by
  unfold cfSingle
  repeat' (first
    | with_reducible assumption
    | with_reducible apply cfWrite_keeps
    | split)

theorem cfUndefine_keeps {r : State} {s : State} {off : Nat} {n : Nat} (h : Keeps r s) :
    Keeps r (cfUndefine s off n) := by
  unfold cfUndefine
  repeat' (first
    | with_reducible assumption
    | with_reducible rfl
    | with_reducible apply onCf_keeps
    | with_reducible refine Keeps.mk_ ?_ ?_ ?_ ?_)

theorem cfErased_keeps {r : State} {s : State} {l : List Nat} (h : Keeps r s) :
    Keeps r (cfErased s l) := by
  exact Keeps.mk_ h rfl rfl rfl

theorem cfProgram_keeps {r : State} {s : State} {off : Nat} {b0 : Bytes} (h : Keeps r s) :
    Keeps r (cfProgram s off b0) := by
  exact Keeps.mk_ h rfl rfl rfl

theorem cfEnd_keeps {r : State} {s : State} {ok : Bool} (h : Keeps r s) :
    Keeps r (cfEnd s ok) := by
  unfold cfEnd
  repeat' (first
    | with_reducible assumption
    | with_reducible apply Keeps.foldl
    | with_reducible apply cfProgram_keeps
    | with_reducible apply cfUndefine_keeps
    | with_reducible apply cfServeAll_keeps
    | with_reducible apply onCf_keeps
    | with_reducible apply cfErased_keeps
    | (intro _ _ _)
    | (extract_lets -underBinder +onlyGivenNames v; clear_value v)
    | split)

theorem cfStatusWrite_keeps {r : State} {s : State} {v : Nat} (h : Keeps r s) :
    Keeps r (cfStatusWrite s v) := by
  exact Keeps.mk_ h rfl rfl rfl

theorem cfIntenWrite_keeps {r : State} {s : State} {v : Nat} (h : Keeps r s) :
    Keeps r (cfIntenWrite s v) := by
  exact Keeps.mk_ h rfl rfl rfl

theorem cfRegionSet_keeps {r : State} {s : State} {i : Fin 8} {v : W64} (h : Keeps r s) :
    Keeps r (cfRegionSet s i v) := by
  unfold cfRegionSet
  repeat' (first
    | with_reducible assumption
    | with_reducible apply onCf_keeps
    | split)

theorem cfReset_keeps {r : State} {s : State} (h : Keeps r s) :
    Keeps r (cfReset s) := by
  unfold cfReset
  repeat' (first
    | with_reducible assumption
    | with_reducible apply Keeps.foldl
    | with_reducible apply cfUndefine_keeps
    | with_reducible apply onCf_keeps
    | (intro _ _ _))

theorem cfRedo_keeps {r : State} {s : State} (h : Keeps r s) :
    Keeps r (cfRedo s) := by
  unfold cfRedo
  repeat' (first
    | with_reducible assumption
    | with_reducible apply bump_keeps
    | with_reducible apply cfErased_keeps)

theorem cfRegions_keeps {r : State} {s : State} (h : Keeps r s) :
    Keeps r (cfRegions s) := by
  exact Keeps.mk_ h rfl rfl rfl

theorem cfWriteImage_keeps {r : State} {s : State} {img : Bytes} {oldLen : Nat} (h : Keeps r s) :
    Keeps r (cfWriteImage s img oldLen) := by
  unfold cfWriteImage
  repeat' (first
    | with_reducible assumption
    | with_reducible apply cfErased_keeps
    | with_reducible apply cfProgram_keeps)

theorem fwFailed_keeps {r : State} {s : State} {w : Who} {reason : Nat} {path : Nat} (h : Keeps r s) :
    Keeps r (fwFailed s w reason path) := by
  unfold fwFailed
  repeat' (first
    | with_reducible assumption
    | with_reducible apply logEvent_keeps
    | with_reducible apply bump_keeps)

theorem fwDownload_keeps {r : State} {s : State} {off : Nat} {b0 : Bytes} (h : Keeps r s) :
    Keeps r (fwDownload s off b0) := by
  exact Keeps.mk_ h rfl rfl rfl

theorem fwStage_keeps {r : State} {s : State} {w : Who} {path : Nat} {state : Nat} (h : Keeps r s) :
    Keeps r (fwStage s w path state).1 := by
  unfold fwStage
  repeat' (first
    | with_reducible assumption
    | with_reducible rfl
    | with_reducible apply fwFailed_keeps
    | with_reducible apply onFw_keeps
    | (extract_lets -underBinder +onlyGivenNames v; clear_value v)
    | split
    | with_reducible refine Keeps.mk_ ?_ ?_ ?_ ?_)

theorem setStage_keeps {r : State} {s : State} {n : Nat} (h : Keeps r s) :
    Keeps r (setStage s n) := by
  exact Keeps.mk_ h rfl rfl rfl

theorem fwStageActivate_keeps {r : State} {s : State} {w : Who} {path : Nat} (h : Keeps r s) :
    Keeps r (fwStageActivate s w path).1 := by
  unfold fwStageActivate
  repeat' (first
    | with_reducible assumption
    | with_reducible apply setStage_keeps
    | with_reducible apply fwStage_keeps
    | split)

theorem pilotReset_keeps {r : State} {s : State} (h : Keeps r s) :
    Keeps r (pilotReset s) := by
  unfold pilotReset
  repeat' (first
    | with_reducible assumption
    | with_reducible apply onDict_keeps
    | with_reducible apply cfReset_keeps
    | (intro _; with_reducible rfl))

theorem newNonce_keeps {r : State} {s : State} {n : W64} (h : Keeps r s) :
    Keeps r (newNonce s n) := by
  exact Keeps.mk_ h rfl rfl rfl

theorem drawNonce_keeps {r : State} {s : State} (h : Keeps r s) :
    Keeps r (drawNonce s) := by
  unfold drawNonce
  repeat' (first
    | with_reducible assumption
    | with_reducible rfl
    | with_reducible apply newNonce_keeps
    | with_reducible refine Keeps.mk_ ?_ ?_ ?_ ?_)

theorem pilotStart_keeps {r : State} {s : State} {n : W64} (h : Keeps r s) :
    Keeps r (pilotStart s n) := by
  unfold pilotStart
  repeat' (first
    | with_reducible assumption
    | with_reducible rfl
    | with_reducible apply newNonce_keeps
    | with_reducible refine Keeps.mk_ ?_ ?_ ?_ ?_)

theorem runImage_keeps {r : State} {s : State} {img : Bytes} (h : Keeps r s) :
    Keeps r (runImage s img) := by
  exact Keeps.mk_ h rfl rfl rfl

theorem adoptImage_keeps {r : State} {s : State} {img : Bytes} (h : Keeps r s) :
    Keeps r (adoptImage s img) := by
  unfold adoptImage
  refine runImage_keeps ⟨h.queue, h.memory, h.epoch, h.events, Nat.le_trans h.floor (Nat.le_max_left _ _), fun i hi => ?_,
    h.owner, h.counters⟩
  have := h.revoked i hi
  dsimp only
  unfold revokeBelow
  split
  · simp [this]
  · exact this

theorem enterRecovery_keeps {r : State} {s : State} {n : W64} (h : Keeps r s) :
    Keeps r (enterRecovery s n) := by
  unfold enterRecovery
  repeat' (first
    | with_reducible assumption
    | with_reducible apply newNonce_keeps
    | with_reducible apply onFw_keeps)

theorem endSpdm_keeps {r : State} {s : State} (h : Keeps r s) :
    Keeps r (endSpdm s) := by
  exact Keeps.mk_ h rfl rfl rfl

theorem finishActivation_keeps {r : State} {s : State} (h : Keeps r s) :
    Keeps r (finishActivation s) := by
  unfold finishActivation
  repeat' (first
    | with_reducible assumption
    | with_reducible apply onFw_keeps
    | with_reducible apply complete_keeps
    | (extract_lets -underBinder +onlyGivenNames v; refine Keeps.use (P := Keeps r v) ?_ ?_; any_goals (first | (intro hv; clear_value v) | (clear_value (e : v = _); subst e)))
    | (extract_lets -underBinder +onlyGivenNames v; clear_value v)
    | split)

theorem tdisToError_keeps {r : State} {s : State} (h : Keeps r s) :
    Keeps r (tdisToError s) := by
  unfold tdisToError
  repeat' (first
    | with_reducible assumption
    | with_reducible apply Keeps.foldl
    | with_reducible apply tdiError_keeps)

theorem activationBegins_keeps {r : State} {s : State} (h : Keeps r s) :
    Keeps r (activationBegins s) := by
  unfold activationBegins
  repeat' (first
    | with_reducible assumption
    | with_reducible apply noticeAll_keeps
    | with_reducible apply onFw_keeps
    | with_reducible apply setStage_keeps
    | with_reducible apply pilotReset_keeps
    | split)

theorem writeIn_keeps {r s t : State} {l : List Bool} {img : Bytes} (h : Keeps r s) (e : writeIn s l = some (t, img)) :
    Keeps r t := by
  unfold writeIn at e
  dsimp only at e
  split at e
  · cases e
    exact setStage_keeps (cfRegions_keeps (cfWriteImage_keeps h))
  · cases e

theorem activationEnds_keeps {r : State} {s : State} {replicaOk : List Bool} (h : Keeps r s) :
    Keeps r (activationEnds s replicaOk) := by
  unfold activationEnds
  extract_lets -underBinder +onlyGivenNames w
  clear_value w
  split
  · exact enterRecovery_keeps (drawNonce_keeps (onFw_keeps h))
  · rename_i e
    exact finishActivation_keeps (onFw_keeps (tdisToError_keeps (endSpdm_keeps
      (adoptImage_keeps (pilotStart_keeps (drawNonce_keeps (writeIn_keeps h e)))))))

theorem activate_keeps {r : State} {s : State} {replicaOk : List Bool} (h : Keeps r s) :
    Keeps r (activate s replicaOk) := by
  unfold activate
  repeat' (first
    | with_reducible assumption
    | with_reducible apply activationBegins_keeps
    | with_reducible apply activationEnds_keeps
    | split)

theorem publishWhenRoom_keeps {r : State} {s : State} {i : Nat} (h : Keeps r s) :
    Keeps r (publishWhenRoom s i).1 := by
  unfold publishWhenRoom
  repeat' (first
    | with_reducible assumption
    | with_reducible apply publishIndex_keeps
    | split)

theorem commitBody_keeps {r : State} {e : Sqe} {s : State} (h : Keeps r s) :
    Keeps r (commitBody e s) := by
  unfold commitBody
  repeat' (first
    | with_reducible assumption
    | with_reducible apply fail_keeps
    | with_reducible apply publishWhenRoom_keeps
    | with_reducible apply holdExec_keeps
    | with_reducible apply complete_keeps
    | (extract_lets -underBinder +onlyGivenNames v; clear_value v)
    | split
    | with_reducible refine Keeps.ofPair (by assumption) ?_)

theorem unbindBody_keeps {r : State} {e : Sqe} {s : State} (h : Keeps r s) :
    Keeps r (unbindBody e s) := by
  unfold unbindBody
  repeat' (first
    | with_reducible assumption
    | with_reducible rfl
    | with_reducible apply fail_keeps
    | with_reducible apply holdExec_keeps
    | with_reducible apply publishWhenRoom_keeps
    | with_reducible apply complete_keeps
    | split
    | with_reducible refine Keeps.ofPair (by assumption) ?_
    | with_reducible refine Keeps.mk_ ?_ ?_ ?_ ?_)

theorem publishBody_keeps {r : State} {e : Sqe} {s : State} (h : Keeps r s) :
    Keeps r (publishBody e s) := by
  unfold publishBody
  repeat' (first
    | with_reducible assumption
    | with_reducible apply fail_keeps
    | with_reducible apply complete_keeps
    | with_reducible apply holdExec_keeps
    | with_reducible apply publishRows_keeps
    | with_reducible apply finishData_keeps
    | (extract_lets -underBinder +onlyGivenNames v; clear_value v)
    | split)

theorem tableDestroyBody_keeps {r : State} {e : Sqe} {s : State} (h : Keeps r s) :
    Keeps r (tableDestroyBody e s) := by
  unfold tableDestroyBody
  repeat' (first
    | with_reducible assumption
    | with_reducible rfl
    | with_reducible apply fail_keeps
    | with_reducible apply holdExec_keeps
    | with_reducible apply complete_keeps
    | split
    | with_reducible refine Keeps.mk_ ?_ ?_ ?_ ?_)

theorem commitIngest_keeps {r : State} {s : State} {i : Nat} (h : Keeps r s) :
    Keeps r (commitIngest s i) := by
  unfold commitIngest
  repeat' (first
    | with_reducible assumption
    | with_reducible apply publishWhenRoom_keeps
    | with_reducible apply onIngest_keeps
    | split
    | with_reducible refine Keeps.ofPair (by assumption) ?_)

theorem ingestCommits_keeps {r : State} {s : State} (h : Keeps r s) :
    Keeps r (ingestCommits s) := by
  unfold ingestCommits
  repeat' (first
    | with_reducible assumption
    | with_reducible apply Keeps.foldl
    | with_reducible apply commitIngest_keeps
    | (intro _ _ _)
    | split)

theorem runHeld_keeps {r : State} {s : State} {j : Job} (h : Keeps r s) :
    Keeps r (runHeld s j) := by
  unfold runHeld
  repeat' (first
    | with_reducible assumption
    | with_reducible apply openBody_keeps
    | with_reducible apply closeBody_keeps
    | with_reducible apply attendBody_keeps
    | with_reducible apply replayBody_keeps
    | with_reducible apply execBody_keeps
    | with_reducible apply tableDestroyBody_keeps
    | with_reducible apply publishBody_keeps
    | with_reducible apply unbindBody_keeps
    | with_reducible apply commitBody_keeps
    | split)

theorem releaseCores_keeps {r : State} {s : State} (h : Keeps r s) :
    Keeps r (releaseCores s) := by
  unfold releaseCores
  repeat' (first
    | with_reducible assumption
    | with_reducible apply Keeps.foldl
    | with_reducible apply release_keeps
    | (intro _ _ _)
    | split)

theorem serveCores_keeps {r : State} {s : State} (h : Keeps r s) :
    Keeps r (serveCores s) := by
  unfold serveCores
  repeat' (first
    | with_reducible assumption
    | with_reducible apply Keeps.foldl
    | with_reducible apply serveOutbound_keeps
    | (intro _ _ _)
    | split)

theorem settle_keeps {r : State} {s : State} (h : Keeps r s) :
    Keeps r (settle s) := by
  unfold settle
  repeat' (first
    | with_reducible assumption
    | with_reducible rfl
    | with_reducible apply Keeps.foldl
    | with_reducible apply releaseCores_keeps
    | with_reducible apply serveCores_keeps
    | with_reducible apply runMove_keeps
    | with_reducible apply importStep_keeps
    | with_reducible apply ingestCommits_keeps
    | with_reducible apply closeSteps_keeps
    | with_reducible apply runHeld_keeps
    | with_reducible apply finishActivation_keeps
    | with_reducible apply finishLocks_keeps
    | (intro _ _ _)
    | with_reducible refine Keeps.mk_ ?_ ?_ ?_ ?_)

end Sys2Proof.Machine
end

