-- ==== Sys2Proof/Laws/KeepsHost.lean ====
section
/-! SUPPORT. What no operation breaks (`Keeps`): security, the host interface and management. -/

namespace Sys2Proof.Machine

theorem flowTo_keeps {r : State} {s : State} {c : Fin 8} {a : Flow} {b0 : Flow} {us : Nat} (h : Keeps r s) :
    Keeps r (flowTo s c a b0 us) := by
  unfold flowTo
  repeat' (first
    | with_reducible assumption
    | with_reducible apply Keeps.foldl
    | with_reducible apply charge_keeps
    | with_reducible apply onEngine_keeps
    | (intro _ _ _))

theorem downloadBody_keeps {r : State} {e : Sqe} {s : State} (h : Keeps r s) :
    Keeps r (downloadBody e s) := by
  unfold downloadBody
  repeat' (first
    | with_reducible assumption
    | with_reducible apply fail_keeps
    | with_reducible apply complete_keeps
    | with_reducible apply fwDownload_keeps
    | split)

theorem endStaging_keeps {r : State} {e : Sqe} {r0 : State × Option Nat} (h : Keeps r r0.1) :
    Keeps r (endStaging e r0) := by
  unfold endStaging
  repeat' (first
    | with_reducible assumption
    | with_reducible apply complete_keeps
    | with_reducible apply fail_keeps
    | split)

theorem fwCommitBody_keeps {r : State} {e : Sqe} {s : State} (h : Keeps r s) :
    Keeps r (fwCommitBody e s) := by
  unfold fwCommitBody
  repeat' (first
    | with_reducible assumption
    | with_reducible apply fail_keeps
    | with_reducible apply endStaging_keeps
    | with_reducible apply fwStage_keeps
    | with_reducible apply complete_keeps
    | with_reducible apply setStage_keeps
    | with_reducible apply fwStageActivate_keeps
    | with_reducible apply onFw_keeps
    | (extract_lets -underBinder +onlyGivenNames v; clear_value v)
    | split
    | with_reducible refine Keeps.ofPair (by assumption) ?_)

theorem mediaEnded_keeps {r : State} {s : State} {ch : Fin 48} (h : Keeps r s) :
    Keeps r (mediaEnded s ch) := by
  unfold mediaEnded
  repeat' (first
    | with_reducible assumption
    | with_reducible apply settle_keeps
    | with_reducible apply afterMedia_keeps)

theorem readEnded_keeps {r : State} {s : State} {ch : Fin 48} {die : Nat} {o : NandOp} {r0 : ReadOutcome} (h : Keeps r s) :
    Keeps r (readEnded s ch die o r0) := by
  unfold readEnded
  repeat' (first
    | with_reducible assumption
    | with_reducible apply chargeRead_keeps
    | with_reducible apply onChan_keeps
    | with_reducible apply noteRead_keeps
    | with_reducible apply linkRead_keeps
    | with_reducible apply mediaEnded_keeps
    | with_reducible apply markOutside_keeps
    | with_reducible apply ladderRead_keeps
    | with_reducible apply exhaust_keeps
    | (extract_lets -underBinder +onlyGivenNames v; refine Keeps.use (P := Keeps r v) ?_ ?_; any_goals (first | (intro hv; clear_value v) | (clear_value (e : v = _); subst e)))
    | (extract_lets -underBinder +onlyGivenNames v; clear_value v)
    | split)

theorem programFailed_keeps {r : State} {s : State} {ch : Fin 48} {b0 : Nat} {recs : List (Nat × Nat)} (h : Keeps r s) :
    Keeps r (programFailed s ch b0 recs) := by
  unfold programFailed
  repeat' (first
    | with_reducible assumption
    | with_reducible apply retireBlock_keeps
    | with_reducible apply bump_keeps
    | with_reducible apply onChan_keeps
    | with_reducible apply reissueSlots_keeps
    | with_reducible apply redoMoves_keeps
    | with_reducible apply leaveGroup_keeps
    | with_reducible apply startMove_keeps
    | with_reducible apply issueParity_keeps
    | (extract_lets -underBinder +onlyGivenNames v; refine Keeps.use (P := Keeps r v) ?_ ?_; any_goals (first | (intro hv; clear_value v) | (clear_value (e : v = _); subst e)))
    | split)

theorem markSlot_keeps {r : State} {s : State} {i : Nat} (h : Keeps r s) : Keeps r (markSlot s i) := by
  unfold markSlot
  split
  · exact chargeLink_keeps (charge_keeps (Keeps.mk_ h rfl rfl rfl))
  · exact h

theorem programPassed_keeps {r : State} {s : State} {ch : Fin 48} {o : NandOp} {slots : List Nat} (h : Keeps r s) :
    Keeps r (programPassed s ch o slots) := by
  unfold programPassed
  extract_lets -underBinder +onlyGivenNames b
  extract_lets -underBinder +onlyGivenNames w
  have hw : Keeps r w := onChan_keeps (Keeps.foldl h fun _ _ ha => markSlot_keeps ha)
  clear_value b w
  split
  · exact issueParity_keeps hw
  · exact hw

theorem preemptDie_keeps {r : State} {s : State} {ch : Fin 48} {d : Nat} {op : NandOp} (h : Keeps r s) :
    Keeps r (preemptDie s ch d op) := by
  unfold preemptDie
  repeat' (first
    | with_reducible assumption
    | with_reducible apply onChan_keeps
    | with_reducible apply charge_keeps
    | split)

theorem commitMove_keeps {r : State} {s : State} {ch : Fin 48} {m : Move} (h : Keeps r s) :
    Keeps r (commitMove s ch m) := by
  unfold commitMove
  repeat' (first
    | with_reducible assumption
    | with_reducible apply Keeps.foldl
    | with_reducible apply onChan_keeps
    | with_reducible apply setEntry_keeps
    | with_reducible apply bump_keeps
    | with_reducible apply leaveGroup_keeps
    | with_reducible apply queueErase_keeps
    | (intro _ _ _)
    | (extract_lets -underBinder +onlyGivenNames v; refine Keeps.use (P := Keeps r v) ?_ ?_; any_goals (first | (intro hv; clear_value v) | (clear_value (e : v = _); subst e)))
    | (extract_lets -underBinder +onlyGivenNames v; clear_value v)
    | split)

theorem patrolPage_keeps {r : State} {ch : Fin 48} {a : State} {p : PageResult} (h : Keeps r a) :
    Keeps r (patrolPage ch a p) := by
  unfold patrolPage
  repeat' (first
    | with_reducible assumption
    | with_reducible apply noteRead_keeps
    | with_reducible apply exhaust_keeps
    | split)

theorem endOnDie_keeps {r : State} {ch : Fin 48} {a : State} {o : NandOp} (h : Keeps r a) :
    Keeps r (endOnDie ch a o) := by
  unfold endOnDie
  repeat' (first
    | with_reducible assumption
    | with_reducible apply reissueSlots_keeps
    | with_reducible apply onChan_keeps
    | with_reducible apply ladderRead_keeps
    | with_reducible apply exhaust_keeps
    | split)

theorem retireDie_keeps {r : State} {s : State} {ch : Fin 48} {d : Nat} (h : Keeps r s) :
    Keeps r (retireDie s ch d) := by
  unfold retireDie
  repeat' (first
    | with_reducible assumption
    | with_reducible apply onChan_keeps
    | with_reducible apply bump_keeps
    | with_reducible apply enterReadOnly_keeps
    | with_reducible apply noticeAll_keeps
    | (extract_lets -underBinder +onlyGivenNames v; refine Keeps.use (P := Keeps r v) ?_ ?_; any_goals (first | (intro hv; clear_value v) | (clear_value (e : v = _); subst e)))
    | (extract_lets -underBinder +onlyGivenNames v; clear_value v)
    | split)

theorem onSpdm_keeps {r : State} {s : State} {ep : Endpoint} {f : Spdm → Spdm} (h : Keeps r s) :
    Keeps r (onSpdm s ep f) := by
  exact Keeps.mk_ h rfl rfl rfl

theorem spdmAnswer_keeps {r : State} {s : State} {ep : Endpoint} {req : SpdmReq} (h : Keeps r s) :
    Keeps r (spdmAnswer s ep req).1 := by
  unfold spdmAnswer
  repeat' (first
    | with_reducible assumption
    | with_reducible apply onSpdm_keeps
    | (extract_lets -underBinder +onlyGivenNames v; refine Keeps.use (P := Keeps r v) ?_ ?_; any_goals (first | (intro hv; clear_value v) | (clear_value (e : v = _); subst e)))
    | (extract_lets -underBinder +onlyGivenNames v; clear_value v)
    | split)

theorem tkMessage_keeps {r : State} {s : State} {f : Fin 128} {session : Option Nat} {body : State → State} (h : Keeps r s) (hb : ∀ s, Keeps r s → Keeps r (body s)) :
    Keeps r (tkMessage s f session body) := by
  unfold tkMessage
  repeat' (first
    | with_reducible assumption
    | with_reducible apply finishLocks_keeps
    | with_reducible apply respond_keeps
    | with_reducible apply hb
    | (extract_lets -underBinder +onlyGivenNames v)
    | split)

theorem tkLockFor_keeps {r : State} {s : State} {f : Fin 128} {kop : Nat} {claim : Option (Bool × Bytes)} (h : Keeps r s) :
    Keeps r (tkLockFor s f kop claim) := by
  unfold tkLockFor
  repeat' (first
    | with_reducible assumption
    | with_reducible apply startLock_keeps
    | with_reducible apply respond_keeps
    | with_reducible apply onAcct_keeps
    | with_reducible apply finishLock_keeps)

theorem tkStatusBody_keeps {r : State} {f : Fin 128} {s : State} (h : Keeps r s) :
    Keeps r (tkStatusBody f s) := by
  exact Keeps.mk_ h rfl rfl rfl

theorem tkClaimBody_keeps {r : State} {f : Fin 128} {mode : Byte} {secret : Bytes} {s : State} (h : Keeps r s) :
    Keeps r (tkClaimBody f mode secret s) := by
  unfold tkClaimBody
  repeat' (first
    | with_reducible assumption
    | with_reducible apply tkReply_keeps
    | with_reducible apply respond_keeps
    | with_reducible apply tkLockFor_keeps
    | with_reducible apply tdiError_keeps
    | split)

theorem tkUnlockBody_keeps {r : State} {f : Fin 128} {secret : Bytes} {s : State} (h : Keeps r s) :
    Keeps r (tkUnlockBody f secret s) := by
  unfold tkUnlockBody
  repeat' (first
    | with_reducible assumption
    | with_reducible apply tkReply_keeps
    | with_reducible apply onAcct_keeps
    | with_reducible apply bindAccount_keeps
    | with_reducible apply bump_keeps
    | (extract_lets -underBinder +onlyGivenNames v)
    | split)

theorem tkLockBody_keeps {r : State} {f : Fin 128} {s : State} (h : Keeps r s) :
    Keeps r (tkLockBody f s) := by
  unfold tkLockBody
  repeat' (first
    | with_reducible assumption
    | with_reducible apply tkReply_keeps
    | with_reducible apply tkLockFor_keeps
    | (extract_lets -underBinder +onlyGivenNames v; clear_value v)
    | split)

theorem wipeModule_keeps {r : State} {s : State} (h : Keeps r s) :
    Keeps r (wipeModule s) := by
  unfold wipeModule
  repeat' (first
    | with_reducible assumption
    | with_reducible rfl
    | with_reducible apply Keeps.foldl
    | with_reducible apply dropIngest_keeps
    | with_reducible apply dropSession_keeps
    | with_reducible apply unloadImage_keeps
    | with_reducible apply wipeNs_keeps
    | (intro _ _ _)
    | with_reducible refine Keeps.mk_ ?_ ?_ ?_ ?_)

theorem rekeyAccount_keeps {r : State} {s : State} {a : Nat} (h : Keeps r s) :
    Keeps r (rekeyAccount s a) := by
  unfold rekeyAccount
  repeat' (first
    | with_reducible assumption
    | with_reducible apply newTk_keeps
    | with_reducible apply quarantineTag_keeps
    | with_reducible apply bindAccount_keeps
    | (extract_lets -underBinder +onlyGivenNames v; refine Keeps.use (P := Keeps r v) ?_ ?_; any_goals (first | (intro hv; clear_value v) | (clear_value (e : v = _); subst e)))
    | split)

theorem cryptoErase_keeps {r : State} {s : State} {k : CmdKey} (h : Keeps r s) :
    Keeps r (cryptoErase s k) := by
  unfold cryptoErase
  repeat' (first
    | with_reducible assumption
    | with_reducible rfl
    | with_reducible apply Keeps.foldl
    | with_reducible apply tdisToError_keeps
    | with_reducible apply endSilently_keeps
    | with_reducible apply rekeyAccount_keeps
    | with_reducible apply wipeModule_keeps
    | with_reducible apply finishLocks_keeps
    | with_reducible refine Keeps.mk_ ?_ ?_ ?_ ?_)

theorem endSanitize_keeps {r : State} {s : State} (h : Keeps r s) :
    Keeps r (endSanitize s) := by
  unfold endSanitize
  split
  · exact Keeps.mk_ h rfl rfl rfl
  · exact h

theorem sanitizeBody_keeps {r : State} {e : Sqe} {s : State} (h : Keeps r s) :
    Keeps r (sanitizeBody e s) := by
  unfold sanitizeBody
  repeat' (first
    | with_reducible assumption
    | with_reducible apply fail_keeps
    | with_reducible apply complete_keeps
    | with_reducible apply cryptoErase_keeps
    | split)

theorem secSendBody_keeps {r : State} {e : Sqe} {req : SpdmReq} {s : State} (h : Keeps r s) :
    Keeps r (secSendBody e req s) := by
  unfold secSendBody
  repeat' (first
    | with_reducible assumption
    | with_reducible apply complete_keeps
    | with_reducible apply spdmAnswer_keeps
    | with_reducible apply onCtrl_keeps
    | with_reducible apply respond_keeps
    | with_reducible apply fail_keeps
    | split)

theorem secReceiveBody_keeps {r : State} {e : Sqe} {s : State} (h : Keeps r s) :
    Keeps r (secReceiveBody e s) := by
  unfold secReceiveBody
  repeat' (first
    | with_reducible assumption
    | with_reducible apply complete_keeps
    | with_reducible apply hostWrite_keeps
    | with_reducible apply onCtrl_keeps
    | with_reducible apply fail_keeps
    | split)

theorem startWake_keeps {r : State} {s : State} (h : Keeps r s) :
    Keeps r (startWake s) := by
  unfold startWake
  repeat' (first
    | with_reducible assumption
    | with_reducible apply onPower_keeps
    | split)

theorem sqTail_keeps {r : State} {s : State} {f : Fin 128} {sqid : Nat} {tail : Nat} (h : Keeps r s) :
    Keeps r (sqTail s f sqid tail) := by
  unfold sqTail
  repeat' (first
    | with_reducible assumption
    | with_reducible apply startWake_keeps
    | with_reducible apply onCtrl_keeps
    | (extract_lets -underBinder +onlyGivenNames v; refine Keeps.use (P := Keeps r v) ?_ ?_; any_goals (first | (intro hv; clear_value v) | (clear_value (e : v = _); subst e)))
    | split)

theorem freeSlotsOf_keeps {r : State} {s : State} {f : Fin 128} {l : List Cqe} (h : Keeps r s) :
    Keeps r (freeSlotsOf s f l) := by
  exact Keeps.mk_ h rfl rfl rfl

theorem cqHead_keeps {r : State} {s : State} {f : Fin 128} {cqid : Nat} {head : Nat} (h : Keeps r s) :
    Keeps r (cqHead s f cqid head) := by
  unfold cqHead
  repeat' (first
    | with_reducible assumption
    | with_reducible apply startWake_keeps
    | with_reducible apply freeSlotsOf_keeps
    | with_reducible apply onCtrl_keeps
    | (extract_lets -underBinder +onlyGivenNames v; refine Keeps.use (P := Keeps r v) ?_ ?_; any_goals (first | (intro hv; clear_value v) | (clear_value (e : v = _); subst e)))
    | (extract_lets -underBinder +onlyGivenNames v; clear_value v)
    | split)

theorem ccWrite_keeps {r : State} {s : State} {f : Fin 128} {v : Nat} (h : Keeps r s) :
    Keeps r (ccWrite s f v) := by
  unfold ccWrite
  repeat' (first
    | with_reducible assumption
    | with_reducible apply resetController_keeps
    | with_reducible apply onCtrl_keeps
    | (extract_lets -underBinder +onlyGivenNames v; clear_value v)
    | split)

theorem ctrlRegWrite_keeps {r : State} {s : State} {f : Fin 128} {off : Nat} {v : Nat} (h : Keeps r s) :
    Keeps r (ctrlRegWrite s f off v) := by
  unfold ctrlRegWrite
  split
  · exact h
  · extract_lets -underBinder +onlyGivenNames put
    have hp : ∀ k x, Keeps r (put k x) := by
      intro k x
      dsimp only [put]
      split
      · exact h
      · exact onCtrl_keeps h
    clear_value put
    split
    · exact ccWrite_keeps h
    · exact hp _ _
    · exact hp _ _
    · exact hp _ _
    · exact h

theorem doorbellWrite_keeps {r : State} {s : State} {f : Fin 128} {off : Nat} {v : Nat} (h : Keeps r s) :
    Keeps r (doorbellWrite s f off v) := by
  unfold doorbellWrite
  repeat' (first
    | with_reducible assumption
    | with_reducible apply sqTail_keeps
    | with_reducible apply cqHead_keeps
    | (extract_lets -underBinder +onlyGivenNames v; clear_value v)
    | split)

theorem vfEnable_keeps {r : State} {s : State} {n : Nat} (h : Keeps r s) :
    Keeps r (vfEnable s n) := by
  unfold vfEnable
  repeat' (first
    | with_reducible assumption
    | with_reducible apply Keeps.foldl
    | with_reducible apply finishLocks_keeps
    | with_reducible apply enableFunction_keeps
    | (intro _ _ _)
    | split)

theorem coreRegWrite_keeps {r : State} {s : State} {c : Fin 8} {fw : Bool} {a : Nat} {v : Nat} (h : Keeps r s) :
    Keeps r (coreRegWrite s c fw a v) := by
  unfold coreRegWrite
  refine Keeps.ite h (Keeps.ite h (Keeps.ite ?_ (Keeps.ite ?_ (Keeps.ite ?_ (Keeps.ite (onBank_keeps h) (Keeps.ite
    (onCore_keeps h) (Keeps.ite (onCore_keeps h) (Keeps.ite (onBank_keeps h) (Keeps.ite h (accessFault_keeps h))))))))))
  · exact Keeps.ite (meWrite_keeps h) (onMe_keeps h)
  · exact Keeps.ite (tmWrite_keeps h) (onTm_keeps h)
  · exact Keeps.ite (tdWrite_keeps h) (onTd_keeps h)

theorem gatherCfgWrite_keeps {r : State} {s : State} {v : Nat} (h : Keeps r s) :
    Keeps r (gatherCfgWrite s v) := by
  exact Keeps.mk_ h rfl rfl rfl

theorem regWrite_keeps {r : State} {s : State} {r0 : RegAddr} {v : Nat} (h : Keeps r s) :
    Keeps r (regWrite s r0 v) := by
  unfold regWrite
  repeat' (first
    | with_reducible assumption
    | with_reducible apply coreRegWrite_keeps
    | with_reducible apply cfIntenWrite_keeps
    | with_reducible apply cfStatusWrite_keeps
    | with_reducible apply gatherCfgWrite_keeps
    | with_reducible apply ctrlRegWrite_keeps
    | with_reducible apply doorbellWrite_keeps
    | with_reducible apply onCtrl_keeps
    | with_reducible apply vfEnable_keeps
    | with_reducible apply startWake_keeps
    | split)

theorem firstWithSlot_keeps {r : State} {s : State} {cls : Nat} {x2 : List Nat} (h : Keeps r s) :
    Keeps r (firstWithSlot s cls x2).1 := by
  induction x2 generalizing s with
  | nil => exact h
  | cons p t ih =>
    rw [firstWithSlot]
    split
    · exact ih h
    · split
      · exact h
      · exact ih (bump_keeps h)

theorem nextVisit_keeps {r : State} {s : State} (h : Keeps r s) :
    Keeps r (nextVisit s).1 := by
  unfold nextVisit
  repeat' (first
    | with_reducible assumption
    | with_reducible rfl
    | with_reducible apply firstWithSlot_keeps
    | with_reducible apply onCtrl_keeps
    | (extract_lets -underBinder +onlyGivenNames v; refine Keeps.use (P := Keeps r v) ?_ ?_; any_goals (first | (intro hv; clear_value v) | (clear_value (e : v = _); subst e)))
    | (extract_lets -underBinder +onlyGivenNames v; clear_value v)
    | split
    | with_reducible refine Keeps.ofPair (by assumption) ?_
    | with_reducible refine Keeps.mk_ ?_ ?_ ?_ ?_)

theorem fetchNames_keeps {r : State} {s : State} {k : CmdKey} {opc : Nat} {i : Nat} (h : Keeps r s) :
    Keeps r (fetchNames s k opc i) := by
  unfold fetchNames
  repeat' (first
    | with_reducible assumption
    | with_reducible apply takeClass_keeps
    | with_reducible apply nameSession_keeps
    | split)

theorem fetchFrom_keeps {r : State} {s : State} {v : Fin 128 × Nat × Nat} {opc : Nat} {cid : Nat} {nsid : Nat} {session : Option Nat} (h : Keeps r s) :
    Keeps r (fetchFrom s v opc cid nsid session) := by
  unfold fetchFrom
  repeat' (first
    | with_reducible assumption
    | with_reducible rfl
    | with_reducible apply takeSlot_keeps
    | with_reducible apply complete_keeps
    | with_reducible apply clearAbort_keeps
    | with_reducible apply fail_keeps
    | with_reducible apply fetchNames_keeps
    | split
    | with_reducible refine Keeps.mk_ ?_ ?_ ?_ ?_)

theorem fetchOne_keeps {r : State} {s : State} {opc : Nat} {cid : Nat} {nsid : Nat} {session : Option Nat} (h : Keeps r s) :
    Keeps r (fetchOne s opc cid nsid session) := by
  unfold fetchOne
  repeat' (first
    | with_reducible assumption
    | with_reducible rfl
    | with_reducible apply fetchFrom_keeps
    | with_reducible apply nextVisit_keeps
    | split
    | with_reducible refine Keeps.ofPair (by assumption) ?_
    | with_reducible refine Keeps.mk_ ?_ ?_ ?_ ?_)

theorem sendData_keeps {r : State} {s : State} {e : Sqe} {b0 : Bytes} (h : Keeps r s) :
    Keeps r (sendData s e b0) := by
  unfold sendData
  repeat' (first
    | with_reducible assumption
    | with_reducible apply complete_keeps
    | with_reducible apply hostWrite_keeps)

theorem identifyBody_keeps {r : State} {e : Sqe} {s : State} (h : Keeps r s) :
    Keeps r (identifyBody e s) := by
  unfold identifyBody
  repeat' (first
    | with_reducible assumption
    | with_reducible apply fail_keeps
    | with_reducible apply sendData_keeps
    | split)

theorem logBody_keeps {r : State} {e : Sqe} {s : State} (h : Keeps r s) :
    Keeps r (logBody e s) := by
  unfold logBody
  repeat' (first
    | with_reducible assumption
    | with_reducible rfl
    | with_reducible apply fail_keeps
    | with_reducible apply onCtrl_keeps
    | with_reducible apply sendData_keeps
    | split
    | with_reducible refine Keeps.mk_ ?_ ?_ ?_ ?_)

theorem getFeatureBody_keeps {r : State} {e : Sqe} {s : State} (h : Keeps r s) :
    Keeps r (getFeatureBody e s) := by
  unfold getFeatureBody
  repeat' (first
    | with_reducible assumption
    | with_reducible apply fail_keeps
    | with_reducible apply complete_keeps
    | with_reducible apply hostWrite_keeps
    | (extract_lets -underBinder +onlyGivenNames v; clear_value v)
    | split)

theorem setFeatureBody_keeps {r : State} {e : Sqe} {s : State} (h : Keeps r s) :
    Keeps r (setFeatureBody e s) := by
  unfold setFeatureBody
  repeat' (first
    | with_reducible assumption
    | with_reducible apply fail_keeps
    | with_reducible apply complete_keeps
    | with_reducible apply onHealth_keeps
    | with_reducible apply onCtrl_keeps
    | (intro _; with_reducible rfl)
    | (extract_lets -underBinder +onlyGivenNames v; refine Keeps.use (P := Keeps r v) ?_ ?_; any_goals (first | (intro hv; clear_value v) | (clear_value (e : v = _); subst e)))
    | (extract_lets -underBinder +onlyGivenNames v; clear_value v)
    | split)

theorem abortCommand_keeps {r : State} {s : State} {k : CmdKey} (h : Keeps r s) :
    Keeps r (abortCommand s k) := by
  unfold abortCommand
  repeat' (first
    | with_reducible assumption
    | with_reducible apply stopPrograms_keeps
    | with_reducible apply onCtrl_keeps
    | with_reducible apply cancelWith_keeps
    | split)

theorem recordAbort_keeps {r : State} {s : State} {k : CmdKey} (h : Keeps r s) :
    Keeps r (recordAbort s k) := by
  exact Keeps.mk_ h rfl rfl rfl

theorem abortBody_keeps {r : State} {e : Sqe} {s : State} (h : Keeps r s) :
    Keeps r (abortBody e s) := by
  unfold abortBody
  repeat' (first
    | with_reducible assumption
    | with_reducible apply fail_keeps
    | with_reducible apply complete_keeps
    | with_reducible apply abortCommand_keeps
    | with_reducible apply recordAbort_keeps
    | (extract_lets -underBinder +onlyGivenNames v; clear_value v)
    | split)

theorem aerBody_keeps {r : State} {e : Sqe} {s : State} (h : Keeps r s) :
    Keeps r (aerBody e s) := by
  unfold aerBody
  repeat' (first
    | with_reducible assumption
    | with_reducible apply fail_keeps
    | with_reducible apply complete_keeps
    | with_reducible apply onCtrl_keeps
    | (extract_lets -underBinder +onlyGivenNames v; clear_value v)
    | split)

theorem createCqBody_keeps {r : State} {e : Sqe} {s : State} (h : Keeps r s) :
    Keeps r (createCqBody e s) := by
  unfold createCqBody
  repeat' (first
    | with_reducible assumption
    | with_reducible apply fail_keeps
    | with_reducible apply complete_keeps
    | with_reducible apply onCtrl_keeps
    | (extract_lets -underBinder +onlyGivenNames v; clear_value v)
    | split)

theorem createSqBody_keeps {r : State} {e : Sqe} {s : State} (h : Keeps r s) :
    Keeps r (createSqBody e s) := by
  unfold createSqBody
  repeat' (first
    | with_reducible assumption
    | with_reducible apply fail_keeps
    | with_reducible apply complete_keeps
    | with_reducible apply onCtrl_keeps
    | (extract_lets -underBinder +onlyGivenNames v; clear_value v)
    | split)

theorem deleteSqBody_keeps {r : State} {e : Sqe} {s : State} (h : Keeps r s) :
    Keeps r (deleteSqBody e s) := by
  unfold deleteSqBody
  repeat' (first
    | with_reducible assumption
    | with_reducible rfl
    | with_reducible apply fail_keeps
    | with_reducible apply endQueue_keeps
    | with_reducible apply onCtrl_keeps
    | with_reducible apply complete_keeps
    | split
    | with_reducible refine Keeps.mk_ ?_ ?_ ?_ ?_)

theorem deleteCqBody_keeps {r : State} {e : Sqe} {s : State} (h : Keeps r s) :
    Keeps r (deleteCqBody e s) := by
  unfold deleteCqBody
  repeat' (first
    | with_reducible assumption
    | with_reducible apply fail_keeps
    | with_reducible apply freeSlotsOf_keeps
    | with_reducible apply complete_keeps
    | with_reducible apply onCtrl_keeps
    | (extract_lets -underBinder +onlyGivenNames v; refine Keeps.use (P := Keeps r v) ?_ ?_; any_goals (first | (intro hv; clear_value v) | (clear_value (e : v = _); subst e)))
    | (extract_lets -underBinder +onlyGivenNames v; clear_value v)
    | split)

theorem nsChanged_keeps {r : State} {s : State} {f : Fin 128} {nsid : Nat} (h : Keeps r s) :
    Keeps r (nsChanged s f nsid) := by
  unfold nsChanged
  repeat' (first
    | with_reducible assumption
    | with_reducible apply notice_keeps
    | with_reducible apply onCtrl_keeps)

theorem nsCreateBody_keeps {r : State} {e : Sqe} {s : State} (h : Keeps r s) :
    Keeps r (nsCreateBody e s) := by
  unfold nsCreateBody
  repeat' (first
    | with_reducible assumption
    | with_reducible rfl
    | with_reducible apply fail_keeps
    | with_reducible apply nsChanged_keeps
    | with_reducible apply complete_keeps
    | split
    | with_reducible refine Keeps.mk_ ?_ ?_ ?_ ?_)

theorem deleteNs_keeps {r : State} {s : State} {nsid : Nat} (h : Keeps r s) :
    Keeps r (deleteNs s nsid) := by
  unfold deleteNs
  repeat' (first
    | with_reducible assumption
    | with_reducible rfl
    | with_reducible apply wipeNs_keeps
    | with_reducible refine Keeps.mk_ ?_ ?_ ?_ ?_)

theorem nsDeleteBody_keeps {r : State} {e : Sqe} {s : State} (h : Keeps r s) :
    Keeps r (nsDeleteBody e s) := by
  unfold nsDeleteBody
  repeat' (first
    | with_reducible assumption
    | with_reducible apply Keeps.foldl
    | with_reducible apply fail_keeps
    | with_reducible apply complete_keeps
    | with_reducible apply nsChanged_keeps
    | with_reducible apply deleteNs_keeps
    | (intro _ _ _)
    | (extract_lets -underBinder +onlyGivenNames v; clear_value v)
    | split)

theorem nsAttachBody_keeps {r : State} {e : Sqe} {s : State} (h : Keeps r s) :
    Keeps r (nsAttachBody e s) := by
  unfold nsAttachBody
  repeat' (first
    | with_reducible assumption
    | with_reducible rfl
    | with_reducible apply fail_keeps
    | with_reducible apply complete_keeps
    | with_reducible apply nsChanged_keeps
    | split
    | with_reducible refine Keeps.mk_ ?_ ?_ ?_ ?_)

theorem formatNs_keeps {r : State} {s : State} {nsid : Nat} {flbas : Nat} {rekey : Bool} (h : Keeps r s) :
    Keeps r (formatNs s nsid flbas rekey) := by
  unfold formatNs
  repeat' (first
    | with_reducible assumption
    | with_reducible rfl
    | with_reducible apply wipeNs_keeps
    | with_reducible refine Keeps.mk_ ?_ ?_ ?_ ?_)

theorem formatBody_keeps {r : State} {e : Sqe} {s : State} (h : Keeps r s) :
    Keeps r (formatBody e s) := by
  unfold formatBody
  repeat' (first
    | with_reducible assumption
    | with_reducible apply Keeps.foldl
    | with_reducible apply fail_keeps
    | with_reducible apply complete_keeps
    | with_reducible apply nsChanged_keeps
    | with_reducible apply formatNs_keeps
    | (intro _ _ _)
    | (extract_lets -underBinder +onlyGivenNames v; clear_value v)
    | split)

theorem indexCreateBody_keeps {r : State} {e : Sqe} {s : State} (h : Keeps r s) :
    Keeps r (indexCreateBody e s) := by
  unfold indexCreateBody
  repeat' (first
    | with_reducible assumption
    | with_reducible rfl
    | with_reducible apply fail_keeps
    | with_reducible apply complete_keeps
    | with_reducible apply setRole_keeps
    | split
    | with_reducible refine Keeps.mk_ ?_ ?_ ?_ ?_)

theorem indexInsertBody_keeps {r : State} {e : Sqe} {s : State} (h : Keeps r s) :
    Keeps r (indexInsertBody e s) := by
  unfold indexInsertBody
  repeat' (first
    | with_reducible assumption
    | with_reducible apply Keeps.foldl_fst
    | with_reducible apply fail_keeps
    | with_reducible apply insertEntry_keeps
    | with_reducible apply complete_keeps
    | (intro _ _ _)
    | (extract_lets -underBinder +onlyGivenNames v; clear_value v)
    | split)

theorem deleteEntry_keeps {r : State} {s : State} {i : Nat} {u : BitVec 64} (h : Keeps r s) :
    Keeps r (deleteEntry s i u).1 := by
  unfold deleteEntry
  repeat' (first
    | with_reducible assumption
    | with_reducible apply onIndex_keeps
    | split)

theorem indexDeleteBody_keeps {r : State} {e : Sqe} {s : State} (h : Keeps r s) :
    Keeps r (indexDeleteBody e s) := by
  unfold indexDeleteBody
  repeat' (first
    | with_reducible assumption
    | with_reducible apply Keeps.foldl_fst
    | with_reducible apply fail_keeps
    | with_reducible apply deleteEntry_keeps
    | with_reducible apply complete_keeps
    | (intro _ _ _)
    | (extract_lets -underBinder +onlyGivenNames v; clear_value v)
    | split)

theorem indexDestroyBody_keeps {r : State} {e : Sqe} {s : State} (h : Keeps r s) :
    Keeps r (indexDestroyBody e s) := by
  unfold indexDestroyBody
  repeat' (first
    | with_reducible assumption
    | with_reducible apply fail_keeps
    | with_reducible apply freeIndex_keeps
    | with_reducible apply onIndex_keeps
    | (extract_lets -underBinder +onlyGivenNames v; clear_value v)
    | split)

theorem ingestBindBody_keeps {r : State} {e : Sqe} {s : State} (h : Keeps r s) :
    Keeps r (ingestBindBody e s) := by
  unfold ingestBindBody
  repeat' (first
    | with_reducible assumption
    | with_reducible rfl
    | with_reducible apply fail_keeps
    | with_reducible apply complete_keeps
    | split
    | with_reducible refine Keeps.mk_ ?_ ?_ ?_ ?_)

theorem recallProbeBody_keeps {r : State} {e : Sqe} {s : State} (h : Keeps r s) :
    Keeps r (recallProbeBody e s) := by
  unfold recallProbeBody
  repeat' (first
    | with_reducible assumption
    | with_reducible apply fail_keeps
    | with_reducible apply failDw0_keeps
    | with_reducible apply readRun_keeps
    | with_reducible apply bump_keeps
    | with_reducible apply charge_keeps
    | with_reducible apply onAcct_keeps
    | with_reducible apply complete_keeps
    | (extract_lets -underBinder +onlyGivenNames v; clear_value v)
    | split
    | with_reducible refine Keeps.ofPair (by assumption) ?_)

theorem indexManage_keeps {r : State} {e : Sqe} {s : State} (h : Keeps r s) :
    Keeps r (indexManage e s) := by
  unfold indexManage
  repeat' (first
    | with_reducible assumption
    | with_reducible apply indexCreateBody_keeps
    | with_reducible apply indexInsertBody_keeps
    | with_reducible apply indexDeleteBody_keeps
    | with_reducible apply commitBody_keeps
    | with_reducible apply indexDestroyBody_keeps
    | with_reducible apply ingestBindBody_keeps
    | with_reducible apply unbindBody_keeps
    | with_reducible apply recallProbeBody_keeps
    | with_reducible apply fail_keeps
    | split)

theorem dropChunks_keeps {r : State} {s : State} {g : Ingest} {seg : Segment} (h : Keeps r s) :
    Keeps r (dropChunks s g seg) := by
  unfold dropChunks
  repeat' (first
    | with_reducible assumption
    | with_reducible apply Keeps.foldl
    | with_reducible apply onIndex_keeps
    | with_reducible apply onIngest_keeps
    | (intro _ _ _))

theorem startSegment_keeps {r : State} {s : State} {c : Fin 8} {g : Ingest} {im : Image} {seg : Segment} (h : Keeps r s) :
    Keeps r (startSegment s c g im seg) := by
  unfold startSegment
  repeat' (first
    | with_reducible assumption
    | with_reducible apply onIngest_keeps
    | with_reducible apply startProgram_keeps)

theorem insertChunk_keeps {r : State} {i : Nat} {g : Ingest} {s : State} {c : Chunk} (h : Keeps r s) :
    Keeps r (insertChunk i g s c) := by
  unfold insertChunk
  repeat' (first
    | with_reducible assumption
    | with_reducible apply insertEntry_keeps
    | with_reducible apply onIngest_keeps
    | (extract_lets -underBinder +onlyGivenNames v; clear_value v)
    | split
    | with_reducible refine Keeps.ofPair (by assumption) ?_)

theorem applyChunk_keeps {r : State} {i : Nat} {g : Ingest} {s : State} {c : Chunk} (h : Keeps r s) :
    Keeps r (applyChunk i g s c) := by
  unfold applyChunk
  repeat' (first
    | with_reducible assumption
    | with_reducible apply insertChunk_keeps
    | with_reducible apply commitIngest_keeps
    | (extract_lets -underBinder +onlyGivenNames v; refine Keeps.use (P := Keeps r v) ?_ ?_; any_goals (first | (intro hv; clear_value v) | (clear_value (e : v = _); subst e)))
    | split)

end Sys2Proof.Machine
end

