-- ==== Sys2Proof/Laws/KeepsPower.lean ====
section
/-! SUPPORT. What no operation breaks (`Keeps`): the dictionary, power and start-up. -/

namespace Sys2Proof.Machine

theorem unitFreed_keeps {r : State} {s : State} {ch : Fin 48} {slot : Nat} {x : Ctx} (h : Keeps r s) :
    Keeps r (unitFreed s ch slot x) := by
  unfold unitFreed
  repeat' (first
    | with_reducible assumption
    | with_reducible apply onCluster_keeps
    | with_reducible apply onCtx_keeps
    | (extract_lets -underBinder +onlyGivenNames v; clear_value v)
    | split)

theorem repairRange_keeps {r : State} {s : State} {a : Nat} {n : Nat} {tag : Nat} (h : Keeps r s) :
    Keeps r (repairRange s a n tag) := by
  unfold repairRange
  repeat' (first
    | with_reducible assumption
    | with_reducible apply Keeps.foldl
    | with_reducible apply relocateRow_keeps)

theorem saveBank_keeps {r : State} {s : State} {c : Fin 8} {b0 : Bool} (h : Keeps r s) :
    Keeps r (saveBank s c b0) := by
  unfold saveBank
  repeat' (first
    | with_reducible assumption
    | with_reducible apply onBankOf_keeps
    | with_reducible apply saveContext_keeps
    | (extract_lets -underBinder +onlyGivenNames v; clear_value v)
    | split)

theorem bringIn_keeps {r : State} {s : State} {c : Fin 8} {b0 : Bool} {i : Option Nat} (h : Keeps r s) :
    Keeps r (bringIn s c b0 i) := by
  unfold bringIn
  repeat' (first
    | with_reducible assumption
    | with_reducible apply loadContext_keeps
    | with_reducible apply saveBank_keeps
    | split)

theorem resumeEntry_keeps {r : State} {s : State} {c : Fin 8} (h : Keeps r s) :
    Keeps r (resumeEntry s c) := by
  unfold resumeEntry
  repeat' (first
    | with_reducible assumption
    | with_reducible apply postIn_keeps
    | with_reducible apply syncMbox_keeps
    | split)

theorem finishSwitch_keeps {r : State} {s : State} {c : Fin 8} {i : Option Nat} (h : Keeps r s) :
    Keeps r (finishSwitch s c i) := by
  unfold finishSwitch
  repeat' (first
    | with_reducible assumption
    | with_reducible apply bringIn_keeps
    | with_reducible apply onCore_keeps
    | with_reducible apply bringTiles_keeps
    | with_reducible apply onSess_keeps
    | with_reducible apply settle_keeps
    | with_reducible apply resumeEntry_keeps
    | split)

theorem addOverrun_keeps {r : State} {s : State} {i : Nat} {n : Nat} (h : Keeps r s) :
    Keeps r (addOverrun s i n) := by
  unfold addOverrun
  repeat' (first
    | with_reducible assumption
    | with_reducible apply onSess_keeps
    | with_reducible apply charge_keeps
    | split)

theorem endTurn_keeps {r : State} {s : State} {c : Fin 8} {overrun : Nat} (h : Keeps r s) :
    Keeps r (endTurn s c overrun) := by
  unfold endTurn
  repeat' (first
    | with_reducible assumption
    | with_reducible apply addOverrun_keeps
    | with_reducible apply onCore_keeps
    | (extract_lets -underBinder +onlyGivenNames v; refine Keeps.use (P := Keeps r v) ?_ ?_; any_goals (first | (intro hv; clear_value v) | (clear_value (e : v = _); subst e)))
    | (extract_lets -underBinder +onlyGivenNames v; clear_value v)
    | split)

theorem splitEnergy_keeps {r : State} {s : State} {m : MeterReading} (h : Keeps r s) :
    Keeps r (splitEnergy s m) := by
  unfold splitEnergy
  repeat' (first
    | with_reducible assumption
    | with_reducible apply Keeps.foldl
    | with_reducible apply charge_keeps
    | (intro _ _ _))

theorem scrubWord_keeps {r : State} {s : State} {a : Nat} (h : Keeps r s) :
    Keeps r (scrubWord s a) := by
  unfold scrubWord
  repeat' (first
    | with_reducible assumption
    | with_reducible apply countOutcome_keeps
    | with_reducible apply countFixed_keeps
    | with_reducible apply storeRaw_keeps
    | (extract_lets -underBinder +onlyGivenNames v; refine Keeps.use (P := Keeps r v) ?_ ?_; any_goals (first | (intro hv; clear_value v) | (clear_value (e : v = _); subst e)))
    | split)

theorem judgeTiles_keeps {r : State} {s : State} {n : Nat} {bad : List Nat} {fixed : List Nat} (h : Keeps r s) :
    Keeps r (judgeTiles s n bad fixed) := by
  exact Keeps.mk_ h rfl rfl rfl

theorem endPass_keeps {r : State} {s : State} {n : Nat} (h : Keeps r s) :
    Keeps r (endPass s n) := by
  unfold endPass
  repeat' (first
    | with_reducible assumption
    | with_reducible rfl
    | with_reducible apply Keeps.foldl
    | with_reducible apply scrubWord_keeps
    | with_reducible apply judgeTiles_keeps
    | with_reducible apply bump_keeps
    | split
    | with_reducible refine Keeps.mk_ ?_ ?_ ?_ ?_)

theorem releaseTags_keeps {r : State} {s : State} (h : Keeps r s) :
    Keeps r (releaseTags s) := by
  unfold releaseTags
  repeat' (first
    | with_reducible assumption
    | with_reducible rfl
    | with_reducible apply Keeps.foldl
    | with_reducible apply judgeScrub_keeps
    | with_reducible apply bindAccount_keeps
    | (intro _ _ _)
    | split
    | with_reducible refine Keeps.mk_ ?_ ?_ ?_ ?_)

theorem setStaged_keeps {r : State} {s : State} {key : Nat} {items : Tab Nat} (h : Keeps r s) :
    Keeps r (setStaged s key items) := by
  exact Keeps.mk_ h rfl rfl rfl

theorem applySettings_keeps {r : State} {s : State} (h : Keeps r s) :
    Keeps r (applySettings s) := by
  unfold applySettings
  repeat' (first
    | with_reducible assumption
    | with_reducible apply setGatherCfg_keeps
    | with_reducible apply onDict_keeps
    | (intro _; with_reducible rfl))

theorem commitSet_keeps {r : State} {s : State} {src : WSrc} {expected : Nat} (h : Keeps r s) :
    Keeps r (commitSet s src expected).1 := by
  unfold commitSet
  extract_lets -underBinder +onlyGivenNames items
  clear_value items
  split
  · exact h
  · split
    · exact h
    · split
      · exact h
      · refine applySettings_keeps (setStaged_keeps (onDict_keeps ?_ (fun _ => rfl)))
        refine Keeps.trans h ⟨rfl, id, Nat.le_succ _, Nat.le_refl _, Nat.le_refl _, fun _ => id, Nat.le_refl _,
          fun o => ⟨o, fun _ => .inl (Nat.le_refl _)⟩⟩

theorem getD_keep {t : Tab Nat} {p : Nat → Bool} (i : Nat) :
    (t.keep fun j _ => p j).getD i 0 = if p i then t.getD i 0 else 0 := by
  have key : (t.keep fun j _ => p j).get? i = if p i then t.get? i else none := by
    unfold Tab.keep
    induction t with
    | nil => simp [Tab.get?]
    | cons q t ih =>
      obtain ⟨k, v⟩ := q
      by_cases c : p k
      · by_cases e : k = i
        · subst e; simp [c, Tab.get?]
        · simp [c, Tab.get?, e, ih]
      · by_cases e : k = i
        · subst e; simp [c, ih]
        · simp [c, Tab.get?, e, ih]
  unfold Tab.getD
  rw [key]
  split <;> rfl

theorem restoreFactory_keeps {r : State} {s : State} (h : Keeps r s) :
    Keeps r (restoreFactory s).1 := by
  unfold restoreFactory
  extract_lets -underBinder +onlyGivenNames hit broken
  clear_value hit broken
  refine Keeps.ite_fst h ?_
  refine applySettings_keeps (onCf_keeps (Keeps.trans h ⟨rfl, id, Nat.le_succ _, Nat.le_refl _, Nat.le_refl _, fun _ => id,
    Nat.le_refl _, fun o => ?_⟩))
  have key : ∀ (s t : State) i, t.dict.counters = (s.dict.counters.keep fun j _ => !((Dic.find j).map (·.frest)).getD false) →
      counter t i = if ((Dic.find i).map (·.frest)).getD false = true then 0 else counter s i := by
    intro s t i q
    unfold counter
    rw [q, getD_keep (p := fun j => !((Dic.find j).map (·.frest)).getD false)]
    cases ((Dic.find i).map (·.frest)).getD false <;> rfl
  refine ⟨fun i => ?_, fun i => ?_⟩
  · rw [key s (onDict s _) i rfl]
    split
    · exact Nat.two_pow_pos 64
    · exact o i
  · rw [key s (onDict s _) i rfl]
    by_cases q : ((Dic.find i).map (·.frest)).getD false = true
    · exact .inr ⟨q, Nat.lt_succ_self _⟩
    · rw [if_neg q]
      exact .inl (Nat.le_refl _)

theorem dlPiece_keeps {r : State} {s : State} {b0 : Bytes} (h : Keeps r s) :
    Keeps r (dlPiece s b0).1 := by
  unfold dlPiece
  repeat' (first
    | with_reducible assumption
    | with_reducible apply fwDownload_keeps
    | with_reducible apply onDict_keeps
    | (intro _; with_reducible rfl)
    | (extract_lets -underBinder +onlyGivenNames v; refine Keeps.use (P := Keeps r v) ?_ ?_; any_goals (first | (intro hv; clear_value v) | (clear_value (e : v = _); subst e)))
    | (extract_lets -underBinder +onlyGivenNames v; clear_value v)
    | split)

theorem setDl_keeps {r : State} {s : State} {n : Nat} (h : Keeps r s) :
    Keeps r (setDl s n) := by
  exact Keeps.mk_ h rfl rfl rfl

theorem dlAction_keeps {r : State} {s : State} {v : Nat} (h : Keeps r s) :
    Keeps r (dlAction s v).1 := by
  unfold dlAction
  repeat' (first
    | with_reducible assumption
    | with_reducible apply onFw_keeps
    | with_reducible apply setDl_keeps
    | with_reducible apply fwStage_keeps
    | with_reducible apply fwStageActivate_keeps
    | (extract_lets -underBinder +onlyGivenNames v; clear_value v)
    | split
    | with_reducible refine Keeps.ofPair (by assumption) ?_)

theorem setPortKey_keeps {r : State} {s : State} {b0 : Bytes} (h : Keeps r s) :
    Keeps r (setPortKey s b0) := by
  unfold setPortKey
  repeat' (first
    | with_reducible assumption
    | with_reducible rfl
    | with_reducible apply onDict_keeps
    | (intro _; with_reducible rfl)
    | with_reducible refine Keeps.mk_ ?_ ?_ ?_ ?_)

theorem setOwner_view (st : SecStore) (n : Nat) (k : Option Bytes) : sView (setOwner st n k) = sView st := by
  unfold setOwner
  split <;> rfl

theorem ownerSlots_view {s : State} {b : Bytes} {st : SecStore} (e : ownerSlots s b = some st) : sView st = sView s.store := by
  unfold ownerSlots at e
  dsimp only at e
  split at e
  · split at e
    · cases e; exact setOwner_view _ _ _
    · cases e
  · split at e
    · cases e; exact setOwner_view _ _ _
    · cases e
  · cases e; rfl
  · cases e

theorem ownerResult_keeps {r s : State} {b : Bytes} {st : SecStore} (h : Keeps r s) (e : ownerResult s b = some st) :
    Keeps r { s with store := st } := by
  have key : st.fwFloor = s.store.fwFloor ∧ st.revoked = s.store.revoked ∧ st.ownerSeq = s.store.ownerSeq + 1 := by
    unfold ownerResult at e
    extract_lets quorum need at e
    clear_value quorum need
    split at e
    · cases e
    · split at e
      · rename_i q
        split at e
        · cases e
          have v := ownerSlots_view q
          exact ⟨congrArg Prod.fst v, congrArg (fun x => x.2.1) v, rfl⟩
        · cases e
      · cases e
  exact ⟨h.queue, h.memory, h.epoch, h.events, by rw [key.1]; exact h.floor, by rw [key.2.1]; exact h.revoked,
    by rw [key.2.2]; exact Nat.le_trans h.owner (Nat.le_succ _), h.counters⟩

theorem writeObj_keeps {r : State} {s : State} {src : WSrc} {o : Dic.Obj} {b0 : Bytes} (h : Keeps r s) :
    Keeps r (writeObj s src o b0).1 := by
  unfold writeObj
  extract_lets -underBinder +onlyGivenNames v plain
  have hp : ∀ q, Keeps r q.1 → Keeps r (plain q).1 := fun q hq => hq
  clear_value v plain
  refine Keeps.ite_fst h (Keeps.ite_fst h (Keeps.ite_fst h (Keeps.ite_fst h (Keeps.ite_fst ?_ ?_))))
  · extract_lets -underBinder +onlyGivenNames key items next
    exact Keeps.ite_fst h (setStaged_keeps h)
  · split
    · exact commitSet_keeps h
    · exact Keeps.ite (setStaged_keeps h) h
    · exact Keeps.ite_fst (hp _ (restoreFactory_keeps h)) h
    · exact hp _ (dlPiece_keeps h)
    · exact hp _ (dlAction_keeps h)
    · split
      · rename_i e; exact ownerResult_keeps h e
      · exact h
    · exact setPortKey_keeps h
    · refine Keeps.pair (onDict_keeps h ?_)
      intro x
      rfl

theorem doItem_keeps {r : State} {s : State} {src : WSrc} {op : Nat} {staged : Bool} {id : Nat} {b0 : Bytes} (h : Keeps r s) :
    Keeps r (doItem s src op staged id b0).1 := by
  unfold doItem
  repeat' (first
    | with_reducible assumption
    | with_reducible apply writeObj_keeps
    | split)

theorem doItems_keeps {r : State} {s : State} {src : WSrc} {op : Nat} {staged : Bool} {x4 : List Item} (h : Keeps r s) :
    Keeps r (doItems s src op staged x4).1 := by
  induction x4 generalizing s with
  | nil => exact h
  | cons x t ih =>
    rw [doItems]
    split
    rename_i q
    exact ih (Keeps.ofPair q (doItem_keeps h))

theorem handlePdu_keeps {r : State} {s : State} {src : WSrc} {b0 : Bytes} (h : Keeps r s) :
    Keeps r (handlePdu s src b0).1 := by
  unfold handlePdu
  repeat' (first
    | with_reducible assumption
    | with_reducible rfl
    | with_reducible apply doItems_keeps
    | split
    | with_reducible refine Keeps.mk_ ?_ ?_ ?_ ?_)

theorem waori_keeps {r : State} {s : State} {src : WSrc} {b0 : Bytes} (h : Keeps r s) :
    Keeps r (waori s src b0) := by
  unfold waori
  repeat' (first
    | with_reducible assumption
    | with_reducible apply handlePdu_keeps
    | with_reducible apply onDict_keeps
    | (intro _; with_reducible rfl)
    | split)

theorem waoriWrite_keeps {r : State} {s : State} {src : WSrc} {id : Nat} {v : Bytes} (h : Keeps r s) :
    Keeps r (waoriWrite s src id v) := by
  unfold waoriWrite
  repeat' (first
    | with_reducible assumption
    | with_reducible apply waori_keeps)

theorem sendFrame_keeps {r : State} {s : State} {b0 : Bytes} (h : Keeps r s) :
    Keeps r (sendFrame s b0) := by
  exact Keeps.mk_ h rfl rfl rfl

theorem replyFrame_keeps {r : State} {s : State} {f : Frame} {result : Nat} {body : Bytes} (h : Keeps r s) :
    Keeps r (replyFrame s f result body) := by
  unfold replyFrame
  repeat' (first
    | with_reducible assumption
    | with_reducible apply onDict_keeps
    | with_reducible apply sendFrame_keeps
    | (intro _; with_reducible rfl))

theorem requestFrame_keeps {r : State} {s : State} {f : Frame} (h : Keeps r s) :
    Keeps r (requestFrame s f) := by
  unfold requestFrame
  repeat' (first
    | with_reducible assumption
    | with_reducible apply sendFrame_keeps
    | with_reducible apply replyFrame_keeps
    | with_reducible apply bump_keeps
    | with_reducible apply onDict_keeps
    | with_reducible apply handlePdu_keeps
    | (intro _; with_reducible rfl)
    | split)

theorem discoverFrame_keeps {r : State} {s : State} {f : Frame} (h : Keeps r s) :
    Keeps r (discoverFrame s f) := by
  unfold discoverFrame
  repeat' (first
    | with_reducible assumption
    | with_reducible apply onDict_keeps
    | (intro _; with_reducible rfl)
    | split)

theorem portFrame_keeps {r : State} {s : State} {f : Frame} (h : Keeps r s) :
    Keeps r (portFrame s f) := by
  unfold portFrame
  repeat' (first
    | with_reducible assumption
    | with_reducible apply bump_keeps
    | with_reducible apply requestFrame_keeps
    | with_reducible apply discoverFrame_keeps
    | split)

theorem eachCore_keeps {r : State} {s : State} {f : Fin 8 → Core → Core} (h : Keeps r s) :
    Keeps r (eachCore s f) := by
  unfold eachCore
  repeat' (first
    | with_reducible assumption
    | with_reducible apply Keeps.foldl
    | with_reducible apply onCore_keeps
    | (intro _ _ _))

theorem voidRange_keeps {r : State} {s : State} {a : Nat} {n : Nat} (h : Keeps r s) :
    Keeps r (voidRange s a n) := by
  exact Keeps.mem_ h rfl (fun m => ⟨Mem.wf_clear 0 _ _ _ m.1, Mem.wf_clear 0 _ _ _ m.2.1, m.2.2⟩) rfl rfl rfl

theorem darkCore_keeps {r : State} {s : State} {c : Fin 8} (h : Keeps r s) :
    Keeps r (darkCore s c) := by
  unfold darkCore
  repeat' (first
    | with_reducible assumption
    | with_reducible apply onCore_keeps
    | with_reducible apply voidRange_keeps)

theorem dieOff_keeps {r : State} {s : State} {d : Fin 2} (h : Keeps r s) :
    Keeps r (dieOff s d) := by
  unfold dieOff
  repeat' (first
    | with_reducible assumption
    | with_reducible rfl
    | with_reducible apply Keeps.foldl
    | with_reducible apply unpark_keeps
    | with_reducible apply eachCore_keeps
    | with_reducible apply voidRange_keeps
    | with_reducible apply onPower_keeps
    | (intro _ _ _)
    | with_reducible refine Keeps.mk_ ?_ ?_ ?_ ?_)

theorem wakeCore_keeps {r : State} {s : State} {c : Fin 8} (h : Keeps r s) :
    Keeps r (wakeCore s c) := by
  unfold wakeCore
  repeat' (first
    | with_reducible assumption
    | with_reducible apply onPower_keeps
    | with_reducible apply onCore_keeps)

theorem setRoots_keeps {r : State} {s : State} {root : CoreLevel} {trunk : CoreLevel} (h : Keeps r s) :
    Keeps r (setRoots s root trunk) := by
  exact Keeps.mk_ h rfl rfl rfl

theorem trunkReset_keeps {r : State} {s : State} (h : Keeps r s) :
    Keeps r (trunkReset s) := by
  unfold trunkReset
  repeat' (first
    | with_reducible assumption
    | with_reducible rfl
    | with_reducible apply setGatherCfg_keeps
    | with_reducible refine Keeps.mk_ ?_ ?_ ?_ ?_)

theorem destageAll_keeps {r : State} {s : State} (h : Keeps r s) :
    Keeps r (destageAll s) := by
  unfold destageAll
  repeat' (first
    | with_reducible assumption
    | with_reducible apply Keeps.foldl
    | with_reducible apply destage_keeps
    | (intro _ _ _))

theorem checkpointAll_keeps {r : State} {s : State} (h : Keeps r s) : Keeps r (checkpointAll s) := by
  unfold checkpointAll
  refine Keeps.foldl h fun _ _ ha => ?_
  split
  · exact ha
  · exact checkpoint_keeps ha

theorem parkPrepare_keeps {r : State} {s : State} (h : Keeps r s) : Keeps r (parkPrepare s) := by
  have hd := destageAll_keeps h
  dsimp only [parkPrepare]
  split
  · exact checkpointAll_keeps hd
  · exact hd

theorem park_keeps {r : State} {s : State} (h : Keeps r s) :
    Keeps r (park s) := by
  have hp := parkPrepare_keeps h
  dsimp only [park]
  generalize parkPrepare s = p at hp ⊢
  repeat' (first
    | with_reducible assumption
    | with_reducible rfl
    | with_reducible apply Keeps.foldl
    | with_reducible apply dropGrant_keeps
    | with_reducible apply voidRange_keeps
    | with_reducible apply setRoots_keeps
    | with_reducible apply dieOff_keeps
    | with_reducible apply onPower_keeps
    | with_reducible apply trunkReset_keeps
    | split
    | with_reducible refine Keeps.mk_ ?_ ?_ ?_ ?_)

theorem stepDown_keeps {r : State} {s : State} {p : Fin 8 → Bool} (h : Keeps r s) :
    Keeps r (stepDown s p) := by
  unfold stepDown
  repeat' (first
    | with_reducible assumption
    | with_reducible apply eachCore_keeps)

theorem stepUp_keeps {r : State} {s : State} (h : Keeps r s) :
    Keeps r (stepUp s) := by
  unfold stepUp
  repeat' (first
    | with_reducible assumption
    | with_reducible apply eachCore_keeps)

theorem startChannels_keeps {r : State} {s : State} (h : Keeps r s) :
    Keeps r (startChannels s) := by
  unfold startChannels
  repeat' (first
    | with_reducible assumption
    | with_reducible apply Keeps.foldl
    | with_reducible apply startAll_keeps)

theorem tightenMore_keeps {r : State} {s : State} (h : Keeps r s) :
    Keeps r (tightenMore s) := by
  unfold tightenMore
  repeat' (first
    | with_reducible assumption
    | with_reducible apply onPower_keeps
    | with_reducible apply eachCore_keeps
    | split)

theorem relax_keeps {r : State} {s : State} (h : Keeps r s) :
    Keeps r (relax s) := by
  unfold relax
  repeat' (first
    | with_reducible assumption
    | with_reducible apply eachCore_keeps
    | with_reducible apply startChannels_keeps
    | with_reducible apply onPower_keeps
    | with_reducible apply stepUp_keeps
    | split)

theorem controlPower_keeps {r : State} {s : State} {predicted : Nat} (h : Keeps r s) :
    Keeps r (controlPower s predicted) := by
  unfold controlPower
  repeat' (first
    | with_reducible assumption
    | with_reducible apply onPower_keeps
    | with_reducible apply stepDown_keeps
    | with_reducible apply tightenMore_keeps
    | with_reducible apply relax_keeps
    | (extract_lets -underBinder +onlyGivenNames v; refine Keeps.use (P := Keeps r v) ?_ ?_; any_goals (first | (intro hv; clear_value v) | (clear_value (e : v = _); subst e)))
    | (extract_lets -underBinder +onlyGivenNames v; clear_value v)
    | split)

theorem tripCore_keeps {r : State} {s : State} {c : Fin 8} (h : Keeps r s) :
    Keeps r (tripCore s c) := by
  unfold tripCore
  repeat' (first
    | with_reducible assumption
    | with_reducible apply onCore_keeps
    | with_reducible apply abandonTile_keeps)

theorem trip_keeps {r : State} {s : State} {cause : Nat} {die : Nat} (h : Keeps r s) :
    Keeps r (trip s cause die) := by
  unfold trip
  repeat' (first
    | with_reducible assumption
    | with_reducible apply Keeps.foldl
    | with_reducible apply tripCore_keeps
    | with_reducible apply bump_keeps
    | with_reducible apply onPower_keeps
    | with_reducible apply settle_keeps
    | with_reducible apply logEvent_keeps)

theorem noteJunction_keeps {r : State} {s : State} {d : Fin 32} {t : Int} (h : Keeps r s) :
    Keeps r (noteJunction s d t) := by
  unfold noteJunction
  repeat' (first
    | with_reducible assumption
    | with_reducible apply onPower_keeps
    | with_reducible apply noticeAll_keeps
    | (extract_lets -underBinder +onlyGivenNames v; refine Keeps.use (P := Keeps r v) ?_ ?_; any_goals (first | (intro hv; clear_value v) | (clear_value (e : v = _); subst e)))
    | (extract_lets -underBinder +onlyGivenNames v; clear_value v)
    | split)

theorem thermalCanopy_keeps {r : State} {s : State} {d : Fin 2} {die : Fin 32} {t : Int} (h : Keeps r s) :
    Keeps r (thermalCanopy s d die t) := by
  unfold thermalCanopy
  repeat' (first
    | with_reducible assumption
    | with_reducible apply onPower_keeps
    | with_reducible apply trip_keeps
    | with_reducible apply stepDown_keeps
    | (extract_lets -underBinder +onlyGivenNames v; refine Keeps.use (P := Keeps r v) ?_ ?_; any_goals (first | (intro hv; clear_value v) | (clear_value (e : v = _); subst e)))
    | (extract_lets -underBinder +onlyGivenNames v; clear_value v)
    | split)

theorem thermalRoot_keeps {r : State} {s : State} {r0 : Nat} {t : Int} (h : Keeps r s) :
    Keeps r (thermalRoot s r0 t) := by
  unfold thermalRoot
  repeat' (first
    | with_reducible assumption
    | with_reducible apply Keeps.foldl
    | with_reducible apply startAll_keeps
    | with_reducible apply onChan_keeps
    | (intro _ _ _))

theorem thermalReading_keeps {r : State} {s : State} {die : Fin 32} {t : Int} (h : Keeps r s) :
    Keeps r (thermalReading s die t) := by
  unfold thermalReading
  repeat' (first
    | with_reducible assumption
    | with_reducible apply noteJunction_keeps
    | with_reducible apply thermalCanopy_keeps
    | with_reducible apply thermalRoot_keeps
    | split)

theorem brake_keeps {r : State} {s : State} (h : Keeps r s) :
    Keeps r (brake s) := by
  unfold brake
  repeat' (first
    | with_reducible assumption
    | with_reducible apply eachCore_keeps
    | with_reducible apply bump_keeps
    | with_reducible apply onPower_keeps)

theorem coverSram_keeps {r : State} {s : State} {n : Nat} (h : Keeps r s) :
    Keeps r (coverSram s n) := by
  unfold coverSram
  repeat' (first
    | with_reducible assumption
    | with_reducible apply onHealth_keeps
    | (intro _; with_reducible rfl)
    | split)

theorem coverMarked_keeps {r : State} {s : State} (h : Keeps r s) :
    Keeps r (coverMarked s) := by
  unfold coverMarked
  repeat' (first
    | with_reducible assumption
    | with_reducible rfl
    | with_reducible apply coverSram_keeps
    | with_reducible refine Keeps.mk_ ?_ ?_ ?_ ?_)

theorem applyResult_keeps {r : State} {s : State} {r0 : TestResult} (h : Keeps r s) :
    Keeps r (applyResult s r0) := by
  unfold applyResult
  repeat' (first
    | with_reducible assumption
    | with_reducible apply testedEngine_keeps
    | with_reducible apply retireSlots_keeps
    | with_reducible apply coverSram_keeps
    | with_reducible apply retireCore_keeps
    | split)

theorem applyResults_keeps {r : State} {s : State} {l : List TestResult} (h : Keeps r s) :
    Keeps r (applyResults s l) := by
  unfold applyResults
  repeat' (first
    | with_reducible assumption
    | with_reducible apply Keeps.foldl
    | with_reducible apply applyResult_keeps
    | (intro _ _ _)
    | split)

theorem selfTestBody_keeps {r : State} {e : Sqe} {s : State} (h : Keeps r s) :
    Keeps r (selfTestBody e s) := by
  unfold selfTestBody
  repeat' (first
    | with_reducible assumption
    | with_reducible rfl
    | with_reducible apply fail_keeps
    | with_reducible apply complete_keeps
    | with_reducible apply applyResults_keeps
    | with_reducible apply coverMarked_keeps
    | split
    | with_reducible refine Keeps.mk_ ?_ ?_ ?_ ?_)

theorem portStart_keeps {r : State} {s : State} (h : Keeps r s) :
    Keeps r (portStart s) := by
  unfold portStart
  repeat' (first
    | with_reducible assumption
    | with_reducible apply onDict_keeps
    | with_reducible apply setGatherCfg_keeps
    | (intro _; with_reducible rfl))

theorem pilotDown_keeps {r : State} {s : State} (h : Keeps r s) :
    Keeps r (pilotDown s) := by
  unfold pilotDown
  repeat' (first
    | with_reducible assumption
    | with_reducible apply onFw_keeps
    | with_reducible apply pilotReset_keeps
    | with_reducible apply onDict_keeps
    | (intro _; with_reducible rfl))

theorem bootFailures_keeps {r : State} {s : State} {bad : Bool} {replicaOk : List Bool} (h : Keeps r s) :
    Keeps r (bootFailures s bad replicaOk) := by
  unfold bootFailures
  repeat' (first
    | with_reducible assumption
    | with_reducible apply Keeps.foldl
    | with_reducible apply fwFailed_keeps
    | (intro _ _ _)
    | split)

theorem pilotBoot_keeps {r : State} {s : State} {imageOk : Bool} {readable : Bool} {replicaOk : List Bool} {n : W64} (h : Keeps r s) :
    Keeps r (pilotBoot s imageOk readable replicaOk n) := by
  unfold pilotBoot
  extract_lets -underBinder +onlyGivenNames v lost u bad
  have hu : Keeps r u := onFw_keeps (cfRedo_keeps (pilotReset_keeps h))
  clear_value v lost u bad
  refine Keeps.ite (portStart_keeps (pilotStart_keeps (cfRegions_keeps hu))) ?_
  extract_lets -underBinder +onlyGivenNames x
  have hx : Keeps r x := bootFailures_keeps hu
  clear_value x
  split
  · rename_i t img e
    have hw : Keeps r t := by
      split at e
      · exact writeIn_keeps hx e
      · cases e
    exact portStart_keeps (bump_keeps (adoptImage_keeps (pilotStart_keeps hw)))
  · exact portStart_keeps (enterRecovery_keeps hx)

theorem railsOff_keeps {r : State} {s : State} (h : Keeps r s) :
    Keeps r (railsOff s) := by
  exact Keeps.mem_ h rfl (fun m => ⟨rfl, rfl, m.2.2⟩) rfl rfl rfl

theorem powerLoss_keeps {r : State} {s : State} (h : Keeps r s) :
    Keeps r (powerLoss s) := by
  unfold powerLoss
  repeat' (first
    | with_reducible assumption
    | with_reducible rfl
    | with_reducible apply Keeps.foldl
    | with_reducible apply onPower_keeps
    | with_reducible apply pilotDown_keeps
    | with_reducible apply endSilently_keeps
    | split
    | with_reducible refine Keeps.mk_ ?_ ?_ ?_ ?_)

theorem holdupEnd_keeps {r : State} {s : State} {completed : Bool} {powerPresent : Bool} (h : Keeps r s) :
    Keeps r (holdupEnd s completed powerPresent) := by
  unfold holdupEnd
  repeat' (first
    | with_reducible assumption
    | with_reducible apply bump_keeps
    | with_reducible apply onHealth_keeps
    | with_reducible apply railsOff_keeps
    | with_reducible apply onPower_keeps
    | with_reducible apply pilotDown_keeps
    | (intro _; with_reducible rfl)
    | (extract_lets -underBinder +onlyGivenNames v; refine Keeps.use (P := Keeps r v) ?_ ?_; any_goals (first | (intro hv; clear_value v) | (clear_value (e : v = _); subst e)))
    | (extract_lets -underBinder +onlyGivenNames v; clear_value v)
    | split)

theorem thermalOff_keeps {r : State} {s : State} {die : Nat} {t : Int} (h : Keeps r s) :
    Keeps r (thermalOff s die t) := by
  unfold thermalOff
  repeat' (first
    | with_reducible assumption
    | with_reducible apply noticeAll_keeps
    | with_reducible apply onHealth_keeps
    | with_reducible apply logEvent_keeps
    | with_reducible apply powerLoss_keeps
    | with_reducible apply onPower_keeps
    | (intro _; with_reducible rfl)
    | split)

theorem loseUnit_keeps {r : State} {s : State} {b0 : BufSlot} (h : Keeps r s) :
    Keeps r (loseUnit s b0) := by
  have key : ∀ (v : State) (a : Nat) (l : Bytes) (nsid iu : Nat) (e : MapEntry), Keeps r v →
      Keeps r (setEntry { v with media := v.media.puts 0 a l } nsid iu e) := fun v a l nsid iu e hv =>
    setEntry_keeps (Keeps.mem_ hv rfl (fun m => ⟨m.1, m.2.1, Mem.wf_puts _ _ _ _ m.2.2⟩) rfl rfl rfl)
  have hf := fresh_keeps h
  unfold loseUnit
  generalize fresh s = p at hf ⊢
  dsimp only
  split <;> exact key _ _ _ _ _ _ hf

theorem readBack_keeps {r : State} {s : State} (h : Keeps r s) :
    Keeps r (readBack s) := by
  unfold readBack
  repeat' (first
    | with_reducible assumption
    | with_reducible rfl
    | with_reducible apply Keeps.foldl
    | with_reducible apply loseUnit_keeps
    | with_reducible apply onPower_keeps
    | (intro _ _ _)
    | split
    | with_reducible refine Keeps.mk_ ?_ ?_ ?_ ?_)

theorem mendCut_keeps {r : State} {s : State} {ch : Fin 48} {b0 : Nat} (h : Keeps r s) :
    Keeps r (mendCut s ch b0) := by
  unfold mendCut
  repeat' (first
    | with_reducible assumption
    | with_reducible apply Keeps.foldl
    | with_reducible apply onChan_keeps
    | with_reducible apply reissueSlots_keeps
    | with_reducible apply startMove_keeps
    | with_reducible apply newParity_keeps
    | (intro _ _ _))

theorem restartChannel_keeps {r : State} {s : State} {ch : Fin 48} (h : Keeps r s) :
    Keeps r (restartChannel s ch) := by
  unfold restartChannel
  repeat' (first
    | with_reducible assumption
    | with_reducible apply Keeps.foldl
    | with_reducible apply onChan_keeps
    | with_reducible apply mendCut_keeps
    | with_reducible apply queueErase_keeps
    | with_reducible apply issueParity_keeps
    | with_reducible apply startAll_keeps
    | with_reducible apply destage_keeps
    | (intro _ _ _))

theorem restartCtrls_keeps {r : State} {s : State} (h : Keeps r s) :
    Keeps r (restartCtrls s) := by
  unfold restartCtrls
  repeat' (first
    | with_reducible assumption
    | with_reducible rfl
    | with_reducible apply Keeps.foldl
    | with_reducible apply resetFunction_keeps
    | with_reducible refine Keeps.mk_ ?_ ?_ ?_ ?_)

theorem restartObjects_keeps {r : State} {s : State} (h : Keeps r s) :
    Keeps r (restartObjects s) := by
  unfold restartObjects
  have hf := fresh_keeps h
  generalize fresh s = q at hf ⊢
  dsimp only
  exact Keeps.mk_ (restartCtrls_keeps hf) rfl rfl rfl

theorem finishStart_keeps {r : State} {s : State} {results : List TestResult} (h : Keeps r s) :
    Keeps r (finishStart s results) := by
  unfold finishStart
  repeat' (first
    | with_reducible assumption
    | with_reducible rfl
    | with_reducible apply Keeps.foldl
    | with_reducible apply restartObjects_keeps
    | with_reducible apply coverMarked_keeps
    | with_reducible apply applyResults_keeps
    | with_reducible apply onHealth_keeps
    | with_reducible apply eachCore_keeps
    | with_reducible apply onPower_keeps
    | with_reducible apply restartChannel_keeps
    | with_reducible apply readBack_keeps
    | with_reducible apply onFw_keeps
    | with_reducible apply bindAccount_keeps
    | with_reducible apply endSanitize_keeps
    | (intro _; with_reducible rfl)
    | with_reducible refine Keeps.mk_ ?_ ?_ ?_ ?_)

theorem startUp_keeps {r : State} {s : State} {sense : BitVec 2} {imageOk : Bool} {replicaOk : List Bool} {results : List TestResult} {n : W64} (h : Keeps r s) :
    Keeps r (startUp s sense imageOk replicaOk results n) := by
  unfold startUp
  repeat' (first
    | with_reducible assumption
    | with_reducible apply onPower_keeps
    | with_reducible apply railsOff_keeps
    | with_reducible apply pilotBoot_keeps
    | with_reducible apply finishStart_keeps
    | (extract_lets -underBinder +onlyGivenNames v; refine Keeps.use (P := Keeps r v) ?_ ?_; any_goals (first | (intro hv; clear_value v) | (clear_value (e : v = _); subst e)))
    | (extract_lets -underBinder +onlyGivenNames v; clear_value v)
    | split)

theorem pilotUpWith_keeps {r : State} {was : Bool} {s : State} {imageOk : Bool} {n : W64} (h : Keeps r s) :
    Keeps r (pilotUpWith was s imageOk n) := by
  unfold pilotUpWith
  repeat' (first
    | with_reducible assumption
    | with_reducible apply pilotBoot_keeps
    | with_reducible apply onPower_keeps
    | split)

theorem moduleReset_keeps {r : State} {s : State} (h : Keeps r s) :
    Keeps r (moduleReset s) := by
  unfold moduleReset
  repeat' (first
    | with_reducible assumption
    | with_reducible rfl
    | with_reducible apply Keeps.foldl
    | with_reducible apply endSilently_keeps
    | with_reducible apply voidRange_keeps
    | with_reducible apply settle_keeps
    | with_reducible apply restartChannel_keeps
    | with_reducible apply trunkReset_keeps
    | (intro _ _ _)
    | with_reducible refine Keeps.mk_ ?_ ?_ ?_ ?_)

theorem faultModule_keeps {r : State} {s : State} {cause : Nat} {timeMs : Nat} (h : Keeps r s) :
    Keeps r (faultModule s cause timeMs) := by
  unfold faultModule
  refine Keeps.ite h ?_
  extract_lets -underBinder +onlyGivenNames a w times v
  have hw : Keeps r w := moduleReset_keeps (bump_keeps (logEvent_keeps h))
  clear_value a w times
  have hv : Keeps r v := onHealth_keeps hw (fun _ => rfl)
  clear_value v
  refine Keeps.ite ?_ hv
  extract_lets -underBinder +onlyGivenNames u
  exact noticeAll_keeps (onHealth_keeps (logEvent_keeps hv) (fun _ => rfl))

theorem loadBody_keeps {r : State} {e : Sqe} {s : State} (h : Keeps r s) :
    Keeps r (loadBody e s) := by
  unfold loadBody
  repeat' (first
    | with_reducible assumption
    | with_reducible apply fail_keeps
    | with_reducible apply complete_keeps
    | with_reducible apply unloadImage_keeps
    | with_reducible apply failDw0_keeps
    | with_reducible apply loadImage_keeps
    | (extract_lets -underBinder +onlyGivenNames v; clear_value v)
    | split)

theorem activateBody_keeps {r : State} {e : Sqe} {s : State} (h : Keeps r s) :
    Keeps r (activateBody e s) := by
  unfold activateBody
  repeat' (first
    | with_reducible assumption
    | with_reducible apply fail_keeps
    | with_reducible apply onCtrl_keeps
    | with_reducible apply complete_keeps
    | (extract_lets -underBinder +onlyGivenNames v; refine Keeps.use (P := Keeps r v) ?_ ?_; any_goals (first | (intro hv; clear_value v) | (clear_value (e : v = _); subst e)))
    | (extract_lets -underBinder +onlyGivenNames v; clear_value v)
    | split)

theorem rangeSetBody_keeps {r : State} {e : Sqe} {s : State} (h : Keeps r s) :
    Keeps r (rangeSetBody e s) := by
  unfold rangeSetBody
  repeat' (first
    | with_reducible assumption
    | with_reducible apply fail_keeps
    | with_reducible apply complete_keeps
    | with_reducible apply onCtrl_keeps
    | (extract_lets -underBinder +onlyGivenNames v; clear_value v)
    | split)

theorem memReadBody_keeps {r : State} {e : Sqe} {s : State} (h : Keeps r s) :
    Keeps r (memReadBody e s) := by
  unfold memReadBody
  repeat' (first
    | with_reducible assumption
    | with_reducible apply fail_keeps
    | with_reducible apply readMem_keeps
    | with_reducible apply complete_keeps
    | with_reducible apply hostWrite_keeps
    | with_reducible apply charge_keeps
    | with_reducible apply repairRange_keeps
    | (extract_lets -underBinder +onlyGivenNames v; clear_value v)
    | split
    | with_reducible refine Keeps.ofPair (by assumption) ?_)

theorem memWriteBody_keeps {r : State} {e : Sqe} {s : State} (h : Keeps r s) :
    Keeps r (memWriteBody e s) := by
  unfold memWriteBody
  repeat' (first
    | with_reducible assumption
    | with_reducible apply fail_keeps
    | with_reducible apply writeMem_keeps
    | with_reducible apply complete_keeps
    | with_reducible apply hostWrote_keeps
    | with_reducible apply charge_keeps
    | (extract_lets -underBinder +onlyGivenNames v; clear_value v)
    | split
    | with_reducible refine Keeps.ofPair (by assumption) ?_)

theorem copyRead_keeps {r : State} {s : State} {e : Sqe} {src : Nat × Nat × Nat} (h : Keeps r s) :
    Keeps r (copyRead s e src).1 := by
  unfold copyRead
  repeat' (first
    | with_reducible assumption
    | with_reducible apply readMem_keeps
    | with_reducible apply charge_keeps
    | with_reducible apply repairRange_keeps
    | with_reducible apply chargeFlash_keeps
    | (extract_lets -underBinder +onlyGivenNames v; clear_value v)
    | split
    | with_reducible refine Keeps.ofPair (by assumption) ?_)

theorem copyReads_keeps {r : State} {s : State} {e : Sqe} {x2 : List Nat} (h : Keeps r s) :
    Keeps r (copyReads s e x2).1 := by
  induction x2 generalizing s with
  | nil => exact h
  | cons k t ih =>
    rw [copyReads]
    split
    · rename_i q; exact Keeps.ofPair q (copyRead_keeps h)
    · rename_i q
      have hq := Keeps.ofPair q (copyRead_keeps h)
      split
      · rename_i p; exact Keeps.ofPair p (ih hq)
      · exact ih hq

theorem memCopyBody_keeps {r : State} {e : Sqe} {s : State} (h : Keeps r s) :
    Keeps r (memCopyBody e s) := by
  unfold memCopyBody
  repeat' (first
    | with_reducible assumption
    | with_reducible apply fail_keeps
    | with_reducible apply copyReads_keeps
    | with_reducible apply writeMem_keeps
    | with_reducible apply complete_keeps
    | with_reducible apply hostWrote_keeps
    | with_reducible apply charge_keeps
    | (extract_lets -underBinder +onlyGivenNames v; clear_value v)
    | split
    | with_reducible refine Keeps.ofPair (by assumption) ?_)

theorem searchCmd_keeps {r : State} {e : Sqe} {s : State} (h : Keeps r s) :
    Keeps r (searchCmd e s) := by
  unfold searchCmd
  repeat' (first
    | with_reducible assumption
    | with_reducible apply scanBody_keeps
    | with_reducible apply searchBody_keeps
    | split)

theorem sessionMove_keeps {r : State} {e : Sqe} {s : State} (h : Keeps r s) :
    Keeps r (sessionMove e s) := by
  unfold sessionMove
  repeat' (first
    | with_reducible assumption
    | with_reducible apply settle_keeps
    | with_reducible apply exportBody_keeps
    | with_reducible apply moveBody_keeps
    | split)

theorem flightLogGet_keeps {r : State} {e : Sqe} {s : State} (h : Keeps r s) :
    Keeps r (flightLogGet e s) := by
  unfold flightLogGet
  repeat' (first
    | with_reducible assumption
    | with_reducible apply fail_keeps
    | with_reducible apply complete_keeps
    | with_reducible apply hostWrite_keeps
    | (extract_lets -underBinder +onlyGivenNames v; clear_value v)
    | split)

theorem tableManage_keeps {r : State} {e : Sqe} {s : State} (h : Keeps r s) :
    Keeps r (tableManage e s) := by
  unfold tableManage
  repeat' (first
    | with_reducible assumption
    | with_reducible apply tableCreateBody_keeps
    | with_reducible apply writeRowsBody_keeps
    | with_reducible apply publishBody_keeps
    | with_reducible apply abortStepBody_keeps
    | with_reducible apply tableDestroyBody_keeps
    | with_reducible apply fail_keeps
    | split)

theorem vPutCodes_keeps {r : State} {s : State} {c : Fin 8} {fmt : Nat} {r0 : Fin 32} {v : List Nat} (h : Keeps r s) :
    Keeps r (vPutCodes s c fmt r0 v) := by
  exact Keeps.mk_ h rfl rfl rfl

theorem countVec_keeps {r : State} {s : State} {c : Fin 8} {zr : Nat} {f : RoundFlags} (h : Keeps r s) :
    Keeps r (countVec s c zr f) := by
  unfold countVec
  repeat' (first
    | with_reducible assumption
    | with_reducible apply bump_keeps
    | with_reducible apply countRound_keeps
    | with_reducible apply onCore_keeps
    | split)

theorem elemBody_keeps {r : State} {c : Fin 8} {op : VOp} {fmt : Nat} {vd : Fin 32} {va : Fin 32} {vb : Fin 32} {vc : Fin 32} {osat : Bool} {s : State} (h : Keeps r s) :
    Keeps r (elemBody c op fmt vd va vb vc osat s) := by
  unfold elemBody
  extract_lets -underBinder +onlyGivenNames b quant
  have hq : ∀ a d qs sc, Keeps r a → Keeps r (quant a d qs sc) := fun a d qs sc ha =>
    countVec_keeps (vPutCodes_keeps (onBank_keeps ha))
  clear_value b quant
  split
  · exact countVec_keeps (vPutCodes_keeps h)
  · exact countVec_keeps (vPutCodes_keeps h)
  · exact hq _ _ _ _ h
  · refine Keeps.ite (accessFault_keeps h) ?_
    split
    exact hq _ _ _ _ h
  · exact hq _ _ _ _ h
  · exact countVec_keeps (vPutCodes_keeps (onBank_keeps h))
  · exact countVec_keeps (vPutCodes_keeps h)

theorem miSendBody_keeps {r : State} {e : Sqe} {s : State} (h : Keeps r s) :
    Keeps r (miSendBody e s) := by
  unfold miSendBody
  repeat' (first
    | with_reducible assumption
    | with_reducible apply fail_keeps
    | with_reducible apply handlePdu_keeps
    | with_reducible apply complete_keeps
    | with_reducible apply onCtrl_keeps
    | split)

theorem miReceiveBody_keeps {r : State} {e : Sqe} {s : State} (h : Keeps r s) :
    Keeps r (miReceiveBody e s) := by
  unfold miReceiveBody
  repeat' (first
    | with_reducible assumption
    | with_reducible apply fail_keeps
    | with_reducible apply onCtrl_keeps
    | with_reducible apply complete_keeps
    | with_reducible apply hostWrite_keeps
    | split)

end Sys2Proof.Machine
end

