-- ==== Sys2Proof/Laws/Nvme.lean ====
section
/-! SUPPORT. A command that its row serves runs its body on the state after its fetch. -/

namespace Sys2Proof.Machine

theorem begin_sanitizing (s : State) (e : Sqe) (kind : Nat) : (begin_ s e kind).sanitizing = s.sanitizing := by
  unfold begin_
  extract_lets v
  have hv : v.sanitizing = s.sanitizing := rfl
  split
  · exact hv
  · exact hv

theorem abortRecs_filter {l : List (Nat × Nat)} {k : Nat × Nat} (p : Nat × Nat → Bool) (h : l.contains k = false) :
    (l.filter p).contains k = false := by
  simp at h ⊢
  intro x
  exact absurd x h

theorem takeSlot_not_aborted {s : State} {k : CmdKey} (kind nsid : Nat) (h : recordedAbort s k = false) :
    recordedAbort (takeSlot s k kind nsid) k = false := by
  unfold recordedAbort at h ⊢
  unfold takeSlot advanceHead
  simp only [onCtrl, Fin.getElem_fin, upd_same]
  have h2 : ∀ c : Ctrl, c.abortRecs.contains (k.sqid, k.cid) = false → (if queueEmpty c k.sqid then
      { c with abortRecs := c.abortRecs.filter fun r => r.1 != k.sqid || r == (k.sqid, k.cid) } else c).abortRecs.contains
        (k.sqid, k.cid) = false := by
    intro c hc
    split
    · exact abortRecs_filter _ hc
    · exact hc
  refine h2 _ ?_
  split <;> exact h

theorem begin_not_aborted {s : State} {e : Sqe} (kind : Nat) (h : s.ctrls[e.fn].abortRecs.contains (e.sqid, e.cid) = false) :
    recordedAbort (begin_ s e kind) e.key = false := by
  unfold begin_
  extract_lets v
  have hv : recordedAbort v e.key = false := h
  clear_value v
  split
  · exact hv
  · exact takeSlot_not_aborted _ _ hv

theorem nvme_served {s : State} {e : Sqe} {kind : Nat} {admin : Bool} (h : Served s e kind admin) (body : State → State) :
    nvme s e kind admin body = body (begin_ s e kind) := by
  obtain ⟨h1, h2, h3, h4, h5, h7, h6⟩ := h
  have h3' : ((flightOf s e.key).isSome || slotFree s e.fn (queueClass s e.key)) = true := by
    rcases h3 with h | h <;> simp [h]
  unfold nvme
  simp only [h1, h2, h3', Bool.and_self, Bool.not_true, Bool.false_eq_true, if_false, begin_not_aborted kind h4,
    begin_sanitizing, h5, bne_self_eq_false, h7]
  cases hz : s.sanitizing
  · rfl
  · obtain ⟨a, b⟩ := h6 hz
    subst a
    rw [b]
    rfl

end Sys2Proof.Machine
end

