-- ==== Sys2Proof/Machine/StatusLamps.lean ====
section
/-! DEFINITION. The three status lamps (R475) and the port's termination (R474). No command reads them: they are a function of the state, and of whether a
command completed in the last 100 ms, which needs a clock. -/

namespace Sys2Proof.Machine

/-- What a lamp shows. -/
inductive LampSign where
  | off | on | slow | amberSlow | amberFast | amberOn | greenFlicker | greenOn | locate
  deriving DecidableEq, Repr

/-- A row of Table 19-6: its condition, and PWR, STAT and FLT, where it decides them. -/
def lampRows (s : State) (recent : Bool) : List (Bool × Option LampSign × Option LampSign × Option LampSign) :=
  let p := s.power
  let row (c : Bool) (a b d : LampSign) := (c, some a, some b, some d)
  [row (!pilotPowered s) .off .off .off,
   row p.holdup .on .amberFast .off,
   row (s.health.failed || p.shutdown) .on .off .on,
   row s.fw.recovery .on .amberFast .slow,
   row (!(p.slot12 && p.cable12)) .slow .off .slow,
   row (p.phase != .ready) .on .amberSlow .off,
   row s.health.readOnly .on .amberOn .off,
   (criticalWarning s &&& 0x17 != 0, none, none, some .slow),
   row (p.mod != .running) .slow .off .off,
   row recent .on .greenFlicker .off,
   row true .on .greenOn .off]

/-- The first row that matches and decides a column. -/
def firstSign (l : List (Bool × Option LampSign)) : LampSign := ((l.filter (·.1)).findSome? (·.2)).getD .off

/-- PWR, STAT and FLT. While 0x2180.01 is 1, PWR and FLT blink in alternation. -/
def statusLamps (s : State) (recent : Bool) : LampSign × LampSign × LampSign :=
  let r := lampRows s recent
  let loc := dv s 0x218001 == 1
  (if loc then .locate else firstSign (r.map fun x => (x.1, x.2.1)), firstSign (r.map fun x => (x.1, x.2.2.1)),
    if loc then .locate else firstSign (r.map fun x => (x.1, x.2.2.2)))

/-- Does the port's switchable termination stand across the pair (R474)? The PHY has power whenever the pilot has. -/
def portTerminated (s : State) : Bool := pilotPowered s && dv s 0x218002 == 1

end Sys2Proof.Machine
end

