-- ==== Sys2Proof/Tests/Slice0.lean ====
section
/-! SUPPORT. Tests: an ill-formed term for each check of WellFormed, one step on small states, and for each statement with
hypotheses a state and operands that meet them, clause by clause. -/

namespace Sys2Proof.Tests

set_option Elab.async false

open Sys2Proof.Machine

/-! ### Small states -/

/-- A module that runs: function 0 is enabled and ready with one I/O queue pair, account 1 holds tag 0x10, the cores are
lit. -/
def up : State :=
  { State.reset with
    ctrls := State.reset.ctrls.set 0 { enabled := true, ccEn := true, csts := true, qpairs := 1024, sqs := [(1, { size := 16, cqid := 1, prio := 1 })], cqs := [(1, { size := 16 })] }
    cores := Vector.replicate 8 { level := .lit }
    accounts := State.reset.accounts.set 1 { bound := true, tag := 0x10 }
    fw := { pilotUp := true }
    power := { slot12 := true, cable12 := true, phase := .ready, mod := .running, linkUp := true, pilotClk := true, dieTrunk := .lit, dieCanopy := Vector.replicate 2 .lit, dieRoot := Vector.replicate 24 .lit } }

/-- An entry of the admin queue of function 0. -/
def adm : Sqe :=
  { fn := 0, sqid := 0, cid := 5, fuse := 0, nsid := 0, cdw10 := 0, cdw11 := 0, cdw12 := 0, cdw13 := 0, cdw14 := 0, cdw15 := 0, psdt := 0, dptr := 4096, inp := [] }

/-- An entry of its I/O queue. -/
def io : Sqe := { adm with sqid := 1 }

/-- An MCTP source whose secured session carries rights. -/
def mgr : WSrc := { via := .mctp, id := 3, session := some 1, auth := false }

/-- A module that runs, with that session. -/
def upM : State := { up with spdm := [(128, { sessions := [(1, none, true)], nextId := 2 })] }

/-- An ME descriptor, not yet armed: one FP8 vector at scratch address 0 through engine 0, rounded to data tile 1. -/
def meDw : List W32 := [0, 0x10000, 0, 0, 0, 0, 0, 0, 0x140000, 9, 0x10000] ++ List.replicate 21 0

/-- A module that runs, with that descriptor in slot 0 of core 0. -/
def upMe : State := { up with cores := up.cores.set 0 { level := .lit, meSlots := (Vector.replicate 16 {}).set 0 { dw := meDw } } }

/-! ### Ill-formed terms, one for each check of WellFormed -/

theorem test_wf_firmware_entry :
    mailEntryWf (1 :: List.replicate 15 0) = true ∧ (Instr.firmwareMboxPost 0 (1 :: List.replicate 14 0)).wf = false ∧
      (Instr.firmwareMboxPost 0 (4 :: List.replicate 15 0)).wf = false ∧ (Instr.firmwareMboxPost 0 (0x390001 :: List.replicate 15 0)).wf = false ∧
      (Instr.firmwareMboxPost 0 (0x380001 :: List.replicate 15 0)).wf = true := by decide +kernel

theorem test_wf_lamp_dispatch :
    (Instr.lampDispatch 0 { dw := List.replicate 15 0, account := 1, seed := 0, core := none }).wf = false ∧
      (Instr.lampDispatch 0 { dw := List.replicate 16 0, account := 1, seed := 0, core := none }).wf = true := by decide +kernel

theorem test_wf_partial_record :
    (Instr.partialMerge ⟨0, 1, 5⟩ 0 none (List.replicate 23 0)).wf = false ∧
      (Instr.partialMerge ⟨0, 1, 5⟩ 0 none (List.replicate 24 0)).wf = true := by decide +kernel

theorem test_wf_block_number :
    (Instr.blockVerify 0 26496 []).wf = false ∧ (Instr.blockVerify 0 26495 []).wf = true ∧ (Instr.moveCommit 0 26496).wf = false ∧
      (Instr.moveCommit 0 26495).wf = true ∧ (Instr.patrolRead 0 26496 []).wf = false ∧ (Instr.patrolRead 0 26495 []).wf = true := by
  decide +kernel

theorem test_wf_store_width :
    (Instr.controlProcessorStore 0 0 [1, 2, 3]).wf = false ∧ (Instr.controlProcessorStore 0 0 []).wf = false ∧
      (Instr.controlProcessorStore 0 0 (List.replicate 64 0)).wf = true := by decide +kernel

/-- A cover of 128 of the 132 rows and of 512 of the 520 columns (R68). -/
def cov (rows cols : Nat) : EngineTest := .cover (BitVec.ofNat 132 (2 ^ rows - 1)) (BitVec.ofNat 520 (2 ^ cols - 1))

theorem test_wf_cover :
    (Instr.residueFault 0 0 (cov 127 512)).wf = false ∧ (Instr.residueFault 0 0 (cov 128 513)).wf = false ∧
      (Instr.residueFault 0 0 (cov 128 512)).wf = true ∧ (Instr.fieldSelfTest (.engine 0 0 (cov 129 512))).wf = false ∧
      (Instr.powerOnStartup 0 true [] [.sram 1, .engine 0 0 (cov 128 511)] 0).wf = false ∧
      (Instr.powerOnStartup 0 true [] [.sram 1, .engine 0 0 (cov 128 512)] 0).wf = true := by decide +kernel

theorem test_ill_formed_faults : exec (.moveCommit 0 26496) up = .fault .illFormed := by rfl

theorem wit_CommandsGoWhereWellFormed : Instr.wf .announce = true ∧ Instr.wf (.moveCommit 0 26496) = false := by decide +kernel

theorem test_form : Form State.reset ∧ Form up := by
  refine ⟨⟨⟨rfl, rfl, rfl⟩, fun id => ?_⟩, ⟨rfl, rfl, rfl⟩, fun id => ?_⟩ <;> exact Nat.two_pow_pos 64

theorem wit_EveryStepKeepsTheForm :
    Form State.reset ∧ Form up ∧ (∃ t, step State.reset = .next t) ∧ ∃ t, step { up with pending := [.identify adm] } = .next t :=
  ⟨test_form.1, test_form.2, ⟨_, rfl⟩, _, rfl⟩

theorem wit_CountsOnlyGrow :
    Form State.reset ∧ Form up ∧ (∃ t, step State.reset = .next t) ∧ ∃ t, step { up with pending := [.factoryRestore mgr 0x54535246] } = .next t :=
  ⟨test_form.1, test_form.2, ⟨_, rfl⟩, _, rfl⟩

theorem wit_ResetIdles : State.reset.pending = [] := rfl

theorem wit_AntiRollbackNeverFalls :
    (let s := { up with fw := { activating := 3, stage := { state := 3, replicas := [[], []] } } }
     s.fw.activating = 3 ∧ (writeIn s [false, true]).isSome = true) ∧
    (let s := { up with fw := { stage := { state := 3, replicas := [[], [7]] } } }
     s.fw.stage.state = 3 ∧ (s.fw.stage.replicas.zip [false, true]).filter (·.2) = [([7], true)]) ∧
    (ownerResult up ([3, 0, 0, 0, 1, 0, 0, 0] ++ List.replicate 400 0)).isSome = true ∧
    imgSvn [] = up.store.fwFloor := by
  decide +kernel

theorem wit_DrawsAreLatched :
    (let old := upMe.cores[0].meSlots[0].dw
     let w := armWrite (dwAt old 0) 0x35101 meRw (upMe.cores[0].meQueue.contains 0)
     cpRuns upMe 0 = true ∧ bitOf (dwAt old 0) 0 = false ∧ bitOf w 0 = true ∧ meCheck upMe 0 0 (meDesc (setDw old 0 w)) false = 0) := by
  decide +kernel

theorem wit_FactoryRestoreIsOneStep : pilotPowered upM = true ∧ upM.fw.pilotUp = true ∧ upM.fw.recovery = false ∧
    rights upM mgr = true ∧ (upM.dict.vals.any fun p => p.1 / 2 ^ 20 != 5 && lockHolds upM p.1 (((Dic.find p.1).map (·.dflt)).getD 0)) = false ∧
    (let s := { upM with dict := { vals := [(0x106002, 9)] }, accounts := upM.accounts.set 2 { tdi := .run } }
     (s.dict.vals.any fun p => p.1 / 2 ^ 20 != 5 && lockHolds s p.1 (((Dic.find p.1).map (·.dflt)).getD 0)) = true) := by
  decide +kernel

theorem wit_CompletionsAreWrittenOrWait :
    (let s := begin_ up adm 6
     (flightOf s adm.key).isSome = true ∧ completionWaits s adm.key = false ∧ (postTo s.ctrls[adm.fn] default).2 = true) ∧
    (let s := begin_ { up with ctrls := up.ctrls.set 0 { up.ctrls[0] with cqs := [(1, { size := 1 })] } } io 2
     (flightOf s io.key).isSome = true ∧ completionWaits s io.key = false ∧ (postTo s.ctrls[io.fn] { (default : Cqe) with sqid := 1 }).2 = false) := by
  decide +kernel

theorem wit_StoresAreReadBackByTheirOwner : MemOk up ∧ (writeMem up 32 (List.replicate 32 7) 16).2 = none ∧
    (writeMem (writeMem up 32 (List.replicate 64 7) 16).1 63 [1, 2] 16).2 = none := by
  unfold MemOk; and_intros <;> decide +kernel

theorem wit_IoQueuesAreCreatedAndDeleted :
    (let e := { adm with cdw10 := 0x3FFF0002 }
     let v := begin_ up e 0x05
     Served up e 0x05 true ∧ 0 < qidOf e ∧ qidOf e ≤ v.ctrls[e.fn].qpairs ∧ v.ctrls[e.fn].cqs.has (qidOf e) = false ∧
      0 < qsizeOf e ∧ qsizeOf e ≤ 16383 ∧ fieldOf e.cdw11.toNat 31 16 < msixVectors e.fn) ∧
    (let e := { adm with cdw10 := 0x00010002, cdw11 := 0x10003 }
     let v := begin_ up e 0x01
     Served up e 0x01 true ∧ 0 < qidOf e ∧ qidOf e ≤ v.ctrls[e.fn].qpairs ∧ v.ctrls[e.fn].sqs.has (qidOf e) = false ∧
      0 < qsizeOf e ∧ qsizeOf e ≤ 16383 ∧ v.ctrls[e.fn].cqs.has (fieldOf e.cdw11.toNat 31 16) = true ∧
      c0Rights v (acctOf e.fn) = true ∧ c0Rights { v with dict := { vals := [(0x503001, 0)] } } (acctOf e.fn) = false) ∧
    (let e := { adm with cdw10 := 1 }
     Served up e 0x00 true ∧ (begin_ up e 0x00).ctrls[e.fn].sqs.has (qidOf e) = true ∧
     Served up e 0x04 true ∧ (begin_ up e 0x04).ctrls[e.fn].cqs.get? (qidOf e) = some { size := 16 } ∧
      ((begin_ up e 0x04).ctrls[e.fn].sqs.any fun p => p.2.cqid == qidOf e) = true) ∧
    (let e := { adm with cdw10 := 2 }
     let s := onCtrl up 0 fun c => { c with cqs := [(1, { size := 16 }), (2, { size := 4 })] }
     Served s e 0x04 true ∧ (begin_ s e 0x04).ctrls[e.fn].cqs.get? (qidOf e) = some { size := 4 } ∧
      ((begin_ s e 0x04).ctrls[e.fn].sqs.any fun p => p.2.cqid == qidOf e) = false) := by
  unfold Served; and_intros <;> decide +kernel

theorem wit_StructuresLogsAndFeatures :
    (let e := { adm with cdw10 := 2 }
     Served up e 0x06 true ∧ ((identifyData (begin_ up e 0x06) e.fn 2 0 0).map fun r => r.toOption.isSome) = some true) ∧
    (let e := { adm with cdw10 := 0xFF }
     Served up e 0x02 true ∧ logPage (begin_ up e 0x02) e.fn 0xFF = none) ∧
    (let e := { adm with cdw10 := 0x10004 }
     Served up e 0x02 true ∧ (logPage (begin_ up e 0x02) e.fn 4).isSome = true) ∧
    (let e := { adm with cdw10 := 0x20E }
     Served up e 0x0A true ∧ featureIds.contains (fieldOf e.cdw10.toNat 7 0) = true ∧ fieldOf e.cdw10.toNat 10 8 < 3) ∧
    (let e := { adm with cdw10 := 0x30E }
     Served up e 0x0A true ∧ featureIds.contains (fieldOf e.cdw10.toNat 7 0) = true ∧ fieldOf e.cdw10.toNat 10 8 = 3 ∧
      3 < fieldOf (0x40E : W32).toNat 10 8 ∧ featureIds.contains 0xFF = false) ∧
    (let e := { adm with cdw10 := 0x1 }
     Served up e 0x0A true ∧ featureIds.contains (fieldOf e.cdw10.toNat 7 0) = true ∧ fieldOf e.cdw10.toNat 10 8 < 3 ∧
     Served up e 0x09 true ∧ fieldOf e.cdw10.toNat 7 0 ≠ 0x0E) ∧
    (let e := { adm with cdw10 := 0xE }
     Served up e 0x09 true ∧ featureIds.contains (fieldOf e.cdw10.toNat 7 0) = true ∧ bitOf e.cdw10.toNat 31 = false) := by
  unfold Served; and_intros <;> decide +kernel

/-- A module that runs, with a READ of function 0 in flight and entries waiting in its queue. -/
def upFl : State := onCtrl (begin_ up io 2) 0 fun c => { c with sqs := c.sqs.mod 1 fun q => { q with tail := 3 } }

theorem wit_AbortsAndEventRequests :
    (let e := { adm with cdw10 := 0x70001 }
     let v := begin_ upFl e 0x08
     let k : CmdKey := ⟨e.fn, fieldOf e.cdw10.toNat 15 0, fieldOf e.cdw10.toNat 31 16⟩
     Served upFl e 0x08 true ∧ (v.inflight.filter fun f => f.key.fn == e.fn && f.admin && f.kind == 0x08).length ≤ 256 ∧
      flightOf v k = none ∧ queueEmpty v.ctrls[e.fn] k.sqid = false) ∧
    (let e := { adm with cdw10 := 0x70001 }
     let v := begin_ up e 0x08
     Served up e 0x08 true ∧ flightOf v ⟨e.fn, 1, 7⟩ = none ∧ queueEmpty v.ctrls[e.fn] 1 = true) ∧
    (let e := { adm with cid := 6, cdw10 := 0x50001 }
     let v := begin_ upFl e 0x08
     Served upFl e 0x08 true ∧ (flightOf v ⟨e.fn, 1, 5⟩).isSome = true ∧ completionWaits v ⟨e.fn, 1, 5⟩ = false ∧
      (⟨e.fn, 1, 5⟩ : CmdKey) ≠ e.key ∧ abortable v ⟨e.fn, 1, 5⟩ = true) ∧
    (let e := { adm with cid := 6, cdw10 := 0x60000 }
     let v := begin_ upFl e 0x08
     Served upFl e 0x08 true ∧ (flightOf v ⟨e.fn, 0, 6⟩).isSome = true ∧ (⟨e.fn, 0, 6⟩ : CmdKey) = e.key) ∧
    (let s := onCtrl up 0 fun c => { c with aers := List.replicate 16 1 }
     Served s adm 0x0C true ∧ 16 ≤ (begin_ s adm 0x0C).ctrls[adm.fn].aers.length) ∧
    (Served up adm 0x0C true ∧ (begin_ up adm 0x0C).ctrls[adm.fn].aers.length < 16 ∧ (begin_ up adm 0x0C).ctrls[adm.fn].events = []) ∧
    (let s := onCtrl up 0 fun c => { c with aers := List.replicate 15 1, events := [7] }
     Served s adm 0x0C true ∧ (begin_ s adm 0x0C).ctrls[adm.fn].aers.length < 16 ∧ (begin_ s adm 0x0C).ctrls[adm.fn].events = [7]) := by
  unfold Served; and_intros <;> decide +kernel

/-- A module that runs, with namespace 2 of account 1 attached, namespace 3 not attached. -/
def upNs : State :=
  { up with nss := [(2, { account := 1, nsze := 4096, attached := true }), (3, { account := 1, nsze := 64 })] }

theorem wit_NamespacesAreManaged :
    (let e := { adm with inp := toLe 8 256 ++ toLe 8 256 ++ List.replicate 4080 0 }
     let v := begin_ upNs e 0x0D
     Served upNs e 0x0D true ∧ fieldOf e.cdw10.toNat 3 0 = 0 ∧ keyOpen v (acctOf e.fn) = true ∧ 4096 ≤ e.dptr ∧
      Bytes.le e.inp 8 8 = Bytes.le e.inp 0 8 ∧ formatOk (Bytes.le e.inp 26 1) (Bytes.le e.inp 0 8) = true ∧
      Bytes.le e.inp 29 2 = 0 ∧ Tab.firstFree v.nss 1 1024 = some 1 ∧ nsBytes v (fun _ => true) + 256 * 4096 ≤ userCapacity ∧
      nsBytes v (fun x => x.account == acctOf e.fn) + 256 * 4096 ≤ dv v (0x304000 + acctOf e.fn) ∧
      regionUsed v + mapTableBytes { nsze := 256 } ≤ regionBytes v) ∧
    (let e := { adm with cdw10 := 1, nsid := 3 }
     let v := begin_ upNs e 0x0D
     Served upNs e 0x0D true ∧ fieldOf e.cdw10.toNat 3 0 = 1 ∧ e.nsid ≠ 0xFFFFFFFF ∧ (ownNs v e.fn e.nsid).isSome = true ∧
      nsInUse v e.nsid = false ∧ nsInUse { v with ingests := [{ srcNs := 3 }] } e.nsid = true) ∧
    (let e := { adm with nsid := 3, inp := toLe 2 1 ++ toLe 2 1 }
     Served upNs e 0x15 true ∧ ownNs (begin_ upNs e 0x15) e.fn e.nsid = some { account := 1, nsze := 64 } ∧
      Bytes.le e.inp 0 2 = 1 ∧ ∀ i, i < 1 → Bytes.le e.inp (2 + 2 * i) 2 = acctOf e.fn) ∧
    (let e := { adm with cdw10 := 1, nsid := 2, inp := toLe 2 1 ++ toLe 2 1 }
     Served upNs e 0x15 true ∧ (ownNs (begin_ upNs e 0x15) e.fn e.nsid).map (·.attached) = some (fieldOf e.cdw10.toNat 3 0 == 1)) ∧
    (let e := { adm with cdw10 := 0x401, nsid := 2 }
     let v := begin_ upNs e 0x80
     Served upNs e 0x80 true ∧ e.nsid ≠ 0xFFFFFFFF ∧ (ownNs v e.fn e.nsid).isSome = true ∧ fieldOf e.cdw10.toNat 11 9 = 2 ∧
      fieldOf e.cdw10.toNat 8 4 = 0 ∧ nsInUse v e.nsid = false ∧ formatOk 1 4096 = true ∧
      regionUsed v + mapTableBytes { account := 1, nsze := 4096, attached := true, flbas := 1 } ≤
        regionBytes v + mapTableBytes { account := 1, nsze := 4096, attached := true }) := by
  unfold Served; and_intros <;> decide +kernel

theorem wit_SecurityCommands :
    (Served up adm 0x81 true ∧ secp adm = 0 ∧ Served up adm 0x82 true) ∧
    (let e := { adm with cdw10 := 0xE8000000 }
     Served up e 0x81 true ∧ secp e = 0xE8 ∧ Served up e 0x82 true ∧ (begin_ up e 0x82).ctrls[e.fn].secResponse = none) ∧
    (let e := { adm with cdw10 := 0xE8000000 }
     let s := onCtrl up 0 fun c => { c with secResponse := some [1] }
     Served s e 0x82 true ∧ (begin_ s e 0x82).ctrls[e.fn].secResponse = some [1]) ∧
    (let e := { adm with cdw10 := 4 }
     Served up e 0x84 true ∧ e.fn = 0 ∧ fieldOf e.cdw10.toNat 2 0 = 4) := by
  unfold Served; and_intros <;> decide +kernel

/-- No image can be shown to pass the checks of Table 15-4, which end in the verification of a signature that the model
leaves open (log 27): a passing one is taken as given. -/
theorem wit_FirmwareIsStagedAndActivated :
    (let e := { adm with cdw10 := 1, cdw11 := 2015230, inp := List.replicate 8 1 }
     Served up e 0x11 true ∧ e.fn = 0 ∧ dlOffset e + dlBytes e ≤ imageMax ∧ dlBytes e ≤ e.dptr ∧ dlBytes e ≤ e.inp.length) ∧
    (let e := { adm with cdw10 := 0x8 }
     let v := begin_ up e 0x10
     Served up e 0x10 true ∧ e.fn = 0 ∧ commitFs e ≤ 1 ∧ v.fw.stage.state ≠ 2 ∧ v.fw.stage.state ≠ 3 ∧
      fwReason v (fwImage v) = some 1 ∧ commitCa e = 1 ∧ (fwReason v (fwImage v) = none → commitCa { e with cdw10 := 0 } = 0)) ∧
    (let e := { adm with cdw10 := 0x10 }
     let s := onFw up fun w => { w with stage := { state := 4 } }
     Served s e 0x10 true ∧ commitFs e ≤ 1 ∧ (begin_ s e 0x10).fw.stage.state = 4 ∧ commitCa e = 2 ∧
      commitCa { e with cdw10 := 0x18 } = 3 ∧ (begin_ s e 0x10).fw.fresh = false) ∧
    (let s := onFw up fun w => { w with activating := 1, stage := { state := 2, replicas := [[1], [2]] } }
     s.fw.activating = 1 ∧ s.fw.stage.state = 2) ∧
    (let s := onFw up fun w => { w with activating := 3, stage := { state := 3, replicas := [[1], [2]] } }
     s.fw.activating = 3 ∧ (writeIn s [true]).isSome = true ∧ (writeIn s []).isNone = true) ∧
    (onFw up fun w => { w with activating := 6 }).fw.activating = 6 := by
  unfold Served; and_intros <;> decide +kernel

/-- An entry that names one block of namespace 2, its last one. -/
def ioNs : Sqe := { io with nsid := 2, cdw10 := 4095, inp := List.replicate 4096 7 }

theorem wit_NvmCommandsThatRead :
    (∀ opc ∈ [0x02, 0x0C, 0x05], Served upNs ioNs opc false ∧ nsFor (begin_ upNs ioNs opc) ioNs.fn ioNs.nsid = some { account := 1, nsze := 4096, attached := true } ∧
      nvmRefuse (begin_ upNs ioNs opc) ioNs opc { account := 1, nsze := 4096, attached := true } = none ∧
      onFlash (begin_ upNs ioNs opc) ioNs.nsid (unitsNeeded ioNs opc { account := 1, nsze := 4096, attached := true }) = []) ∧
    (let s := { upNs with map := [(2 * 2 ^ 48 + 4095, { st := .flash })] }
     Served s ioNs 0x02 false ∧ nvmRefuse (begin_ s ioNs 0x02) ioNs 0x02 { account := 1, nsze := 4096, attached := true } = none ∧
      onFlash (begin_ s ioNs 0x02) ioNs.nsid (unitsNeeded ioNs 0x02 { account := 1, nsze := 4096, attached := true }) ≠ []) ∧
    readMedia (begin_ upNs ioNs 0x05) ioNs.nsid (slbaOf ioNs * 4096) 1 ≠ Bytes.sub ioNs.inp 0 1 ∧
    Served upNs io 0x00 false := by
  unfold Served; and_intros <;> decide +kernel

/-- A COMPARE of a block of zeros finds the block of zeros that nothing has written. -/
theorem test_compare_finds_the_same (n : Nat) : readMedia (begin_ upNs { io with nsid := 2 } 0x05) 2 0 n = Bytes.sub io.inp 0 n := by
  have h : (begin_ upNs { io with nsid := 2 } 0x05).media = [] := rfl
  have h2 : io.inp = [] := rfl
  rw [readMedia, h, h2, Mem.gets, Bytes.sub]
  simp [Mem.get, List.map_const']

theorem wit_NvmCommandsThatWrite :
    MemOk upNs ∧ (∀ opc ∈ [0x01, 0x08, 0x09], syncMode (begin_ (onPower upNs fun p => { p with bankOk := true }) ioNs opc) = false) ∧
    segmentRoom (begin_ { upNs with ingests := [{ srcNs := 2, later := [⟨0, 1, false⟩] }] } ioNs 0x01) 2 1 = false ∧
    freeSlots (begin_ (onChan upNs 0 fun c => { c with recs := [(1, 2 ^ 32)] }) ioNs 0x01) <
      slotsNeeded { account := 1, nsze := 4096, attached := true } (4095 * 4096) 4096 ∧
    (∀ opc ∈ [0x01, 0x08], Served upNs ioNs opc false ∧ nvmRefuse (begin_ upNs ioNs opc) ioNs opc { account := 1, nsze := 4096, attached := true } = none ∧
      onFlash (begin_ upNs ioNs opc) ioNs.nsid (unitsNeeded ioNs opc { account := 1, nsze := 4096, attached := true }) = [] ∧
      slotsNeeded { account := 1, nsze := 4096, attached := true } (4095 * 4096) 4096 ≤ freeSlots (begin_ upNs ioNs opc) ∧
      segmentRoom (begin_ upNs ioNs opc) 2 (segmentsOf (4095 * 4096) 4096 true).length = true) ∧
    (let e := { io with nsid := 2, cdw10 := 0, cdw11 := 4, inp := List.replicate 4 0 ++ toLe 4 2 ++ toLe 8 4094 }
     let n : Ns := { account := 1, nsze := 4096, attached := true }
     let v := begin_ upNs e 0x09
     Served upNs e 0x09 false ∧ nvmRefuse v e 0x09 n = none ∧ onFlash v e.nsid (unitsNeeded e 0x09 n) = [] ∧
      deallocates e = true ∧ deallocates { e with cdw11 := 0 } = false ∧ nvmRefuse v { e with cdw11 := 0 } 0x09 n = none ∧
      changeSlots e 0x09 n ≤ freeSlots v ∧
      segmentRoom v e.nsid ((byteRanges e 0x09).flatMap fun r => segmentsOf r.1 r.2 false).length = true) := by
  unfold Served MemOk; and_intros <;> decide +kernel

/-- A Borten image of one code section of 8 bytes at 0x120, with its hash. -/
def img0 : Bytes :=
  toLe 4 0x4E545242 ++ toLe 2 3 ++ toLe 2 0 ++ toLe 4 256 ++ toLe 4 1 ++ toLe 8 296 ++ toLe 8 256 ++ List.replicate 48 0 ++
    toLe 2 0 ++ toLe 2 0 ++ toLe 4 0 ++ toLe 2 1 ++ toLe 2 0 ++ toLe 2 1 ++ List.replicate 162 0 ++
    toLe 4 1 ++ toLe 8 288 ++ toLe 8 8 ++ toLe 8 0 ++ toLe 4 0 ++ List.replicate 8 0x13
def img : Bytes := img0.take 32 ++ Crypto.toBe 48 0x1ea00e4909078e55c3c848450945f079a227e1221fb53a691498704c8fabaee07e81bd2431a1ae3e132cda0fa684841e ++ img0.drop 80

theorem test_img : imageReason up 0 img 296 = none ∧ imageReason up 0 img0 296 = some 3 := by decide +kernel

/-- A module that runs, with that image in program 3 of function 0, and a pool grant of 64 KiB to account 1. -/
def upPr : State :=
  { onCtrl up 0 fun c => { c with programs := [(3, { account := 1, active := true, bytes := img, hash := hdrHash img })], ranges := [{ set := 1, start := 0, len := 4096, fmt := 9 }] } with
    poolGrants := [(1, 65536, 65536)] }

theorem wit_ProgramsAreLoadedAndRun :
    (let e := { io with cdw10 := 63, cdw11 := 296, inp := img }
     let v := begin_ up e 0x221
     Served up e 0x221 false ∧ e.fuse = 0 ∧ cdw10Lo e < 64 ∧ loadSel e = 0 ∧ v.ctrls[e.fn].programs.get? (cdw10Lo e) = none ∧
      e.cdw11.toNat ≤ e.dptr ∧ e.cdw11.toNat ≤ e.inp.length ∧ imageReason v e.fn (Bytes.sub e.inp 0 296) 296 = none) ∧
    (let e := { io with cdw10 := 63, cdw11 := 296, inp := img0 }
     Served up e 0x221 false ∧ imageReason (begin_ up e 0x221) e.fn (Bytes.sub e.inp 0 296) 296 = some 3) ∧
    (let e := { io with cdw10 := 0x1000003 }
     let s := onCtrl upPr 0 fun c => { c with programs := c.programs.mod 3 fun i => { i with active := false } }
     Served s e 0x221 false ∧ loadSel e = 1 ∧ (((begin_ s e 0x221).ctrls[e.fn].programs.get? (cdw10Lo e)).map (·.active)) = some false ∧
      programBusy (begin_ s e 0x221) e.fn (cdw10Lo e) = false) ∧
    (let e := { io with cdw10 := 3 }
     Served upPr e 0x222 false ∧ ((begin_ upPr e 0x222).ctrls[e.fn].programs.get? (cdw10Lo e)).isSome = true) ∧
    (let e := { io with cdw10 := 3, cdw12 := 65536, cdw14 := 65536 }
     let v := begin_ upPr e 0x201
     let im : Image := { account := 1, active := true, bytes := img, hash := hdrHash img }
     Served upPr e 0x201 false ∧ v.ctrls[e.fn].programs.get? (cdw10Lo e) = some im ∧ keyOpen v 1 = true ∧
      poolGranted v 1 (argAddr e) (argLen e) = true ∧ queueClass v e.key = 1 ∧ execSession v 1 false = none ∧
      (readyCore v none 7 false 1 im).2 = some 7 ∧
      (readyCore { v with cores := v.cores.map fun k => { k with bankA := { session := some 9 } } } none 7 false 1 im).2 = none) ∧
    (let e := { io with cdw10 := 0x10001 }
     Served upPr e 0x223 false ∧ fieldOf e.cdw10.toNat 3 0 = 1 ∧ ((begin_ upPr e 0x223).ctrls[e.fn].ranges).any (·.set == cdw10Hi e) = true) ∧
    (let e := { io with cdw11 := 1, inp := toLe 4 0 ++ toLe 4 4096 ++ toLe 8 65536 ++ toLe 8 0 ++ toLe 8 10 }
     let v := begin_ upPr e 0x223
     Served upPr e 0x223 false ∧ fieldOf e.cdw10.toNat 3 0 = 0 ∧ 32 * e.cdw11.toNat ≤ e.dptr ∧ 32 * e.cdw11.toNat ≤ e.inp.length ∧
      (List.range 1).all (rangeFmtOk e.inp) = true ∧
      ((List.range 1).map (rangeAt e.inp 2)).all (fun r => poolGranted v (acctOf e.fn) r.start r.len) = true) := by
  unfold Served; and_intros <;> decide +kernel

theorem wit_PoolMemoryCommands :
    (let e := { io with cdw10 := 131040, cdw12 := 32, inp := List.replicate 32 7 }
     Served upPr e 0x102 false ∧ Served upPr e 0x105 false ∧ memRefuse (begin_ upPr e 0x102) e = none ∧ memRefuse (begin_ upPr e 0x105) e = none ∧
      (readMem (begin_ upPr e 0x102) (slmAddr e) (slmLen e) (tagOf (begin_ upPr e 0x102) 1)).2.toOption = none ∧
      (writeMem (begin_ upPr e 0x105) (slmAddr e) (Bytes.sub e.inp 0 32) (tagOf (begin_ upPr e 0x105) 1)).2 = none ∧
      (readMem (writeMem upPr (slmAddr e) (Bytes.sub e.inp 0 32) 16).1 (slmAddr e) 32 16).2.toOption = some (List.replicate 32 7)) ∧
    (let e := { io with cdw10 := 65536, cdw12 := 8, inp := List.replicate 8 7 }
     memRefuse (begin_ upPr e 0x105) e = none ∧ (writeMem (begin_ upPr e 0x105) (slmAddr e) (Bytes.sub e.inp 0 8) (tagOf (begin_ upPr e 0x105) 1)).2 = some .unwritten) ∧
    (let s := { upPr with nss := [(2, { account := 1, nsze := 4096, attached := true })] }
     let e := { io with cdw10 := 65536, cdw12 := 1, inp := toLe 8 2 ++ toLe 8 0 ++ toLe 8 32 ++ toLe 8 0 }
     let v := begin_ s e 0x101
     let ks := List.range (copyCount e)
     Served s e 0x101 false ∧ e.fuse = 0 ∧ copyCount e ≠ 0 ∧ 32 * copyCount e ≤ e.dptr ∧ 32 * copyCount e ≤ e.inp.length ∧
      poolGranted v (acctOf e.fn) (slmAddr e) (sumNat (ks.map fun k => (copySource e k).2.2)) = true ∧
      (copyReads v e ks).2.toOption = some (List.replicate 32 0) ∧
      (writeMem (copyReads v e ks).1 (slmAddr e) (List.replicate 32 0) (tagOf v (acctOf e.fn))).2 = none) := by
  unfold Served; and_intros <;> decide +kernel

/-- That module with the descriptor armed, its tile resident and the operand memory of engine 0 loaded. -/
def upArm : State :=
  { onCore upMe 0 fun k => { k with meSlots := k.meSlots.set 0 { dw := setDw meDw 0 0x35101 }, meQueue := [0], engines := k.engines.set 0 { opResident := 15, opRec := [(0, { fmt := 5 })] } } with
    tileDir := [(tileNo (scratchBase 0), { state := tdClean })] }

theorem wit_MeDescriptorsAreArmed :
    (cpRuns upArm 0 = true ∧ bitOf (dwAt upArm.cores[0].meSlots[0].dw 0) 0 = true) ∧
    (bitOf (dwAt upMe.cores[0].meSlots[0].dw 0) 0 = false ∧ bitOf (armWrite (dwAt upMe.cores[0].meSlots[0].dw 0) 0x35101 meRw false) 0 = true ∧
      meCheck upMe 0 0 (meDesc (setDw meDw 0 (armWrite 0 0x35101 meRw (upMe.cores[0].meQueue.contains 0)))) true = 0 ∧
      bitOf (armWrite 0 0x35100 meRw false) 0 = false ∧ bitOf (armWrite 4 0x35101 meRw true) 0 = false ∧
      meCheck upMe 0 15 (meDesc (setDw upMe.cores[0].meSlots[15].dw 0 (armWrite 0x70000 1 meRw false))) true = 1) := by
  and_intros <;> decide +kernel

/-- A pass whose inputs are not written is abandoned; one that enables no engine takes nothing. -/
theorem wit_PassesIssueAndDrain :
    (meHead upArm.cores[0] = some 0 ∧ passReady (passScan upArm 0 0) 0 0 = true ∧ (passTaken (passScan upArm 0 0) 0 0).2 = some 0x21) ∧
    (let s := { onCore upArm 0 fun k => { k with meSlots := k.meSlots.set 0 { dw := setDw meDw 0 0x35001 } } with
                mem := [], chk := (writeMem up (scratchBase 0) (List.replicate 128 0) 1).1.chk }
     meHead s.cores[0] = some 0 ∧ passReady (passScan s 0 0) 0 0 = true ∧ (passTaken (passScan s 0 0) 0 0).2 = none) ∧
    (let s := onCore upMe 7 fun k => { k with meSlots := k.meSlots.set 15 { issued := true } }
     s.cores[7].meSlots[15].issued = true ∧ residuesAgree s 7 15 = true) ∧
    (let s := onCore upMe 0 fun k => { k with
       meSlots := k.meSlots.set 0 { dw := setDw meDw 0 0x35101, issued := true }
       engines := k.engines.set 0 { acc := [(0, { value := 1 })], resid := [(0, 0)] } }
     s.cores[0].meSlots[0].issued = true ∧ residuesAgree s 0 0 = false) := by
  and_intros <;> decide +kernel

theorem wit_EngineFlowClockAndResidue :
    (onCore up 0 fun k => { k with stepReq := some 3 }).cores[0].stepReq = some 3 ∧
    (let s := onCore up 0 fun k => { k with engines := k.engines.set 3 { acc := [(0, {})], chain := some { draining := true } } }
     coverOk .pass = true ∧ coverOk .noSpare = true ∧ (s.cores[0].engines[3].chain.map (·.draining)) = some true ∧
      (∃ p ∈ s.cores[0].engines[3].acc, p.2.ovf = false) ∧
      (testedEngine (abandonTile s 0 0x10 0x10 (issuedMe s.cores[0])) 0 3 .noSpare).cores[0].tile = none) ∧
    (∀ p ∈ (onCore up 0 fun k => { k with engines := k.engines.set 3 { acc := [(0, { ovf := true })] } }).cores[0].engines[3].acc, p.2.ovf = true) ∧
    (let s := onCore up 0 fun k => { k with engines := k.engines.set 3 { chain := some { draining := true } }, tile := some {} }
     (testedEngine (abandonTile s 0 0x10 0x10 (issuedMe s.cores[0])) 0 3 .noSpare).cores[0].tile.isSome = true) := by
  and_intros <;> decide +kernel

/-- A module that runs, with the tile descriptor of slot 1 of core 0 written: cost 100, no input, one output, scratch
tile 2, in a list at 0x30000, the local tile scratch tile 1. -/
def upTd : State :=
  onCore (writeMem up (scratchBase 0 + 0x30000) (toLe 32 0x20000) 1).1 0 fun k =>
    { k with bankA := { tileSlots := (Vector.replicate 2 {}).set 1 { dw := [0, 100, 0, 0, 0, 0, 0x10000, 0x30000, 0, 0x10000] ++ List.replicate 6 0 } }
             tmSlots := k.tmSlots.set 31 { dw := [0, 0, 0, 0, 0x10000, 0, 0, 0] } }

theorem wit_TileAndMoverDescriptorsAreArmed :
    (let old := (bank upTd.cores[0]).tileSlots[1].dw
     let w := armWrite (dwAt old 0) 1 1 ((bank upTd.cores[0]).armedTiles.contains 1)
     cpRuns upTd 0 = true ∧ bitOf (dwAt old 0) 0 = false ∧ bitOf w 0 = true ∧
      (tdCheck upTd 0 (tileDesc (setDw old 0 w))).2 = (0, [], [tileNo (scratchBase 0) + 2]) ∧
      bitOf (armWrite (dwAt old 0) 0 1 false) 0 = false ∧ bitOf (armWrite 4 1 1 true) 0 = false ∧
      (tdCheck upTd 0 (tileDesc (setDw (bank upTd.cores[0]).tileSlots[0].dw 0 (armWrite 0 1 1 false)))).2.1 ≠ 0) ∧
    (let s := onTd upTd 0 1 fun x => { x with dw := setDw x.dw 0 1 }
     bitOf (dwAt (bank s.cores[0]).tileSlots[1].dw 0) 0 = true ∧ bitOf 0 3 = false) ∧
    (let old := upTd.cores[0].tmSlots[31].dw
     let w := armWrite (dwAt old 0) 0x10001 0x7F0001 (upTd.cores[0].tmQueue.contains 31)
     bitOf (dwAt old 0) 0 = false ∧ bitOf w 0 = true ∧ tmCheck upTd 0 (tmDesc (setDw old 0 w)) = 0 ∧
      bitOf (armWrite (dwAt old 0) 0x10000 0x7F0001 false) 0 = false ∧
      tmCheck upTd 0 (tmDesc (setDw old 0 (armWrite (dwAt old 0) 1 0x7F0001 false))) = 1) ∧
    bitOf (dwAt (onTm upTd 0 31 fun x => { x with dw := setDw x.dw 0 1 }).cores[0].tmSlots[31].dw 0) 0 = true := by
  and_intros <;> decide +kernel

/-- That module with the tile descriptor armed. -/
def upTa : State :=
  onCore upTd 0 fun k => { k with bankA := { k.bankA with armedTiles := [1], tileSlots := k.bankA.tileSlots.set 1 { dw := setDw k.bankA.tileSlots[1].dw 0 1, outs := [tileNo (scratchBase 0) + 2] } } }

theorem wit_WorkTilesOpenAndEnd :
    (nextTile upTa 0 = some 1 ∧ ceilingHolds upTa 0 100 = false ∧ openReady upTa 0 1 = true) ∧
    (let s := onCore upTa 0 fun k => { k with tile := some { slot := 1 } }
     cpRuns s 0 = true ∧ s.cores[0].tile.map (·.slot) = some 1) ∧
    (let s := onCore upTa 0 fun k => { k with tile := some { slot := 1, closed := true } }
     tileDone s.cores[0] = true ∧ s.cores[0].tile.isSome = true) ∧
    overBudget (onCore upTa 0 fun k => { k with tile := some { slot := 1 }, meSlots := k.meSlots.set 0 { dw := setDw meDw 0 0x35101, inTile := true }, meQueue := [0] }) 0 = true := by
  and_intros <;> decide +kernel

theorem wit_TilesAreCopiedAndStored :
    (let s := onCore up 0 fun k => { k with tmSlots := k.tmSlots.set 31 { dw := [0x10001, 0, 0, 0, 0x10000, 0, 0, 0] }, tmQueue := [31] }
     tmHead s.cores[0] = some 31 ∧ moverHeld s.cores[0] (tmDesc s.cores[0].tmSlots[31].dw) = false ∧ (copied s 0 (tmDesc s.cores[0].tmSlots[31].dw)).2 = false) ∧
    (let s := (writeMem up (scratchBase 0) (List.replicate 32 1) 1).1
     cpRuns s 0 = true ∧ physOf 0 24 = some (scratchBase 0 + 24) ∧ isPool (scratchBase 0 + 24) = false ∧
      storeOk s 0 (tileNo (scratchBase 0 + 24)) = true ∧ tileNo (scratchBase 0 + 24) = tileNo (scratchBase 0 + 31) ∧
      forbids s (some 0) true (scratchBase 0 + 24) 8 = false ∧
      (writeMem s (scratchBase 0 + 24) (List.replicate 8 2) (tagOn s 0)).2 = none ∧
      (tileOuts s 0).contains (tileNo (scratchBase 0 + 24)) = false) ∧
    (let s := (writeMem up (scratchBase 0) (List.replicate 64 1) 1).1
     min 8 (32 - (scratchBase 0 + 28) % 32) = 4 ∧ (writeMem s (scratchBase 0 + 28) (List.replicate 4 2) (tagOn s 0)).2 = none ∧
      (let v := storedTile (writeMem s (scratchBase 0 + 28) (List.replicate 4 2) (tagOn s 0)).1 0 (tileNo (scratchBase 0 + 28)) none
       (writeMem v (scratchBase 0 + 32) (List.replicate 4 2) (tagOn v 0)).2 = none)) ∧
    (let s := { up with poolGrants := [(0, 65536, 65536)] }
     cpRuns s 0 = true ∧ physOf 0 (poolCoreBase + 65536) = some 65536 ∧ isPool 65536 = true ∧ (poolCoreBase + 65536) % 64 = 0 ∧
      poolGranted s (ownerOn s 0) 65536 64 = true ∧ s.cores[0].tile = none ∧ forbids s (some 0) true 65536 64 = false) := by
  and_intros <;> decide +kernel

theorem wit_MailboxesAreFifos :
    (let s := onCore up 0 fun k => { k with bankA := { mboxIn := List.replicate 64 [], mboxInHeld := [[1]] } }
     cpRuns s 0 = true ∧ (bank s.cores[0]).mboxIn ≠ [] ∧ (bank s.cores[0]).mboxIn.length ≤ 64) ∧
    (let s := onCore up 0 fun k => { k with bankA := { mboxOutReg := (0x380103 : W32) :: List.replicate 15 0 }, tile := some {} }
     cpRuns s 0 = true ∧ entryType (bank s.cores[0]).mboxOutReg = 0x0103 ∧ entryLen (bank s.cores[0]).mboxOutReg ≤ 56 ∧
      s.cores[0].tile = some {}) ∧
    (let s := onCore up 0 fun k => { k with bankA := { mboxOutReg := (0x101 : W32) :: List.replicate 15 0, mboxOut := List.replicate 63 [] } }
     entryType (bank s.cores[0]).mboxOutReg = 0x0101 ∧ s.cores[0].tile = none ∧ s.cores[0].releasing = [] ∧ (bank s.cores[0]).mboxOut.length < 64) ∧
    (cpRuns up 0 = true ∧ up.cores[0].tile = none ∧ up.cores[0].releasing = [] ∧ (bank up.cores[0]).mboxOut = [] ∧ up.cores[0].left = []) ∧
    (let e : List W32 := (0x80001 : W32) :: List.replicate 15 0
     e.length = 16 ∧ entryType e = 1 ∧ entryLen e ≤ 56 ∧ bankHas (otherBank up.cores[0]) (Bytes.le (entryPayload e) 0 8) = false) ∧
    (let s := onCore up 0 fun k => { k with bankA := { prog := some { account := 1 } } }
     cpRuns s 0 = true ∧ (progOn s 0).isSome = true ∧ (cpLoads s 0 0x40000000).2 = false ∧
      (physOf 0 0x40000000).all (fun p => !mayRead s 0 p 4096) = true) := by
  and_intros <;> decide +kernel

/-- The elements of a register that nothing has written are zero. -/
theorem zero_reg (n : Nat) (r : Fin 32) : vVals {} 9 n r = List.replicate n (Num.dec 9 0) := by
  have k (a n j : Nat) : ((Mem.gets 0 [] a n).toArray.getD j 0) = (0 : Byte) := by
    have e : Mem.gets 0 [] a n = List.replicate n 0 := by simp [Mem.gets, Mem.get, List.map_const']
    rw [e, Array.getD]; split <;> simp
  have h (j : Nat) : ((({} : Bank).vregs.gets 0 (r.val * 4096) 4096).toArray.getD j 0) = 0 := k _ _ j
  unfold vVals vCodes
  simp only [h, show ∀ i, Num.elem 9 (fun _ => 0) i = 0 from fun _ => rfl]
  simp [List.map_const']

theorem wit_VectorArithmetic :
    (VecGoes up 0 1 ∧ elemOk .fma 9 = true ∧ elemOk .max 9 = true ∧ elemOk .min 9 = true ∧ elemOk .abs 9 = true ∧ elemCycles 9 = 1) ∧
    (let s := { up with maxRec := [(tileNo (scratchBase 0) + 2, { nrows := 3, rowmax := [1, 2, 3] })] }
     elemOk (.quantToken 6 [(0x20000, 2)]) 9 = true ∧ tokenRows s 0 [(0x20000, 2)] = true ∧ tokenRows s 0 [(0x20000, 3)] = false ∧ VecGoes s 0 1) ∧
    Num.dec 9 1 ≠ .nan ∧ Num.dec 9 0x80000000 ≠ .nan ∧
    (let s := onCore upTa 0 fun k => { k with tile := some { slot := 1, vec := 96 } }
     VecGoes s 0 4 ∧ ¬ VecGoes s 0 5) := by
  unfold VecGoes; and_intros <;> decide +kernel

theorem test_vector_function : (vVals (bank up.cores[0]) 9 1024 31).map (fnVal .exp2) = (List.replicate 1024 0x3F800000).map some := by
  have h : fnVal .exp2 (Num.dec 9 0) = some 0x3F800000 := by decide +kernel
  rw [show bank up.cores[0] = {} from rfl, zero_reg, List.map_replicate, List.map_replicate, h]

theorem wit_VectorReductionsStoresAndDraws :
    VecGoes up 0 1 ∧ (extreme ltVal [Num.dec 9 0, Num.dec 9 1]).isSome = true ∧
    (let v := vecCharged up 7 1
     physOf 7 0x10000 = some (scratchBase 7 + 0x10000) ∧ inTiles (scratchBase 7 + 0x10000) = true ∧
      tileNo (scratchBase 7 + 0x10000) = tileNo (scratchBase 7 + 0x10000 + 4095) ∧ storeOk v 7 (tileNo (scratchBase 7 + 0x10000)) = true ∧
      forbids v (some 7) true (scratchBase 7 + 0x10000) 4096 = false ∧
      (tileOuts v 7).contains (tileNo (scratchBase 7 + 0x10000)) = false) ∧
    VecGoes up 0 4 ∧ VecGoes up 0 16 := by
  unfold VecGoes; and_intros <;> decide +kernel

/-- A dispatch of kernel 0 by firmware, class 2. -/
def dsp : LampDispatch := { dw := (0x200 : W32) :: List.replicate 15 0, account := 1, seed := 0, core := none }

/-- A module that runs, with one context in cluster 47. -/
def upCx (x : Ctx) : State := onCluster up 47 fun k => { k with ctxs := [(511, x)] }

theorem wit_LampContextsStartAndRun :
    (dsp.dw.length = 16 ∧ dsp.core = none ∧ (lampFields dsp.dw).cls = 2 ∧
      (up.clusters[47].queue.any fun q => (lampFields q.dw).cls == 2) = false ∧ servedBy up 47 = 47 ∧
      ctxSlot (chargeLink up 1 none 64) up.clusters[47] 2 = some 0 ∧ ctxSlot up { up.clusters[47] with retired := true } 2 = none) ∧
    (∀ n ∈ [255, 256], let s := onCluster up 47 fun k => { k with queue := List.replicate n dsp }
     (s.clusters[47].queue.any fun q => (lampFields q.dw).cls == 2) = true ∧ s.clusters[47].queue.length = n) ∧
    (let s := onCore up 3 fun k => { k with tile := some { deferred := List.replicate 15 .doorbell } }
     cpRuns s 3 = true ∧ ownKernel s 3 0 = true ∧ (s.cores[3].tile.map (·.deferred.length)) = some 15) ∧
    (let s := onCluster up 47 fun k => { k with queue := [dsp] }
     nextDispatch s s.clusters[47] = some (0, 0) ∧ s.clusters[47].queue[0]? = some dsp) ∧
    (let s := upCx { state := cxReady, cls := 2 }
     (chooseCtx s s.clusters[47]).map (·.1) = some 511 ∧ pcOk s { state := cxReady, cls := 2 } = true ∧
      (fetchInsn s { state := cxReady, cls := 2 }).2 = true ∧ aluOf {} (.addi 1 2 3) = some (1, 3)) ∧
    (let x : Ctx := { state := cxWaiting, outstanding := 1, wait := [.flash 2 0 0, .pool 96 64] }
     let s := (writeMem (upCx x) 96 (List.replicate 32 5) 1).1
     s.clusters[47].ctxs.get? 511 = some x ∧ x.wait.find? (answers .flashPage) = some (.flash 2 0 0) ∧
      x.wait.find? (answers .flashFailed) = some (.flash 2 0 0) ∧ x.wait.find? (answers .poolRead) = some (.pool 96 64) ∧
      cxWaiting ≠ cxFault ∧ cxWaiting ≠ cxDone ∧
      (locPut (charge s x.account.toNat none fFlashRd 16384) x 0 (readMedia s 2 0 (min (1024 - 0) (16384 - 0 % 16384)))).2 = none ∧
      (readMem s (poolAt s x.core (wordAt 96)) 32 (tagOf s x.account.toNat)).2.toOption = some (List.replicate 32 5) ∧
      (locPut (chargePool s x.account.toNat fPoolRd 32) x 64 (List.replicate 32 5)).2 = none) ∧
    (let s := onCluster (upCx { state := cxWaiting }) 47 fun k => { k with units := [(3, [511, 2])] }
     unitHolding s.clusters[47] 511 = some 3 ∧ (s.clusters[47].units.getD 3 []).head? = some 511) ∧
    (let x : Ctx := { state := cxDone }
     (upCx x).clusters[47].ctxs.get? 511 = some x ∧ x.posted = false ∧ x.faultCode ≠ 3 ∧ x.outstanding = 0 ∧ x.core = none ∧ x.cmd = none) ∧
    (let x : Ctx := { state := cxFault, faultCode := 6, outstanding := 2 }
     (upCx x).clusters[47].ctxs.get? 511 = some x ∧ x.posted = false ∧ x.faultCode ≠ 3 ∧ x.outstanding ≠ 0) := by
  and_intros <;> decide +kernel

theorem wit_PartialRecordsMerge :
    (let s := begin_ up io 0x83
     (flightOf s io.key).isSome = true ∧ s.merges.find? (·.1 == io.key) = none ∧ (List.replicate 24 (0 : Byte)).length = 24) ∧
    (let s := { begin_ up io 0x83 with merges := [(io.key, {})] }
     s.merges.find? (·.1 == io.key) = some (io.key, {}) ∧ Num.mergeable {} (Num.recOfBytes (List.replicate 24 0)) = true ∧
      Num.mergeable {} (Num.recOfBytes (List.replicate 14 0 ++ List.replicate 10 0xFF)) = false) := by
  and_intros <;> decide +kernel

/-- A module that runs, with a namespace 4 of the format of KV and backing stores. -/
def upKv : State := { onPower up fun p => { p with bankOk := true } with nss := [(4, { account := 1, nsze := 2 ^ 20, flbas := 1, attached := true })] }

/-- An open session of account 1 on it, of one layer, one head of 32 elements. -/
def ss0 : Sess :=
  { state := sessOpen, account := 1, cls := 1, layers := 1, kvHeads := 1, qPerKv := 1, headDim := 32, kvNsid := 4, res := resWarm }

theorem wit_SessionsOpenMoveAndClose :
    (let e := { adm with nsid := 4, cdw10 := 64, inp := toLe 2 1 ++ [1, 1, 32, 1] ++ List.replicate 58 0 }
     let v := begin_ upKv e 0xC1
     let p := openP (Bytes.sub e.inp 0 64)
     Served upKv e 0xC1 true ∧ openRefuse v e p = none ∧ v.health.readOnly = false ∧ p.imp = false ∧ syncMode v = false ∧
      openReserve v e p.cls = false ∧ keyOpen v (acctOf e.fn) = true ∧ overQuota v (acctOf e.fn) (openBytes p.layers) = false ∧
      v.sess.firstFree 0 sessionSlots = some 0 ∧ freeSlots v ≠ 0 ∧
      freeSlots (begin_ (onChan upKv 47 fun c => { c with recs := [(2, 2 ^ 32)] }) e 0xC1) = 0) ∧
    (let e := { adm with cdw10 := 65535 }
     let s := { upKv with sess := [(65535, ss0)] }
     let v := classFor (begin_ s e 0xC4) e (cdw10Lo e)
     Served s e 0xC4 true ∧ sessFor v e.fn (cdw10Lo e) = some ss0 ∧ ss0.pendingMove = none ∧ ss0.inflight = 0 ∧
      keyOpen v 1 = true ∧ freeSlots v ≠ 0 ∧ syncMode v = false) ∧
    (let e := { adm with cdw10 := 5 }
     let s := { upKv with sess := [(5, { ss0 with inflight := 1 })] }
     Served s e 0xC4 true ∧ sessFor (classFor (begin_ s e 0xC4) e (cdw10Lo e)) e.fn (cdw10Lo e) = some { ss0 with inflight := 1 }) ∧
    (let e := { io with nsid := 4, cdw12 := 5, cdw13 := 0x20 }
     let s := { upKv with sess := [(5, ss0)] }
     let v := classFor (begin_ s e 0x90) e (cdw12Lo e)
     Served s e 0x90 false ∧ fieldOf e.cdw13.toNat 1 0 = 0 ∧ moveRefuse v e = none ∧
      v.sess.get? (cdw12Lo e) = some ss0 ∧ ss0.pendingMove = none ∧ ss0.cls ≠ 0 ∧ ss0.inflight = 0 ∧ fieldOf e.cdw13.toNat 5 4 = 2 ∧
      keyOpen v 1 = true ∧ freeSlots v ≠ 0 ∧ syncMode v = false) ∧
    (let e := { io with nsid := 4, cdw12 := 5, cdw13 := 0x01 }
     let s := { upKv with sess := [(5, { ss0 with inflight := 1 })], nss := [(4, { account := 1, nsze := 2 ^ 20, attached := true })] }
     let v := classFor (begin_ s e 0x90) e (cdw12Lo e)
     Served s e 0x90 false ∧ fieldOf e.cdw13.toNat 1 0 = 1 ∧ moveRefuse v e = none ∧
      v.sess.get? (cdw12Lo e) = some { ss0 with inflight := 1 } ∧ (nsFor v e.fn e.nsid).map (·.role) = some .plain ∧
      v.health.readOnly = false ∧ exportBlocks (bodyLen (bodyTiles ss0) ss0.extents.length) ≤ 2 ^ 20) := by
  unfold Served; and_intros <;> decide +kernel

/-- A table of account 1 of 16 rows of 8 codes on namespace 4. -/
def tb0 : Table := { account := 1, nsid := 4, rows := 16, dim := 8, kept := [1], gens := [(1, [])], sources := 2, spareRows := 2 }

theorem wit_FlightLogGetReturnsBytes :
    (let e := { adm with cdw10 := 5 * 65536, cdw11 := 4096 }
     let s := { upKv with sess := [(5, ss0)] }
     Served s e 0xCA true ∧ e.fuse = 0 ∧ e.cdw11.toNat ≤ e.dptr ∧ e.cdw11.toNat % 4 = 0 ∧ cdw10Op e = 0 ∧
      sessFor (begin_ s e 0xCA) e.fn (cdw10Hi e) = some ss0 ∧ keyOpen (begin_ s e 0xCA) 1 = true) ∧
    (let e := { adm with cdw10 := 1 }
     Served up e 0xCA true ∧ cdw10Op e = 1 ∧ e.cdw11.toNat % 4 = 0) ∧
    (let e := { adm with cdw10 := 2 + 65536 }
     let s := { upKv with tables := [(1, tb0)] }
     Served s e 0xCA true ∧ cdw10Op e = 2 ∧ tableFor (begin_ s e 0xCA) e.fn (cdw10Hi e) = some tb0) ∧
    (let e := { adm with cdw10 := 3 + 65536 * 9 }
     let s := { up with accounts := up.accounts.set 1 { probes := [(9, [1])] } }
     Served s e 0xCA true ∧ cdw10Op e = 3 ∧ (begin_ s e 0xCA).accounts[acctIx (acctOf e.fn)].probes.find? (·.1 == cdw10Hi e) = some (9, [1])) := by
  unfold Served; and_intros <;> decide +kernel

/-- A logged GATHER of row 0 of table 1, one bag of one index, and what it answered. -/
def lg0 : FlightEntry :=
  { opc := 0x8B, logSeq := 7, gen := 1, inp := List.replicate 68 0, out := List.replicate 64 0 }

theorem wit_ReplayComparesALoggedGather :
    (let x := { ss0 with flight := true, log := [lg0] }
     let s := { upKv with sess := [(5, x)], tables := [(0, tb0)] }
     let e := { io with cdw10 := 64, cdw11 := 64, cdw12 := 5, dptr := 8192, inp := toLe 8 7 ++ List.replicate 56 0 }
     let v := begin_ s e 0x93
     Served s e 0x93 false ∧ replayRefuse v e = none ∧ v.sess.get? (cdw12Lo e) = some x ∧ replayEntry x e = some lg0 ∧
      moveHolds x = false ∧ lg0.opc = 0x8B ∧ v.tables.get? (gatherP lg0.inp).table = some tb0 ∧ replayMode e = 0 ∧
      (readRows (gatherP lg0.inp).table tb0 1 (nameSession v e.key (cdw12Lo e)) (Bytes.les lg0.inp 64 4 (gatherP lg0.inp).nidx)).2 = true) := by
  unfold Served; and_intros <;> decide +kernel

/-- An ATTEND of layer 0, one query token, FP16 in and out, dense, with its query buffer of zeros. -/
def atE : Sqe :=
  { io with nsid := 4, cdw10 := 64 + 64, cdw11 := 64 + 68, cdw12 := 5, dptr := 8192, inp := toLe 2 0 ++ toLe 2 1 ++ [7, 7, 0, 0] ++ toLe 4 0x3F800000 ++ List.replicate 116 0 }

theorem wit_AttendRunsAndMerges :
    (let s := { upKv with sess := [(5, ss0)] }
     let v := begin_ s atE 0x83
     Served s atE 0x83 false ∧ attendRefuse v atE (attendP (inRegion atE)) false = none ∧ v.sess.get? (cdw12Lo atE) = some ss0 ∧
      moveHolds ss0 = false ∧ onCanopy v atE.key ss0 (attendP (inRegion atE)) = false ∧ v.map = [] ∧
      attendRefuse v { atE with cdw11 := 64 } (attendP (inRegion atE)) false = some Code.invalidField) ∧
    (let m : MoveReq := default
     moveHolds { ss0 with pendingMove := some m } = true) ∧
    (let j : AttendJob := { e := atE, session := 5, p := attendP (inRegion atE), selected := [[]] }
     let s := { begin_ upKv atE 0x83 with sess := [(5, ss0)], attends := [j] }
     s.attends.find? (fun j => j.e.key == atE.key) = some j ∧ s.sess.get? j.session = some ss0 ∧
      badUnit s ss0.kvNsid (blocksRead ss0 j) = none ∧ j.p.append = false ∧ ss0.cls ≠ 0) ∧
    (let j : AttendJob := { e := atE, session := 5, p := attendP (inRegion atE), view := 64, selected := [[0]] }
     let x := { ss0 with extents := [(0, false, false)], extPages := [0], layerTbl := [(0, { count := 64 })] }
     let s := { upKv with sess := [(5, x)], attends := [j], map := [(4 * 2 ^ 48, { st := .unrecovered })] }
     s.attends.find? (fun j => j.e.key == atE.key) = some j ∧ s.sess.get? j.session = some x ∧ badUnit s x.kvNsid (blocksRead x j) = some 0) := by
  unfold Served; and_intros <;> decide +kernel

/-- An index of account 1 on namespace 2, 32 FP8 elements, generation 1 holding one node and its pending changes one
more. -/
def nd0 : Node := { userId := 9, entry := true, vec := List.replicate 32 0, code := List.replicate 8 0 }
def ix0 : Index :=
  { account := 1, nsid := 2, vdim := 32, vfmt := 5, maxdeg := 8, csub := 8, nentries := 1, buildL := 8, alpha := 0x3C00, slots := 4, cur := 1, gens := [(1, { nodes := [(0, nd0)], entries := [0] })], pending := { nodes := [(0, nd0)], entries := [0] }, qslots := 1 }
def upIx : State := { upNs with indexes := [(6, ix0)] }

/-- A Pinned SEARCH for one neighbour of the zero vector in that index, with no predicate. -/
def seE : Sqe :=
  { io with nsid := 2, cdw10 := 128, cdw11 := 80, dptr := 8192, inp := [1, 7] ++ toLe 2 6 ++ toLe 4 0 ++ toLe 2 1 ++ toLe 2 8 ++ [1, 0, 0, 0] ++ toLe 2 8 ++ List.replicate 110 0 }

/-- A predicate of one step that accepts a record whose first byte is zero, and a SCAN with it. -/
def scE : Sqe :=
  { io with nsid := 2, cdw10 := 112, cdw11 := 4096, dptr := 8192, inp := [2, 7] ++ List.replicate 12 0 ++ [0, 12] ++ toLe 2 0 ++ toLe 2 48 ++ toLe 4 0 ++ toLe 8 4095 ++ toLe 8 1 ++ List.replicate 24 0 ++ [2] ++ List.replicate 15 0 ++ [1, 1] ++ List.replicate 30 0 }

theorem wit_SearchesAreTakenAndMerged :
    (let v := begin_ upIx seE 0x87
     let p := searchP (inRegion seE)
     Served upIx seE 0x87 false ∧ p.mode ≠ 2 ∧ queryRefuse v seE p = none ∧ indexFor v seE.fn p.index = some ix0 ∧ v.queryWait = [] ∧
      queryRefuse v { seE with cdw11 := 64 } p = some (Code.invalidField, 0)) ∧
    (let s := { upIx with queries := [{ index := 6 }] }
     ix0.qslots ≤ ((begin_ s seE 0x87).queries.filter (·.index == 6)).length ∧ (begin_ s seE 0x87).indexes.get? 6 = some ix0) ∧
    (let v := begin_ upNs scE 0x87
     let n : Ns := { account := 1, nsze := 4096, attached := true }
     let p := searchP (inRegion scE)
     Served upNs scE 0x87 false ∧ p.mode = 2 ∧ vendorRefuse scE = none ∧ nsFor v scE.fn scE.nsid = some n ∧ scanParamsOk n scE p = true ∧
      keyOpen v 1 = true ∧ unrecovered v 2 n (p.first * 2 ^ p.rsizeLog) (p.count * 2 ^ p.rsizeLog) = none) ∧
    (let q : Query := { e := seE, index := 6, gen := 1, p := searchP (inRegion seE), flying := [0], query := List.replicate 32 0, beam := [(0, 0, true)], visited := [0], lcur := 8, passBudget := 8 }
     let s := { begin_ upIx seE 0x87 with queries := [q] }
     runningQuery s seE.key = some (q, ix0) ∧ q.p.mode = 1 ∧ q.flying ≠ [] ∧ q.flying.any (walkerWaits s seE.key) = false ∧
      (let v := endWalkersOf (chargeReads s q q.flying.length) q.e.key fun _ => true
       badNode v ix0 q.gen q.flying = none ∧ (readCodes q.index ix0 v (newNeighbours ix0 q q.flying)).2 = []) ∧
      (mergeRound ix0 q).2.isSome = true ∧
      badNode (endWalkersOf (chargeReads { s with map := [(2 * 2 ^ 48, { st := .unrecovered })] } q 1) q.e.key fun _ => true) ix0 q.gen q.flying = some 0) ∧
    (let q : Query := { e := seE, index := 6, gen := 1, p := searchP (inRegion seE), flying := [0], query := List.replicate 32 0, beam := [(0, 0, true)], visited := [0], lcur := 8, passBudget := 8 }
     let x : Index := { ix0 with codebook := some {}, gens := [(1, { nodes := [(0, { nd0 with nbr := [1] }), (1, nd0)], entries := [0] })] }
     let s := { begin_ upIx seE 0x87 with queries := [q], indexes := [(6, x)], map := [(mapKey 2 (codesOff x / 4096), { st := .unrecovered })] }
     let v := endWalkersOf (chargeReads s q q.flying.length) q.e.key fun _ => true
     runningQuery s seE.key = some (q, x) ∧ badNode v x q.gen q.flying = none ∧
      (readCodes q.index x v (newNeighbours x q q.flying)).2 = [(1, codesOff x / 4096)]) ∧
    (let q : Query := { e := seE, index := 6, gen := 1, p := { searchP (inRegion seE) with mode := 0, timeBudget := 10 }, flying := [0], query := List.replicate 32 0, beam := [(0, 0, true)], visited := [0], lcur := 8, passBudget := 8 }
     let s := { begin_ upIx seE 0x87 with queries := [q] }
     runningQuery s seE.key = some (q, ix0) ∧ q.p.mode = 0 ∧ q.flying.contains 0 = true ∧ walkerWaits s seE.key 0 = false ∧
      (badNode s ix0 q.gen [0]).isSome = false ∧ q.p.timeBudget ≠ 0 ∧
      (readCodes q.index ix0 (endWalkersOf (chargeReads s q 1) q.e.key (· == 0)) (newNeighbours ix0 q [0])).2 = [] ∧
      (badNode { s with map := [(2 * 2 ^ 48, { st := .unrecovered })] } ix0 q.gen [0]).isSome = true ∧
      (nextOpen ix0 4 (openReply ix0 q 0 false [])).2.isSome = true ∧ (nextOpen ix0 4 (openReply ix0 q 0 true [])).2.isSome = true ∧
      (s.queries ++ s.queryWait).find? (fun q => q.e.key == seE.key) = some q ∧
      (([] : List Query) ++ [q]).find? (fun q => q.e.key == seE.key) = some q) := by
  unfold Served; and_intros <;> decide +kernel

theorem wit_IndexesAreManaged :
    (let e := { adm with nsid := 2, cdw10 := 1, cdw11 := 64, inp := toLe 2 32 ++ [5, 0, 8, 8, 1, 0] ++ toLe 2 8 ++ toLe 2 0x4000 ++ List.replicate 52 0 }
     let v := begin_ upNs e 0xC9
     let p := indexP (Bytes.sub e.inp 0 64)
     Served upNs e 0xC9 true ∧ cdw10Op e = 1 ∧ manageRefuse e = none ∧ e.cdw11 = 64 ∧ indexNsOk v e = true ∧ indexParamsOk p = true ∧ MemOk v ∧
      keyOpen v 1 = true ∧ v.indexes.firstFree 0 indexLimit = some 0 ∧ indexBytes (newIndex v 1 2 4096 p) ≤ regionFree v ∧
      overQuota v 1 (indexBytes (newIndex v 1 2 4096 p)) = false) ∧
    (let e := { adm with cdw10 := 2 + 65536 * 6, cdw11 := 16 + 208, inp := [7, 0] ++ toLe 2 0 ++ toLe 4 1 ++ List.replicate 216 0 }
     let v := begin_ upIx e 0xC9
     Served upIx e 0xC9 true ∧ cdw10Op e = 2 ∧ manageRefuse e = none ∧ indexFor v e.fn (cdw10Hi e) = some ix0 ∧ insertOk ix0 e = true) ∧
    (let e := { adm with cdw10 := 3 + 65536 * 6, cdw11 := 24, inp := toLe 4 1 ++ List.replicate 12 0 ++ toLe 8 9 }
     Served upIx e 0xC9 true ∧ cdw10Op e = 3 ∧ manageRefuse e = none ∧ e.cdw11.toNat = 16 + 8 * Bytes.le e.inp 0 4) ∧
    (let e := { adm with cdw10 := 4 + 65536 * 6 }
     let s := { upIx with indexes := [(6, { ix0 with dirty := true })] }
     Served s e 0xC9 true ∧ cdw10Op e = 4 ∧ manageRefuse e = none ∧ indexFor (begin_ s e 0xC9) e.fn (cdw10Hi e) = some { ix0 with dirty := true } ∧
      writeGenSlots (begin_ s e 0xC9) ix0 (genOf ix0 ix0.cur) ix0.pending ≤ freeSlots (begin_ s e 0xC9) ∧ ix0.dirty = false) ∧
    (let e := { adm with cdw10 := 5 + 65536 * 6 }
     let v := begin_ upIx e 0xC9
     Served upIx e 0xC9 true ∧ cdw10Op e = 5 ∧ (v.ingests.any (·.index == cdw10Hi e)) = false ∧
      (v.queries ++ v.queryWait).any (·.index == cdw10Hi e) = false) := by
  unfold Served; and_intros <;> decide +kernel

/-- A binding of that index to namespace 5, of program 3. -/
def bd0 : Ingest := { index := 6, srcNs := 5, account := 1, p := { (default : IngestP) with program := 3, chunkTokens := 16, commitChunks := 1, commitMs := 1, cls := 1 } }
def upBd : State :=
  { upPr with nss := [(2, { account := 1, nsze := 4096, attached := true, role := .index }), (5, { account := 1, nsze := 64, attached := true })], indexes := [(6, ix0)], ingests := [bd0] }

theorem wit_ProbesGenerationsAndIngest :
    (let e := { adm with nsid := 5, cdw10 := 6 + 65536 * 6, cdw11 := 64, inp := [0, 0, 3, 0] ++ toLe 2 16 ++ toLe 2 8 ++ toLe 4 1 ++ toLe 4 60000 ++ [3, 1] ++ List.replicate 46 0 }
     let s := { upBd with ingests := [] }
     let v := begin_ s e 0xC9
     Served s e 0xC9 true ∧ cdw10Op e = 6 ∧ manageRefuse e = none ∧ indexFor v e.fn (cdw10Hi e) = some ix0 ∧ e.cdw11 = 64 ∧
      bindParamsOk v e (ingestP (Bytes.sub e.inp 0 64)) = true ∧ v.ingests.any (·.index == cdw10Hi e) = false) ∧
    (let e := { adm with cdw10 := 7 + 65536 * 6 }
     let v := begin_ upBd e 0xC9
     Served upBd e 0xC9 true ∧ cdw10Op e = 7 ∧ v.ingests.find? (·.index == cdw10Hi e) = some bd0 ∧ bd0.current = none ∧ ix0.dirty = false) ∧
    (let e := { adm with cdw10 := 8 + 65536 * 6, cdw11 := 192, inp := toLe 2 1 ++ [0, 7] ++ List.replicate 60 0 ++ seE.inp.take 64 ++ List.replicate 64 0 }
     let v := begin_ upIx e 0xC9
     Served upIx e 0xC9 true ∧ cdw10Op e = 8 ∧ manageRefuse e = none ∧ probeOk ix0 e = true ∧ (probeP e).gen = 0 ∧
      badNode v ix0 1 ((genOf ix0 1).nodes.map (·.1)) = none ∧ ((genOf ix0 1).nodes.any fun n => !n.2.tomb) = true ∧
      (readRun v 6 ix0 ((List.range (probeN e)).map fun k => (wholePinned ix0 (probeQuery ix0 e 6 k)).1)).2 = none) ∧
    (let x := { ix0 with compactAt := some 0 }
     let s := { upIx with indexes := [(6, x)], tables := [(1, { kept := [1, 9], cur := 9 })] }
     s.indexes.get? 6 = some x ∧ writeGenSlots s x {} (genOf x x.cur) ≤ freeSlots s ∧ nextChunk s x = some 0 ∧ nextChunk s ix0 = none ∧
      retainedGen s 6 x 1 = true ∧ retainedGen s 6 { x with cur := 9 } 1 = false ∧
      retainedTab s 1 { kept := [1, 9], cur := 9 } 9 = true ∧ retainedTab s 1 { kept := [1, 9], cur := 9 } 1 = false) ∧
    (let seg : Segment := ⟨0, 4096, false⟩
     let s := { upBd with ingests := [{ bd0 with queue := [seg] }] }
     s.ingests.find? (·.index == 6) = some { bd0 with queue := [seg] } ∧ keyOpen s 1 = true ∧ seg.text = false) ∧
    (let seg : Segment := ⟨0, 4096, true⟩
     let s := { upBd with ingests := [{ bd0 with queue := [seg] }] }
     let im : Image := { account := 1, active := true, bytes := img, hash := hdrHash img }
     let n : Ns := { account := 1, nsze := 64, attached := true }
     s.nss.get? 5 = some n ∧ s.ctrls[(finOf? 128 (bd0.account - 1)).getD 0].programs.get? bd0.p.program = some im ∧
      unrecovered s 5 n 0 4096 = none ∧ (readyCore s none 0 false 1 im).2 = some 0) ∧
    (let seg : Segment := ⟨0, 4096, true⟩
     let g := { bd0 with current := some seg }
     let s := { upBd with ingests := [g] }
     s.ingests.find? (·.index == 6) = some g ∧ s.indexes.get? 6 = some ix0 ∧
      chunksOk ix0 seg [⟨4095, 1, List.replicate 32 0⟩] = true ∧ chunksOk ix0 seg [⟨4095, 2, List.replicate 32 0⟩] = false) ∧
    (let s := { upBd with ingests := [{ bd0 with sinceCommit := 1 }], indexes := [(6, { ix0 with dirty := true })] }
     s.ingests.find? (·.index == 6) = some { bd0 with sinceCommit := 1 } ∧ s.health.readOnly = false ∧
      writeGenSlots s ix0 (genOf ix0 ix0.cur) ix0.pending ≤ freeSlots s) := by
  unfold Served; and_intros <;> decide +kernel

/-- A module that runs, with that table on namespace 4. -/
def upTb : State := { upKv with tables := [(1, tb0)] }

theorem wit_TablesAreManagedAndServed :
    (let e := { adm with nsid := 4, cdw10 := 1, cdw11 := 64, inp := toLe 4 16 ++ toLe 2 8192 ++ [1, 2, 100] ++ List.replicate 55 0 }
     let v := begin_ upKv e 0xCD
     let p := tableP (Bytes.sub e.inp 0 64)
     Served upKv e 0xCD true ∧ cdw10Op e = 1 ∧ e.fuse = 0 ∧ e.cdw11 = 64 ∧ 64 ≤ e.dptr ∧ backingOk v e = true ∧ tableParamsOk p = true ∧
      (newTable 1 4 p).rows * rowSize (newTable 1 4 p) ≤ 2 ^ 20 * 4096 ∧ keyOpen v 1 = true ∧ v.tables.firstFree 0 tableLimit = some 0 ∧
      tableBytes (newTable 1 4 p) ≤ regionFree v ∧ overQuota v 1 (tableBytes (newTable 1 4 p)) = false) ∧
    (let e := { adm with cdw10 := 2 + 65536, cdw11 := 40, inp := toLe 4 1 ++ List.replicate 12 0 ++ toLe 8 15 ++ List.replicate 16 0 }
     let v := begin_ upTb e 0xCD
     Served upTb e 0xCD true ∧ cdw10Op e = 2 ∧ manageRefuse e = none ∧ tableFor v e.fn (cdw10Hi e) = some tb0 ∧ Bytes.le e.inp 4 1 = 0 ∧
      writeRowsOk tb0 e 1 0 = true ∧ tb0.openStep = none ∧ spareFits v 1 tb0 1 = true) ∧
    (let e := { adm with cdw10 := 3 + 65536 }
     let t := { tb0 with pending := [(15, List.replicate 12 1)] }
     let s := { upKv with tables := [(1, t)] }
     Served s e 0xCD true ∧ cdw10Op e = 3 ∧ tableFor (begin_ s e 0xCD) e.fn (cdw10Hi e) = some t ∧ publishSlots (begin_ s e 0xCD) t t.pending ≤ freeSlots (begin_ s e 0xCD) ∧
      tableFor (begin_ upTb e 0xCD) e.fn (cdw10Hi e) = some tb0 ∧ tb0.pending = []) ∧
    (let e := { adm with cdw10 := 4 + 65536 }
     let t := { tb0 with openStep := some 1 }
     let s := { upKv with tables := [(1, t)] }
     Served s e 0xCD true ∧ cdw10Op e = 4 ∧ tableFor (begin_ s e 0xCD) e.fn (cdw10Hi e) = some t ∧ cdw10Op { e with cdw10 := 5 + 65536 } = 5) ∧
    (let e := { adm with cdw10 := 5 + 65536 }
     let gh := { io with cid := 9 }
     let s := begin_ upTb gh 0x8B
     Served s e 0xCD true ∧ manageRefuse e = none ∧ tableFor (begin_ s e 0xCD) e.fn (cdw10Hi e) = some tb0 ∧
      ((begin_ s e 0xCD).inflight.any fun f => acctOf f.key.fn == tb0.account && f.tabGens.has (cdw10Hi e)) = true ∧
      ((begin_ upTb e 0xCD).inflight.any fun f => acctOf f.key.fn == tb0.account && f.tabGens.has (cdw10Hi e)) = false) ∧
    (let e := { io with cdw10 := 72, cdw11 := 4096, dptr := 8192, inp := toLe 2 1 ++ [0, 9] ++ toLe 4 0 ++ toLe 4 1 ++ List.replicate 52 0 ++ toLe 4 15 ++ toLe 4 0 }
     let v := begin_ upTb e 0x8B
     Served upTb e 0x8B false ∧ gatherRefuse v e (gatherP (inRegion e)) = none ∧ v.tables.get? 1 = some tb0 ∧
      (readRows 1 tb0 1 v [15, 0]).2 = true ∧
      (readRows 1 tb0 1 { v with map := [(4 * 2 ^ 48, { st := .unrecovered })] } [15, 0]).2 = false ∧
      gatherRefuse v { e with cdw11 := 64 } (gatherP (inRegion e)) = some (Code.invalidField, 0)) ∧
    (tb0.window < hotWindow upTb ∧ hotWindow upTb ≤ { tb0 with window := 2 ^ 20 }.window) ∧
    (let e := { io with cdw10 := 64 + 40, cdw11 := 0, cdw12 := 1, dptr := 8192, inp := toLe 8 1 ++ [1, 0, 9, 0] ++ toLe 4 0 ++ toLe 4 1 ++ List.replicate 44 0 ++ toLe 8 15 ++ List.replicate 32 0 }
     let v := begin_ upTb e 0x8D
     let p := scatterP (inRegion e)
     Served upTb e 0x8D false ∧ vendorRefuse e = none ∧ tableFor v e.fn (cdw12Lo e) = some tb0 ∧ scatterParamsOk tb0 e p = true ∧
      stepFits tb0 p = some true ∧ stepRoom v 1 tb0 { e := e, p := p, entries := (List.range p.nidx).map (scatterVals tb0 p (inRegion e)) } = true ∧
      stepFits { tb0 with openStep := some 0 } p = some false ∧ stepFits { tb0 with openStep := some 1, srcs := [(1, default)] } p = none) := by
  unfold Served; and_intros <;> decide +kernel

/-- A Hot session of class `c` on core 0. -/
def hs (c : BitVec 2) : Sess := { ss0 with cls := c, res := resHot, grant := 1, grantMe := 4 }

/-- A bank whose saved registers belong to a program. -/
def bk0 : Bank := { prog := some { account := 1 } }

theorem wit_CoresAreSharedByTurns :
    (let s := { upKv with sess := [(5, hs 1)] }
     s.sess.get? 5 = some (hs 1) ∧ (hs 1).state = sessOpen ∧ (hs 1).res = resHot ∧ (hs 1).inflight = 0 ∧ (hs 1).cls ≠ 0 ∧ (hs 1).pin = false) ∧
    (let x := { ss0 with cls := 0 }
     let s := { upKv with sess := [(5, x)], dict := { vals := [(0x401004, 0x80)] } }
     let v := (makeHot s 5).1
     s.sess.get? 5 = some x ∧ x.state = sessOpen ∧ x.cls = 0 ∧ (v.sess.get? 5).map (fun y => bitOf y.grant.toNat 7) = some true ∧
      v.cores[7].useB = false ∧ v.cores[7].bankB.prog = none ∧ v.cores[7].tile = none ∧ v.cores[7].switching = none) ∧
    (∃ s : State, s.cores[7].switching = some none ∧ s.cores[7].level = .lit) ∧
    (let s := { onCore upKv 7 fun k => { k with switching := some (some 5) } with sess := [(5, hs 1)] }
     s.cores[7].switching = some (some 5) ∧ s.cores[7].level = .lit ∧ (s.sess.get? 5).isSome = true) ∧
    (let s := { onCore upKv 0 fun k => { k with turns := [5, 6], bankA := { session := some 5, prog := some { account := 1 } } } with
        sess := [(5, hs 1), (6, { hs 1 with ctxSaved := some bk0 })] }
     s.cores[0].tile = none ∧ s.cores[0].switching = none ∧ s.cores[0].useB = false ∧ s.cores[0].bankA.session = some 5 ∧
      s.sess.get? 5 = some (hs 1) ∧ (nextDue (addOverrun s 5 9) s.cores[0]).map (·.1) = some 6) := by
  refine ⟨?_, ?_, ⟨onCore up 7 fun k => { k with switching := some none }, ?_⟩, ?_, ?_⟩
  all_goals and_intros <;> decide +kernel

/-- With no unbinding in progress, none ends. -/
theorem finishLocks_none (s : State) (h : ∀ i < 129, s.accounts[acctIx i].locking = false) : finishLocks s = s := by
  have key : ∀ l : List Nat, (∀ i ∈ l, i < 129) → l.foldl finishLock s = s := by
    intro l
    induction l with
    | nil => intro _; rfl
    | cons a l ih =>
      intro hl
      have ha : finishLock s a = s := if_pos (by rw [h a (hl a List.mem_cons_self)]; rfl)
      rw [List.foldl_cons, ha]
      exact ih fun i hi => hl i (List.mem_cons_of_mem _ hi)
  exact key _ fun i hi => List.mem_range.mp hi

/-- A module whose account 1 waits for its tag. -/
def upBind : State := { up with accounts := up.accounts.set 1 {} }

theorem wit_AccountsTagsAndScrubs :
    (1 : Nat) ≠ 0 ∧ (128 : Fin 129).val ≠ 0 ∧
    (finishLocks upBind = upBind ∧ bindable upBind 1 = true ∧ (firstTag upBind upBind.accounts[1].tk 0 (2 ^ 32)).isSome = true) ∧
    57 < arrayCount ∧ ∀ i < 129, up.accounts[acctIx i].bindWait = false := by
  refine ⟨by decide +kernel, by decide +kernel, ⟨finishLocks_none _ ?_, ?_, ?_⟩, ?_, ?_⟩ <;> decide +kernel

theorem wit_RegistersDoorbellsAndFetches :
    cpRuns up 7 = true ∧ up.power.linkUp = true ∧
    (let s := onCtrl up 0 fun c => { c with cqs := [(1, { size := 4, posted := List.replicate 3 {}, waiting := [{ sqid := 1, cid := 7 }] })] }
     reachable up 0 = true ∧ up.ctrls[0].ccEn = true ∧ (up.ctrls[0].sqs.get? 1).isSome = true ∧
      s.ctrls[0].cqs.get? 1 = some { size := 4, posted := List.replicate 3 {}, waiting := [{ sqid := 1, cid := 7 }] } ∧
      freedBy 4 0 3 3 = some 3 ∧ freedBy 4 0 3 0 = some 0) ∧
    (let s := { onCtrl up 0 fun c => { c with sqs := c.sqs.mod 1 fun q => { q with tail := 3 } } with visit := some (0, 1, 1) }
     openVisit s = some (0, 1, 1) ∧ flightOf s ⟨0, 1, 5⟩ = none ∧ s.ctrls[0].abortRecs = [] ∧
      opcodeTaken ⟨0, 1, 5⟩ 0x02 = true ∧ opcodeTaken ⟨0, 1, 5⟩ 0x19 = false ∧ opcodeTaken ⟨0, 0, 5⟩ 0x18 = false) := by
  and_intros <;> decide +kernel

/-- A read of a page on a die, with its command. -/
def rd0 : NandOp := { kind := .read, cls := 3, ladder := false, block := 1655, addr := 60, nsid := 2, iu := 0, cmd := some ⟨0, 1, 5⟩ }
def pg0 : NandOp := { rd0 with kind := .program [9] false }
def er0 : NandOp := { rd0 with kind := .erase, cmd := none }
/-- A module that runs, with an operation on die 15 of channel 47. -/
def upDie (o : NandOp) : State := onChan up 47 fun c => { c with dieActive := [(15, o)] }

/-- The metadata of an operation's codeword names a unit. -/
def wordOf (o : NandOp) (iu : Nat) (s : State) : State := onChan s 47 fun c => { c with words := [(o.addr, 2, iu, 0)] }

theorem wit_NandOperationsEnd :
    (metaFits (wordOf rd0 0 (upDie rd0)) (wordOf rd0 0 (upDie rd0)).channels[47] rd0 = true ∧
      metaFits (wordOf rd0 1 (upDie rd0)) (wordOf rd0 1 (upDie rd0)).channels[47] rd0 = false) ∧
    (let o := { rd0 with ladder := true }
     let s := onChan (wordOf rd0 1 (upDie o)) 47 fun c => { c with ladders := [(60, { step := 4 })] }
     s.channels[47].dieActive.get? 15 = some o ∧ s.channels[47].ladders.get? o.addr = some { step := 4 } ∧
      4 ≤ lastStep s.channels[47] o.block ∧ metaFits s s.channels[47] o = false) ∧
    ((upDie rd0).channels[47].dieActive.get? 15 = some rd0 ∧ writes rd0 = false ∧ rd0.ladder = false ∧ rd0.cmd = some ⟨0, 1, 5⟩) ∧
    (let s := onChan (upDie rd0) 47 fun c => { c with ladders := [(60, {})] }
     s.channels[47].dieActive.get? 15 = some rd0 ∧ s.channels[47].ladders.has rd0.addr = true) ∧
    ((upDie pg0).channels[47].dieActive.get? 15 = some pg0 ∧ pg0.kind = .program [9] false) ∧
    ((upDie er0).channels[47].dieActive.get? 15 = some er0 ∧ er0.kind = .erase ∧ (blockOf (upDie er0).channels[47] 1655).group = none) := by
  and_intros <;> decide +kernel

theorem wit_FlashIsPreemptedAndFails :
    (let op : NandOp := { rd0 with cls := 0 }
     op.cls = 0 ∧ writes op = false ∧ bitOf (upDie pg0).channels[47].failedDies.toNat 15 = false ∧ flashUp (upDie pg0) = true ∧
      (upDie pg0).channels[47].dieActive.get? 15 = some pg0 ∧ writes pg0 = true) ∧
    (onChan up 0 fun c => { c with ladders := [(60, {})] }).channels[0].ladders.get? 60 = some {} ∧
    (let s := { onChan up 0 fun c => { c with unit := [9], groups := [(0, { members := [1655] })], blocks := [(1655, { state := .opened, group := some 0 })] } with slots := [(9, {})] }
     s.channels[0].destageHeld = false ∧ s.channels[0].unit ≠ [] ∧ s.channels[0].recs = [] ∧
      (programUnit s 0 (s.channels[0].unit.take 48)).2 = true) ∧
    (let s := onChan up 0 fun c => { c with unit := [9], groups := (List.range 8).map fun i => (i, { members := [i], move := true }), blocks := (List.range 8).map fun i => (i, { state := .opened }) }
     (programUnit s 0 (s.channels[0].unit.take 48)).2 = false) ∧
    (let s := onChan up 0 fun c => { c with recs := [(1, 16)], groups := [(0, { members := [1621], sys := true })], blocks := [(1621, { state := .opened, group := some 0, sys := true })] }
     s.channels[0].destageHeld = false ∧ s.channels[0].recs ≠ [] ∧
      (programIn s 0 true (decide (sumNat (s.channels[0].recs.map (·.2)) < unitBytes)) [] (cutRecs unitBytes s.channels[0].recs).1).2 = true) ∧
    bitOf up.channels[0].failedDies.toNat 15 = false := by
  and_intros <;> decide +kernel

theorem wit_BlocksAreVerifiedAndMovesCommit :
    (let s := onChan up 0 fun c => { c with blocks := [(26495, { state := .closed })] }
     26495 < blocksPerChannel ∧ (blockOf s.channels[0] 26495).state = .closed ∧ (blockOf s.channels[0] 26495).group = none ∧
      (blockOf s.channels[0] 26495).strikes = 0 ∧ [⟨0, .decoded 0 0 0⟩].all (pagePasses s) = true ∧ [⟨0, .failedStep0⟩].all (pagePasses s) = false) ∧
    (let m : Move := { src := 1, target := 26495 }
     let s := onChan up 0 fun c => { c with blocks := [(26495, { state := .verified })], moves := [m] }
     (blockOf s.channels[0] 26495).state = .verified ∧ s.channels[0].moves.filter (fun m => m.target == 26495) = [m]) ∧
    (let s := onChan up 0 fun c => { c with blocks := [(26495, { state := .closed })] }
     (dataBlocks s.channels[0]).contains 26495 = true ∧ blockAt (26495 * 9216 * 4) = 26495) ∧
    journalLimit ≤ (onChan up 0 fun c => { c with journal := 2 ^ 28 }).channels[0].journal ∧
    up.channels[0].journal < journalLimit ∧ checkpointUnits up = 0 ∧ writtenBlocks up.channels[0] true = [] := by
  and_intros <;> decide +kernel

theorem blockOf_empty (c : Channel) (h : c.blocks = []) (b : Nat) : (blockOf c b).erases = 0 := by
  simp [blockOf, h]; rfl

theorem bestBlock_some (f : Nat → Nat → Bool) (l : List Nat) (h : l ≠ []) : (bestBlock f l).isSome = true := by
  have key : ∀ (l : List Nat) (o : Option Nat), o.isSome = true ∨ l ≠ [] →
      (l.foldl (fun a b => match a with | none => some b | some x => if f b x then some b else some x) o).isSome = true := by
    intro l
    induction l with
    | nil => intro o h; exact h.elim id fun h => absurd rfl h
    | cons a l ih => intro o _; refine ih _ (.inl ?_); cases o <;> simp only <;> (try split) <;> rfl
  exact key l none (.inr h)

theorem foldl_min_le (l : List Nat) (x y : Nat) (h : x ∈ l ∨ y ≤ x) : l.foldl min y ≤ x := by
  induction l generalizing y with
  | nil => simpa using h
  | cons a l ih =>
    refine ih _ ?_
    rcases h with h | h
    · exact (List.mem_cons.mp h).elim (fun e => .inr (e ▸ Nat.min_le_right _ _)) .inl
    · exact .inr (Nat.le_trans (Nat.min_le_left _ _) h)

theorem le_foldl_max (l : List Nat) (x y : Nat) (h : x ∈ l ∨ x ≤ y) : x ≤ l.foldl max y := by
  induction l generalizing y with
  | nil => simpa using h
  | cons a l ih =>
    refine ih _ ?_
    rcases h with h | h
    · exact (List.mem_cons.mp h).elim (fun e => .inr (e ▸ Nat.le_max_right _ _)) .inl
    · exact .inr (Nat.le_trans h (Nat.le_max_left _ _))

/-- A module that runs, with a data block 7 never erased and a free block 8 erased 5,000 times. -/
def upWear : State := onChan up 0 fun c => { c with blocks := [(7, { state := .closed }), (8, { erases := 5000 })] }

/-- The erase counts of its blocks. -/
def wearL : List Nat := (servingBlocks upWear.channels[0]).map fun b => (blockOf upWear.channels[0] b).erases

theorem serving (b : Nat) (hb : b < blocksPerChannel)
    (h : (inService b && (blockOf upWear.channels[0] b).state != .retired) = true) : b ∈ servingBlocks upWear.channels[0] :=
  List.mem_filter.mpr ⟨List.mem_range.mpr hb, h⟩

theorem wit_BlocksAreChosenForMoves :
    (let s := onChan up 0 fun c => { c with blocks := [(7, { state := .closed })], collecting := true }
     s.channels[0].collecting = true ∧ victim s 0 = some 7) ∧
    (let s := onChan up 0 fun c => { c with blocks := [(7, { state := .closed })], refreshList := [7] }
     s.channels[0].refreshList = [7] ∧ (blockOf s.channels[0] 7).state ≠ .opened) ∧
    (∀ a b, (blockOf up.channels[0] b).erases ≤ (blockOf up.channels[0] a).erases + dv up 0x303001) ∧
    (let er (b : Nat) : Nat := (blockOf upWear.channels[0] b).erases
     upWear.channels[0].moves = [] ∧ dv upWear 0x303001 < maxNat wearL - wearL.foldl min (maxNat wearL) ∧
      bestBlock (fun b x => decide (er b < er x)) (dataBlocks upWear.channels[0]) = some 7 ∧
      (bestBlock (fun b x => decide (er x < er b))
        ((servingBlocks upWear.channels[0]).filter fun b => (blockOf upWear.channels[0] b).state == .free)).isSome = true) := by
  refine ⟨by decide +kernel, by decide +kernel, fun a b => ?_, by decide +kernel, ?_, by decide +kernel, bestBlock_some _ _ ?_⟩
  · rw [blockOf_empty _ (by decide +kernel)]; exact Nat.zero_le _
  · have hi : 5000 ≤ maxNat wearL :=
      le_foldl_max _ _ _ (.inl (List.mem_map.mpr ⟨8, serving 8 (by decide) (by decide +kernel), by decide +kernel⟩))
    have lo : wearL.foldl min (maxNat wearL) ≤ 0 :=
      foldl_min_le _ _ _ (.inl (List.mem_map.mpr ⟨7, serving 7 (by decide) (by decide +kernel), by decide +kernel⟩))
    have d : dv upWear 0x303001 < 5000 := by decide +kernel
    omega
  · exact List.ne_nil_of_mem (List.mem_filter.mpr ⟨serving 8 (by decide) (by decide +kernel), by decide +kernel⟩)


/-- Records leave the buffer's own list with a program of the system area, which holds their slot until it passes (R317). -/
theorem test_records_go_with_their_program :
    (let s := onChan up 0 fun c => { c with recs := [(1, 16)], groups := [(0, { members := [1621], parity := 3277, sys := true })], blocks := [(1621, { state := .opened, group := some 0, sys := true })] }
     let end_ (o : Host.Outcome State Fault Refusal) : State := match o with | .next t => t | _ => s
     let t := end_ (exec (.destageTimeout 0) s)
     let u := end_ (exec (.nandProgramComplete 0 0 true) t)
     t.channels[0].recs = [] ∧ recSlots t = 1 ∧ recSlots u = 0 ∧ u.channels[0].journal = 16) := by
  decide +kernel

/-- A whole code-flash sequence from outside the array, and the address of the array's last word. -/
def cfx : CfCtx := { core := true, cycles := 6, wide := true, fromArray := false, fetchBetween := false }
def cfEnd : W32 := BitVec.ofNat 32 (cfBase + cfBytes - 4)

theorem wit_CodeFlashSequencesAndOperations :
    (cfx.core = true ∧ { cfx with core := false }.core = false ∧ cfx.wide = true ∧ cfx.fromArray = false ∧ cfx.fetchBetween = false ∧ 6 ≤ cfx.cycles ∧ up.cf.op = .idle ∧ up.cf.seq = [] ∧
      up.cf.suspProg = none ∧ up.cf.suspErase = none ∧ cfOffset cfEnd.toNat = some 8388604 ∧ 8388604 % 4 = 0) ∧
    (let s := { up with cf := { up.cf with rgn := up.cf.rgn.set 7 (BitVec.ofNat 64 (1 + 4 + 2047 * 2 ^ 8 + 2047 * 2 ^ 19)) } }
     cfCovered s 2 (8388604 / cfSector) = true ∧ cfCovered s 2 (8384511 / cfSector) = false) ∧
    (let s := { up with cf := { up.cf with arr := [(8388607, 0)] } }
     cfCovered s 2 (8388604 / cfSector) = false ∧ cfRead s 8388604 4 ≠ [0xFF, 0xFF, 0xFF, 0xFF]) ∧
    (cfCovered up 2 (8388604 / cfSector) = false ∧ cfRead up 8388604 4 = [0xFF, 0xFF, 0xFF, 0xFF] ∧
      (cfSectors true 8388604).any (cfCovered up 2) = false) ∧
    (cfx.wide = true ∧ cfx.cycles ≠ 0 ∧ cfOffset cfEnd.toNat = some 8388604 ∧
      (∃ s : State, s.cf.op = .sectorErase ∧ s.cf.readWait = []) ∧
      (∃ s : State, s.cf.op = .idle ∧ s.cf.seq = [] ∧ s.cf.suspProg = some (8388604, 7)) ∧ (∃ s : State, s.cf.op = .idle ∧ s.cf.seq.length ≤ 2) ∧
      (∃ s : State, s.cf.op = .program ∧ s.cf.readWait = [] ∧ Mem.wf 0xFF s.cf.arr = true)) ∧
    (cfSuspendedAt up 8388604 = false ∧ cfCovered up 1 (8388604 / cfSector) = false ∧ up.cf.cut.contains (8388604 / 4) = false) := by
  refine ⟨?_, ?_, ?_, ?_, ⟨rfl, by decide, ?_, ⟨{ up with cf := { op := .sectorErase } }, rfl, rfl⟩,
    ⟨{ up with cf := { suspProg := some (8388604, 7) } }, rfl, rfl, rfl⟩, ⟨up, rfl, by decide +kernel⟩,
    ⟨{ up with cf := { op := .program } }, rfl, rfl, rfl⟩⟩, ?_⟩
  all_goals decide +kernel

/-- A module that runs, with a secured session of function 0's mailbox and account 1 as given. -/
def upTk (a : Account) : State := { up with spdm := [(0, { sessions := [(1, none, true)], nextId := 2 })], accounts := up.accounts.set 1 a }

/-- The tenant key secret of the messages below. -/
def sec0 : Bytes := List.replicate 32 7

theorem wit_TenantKeyMessages :
    (finishLocks (upTk { mode1 := true }) = upTk { mode1 := true } ∧ endpointUp (upTk { mode1 := true }) (.doe 0) = true ∧
      (upTk { mode1 := true }).accounts[acctIx (acctOf 0)].waitKop = 0 ∧
      securedOn (upTk {}) (.doe 0) none = false ∧ securedOn (upTk {}) (.doe 0) (some 2) = false ∧ securedOn (upTk {}) (.doe 0) (some 1) = true) ∧
    (let s := { upTk { locking := true, waitKop := 4 } with cores := up.cores.set 0 { bankA := { prog := some { account := 1 } } } }
     s.accounts[acctIx (acctOf 0)].waitKop ≠ 0 ∧ acctBusy s 1 = true ∧
      ∀ i < 129, s.accounts[acctIx i].locking = true → acctBusy s i = true) ∧
    (let a : Account := { mode1 := true, opened := false, fails := 8, verifier := 0 :: tenantVerifier sec0 }
     (upTk a).sanitizing = false ∧ a.mode1 = true ∧ a.opened = false ∧ 8 ≤ a.fails) ∧
    (let a : Account := { mode1 := true, opened := false, fails := 7, verifier := 0 :: tenantVerifier sec0 }
     a.fails < 8 ∧ tenantVerifier sec0 ≠ a.verifier) ∧
    (let a : Account := { mode1 := true, opened := false, fails := 7, verifier := tenantVerifier sec0 }
     a.fails < 8 ∧ tenantVerifier sec0 = a.verifier) ∧
    (let a : Account := { mode1 := true }
     a.mode1 = true ∧ a.opened = true ∧ acctBusy (upTk a) (acctOf 0) = false ∧
      acctBusy { upTk a with cores := up.cores.set 0 { bankA := { prog := some { account := 1 } } } } (acctOf 0) = true) ∧
    (1 : Byte).toNat ≤ 1 := by
  refine ⟨⟨finishLocks_none _ ?_, ?_, ?_, ?_, ?_, ?_⟩, ⟨?_, ?_, ?_⟩, ⟨?_, rfl, rfl, by decide⟩,
    ⟨by decide, fun h => by simpa using congrArg List.length h⟩, ⟨by decide, by dsimp only⟩, ⟨rfl, rfl, ?_, ?_⟩, by decide⟩
  all_goals decide +kernel

/-- A module that runs, with no key exchanged, with one that waits for FINISH, and with two sessions. -/
def upSp (l : List (Nat × Option Bytes × Bool)) : State := { up with spdm := [(128, { sessions := l, nextId := 3 })] }

theorem wit_SessionsOwnersAndTheLink :
    (endpointUp (upSp []) .mctp = true ∧ endpointUp up (.nvme 0) = true ∧ (spdmOf (upSp [(1, none, true)]) .mctp).sessions.length < 2) ∧
    2 ≤ (spdmOf (upSp [(1, none, true), (2, none, true)]) .mctp).sessions.length ∧
    ((spdmOf (upSp [(1, none, false)]) .mctp).sessions.any fun y => !y.2.2) = true ∧
    (securedOn (upSp [(1, none, true)]) .mctp (some 1) = true ∧ rights (upSp [(1, none, true)]) mgr = true) ∧
    (pilotPowered up = true ∧ up.fw.pilotUp = true ∧ up.fw.recovery = false ∧ (List.replicate 408 (0 : Byte)).length = 408) ∧
    (ownerResult up ([3, 0, 0, 0, 1, 0, 0, 0] ++ List.replicate 400 0)).isSome = true ∧
    (endpointUp up (.doe 0) = true ∧ rightsOn up (.doe 0) none = false ∧ rightsOn (upTk {}) (.doe 0) (some 1) = true) ∧
    (let s := { up with ide := (up.ide.set 0 { keyed := true, secure := true }).set 8 { keyed := true, secure := true, vfs := [127] }
                        accounts := up.accounts.set 128 { tdi := .run } }
     s.ide[0].secure = true ∧ s.ide[8].secure = true ∧ carries s 8 127 = true ∧ carries s 0 127 = false ∧ carries s 0 1 = true ∧
      tdiLocked s 127 = true ∧ carried s 127 = true ∧ carried s 1 = false) ∧
    (let s := { onCtrl up 127 fun c => { c with enabled := true } with accounts := up.accounts.set 128 { tdi := .configLocked } }
     s.ctrls[127].enabled = true ∧ s.accounts[acctIx (acctOf 1)].tdi = .configUnlocked ∧ s.accounts[acctIx (acctOf 127)].tdi = .configLocked) := by
  and_intros <;> decide +kernel

/-- A READ of one object, and the same without its item. -/
def pduR : Bytes := [1, 1, 0, 0, 0, 0, 24, 0] ++ List.replicate 8 0 ++ [0x10, 0x50, 1, 0, 0, 0, 0, 0]
def pduW : Bytes := [2, 1, 0, 0, 0, 0, 28, 0] ++ List.replicate 8 0 ++ [0x10, 0x40, 0, 0, 4, 0, 0, 0, 0, 1, 0, 0]

theorem wit_WaoriRequestsAreAnswered :
    pilotPowered up = true ∧ up.fw.recovery = false ∧ (up.fw.pilotUp || up.fw.recovery && up.fw.activating != 3) = true ∧
    (let s := { up with fw := { pilotUp := false, recovery := true } }
     (s.fw.pilotUp || s.fw.recovery && s.fw.activating != 3) = true) ∧
    (let s := { up with fw := { pilotUp := false, recovery := true, activating := 3 } }
     s.fw.pilotUp = false ∧ s.fw.activating = 3) ∧
    (let s := { up with fw := { pilotUp := false } }
     s.fw.pilotUp = false ∧ s.fw.recovery = false) ∧
    parsePdu (pduR.take 16) = none ∧ (parsePdu pduR).isSome = true ∧ Bytes.le pduR 0 1 ≠ 2 ∧
    (Bytes.le pduW 0 1 = 2 ∧ ∃ x, parsePdu pduW = some [x]) ∧
    (let e := { adm with cdw11 := 0xC0, inp := pduR }
     Served up e 0x1D true ∧ e.fn = 0 ∧ miOpcode e = 0xC0 ∧ (begin_ up e 0x1D).ctrls[e.fn].miResponse = none) ∧
    (let e := { adm with cdw11 := 0xC0 }
     let s := onCtrl up 0 fun c => { c with miResponse := some [1] }
     Served s e 0x1E true ∧ e.fn = 0 ∧ miOpcode e = 0xC0 ∧ (begin_ s e 0x1E).ctrls[e.fn].miResponse = some [1]) := by
  unfold Served
  refine ⟨?_, ?_, ?_, ?_, ?_, ?_, ?_, ?_, ?_, ⟨?_, _, rfl⟩, ?_, ?_⟩ <;> and_intros <;> decide +kernel

/-- A module that runs, with a manager's staged set. -/
def upSt (l : Tab Nat) : State := { upM with dict := { staged := [{ source := 12, items := l }] } }

theorem wit_StagedSetsAreCommitted :
    (pilotPowered upM = true ∧ upM.fw.pilotUp = true ∧ upM.fw.recovery = false ∧ mgr.via ≠ .port) ∧
    ((2 : W64).toNat ≠ upM.dict.epoch ∧ (1 : W64).toNat = upM.dict.epoch ∧ stagedOf upM (srcKey mgr) = []) ∧
    (stagedOf (upSt [(0x106001, 4096)]) (srcKey mgr) = [(0x106001, 4096)] ∧
      (invalidOf [(0x106001, 4096)] (brokenRules (upSt [(0x106001, 4096)]) [(0x106001, 4096)] (rights upM mgr))).isSome = true) ∧
    (stagedOf (upSt [(0x106001, 48)]) (srcKey mgr) = [(0x106001, 48)] ∧
      invalidOf [(0x106001, 48)] (brokenRules (upSt [(0x106001, 48)]) [(0x106001, 48)] (rights upM mgr)) = none) := by
  decide +kernel

theorem wit_ManagementCarriesFirmware :
    (pilotPowered upM = true ∧ upM.fw.pilotUp = true ∧ upM.fw.recovery = false ∧ rights upM mgr = true) ∧
    (4 ≤ (List.replicate 1024 (0 : Byte)).length ∧ (List.replicate 1024 (0 : Byte)).length % 4 = 0 ∧ dv upM 0x107003 + 1024 ≤ imageMax) ∧
    imageMax < dv { upM with dict := { vals := [(0x107003, imageMax - 1020)] } } 0x107003 + 1024 ∧
    (upM.fw.stage.state ≠ 2 ∧ upM.fw.stage.state ≠ 3 ∧ (fwStage upM {} 0 2).2 = some 1 ∧ (fwStageActivate upM {} 0).2 = some 1) ∧
    (let s := { upM with fw := { pilotUp := true, stage := { state := 3 } } }
     s.fw.stage.state = 3) ∧
    (let s := { upM with fw := { pilotUp := true, stage := { state := 4 } } }
     (fwStageActivate s {} 0).2 = none) ∧
    (List.replicate 32 (0 : Byte)).length = 32 := by
  decide +kernel

/-- A request frame from fe80::1 with a MAC under the port's key, and DISCOVER. -/
def pk0 : Bytes := List.replicate 32 1
def frPay : Bytes := [0x57, 0x41, 0x4F, 0x52, 1, 0, 1, 0] ++ toLe 4 9 ++ toLe 4 1 ++ toLe 8 0 ++ List.replicate 8 0 ++ pduR
def fr0 : Frame :=
  { srcAddr := BitVec.ofNat 128 (0x3FA * 2 ^ 118 + 1), toGroup := false, toUs := true, port := dv up 0x105007, hopLimit := 255, udpSumOk := true, payload := frPay ++ frameMac pk0 frPay }
def frD : Frame := { fr0 with toGroup := true, payload := [0x57, 0x41, 0x4F, 0x52, 1, 3] ++ List.replicate 26 0 }
/-- A module that runs, with that key. -/
def upK : State := { up with store := { portKey := some pk0 }, dict := { plca := 2, announceDue := 1 } }

theorem wit_ThePortAnswersFrames :
    (frameTaken upK { fr0 with hopLimit := 254 } = false ∧ frameTaken upK { fr0 with payload := [] } = true ∧ frameBad { fr0 with payload := [] } = true) ∧
    (frameTaken upK fr0 = true ∧ frameBad fr0 = false ∧ frKind fr0 = 0 ∧ frAuth fr0 = true ∧ authFails upK fr0 = none) ∧
    (let k : KeptResp := { addr := fr0.srcAddr.toNat, txid := 9, resp := [1] }
     let s := { upK with dict := { kept := [k] } }
     (s.dict.kept.find? fun k => k.addr == fr0.srcAddr.toNat && k.txid == frTxid fr0) = some k) ∧
    ((upK.dict.kept.find? fun k => k.addr == fr0.srcAddr.toNat && k.txid == frTxid fr0) = none ∧ authFails up fr0 = some 4) ∧
    (frameTaken upK frD = true ∧ frameBad frD = false ∧ frKind frD = 3 ∧ frD.toGroup = true ∧ frAuth frD = false ∧ frD.payload.length = 32) ∧
    (portUp upK = true ∧ upK.fw.pilotUp = true ∧ upK.dict.announceDue ≠ 0 ∧ plcaFollower upK = true) ∧
    (upK.power.vaux = false ∧ ∃ s : State, s.power.vaux = true) := by
  refine ⟨?_, ?_, ?_, ?_, ?_, ?_, ?_, { up with power := { vaux := true } }, ?_⟩
  all_goals decide +kernel

theorem wit_ResetsAndSelfTests :
    (up.ctrls[0].ccEn = true ∧ up.ctrls[127].ccEn = false ∧ up.ctrls[0].enabled = true ∧ up.fw.pilotUp = true) ∧
    (let s := onCtrl up 127 fun c => { c with enabled := true }
     let t := onCtrl s 127 fun c => { c with d3hot := true }
     s.ctrls[127].enabled = true ∧ (allD3 t && mayPark t) = false) ∧
    (let s := { up with accounts := up.accounts.set 1 { tdi := .run } }
     tdiLocked s 0 = true) ∧
    (let f : InFlight := { key := ⟨0, 1, 5⟩, kind := opRead }
     let s := { up with inflight := [f] }
     flightOf s ⟨0, 1, 5⟩ = some f ∧ f.admin = false ∧ watched f.kind = true ∧ completionWaits s ⟨0, 1, 5⟩ = false ∧
      completionWaits (onCtrl s 0 fun c => { c with cqs := [(1, { size := 1, waiting := [{ sqid := 1, cid := 5 }] })] }) ⟨0, 1, 5⟩ = true ∧
      flightOf up ⟨0, 1, 5⟩ = none) ∧
    (Served up { adm with cdw10 := 1 } 0x14 true ∧ fieldOf (2 : W32).toNat 3 0 = 2) ∧
    (let s := onCtrl up 127 fun c => { c with enabled := true, ccEn := true, csts := true }
     Served s { adm with fn := 127 } 0x14 true) ∧
    (resultOk (.engine 0 0 (cov 127 512)) = false ∧ railsUp up = true ∧ engineIdle up 7 3 = true ∧ coverOk (cov 128 512) = true ∧
      clusterIdle up 47 = true ∧ ∀ e, engineIdle up 0 e = true) := by
  unfold Served
  and_intros <;> decide +kernel

theorem wit_AnotherTagReadsNothing : MemOk up ∧ (writeMem up 32 (List.replicate 32 7) 16).2 = none ∧ (16 : Nat) < 65536 ∧ (0 : Nat) < 65536 ∧ (0 : Nat) ≠ 16 ∧
    32 / 32 ≤ 63 / 32 ∧ 63 / 32 ≤ (32 + (List.replicate 32 (7 : Byte)).length - 1) / 32 ∧ 0 < 1 := by
  unfold MemOk; and_intros <;> decide +kernel

theorem wit_QuietCommandsLeaveTheRest :
    (∃ t, exec (.identify adm) up = .next t) ∧ (∃ t, exec .i3cEntdaa up = .next t) ∧ (∃ t, exec (.spdmHeartbeatTimeout .mctp 1) up = .next t) ∧
    (∃ t, exec (.sequenceReset 0 cfx) up = .next t) ∧ ∃ t, exec .pwrbrkRelease up = .next t :=
  ⟨⟨_, rfl⟩, ⟨_, rfl⟩, ⟨_, rfl⟩, ⟨_, rfl⟩, _, rfl⟩

/-- A module that runs, changed in its power. -/
def upPw (f : Power → Power) : State := { up with power := f up.power }
def dimUp (c : Fin 8) : State := onCore up c fun k => { k with level := .dim }

theorem wit_LevelsChangeAsTheStateAllows :
    (pilotPowered up = true ∧ runningUp up = true ∧ runningUp (upPw fun p => { p with mod := .banked }) = false) ∧
    (mayDim up.cores[7] = true ∧ mayDim (dimUp 7).cores[7] = false ∧ mayDark up 7 = false ∧ mayDark (dimUp 7) 7 = true) ∧
    (let s := onCore up 7 fun k => { k with level := .dark, evt := 1 }
     runningUp s = true ∧ s.cores[7].retired = false ∧ s.cores[7].level ≠ .lit ∧ wakeCause s.cores[7] = true) ∧
    (let s := { up with cores := Vector.replicate 8 {} }
     runningUp s = true ∧ (∀ c : Fin 8, c.val / 4 = (1 : Fin 2).val → s.cores[c].level = .dark ∧ loneProg s.cores[c] = false) ∧ hotOn s 1 = []) ∧
    (runningUp up && !up.power.waking && idle up) = true ∧
    (let s := upPw fun p => { p with mod := .banked, dueWork := true }
     mayPark s = true ∧ (parkPrepare s).slots = [] ∧ flashIdle (parkPrepare s) = true ∧
      mayPark { s with slots := [(9, {})] } = true ∧ (parkPrepare { s with slots := [(9, {})] }).slots ≠ [] ∧
      flashIdle (parkPrepare (onChan s 47 fun c => { c with dieActive := [(15, rd0)] })) = false) ∧
    (let s := upPw fun p => { p with mod := .parked }
     railsUp s = true ∧ s.power.mod = .parked ∧ s.power.mod ≠ .running) := by
  and_intros <;> decide +kernel

theorem wit_TheCapStepsCoresDownAndUp :
    (runningUp up = true ∧ effectiveCap up < 9999 ∧ (∃ c : Fin 8, canStepDown up c = true) ∧ 9 ≤ up.power.sinceDown) ∧
    (effectiveCap up ≤ effectiveCap up ∧ 100 * 0 ≤ 97 * effectiveCap up ∧ up.power.okSamples + 1 < 200) ∧
    (let s := onCore (upPw fun p => { p with okSamples := 199 }) 7 fun k => { k with step := 3 }
     runningUp s = true ∧ 100 ≤ effectiveCap s ∧ 199 ≤ s.power.okSamples ∧ s.power.emergency = false ∧ s.power.pwrbrkThrottle = false ∧
      s.power.progLimit = 4 ∧ (∀ c : Fin 8, s.cores[c].openDelay = false) ∧ s.power.thermalHeld[1] = 0) ∧
    (runningUp (upPw fun p => { p with mod := .parked }) = false ∧ up.power.pwrbrk = false) := by
  and_intros <;> decide +kernel

theorem wit_TemperatureHoldsTripsAndShutsDown :
    railsUp up = true ∧ up.power.shutdown = false ∧ ((109 : Int) < 110 ∧ 26 ≤ (31 : Fin 32).val) ∧
    ((25 : Fin 32).val = (23 : Fin 24).val + 2 ∧ (dv up 0x215002 : Int) ≤ 109 ∧ (47 : Fin 48).val / 2 = (23 : Fin 24).val) ∧
    (120 : Int) ≤ 120 ∧ (85 : Int) ≤ 85 ∧ ((70 : Int) < 71 ∧ (84 : Int) < 85) ∧ (94 : Int) < 95 ∧ (95 : Int) ≤ 95 := by
  and_intros <;> decide +kernel

theorem wit_PowerIsLostAndReturns :
    (up.power.holdup = false ∧ up.power.phase = .ready ∧ up.power.mod ≠ .parked ∧ railsUp up = true) ∧
    (let s := upPw fun p => { p with holdup := true }
     s.power.holdup = true ∧ (true || s.power.vaux) = true ∧ (upPw fun p => { p with flushed := some [] }).power.flushed.isSome = true) ∧
    (let dead := { up with cores := Vector.replicate 8 { retired := true } }
     (List.range 6).all (fun c => faultStands dead (c + 1) == (c != 5)) = true ∧ faultStands up 5 = false ∧
      faultStands { up with clusters := Vector.replicate 48 { retired := true } } 6 = true) ∧
    (upPw fun p => { p with mod := .parked }).power.mod = .parked ∧ railsUp (upPw fun p => { p with mod := .parked }) = true ∧
    (bankPasses 0 = false ∧ bankPasses 0x41F00000 = true ∧ bankPasses 0x41EFFFFF = false) ∧
    (let s := upPw fun p => { p with phase := .rails }
     [TestResult.engine 0 0 (cov 128 512)].all resultOk = true ∧ s.power.holdup = false ∧ s.power.phase = .rails ∧ s.power.phase ≠ .ready) ∧
    (up.power.vaux = false ∧ pilotPowered up = true ∧ State.reset.power.vaux = false ∧ pilotPowered State.reset = false ∧
      State.reset.fw.stage.state ≠ 3 ∧ State.reset.cf.flags = 0) ∧
    ((up.power.slot12 || up.power.cable12) = true ∧ up.power.shutdown = false) ∧
    (3 ≤ (recentFaults [1, 2] 3).length ∧ (recentFaults [] 3).length < 3 ∧ up.health.failed = false) := by
  and_intros <;> decide +kernel

/-! ### The spec's worked examples and published test values -/

/-- R193's block of seed 0 and counter 0, and chapter 8's traced draw: its eight 16-bit values and its mask byte. -/
theorem test_philox_block : Rand.block 0 0 0 0 = [0x6627E8D5, 0xE169C58D, 0xBC57AC4C, 0x9B00DBD8] := by decide +kernel
theorem test_philox_draws :
    (List.range 8).map (Rand.val16 (Rand.block 0 0 0 0)) = [59605, 26151, 50573, 57705, 44108, 48215, 56280, 39680] ∧
      (List.range 8).map (fun i => Rand.maskBit 0 0 i 0 52429) = [false, true, true, false, true, true, false, true] := by decide +kernel

/-- Chapter 2's dot product in window N, split two ways. -/
def exA : List Num.Val := [0x78, 0x01, 0xF8, 0x01].map (Num.dec 5)
def exB : List Num.Val := [0x78, 0x01, 0x78, 0x01].map (Num.dec 5)
def exPart (l : List Nat) : DaRec := Num.dotRec Num.modeN 0 (l.map fun i => exA.getD i .nan) (l.map fun i => exB.getD i .nan)

theorem test_dot_split_two_ways :
    (exPart [0, 1]).value = 0x1000000004000#104 ∧ (exPart [2, 3]).value = 0xFFFFFFFFFFFFFF000000004000#104 ∧
      (exPart [0, 2]).value = 0 ∧ (exPart [1, 3]).value = 0x8000 ∧ (Num.merge (exPart [0, 1]) (exPart [2, 3])).value = 0x8000 ∧
      (Num.roundRec (Num.merge (exPart [0, 1]) (exPart [2, 3])) 7 0 0 false 1 1).code = 0x0080 ∧
      (Num.roundRec (Num.merge (exPart [0, 2]) (exPart [1, 3])) 9 0 0 false 1 1).code = 0x37000000 := by decide +kernel

/-- Chapter 2's BF16 reduction with window loss: C is 32. -/
theorem test_bf16_window_loss :
    let r := Num.dotRec Num.modeA 32 ([0x4980, 0x1C80, 0x3F81].map (Num.dec 8)) ([0x4480, 0x3F80, 0x2900].map (Num.dec 8))
    r.value = 0x20000000000000000004#104 ∧ r.loss = 2 ∧ r.sticky = true ∧ r.nterm = 3 ∧
      (Num.roundRec r 9 0 0 false 1 1).code = 0x4E800000 ∧ Num.eOf 8 ([0x4980, 0x1C80, 0x3F81].map (Num.dec 8)) = 20 := by decide +kernel

/-- Chapter 7's scatter step of row 1,000. -/
theorem test_scatter_example :
    let set := [0x3E800000, 0x3F000000, 0x3F400000, 0x3F800000, 0xBF000000, 0, 0x3E800000, 0x3FC00000]
    let q := scatterRow tb0 1 5 [(true, 0, List.replicate 8 0), (true, 0, set), (false, 0x3F800000, [0xBE000000, 0, 0, 0x3F000000, 0, 0, 0, 0])]
    q.1.map (·.offset) = some 0xB800 ∧ q.1.map (·.scale) = some 0x2005 ∧
      q.1.map (·.codes) = some [80, 127, 159, 255, 0, 64, 96, 255] ∧ q.2.2 = 1 := by decide +kernel

/-- FIPS 180's SHA-384 of "abc". -/
theorem test_sha384_abc :
    Crypto.sha384 [0x61, 0x62, 0x63] = Crypto.toBe 48 0xcb00753f45a35e8bb5a03d699ac65007272c32ab0eded1631a8b605a43ff5bed8086072ba1e7cc2358baeca134c825a7 := by
  decide +kernel

/-- R388's object id, and R398's item that names it. -/
theorem test_waori_item : (parsePdu pduR).map (fun l => l.map (·.id)) = some [0x501001] := by decide +kernel

/-- R205's step of the shift generator from 1: 1, then 0x2001, then 0x40, and so 0x40822041. -/
theorem test_shift_generator : Rand.sgStep 1 = 0x40822041 := by decide +kernel

end Sys2Proof.Tests
end

section
/-! SUPPORT. What the updates of a core's registers and descriptors leave: the running bank, the ME slots, the open tile. -/

namespace Sys2Proof.Machine

/-! ### A core and its running bank -/

theorem onCore_meSlot (s : State) (c : Fin 8) (i : Fin 16) {f : Core → Core} (h : ∀ k, (f k).meSlots = k.meSlots) :
    (onCore s c f).cores[c.val].meSlots[i.val] = s.cores[c.val].meSlots[i.val] := by
  simp [h]

theorem onCore_coreOnly (s : State) (c : Fin 8) (f : Core → Core) : CoreOnly s (onCore s c f) c :=
  ⟨rfl, fun d h => onCore_other s c d f h.symm⟩

theorem onBank_coreOnly (s : State) (c : Fin 8) (f : Bank → Bank) : CoreOnly s (onBank s c f) c := onCore_coreOnly ..

@[simp] theorem onBank_bank (s : State) (c : Fin 8) (f : Bank → Bank) : bank (onBank s c f).cores[c.val] = f (bank s.cores[c.val]) := by
  by_cases h : s.cores[c.val].useB = true <;> simp [onBank, bank, h]

@[simp] theorem onBank_meSlots (s : State) (c : Fin 8) (f : Bank → Bank) :
    (onBank s c f).cores[c.val].meSlots = s.cores[c.val].meSlots := by
  rw [onBank, onCore_core]; split <;> rfl

@[simp] theorem onBank_tile (s : State) (c : Fin 8) (f : Bank → Bank) : (onBank s c f).cores[c.val].tile = s.cores[c.val].tile := by
  rw [onBank, onCore_core]; split <;> rfl

@[simp] theorem onMe_slot (s : State) (c : Fin 8) (i : Fin 16) (f : MeSlot → MeSlot) :
    (onMe s c i f).cores[c.val].meSlots[i.val] = f s.cores[c.val].meSlots[i.val] := by
  simp [onMe]

/-! ### Arming an ME descriptor -/

/-- R75, R198: a write that sets ARM in a free slot and passes the check leaves the slot with CG_DRAW as it then stands. -/
theorem meWrite_accepted_slot (s : State) (c : Fin 8) (i : Fin 16) (v : Nat) (fw : Bool) :
    let old := s.cores[c].meSlots[i].dw
    let w := armWrite (dwAt old 0) v meRw (s.cores[c].meQueue.contains i)
    bitOf (dwAt old 0) 0 = false → bitOf w 0 = true → meCheck s c i (meDesc (setDw old 0 w)) fw = 0 →
    (meWrite s c i v fw).cores[c.val].meSlots[i.val] =
      { dw := setDw (setDw old 0 w) 7 0, draw := (bank s.cores[c]).cgDraw, fw := fw, issued := false, inTile := accepting s.cores[c] } := by
  intro old w hfree harm hcheck
  unfold meWrite
  extract_lets k old' w' dw st s₁ inT s₂
  rw [if_neg (Bool.eq_false_iff.mp hfree), if_neg (show ¬ (!bitOf w 0) = true by simp [harm]), if_neg (not_not_intro hcheck)]
  split
  · exact Eq.trans (onCore_meSlot s₂ c i fun _ => rfl) (onMe_slot ..)
  · exact onMe_slot ..

theorem exec_meDescArm (c : Fin 8) (i : Fin 16) (v : W32) (fw : Bool) (s : State) (h : fw = true ∨ cpRuns s c = true) :
    exec (.meDescArm c i v fw) s = .next (meWrite s c i v.toNat fw) := by
  show execMeDescArm c i v fw s = _
  rw [execMeDescArm, if_pos (by simpa using h)]

/-! ### A write of CG_DRAW -/

/-- CG_DRAW stands at 0x30001180 of the core address map (Table 4-2). -/
theorem coreRegWrite_cgDraw (s : State) (c : Fin 8) (v : Nat) (h : cpRuns s c = true) :
    coreRegWrite s c false 0x30001180 v = onBank s c fun b => { b with cgDraw := BitVec.ofNat 32 v } := by
  simp [coreRegWrite, h]

theorem exec_registerWrite_coreMem (c : Fin 8) (fw : Bool) (a : Nat) (v : W64) (s : State) :
    exec (.registerWrite (.coreMem c fw a) v) s = .next (coreRegWrite s c fw a v.toNat) := rfl

/-! ### The record of a tile -/

@[simp] theorem restoreTile_cgDraw (s : State) (c : Fin 8) (w : OpenTile) : (bank (restoreTile s c w).cores[c.val]).cgDraw = w.draw := by
  unfold restoreTile
  extract_lets d s₁
  rw [onBank_bank]

theorem openTile_draw (s : State) (c : Fin 8) (i : Fin 2) :
    ∃ w, (openTile s c i).cores[c.val].tile = some w ∧ w.draw = (bank s.cores[c.val]).cgDraw := by
  unfold openTile
  extract_lets b x d seq lp w s₁ s₂ s₃
  exact ⟨w, by rw [onCore_core], rfl⟩

/-- Settles O7 by R198's four moments: the arming, the write of CG_DRAW, the tile's opening, the restore of its record. -/
theorem drawsAreLatched : Obligations.DrawsAreLatched := by
  refine ⟨fun c i v fw s hgo hfree harm hcheck => ?_, fun c v s hruns => ?_, fun c i s => openTile_draw s c i,
    fun c w s => restoreTile_cgDraw s c w⟩
  · exact ⟨_, exec_meDescArm c i v fw s hgo, congrArg MeSlot.draw (meWrite_accepted_slot s c i v.toNat fw hfree harm hcheck)⟩
  · refine ⟨_, exec_registerWrite_coreMem .., ?_⟩
    rw [coreRegWrite_cgDraw s c _ hruns]
    refine ⟨onBank_coreOnly .., ?_, onBank_meSlots .., onBank_tile ..⟩
    exact congrArg Bank.cgDraw (onBank_bank ..)

end Sys2Proof.Machine
end

section
/-! SUPPORT. What leaves the secure store (R367, R368): of each operation that a reset, a sanitize, a claim, a factory restore or
the end of an activation runs, that the store stands. -/

namespace Sys2Proof.Machine

@[simp] theorem ite_store {c : Prop} [Decidable c] {s t : State} : (if c then s else t).store = if c then s.store else t.store :=
  apply_ite ..

theorem foldl_store {α : Type} {f : State → α → State} {l : List α} {s : State} (h : ∀ s a, (f s a).store = s.store) :
    (l.foldl f s).store = s.store := by
  induction l generalizing s with
  | nil => rfl
  | cons a l ih => exact ih.trans (h s a)

/-- A fold whose accumulator holds the state beside something else. -/
theorem foldl_fst_store {α β : Type} {f : State × β → α → State × β} {l : List α} {p : State × β}
    (h : ∀ p a, (f p a).1.store = p.1.store) : (l.foldl f p).1.store = p.1.store := by
  induction l generalizing p with
  | nil => rfl
  | cons a l ih => exact ih.trans (h p a)

/-- The state of a pair that an operation answers. -/
theorem store_eq {α : Type} {p : State × α} {t : State} {a : α} (e : p = (t, a)) : t.store = p.1.store := by rw [e]

/-! ### Commands, counters, events, memory words -/

@[simp] theorem addRec_store {s : State} {n : Fin 48} {kind bytes : Nat} : (addRec s n kind bytes).store = s.store := by
  simp [addRec]

@[simp] theorem notice_store {s : State} {fn : Fin 128} {w : Nat} : (notice s fn w).store = s.store := by
  unfold notice; dsimp only; split
  · rfl
  · split <;> rfl

@[simp] theorem noticeAll_store {s : State} {w : Nat} : (noticeAll s w).store = s.store := by simp [noticeAll, foldl_store]

@[simp] theorem logEvent_store {s : State} {die code : Nat} {w : Who} {detail : Bytes} :
    (logEvent s die code w detail).store = s.store := by
  unfold logEvent; split <;> simp

@[simp] theorem charge_store {s : State} {acct : Nat} {sess : Option Nat} {field n : Nat} :
    (charge s acct sess field n).store = s.store := by
  unfold charge; split <;> simp

@[simp] theorem chargeLink_store {s : State} {acct : Nat} {sess : Option Nat} {n : Nat} :
    (chargeLink s acct sess n).store = s.store := by simp [chargeLink]

@[simp] theorem chargeFlash_store {s : State} {acct : Nat} {sess : Option Nat} {n : Nat} :
    (chargeFlash s acct sess n).store = s.store := by simp [chargeFlash]

@[simp] theorem chargePool_store {s : State} {acct field n : Nat} : (chargePool s acct field n).store = s.store := by
  simp [chargePool]

@[simp] theorem leaveSession_store {s : State} {k : CmdKey} : (leaveSession s k).store = s.store := by
  unfold leaveSession; split <;> simp

@[simp] theorem dropFlight_store {s : State} {k : CmdKey} : (dropFlight s k).store = s.store := by simp [dropFlight]

@[simp] theorem complete_store {s : State} {k : CmdKey} {c : Code} {dw0 dw1 : Nat} : (complete s k c dw0 dw1).store = s.store := by
  simp [complete]

@[simp] theorem logErr_store {s : State} {k : CmdKey} {c : Code} {nsid lba : Nat} : (logErr s k c nsid lba).store = s.store := by
  simp [logErr]

@[simp] theorem fail_store {s : State} {k : CmdKey} {c : Code} {nsid lba : Nat} : (fail s k c nsid lba).store = s.store := by
  simp [fail]

@[simp] theorem failDw0_store {s : State} {k : CmdKey} {c : Code} {dw0 : Nat} : (failDw0 s k c dw0).store = s.store := by
  simp [failDw0]

@[simp] theorem hostWrite_store {s : State} {k : CmdKey} {off : Nat} {b : Bytes} : (hostWrite s k off b).store = s.store := by
  simp [hostWrite]

@[simp] theorem advanceHead_store {s : State} {fn : Fin 128} {sqid : Nat} : (advanceHead s fn sqid).store = s.store := by
  simp [advanceHead]

@[simp] theorem takeSlot_store {s : State} {k : CmdKey} {kind nsid : Nat} : (takeSlot s k kind nsid).store = s.store := by
  simp [takeSlot]

@[simp] theorem begin_store {s : State} {e : Sqe} {kind : Nat} : (begin_ s e kind).store = s.store := by
  unfold begin_; dsimp only; split <;> simp

@[simp] theorem useSession_store {s : State} {i : Nat} : (useSession s i).store = s.store := by simp [useSession]

@[simp] theorem onFlight_store {s : State} {k : CmdKey} {f : InFlight → InFlight} : (onFlight s k f).store = s.store := by
  simp [onFlight]

@[simp] theorem takeClass_store {s : State} {k : CmdKey} {i : Nat} : (takeClass s k i).store = s.store := by simp [takeClass]

@[simp] theorem joinSession_store {s : State} {k : CmdKey} {i : Nat} : (joinSession s k i).store = s.store := by
  unfold joinSession; split <;> simp

@[simp] theorem takeView_store {s : State} {k : CmdKey} {i : Nat} : (takeView s k i).store = s.store := by simp [takeView]

@[simp] theorem nameSession_store {s : State} {k : CmdKey} {i : Nat} : (nameSession s k i).store = s.store := by simp [nameSession]

@[simp] theorem clearAbort_store {s : State} {k : CmdKey} : (clearAbort s k).store = s.store := by simp [clearAbort]

@[simp] theorem nvme_store {s : State} {e : Sqe} {opc : Nat} {admin : Bool}
    {body : State → State} (hb : ∀ s, (body s).store = s.store) :
    (nvme s e opc admin body).store = s.store := by simp [nvme, hb]

@[simp] theorem storeRaw_store {s : State} {a : Nat} {data chk : Bytes} : (storeRaw s a data chk).store = s.store := by
  simp [storeRaw]

@[simp] theorem writeWord_store {s : State} {a : Nat} {data : Bytes} {tag : Nat} : (writeWord s a data tag).store = s.store := by
  simp [writeWord]

@[simp] theorem relocateRow_store {s : State} {r : Nat} : (relocateRow s r).store = s.store := by simp [relocateRow]

@[simp] theorem countFixed_store {s : State} {a : Nat} : (countFixed s a).store = s.store := by simp [countFixed]

@[simp] theorem countLost_store {s : State} {a : Nat} : (countLost s a).store = s.store := by simp [countLost]

@[simp] theorem countOutcome_store {s : State} {a : Nat} {o : Check.Outcome} : (countOutcome s a o).store = s.store := by
  unfold countOutcome; split <;> simp

@[simp] theorem readWord_store {s : State} {a tag : Nat} : (readWord s a tag).1.store = s.store := by
  unfold readWord; dsimp only; split <;> simp

@[simp] theorem fwWrite_store {s : State} {a : Nat} {data : Bytes} {tag : Nat} : (fwWrite s a data tag).store = s.store := by
  unfold fwWrite; repeat' split
  all_goals simp

@[simp] theorem fwRead_store {s : State} {a tag : Nat} : (fwRead s a tag).1.store = s.store := by
  unfold fwRead; repeat' split
  all_goals simp

@[simp] theorem readStep_store {p : State × Check.Outcome}
    {k : State → State × Except Check.Outcome Bytes} (hk : ∀ s, (k s).1.store = s.store) :
    (readStep p k).1.store = p.1.store := by
  unfold readStep; split
  · rfl
  · split <;> rename_i e <;> simp [store_eq e, hk]

@[simp] theorem readWords_store {s : State} {a tag fuel : Nat} : (readWords s a tag fuel).1.store = s.store := by
  induction fuel generalizing s a with
  | zero => rfl
  | succ n ih => simp [readWords, ih]

@[simp] theorem readMem_store {s : State} {a n tag : Nat} : (readMem s a n tag).1.store = s.store := by
  unfold readMem; split
  · rfl
  · dsimp only; split <;> rename_i e <;> simp [store_eq e]

@[simp] theorem writeNarrow_store {s : State} {a : Nat} {b : Bytes} {tag : Nat} : (writeNarrow s a b tag).1.store = s.store := by
  unfold writeNarrow; dsimp only; split <;> simp

@[simp] theorem writePart_store {s : State} {a : Nat} {b : Bytes} {tag : Nat} : (writePart s a b tag).1.store = s.store := by
  unfold writePart; split <;> simp

@[simp] theorem writeStep_store {p : State × Option Check.Outcome}
    {k : State → State × Option Check.Outcome} (hk : ∀ s, (k s).1.store = s.store) :
    (writeStep p k).1.store = p.1.store := by
  unfold writeStep; split <;> simp [*]

@[simp] theorem writeMemFrom_store {s : State} {a : Nat} {b : Bytes} {tag fuel : Nat} :
    (writeMemFrom s a b tag fuel).1.store = s.store := by
  induction fuel generalizing s a b with
  | zero => rfl
  | succ n ih => unfold writeMemFrom; split <;> simp [ih]

@[simp] theorem writeMem_store {s : State} {a : Nat} {b : Bytes} {tag : Nat} : (writeMem s a b tag).1.store = s.store := by
  simp [writeMem]

@[simp] theorem fwCheck_store {s : State} {a n tag : Nat} : (fwCheck s a n tag).store = s.store := by simp [fwCheck, foldl_store]

@[simp] theorem onDir_store {s : State} {t : Nat} {f : TileDirE → TileDirE} : (onDir s t f).store = s.store := by simp [onDir]

@[simp] theorem setDir_store {s : State} {t : Nat} {st : BitVec 2} : (setDir s t st).store = s.store := by simp [setDir]

@[simp] theorem setStale_store {s : State} {t : Nat} : (setStale s t).store = s.store := by simp [setStale]

@[simp] theorem copyRaw_store {s : State} {src dst : Nat} : (copyRaw s src dst).store = s.store := by simp [copyRaw]

@[simp] theorem carryTile_store {s : State} {tag src dst : Nat} : (carryTile s tag src dst).store = s.store := by simp [carryTile]

@[simp] theorem writeBackTile_store {s : State} {t : Nat} : (writeBackTile s t).store = s.store := by simp [writeBackTile]

@[simp] theorem setGatherCfg_store {s : State} {v : W64} : (setGatherCfg s v).store = s.store := by simp [setGatherCfg]

@[simp] theorem coreEvent_store {s : State} {c : Fin 8} {bit : Nat} : (coreEvent s c bit).store = s.store := by simp [coreEvent]

/-! ### The write buffer and the flash layer -/

@[simp] theorem setEntry_store {s : State} {nsid iu : Nat} {e : MapEntry} : (setEntry s nsid iu e).store = s.store := by
  simp [setEntry]

@[simp] theorem takeSlotsFrom_store {s : State} {nsid iu acct fuel : Nat} :
    (takeSlotsFrom s nsid iu acct fuel).1.store = s.store := by
  induction fuel generalizing s with
  | zero => rfl
  | succ n ih => unfold takeSlotsFrom; split <;> simp [ih]

@[simp] theorem takeSlots_store {s : State} {nsid iu acct n : Nat} : (takeSlots s nsid iu acct n).1.store = s.store := by
  simp [takeSlots]

@[simp] theorem enqueue_store {s : State} {ch : Fin 48} {d : Nat} {o : NandOp} : (enqueue s ch d o).store = s.store := by
  rw [(enqueue_queued ..).rest]

@[simp] theorem cancelReads_store {s : State} {k : CmdKey} : (cancelReads s k).store = s.store := foldl_store fun _ _ => rfl

@[simp] theorem placeSlot_store {s : State} {b wl : Nat} {p : Nat × Nat} : (placeSlot b wl s p).store = s.store := by
  simp [placeSlot]

@[simp] theorem programIn_store {s : State} {ch : Fin 48} {sys part : Bool} {slots : List Nat} {recs : List (Nat × Nat)} :
    (programIn s ch sys part slots recs).1.store = s.store := by
  unfold programIn; split <;> simp [foldl_store]

@[simp] theorem programUnit_store {s : State} {ch : Fin 48} {slots : List Nat} : (programUnit s ch slots).1.store = s.store := by
  simp [programUnit]

@[simp] theorem destageRecs_store {s : State} {ch : Fin 48} {force : Bool} : (destageRecs s ch force).store = s.store := by
  simp [destageRecs]

@[simp] theorem destageUnit_store {s : State} {ch : Fin 48} {force : Bool} : (destageUnit s ch force).store = s.store := by
  simp [destageUnit]

@[simp] theorem destage_store {s : State} {ch : Fin 48} {force : Bool} : (destage s ch force).store = s.store := by simp [destage]

@[simp] theorem bufferUnit_store {s : State} {nsid iu : Nat} {n : Ns} : (bufferUnit s nsid iu n).1.store = s.store := by
  simp [bufferUnit, apply_ite Prod.fst]

@[simp] theorem bufferWrite_store {s : State} {nsid off : Nat} {b : Bytes} {n : Ns} :
    (bufferWrite s nsid off b n).1.store = s.store := by simp [bufferWrite, foldl_store, foldl_fst_store]

@[simp] theorem putMedia_store {s : State} {nsid off : Nat} {b : Bytes} : (putMedia s nsid off b).store = s.store := by
  unfold putMedia; split <;> simp

@[simp] theorem wipeNs_store {s : State} {nsid : Nat} : (wipeNs s nsid).store = s.store := by simp [wipeNs, foldl_store]

@[simp] theorem c0Record_store {s : State} {k : CmdKey} {rowHolds : Bool} : (c0Record s k rowHolds).1.store = s.store := by
  unfold c0Record; split <;> simp

@[simp] theorem queueSegments_store {s : State} {nsid : Nat} {l : List Segment} : (queueSegments s nsid l).store = s.store := by
  simp [queueSegments]

@[simp] theorem commitTokens_store {s : State} {o : Option (Nat × Nat × Nat)} : (commitTokens s o).store = s.store := by
  unfold commitTokens; split <;> simp

@[simp] theorem endCommit_store {s : State} {w : SyncWait} : (endCommit s w).store = s.store := by simp [endCommit]

@[simp] theorem noteSession_store {s : State} {i bytes : Nat} : (noteSession s i bytes).store = s.store := by simp [noteSession]

@[simp] theorem finishCommit_store {s : State} {w : SyncWait} : (finishCommit s w).store = s.store := by
  unfold finishCommit; split; rename_i t _ e
  have ht : t.store = s.store := by
    rw [store_eq e]; split <;> simp
  split <;> simp [foldl_store, ht]

@[simp] theorem finishSession_store {s : State} {k : CmdKey} {i dw0 : Nat} : (finishSession s k i dw0).store = s.store := by
  simp [finishSession]

@[simp] theorem finishData_store {s : State} {k : CmdKey} {nsid : Nat} {slots : List Nat} {segs : List Segment} {dw0 dw1 : Nat} :
    (finishData s k nsid slots segs dw0 dw1).store = s.store := by simp [finishData]

@[simp] theorem putSlots_store {nsid : Nat} {a : State × List Nat} {w : Nat × Bytes} : (putSlots nsid a w).1.store = a.1.store := by
  unfold putSlots; split <;> simp

@[simp] theorem cancelJob_store {s : State} {k : CmdKey} : (cancelJob s k).store = s.store := by simp [cancelJob]

/-! ### Sessions, attention, indexes and queries -/

@[simp] theorem countQuant_store {s : State} {zero : Bool} {sat invalid : Nat} :
    (countQuant s zero sat invalid).store = s.store := by simp [countQuant]

@[simp] theorem loadEntry_store {s : State} {i : Nat} {x : Sess} {m r : Nat} : (loadEntry s i x m r).store = s.store := by
  rw [loadEntry]
  cases metaUnit x m with
  | none => rw [Option.elim_none]
  | some u => rw [Option.elim_some, writeMem_store]

@[simp] theorem loadPage_store {s : State} {i : Nat} {x : Sess} {p : Nat × Nat} : (loadPage s i x p).store = s.store := by
  simp [loadPage, foldl_store]

@[simp] theorem loadPages_store {s : State} {i : Nat} {x : Sess} : (loadPages s i x).store = s.store := by
  simp [loadPages, foldl_store]

@[simp] theorem entryRead_store {i : Nat} {x : Sess} {q : Nat × Nat} {p : State × Except Check.Outcome Bytes} :
    (entryRead i x q p).1.store = p.1.store := by
  unfold entryRead; split
  · simp
  · cases metaUnit x q.1 <;> simp [apply_ite Prod.fst]

@[simp] theorem readEntry_store {i : Nat} {x : Sess} {a : State × Option Nat} {q : Nat × Nat} :
    (readEntry i x a q).1.store = a.1.store := by
  rw [readEntry]
  cases a.2 with
  | none => rw [Option.elim_none, entryRead_store, readMem_store]
  | some _ => rw [Option.elim_some]

@[simp] theorem clearPages_store {s : State} {i : Nat} : (clearPages s i).store = s.store := by simp [clearPages]

@[simp] theorem becomeCold_store {s : State} {i : Nat} : (becomeCold s i).store = s.store := by simp [becomeCold]

@[simp] theorem makeRoom_store {s : State} {need : Nat} {keep : Option Nat} {fuel : Nat} :
    (makeRoom s need keep fuel).store = s.store := by
  induction fuel generalizing s with
  | zero => rfl
  | succ n ih =>
    rw [makeRoom]; split
    · rfl
    · split <;> simp [ih]

@[simp] theorem freeRegion_store {s : State} {need : Nat} {keep : Option Nat} : (freeRegion s need keep).1.store = s.store := by
  simp [freeRegion]

@[simp] theorem makeWarm_store {s : State} {i : Nat} : (makeWarm s i).1.store = s.store := by
  unfold makeWarm; split
  · rfl
  · split
    · rfl
    · split
      · rfl
      · split <;> rename_i e <;> simp [store_eq e]

@[simp] theorem makeHot_store {s : State} {i : Nat} : (makeHot s i).1.store = s.store := by
  unfold makeHot; split; rename_i e
  have h := (store_eq e).trans makeWarm_store
  repeat' split
  all_goals simp [h]

@[simp] theorem saveContext_store {s : State} {i : Nat} {b : Bank} : (saveContext s i b).store = s.store := by simp [saveContext]

@[simp] theorem leaveCores_store {s : State} {i : Nat} : (leaveCores s i).store = s.store :=
  foldl_store fun a c => by
    dsimp only; rw [onCore_store]; repeat' split
    all_goals simp

@[simp] theorem dropTile_store {s : State} {t : Nat} : (dropTile s t).store = s.store := by simp [dropTile]

@[simp] theorem setAway_store {s : State} {i : Nat} {f : Tab (TileDirE × Option Nat) → Tab (TileDirE × Option Nat)} :
    (setAway s i f).store = s.store := by simp [setAway]

@[simp] theorem spillOut_store {s : State} {i t : Nat} : (spillOut s i t).store = s.store := by simp [spillOut]

@[simp] theorem freeTile_store {s : State} {t : Nat} : (freeTile s t).store = s.store := by
  unfold freeTile; dsimp only; split <;> simp

@[simp] theorem freeTiles_store {s : State} {c acct : Nat} : (freeTiles s c acct).store = s.store := by
  simp [freeTiles, foldl_store]

@[simp] theorem grantTile_store {s : State} {t acct core : Nat} {o : Option Nat} {class0 : Bool} :
    (grantTile s t acct core o class0).store = s.store := by simp [grantTile]

@[simp] theorem sendAway_store {s : State} {i t : Nat} : (sendAway s i t).store = s.store := by
  unfold sendAway; split <;> simp

@[simp] theorem evict_store {s : State} {t : Nat} : (evict s t).store = s.store := by
  unfold evict; split <;> simp

@[simp] theorem evictAll_store {s : State} {l : List Nat} : (evictAll s l).store = s.store := by simp [evictAll, foldl_store]

@[simp] theorem fixPart_store {s : State} {c : Fin 8} : (fixPart s c).store = s.store := by simp [fixPart]

@[simp] theorem bringTile_store {s : State} {i acct c l : Nat} {e : TileDirE} {at_ : Option Nat} :
    (bringTile s i acct c l e at_).store = s.store := by
  unfold bringTile; split <;> simp

@[simp] theorem bringTiles_store {s : State} {i : Nat} {c : Fin 8} : (bringTiles s i c).store = s.store := by
  unfold bringTiles; split <;> simp [foldl_store]

@[simp] theorem unpark_store {s : State} {i : Nat} {p : Nat → Bool} : (unpark s i p).store = s.store := by
  unfold unpark; split
  · rfl
  · refine foldl_store fun a q => ?_
    repeat' split
    all_goals simp

@[simp] theorem dropGrant_store {s : State} {i : Nat} : (dropGrant s i).store = s.store := by simp [dropGrant, foldl_store]

@[simp] theorem touchSession_store {s : State} {k : CmdKey} {i : Nat} : (touchSession s k i).1.store = s.store := by
  unfold touchSession; dsimp only; split <;> simp

@[simp] theorem writeExtTable_store {s : State} {i : Nat} : (writeExtTable s i).store = s.store := by
  unfold writeExtTable; split
  · rfl
  · exact foldl_store fun _ _ => by split <;> simp

@[simp] theorem allocExtent_store {s : State} {i : Nat} {meta_ flight : Bool} :
    (allocExtent s i meta_ flight).1.store = s.store := by
  unfold allocExtent; repeat' split
  all_goals simp

@[simp] theorem nextFlightExtent_store {s : State} {i : Nat} : (nextFlightExtent s i).1.store = s.store := by
  unfold nextFlightExtent; split
  · rfl
  · dsimp only; repeat' split
    all_goals simp

@[simp] theorem logFlight_store {s : State} {i : Nat} {f : FlightEntry} : (logFlight s i f).store = s.store := by
  unfold logFlight; split
  · simp
  · split
    · rfl
    · dsimp only; repeat' split
      all_goals simp

@[simp] theorem logCommand_store {s : State} {e : Sqe} {f : FlightEntry} : (logCommand s e f).store = s.store := by
  unfold logCommand; split <;> simp

@[simp] theorem writeOutput_store {s : State} {e : Sqe} {rec data : Bytes} : (writeOutput s e rec data).store = s.store := by
  simp [writeOutput]

@[simp] theorem endMove_store {s : State} {i : Nat} : (endMove s i).store = s.store := by simp [endMove]

/-- For every number of bytes, so that the proof of `checkSpill_store` evaluates none. -/
theorem wordsChecked_store {s : State} {x : Sess} {n : Nat} {l : List (Nat × TileDirE)} {g : Nat → Nat} :
    (l.foldl (fun a q => fwCheck a (g q.1) n (tagOf a x.account)) s).store = s.store := foldl_store fun _ _ => fwCheck_store

@[simp] theorem checkSpill_store {s : State} {i : Nat} {x : Sess} : (checkSpill s i x).store = s.store := by
  rw [checkSpill, wordsChecked_store (g := fun k => spillTile i k * tileBytes)]

@[simp] theorem exportStep_store {s : State} {i fuel : Nat} : (exportStep s i fuel).store = s.store := by
  induction fuel generalizing s with
  | zero => rfl
  | succ n ih =>
    rw [exportStep]; split
    · rfl
    · split
      · rfl
      · split
        · rw [fail_store, endMove_store]
        · extract_lets len b t
          have ht : t.store = s.store := by
            dsimp only [t]; split
            · exact checkSpill_store
            · rfl
          split
          · rw [finishData_store, endMove_store]
          · split
            · rw [fail_store, endMove_store]
            · split
              extract_lets off
              split
              · rfl
              · split; rename_i e
                rw [ih, onSess_store, store_eq e, bufferWrite_store, ht]

@[simp] theorem makeCold_store {s : State} {i : Nat} : (makeCold s i).store = s.store := by simp [makeCold]

@[simp] theorem moveResidency_store {s : State} {i : Nat} {m : MoveReq} : (moveResidency s i m).store = s.store := by
  simp [moveResidency]

@[simp] theorem runMove_store {s : State} {i : Nat} : (runMove s i).store = s.store := by
  unfold runMove; repeat' split
  all_goals simp

@[simp] theorem finishOpen_store {s : State} {k : CmdKey} {i : Nat} : (finishOpen s k i).store = s.store := by simp [finishOpen]

@[simp] theorem setRole_store {s : State} {nsid : Nat} {r : Role} : (setRole s nsid r).store = s.store := by simp [setRole]

@[simp] theorem freeExtents_store {s : State} {x : Sess} : (freeExtents s x).store = s.store := by simp [freeExtents, foldl_store]

@[simp] theorem dropSession_store {s : State} {i : Nat} : (dropSession s i).store = s.store := by
  unfold dropSession; split <;> simp

@[simp] theorem closeSession_store {s : State} {i : Nat} : (closeSession s i).store = s.store := by
  unfold closeSession; split <;> simp

@[simp] theorem importFail_store {s : State} {j : ImportJob} {c : Code} : (importFail s j c).store = s.store := by simp [importFail]

@[simp] theorem loadFlight_store {s : State} {i : Nat} : (loadFlight s i).store = s.store := by
  unfold loadFlight; split <;> simp

@[simp] theorem importTiles_store {s : State} {i spill : Nat} {b : Bytes} : (importTiles s i spill b).store = s.store := by
  unfold importTiles; split <;> simp [foldl_store]

@[simp] theorem applyHead_store {s : State} {i spill : Nat} {b : Bytes} : (applyHead s i spill b).store = s.store := by
  simp [applyHead]

@[simp] theorem applyExtents_store {s : State} {i metaBits lo : Nat} {b : Bytes} {fuel : Nat} :
    (applyExtents s i metaBits lo b fuel).1.store = s.store := by
  induction fuel generalizing s lo b with
  | zero => rfl
  | succ n ih =>
    rw [applyExtents]; split
    · rfl
    · split
      · rfl
      · dsimp only; split
        · split <;> rename_i e <;> simp [store_eq e, ih]
        · split <;> simp [ih]

@[simp] theorem importChunk_store {s : State} {key : CmdKey} {j : ImportJob} {plain : Bytes} :
    (importChunk s key j plain).1.store = s.store := by simp [importChunk, apply_ite Prod.fst]

@[simp] theorem importOne_store {s : State} {key : CmdKey} {j : ImportJob} : (importOne s key j).1.store = s.store := by
  unfold importOne; repeat' split
  all_goals simp

@[simp] theorem importNext_store {p : State × Bool} {k : State → State} (hb : ∀ s, (k s).store = s.store) :
    (importNext p k).store = p.1.store := by
  unfold importNext; split <;> simp [*]

@[simp] theorem importStep_store {s : State} {key : CmdKey} {fuel : Nat} : (importStep s key fuel).store = s.store := by
  induction fuel generalizing s with
  | zero => rfl
  | succ n ih => rw [importStep]; split <;> simp [ih]

@[simp] theorem openSession_store {s : State} {e : Sqe} {p : OpenP} {i : Nat} : (openSession s e p i).store = s.store := by
  unfold openSession; split
  · dsimp only; split <;> simp
  · simp

@[simp] theorem holdJob_store {s : State} {e : Sqe} {opc : Nat} : (holdJob s e opc).store = s.store := by simp [holdJob]

@[simp] theorem openBody_store {e : Sqe} {s : State} : (openBody e s).store = s.store := by
  unfold openBody; dsimp only; split
  · simp
  · repeat' split
    all_goals simp

@[simp] theorem classFor_store {s : State} {e : Sqe} {i : Nat} : (classFor s e i).store = s.store := by simp [classFor]

@[simp] theorem closeBody_store {e : Sqe} {s : State} : (closeBody e s).store = s.store := by
  unfold closeBody; dsimp only; split <;> simp

@[simp] theorem dropAttend_store {s : State} {j : AttendJob} : (dropAttend s j).store = s.store := by simp [dropAttend]

@[simp] theorem logAttend_store {s : State} {j : AttendJob} {c : Code} {out : Bytes} : (logAttend s j c out).store = s.store := by
  unfold logAttend; split <;> simp

@[simp] theorem attendFail_store {s : State} {j : AttendJob} {c : Code} {nsid lba : Nat} :
    (attendFail s j c nsid lba).store = s.store := by simp [attendFail]

@[simp] theorem freeLayers_store {s : State} : (freeLayers s).store = s.store := by simp [freeLayers]

@[simp] theorem holdLayer_store {s : State} {i : Nat} {p : AttendP} : (holdLayer s i p).store = s.store := by simp [holdLayer]

@[simp] theorem holdAttend_store {s : State} {e : Sqe} {p : AttendP} : (holdAttend s e p).store = s.store := by simp [holdAttend]

@[simp] theorem readPages_store {s : State} {x : Sess} {j : AttendJob} : (readPages s x j).1.store = s.store := by
  unfold readPages; split
  · simp
  · exact foldl_fst_store fun _ _ => readEntry_store

@[simp] theorem chargeSelection_store {s : State} {x : Sess} {j : AttendJob} : (chargeSelection s x j).store = s.store := by
  simp [chargeSelection]

@[simp] theorem attendBegin_store {s : State} {e : Sqe} {p : AttendP} {x : Sess} {place cold : Bool} :
    (attendBegin s e p x place cold).store = s.store := by
  unfold attendBegin; dsimp only; split <;> rename_i e <;> simp [store_eq e]

@[simp] theorem attendStart_store {s : State} {e : Sqe} {p : AttendP} : (attendStart s e p).store = s.store := by
  simp only [attendStart]; split
  · simp [apply_ite Prod.fst]
  · simp [apply_ite Prod.fst]

@[simp] theorem attendBody_store {e : Sqe} {waited : Bool} {s : State} : (attendBody e waited s).store = s.store := by
  unfold attendBody; dsimp only; split
  · split <;> simp
  · split
    · split <;> simp
    · rfl

@[simp] theorem queueDispatch_store {s : State} {ch : Fin 48} {d : LampDispatch} : (queueDispatch s ch d).1.store = s.store := by
  unfold queueDispatch; split <;> simp

@[simp] theorem sendWalker_store {key : CmdKey} {acct : Nat} {s : State} {node : Nat} :
    (sendWalker key acct s node).store = s.store := by
  unfold sendWalker; dsimp only; split <;> simp

@[simp] theorem endWalkers_store {s : State} {key : CmdKey} : (endWalkers s key).store = s.store := by simp [endWalkers]

@[simp] theorem onIndex_store {s : State} {i : Nat} {f : Index → Index} : (onIndex s i f).store = s.store := by simp [onIndex]

@[simp] theorem putCode_store {i : Nat} {x : Index} {s : State} {n : Nat} : (putCode i x s n).store = s.store := by
  simp [putCode, foldl_store]

@[simp] theorem putBook_store {i : Nat} {x : Index} {s : State} : (putBook i x s).store = s.store := by
  unfold putBook; split <;> simp

@[simp] theorem loadCodes_store {s : State} {i : Nat} : (loadCodes s i).store = s.store := by
  unfold loadCodes; split <;> simp [foldl_store]

@[simp] theorem readCopy_store {nsid off a tag : Nat} {r : State × Option Nat} :
    (readCopy nsid off a tag r).1.store = r.1.store := by
  unfold readCopy; split; rename_i e
  have h := (store_eq e).trans readWord_store
  repeat' split
  all_goals simp [h]

@[simp] theorem readNodeCode_store {i : Nat} {x : Index} {s : State} {n : Nat} : (readNodeCode i x s n).1.store = s.store := by
  rw [readNodeCode, foldl_fst_store fun _ _ => readCopy_store]

@[simp] theorem readCodes_store {i : Nat} {x : Index} {s : State} {ns : List Nat} : (readCodes i x s ns).1.store = s.store := by
  unfold readCodes; split
  · rfl
  · rw [charge_store]
    exact foldl_fst_store fun a n => by split <;> rename_i e <;> simp [store_eq e]

@[simp] theorem readBook_store {i : Nat} {x : Index} {s : State} : (readBook i x s).1.store = s.store := by
  unfold readBook; split
  · rfl
  · dsimp only; rw [charge_store, foldl_fst_store fun _ _ => readCopy_store]

@[simp] theorem onIngest_store {s : State} {i : Nat} {f : Ingest → Ingest} : (onIngest s i f).store = s.store := by simp [onIngest]

@[simp] theorem rejectSegment_store {s : State} {g : Ingest} {seg : Segment} : (rejectSegment s g seg).store = s.store := by
  simp [rejectSegment]

@[simp] theorem bindingFailed_store {s : State} {i : Nat} : (bindingFailed s i).store = s.store := by
  unfold bindingFailed; repeat' split
  all_goals simp

@[simp] theorem writeGen_store {s : State} {x : Index} {old g : Gen} {newBook : Bool} :
    (writeGen s x old g newBook).store = s.store := by
  unfold writeGen; dsimp only; split
  · rw [putMedia_store, foldl_store fun _ _ => putMedia_store]
    exact foldl_store fun _ _ => by split <;> simp
  · rw [foldl_store fun _ _ => putMedia_store]
    exact foldl_store fun _ _ => by split <;> simp

@[simp] theorem publishIndex_store {s : State} {i : Nat} : (publishIndex s i).store = s.store := by
  unfold publishIndex; split <;> simp

@[simp] theorem setQuery_store {s : State} {q : Query} : (setQuery s q).store = s.store := by simp [setQuery]

@[simp] theorem freeIndex_store {s : State} {i : Nat} : (freeIndex s i).store = s.store := by
  unfold freeIndex; repeat' split
  all_goals simp

@[simp] theorem chargeReads_store {s : State} {q : Query} {n : Nat} : (chargeReads s q n).store = s.store := by simp [chargeReads]

@[simp] theorem dropQuery_store {s : State} {q : Query} : (dropQuery s q).store = s.store := by simp [dropQuery]

@[simp] theorem countWiden_store {s : State} {old q : Query} : (countWiden s old q).store = s.store := by simp [countWiden]

@[simp] theorem finishQuery_store {s : State} {x : Index} {q : Query} {stop : StopReason} :
    (finishQuery s x q stop).store = s.store := by simp [finishQuery]

@[simp] theorem failQuery_store {s : State} {q : Query} {c : Code} {nsid lba : Nat} :
    (failQuery s q c nsid lba).store = s.store := by simp [failQuery]

@[simp] theorem queryOn_store {s : State} {x : Index} {old : Query} {kept : List Nat} {r : Query × Option StopReason} :
    (queryOn s x old kept r).store = s.store := by
  unfold queryOn; split <;> simp [foldl_store]

@[simp] theorem skipCodes_store {s : State} {q : Query} {bad : List (Nat × Nat)} : (skipCodes s q bad).1.store = s.store := by
  simp [skipCodes]

@[simp] theorem openQuery_store {s : State} {x : Index} {q : Query} : (openQuery s x q).store = s.store := by
  unfold openQuery; split <;> rename_i e
  · simp [store_eq e]
  · have h := (store_eq e).trans readBook_store
    split <;> rename_i e'
    · simp [store_eq e', h]
    · split
      · simp [store_eq e', h]
      · simp [store_eq e', h]

@[simp] theorem admitQueries_store {s : State} {fuel : Nat} : (admitQueries s fuel).store = s.store := by
  induction fuel generalizing s with
  | zero => rfl
  | succ n ih =>
    rw [admitQueries]; dsimp only; split
    · rfl
    · split <;> simp [ih]

@[simp] theorem afterQuery_store {s : State} {i : Nat} : (afterQuery s i).store = s.store := by simp [afterQuery]

@[simp] theorem readRun_store {s : State} {i : Nat} {x : Index} {rs : List Query} : (readRun s i x rs).1.store = s.store := by
  unfold readRun; split <;> rename_i e <;> simp [store_eq e]

@[simp] theorem onBank_store {s : State} {c : Fin 8} {f : Bank → Bank} : (onBank s c f).store = s.store := by simp [onBank]

@[simp] theorem onBankOf_store {s : State} {c : Fin 8} {b : Bool} {f : Bank → Bank} : (onBankOf s c b f).store = s.store := by
  simp [onBankOf]

@[simp] theorem onProg_store {s : State} {c : Fin 8} {f : Prog → Prog} : (onProg s c f).store = s.store := by simp [onProg]

@[simp] theorem poolForWrite_store {s : State} {c : Option (Fin 8)} {a : Nat} : (poolForWrite s c a).1.store = s.store := by
  unfold poolForWrite; split
  · rfl
  · split
    · rfl
    · dsimp only; split
      · split <;> simp
      · split <;> simp

@[simp] theorem loadContext_store {s : State} {c : Fin 8} {b : Bool} {i : Nat} : (loadContext s c b i).store = s.store := by
  simp [loadContext]

@[simp] theorem poolPut_store {s : State} {c : Option (Fin 8)} {a : Nat} {b : Bytes} {tag : Nat} :
    (poolPut s c a b tag).1.store = s.store := by exact foldl_fst_store fun p t => by simp

@[simp] theorem poolGet_store {s : State} {c : Option (Fin 8)} {a n tag : Nat} : (poolGet s c a n tag).1.store = s.store := by
  refine foldl_fst_store fun p t => ?_
  split
  · rfl
  · dsimp only; split <;> rename_i e <;> simp [store_eq e]

@[simp] theorem dropCopies_store {s : State} {c : Fin 8} : (dropCopies s c).store = s.store := by simp [dropCopies]

/-! ### Lamp clusters and cores -/

@[simp] theorem clearLocal_store {s : State} {x : Ctx} : (clearLocal s x).store = s.store := by simp [clearLocal, foldl_store]

@[simp] theorem startCtx_store {s : State} {ch : Fin 48} {d : LampDispatch} {slot : Nat} :
    (startCtx s ch d slot).store = s.store := by
  unfold startCtx; extract_lets f y x put loaded
  have hput : ∀ t y, (put t y).store = t.store := fun _ _ => rfl
  clear_value put loaded
  split
  · exact hput ..
  · split
    · rw [hput, clearLocal_store]
    · split
      · exact hput ..
      · split <;> rename_i e
        · rw [hput, writeMem_store, chargePool_store, clearLocal_store, store_eq e, poolGet_store]
        · rw [hput, store_eq e, poolGet_store]

@[simp] theorem deliver_store {s : State} {ch : Fin 48} {d : LampDispatch} : (deliver s ch d).1.store = s.store := by
  unfold deliver; dsimp only; split <;> simp

@[simp] theorem onMe_store {s : State} {c : Fin 8} {i : Fin 16} {f : MeSlot → MeSlot} : (onMe s c i f).store = s.store := by
  simp [onMe]

@[simp] theorem onTm_store {s : State} {c : Fin 8} {i : Fin 32} {f : DescSlot → DescSlot} : (onTm s c i f).store = s.store := by
  simp [onTm]

@[simp] theorem onTd_store {s : State} {c : Fin 8} {i : Fin 2} {f : DescSlot → DescSlot} : (onTd s c i f).store = s.store := by
  simp [onTd]

@[simp] theorem clearAcc_store {s : State} {c : Fin 8} : (clearAcc s c).store = s.store := foldl_store fun _ _ => rfl

@[simp] theorem dropMe_store {s : State} {c : Fin 8} {p : MeSlot → Bool} : (dropMe s c p).store = s.store := by
  simp [dropMe, foldl_store]

@[simp] theorem endTd_store {s : State} {c : Fin 8} {i : Fin 2} {set status : Nat} {refused : Bool} :
    (endTd s c i set status refused).store = s.store := by simp [endTd]

@[simp] theorem dropTm_store {s : State} {c : Fin 8} {p : DescSlot → Bool} : (dropTm s c p).store = s.store := by
  simp [dropTm, foldl_store]

@[simp] theorem endTile_store {s : State} {c : Fin 8} {status : Nat} : (endTile s c status).store = s.store := by
  unfold endTile; repeat' split
  all_goals simp [foldl_store]

@[simp] theorem abortCtxs_store {s : State} {c : Fin 8} : (abortCtxs s c).store = s.store := foldl_store fun _ _ => rfl

@[simp] theorem endReplay_store {s : State} {e : Sqe} {f : FlightEntry} {out logged shown : Bytes} {outside : Bool} :
    (endReplay s e f out logged shown outside).store = s.store := by simp [endReplay]

@[simp] theorem endCommand_store {s : State} {p : Prog} {c : Code} {dw0 : Nat} {out : Bytes} :
    (endCommand s p c dw0 out).store = s.store := by
  unfold endCommand; repeat' split
  all_goals simp

@[simp] theorem leaveEntries_store {s : State} {c : Fin 8} {p : Prog} : (leaveEntries s c p).store = s.store := by
  unfold leaveEntries; split <;> simp [foldl_store]

@[simp] theorem syncMbox_store {s : State} {c : Fin 8} : (syncMbox s c).store = s.store := by simp [syncMbox]

@[simp] theorem endProgram_store {s : State} {c : Fin 8} {status : Nat} {code : Code} {dw0 : Nat} {out : Bytes} :
    (endProgram s c status code dw0 out).store = s.store := by
  unfold endProgram; split <;> simp

@[simp] theorem accessFault_store {s : State} {c : Fin 8} {addr : Nat} : (accessFault s c addr).store = s.store := by
  simp [accessFault]

@[simp] theorem postBox_store {s : State} {c : Fin 8} {b : Bool} {e : List W32} : (postBox s c b e).store = s.store := by
  simp [postBox]

@[simp] theorem postIn_store {s : State} {c : Fin 8} {e : List W32} : (postIn s c e).store = s.store := by simp [postIn]

@[simp] theorem mediaMove_store {s : State} {c : Option (Fin 8)} {p : Prog} {b : Bytes} :
    (mediaMove s c p b).1.store = s.store := by
  unfold mediaMove; dsimp only; split
  · rfl
  · split
    · rfl
    · split
      · split
        · rfl
        · split <;> rename_i e <;> simp [store_eq e]
      · split
        · rfl
        · split <;> rename_i e
          · split <;> simp [store_eq e]
          · simp [store_eq e]

@[simp] theorem mediaEntry_store {s : State} {c : Fin 8} {p : Prog} {b : Bytes} : (mediaEntry s c p b).1.store = s.store := by
  unfold mediaEntry; split <;> rename_i e <;> simp [store_eq e]

@[simp] theorem takeLeft_store {s : State} {c : Fin 8} {fuel : Nat} : (takeLeft s c fuel).store = s.store := by
  induction fuel generalizing s with
  | zero => rfl
  | succ n ih =>
    rw [takeLeft]; split
    · rfl
    · split <;> rename_i e <;> simp [store_eq e, ih]

@[simp] theorem takeEntry_store {s : State} {c : Fin 8} {e : List W32} : (takeEntry s c e).1.store = s.store := by
  unfold takeEntry; split
  · rfl
  · dsimp only; split
    · split
      · simp
      · split <;> rename_i e <;> simp [store_eq e]
    · simp
    · split <;> simp

@[simp] theorem takeOutbound_store {s : State} {c : Fin 8} {fuel : Nat} : (takeOutbound s c fuel).store = s.store := by
  induction fuel generalizing s with
  | zero => rfl
  | succ n ih =>
    rw [takeOutbound]; split
    · rfl
    · split <;> rename_i e <;> simp [store_eq e, ih]

@[simp] theorem serveOutbound_store {s : State} {c : Fin 8} : (serveOutbound s c).store = s.store := by simp [serveOutbound]

@[simp] theorem ringFirmware_store {s : State} {c : Fin 8} : (ringFirmware s c).store = s.store := by simp [ringFirmware]

@[simp] theorem pushOut_store {s : State} {c : Fin 8} {e : List W32} : (pushOut s c e).1.store = s.store := by
  unfold pushOut; split <;> simp

@[simp] theorem releaseOne_store {s : State} {c : Fin 8} {d : Deferred} : (releaseOne s c d).1.store = s.store := by
  cases d <;> simp [releaseOne, apply_ite Prod.fst]

@[simp] theorem releaseAll_store {s : State} {c : Fin 8} {fuel : Nat} : (releaseAll s c fuel).store = s.store := by
  induction fuel generalizing s with
  | zero => rfl
  | succ n ih =>
    rw [releaseAll]; split
    · simp
    · split <;> rename_i e <;> simp [store_eq e, ih]

@[simp] theorem release_store {s : State} {c : Fin 8} : (release s c).store = s.store := by simp [release]

@[simp] theorem abortProgram_store {s : State} {c : Fin 8} : (abortProgram s c).store = s.store := by simp [abortProgram]

/-! ### Tables, programs, replay, resets and accounts -/

@[simp] theorem onTable_store {s : State} {i : Nat} {f : Table → Table} : (onTable s i f).store = s.store := by simp [onTable]

@[simp] theorem putMapWord_store {i : Nat} {t : Table} {v : Nat} {s : State} {w : Nat} :
    (putMapWord i t v s w).store = s.store := by simp [putMapWord]

@[simp] theorem loadRows_store {s : State} {i : Nat} {t : Table} {v : Nat} {rs : List Nat} :
    (loadRows s i t v rs).store = s.store := by simp [loadRows, foldl_store]

@[simp] theorem loadTable_store {s : State} {i : Nat} : (loadTable s i).store = s.store := by
  unfold loadTable; split <;> simp [foldl_store]

@[simp] theorem readRowWord_store {i : Nat} {t : Table} {g r : Nat} {a : State × Bool} {w : Nat} :
    (readRowWord i t g r a w).1.store = a.1.store := by simp [readRowWord, apply_ite Prod.fst]

@[simp] theorem readRows_store {i : Nat} {t : Table} {g : Nat} {s : State} {rs : List Nat} :
    (readRows i t g s rs).1.store = s.store := by
  rw [readRows, charge_store]
  exact foldl_fst_store fun _ _ => foldl_fst_store fun _ _ => readRowWord_store

@[simp] theorem publishRows_store {s : State} {i : Nat} {rows : Tab Bytes} : (publishRows s i rows).1.store = s.store := by
  unfold publishRows; split
  · rfl
  · exact (foldl_fst_store fun _ _ => putSlots_store).trans (by simp)

@[simp] theorem gatherFault_store {s : State} {e : Sqe} {t : Table} {g : Nat} : (gatherFault s e t g).store = s.store := by
  simp [gatherFault]

@[simp] theorem joinStep_store {s : State} {i : Nat} {x : StepSrc} : (joinStep s i x).store = s.store := by simp [joinStep]

@[simp] theorem joinWaiting_store {s : State} {i : Nat} : (joinWaiting s i).store = s.store := by
  unfold joinWaiting; split
  · rfl
  · refine (foldl_store fun a x => ?_).trans onTable_store
    split
    · rfl
    · split <;> simp

@[simp] theorem closeStep_store {s : State} {i : Nat} : (closeStep s i).store = s.store := by
  unfold closeStep; split <;> simp [foldl_store]

@[simp] theorem closeSteps_store {s : State} {i : Nat} : (closeSteps s i).store = s.store := by simp [closeSteps]

@[simp] theorem abortPaused_store {s : State} {c : Fin 8} : (abortPaused s c).store = s.store := by simp [abortPaused]

@[simp] theorem stopRunning_store {s : State} {c : Fin 8} : (stopRunning s c).store = s.store := by simp [stopRunning]

@[simp] theorem endSaved_store {s : State} {i : Nat} {k : CmdKey} : (endSaved s i k).store = s.store := by
  unfold endSaved; split <;> simp

@[simp] theorem stopPrograms_store {s : State} {k : CmdKey} : (stopPrograms s k).store = s.store := by
  simp [stopPrograms, foldl_store]

@[simp] theorem forgetHandle_store {s : State} {k : CmdKey} : (forgetHandle s k).store = s.store := by simp [forgetHandle]

@[simp] theorem dropWork_store {s : State} {k : CmdKey} : (dropWork s k).store = s.store := by
  unfold dropWork; extract_lets qi imp mv t fw v w x y
  have h : y.store = s.store := by simp [y, x, w, v, t, foldl_store]
  clear_value y qi
  cases qi <;> simp [h]

@[simp] theorem endBinding_store {s : State} {i : Nat} : (endBinding s i).store = s.store := by simp [endBinding, foldl_store]

@[simp] theorem putSections_store {s : State} {xs : List (Nat × Bytes)} {tag : Nat} : (putSections s xs tag).store = s.store := by
  simp [putSections, foldl_store]

@[simp] theorem unloadImage_store {s : State} {fn : Fin 128} {i : Nat} : (unloadImage s fn i).store = s.store := by
  unfold unloadImage; split <;> simp

@[simp] theorem placeProgram_store {s : State} {c : Fin 8} {acct : Nat} {o : Option Nat} {first : Nat} {c0 : Bool} {b : Bytes} :
    (placeProgram s c acct o first c0 b).store = s.store := by simp [placeProgram, foldl_store]

@[simp] theorem startProgram_store {s : State} {c : Fin 8} {b : Bool} {im : Image} {p : Prog} {start : List W32} :
    (startProgram s c b im p start).store = s.store := by
  unfold startProgram; extract_lets first q t u v k w
  have hv : v.store = s.store := by rw [postBox_store, onBankOf_store, placeProgram_store]
  have hw : w.store = s.store := by
    dsimp only [w]; clear_value v; split
    · rw [onCore_store, hv]
    · exact hv
  clear_value w
  split
  · rw [coreEvent_store, syncMbox_store, hw]
  · exact hw

@[simp] theorem readyCore_store {s : State} {i : Option Nat} {core : Fin 8} {b : Bool} {acct : Nat} {im : Image} :
    (readyCore s i core b acct im).1.store = s.store := by
  unfold readyCore; extract_lets t
  have ht : t.store = s.store := by
    dsimp only [t]; split <;> simp
  split
  · exact ht
  · split
    · exact ht
    · split <;> simp [ht]

@[simp] theorem holdExec_store {s : State} {e : Sqe} {opc : Nat} {waited : Bool} : (holdExec s e opc waited).store = s.store := by
  simp [holdExec]

@[simp] theorem dispatchRecord_store {s0 s : State} {k : CmdKey} {i : Option Nat} {b : Bool} {c : Fin 8} {im : Image}
    {waited : Bool} :
    (dispatchRecord s0 s k i b c im waited).1.store = s.store := by
  unfold dispatchRecord; split <;> simp

@[simp] theorem execBody_store {e : Sqe} {core : Fin 8} {waited : Bool} {s : State} :
    (execBody e core waited s).store = s.store := by
  unfold execBody; dsimp only; split
  · simp
  · split
    · simp
    · split
      · simp
      · split
        · simp
        · split <;> rename_i e'
          · simp [store_eq e']
          · rw [startProgram_store, poolPut_store]
            split <;> simp [store_eq e']

@[simp] theorem replayCompare_store {s : State} {e : Sqe} {f : FlightEntry} {rc data : Bytes} :
    (replayCompare s e f rc data).store = s.store := by simp [replayCompare]

@[simp] theorem replayAttend_store {s : State} {e : Sqe} {x : Sess} {f : FlightEntry} : (replayAttend s e x f).store = s.store := by
  unfold replayAttend; dsimp only; split <;> simp

@[simp] theorem replayPinned_store {s : State} {e : Sqe} {f : FlightEntry} : (replayPinned s e f).store = s.store := by
  unfold replayPinned; dsimp only; split
  · rfl
  · split
    · simp
    · split <;> rename_i e' <;> simp [store_eq e']

@[simp] theorem replayScan_store {s : State} {e : Sqe} {f : FlightEntry} : (replayScan s e f).store = s.store := by
  unfold replayScan; dsimp only; split
  · simp
  · split <;> simp

@[simp] theorem replayGather_store {s : State} {e : Sqe} {f : FlightEntry} : (replayGather s e f).store = s.store := by
  unfold replayGather; dsimp only; split
  · rfl
  · split <;> rename_i e' <;> simp [store_eq e']

@[simp] theorem placeSnap_store {c : Fin 8} {tag : Nat} {snap : Bytes} {a : State} {i : Nat} :
    (placeSnap c tag snap a i).store = a.store := by rw [placeSnap, writeMem_store]

@[simp] theorem placeTile_store {c : Fin 8} {a : State} {t : Nat} : (placeTile c a t).store = a.store := by simp [placeTile]

@[simp] theorem replayExecute_store {s : State} {e : Sqe} {x : Sess} {f : FlightEntry} {im : Image} {waited : Bool} :
    (replayExecute s e x f im waited).store = s.store := by
  unfold replayExecute; dsimp only; split <;> rename_i e'
  · simp [store_eq e']
  · simp [store_eq e', foldl_store]

@[simp] theorem replayBody_store {e : Sqe} {waited : Bool} {s : State} : (replayBody e waited s).store = s.store := by
  unfold replayBody; split
  · simp
  · split
    · rfl
    · split
      · rfl
      · split
        · simp
        · dsimp only; repeat' split
          all_goals simp

@[simp] theorem endSilently_store {s : State} {k : CmdKey} : (endSilently s k).store = s.store := by simp [endSilently]

@[simp] theorem resetController_store {s : State} {f : Fin 128} : (resetController s f).store = s.store := by
  simp [resetController, foldl_store]

@[simp] theorem resetFunction_store {s : State} {f : Fin 128} : (resetFunction s f).store = s.store := by simp [resetFunction]

@[simp] theorem judgeScrub_store {s : State} : (judgeScrub s).store = s.store := by simp [judgeScrub]

@[simp] theorem reloadPool_store {s : State} {a : Nat} : (reloadPool s a).store = s.store := by simp [reloadPool, foldl_store]

@[simp] theorem bindAccount_store {s : State} {a : Nat} : (bindAccount s a).store = s.store := by
  unfold bindAccount; repeat' split
  all_goals simp

@[simp] theorem quarantineTag_store {s : State} {a : Nat} : (quarantineTag s a).store = s.store := by simp [quarantineTag]

@[simp] theorem dropIngest_store {s : State} {i : Nat} : (dropIngest s i).store = s.store := by simp [dropIngest]

@[simp] theorem dropIndex_store {s : State} {i : Nat} : (dropIndex s i).store = s.store := by simp [dropIndex]

@[simp] theorem dropNs_store {s : State} {nsid : Nat} : (dropNs s nsid).store = s.store := by simp [dropNs, foldl_store]

@[simp] theorem dropAccountData_store {s : State} {a : Nat} : (dropAccountData s a).store = s.store := by
  unfold dropAccountData; split <;> simp [foldl_store]

@[simp] theorem newTk_store {s : State} {a : Nat} {mode1 : Bool} {secret : Bytes} : (newTk s a mode1 secret).store = s.store := by
  simp [newTk]

@[simp] theorem respond_store {s : State} {ep : Endpoint} {b : Bytes} : (respond s ep b).store = s.store := by simp [respond]

@[simp] theorem tkReply_store {s : State} {f : Fin 128} {kop result : Nat} {fields : Bytes} :
    (tkReply s f kop result fields).store = s.store := by simp [tkReply]

@[simp] theorem startLock_store {s : State} {a : Nat} {claim : Option (Bool × Bytes)} : (startLock s a claim).store = s.store := by
  simp [startLock]

@[simp] theorem returnSegment_store {s : State} {g : Ingest} : (returnSegment s g).store = s.store := by
  unfold returnSegment; split <;> simp

@[simp] theorem finishLock_store {s : State} {a : Nat} : (finishLock s a).store = s.store := by
  unfold finishLock; extract_lets x t u v w y z b
  have hb : b.store = s.store := by
    dsimp only [b]; rw [bindAccount_store]
    have hy : y.store = s.store := by simp [y, w, v, u, t, foldl_store]
    dsimp only [z]; clear_value y; split <;> simp [hy]
  clear_value b
  split
  · rfl
  · split
    · split <;> simp [hb]
    · exact hb

@[simp] theorem finishLocks_store {s : State} : (finishLocks s).store = s.store := by simp [finishLocks, foldl_store]

@[simp] theorem tdiError_store {s : State} {f : Fin 128} : (tdiError s f).store = s.store := by
  unfold tdiError; dsimp only; split <;> simp

/-! ### The pilot, and what waits -/

@[simp] theorem cfUndefine_store {s : State} {off n : Nat} : (cfUndefine s off n).store = s.store := by simp [cfUndefine]

@[simp] theorem cfErased_store {s : State} {l : List Nat} : (cfErased s l).store = s.store := by simp [cfErased]

@[simp] theorem cfProgram_store {s : State} {off : Nat} {b : Bytes} : (cfProgram s off b).store = s.store := by simp [cfProgram]

@[simp] theorem cfReset_store {s : State} : (cfReset s).store = s.store := by
  unfold cfReset; dsimp only
  rw [onCf_store, foldl_store fun _ _ => cfUndefine_store, foldl_store fun _ _ => cfUndefine_store]

@[simp] theorem cfRedo_store {s : State} : (cfRedo s).store = s.store := by simp [cfRedo]

@[simp] theorem cfRegions_store {s : State} : (cfRegions s).store = s.store := by simp [cfRegions]

@[simp] theorem cfWriteImage_store {s : State} {img : Bytes} {oldLen : Nat} : (cfWriteImage s img oldLen).store = s.store := by
  simp [cfWriteImage]

@[simp] theorem fwFailed_store {s : State} {w : Who} {reason path : Nat} : (fwFailed s w reason path).store = s.store := by
  simp [fwFailed]

@[simp] theorem setStage_store {s : State} {n : Nat} : (setStage s n).store = s.store := by simp [setStage]

@[simp] theorem pilotReset_store {s : State} : (pilotReset s).store = s.store := by simp [pilotReset]

@[simp] theorem newNonce_store {s : State} {n : W64} : (newNonce s n).store = s.store := by simp [newNonce]

@[simp] theorem drawNonce_store {s : State} : (drawNonce s).store = s.store := by simp [drawNonce]

@[simp] theorem runImage_store {s : State} {img : Bytes} : (runImage s img).store = s.store := by simp [runImage]

@[simp] theorem endSpdm_store {s : State} : (endSpdm s).store = s.store := by simp [endSpdm]

@[simp] theorem finishActivation_store {s : State} : (finishActivation s).store = s.store := by
  unfold finishActivation; dsimp only; split
  · rfl
  · split <;> simp

@[simp] theorem tdisToError_store {s : State} : (tdisToError s).store = s.store := by simp [tdisToError, foldl_store]

@[simp] theorem publishWhenRoom_store {s : State} {i : Nat} : (publishWhenRoom s i).1.store = s.store := by
  unfold publishWhenRoom; repeat' split
  all_goals simp

@[simp] theorem commitBody_store {e : Sqe} {s : State} : (commitBody e s).store = s.store := by
  unfold commitBody; dsimp only; split
  · simp
  · simp
  · split
    · simp
    · split
      · simp
      · split <;> rename_i e <;> simp [store_eq e]

@[simp] theorem unbindBody_store {e : Sqe} {s : State} : (unbindBody e s).store = s.store := by
  unfold unbindBody; dsimp only; split
  · simp
  · split
    · simp
    · split
      · simp
      · split
        · simp
        · split <;> rename_i e <;> simp [store_eq e]
  · simp

@[simp] theorem publishBody_store {e : Sqe} {s : State} : (publishBody e s).store = s.store := by
  unfold publishBody; dsimp only; split <;> simp

@[simp] theorem tableDestroyBody_store {e : Sqe} {s : State} : (tableDestroyBody e s).store = s.store := by
  unfold tableDestroyBody; dsimp only; split <;> simp

@[simp] theorem commitIngest_store {s : State} {i : Nat} : (commitIngest s i).store = s.store := by
  unfold commitIngest; split <;> rename_i e <;> simp [store_eq e]

@[simp] theorem ingestCommits_store {s : State} : (ingestCommits s).store = s.store := by simp [ingestCommits, foldl_store]

@[simp] theorem runHeld_store {s : State} {j : Job} : (runHeld s j).store = s.store := by simp [runHeld]

@[simp] theorem releaseCores_store {s : State} : (releaseCores s).store = s.store := by simp [releaseCores, foldl_store]

@[simp] theorem serveCores_store {s : State} : (serveCores s).store = s.store := by simp [serveCores, foldl_store]

@[simp] theorem settle_store {s : State} : (settle s).store = s.store := by simp [settle, foldl_store]

/-! ### Tenant keys and the sanitize -/

@[simp] theorem tkMessage_store {s : State} {f : Fin 128} {session : Option Nat}
    {body : State → State} (hb : ∀ s, (body s).store = s.store) :
    (tkMessage s f session body).store = s.store := by simp [tkMessage, hb]

@[simp] theorem tkLockFor_store {s : State} {f : Fin 128} {kop : Nat} {claim : Option (Bool × Bytes)} :
    (tkLockFor s f kop claim).store = s.store := by simp [tkLockFor]

@[simp] theorem tkClaimBody_store {f : Fin 128} {mode : Byte} {secret : Bytes} {s : State} :
    (tkClaimBody f mode secret s).store = s.store := by simp [tkClaimBody]

@[simp] theorem wipeModule_store {s : State} : (wipeModule s).store = s.store := by simp [wipeModule, foldl_store]

@[simp] theorem rekeyAccount_store {s : State} {a : Nat} : (rekeyAccount s a).store = s.store := by simp [rekeyAccount]

@[simp] theorem cryptoErase_store {s : State} {k : CmdKey} : (cryptoErase s k).store = s.store := by simp [cryptoErase, foldl_store]

@[simp] theorem sanitizeBody_store {e : Sqe} {s : State} : (sanitizeBody e s).store = s.store := by simp [sanitizeBody]

/-! ### Settings and the boot -/

@[simp] theorem applySettings_store {s : State} : (applySettings s).store = s.store := by
  unfold applySettings; dsimp only; rw [onDict_store, setGatherCfg_store]

@[simp] theorem restoreFactory_store {s : State} : (restoreFactory s).1.store = s.store := by
  unfold restoreFactory; dsimp only; split
  · rfl
  · rw [applySettings_store, onCf_store, onDict_store]

@[simp] theorem portStart_store {s : State} : (portStart s).store = s.store := by
  unfold portStart; rw [onDict_store, setGatherCfg_store]

@[simp] theorem bootFailures_store {s : State} {bad : Bool} {replicaOk : List Bool} :
    (bootFailures s bad replicaOk).store = s.store := by simp [bootFailures, foldl_store]

end Sys2Proof.Machine
end

section
/-! SUPPORT. What no command breaks: every command's outcome keeps (`Keeps`) what the state it starts from has. -/

namespace Sys2Proof.Machine

/-- Where an outcome is a next state, `Keeps` holds from `r` to it. -/
def OutKeeps (r : State) (o : Out) : Prop := ∀ t, o = .next t → Keeps r t

theorem OutKeeps.next {r t : State} (h : Keeps r t) : OutKeeps r (.next t) := fun _ e => Host.Outcome.next.inj e ▸ h

theorem OutKeeps.fault {r : State} {f : Fault} : OutKeeps r (.fault f) := fun _ e => by contradiction

theorem OutKeeps.ite {r : State} {o p : Out} {c : Prop} [Decidable c] (h : OutKeeps r o) (g : OutKeeps r p) :
    OutKeeps r (if c then o else p) := by
  split
  · exact h
  · exact g

variable {r s : State}

/-! ### Cores, tiles and vectors -/

theorem execPassIssue_keeps {c : Fin 8} (h : Keeps r s) : OutKeeps r (execPassIssue c s) := by
  unfold execPassIssue
  split
  · exact .next h
  · exact .next (.ite (issuePass_keeps (passScan_keeps h)) h)

theorem execResidueFault_keeps {c : Fin 8} {e : Fin 4} {t : EngineTest} (h : Keeps r s) : OutKeeps r (execResidueFault c e t s) := by
  have ht := testedEngine_keeps (c := c) (e := e) (t := t)
    (abandonTile_keeps (c := c) (cause := 0x10) (status := 0x10) (at_ := issuedMe s.cores[c]) h)
  exact .ite .fault (.ite (.next h) (.next (.ite (settle_keeps (endProgram_keeps ht)) ht)))

theorem execTileOpen_keeps {c : Fin 8} (h : Keeps r s) : OutKeeps r (execTileOpen c s) := by
  unfold execTileOpen
  split
  · exact .next h
  · exact .ite (.next (moveCore_keeps h)) (.next (.ite (openTile_keeps (.foldl h fun _ _ h => rescan_keeps h)) h))

theorem execTmCopyComplete_keeps {c : Fin 8} (h : Keeps r s) : OutKeeps r (execTmCopyComplete c s) := by
  unfold execTmCopyComplete
  split
  · exact .next h
  · exact .next (.ite h (runCopy_keeps h))

theorem execMboxOutPush_keeps {c : Fin 8} (h : Keeps r s) : OutKeeps r (execMboxOutPush c s) :=
  .ite (.next h) (.ite (.next (act_keeps h)) (.next (settle_keeps (accessFault_keeps h))))

theorem execFirmwareMboxPost_keeps {c : Fin 8} {e : List W32} (h : Keeps r s) : OutKeeps r (execFirmwareMboxPost c e s) := by
  have ha : Keeps r (coreEvent (onCore s c fun k =>
      if k.useB then { k with bankA := postBank k.bankA e } else { k with bankB := postBank k.bankB e }) c 1) :=
    coreEvent_keeps (onCore_keeps h)
  have hb : Keeps r (coreEvent (syncMbox (onBank s c fun b => postBank b e) c) c 1) :=
    coreEvent_keeps (syncMbox_keeps (onBank_keeps h))
  exact .ite .fault (.ite (.next (.ite (settle_keeps (abortPaused_keeps ha)) ha))
    (.next (.ite (settle_keeps (stopRunning_keeps hb)) hb)))

theorem execCpAccessFault_keeps {c : Fin 8} {l : CpLoad} (h : Keeps r s) : OutKeeps r (execCpAccessFault c l s) := by
  have hl := cpLoads_keeps (c := c) (a := l.addr) h
  exact .ite (.next h) (.ite (.next (settle_keeps (vecLoad_keeps h))) (.next (.ite hl (settle_keeps (accessFault_keeps hl)))))

theorem execVectorElementwise_keeps {c : Fin 8} {v : VElem} {fmt : BitVec 4} {vd va vb vc : Fin 32} (h : Keeps r s) :
    OutKeeps r (execVectorElementwise c v fmt vd va vb vc s) :=
  .next (vecIssue_keeps h fun _ h => .ite (elemBody_keeps h) (accessFault_keeps h))

theorem execVectorReduction_keeps {c : Fin 8} {op : VRed} {fmt : BitVec 4} {vd va vb : Fin 32} {osat : Bool} (h : Keeps r s) :
    OutKeeps r (execVectorReduction c op fmt vd va vb osat s) := by
  refine .next (vecIssue_keeps h fun s h => ?_)
  extract_lets f b xs sums ext
  have hs : ∀ ys, Keeps r (sums ys) := fun ys => countVec_keeps (vPutCodes_keeps h)
  have he : ∀ v, Keeps r (ext v) := fun v => by
    cases v with
    | none => exact vPutCodes_keeps (fresh_keeps h)
    | some v => exact vPutCodes_keeps h
  refine .ite (accessFault_keeps h) ?_
  cases op with
  | sum => exact hs _
  | dot => exact hs _
  | max => exact he _
  | min => exact he _

theorem execVectorStore_keeps {c : Fin 8} {vs : Fin 32} {addr : Nat} {fmt : BitVec 4} (h : Keeps r s) :
    OutKeeps r (execVectorStore c vs addr fmt s) := by
  refine .next (vecIssue_keeps h fun s h => ?_)
  split
  · exact accessFault_keeps h
  · exact .ite (accessFault_keeps h) (storedTile_keeps (writeMem_keeps h))

/-! ### Lamp clusters and merges -/

theorem execLampDispatch_keeps {ch : Fin 48} {d : LampDispatch} (h : Keeps r s) : OutKeeps r (execLampDispatch ch d s) := by
  refine .ite .fault ?_
  split
  · exact .next (deliver_keeps h)
  · exact .ite (.next h) (.ite (.next (settle_keeps (accessFault_keeps h))) (.next (act_keeps h)))

theorem execLampContextStart_keeps {ch : Fin 48} (h : Keeps r s) : OutKeeps r (execLampContextStart ch s) := by
  unfold execLampContextStart
  split
  · exact .next h
  · split
    · exact .next h
    · exact .next (releaseCores_keeps (startCtx_keeps (onCluster_keeps h)))

theorem execLampInstructionIssue_keeps {ch : Fin 48} {i : LampInsn} (h : Keeps r s) : OutKeeps r (execLampInstructionIssue ch i s) := by
  unfold execLampInstructionIssue
  split
  · exact .next h
  · dsimp only
    split <;> rename_i e <;> have hl := Keeps.ofPair e (lampStep_keeps h)
    · exact .next (onCtx_keeps hl)
    · exact .next (onCluster_keeps (charge_keeps hl))

theorem execLampDataArrive_keeps {ch : Fin 48} {slot : Fin 512} {a : LampReply} (h : Keeps r s) :
    OutKeeps r (execLampDataArrive ch slot a s) := by
  unfold execLampDataArrive
  split
  · exact .next h
  · split
    · exact .next (unitFreed_keeps h)
    · split
      · exact .next h
      · split
        rename_i e
        exact .next (onCtx_keeps (Keeps.ofPair e (lampReturn_keeps h)))

theorem execLampContextEnd_keeps {ch : Fin 48} {slot : Fin 512} (h : Keeps r s) : OutKeeps r (execLampContextEnd ch slot s) := by
  unfold execLampContextEnd
  split
  · exact .next h
  · extract_lets u v w
    have hu : Keeps r u := onCluster_keeps h
    clear_value u
    have hv : Keeps r v := .ite hu (postRecord_keeps hu)
    clear_value v
    have hw : Keeps r w := .ite (onCluster_keeps hv) hv
    clear_value w
    refine .ite (.next h) (.ite (.next hw) ?_)
    split
    · exact .next (.ite (settle_keeps (endProgram_keeps hw)) hw)
    · split
      · exact .next (.ite (settle_keeps (contextFault_keeps hw)) hw)
      · exact .next hw

theorem execPartialMerge_keeps {k : CmdKey} {u : Nat} {core : Option (Fin 8)} {b : List Byte} (h : Keeps r s) :
    OutKeeps r (execPartialMerge k u core b s) := by
  refine .ite .fault (.ite (.next h) ?_)
  extract_lets q v
  have hv : Keeps r v := Keeps.mk_ h rfl rfl rfl
  clear_value v
  split
  · exact .next (Keeps.mk_ h rfl rfl rfl)
  · extract_lets w
    have hw : Keeps r w := logEvent_keeps hv
    clear_value w
    refine .ite (.next (Keeps.mk_ h rfl rfl rfl)) ?_
    split
    · exact .next (settle_keeps (abandonTile_keeps hv))
    · exact .next (settle_keeps (cancelWith_keeps hw))

/-! ### Attention, search, indexes, ingest and tables -/

theorem execAttendMergeComplete_keeps {k : CmdKey} (h : Keeps r s) : OutKeeps r (execAttendMergeComplete k s) := by
  refine .next ?_
  split
  · exact h
  · split
    · exact h
    · exact settle_keeps (attendMerge_keeps h)

theorem execSearchRoundMerged_keeps {k : CmdKey} (h : Keeps r s) : OutKeeps r (execSearchRoundMerged k s) := by
  refine .next ?_
  split
  · exact h
  · exact .ite h (afterQuery_keeps (roundMerged_keeps h))

theorem execSearchReplyMerge_keeps {k : CmdKey} {n : Nat} (h : Keeps r s) : OutKeeps r (execSearchReplyMerge k n s) := by
  refine .next ?_
  split
  · exact h
  · exact .ite h (afterQuery_keeps (replyMerged_keeps h))

theorem execSearchTimeBudgetExpiry_keeps {k : CmdKey} (h : Keeps r s) : OutKeeps r (execSearchTimeBudgetExpiry k s) := by
  refine .next ?_
  split
  · exact h
  · split
    · exact h
    · exact .ite h (afterQuery_keeps (finishQuery_keeps (chargeReads_keeps h)))

theorem execCompactionChunk_keeps {i : Nat} (h : Keeps r s) : OutKeeps r (execCompactionChunk i s) := by
  refine .next ?_
  split
  · exact h
  · exact .ite h (compactChunk_keeps h)

theorem execIngestSegment_keeps {i : Nat} {core : Fin 8} (h : Keeps r s) : OutKeeps r (execIngestSegment i core s) := by
  refine .next ?_
  split
  · exact h
  · split
    · have hskip : ∀ g seg f, Keeps r (onIngest (dropChunks s g seg) i f) := fun _ _ _ => onIngest_keeps (dropChunks_keeps h)
      refine .ite h (.ite (settle_keeps (hskip ..)) ?_)
      split
      · refine .ite (settle_keeps (rejectSegment_keeps (hskip ..))) ?_
        split
        · rename_i e
          exact startSegment_keeps (dropChunks_keeps (Keeps.ofPair e (readyCore_keeps h)))
        · exact h
      · exact h
    · exact h

theorem execIngestChunkList_keeps {i : Nat} {ok : Bool} {l : List Chunk} (h : Keeps r s) : OutKeeps r (execIngestChunkList i ok l s) := by
  refine .next ?_
  split
  · split
    · exact h
    · have hb := endBinding_keeps (i := i) h
      exact settle_keeps (onIngest_keeps (.ite (.foldl hb fun _ _ h => applyChunk_keeps h) (rejectSegment_keeps hb)))
  · exact h

theorem execIngestCommit_keeps {i : Nat} (h : Keeps r s) : OutKeeps r (execIngestCommit i s) := by
  refine .next ?_
  split
  · exact h
  · exact .ite h (commitIngest_keeps h)

theorem execHotRowWindowEnd_keeps {i : Nat} (h : Keeps r s) : OutKeeps r (execHotRowWindowEnd i s) := by
  refine .next ?_
  split
  · exact h
  · exact .ite h (onTable_keeps h)

/-! ### Sessions, cores that switch, the host interface -/

theorem execHotIdleDemote_keeps {i : Nat} (h : Keeps r s) : OutKeeps r (execHotIdleDemote i s) := by
  refine .next ?_
  split
  · exact h
  · exact .ite (settle_keeps (dropGrant_keeps h)) h

theorem execClass0Preempt_keeps {core : Fin 8} {i : Nat} (h : Keeps r s) : OutKeeps r (execClass0Preempt core i s) := by
  refine .next ?_
  split
  · exact h
  · have hm := makeHot_keeps (i := i) h
    exact .ite h (.ite hm (onCore_keeps (coreEvent_keeps (bringIn_keeps hm))))

theorem execCoreSwitchComplete_keeps {core : Fin 8} (h : Keeps r s) : OutKeeps r (execCoreSwitchComplete core s) := by
  refine .next (.ite h ?_)
  split
  · exact finishSwitch_keeps h
  · exact .ite (finishSwitch_keeps h) h

theorem execChkTestWrite_keeps {canopy : Bool} {u : Fin 16} {v : W64} (h : Keeps r s) : OutKeeps r (execChkTestWrite canopy u v s) := by
  refine .next (.ite ?_ (Keeps.mk_ h rfl rfl rfl))
  split
  · exact Keeps.mk_ h rfl rfl rfl
  · exact h

theorem execIoWatchdogExpiry_keeps {k : CmdKey} (h : Keeps r s) : OutKeeps r (execIoWatchdogExpiry k s) := by
  refine .next ?_
  split
  · exact h
  · exact .ite h (fail_keeps (logEvent_keeps (bump_keeps (cancelJob_keeps h))))

theorem execFunctionD3hot_keeps {f : Fin 128} (h : Keeps r s) : OutKeeps r (execFunctionD3hot f s) :=
  have hd : Keeps r (onCtrl s f fun c => { c with d3hot := true }) := onCtrl_keeps h
  .next (.ite h (.ite (park_keeps hd) hd))

/-! ### Flash -/

theorem execNandReadComplete_keeps {ch : Fin 48} {die : Fin 16} {o : ReadOutcome} (h : Keeps r s) :
    OutKeeps r (execNandReadComplete ch die o s) := by
  refine .next ?_
  split
  · exact .ite (readEnded_keeps h) h
  · exact h

theorem execNandProgramComplete_keeps {ch : Fin 48} {die : Fin 16} {pass : Bool} (h : Keeps r s) :
    OutKeeps r (execNandProgramComplete ch die pass s) := by
  refine .next ?_
  split
  · exact h
  · have hd : Keeps r (onChan s ch fun c => { c with dieActive := c.dieActive.del die.val }) := onChan_keeps h
    split
    · exact mediaEnded_keeps (.ite (programPassed_keeps hd) (programFailed_keeps hd))
    · exact .ite (mediaEnded_keeps (coverWordline_keeps (onChan_keeps hd)))
        (mediaEnded_keeps (newParity_keeps (onChan_keeps (retireBlock_keeps (bump_keeps hd)))))
    · exact h

theorem execNandEraseComplete_keeps {ch : Fin 48} {die : Fin 16} {pass : Bool} (h : Keeps r s) :
    OutKeeps r (execNandEraseComplete ch die pass s) := by
  refine .next ?_
  split
  · exact h
  · rename_i o _
    have hl : Keeps r (leaveGroup (onChan s ch fun c => { c with dieActive := c.dieActive.del die.val }) ch o.block) :=
      leaveGroup_keeps (onChan_keeps h)
    exact .ite (.ite (mediaEnded_keeps (onChan_keeps hl)) (mediaEnded_keeps (retireBlock_keeps (bump_keeps hl)))) h

theorem execClass0FlashPreempt_keeps {ch : Fin 48} {die : Fin 16} {o : NandOp} (h : Keeps r s) :
    OutKeeps r (execClass0FlashPreempt ch die o s) :=
  have hp := preemptDie_keeps (ch := ch) (d := die.val) (op := o) h
  .next (.ite h (startDie_keeps (.ite hp (onChan_keeps hp))))

theorem execLadderBudgetExpiry_keeps {ch : Fin 48} {a : Nat} (h : Keeps r s) : OutKeeps r (execLadderBudgetExpiry ch a s) := by
  refine .next ?_
  dsimp only
  split
  · exact exhaust_keeps h
  · exact .ite (exhaust_keeps h) h

theorem execBlockVerify_keeps {ch : Fin 48} {b : Nat} {pages : List PageResult} (h : Keeps r s) :
    OutKeeps r (execBlockVerify ch b pages s) := by
  refine .ite .fault (.next (.ite h (.ite ?_ ?_)))
  · dsimp only
    split
    · exact onChan_keeps h
    · exact .ite (queueErase_keeps (onChan_keeps h)) (onChan_keeps h)
  · have hr := redoMoves_keeps (ch := ch) (t := b) (onChan_keeps (n := ch)
      (f := fun c => listRefresh (onBlock c b fun x => { x with strikes := (blockOf s.channels[ch] b).strikes + 1 }) b)
      (bump_keeps (id := 0x61200B) (n := 1) h))
    exact .ite (retireBlock_keeps hr) hr

theorem execMoveCommit_keeps {ch : Fin 48} {b : Nat} (h : Keeps r s) : OutKeeps r (execMoveCommit ch b s) :=
  .ite .fault (.next (.ite h (.foldl h fun _ _ h => commitMove_keeps h)))

theorem execGarbageCollection_keeps {ch : Fin 48} (h : Keeps r s) : OutKeeps r (execGarbageCollection ch s) := by
  refine .next (.ite h ?_)
  split
  · exact startMove_keeps h
  · exact h

theorem execRefreshMove_keeps {ch : Fin 48} (h : Keeps r s) : OutKeeps r (execRefreshMove ch s) := by
  refine .next ?_
  split
  · exact startMove_keeps (.ite (onChan_keeps h) h)
  · exact h

theorem execWearLevelMove_keeps {ch : Fin 48} (h : Keeps r s) : OutKeeps r (execWearLevelMove ch s) := by
  refine .next (.ite h ?_)
  extract_lets src dst
  clear_value src dst
  split
  · exact startMove_keeps h
  · exact h

theorem execNandDieFailure_keeps {ch : Fin 48} {die : Fin 16} (h : Keeps r s) : OutKeeps r (execNandDieFailure ch die s) := by
  refine .next (.ite h ?_)
  extract_lets ops
  split
  refine mediaEnded_keeps (.foldl ?groups fun _ _ h => issueParity_keeps h)
  refine .foldl ?parity fun _ _ h => newParity_keeps h
  refine .foldl (.foldl (.foldl ?moves fun _ _ h => redoMoves_keeps h) fun _ _ h => startMove_keeps h) fun _ _ h => endOnDie_keeps h
  refine .foldl (logEvent_keeps (bump_keeps (onHealth_keeps ?lost fun _ => rfl))) fun _ _ h => logEvent_keeps h
  exact .foldl (onChan_keeps (retireDie_keeps h)) fun _ _ h => setEntry_keeps h

theorem execCfArrayRead_keeps {a : W32} {fetch : Bool} (h : Keeps r s) : OutKeeps r (execCfArrayRead a fetch s) := by
  refine .next ?_
  split
  · exact h
  · have hs : Keeps r (if fetch && s.cf.seq != [] then cfSelfOp s else s) := .ite (cfSelfOp_keeps h) h
    exact .ite (onCf_keeps hs) (cfServe_keeps hs)

/-! ### Security, start-up and resets -/

theorem execSpdmRequest_keeps {ep : Endpoint} {q : SpdmReq} (h : Keeps r s) : OutKeeps r (execSpdmRequest ep q s) := by
  refine .next (.ite h ?_)
  split
  rename_i e
  exact respond_keeps (Keeps.ofPair e (spdmAnswer_keeps h))

theorem execBankTest_keeps {u : W32} (h : Keeps r s) : OutKeeps r (execBankTest u s) := by
  refine .next (.ite h ?_)
  extract_lets ok v f w
  have hv : Keeps r v := onPower_keeps h
  clear_value v
  have hw : Keeps r w := logEvent_keeps (onHealth_keeps hv fun _ => rfl)
  exact .ite (settle_keeps (finishSync_keeps (onHealth_keeps hv fun _ => rfl))) (.ite (noticeAll_keeps hw) hw)

theorem execVauxRemoval_keeps (h : Keeps r s) : OutKeeps r (execVauxRemoval s) :=
  have hv : Keeps r (onDict (onPower s fun p => { p with vaux := false }) fun d => { d with i3c := false, eid := 0 }) :=
    onDict_keeps (onPower_keeps h) fun _ => rfl
  .next (.ite hv (pilotDown_keeps hv))

theorem execFieldSelfTest_keeps {t : TestResult} (h : Keeps r s) : OutKeeps r (execFieldSelfTest t s) := by
  refine .ite .fault (.next ?_)
  split
  · exact h
  · exact .ite (applyResult_keeps h) h

/-! ### Every command, every step -/

/-- Every command keeps what `Keeps` compares. -/
theorem exec_keeps (c : Instr) (h : Keeps r s) : OutKeeps r (exec c s) := by
  cases c with
  | attend => exact .next (nvme_keeps h fun _ h => attendBody_keeps h)
  | searchQuery | searchScan => exact .next (nvme_keeps h fun _ h => searchCmd_keeps h)
  | indexCreate | indexInsert | indexDelete | indexCommit | indexDestroy | ingestBind | ingestUnbind | recallProbe =>
    exact .next (nvme_keeps h fun _ h => indexManage_keeps h)
  | tableCreate | writeRows | publish | abortStep | tableDestroy => exact .next (nvme_keeps h fun _ h => tableManage_keeps h)
  | gather => exact .next (nvme_keeps h fun _ h => gatherBody_keeps h)
  | scatterUpdate => exact .next (nvme_keeps h fun _ h => scatterBody_keeps h)
  | sessionOpen => exact .next (nvme_keeps h fun _ h => openBody_keeps h)
  | sessionClose => exact .next (nvme_keeps h fun _ h => closeBody_keeps h)
  | sessionMoveResidency | sessionExport => exact .next (nvme_keeps h fun _ h => sessionMove_keeps h)
  | flightLogGetSessionLog | flightLogGetClosedRecords | flightLogGetStepReports | flightLogGetProbeReport =>
    exact .next (nvme_keeps h fun _ h => flightLogGet_keeps h)
  | identify => exact .next (nvme_keeps h fun _ h => identifyBody_keeps h)
  | getLogPage => exact .next (nvme_keeps h fun _ h => logBody_keeps h)
  | getFeatures => exact .next (nvme_keeps h fun _ h => getFeatureBody_keeps h)
  | setFeatures => exact .next (nvme_keeps h fun _ h => setFeatureBody_keeps h)
  | abort => exact .next (nvme_keeps h fun _ h => abortBody_keeps h)
  | asynchronousEventRequest => exact .next (nvme_keeps h fun _ h => aerBody_keeps h)
  | createIoSubmissionQueue => exact .next (nvme_keeps h fun _ h => createSqBody_keeps h)
  | createIoCompletionQueue => exact .next (nvme_keeps h fun _ h => createCqBody_keeps h)
  | deleteIoSubmissionQueue => exact .next (nvme_keeps h fun _ h => deleteSqBody_keeps h)
  | deleteIoCompletionQueue => exact .next (nvme_keeps h fun _ h => deleteCqBody_keeps h)
  | namespaceCreate => exact .next (nvme_keeps h fun _ h => nsCreateBody_keeps h)
  | namespaceDelete => exact .next (nvme_keeps h fun _ h => nsDeleteBody_keeps h)
  | namespaceAttachment => exact .next (nvme_keeps h fun _ h => nsAttachBody_keeps h)
  | formatNvm => exact .next (nvme_keeps h fun _ h => formatBody_keeps h)
  | securitySend => exact .next (nvme_keeps h fun _ h => secSendBody_keeps h)
  | securityReceive => exact .next (nvme_keeps h fun _ h => secReceiveBody_keeps h)
  | nvmeMiSend => exact .next (nvme_keeps h fun _ h => miSendBody_keeps h)
  | nvmeMiReceive => exact .next (nvme_keeps h fun _ h => miReceiveBody_keeps h)
  | sanitize => exact .next (nvme_keeps h fun _ h => sanitizeBody_keeps h)
  | firmwareImageDownload => exact .next (nvme_keeps h fun _ h => downloadBody_keeps h)
  | firmwareCommit => exact .next (nvme_keeps h fun _ h => fwCommitBody_keeps h)
  | deviceSelfTest => exact .next (nvme_keeps h fun _ h => selfTestBody_keeps h)
  | read | write | compare | verify | writeZeroes | datasetManagement => exact .next (nvme_keeps h fun _ h => nvmBody_keeps h)
  | loadProgram => exact .next (nvme_keeps h fun _ h => loadBody_keeps h)
  | programActivationManagement => exact .next (nvme_keeps h fun _ h => activateBody_keeps h)
  | executeProgram => exact .next (nvme_keeps h fun _ h => execBody_keeps h)
  | memoryRangeSetManagement => exact .next (nvme_keeps h fun _ h => rangeSetBody_keeps h)
  | memoryRead => exact .next (nvme_keeps h fun _ h => memReadBody_keeps h)
  | memoryWrite => exact .next (nvme_keeps h fun _ h => memWriteBody_keeps h)
  | memoryCopy => exact .next (nvme_keeps h fun _ h => memCopyBody_keeps h)
  | meDescArm => exact .next (.ite (meWrite_keeps h) h)
  | passIssue => exact execPassIssue_keeps h
  | chainDrainComplete => exact .next (.ite (drainSlot_keeps h) h)
  | keepLitRampDown | arrayClockGate => exact .next (flowTo_keeps h)
  | residueFault => exact execResidueFault_keeps h
  | clockStepChange => exact .next (onCore_keeps h)
  | tileDescArm => exact .next (.ite (tdWrite_keeps h) h)
  | tileOpen => exact execTileOpen_keeps h
  | tileClose => exact .next (.ite (closeTile_keeps h) h)
  | tileComplete => exact .next (.ite (settle_keeps (completeTile_keeps h)) h)
  | tileBudgetExceeded => exact .next (.ite (settle_keeps (budgetEnd_keeps h)) h)
  | tmDescArm => exact .next (.ite (tmWrite_keeps h) h)
  | tmCopyComplete => exact execTmCopyComplete_keeps h
  | mboxInPop => exact .next (.ite (syncMbox_keeps (onBank_keeps h)) h)
  | mboxOutPush => exact execMboxOutPush_keeps h
  | coreDbOut => exact .next (.ite (settle_keeps (act_keeps h)) h)
  | firmwareMboxPost => exact execFirmwareMboxPost_keeps h
  | cpAccessFault => exact execCpAccessFault_keeps h
  | vectorElementwise => exact execVectorElementwise_keeps h
  | vectorFunction => exact .next (vecIssue_keeps h fun _ h => countVec_keeps (vPutCodes_keeps h))
  | vectorReduction => exact execVectorReduction_keeps h
  | vectorStore => exact execVectorStore_keeps h
  | vectorStochasticConvert => exact .next (vecIssue_keeps h fun _ h => .ite (accessFault_keeps h) (countVec_keeps (vPutCodes_keeps h)))
  | vectorBernoulliMask => exact .next (vecIssue_keeps h fun _ h => .ite (accessFault_keeps h) (onBank_keeps h))
  | vectorRawDraw => exact .next (vecIssue_keeps h fun _ h => onBank_keeps h)
  | lampDispatch => exact execLampDispatch_keeps h
  | lampContextStart => exact execLampContextStart_keeps h
  | lampInstructionIssue => exact execLampInstructionIssue_keeps h
  | lampDataArrive => exact execLampDataArrive_keeps h
  | lampContextEnd => exact execLampContextEnd_keeps h
  | partialMerge => exact execPartialMerge_keeps h
  | attendMergeComplete => exact execAttendMergeComplete_keeps h
  | searchRoundMerged => exact execSearchRoundMerged_keeps h
  | searchReplyMerge => exact execSearchReplyMerge_keeps h
  | searchTimeBudgetExpiry => exact execSearchTimeBudgetExpiry_keeps h
  | compactionChunk => exact execCompactionChunk_keeps h
  | generationFree => exact .next (Keeps.mk_ h rfl rfl rfl)
  | ingestSegment => exact execIngestSegment_keeps h
  | ingestChunkList => exact execIngestChunkList_keeps h
  | ingestCommit => exact execIngestCommit_keeps h
  | hotRowWindowEnd => exact execHotRowWindowEnd_keeps h
  | replay => exact .next (nvme_keeps h fun _ h => settle_keeps (replayBody_keeps h))
  | hotIdleDemote => exact execHotIdleDemote_keeps h
  | class0Preempt => exact execClass0Preempt_keeps h
  | coreSwitchComplete => exact execCoreSwitchComplete_keeps h
  | sliceEnd => exact .next (endTurn_keeps h)
  | energyMeterSample => exact .next (.foldl h fun _ _ h => splitEnergy_keeps h)
  | accountBind => exact .next (bindAccount_keeps (finishLocks_keeps h))
  | scrubPassEnd => exact .next (.ite (endPass_keeps h) h)
  | tagQuarantineRelease => exact .next (releaseTags_keeps h)
  | chkTestWrite => exact execChkTestWrite_keeps h
  | registerWrite => exact .next (regWrite_keeps h)
  | configRequest => exact .next (.ite (Keeps.mk_ h rfl rfl rfl) h)
  | sqTailDoorbell => exact .next (sqTail_keeps h)
  | cqHeadDoorbell => exact .next (cqHead_keeps h)
  | commandFetch => exact .next (fetchOne_keeps h)
  | flush => exact .next (nvme_keeps h fun _ h => complete_keeps h)
  | ioWatchdogExpiry => exact execIoWatchdogExpiry_keeps h
  | controllerReset => exact .next (.ite (settle_keeps (resetController_keeps h)) h)
  | functionLevelReset => exact .next (.ite (settle_keeps (tdiError_keeps (resetFunction_keeps h))) h)
  | conventionalReset => exact .next (settle_keeps (onPower_keeps (.foldl h fun _ _ h => resetFunction_keeps h)))
  | functionD3hot => exact execFunctionD3hot_keeps h
  | nandReadComplete => exact execNandReadComplete_keeps h
  | nandProgramComplete => exact execNandProgramComplete_keeps h
  | nandEraseComplete => exact execNandEraseComplete_keeps h
  | class0FlashPreempt => exact execClass0FlashPreempt_keeps h
  | ladderBudgetExpiry => exact execLadderBudgetExpiry_keeps h
  | destageTimeout => exact .next (destage_keeps h)
  | blockVerify => exact execBlockVerify_keeps h
  | moveCommit => exact execMoveCommit_keeps h
  | garbageCollection => exact execGarbageCollection_keeps h
  | patrolRead => exact .ite .fault (.next (.ite (.foldl h fun _ _ h => patrolPage_keeps h) h))
  | refreshMove => exact execRefreshMove_keeps h
  | wearLevelMove => exact execWearLevelMove_keeps h
  | mapCheckpoint => exact .next (.ite (checkpoint_keeps h) h)
  | nandDieFailure => exact execNandDieFailure_keeps h
  | wordProgram | sectorErase | blockErase => exact .next (cfSequence_keeps h)
  | suspend | resume | sequenceReset => exact .next (cfSingle_keeps h)
  | cfOperationDone => exact .next (cfEnd_keeps h)
  | cfArrayRead => exact execCfArrayRead_keeps h
  | cfRegionWrite => exact .next (cfRegionSet_keeps h)
  | fwActivation => exact .next (activate_keeps h)
  | tkStatus => exact .next (tkMessage_keeps h fun _ h => tkStatusBody_keeps h)
  | tkClaim => exact .next (tkMessage_keeps h fun _ h => tkClaimBody_keeps h)
  | tkUnlock => exact .next (tkMessage_keeps h fun _ h => tkUnlockBody_keeps h)
  | tkLock => exact .next (tkMessage_keeps h fun _ h => tkLockBody_keeps h)
  | ownerRequest | commit | discardStagedSet | factoryRestore | dlData | dlActionStage | dlActionStageActivate | dlActionDiscard |
    portKeyWrite =>
    exact .next (waoriWrite_keeps h)
  | spdmRequest => exact execSpdmRequest_keeps h
  | ideKmKeyProgram => exact .next (.ite h (.ite (respond_keeps h) (Keeps.mk_ h rfl rfl rfl)))
  | ideIntegrityFailure => exact .next (.ite h (finishLocks_keeps (.foldl (Keeps.mk_ h rfl rfl rfl) fun _ _ h => tdiError_keeps h)))
  | lockInterface | startInterface => exact .next (.ite h (onAcct_keeps h))
  | stopInterface => exact .next (.ite h (bindAccount_keeps (onAcct_keeps h)))
  | waoriRead | waoriWrite | waoriDescribe | waoriList => exact .next (waori_keeps h)
  | stagedSetTimeout => exact .next (setStaged_keeps h)
  | waoriFrame => exact .next (portFrame_keeps h)
  | discoverFrame => exact .next (.ite (discoverFrame_keeps h) h)
  | announce => exact .next (.ite h (.ite h (onDict_keeps (sendFrame_keeps h) fun _ => rfl)))
  | i3cEntdaa | plcaBeaconTimeout | plcaBeaconReceived | plcaOpportunityCollision => exact .next (.ite (onDict_keeps h fun _ => rfl) h)
  | pilotClockStart | linkTrainingComplete => exact .next (.ite (onPower_keeps h) h)
  | pilotClockStop => exact .next (.ite h (onPower_keeps h))
  | coreDim => exact .next (.ite (onCore_keeps h) h)
  | coreDark => exact .next (.ite (darkCore_keeps h) h)
  | coreWake => exact .next (.ite (wakeCore_keeps h) h)
  | canopyDieDark => exact .next (.ite h (settle_keeps (dieOff_keeps (.foldl h fun _ _ h => dropGrant_keeps h))))
  | bankedEntry => exact .next (.ite (onPower_keeps (setRoots_keeps (dieOff_keeps (dieOff_keeps h)))) h)
  | parkedEntry => exact .next (.ite (park_keeps h) h)
  | parkedDueWork => exact .next (.ite (onPower_keeps (setRoots_keeps h)) h)
  | wakeToRunning => exact .next (.ite (settle_keeps (startChannels_keeps (onPower_keeps (setRoots_keeps h)))) h)
  | powerSample => exact .next (.ite (controlPower_keeps (onPower_keeps h)) (onPower_keeps h))
  | thermalStep => exact .next (.ite (thermalReading_keeps h) (noteJunction_keeps h))
  | emergencyTrip => exact .next (.ite (trip_keeps h) h)
  | emergencyThrottleEnd | pwrbrkRelease => exact .next (onPower_keeps h)
  | thermalShutdown => exact .next (.ite (thermalOff_keeps (noteJunction_keeps h)) (noteJunction_keeps h))
  | nandCaseTempLimit =>
    exact .next (.ite (thermalOff_keeps (onChan_keeps (onPower_keeps h))) (startAll_keeps (onChan_keeps (onPower_keeps h))))
  | powerLossDetect => exact .next (powerLoss_keeps h)
  | bankTest => exact execBankTest_keeps h
  | powerOnStartup => exact .ite .fault (.next (startUp_keeps h))
  | vauxPowerOn => exact .next (.ite h (pilotUpWith_keeps (onDict_keeps (onPower_keeps h) fun _ => rfl)))
  | singleInput12v => exact .next (.ite h (pilotUpWith_keeps (onPower_keeps h)))
  | pwrbrkAssert => exact .next (.ite h (brake_keeps h))
  | railOutOfRegulation => exact .next (.ite (.ite (powerLoss_keeps h) h) (.ite h (faultModule_keeps h)))
  | fieldSelfTest => exact execFieldSelfTest_keeps h
  | moduleFault => exact .next (.ite (faultModule_keeps h) h)
  | pilotWatchdogReset => exact .next (.ite (pilotStart_keeps (cfRegions_keeps (cfRedo_keeps (pilotReset_keeps h)))) h)
  | controlProcessorStore => exact .ite .fault (.next (.ite (cpStore_keeps h) h))
  | holdupSequenceEnd => exact .next (holdupEnd_keeps h)
  | vauxRemoval => exact execVauxRemoval_keeps h
  | lpddr5xTempLimit => exact .next (.ite (thermalOff_keeps (onPower_keeps h)) (onPower_keeps h))
  | icmpv6Request => exact .next (.ite h (sendFrame_keeps h))
  | spdmHeartbeatTimeout => exact .next (onSpdm_keeps h)
  | activationCommandTimeout => exact .next (.ite h (finishActivation_keeps (.foldl h fun _ _ h => cancelWith_keeps h)))

/-- Every step keeps what `Keeps` compares, from the state whose front command it has taken. -/
theorem step_keeps : OutKeeps { s with pending := s.pending.tail } (step s) := by
  unfold step
  split
  · rename_i e
    have hs : { s with pending := s.pending.tail } = s := by rw [e, List.tail_nil, ← e]
    rw [hs]
    exact .next (settle_keeps (endSanitize_keeps (.refl s)))
  · rename_i e
    rw [e]
    exact exec_keeps _ (.refl _)

end Sys2Proof.Machine
end

section
/-! SUPPORT. The anti-rollback counters of the secure store (R367): where an image first starts they advance; resets, a sanitize,
TK_CLAIM and a factory restore leave the store's counters. -/

namespace Sys2Proof.Machine

/-! ### The write-in and the start of an image -/

theorem pilotStart_view (s : State) (n : W64) : sView (pilotStart s n).store = sView s.store := by
  simp [pilotStart, sView]

theorem adoptImage_store (s : State) (img : Bytes) : (adoptImage s img).store =
    { s.store with fwFloor := max s.store.fwFloor (imgSvn img), revoked := revokeBelow s.store.revoked img } := by
  rw [adoptImage, runImage_store]

/-- What an image's first start makes of the counters depends on the counters alone. -/
theorem adoptImage_view {s t : State} (h : sView t.store = sView s.store) (img : Bytes) :
    sView (adoptImage t img).store = sView (adoptImage s img).store := by
  simp only [sView, Prod.mk.injEq] at h
  obtain ⟨hf, hr, ho⟩ := h
  rw [adoptImage_store, adoptImage_store]
  simp only [sView, hf, hr, ho]

/-- REVOKE_BELOW revokes the boot keys below KEY_INDEX and no other. -/
theorem revokeBelow_getLsbD (old : BitVec 8) (img : Bytes) {i : Nat} (hi : i < 8) :
    (revokeBelow old img).getLsbD i = (old.getLsbD i || (bitOf (Bytes.le img 6 2) 0 && decide (i < sigIndex img 0))) := by
  unfold revokeBelow
  split <;> rename_i h
  · rw [BitVec.getLsbD_or, BitVec.getLsbD_ofNat, Nat.testBit_two_pow_sub_one, h]
    simp [hi]
  · simp [h]

/-- The writer takes the first replica that reads back right, and leaves the store. -/
theorem writeIn_first {s : State} {l : List Bool} {img : Bytes} {rest : List (Bytes × Bool)}
    (h : (s.fw.stage.replicas.zip l).filter (·.2) = (img, true) :: rest) :
    ∃ v, writeIn s l = some (v, img) ∧ v.store = s.store := by
  unfold writeIn
  rw [h]
  exact ⟨_, rfl, by rw [setStage_store, cfRegions_store, cfWriteImage_store]⟩

theorem writeIn_store {s v : State} {l : List Bool} {img : Bytes} (h : writeIn s l = some (v, img)) : v.store = s.store := by
  unfold writeIn at h
  dsimp only at h
  split at h
  · cases h
    rw [setStage_store, cfRegions_store, cfWriteImage_store]
  · cases h

/-- Step 5 of an activation: the counters advance by the image that the writer took. -/
theorem activate_view {s v : State} {l : List Bool} {img : Bytes} (ha : s.fw.activating = 3) (h : writeIn s l = some (v, img)) :
    sView (activate s l).store = sView (adoptImage s img).store := by
  have hv : ∀ n, sView (pilotStart (drawNonce v) n).store = sView s.store := fun n => by
    rw [pilotStart_view, drawNonce_store, writeIn_store h]
  unfold activate
  rw [if_neg (by simp [ha]), if_pos ha]
  unfold activationEnds
  rw [h]
  dsimp only
  rw [finishActivation_store, onFw_store, tdisToError_store, endSpdm_store, adoptImage_view (hv _)]

/-! ### What the boot ROM's records leave of the firmware state -/

theorem foldl_fw {α : Type} {f : State → α → State} {l : List α} {s : State} (h : ∀ s a, (f s a).fw = s.fw) :
    (l.foldl f s).fw = s.fw := by
  induction l generalizing s with
  | nil => rfl
  | cons a l ih => exact ih.trans (h s a)

theorem notice_fw (s : State) (f : Fin 128) (w : Nat) : (notice s f w).fw = s.fw := by
  unfold notice; dsimp only; split
  · rfl
  · split <;> rfl

theorem noticeAll_fw (s : State) (w : Nat) : (noticeAll s w).fw = s.fw := foldl_fw fun _ _ => notice_fw ..

theorem logEvent_fw (s : State) (die code : Nat) (w : Who) (d : Bytes) : (logEvent s die code w d).fw = s.fw := by
  unfold logEvent; dsimp only
  split <;> simp [apply_ite State.fw, notice_fw, noticeAll_fw, addRec]

theorem fwFailed_fw (s : State) (w : Who) (reason path : Nat) : (fwFailed s w reason path).fw = s.fw := by
  rw [fwFailed, logEvent_fw, bump_fw]

theorem bootFailures_fw (s : State) (bad : Bool) (l : List Bool) : (bootFailures s bad l).fw = s.fw := by
  unfold bootFailures; dsimp only
  rw [foldl_fw fun _ _ => fwFailed_fw ..]
  split
  · exact fwFailed_fw ..
  · rfl

theorem cfUndefine_fw (s : State) (off n : Nat) : (cfUndefine s off n).fw = s.fw := rfl

theorem pilotReset_fw (s : State) : (pilotReset s).fw = s.fw := by
  unfold pilotReset cfReset; dsimp only
  rw [onDict_fw, onCf_fw, foldl_fw fun _ _ => cfUndefine_fw .., foldl_fw fun _ _ => cfUndefine_fw ..]

theorem cfErased_fw (s : State) (l : List Nat) : (cfErased s l).fw = s.fw := by rw [cfErased, onCf_fw]

theorem cfRedo_fw (s : State) : (cfRedo s).fw = s.fw := by
  unfold cfRedo; dsimp only; rw [bump_fw, cfErased_fw]

/-- The end of a start-up's write-in: with STATE 3 the first replica that reads back right is written in and starts. -/
theorem pilotBoot_view {s : State} {ok : Bool} {l : List Bool} {n : W64} {img : Bytes} {rest : List (Bytes × Bool)}
    (h3 : s.fw.stage.state = 3) (h : (s.fw.stage.replicas.zip l).filter (·.2) = (img, true) :: rest) :
    sView (pilotBoot s ok true l n).store = sView (adoptImage s img).store := by
  unfold pilotBoot
  extract_lets u lost v bad w
  have hs : v.fw.stage = s.fw.stage := by rw [onFw_fw, cfRedo_fw, pilotReset_fw]
  have hw : w.fw.stage = s.fw.stage := by rw [bootFailures_fw, hs]
  have hst : w.store = s.store := by rw [bootFailures_store, onFw_store, cfRedo_store, pilotReset_store]
  rw [if_neg (by simp [hs, h3]), if_pos rfl]
  obtain ⟨x, hx, hxs⟩ := writeIn_first (s := w) (l := l) (hw ▸ h)
  rw [hx]
  dsimp only
  rw [portStart_store, bump_store]
  exact adoptImage_view (by rw [pilotStart_view, hxs, hst]) img

/-! ### Owner requests -/

theorem ownerResult_view {s : State} {b : Bytes} {st : SecStore} (h : ownerResult s b = some st) :
    sView st = (s.store.fwFloor, s.store.revoked, s.store.ownerSeq + 1) := by
  unfold ownerResult at h
  extract_lets quorum need at h
  clear_value quorum need
  split at h
  · cases h
  · split at h
    · rename_i q
      split at h
      · cases h
        have hv := ownerSlots_view q
        simp only [sView, Prod.mk.injEq] at hv ⊢
        obtain ⟨hf, hr, -⟩ := hv
        exact ⟨hf, hr, trivial⟩
      · cases h
    · cases h

/-! ### A factory restore is a WRITE of one object -/

theorem find_factoryRestore : Dic.find 0xA00006 = some ⟨0xA00006, 4, 4, 4, 0, 4294967295, 0, true, false⟩ := by decide +kernel

/-- The PDU of a WRITE of 0xA00006 (R397, R398): the header, then the item. -/
theorem writePdu_factoryRestore (v : Nat) : writePdu 0xA00006 (toLe 4 v) =
    [2, 1, 0, 0, 0, 0, 28, 0, 0, 0, 0, 0, 0, 0, 0, 0, 0, 0xA0, 6, 0, 4, 0, 0, 0] ++ toLe 4 v := by
  simp [writePdu, toLe, roundUp, ceilDiv]

theorem parsePdu_factoryRestore (v : Nat) :
    parsePdu (writePdu 0xA00006 (toLe 4 v)) = some [{ id := 0xA00006, value := toLe 4 v }] := by
  rw [writePdu_factoryRestore]
  simp [parsePdu, parseItems, Bytes.le, Bytes.sub, leNat, toLe, roundUp, ceilDiv]

theorem writeObj_factoryRestore_store (s : State) (src : WSrc) (b : Bytes) :
    (writeObj s src ⟨0xA00006, 4, 4, 4, 0, 4294967295, 0, true, false⟩ b).1.store = s.store := by
  simp [writeObj, apply_ite Prod.fst]

theorem doItem_factoryRestore_store (s : State) (src : WSrc) (op : Nat) (staged : Bool) (b : Bytes) :
    (doItem s src op staged 0xA00006 b).1.store = s.store := by
  unfold doItem
  split
  · rfl
  · split
    · rfl
    · rw [find_factoryRestore]
      dsimp only
      split
      · rfl
      · split
        · rfl
        · exact writeObj_factoryRestore_store s src b

theorem factoryRestore_store (s : State) (src : WSrc) (v : Nat) : (waoriWrite s src 0xA00006 (toLe 4 v)).store = s.store := by
  have hp : (handlePdu s src (writePdu 0xA00006 (toLe 4 v))).1.store = s.store := by
    unfold handlePdu
    rw [parsePdu_factoryRestore]
    simp [apply_ite Prod.fst, doItems, doItem_factoryRestore_store]
  unfold waoriWrite waori
  split
  · rfl
  · split
    rename_i e
    rw [onDict_store, store_eq e, hp]

/-! ### The commands that leave the counters -/

/-- The three values that `sView` shows, one by one. -/
theorem sView_eq_iff {x y : SecStore} :
    sView x = sView y ↔ x.fwFloor = y.fwFloor ∧ x.ownerSeq = y.ownerSeq ∧ x.revoked = y.revoked := by
  rw [Prod.mk.injEq, Prod.mk.injEq, and_comm (a := x.revoked = y.revoked)]

theorem view_of_next {s t u : State} (hu : sView u.store = sView s.store) (h : (.next u : Out) = .next t) :
    sView t.store = sView s.store := Host.Outcome.next.inj h ▸ hu

/-- A factory restore, a sanitize, TK_CLAIM and the resets leave the counters (R282, R376, R385, R392, R433). -/
theorem reset_leaves_counters (src : WSrc) (x : W32) (e : Sqe) (f : Fin 128) (i : Option Nat) (m : Byte) (k : Bytes) (n : W64)
    (s t : State) : ∀ c ∈ [Instr.factoryRestore src x, .sanitize e, .tkClaim f i m k, .controllerReset f, .functionLevelReset f,
      .conventionalReset, .pilotWatchdogReset n], exec c s = .next t → sView t.store = sView s.store := by
  simp only [List.forall_mem_cons, List.not_mem_nil, false_imp_iff, implies_true, and_true]
  refine ⟨view_of_next ?factoryRestore, view_of_next ?sanitize, view_of_next ?tkClaim, view_of_next ?controllerReset,
    view_of_next ?functionLevelReset, view_of_next ?conventionalReset, view_of_next ?pilotWatchdogReset⟩
  case factoryRestore => exact congrArg sView (factoryRestore_store s src x.toNat)
  case sanitize => exact congrArg sView (nvme_store fun _ => sanitizeBody_store)
  case tkClaim => exact congrArg sView (tkMessage_store fun _ => tkClaimBody_store)
  case controllerReset => split <;> simp
  case functionLevelReset => split <;> simp
  case conventionalReset => rw [settle_store, onPower_store, foldl_store fun _ _ => resetFunction_store]
  case pilotWatchdogReset =>
    split
    · rw [pilotStart_view, cfRegions_store, cfRedo_store, pilotReset_store]
    · rfl

/-- Check 0x06 refuses an image of lower SVN alone (Table 15-4). -/
theorem fwReason_of_svn_eq {s : State} {b : Bytes} (h : imgSvn b = s.store.fwFloor) : fwReason s b ≠ some 6 := by
  unfold fwReason
  rw [if_neg (show ¬ imgSvn b < s.store.fwFloor by omega)]
  repeat' split
  all_goals simp

/-- Settles O6: no command lowers what `Keeps` compares (`step_keeps`); where an image starts, the view of the store is
`adoptImage`'s, as nothing else on the way writes the store. -/
theorem antiRollbackNeverFalls : Obligations.AntiRollbackNeverFalls := by
  unfold Obligations.AntiRollbackNeverFalls
  refine ⟨fun s t h => ?_, fun s img => ?_, fun l s v img ha hw => ?_, fun s ok l n img rest h3 h => ?_, fun s r st h => ?_,
    fun src x e f i m k n s t c hc h => ?_, fun s b h => ?_⟩
  · have k := step_keeps t h
    exact ⟨k.floor, k.owner, k.revoked⟩
  · rw [adoptImage_store]
    exact ⟨rfl, rfl, fun i hi => revokeBelow_getLsbD _ _ hi⟩
  · obtain ⟨hf, ho, hr⟩ := sView_eq_iff.mp (activate_view ha hw)
    exact ⟨_, rfl, hf, ho.trans (by rw [adoptImage_store]), hr⟩
  · obtain ⟨hf, ho, hr⟩ := sView_eq_iff.mp (pilotBoot_view h3 h)
    exact ⟨hf, ho.trans (by rw [adoptImage_store]), hr⟩
  · obtain ⟨hf, hr, ho⟩ : st.fwFloor = s.store.fwFloor ∧ st.revoked = s.store.revoked ∧ st.ownerSeq = s.store.ownerSeq + 1 := by
      simpa only [Prod.mk.injEq] using ownerResult_view h
    exact ⟨ho, hf, hr⟩
  · exact sView_eq_iff.mp (reset_leaves_counters src x e f i m k n s t c hc h)
  · exact fwReason_of_svn_eq h

end Sys2Proof.Machine
end

section
/-! SUPPORT. The factory restore (R392): a WRITE of one object is answered as its one item ends, and what the restore leaves of
the dictionary, of TD_GATHER_CFG and of the code flash. -/

namespace Sys2Proof

theorem leNat_toLe (n v : Nat) : leNat (toLe n v) = v % 256 ^ n := by
  induction n generalizing v with
  | zero => simp [toLe, leNat, Nat.mod_one]
  | succ n ih =>
    have hpow : 256 ^ (n + 1) = 256 * 256 ^ n := Nat.pow_succ'
    rw [toLe, leNat, ih, BitVec.toNat_ofNat, hpow, Nat.mod_mul]

@[simp] theorem toLe_length (n v : Nat) : (toLe n v).length = n := by
  induction n generalizing v with
  | zero => rfl
  | succ n ih => rw [toLe, List.length_cons, ih]

/-- The four bytes of a word read back as the word. -/
theorem leNat_toLe_word (v : W32) : leNat (toLe 4 v.toNat) = v.toNat := by
  rw [leNat_toLe]; exact Nat.mod_eq_of_lt v.isLt

/-- A table that keeps the keys of a test reads as before at those and holds nothing at the others. -/
theorem Tab.get?_keep {α : Type} (t : Tab α) (p : Nat → Bool) (i : Nat) :
    (t.keep fun j _ => p j).get? i = if p i then t.get? i else none := by
  unfold Tab.keep
  induction t with
  | nil => simp [Tab.get?]
  | cons q t ih =>
    obtain ⟨k, v⟩ := q
    by_cases e : k = i
    · subst e
      cases h : p k <;> simp [h, ih, Tab.get?]
    · cases h : p k <;> simp [h, ih, Tab.get?, e]

namespace Machine

/-! ### A WRITE of one object -/

/-- A WRITE of one object whose PDU is well formed: the pilot runs its one item and the response is recorded (R390, R396). -/
theorem waoriWrite_answered {s : State} {src : WSrc} {id : Nat} {v : Bytes} (hp : pilotPowered s = true)
    (hu : s.fw.pilotUp = true) (hpdu : parsePdu (writePdu id v) = some [{ id := id, value := v }]) :
    waoriWrite s src id v = Answered src id (doItem s src 2 false id v) := by
  have hop : Bytes.le (writePdu id v) 0 1 = 2 := rfl
  have hpf : Bytes.le (writePdu id v) 2 1 = 0 := rfl
  have hr : handlePdu s src (writePdu id v) =
      let r := doItem s src 2 false id v
      (r.1, responsePdu r.1 2 1 0 (if r.1.fw.recovery then 3 else 0) 0 (responseItem id r.2.1 r.2.2)) := by
    unfold handlePdu
    simp only [hop, hpf, hu, hpdu]
    simp [doItems, bitOf]
  unfold waoriWrite waori
  rw [hp, hr]
  rfl

/-- Outside recovery an item of a source with security rights passes: the port never carries them (R370, R401). -/
theorem itemGate_of_rights {s : State} {src : WSrc} (hr : rights s src = true) (hrec : s.fw.recovery = false) (w : Bool)
    (id : Nat) : itemGate s src w id = none := by
  have hport : src.via ≠ .port := fun h => by simp [rights, h] at hr
  simp [itemGate, hrec, hport]

/-- The WRITE item of 0xA00006: the value that asks for the restore, or RANGE. -/
theorem doItem_factoryRestore {s : State} {src : WSrc} (hr : rights s src = true) (hrec : s.fw.recovery = false) (v : W32) :
    doItem s src 2 false 0xA00006 (toLe 4 v.toNat) =
      if v = 0x54535246 then ((restoreFactory s).1, (restoreFactory s).2, []) else (s, stRange, []) := by
  have hv : v.toNat = 0x54535246 ↔ v = 0x54535246 := by rw [← BitVec.toNat_inj]; rfl
  have hlt : ¬ 4294967295 < v.toNat := by have := v.isLt; omega
  unfold doItem
  rw [itemGate_of_rights hr hrec, find_factoryRestore]
  simp [writeObj, hr, badType, badRange, leNat_toLe_word, hv, hlt]

/-- FACTORY_RESTORE of a source with rights, by the value written. -/
theorem execFactoryRestore_eq {s : State} {src : WSrc} (hp : pilotPowered s = true) (hu : s.fw.pilotUp = true)
    (hrec : s.fw.recovery = false) (hr : rights s src = true) (v : W32) : exec (.factoryRestore src v) s =
      .next (Answered src 0xA00006
        (if v = 0x54535246 then ((restoreFactory s).1, (restoreFactory s).2, []) else (s, stRange, []))) := by
  rw [← doItem_factoryRestore hr hrec, ← waoriWrite_answered hp hu (parsePdu_factoryRestore _)]
  rfl

/-! ### The settings reach the hardware -/

/-- A state whose settings the hardware has taken: TD_GATHER_CFG, with the hot rows that it drops, the port settings, the PLCA
status and the announcements due; and the responses recorded so far. -/
def withSettings (s : State) (g : W64) (port : Tab Nat) (plca due : Nat) (resp : List (Nat × Bytes)) : State :=
  { setGatherCfg s g with
    dict := { s.dict with portCfg := port, plca := plca, announceDue := due, responses := resp } }

section
variable (s : State) (g : W64) (port : Tab Nat) (plca due : Nat) (resp : List (Nat × Bytes))

@[simp] theorem withSettings_vals : (withSettings s g port plca due resp).dict.vals = s.dict.vals := rfl
@[simp] theorem withSettings_counter (id : Nat) : counter (withSettings s g port plca due resp) id = counter s id := rfl
@[simp] theorem withSettings_dv (id : Nat) : dv (withSettings s g port plca due resp) id = dv s id := by
  unfold dv; rw [withSettings_vals]

@[simp] theorem withSettings_gatherFrom : gatherFrom (withSettings s g port plca due resp) = gatherFrom s := by
  simp only [gatherFrom, withSettings_dv]

@[simp] theorem withSettings_portSettings : portSettings (withSettings s g port plca due resp) = portSettings s := by
  simp only [portSettings, withSettings_dv]

/-- An answer adds its response and leaves everything else. -/
theorem answered_withSettings (src : WSrc) (id st : Nat) (b : Bytes) : ∃ resp',
    Answered src id (withSettings s g port plca due resp, st, b) = withSettings s g port plca due resp' := ⟨_, rfl⟩

end

theorem setGatherCfg_portSettings (s : State) (v : W64) : portSettings (setGatherCfg s v) = portSettings s := rfl

theorem applySettings_eq_onDict (s : State) : ∃ f, applySettings s = onDict (setGatherCfg s (gatherFrom s)) f ∧
    ∀ d, ∃ plca due, f d =
      { d with portCfg := portSettings (setGatherCfg s (gatherFrom s)), plca := plca, announceDue := due } := by
  unfold applySettings
  exact ⟨_, rfl, fun d => ⟨_, _, rfl⟩⟩

theorem onDict_setGatherCfg (s : State) (g : W64) (f : Dict → Dict) (port : Tab Nat) (plca due : Nat)
    (h : f s.dict = { s.dict with portCfg := port, plca := plca, announceDue := due }) :
    onDict (setGatherCfg s g) f = withSettings s g port plca due s.dict.responses := by
  rw [withSettings, ← h]
  rfl

/-- Applying the settings gives the hardware those that the dictionary's values make (R395, R409). -/
theorem applySettings_eq (s : State) : ∃ plca due,
    applySettings s = withSettings s (gatherFrom s) (portSettings s) plca due s.dict.responses := by
  obtain ⟨f, happ, hf⟩ := applySettings_eq_onDict s
  obtain ⟨plca, due, hd⟩ := hf s.dict
  rw [setGatherCfg_portSettings] at hd
  exact ⟨plca, due, happ.trans (onDict_setGatherCfg _ _ _ _ _ _ hd)⟩

/-! ### What a restore leaves -/

/-- Would the restore change a value that a TDI lock holds (R384)? -/
def restoreLocked (s : State) : Bool :=
  s.dict.vals.any fun p => p.1 / 2 ^ 20 != 5 && lockHolds s p.1 (((Dic.find p.1).map (·.dflt)).getD 0)

/-- The state with the settings, staged sets, counters and erase counts of R392 set back, before the hardware takes them. -/
def setBack (s : State) : State :=
  onCf (onDict s fun d =>
    { d with vals := d.vals.keep fun id _ => id / 2 ^ 20 == 5, staged := [], epoch := d.epoch + 1
             counters := d.counters.keep fun id _ => !((Dic.find id).map (·.frest)).getD false })
    fun f => { f with erases := [] }

theorem restoreFactory_eq (s : State) :
    restoreFactory s = if restoreLocked s then (s, stLocked) else (applySettings (setBack s), stOk) := by
  simp only [restoreFactory, restoreLocked, List.any_filter]
  rfl

/-- The 0x5000 range keeps its values; every other object holds none. -/
theorem setBack_get? (s : State) (id : Nat) :
    (setBack s).dict.vals.get? id = if id / 2 ^ 20 = 5 then s.dict.vals.get? id else none := by
  refine (Tab.get?_keep s.dict.vals (fun j => j / 2 ^ 20 == 5) id).trans ?_
  simp only [beq_iff_eq]

/-- An object outside the 0x5000 range takes its factory default. -/
theorem setBack_dv (s : State) {id : Nat} (h : id / 2 ^ 20 ≠ 5) :
    dv (setBack s) id = ((Dic.find id).map (·.dflt)).getD 0 := by
  unfold dv; rw [setBack_get?, if_neg h]

/-- A counter that Table 16-12 marks is zero, and every other stands. -/
theorem setBack_counter (s : State) (id : Nat) :
    counter (setBack s) id = if ((Dic.find id).map (·.frest)).getD false then 0 else counter s id := by
  refine (getD_keep (t := s.dict.counters) (p := fun j => !((Dic.find j).map (·.frest)).getD false) id).trans ?_
  cases ((Dic.find id).map (·.frest)).getD false <;> rfl

/-- Once the hardware has taken the settings, only the dictionary, TD_GATHER_CFG with its hot rows and the erase counts of the
code flash differ. -/
theorem withSettings_setBack_frame (s : State) (g : W64) (port : Tab Nat) (plca due : Nat) (resp : List (Nat × Bytes)) :
    withSettings (setBack s) g port plca due resp =
      { s with dict := (withSettings (setBack s) g port plca due resp).dict, gatherCfg := g
               tables := (setGatherCfg s g).tables, cf := { s.cf with erases := [] } } := rfl

/-- A restore that no TDI lock bars ends in the state set back, with its settings taken by the hardware. -/
theorem execFactoryRestore_restores {s : State} {src : WSrc} (hp : pilotPowered s = true) (hu : s.fw.pilotUp = true)
    (hrec : s.fw.recovery = false) (hr : rights s src = true) (hl : restoreLocked s = false) : ∃ plca due resp,
    exec (.factoryRestore src 0x54535246) s =
      .next (withSettings (setBack s) (gatherFrom (setBack s)) (portSettings (setBack s)) plca due resp) := by
  obtain ⟨plca, due, happ⟩ := applySettings_eq (setBack s)
  obtain ⟨resp, hans⟩ := answered_withSettings (setBack s) (gatherFrom (setBack s)) (portSettings (setBack s)) plca due
    (setBack s).dict.responses src 0xA00006 stOk []
  refine ⟨plca, due, resp, ?_⟩
  rw [execFactoryRestore_eq hp hu hrec hr, if_pos rfl, restoreFactory_eq, hl, ← hans, ← happ]
  rfl

/-- Settles O8: the item of 0xA00006 ends with RANGE, with LOCKED, or in the state set back with its settings taken by the
hardware (`execFactoryRestore_eq`, `restoreFactory_eq`, `execFactoryRestore_restores`). -/
theorem factoryRestoreIsOneStep : Obligations.FactoryRestoreIsOneStep := by
  unfold Obligations.FactoryRestoreIsOneStep
  intro src v s hp hu hrec hr lost
  have hlost : restoreLocked s = lost := rfl
  refine ⟨fun hv => ?wrongValue, fun hv hl => ?locked, fun hv hl => ?restored⟩
  case wrongValue => rw [execFactoryRestore_eq hp hu hrec hr, if_neg hv]
  case locked => rw [execFactoryRestore_eq hp hu hrec hr, if_pos hv, restoreFactory_eq, hlost, if_pos hl]
  case restored =>
    subst hv
    obtain ⟨plca, due, resp, hexec⟩ := execFactoryRestore_restores hp hu hrec hr (hlost.trans hl)
    refine ⟨_, hexec, withSettings_setBack_frame .., rfl, setBack_get? s, fun id h => ?values, rfl, fun id => ?counters, rfl,
      (withSettings_gatherFrom ..).symm, (withSettings_portSettings ..).symm⟩
    case values => rw [withSettings_dv, setBack_dv s h]
    case counters => rw [withSettings_counter, setBack_counter]

end Machine
end Sys2Proof
end
